-- ==== Sys2Proof/Word.lean ====
section
/-! DEFINITION. The word types of the device (00 R4, R9; 07 R170) and their plainest arithmetic. -/

namespace Sys2Proof

/-- A 64-bit register value (R170). -/
abbrev Word := BitVec 64
/-- A 32-bit instruction word, syllable or FP32 pattern (R136, R156, R113). -/
abbrev W32 := BitVec 32
/-- One byte of storage (R4). -/
abbrev Byte := BitVec 8

end Sys2Proof
end

