-- ==== Sys2Proof/Config.lean ====
section
/-! DEFINITION. What one implementation fixes and the spec leaves open: constants without a body, so that
no proof can see their values. Each is named in the assumption log. -/

namespace Sys2Proof.Config

/-- The ordering code: true for an OZ4-M, which has the far tier (R1, R2). Log 6. -/
opaque isM : Bool
/-- The free values (log 7): the n-th value the spec calls "any value" or leaves unstated. -/
opaque freeValue : Nat → BitVec 64
/-- The digest SHA3-256 of FIPS 202, which the spec names and does not define (R457, R463). Log 8. -/
opaque sha3 : List (BitVec 8) → List (BitVec 8)
/-- Whether a signature over a digest verifies under the ROM key of R457, which the spec does not give. Log 8. -/
opaque signatureValid : List (BitVec 8) → List (BitVec 8) → Bool
/-- The ML-DSA-44 signature made with the identity key (R459, R463). Log 8. -/
opaque identitySign : List (BitVec 8) → List (BitVec 8)
/-- The identity public key, derived from a fused secret (R459). Log 8. -/
opaque identityKey : List (BitVec 8)
/-- The identity certificate's signature by Gorend (R459, R463). Log 8. -/
opaque identityCert : List (BitVec 8)
/-- The rollback level fused at manufacture (R457). Log 8. -/
opaque fuseLevel : Nat
/-- The near frame that the firmware takes for a page moving to the device (R403). Log 9. -/
opaque migrationFrame : Nat → Nat
/-- The i-th byte of what a record of a save area holds where the spec gives its content and no layout, or leaves the format to the
firmware (R381, R382): any function of that content. Log 9. -/
opaque recordByte {α : Type} (content : α) (i : Nat) : BitVec 8

/-- The versioned buffer of a peer that an offset lies in (R80, R110), which a device tells by a means that the spec leaves open.
Log 75. -/
opaque peerBuffer : Nat → Nat → Nat

/-- The row of a pseudo-channel that a near address lies in (R452), whose size the spec does not give. Log 99. -/
opaque dramRow : Nat → Nat

end Sys2Proof.Config
end

