-- ==== Sys2Proof/Syntax.lean ====
section
/-! DEFINITION. The syntax: one constructor of Instr per row of spec/opcode_table.json. Grain instructions
(06 R137 to R155) and chisel syllables (06 R156 to R163) carry decoded operands; an event row carries what
identifies the happening. -/

namespace Sys2Proof

/-- A register field of a grain word (R138): a global, or a register of the current window. -/
inductive GReg where
  | g (n : Fin 16)
  | w (n : Fin 16)
  deriving DecidableEq, Repr

/-- The conditions of BR, CMP, CMPI and the chisel CMP (R173). -/
inductive Cond where
  | eq | ne | lt | ge | ltn | gen
  deriving DecidableEq, Repr

/-- The conditions of FCMP (R184). -/
inductive FCond where
  | eq | lt | le | un
  deriving DecidableEq, Repr

/-- Kinds of AMO (R154). -/
inductive AmoKind where
  | add | and | or | xor | swap | min | max | minn | maxn
  deriving DecidableEq, Repr

/-- Kinds of RED (R154). -/
inductive RedKind where
  | add | min | max | or
  deriving DecidableEq, Repr

/-- Types of RED (R154, R210). -/
inductive RedType where
  | i32 | i64 | n32 | n64 | f32
  deriving DecidableEq, Repr

/-- Scope codes (R86). -/
inductive Scope where
  | strand | core | rect | device | system
  deriving DecidableEq, Repr

/-- Order codes (R88). -/
inductive Order where
  | rlx | acq | rel | ar
  deriving DecidableEq, Repr

/-- Kinds of FENCE (R96, R154). -/
inductive FenceKind where
  | acq | rel | ar
  deriving DecidableEq, Repr

/-- Types of LD (R200). -/
inductive LdType where
  | i8 | i16 | i32 | i64 | n8 | n16 | n32
  deriving DecidableEq, Repr

/-- Sizes of ST (R201). -/
inductive StSize where
  | b1 | b2 | b4 | b8
  deriving DecidableEq, Repr

/-- Width of an atomic (R154). -/
inductive AWidth where
  | w32 | w64
  deriving DecidableEq, Repr

/-- Element sizes of XGATHER and XSCATTER (R155). -/
inductive ElemSize where
  | e4 | e8 | e16 | e32 | e64
  deriving DecidableEq, Repr

/-- Variants of XCOLL (R155). -/
inductive CollOp where
  | addF32 | addI64 | minF32 | maxF32 | minI64 | maxI64 | bcast
  deriving DecidableEq, Repr

/-- The two scalar slots of a bundle (R156, R160). -/
inductive SSlot where
  | s0 | s1
  deriving DecidableEq, Repr

/-- The handle fields that HGET reads (R160). -/
inductive HField where
  | kind | gen | tag | buf | core | cluster | mask
  deriving DecidableEq, Repr

abbrev SReg := Fin 32
abbrev VReg := Fin 16
abbrev PReg := Fin 8
abbrev MpReg := Fin 8
abbrev Acc := Fin 8
abbrev OSlot := Fin 128
/-- A 4-bit format code as the encoding carries it (R112); reserved codes trap FMT when executed. -/
abbrev FmtCode := BitVec 4

/-- A Host Transport message (R427). TYPE is given by the constructor that carries it. -/
structure HostMsg where
  magic : Nat
  ver : Nat
  part : Nat
  stream : Nat
  seq : Nat
  ackn : Nat
  tag : Nat
  addr : Nat
  payload : List Byte
  deriving DecidableEq, Repr

/-- A Dune packet (R441). TYPE is given by the constructor that carries it. -/
structure Packet where
  dst : Nat
  src : Nat
  age : Nat
  rtag : Nat
  part : Nat
  stat : Nat
  detail : Nat
  addr : Nat
  aux : Nat
  pmask : Nat
  payload : List Byte
  deriving DecidableEq, Repr

/-- Where a register command comes from: a strand at system privilege or the device itself, or a CFGW message
of the host, which passes through its stream (R430, R432). -/
inductive CmdSrc where
  | direct
  | host (m : HostMsg)
  deriving DecidableEq, Repr

/-- Who asked for a translation (R393): a strand, a chisel context (number 8 x chisel + tag), an engine operation. -/
inductive TlbUser where
  | strand (id : Nat)
  | context (id : Nat)
  | engine (id : Nat)
  deriving DecidableEq, Repr

/-- Storage in which an error is met (R453): a granule of memory, a line in an L1 or a home slice, a granule of a scratchpad, an operand slot or
an accumulator of a chisel, registers or windows of a strand, registers or the Armature file of a context, an entry of a strata ring. -/
inductive EccSite where
  | granule (pa : Nat)
  | line (pa : Nat)
  | pad (a : Nat)
  | slot (chisel o : Nat)
  | acc (chisel a : Nat)
  | strand (id : Nat)
  | context (id : Nat)
  | strata (die slot : Nat)
  deriving DecidableEq, Repr

/-- Who awaits a result (R31, R50): result number k of a strand, or a chisel context that is HELD. -/
inductive Awaiter where
  | strand (id k : Nat)
  | context (id : Nat)
  deriving DecidableEq, Repr

/-- The instructions and events of the opcode table, in the table's order; those without operands and those that only
come from outside the device stand last. -/
inductive Instr where
  /-- ADD (R172) -/
  | add (d a b : GReg)
  /-- SUB (R172) -/
  | sub (d a b : GReg)
  /-- MUL (R172) -/
  | mul (d a b : GReg)
  /-- MULH (R172) -/
  | mulh (d a b : GReg)
  /-- MULHN (R172) -/
  | mulhn (d a b : GReg)
  /-- DIV (R174) -/
  | div (d a b : GReg) (l : BitVec 4)
  /-- DIVN (R174) -/
  | divn (d a b : GReg) (l : BitVec 4)
  /-- REM (R174) -/
  | rem (d a b : GReg) (l : BitVec 4)
  /-- REMN (R174) -/
  | remn (d a b : GReg) (l : BitVec 4)
  /-- AND (R172) -/
  | andG (d a b : GReg)
  /-- OR (R172) -/
  | orG (d a b : GReg)
  /-- XOR (R172) -/
  | xorG (d a b : GReg)
  /-- ANDN (R172) -/
  | andn (d a b : GReg)
  /-- SHL (R172) -/
  | shl (d a b : GReg)
  /-- SHR (R172) -/
  | shr (d a b : GReg)
  /-- SHA (R172) -/
  | sha (d a b : GReg)
  /-- ROL (R172) -/
  | rol (d a b : GReg)
  /-- MIN (R172) -/
  | minG (d a b : GReg)
  /-- MAX (R172) -/
  | maxG (d a b : GReg)
  /-- MINN (R172) -/
  | minn (d a b : GReg)
  /-- MAXN (R172) -/
  | maxn (d a b : GReg)
  /-- CLZ (R172) -/
  | clz (d a : GReg)
  /-- CTZ (R172) -/
  | ctz (d a : GReg)
  /-- POPC (R172) -/
  | popc (d a : GReg)
  /-- SEL (R172) -/
  | sel (d a b : GReg)
  /-- CMP (R173) -/
  | cmp (c : Cond) (d a b : GReg)
  /-- LEA (R175) -/
  | lea (d a b : GReg) (sh : BitVec 4)
  /-- BEXT (R176) -/
  | bext (d a b : GReg)
  /-- BDEP (R176) -/
  | bdep (d a b : GReg)
  /-- CRC32C (R177) -/
  | crc32c (d a b : GReg)
  /-- HASH64 (R178) -/
  | hash64 (d a b : GReg)
  /-- HAMD (R179) -/
  | hamd (d a b : GReg)
  /-- MESHXY (R180) -/
  | meshxy (d a b : GReg)
  /-- RECT (R181) -/
  | rect (d a b : GReg)
  /-- FADD (R182) -/
  | fadd (d a b : GReg)
  /-- FSUB (R182) -/
  | fsub (d a b : GReg)
  /-- FMUL (R182) -/
  | fmul (d a b : GReg)
  /-- FFMA (R182) -/
  | ffma (d a b : GReg)
  /-- FMIN (R183) -/
  | fmin (d a b : GReg)
  /-- FMAX (R183) -/
  | fmax (d a b : GReg)
  /-- FSQRT (R182) -/
  | fsqrt (d a : GReg) (l : BitVec 4)
  /-- FRCP (R182) -/
  | frcp (d a : GReg) (l : BitVec 4)
  /-- FCMP (R184) -/
  | fcmp (c : FCond) (d a b : GReg)
  /-- FCVT_FLOAT (R185) -/
  | fcvtFloat (d a : GReg) (t src : FmtCode) (sat : Bool)
  /-- FCVT_TO_INT (R185) -/
  | fcvtToInt (d a : GReg) (t src : FmtCode)
  /-- FCVT_FROM_INT (R185) -/
  | fcvtFromInt (d a : GReg) (t src : FmtCode)
  /-- JR (R187) -/
  | jr (a : GReg)
  /-- CALLR (R190) -/
  | callr (a : GReg)
  /-- SEND (R213) -/
  | send (d a b : GReg) (l : BitVec 4)
  /-- RECV (R214) -/
  | recv (d a : GReg) (e : BitVec 5)
  /-- GJOIN (R215) -/
  | gjoin (d a : GReg) (l : BitVec 4)
  /-- GLEAVE (R215) -/
  | gleave (d a : GReg) (l : BitVec 4)
  /-- GSIZE (R215) -/
  | gsize (d a : GReg) (l : BitVec 4)
  /-- BINIT (R217) -/
  | binit (d a b : GReg) (l : BitVec 4)
  /-- BARRIVE (R218) -/
  | barrive (d a : GReg) (l : BitVec 4)
  /-- BWAIT (R219) -/
  | bwait (d a : GReg) (e : BitVec 5)
  /-- BINVAL (R220) -/
  | binval (d a : GReg) (l : BitVec 4)
  /-- SPAWN (R221) -/
  | spawn (d a : GReg) (l : BitVec 4)
  /-- JOIN (R222) -/
  | join (d : GReg) (e : BitVec 5)
  /-- TASKID (R223) -/
  | taskid (d : GReg)
  /-- KILL (R224) -/
  | kill (d a : GReg) (l : BitVec 4)
  /-- TOPEN (R241) -/
  | topen (d a b : GReg) (l : BitVec 4)
  /-- TWR (R243) -/
  | twr (d a b : GReg)
  /-- TWRR (R244) -/
  | twrr (d a b : GReg) (l : BitVec 4)
  /-- SEAL (R245) -/
  | seal (d a : GReg) (l : BitVec 4)
  /-- TSTAT (R246) -/
  | tstat (d a : GReg) (l : BitVec 4)
  /-- TDROP (R247) -/
  | tdrop (d a : GReg) (l : BitVec 4)
  /-- CQINIT (R249) -/
  | cqinit (a : GReg)
  /-- CQPUSH (R250) -/
  | cqpush (a b : GReg)
  /-- CQPOP (R251) -/
  | cqpop (d : GReg)
  /-- FRB (R270) -/
  | frb (d : GReg) (l : BitVec 4)
  /-- FRE (R271) -/
  | fre (d : GReg) (e : BitVec 5)
  /-- FRSTAT (R273) -/
  | frstat (d a : GReg) (l : BitVec 4)
  /-- BALLOC (R287) -/
  | balloc (d a : GReg) (l : BitVec 4)
  /-- BFREE (R287) -/
  | bfree (d a : GReg) (l : BitVec 4)
  /-- SQAPPEND (R287) -/
  | sqappend (d a b : GReg) (l : BitVec 4)
  /-- SQLOOK (R287) -/
  | sqlook (d a b : GReg) (l : BitVec 4)
  /-- SQFORK (R287) -/
  | sqfork (d a : GReg) (l : BitVec 4)
  /-- SQDROP (R287) -/
  | sqdrop (d a : GReg) (l : BitVec 4)
  /-- PFXPUT (R287) -/
  | pfxput (d a b : GReg) (l : BitVec 4)
  /-- PFXFIND (R287) -/
  | pfxfind (d a b : GReg) (l : BitVec 4)
  /-- PFXFIND_V (R287) -/
  | pfxfindV (d a b : GReg) (l : BitVec 4)
  /-- TLBWR (R395) -/
  | tlbwr (d a b : GReg)
  /-- TLBINV (R396) -/
  | tlbinv (d a : GReg)
  /-- VBOPEN (R206) -/
  | vbopen (d a : GReg) (l : BitVec 4)
  /-- VBSEAL (R205) -/
  | vbseal (d a : GReg) (l : BitVec 4)
  /-- XCOPY (R232) -/
  | xcopy (t : Fin 16) (a b c : GReg)
  /-- XGATHER (R232) -/
  | xgather (t : Fin 16) (a b c : GReg) (sz : ElemSize)
  /-- XSCATTER (R232) -/
  | xscatter (t : Fin 16) (a b c : GReg) (sz : ElemSize)
  /-- XFILL (R232) -/
  | xfill (t : Fin 16) (a b c : GReg)
  /-- XNEAR_SCALEADD (R235) -/
  | xnearScaleadd (t : Fin 16) (a b c : GReg)
  /-- XNEAR_TOPK (R236) -/
  | xnearTopk (t : Fin 16) (a b c : GReg)
  /-- XCOLL (R239) -/
  | xcoll (t : Fin 16) (a b c : GReg) (v : CollOp)
  /-- FTEST (R231) -/
  | ftest (t : Fin 16) (a : GReg)
  /-- FWAIT (R231) -/
  | fwait (t : Fin 16) (e : BitVec 5)
  /-- FCANCEL (R231) -/
  | fcancel (t : Fin 16)
  /-- ADDI (R172) -/
  | addi (d a : GReg) (i : BitVec 16)
  /-- MULI (R172) -/
  | muli (d a : GReg) (i : BitVec 16)
  /-- ANDI (R172) -/
  | andi (d a : GReg) (i : BitVec 16)
  /-- ORI (R172) -/
  | ori (d a : GReg) (i : BitVec 16)
  /-- XORI (R172) -/
  | xori (d a : GReg) (i : BitVec 16)
  /-- SHLI (R172) -/
  | shli (d a : GReg) (n : BitVec 6)
  /-- SHRI (R172) -/
  | shri (d a : GReg) (n : BitVec 6)
  /-- SHAI (R172) -/
  | shai (d a : GReg) (n : BitVec 6)
  /-- ROLI (R172) -/
  | roli (d a : GReg) (n : BitVec 6)
  /-- CMPI (R173) -/
  | cmpi (c : Cond) (d a : GReg) (i : BitVec 13)
  /-- LUI (R172) -/
  | lui (d : GReg) (i : BitVec 16)
  /-- AMO (R207) -/
  | amo (k : AmoKind) (wd : AWidth) (o : Order) (sc : Scope) (d a b : GReg)
  /-- CAS (R208) -/
  | cas (wd : AWidth) (o : Order) (sc : Scope) (d a b : GReg)
  /-- CAS2 (R208) -/
  | cas2 (o : Order) (sc : Scope) (d a b : GReg)
  /-- RED (R210) -/
  | red (k : RedKind) (t : RedType) (a b : GReg)
  /-- FENCE (R211) -/
  | fence (k : FenceKind) (sc : Scope) (a : GReg)
  /-- LD (R200) -/
  | ld (t : LdType) (d b : GReg) (l : BitVec 4) (off : BitVec 12)
  /-- LDV (R202) -/
  | ldv (d b : GReg) (l : BitVec 4) (off : BitVec 12)
  /-- ST (R201) -/
  | st (sz : StSize) (d b : GReg) (off : BitVec 12)
  /-- STV (R202) -/
  | stv (d b : GReg) (off : BitVec 12)
  /-- PREF (R203) -/
  | pref (b : GReg) (off : BitVec 12)
  /-- BR (R186) -/
  | br (c : Cond) (a b : GReg) (off : BitVec 16)
  /-- BZ (R186) -/
  | bz (a : GReg) (off : BitVec 16)
  /-- BNZ (R186) -/
  | bnz (a : GReg) (off : BitVec 16)
  /-- J (R187) -/
  | j (off : BitVec 26)
  /-- CALL (R190) -/
  | call (off : BitVec 26)
  /-- RPT (R145) -/
  | rpt (nm1 : BitVec 4) (mask : BitVec 3) (st : BitVec 4) (km1 : BitVec 6)
  /-- TRAP (R195) -/
  | trap (i : BitVec 16)
  /-- SYSC (R195) -/
  | sysc (i : BitVec 16)
  /-- CTLRD (R153) -/
  | ctlrd (d : GReg) (n : BitVec 16)
  /-- CTLWR (R153) -/
  | ctlwr (a : GReg) (n : BitVec 16)
  /-- FAULTEND (R365) -/
  | faultend (a : GReg)
  /-- CHISEL_BR (R296) -/
  | cbr (off : BitVec 16)
  /-- BRP (R296) -/
  | brp (neg : Bool) (p : PReg) (off : BitVec 16)
  /-- LOOP (R296) -/
  | loop (r : SReg) (off : BitVec 16)
  /-- SETFMT (R298) -/
  | setfmt (imm : BitVec 11)
  /-- SETRM (R298) -/
  | setrm (rm : BitVec 2)
  /-- TPOP (R299) -/
  | tpop (r : SReg)
  /-- TPOST (R300) -/
  | tpost (h m : SReg)
  /-- S_ADD (R303) -/
  | sAdd (u : SSlot) (d a b : SReg)
  /-- S_ADDI (R303) -/
  | sAddi (u : SSlot) (d a : SReg) (i : BitVec 13)
  /-- S_SUB (R303) -/
  | sSub (u : SSlot) (d a b : SReg)
  /-- S_MUL (R303) -/
  | sMul (u : SSlot) (d a b : SReg)
  /-- S_AND (R303) -/
  | sAnd (u : SSlot) (d a b : SReg)
  /-- S_OR (R303) -/
  | sOr (u : SSlot) (d a b : SReg)
  /-- S_XOR (R303) -/
  | sXor (u : SSlot) (d a b : SReg)
  /-- S_SHL (R303) -/
  | sShl (u : SSlot) (d a b : SReg)
  /-- S_SHR (R303) -/
  | sShr (u : SSlot) (d a b : SReg)
  /-- S_SHA (R303) -/
  | sSha (u : SSlot) (d a b : SReg)
  /-- S_MIN (R303) -/
  | sMin (u : SSlot) (d a b : SReg)
  /-- S_MAX (R303) -/
  | sMax (u : SSlot) (d a b : SReg)
  /-- S_CMP (R303) -/
  | sCmp (u : SSlot) (c : Cond) (p : PReg) (a b : SReg)
  /-- S_SEL (R303) -/
  | sSel (u : SSlot) (d a b : SReg) (p : PReg)
  /-- LI (R303) -/
  | li (u : SSlot) (d : SReg) (i : BitVec 18)
  /-- HGET (R303) -/
  | hget (u : SSlot) (d a : SReg) (f : HField)
  /-- MPSET (R303) -/
  | mpset (u : SSlot) (m : MpReg) (a : SReg)
  /-- VLD (R310) -/
  | vld (v : VReg) (h : SReg) (row : BitVec 5)
  /-- VST (R311) -/
  | vst (v : VReg) (h : SReg) (row : BitVec 5)
  /-- VADD (R306) -/
  | vadd (f : FmtCode) (d a b : VReg)
  /-- VSUB (R306) -/
  | vsub (f : FmtCode) (d a b : VReg)
  /-- VMUL (R306) -/
  | vmul (f : FmtCode) (d a b : VReg)
  /-- VFMA (R306) -/
  | vfma (f : FmtCode) (d a b : VReg)
  /-- VMAX (R306) -/
  | vmax (f : FmtCode) (d a b : VReg)
  /-- VMIN (R306) -/
  | vmin (f : FmtCode) (d a b : VReg)
  /-- VEXP2 (R306) -/
  | vexp2 (f : FmtCode) (d a : VReg)
  /-- VRCP (R306) -/
  | vrcp (f : FmtCode) (d a : VReg)
  /-- VRSQ (R306) -/
  | vrsq (f : FmtCode) (d a : VReg)
  /-- VCVT (R308) -/
  | vcvt (f src : FmtCode) (d a b : VReg)
  /-- VRMAX (R307) -/
  | vrmax (f : FmtCode) (d a : VReg)
  /-- VRSUM (R307) -/
  | vrsum (f : FmtCode) (d a : VReg)
  /-- VBC (R309) -/
  | vbc (f : FmtCode) (d : VReg) (r : SReg)
  /-- VSEL (R309) -/
  | vsel (d a b : VReg) (p : PReg)
  /-- VSHUF (R309) -/
  | vshuf (d a b : VReg)
  /-- MCALL (R320) -/
  | mcall (n : BitVec 6) (acc : Acc) (oA oB : OSlot)
  /-- MSTORE (R325) -/
  | mstore (n : BitVec 6) (h : SReg)
  /-- OCLAIM (R313) -/
  | oclaim (o : OSlot)
  /-- OREL (R313) -/
  | orel (o : OSlot)
  /-- OLOAD (R313) -/
  | oload (o : OSlot) (h : SReg)
  /-- ACLR (R318) -/
  | aclr (acc : Acc)
  /-- AST (R319) -/
  | ast (acc : Acc) (r : SReg) (half : Bool)
  /-- HREL (R313) -/
  | hrel (h : SReg)
  /-- TTNODE (R328) -/
  | ttnode (a b : SReg)
  /-- TTMASK (R328) -/
  | ttmask (o : OSlot) (a b : SReg)
  /-- TTPOS (R328) -/
  | ttpos (d : VReg) (a : SReg)
  /-- TTPRUNE (R329) -/
  | ttprune (a b : SReg)
  /-- TTPATH (R328) -/
  | ttpath (d : VReg) (a : SReg)
  /-- ASYNC_TRAP_ENTRY (R369) -/
  | asyncTrapEntry (id : Nat)
  /-- STIMER_EXPIRY (R365) -/
  | stimerExpiry (id : Nat)
  /-- WAIT_TIMEOUT (R43) -/
  | waitTimeout (id : Nat)
  /-- WINDOW_SPILL (R191) -/
  | windowSpill (id : Nat)
  /-- WINDOW_FILL (R191) -/
  | windowFill (id : Nat)
  /-- TASK_WALK_HOP (R35) -/
  | taskWalkHop (tid : Nat)
  /-- PARKED_TASK_RELEASE (R36) -/
  | parkedTaskRelease (core : Nat)
  /-- FOOTPRINT_COPY (R28) -/
  | footprintCopy (id : Nat)
  /-- KILL_EFFECT (R42) -/
  | killEffect (id : Nat)
  /-- MESSAGE_DELIVERY (R213) -/
  | messageDelivery (k : Nat)
  /-- FAULT_REPORT_DELIVERY (R47) -/
  | faultReportDelivery (cluster : Nat)
  /-- STORE_COMMIT (R91) -/
  | storeCommit (core k : Nat)
  /-- RED_RECALL (R100) -/
  | redRecall (line core : Nat)
  /-- ATOMIC_ADMIT (R385) -/
  | atomicAdmit (slice : Nat)
  /-- ENGINE_COMPLETION (R103) -/
  | engineCompletion (op : Nat)
  /-- XNEAR_START (R234) -/
  | xnearStart (chan : Nat)
  /-- TROWEL_RESUME (R237) -/
  | trowelResume (chan : Nat)
  /-- XCOLL_CHAIN_STEP (R240) -/
  | xcollChainStep (inst : Nat)
  /-- TWRR_ROW_APPLY (R244) -/
  | twrrRowApply (k : Nat)
  /-- SEAL_TIMER_EXPIRY (R242) -/
  | sealTimerExpiry (pos : Nat)
  /-- POST_LIST_ENTRY (R242) -/
  | postListEntry (chisel tag : Nat)
  /-- POST_RETRY (R242) -/
  | postRetry (pos : Nat)
  /-- OUTBOUND_DELIVERY (R301) -/
  | outboundDelivery (chisel k : Nat)
  /-- TILE_TASK_END (R297) -/
  | tileTaskEnd (ctx : Nat)
  /-- REGION_COMMIT (R266) -/
  | regionCommit (rid : Nat)
  /-- HELD_ACCESS_REJUDGE (R262) -/
  | heldAccessRejudge (id : Nat)
  /-- TLB_FILL (R393) -/
  | tlbFill (who : TlbUser)
  /-- SWAPPOST (R411) -/
  | swappost (src : CmdSrc) (part va : Nat)
  /-- SWAP_LINE_MOVE (R399) -/
  | swapLineMove (k : Nat)
  /-- MIGRATION_REQUEST (R402) -/
  | migrationRequest (part va : Nat) (byHost : Bool)
  /-- PAGE_MOVE (R403) -/
  | pageMove (part va : Nat)
  /-- HOLD_END (R402) -/
  | holdEnd (part va : Nat)
  /-- HALT (R375) -/
  | halt (src : CmdSrc) (part : Nat)
  /-- HALT_SAVE (R381) -/
  | haltSave (src : CmdSrc) (part : Nat)
  /-- NOTIFY (R375) -/
  | notify (src : CmdSrc) (part : Nat)
  /-- RESUME (R383) -/
  | resume (src : CmdSrc) (part : Nat)
  /-- STRAND_HALT (R376) -/
  | strandHalt (id : Nat)
  /-- CHISEL_FREEZE (R378) -/
  | chiselFreeze (chisel : Nat)
  /-- TROWEL_SUSPEND (R379) -/
  | trowelSuspend (chan : Nat)
  /-- PARTITION_SAVE (R381) -/
  | partitionSave (part : Nat)
  /-- ENABLE (R412) -/
  | enable (src : CmdSrc) (part : Nat)
  /-- START (R412) -/
  | start (src : CmdSrc) (part : Nat)
  /-- STOP (R412) -/
  | stop (src : CmdSrc) (part : Nat)
  /-- LAUNCH_GRANT (R417) -/
  | launchGrant (part : Nat)
  /-- LAUNCH_RELEASE (R418) -/
  | launchRelease (part : Nat)
  /-- LAUNCH_COMPLETE (R416) -/
  | launchComplete (part lid : Nat)
  /-- HMEM_TIMEOUT (R434) -/
  | hmemTimeout (tag : Nat)
  /-- HOST_RETRANSMIT (R430) -/
  | hostRetransmit (part stream : Nat)
  /-- ACK_TIMER (R430) -/
  | ackTimer (part stream : Nat)
  /-- INIT_RETRY (R439) -/
  | initRetry (port : Nat)
  /-- NAK_RETRY (R439) -/
  | nakRetry (port : Nat)
  /-- PORT_FAILURE (R439) -/
  | portFailure (port : Nat)
  /-- VBOPEN_TIMEOUT (R109) -/
  | vbopenTimeout (entry : Nat)
  /-- VBOPEN_REUSE_WAIT (R111) -/
  | vbopenReuseWait (entry : Nat)
  /-- REQUEST_LOST (R447) -/
  | requestLost (rtag : Nat)
  /-- FW_OP_COMPLETE (R462) -/
  | fwOpComplete (result : Nat)
  /-- AWAITED_RESULT_ARRIVAL (R31) -/
  | awaitedResultArrival (who : Awaiter)
  /-- END_NOTICE_ARRIVAL (R41) -/
  | endNoticeArrival (parent child : Nat)
  /-- RET (R190) -/
  | ret
  /-- YIELD (R194) -/
  | yield
  /-- EXIT (R196) -/
  | exit
  /-- FRABORT (R272) -/
  | frabort
  /-- ERET (R373) -/
  | eret
  /-- WAITI (R374) -/
  | waiti
  /-- NOP (R296) -/
  | nop
  /-- DONE (R297) -/
  | done
  /-- MWAIT (R302) -/
  | mwait
  /-- TTCLR (R328) -/
  | ttclr
  /-- WARM (R460) -/
  | warm
  /-- SP1DATA_READ (R460) -/
  | sp1dataRead
  /-- FW_ERASE (R462) -/
  | fwErase
  /-- FW_LOAD (R462) -/
  | fwLoad
  /-- FW_ADVANCE (R462) -/
  | fwAdvance
  /-- ATTESTATION_READY (R463) -/
  | attestationReady
  /-- BOOT (R458) -/
  | boot
  /-- POWER_OFF (R455) -/
  | powerOff
  /-- POWER_UP (R461) -/
  | powerUp
  /-- DISABLE (R412) -/
  | disable (src : CmdSrc) (part : Nat)
  /-- ACK (R430) -/
  | ack (m : HostMsg)
  /-- LAUNCH (R416) -/
  | launch (m : HostMsg)
  /-- CANCEL (R422) -/
  | cancel (m : HostMsg)
  /-- WRITE (R431) -/
  | write (m : HostMsg)
  /-- READ (R431) -/
  | read (m : HostMsg)
  /-- RDATA (R434) -/
  | rdata (m : HostMsg)
  /-- STATUS (R434) -/
  | status (m : HostMsg)
  /-- CFGW (R432) -/
  | cfgw (m : HostMsg)
  /-- CFGR (R432) -/
  | cfgr (m : HostMsg)
  /-- REG (R433) -/
  | reg (m : HostMsg)
  /-- UNREG (R433) -/
  | unreg (m : HostMsg)
  /-- MIGR_REQUEST (R436) -/
  | migrRequest (m : HostMsg)
  /-- MIGR_DATA (R436) -/
  | migrData (m : HostMsg)
  /-- MIGR_COMPLETE (R436) -/
  | migrComplete (m : HostMsg)
  /-- RESET (R430) -/
  | reset (m : HostMsg)
  /-- LINK_UP (R439) -/
  | linkUp (port : Nat) (bufs : List Nat)
  /-- DATA_FLIT (R439) -/
  | dataFlit (port : Nat) (flit : List Byte)
  /-- IDLE (R439) -/
  | idle (port : Nat) (flit : List Byte)
  /-- INIT (R439) -/
  | init (port : Nat) (flit : List Byte)
  /-- NAK (R439) -/
  | nak (port : Nat) (flit : List Byte)
  /-- LANE (R439) -/
  | lane (port : Nat) (flit : List Byte)
  /-- DOWN (R439) -/
  | down (port : Nat) (flit : List Byte)
  /-- LANE_FAILURE (R437) -/
  | laneFailure (port lane : Nat)
  /-- PUT (R442) -/
  | put (p : Packet)
  /-- PUTACK (R442) -/
  | putack (p : Packet)
  /-- FILL (R442) -/
  | fill (p : Packet)
  /-- FILLR (R442) -/
  | fillr (p : Packet)
  /-- HELD (R442) -/
  | held (p : Packet)
  /-- ATOM (R442) -/
  | atom (p : Packet)
  /-- ATOMR (R442) -/
  | atomr (p : Packet)
  /-- TROW (R442) -/
  | trow (p : Packet)
  /-- TROWR (R442) -/
  | trowr (p : Packet)
  /-- MSG (R442) -/
  | msg (p : Packet)
  /-- MSGR (R442) -/
  | msgr (p : Packet)
  /-- XREAD (R442) -/
  | xread (p : Packet)
  /-- XREADR (R442) -/
  | xreadr (p : Packet)
  /-- VNOTE (R442) -/
  | vnote (p : Packet)
  /-- VNACK (R442) -/
  | vnack (p : Packet)
  /-- SHADOW (R442) -/
  | shadow (p : Packet)
  /-- SHACK (R442) -/
  | shack (p : Packet)
  /-- ROUTE_WRITE (R440) -/
  | routeWrite (src : CmdSrc) (peer : Nat) (value : Word)
  /-- EXPORT_WRITE (R444) -/
  | exportWrite (src : CmdSrc) (off : Nat) (value : Word)
  /-- LOSSCMD (R450) -/
  | losscmd (src : CmdSrc) (value : Word)
  /-- I3C_REGISTER_WRITE (R460) -/
  | i3cRegisterWrite (off : Nat) (value : Word)
  /-- HOST_PORT_UP (R460) -/
  | hostPortUp (value : Word)
  /-- HOST_PORT_DOWN (R460) -/
  | hostPortDown (value : Word)
  /-- SP1DATA_WRITE (R460) -/
  | sp1dataWrite (value : Word)
  /-- FW_PROGRAM (R462) -/
  | fwProgram (value : Word)
  /-- ATTESTATION_START (R463) -/
  | attestationStart (value : Word)
  /-- TEMPERATURE_ALERT (R464) -/
  | temperatureAlert (die temp : Nat)
  /-- THERMAL_TRIP (R464) -/
  | thermalTrip (die temp : Nat)
  /-- PATROL_SCRUB (R453): an error is met, by the scrub or by an access -/
  | patrolScrub (site : EccSite) (correctable : Bool)
  /-- CLUSTER_FAILURE (R452) -/
  | clusterFailure (cluster : Nat)
  /-- PSEUDO_CHANNEL_REMAP (R452) -/
  | pseudoChannelRemap (chan : Nat) (bad : List Nat)
  deriving DecidableEq, Repr

/-- Who moves next (log 4): a grain core takes its issue slot (R32), a chisel its merge stage (R51), an engine
operation performs its next element (R233), the clock advances by one g-cycle, a happening of the table occurs,
or a host message with this TYPE byte arrives (R427, R428), or a packet of this TYPE stands at the I/O die (R442). -/
inductive Turn where
  | core (n : Nat)
  | chisel (n : Nat)
  | engine (op : Nat)
  | tick
  | event (i : Instr)
  | host (typ : Nat) (m : HostMsg)
  | packet (typ : Nat) (p : Packet)
  deriving DecidableEq, Repr

end Sys2Proof
end

