-- ==== Sys2Proof/WellFormed.lean ====
section
/-! DEFINITION. Which terms of Instr stand for an instruction or happening of the device: the operand rules of
R138, R154, R155, R162, R226 and the ranges of R252, R427, R437 to R441. -/

namespace Sys2Proof

/-- The 5-bit field value of a register (R138). -/
def GReg.num : GReg → Nat
  | .g n => n.val
  | .w n => 16 + n.val

/-- A four-register group is named by a multiple of 4 (R138). -/
def GReg.isGroup (r : GReg) : Bool := r.num % 4 == 0
/-- A pair is named by an even value (R138). -/
def GReg.isPair (r : GReg) : Bool := r.num % 2 == 0

/-- Numbers of strands, cores, chisels, contexts (R17). -/
def strandCount : Nat := 8192
def coreCount : Nat := 512
def chiselCount : Nat := 256
def contextCount : Nat := 2048

/-- A host message's fields lie in their ranges (R427). -/
def HostMsg.wf (m : HostMsg) : Bool :=
  m.magic == 0x4F5A && m.ver == 1 && (decide (m.part < 8) || m.part == 0xFF) && decide (m.stream < 64)
    && decide (m.seq < 2 ^ 32) && decide (m.ackn < 2 ^ 32) && decide (m.tag < 2 ^ 32) && decide (m.addr < 2 ^ 64)
    && decide (m.payload.length ≤ 8192)

/-- A packet's fields lie in their ranges (R441). -/
def Packet.wf (p : Packet) : Bool :=
  decide (p.dst < 1024) && decide (p.src < 1024) && decide (p.age < 128) && decide (p.rtag < 2 ^ 32)
    && decide (p.part < 8) && decide (p.stat < 256) && decide (p.detail < 256) && decide (p.addr < 2 ^ 64)
    && decide (p.aux < 2 ^ 64) && decide (p.pmask < 2 ^ 64) && decide (p.payload.length ≤ 2048)

def CmdSrc.wf : CmdSrc → Bool
  | .direct => true
  | .host m => m.wf

def TlbUser.wf : TlbUser → Bool
  | .strand id => decide (id < strandCount)
  | .context id => decide (id < contextCount)
  | .engine _ => true

def Awaiter.wf : Awaiter → Bool
  | .strand id _ => decide (id < strandCount)
  | .context id => decide (id < contextCount)

/-- Well-formed terms. A constructor without a line has no condition beyond its operand types. -/
def Instr.wf : Instr → Bool
  | .hamd _ a b => a.isGroup && b.isGroup
  | .send _ _ b _ => b.isGroup
  | .recv d _ _ => d.isGroup
  | .ldv d _ _ _ => d.isGroup
  | .stv d _ _ => d.isGroup
  | .cqpop d => d.isPair
  | .cas2 _ _ d _ b => d.isPair && b.isPair
  | .xcopy t _ _ _ => t != 0
  | .xgather t _ _ _ _ => t != 0
  | .xscatter t _ _ _ _ => t != 0
  | .xfill t _ _ _ => t != 0
  | .xnearScaleadd t _ _ _ => t != 0
  | .xnearTopk t _ _ _ => t != 0
  | .xcoll t _ _ _ _ => t != 0
  | .ftest t _ => t != 0
  | .fwait t _ => t != 0
  | .fcancel t => t != 0
  | .red k t _ _ => decide (t = .f32 → k = .add)
  | .fence _ sc a => decide (sc ≠ .rect → a = .g 0)
  | .ctlwr _ n => n != 0x010D
  | .vcvt _ src _ _ b => src == 5 || src == 6 || b == 0
  | .mcall n _ _ _ => decide (n.toNat < 7 ∨ 16 ≤ n.toNat)
  | .mstore n _ => decide (16 ≤ n.toNat)
  | .asyncTrapEntry id => decide (id < strandCount)
  | .stimerExpiry id => decide (id < strandCount)
  | .waitTimeout id => decide (id < strandCount)
  | .windowSpill id => decide (id < strandCount)
  | .windowFill id => decide (id < strandCount)
  | .parkedTaskRelease c => decide (c < coreCount)
  | .footprintCopy id => decide (id < strandCount)
  | .killEffect id => decide (id < strandCount)
  | .faultReportDelivery c => decide (c < 32)
  | .storeCommit c _ => decide (c < coreCount)
  | .redRecall _ c => decide (c < coreCount)
  | .atomicAdmit n => decide (n < 512)
  | .xnearStart n => decide (n < 512)
  | .trowelResume n => decide (n < 512)
  | .trowelSuspend n => decide (n < 512)
  | .postListEntry c t => decide (c < chiselCount) && decide (t < 8)
  | .outboundDelivery c _ => decide (c < chiselCount)
  | .tileTaskEnd c => decide (c < contextCount)
  | .regionCommit r => decide (r < 1024)
  | .heldAccessRejudge id => decide (id < strandCount)
  | .tlbFill u => u.wf
  | .swappost s p _ => s.wf && decide (p < 8)
  | .migrationRequest p _ _ => decide (p < 8)
  | .pageMove p _ => decide (p < 8)
  | .holdEnd p _ => decide (p < 8)
  | .halt s p => s.wf && decide (p < 8)
  | .haltSave s p => s.wf && decide (p < 8)
  | .notify s p => s.wf && decide (p < 8)
  | .resume s p => s.wf && decide (p < 8)
  | .enable s p => s.wf && decide (p < 8)
  | .start s p => s.wf && decide (p < 8)
  | .stop s p => s.wf && decide (p < 8)
  | .disable s p => s.wf && decide (p < 8)
  | .strandHalt id => decide (id < strandCount)
  | .chiselFreeze c => decide (c < chiselCount)
  | .partitionSave p => decide (p < 8)
  | .launchGrant p => decide (p < 8)
  | .launchRelease p => decide (p < 8)
  | .launchComplete p _ => decide (p < 8)
  | .ack m => m.wf
  | .launch m => m.wf
  | .cancel m => m.wf
  | .write m => m.wf
  | .read m => m.wf
  | .rdata m => m.wf
  | .status m => m.wf
  | .cfgw m => m.wf
  | .cfgr m => m.wf
  | .reg m => m.wf
  | .unreg m => m.wf
  | .migrRequest m => m.wf
  | .migrData m => m.wf
  | .migrComplete m => m.wf
  | .reset m => m.wf
  | .linkUp p b => decide (p < 16) && b.length == 4 && b.all fun n => decide (32 ≤ n)
  | .initRetry p => decide (p < 16)
  | .dataFlit p f => decide (p < 16) && f.length == 256
  | .idle p f => decide (p < 16) && f.length == 256
  | .init p f => decide (p < 16) && f.length == 256
  | .nak p f => decide (p < 16) && f.length == 256
  | .lane p f => decide (p < 16) && f.length == 256
  | .down p f => decide (p < 16) && f.length == 256
  | .nakRetry p => decide (p < 16)
  | .portFailure p => decide (p < 16)
  | .laneFailure p l => decide (p < 16) && decide (l < 8)
  | .put p => p.wf
  | .putack p => p.wf
  | .fill p => p.wf
  | .fillr p => p.wf
  | .held p => p.wf
  | .atom p => p.wf
  | .atomr p => p.wf
  | .trow p => p.wf
  | .trowr p => p.wf
  | .msg p => p.wf
  | .msgr p => p.wf
  | .xread p => p.wf
  | .xreadr p => p.wf
  | .vnote p => p.wf
  | .vnack p => p.wf
  | .shadow p => p.wf
  | .shack p => p.wf
  | .vbopenTimeout e => decide (e < 256)
  | .vbopenReuseWait e => decide (e < 256)
  | .routeWrite s p _ => s.wf && decide (p < 1024)
  | .exportWrite s o _ => s.wf && decide (o < 0x2000) && o % 8 == 0
  | .losscmd s _ => s.wf
  | .i3cRegisterWrite o _ => decide (o < 2 ^ 16)
  | .temperatureAlert d t => decide (d < 5) && decide (t < 2 ^ 16)
  | .thermalTrip d t => decide (d < 5) && decide (t < 2 ^ 16)
  | .patrolScrub x _ =>
    match x with
    | .granule _ => true
    | .line _ => true
    | .pad a => decide (a < 2 ^ 18 * 768)
    | .slot c o => decide (c < 256) && decide (o < 128)
    | .acc c a => decide (c < 256) && decide (a < 8)
    | .strand n => decide (n < 8192)
    | .context n => decide (n < 2048)
    | .strata d n => decide (d < 5) && decide (n < 4096)
  | .clusterFailure c => decide (c < 32)
  | .pseudoChannelRemap n _ => decide (n < 512)
  | .awaitedResultArrival a => a.wf
  | _ => true

end Sys2Proof
end

