-- ==== Sys2Proof/Decode.lean ====
section
/-! DEFINITION. The decoder and the encoder: grain words (06 R136 to R155), chisel syllables and bundles
(06 R156 to R163), and the byte layouts of Host Transport datagrams (20 R427), Dune packets (20 R441) and flits
(20 R438). Every word that is not an instruction is rejected by name (06 R164). -/

namespace Sys2Proof

/-- Why a word or bundle is not an instruction; each name traps ILLEGAL except branchInDelay (R157, R158, R164). -/
inductive Reject where
  | reservedMajor
  | reservedFunction
  | reservedField
  | badGroup
  | badToken
  | unknownSlot
  | slotOrder
  | noStop
  | writeConflict
  | branchInDelay
  | malformed
  deriving DecidableEq, Repr

/-! ## Fields -/

namespace Field
def op (w : W32) : BitVec 6 := w.extractLsb' 26 6
def d (w : W32) : BitVec 5 := w.extractLsb' 21 5
def a (w : W32) : BitVec 5 := w.extractLsb' 16 5
def b (w : W32) : BitVec 5 := w.extractLsb' 11 5
def l (w : W32) : BitVec 4 := w.extractLsb' 7 4
def f (w : W32) : BitVec 7 := w.extractLsb' 0 7
def imm (w : W32) : BitVec 16 := w.extractLsb' 0 16
def lm (w : W32) : BitVec 4 := w.extractLsb' 12 4
def off12 (w : W32) : BitVec 12 := w.extractLsb' 0 12
def off26 (w : W32) : BitVec 26 := w.extractLsb' 0 26
def c (w : W32) : BitVec 5 := w.extractLsb' 6 5
def fn (w : W32) : BitVec 6 := w.extractLsb' 0 6
def sc (w : W32) : BitVec 3 := w.extractLsb' 8 3
def ord (w : W32) : BitVec 2 := w.extractLsb' 6 2
def k (w : W32) : BitVec 4 := w.extractLsb' 2 4
def wd (w : W32) : BitVec 2 := w.extractLsb' 0 2
end Field

/-- A register field (R138): 0..15 name g0..g15, 16..31 name w0..w15. -/
def GReg.ofBits (x : BitVec 5) : GReg :=
  if x.getLsbD 4 then .w (x.extractLsb' 0 4).toFin else .g (x.extractLsb' 0 4).toFin

/-- A small number as the bits of its field. -/
def f3 (x : Fin 8) : BitVec 3 := BitVec.ofFin x
def f4 (x : Fin 16) : BitVec 4 := BitVec.ofFin x
def f5 (x : Fin 32) : BitVec 5 := BitVec.ofFin x
def f7 (x : Fin 128) : BitVec 7 := BitVec.ofFin x

def GReg.bits : GReg → BitVec 5
  | .g n => 0#1 ++ (f4 n)
  | .w n => 1#1 ++ (f4 n)

/-- `req c r` rejects with r unless c holds. -/
def req (c : Bool) (r : Reject) (k : Except Reject Instr) : Except Reject Instr := if c then k else .error r

def Cond.ofCode : Nat → Option Cond
  | 0 => some .eq | 1 => some .ne | 2 => some .lt | 3 => some .ge | 4 => some .ltn | 5 => some .gen | _ => none
def Cond.code : Cond → Nat
  | .eq => 0 | .ne => 1 | .lt => 2 | .ge => 3 | .ltn => 4 | .gen => 5
def FCond.ofCode : Nat → FCond
  | 0 => .eq | 1 => .lt | 2 => .le | _ => .un
def FCond.code : FCond → Nat
  | .eq => 0 | .lt => 1 | .le => 2 | .un => 3
def AmoKind.ofCode : Nat → Option AmoKind
  | 0 => some .add | 1 => some .and | 2 => some .or | 3 => some .xor | 4 => some .swap | 5 => some .min
  | 6 => some .max | 7 => some .minn | 8 => some .maxn | _ => none
def AmoKind.code : AmoKind → Nat
  | .add => 0 | .and => 1 | .or => 2 | .xor => 3 | .swap => 4 | .min => 5 | .max => 6 | .minn => 7 | .maxn => 8
def RedKind.ofCode : Nat → Option RedKind
  | 0 => some .add | 1 => some .min | 2 => some .max | 3 => some .or | _ => none
def RedKind.code : RedKind → Nat
  | .add => 0 | .min => 1 | .max => 2 | .or => 3
def RedType.ofCode : Nat → Option RedType
  | 0 => some .i32 | 1 => some .i64 | 2 => some .n32 | 3 => some .n64 | 4 => some .f32 | _ => none
def RedType.code : RedType → Nat
  | .i32 => 0 | .i64 => 1 | .n32 => 2 | .n64 => 3 | .f32 => 4
def Scope.ofCode : Nat → Option Scope
  | 0 => some .strand | 1 => some .core | 2 => some .rect | 3 => some .device | 4 => some .system | _ => none
def Scope.code : Scope → Nat
  | .strand => 0 | .core => 1 | .rect => 2 | .device => 3 | .system => 4
def Order.ofCode : Nat → Order
  | 0 => .rlx | 1 => .acq | 2 => .rel | _ => .ar
def Order.code : Order → Nat
  | .rlx => 0 | .acq => 1 | .rel => 2 | .ar => 3
def FenceKind.ofCode : Nat → Option FenceKind
  | 1 => some .acq | 2 => some .rel | 3 => some .ar | _ => none
def FenceKind.code : FenceKind → Nat
  | .acq => 1 | .rel => 2 | .ar => 3
def LdType.ofCode : Nat → Option LdType
  | 0 => some .i8 | 1 => some .i16 | 2 => some .i32 | 3 => some .i64 | 4 => some .n8 | 5 => some .n16
  | 6 => some .n32 | _ => none
def LdType.code : LdType → Nat
  | .i8 => 0 | .i16 => 1 | .i32 => 2 | .i64 => 3 | .n8 => 4 | .n16 => 5 | .n32 => 6
def StSize.ofCode : Nat → StSize
  | 0 => .b1 | 1 => .b2 | 2 => .b4 | _ => .b8
def StSize.code : StSize → Nat
  | .b1 => 0 | .b2 => 1 | .b4 => 2 | .b8 => 3
def AWidth.code : AWidth → Nat
  | .w32 => 0 | .w64 => 1
def AWidth.ofCode : Nat → Option AWidth
  | 0 => some .w32 | 1 => some .w64 | _ => none
def ElemSize.ofCode : Nat → Option ElemSize
  | 0 => some .e4 | 1 => some .e8 | 2 => some .e16 | 3 => some .e32 | 4 => some .e64 | _ => none
def ElemSize.code : ElemSize → Nat
  | .e4 => 0 | .e8 => 1 | .e16 => 2 | .e32 => 3 | .e64 => 4
def CollOp.ofCode : Nat → Option CollOp
  | 0 => some .addF32 | 1 => some .addI64 | 2 => some .minF32 | 3 => some .maxF32 | 4 => some .minI64
  | 5 => some .maxI64 | 6 => some .bcast | _ => none
def CollOp.code : CollOp → Nat
  | .addF32 => 0 | .addI64 => 1 | .minF32 => 2 | .maxF32 => 3 | .minI64 => 4 | .maxI64 => 5 | .bcast => 6
def HField.ofCode : Nat → Option HField
  | 0 => some .kind | 1 => some .gen | 2 => some .tag | 3 => some .buf | 4 => some .core | 5 => some .cluster
  | 6 => some .mask | _ => none
def HField.code : HField → Nat
  | .kind => 0 | .gen => 1 | .tag => 2 | .buf => 3 | .core => 4 | .cluster => 5 | .mask => 6

/-- Use an optional code or reject the function. -/
def codeOr {α : Type} (x : Option α) (k : α → Except Reject Instr) : Except Reject Instr :=
  match x with
  | some v => k v
  | none => .error .reservedFunction

/-! ## Grain words -/

/-- The INT major (R149). -/
def decodeInt (w : W32) : Except Reject Instr :=
  let d := GReg.ofBits (Field.d w)
  let a := GReg.ofBits (Field.a w)
  let b := GReg.ofBits (Field.b w)
  let noL (i : Instr) : Except Reject Instr := req (Field.l w == 0) .reservedField (.ok i)
  let noB (i : Instr) : Except Reject Instr := req (Field.l w == 0 && Field.b w == 0) .reservedField (.ok i)
  match (Field.f w).toNat with
  | 0x00 => noL (.add d a b)
  | 0x01 => noL (.sub d a b)
  | 0x02 => noL (.mul d a b)
  | 0x03 => noL (.mulh d a b)
  | 0x04 => noL (.mulhn d a b)
  | 0x05 => .ok (.div d a b (Field.l w))
  | 0x06 => .ok (.divn d a b (Field.l w))
  | 0x07 => .ok (.rem d a b (Field.l w))
  | 0x08 => .ok (.remn d a b (Field.l w))
  | 0x10 => noL (.andG d a b)
  | 0x11 => noL (.orG d a b)
  | 0x12 => noL (.xorG d a b)
  | 0x13 => noL (.andn d a b)
  | 0x14 => noL (.shl d a b)
  | 0x15 => noL (.shr d a b)
  | 0x16 => noL (.sha d a b)
  | 0x17 => noL (.rol d a b)
  | 0x18 => noL (.minG d a b)
  | 0x19 => noL (.maxG d a b)
  | 0x1A => noL (.minn d a b)
  | 0x1B => noL (.maxn d a b)
  | 0x1C => noB (.clz d a)
  | 0x1D => noB (.ctz d a)
  | 0x1E => noB (.popc d a)
  | 0x1F => noL (.sel d a b)
  | 0x20 => noL (.cmp .eq d a b)
  | 0x21 => noL (.cmp .ne d a b)
  | 0x22 => noL (.cmp .lt d a b)
  | 0x23 => noL (.cmp .ge d a b)
  | 0x24 => noL (.cmp .ltn d a b)
  | 0x25 => noL (.cmp .gen d a b)
  | 0x28 => .ok (.lea d a b (Field.l w))
  | 0x29 => noL (.bext d a b)
  | 0x2A => noL (.bdep d a b)
  | 0x2B => noL (.crc32c d a b)
  | 0x2C => noL (.hash64 d a b)
  | 0x2D => req (a.isGroup && b.isGroup) .badGroup (noL (.hamd d a b))
  | 0x2E => noL (.meshxy d a b)
  | 0x2F => noL (.rect d a b)
  | _ => .error .reservedFunction

/-- The FPU major (R150). Reserved format and type codes are left to the instruction, which traps FMT; a reserved bit that is set makes
the word ILLEGAL before that (log 84). -/
def decodeFpu (w : W32) : Except Reject Instr :=
  let d := GReg.ofBits (Field.d w)
  let a := GReg.ofBits (Field.a w)
  let b := GReg.ofBits (Field.b w)
  let noL (i : Instr) : Except Reject Instr := req (Field.l w == 0) .reservedField (.ok i)
  let noB (i : Instr) : Except Reject Instr := req (Field.b w == 0) .reservedField (.ok i)
  let t : FmtCode := w.extractLsb' 12 4
  let s : FmtCode := w.extractLsb' 8 4
  match (Field.f w).toNat with
  | 0x00 => noL (.fadd d a b)
  | 0x01 => noL (.fsub d a b)
  | 0x02 => noL (.fmul d a b)
  | 0x03 => noL (.ffma d a b)
  | 0x04 => noL (.fmin d a b)
  | 0x05 => noL (.fmax d a b)
  | 0x08 => noB (.fsqrt d a (Field.l w))
  | 0x09 => noB (.frcp d a (Field.l w))
  | 0x10 => noL (.fcmp .eq d a b)
  | 0x11 => noL (.fcmp .lt d a b)
  | 0x12 => noL (.fcmp .le d a b)
  | 0x13 => noL (.fcmp .un d a b)
  | 0x18 => .ok (.fcvtFloat d a t s (w.getLsbD 7))
  | 0x19 => req (!w.getLsbD 7) .reservedField (.ok (.fcvtToInt d a t s))
  | 0x1A => req (!w.getLsbD 7) .reservedField (.ok (.fcvtFromInt d a t s))
  | _ => .error .reservedFunction

/-- Majors CTL, SYNC, TILE, SRCH, REGN, QRY, SYS and MEMX (R151). -/
def decodeMisc (op : Nat) (w : W32) : Except Reject Instr :=
  let d := GReg.ofBits (Field.d w)
  let a := GReg.ofBits (Field.a w)
  let b := GReg.ofBits (Field.b w)
  let e := Field.b w
  let l := Field.l w
  let z5 (x : BitVec 5) : Bool := x == 0
  let dz := z5 (Field.d w)
  let az := z5 (Field.a w)
  let bz := z5 (Field.b w)
  let lz : Bool := l == 0
  let r (c : Bool) (i : Instr) : Except Reject Instr := req c .reservedField (.ok i)
  match op, (Field.f w).toNat with
  | 3, 0x00 => r (dz && bz && lz) (.jr a)
  | 3, 0x01 => r (dz && bz && lz) (.callr a)
  | 3, 0x02 => r (dz && az && bz && lz) .ret
  | 3, 0x03 => r (dz && az && bz && lz) .yield
  | 3, 0x04 => r (dz && az && bz && lz) .exit
  | 4, 0x00 => req b.isGroup .badGroup (.ok (.send d a b l))
  | 4, 0x01 => req d.isGroup .badGroup (r lz (.recv d a e))
  | 4, 0x02 => r bz (.gjoin d a l)
  | 4, 0x03 => r bz (.gleave d a l)
  | 4, 0x04 => r bz (.gsize d a l)
  | 4, 0x08 => .ok (.binit d a b l)
  | 4, 0x09 => r bz (.barrive d a l)
  | 4, 0x0A => r lz (.bwait d a e)
  | 4, 0x0B => r bz (.binval d a l)
  | 4, 0x10 => r bz (.spawn d a l)
  | 4, 0x11 => r (az && lz) (.join d e)
  | 4, 0x12 => r (az && bz && lz) (.taskid d)
  | 4, 0x13 => r bz (.kill d a l)
  | 5, 0x00 => .ok (.topen d a b l)
  | 5, 0x01 => r lz (.twr d a b)
  | 5, 0x02 => .ok (.twrr d a b l)
  | 5, 0x03 => r bz (.seal d a l)
  | 5, 0x04 => r bz (.tstat d a l)
  | 5, 0x05 => r bz (.tdrop d a l)
  | 6, 0x00 => r (dz && bz && lz) (.cqinit a)
  | 6, 0x01 => r (dz && lz) (.cqpush a b)
  | 6, 0x02 => req d.isPair .badGroup (r (az && bz && lz) (.cqpop d))
  | 7, 0x00 => r (az && bz) (.frb d l)
  | 7, 0x01 => r (az && lz) (.fre d e)
  | 7, 0x02 => r (dz && az && bz && lz) .frabort
  | 7, 0x03 => r bz (.frstat d a l)
  | 8, 0x00 => r bz (.balloc d a l)
  | 8, 0x01 => r bz (.bfree d a l)
  | 8, 0x02 => .ok (.sqappend d a b l)
  | 8, 0x03 => .ok (.sqlook d a b l)
  | 8, 0x04 => r bz (.sqfork d a l)
  | 8, 0x05 => r bz (.sqdrop d a l)
  | 8, 0x06 => .ok (.pfxput d a b l)
  | 8, 0x07 => .ok (.pfxfind d a b l)
  | 8, 0x08 => .ok (.pfxfindV d a b l)
  | 9, 0x00 => r (dz && az && bz && lz) .eret
  | 9, 0x01 => r lz (.tlbwr d a b)
  | 9, 0x02 => r (bz && lz) (.tlbinv d a)
  | 9, 0x03 => r (dz && az && bz && lz) .waiti
  | 10, 0x00 => r bz (.vbopen d a l)
  | 10, 0x01 => r bz (.vbseal d a l)
  | _, _ => .error .reservedFunction

/-- The ENG major (R155, R226). -/
def decodeEng (w : W32) : Except Reject Instr :=
  let a := GReg.ofBits (Field.a w)
  let b := GReg.ofBits (Field.b w)
  let c := GReg.ofBits (Field.c w)
  let t : Fin 16 := ((Field.d w).extractLsb' 0 4).toFin
  let az : Bool := Field.a w == 0
  let bz : Bool := Field.b w == 0
  let cz : Bool := Field.c w == 0
  let v := ((Field.fn w).extractLsb' 0 3).toNat
  req (decide ((Field.d w).toNat < 16) && t != 0) .badToken <|
    match ((Field.fn w).extractLsb' 3 3).toNat with
    | 0 => req (v == 0) .reservedFunction (.ok (.xcopy t a b c))
    | 1 => codeOr (ElemSize.ofCode v) fun z => .ok (.xgather t a b c z)
    | 2 => codeOr (ElemSize.ofCode v) fun z => .ok (.xscatter t a b c z)
    | 3 => req (v == 0) .reservedFunction (.ok (.xfill t a b c))
    | 4 =>
      match v with
      | 0 => .ok (.xnearScaleadd t a b c)
      | 1 => .ok (.xnearTopk t a b c)
      | _ => .error .reservedFunction
    | 5 => codeOr (CollOp.ofCode v) fun z => .ok (.xcoll t a b c z)
    | 6 =>
      match v with
      | 0 => req (bz && cz) .reservedField (.ok (.ftest t a))
      | 1 => req (az && bz) .reservedField (.ok (.fwait t (Field.c w)))
      | 2 => req (az && bz && cz) .reservedField (.ok (.fcancel t))
      | _ => .error .reservedFunction
    | _ => .error .reservedFunction

/-- The atomic majors 0x1C to 0x1F (R137, R154). -/
def decodeAtomic (op : Nat) (w : W32) : Except Reject Instr :=
  let d := GReg.ofBits (Field.d w)
  let a := GReg.ofBits (Field.a w)
  let b := GReg.ofBits (Field.b w)
  let dz : Bool := Field.d w == 0
  let k := (Field.k w).toNat
  let o := Order.ofCode (Field.ord w).toNat
  match op with
  | 0x1C =>
    codeOr (Scope.ofCode (Field.sc w).toNat) fun sc => codeOr (AWidth.ofCode (Field.wd w).toNat) fun wd =>
      codeOr (AmoKind.ofCode k) fun kd => .ok (.amo kd wd o sc d a b)
  | 0x1D =>
    codeOr (Scope.ofCode (Field.sc w).toNat) fun sc => codeOr (AWidth.ofCode (Field.wd w).toNat) fun wd =>
      match k with
      | 0 => .ok (.cas wd o sc d a b)
      | 1 =>
        req (d.isPair && b.isPair) .badGroup <|
          match wd with
          | .w32 => .ok (.cas2 o sc d a b)
          | .w64 => .error .reservedField
      | _ => .error .reservedFunction
  | 0x1E =>
    codeOr (RedType.ofCode (Field.sc w).toNat) fun t => codeOr (RedKind.ofCode k) fun kd =>
      req (dz && Field.ord w == 0 && Field.wd w == 0) .reservedField <|
        req (decide (t = .f32 → kd = .add)) .reservedFunction (.ok (.red kd t a b))
  | _ =>
    codeOr (Scope.ofCode (Field.sc w).toNat) fun sc => codeOr (FenceKind.ofCode (Field.ord w).toNat) fun kd =>
      req (dz && Field.b w == 0 && Field.k w == 0 && Field.wd w == 0 && decide (sc ≠ .rect → a = .g 0))
        .reservedField (.ok (.fence kd sc a))

/-- The I-format majors (R152, R153) and RPT, TRAP, SYSC, CTLRD, CTLWR. A CTLWR of FAULTEND has its own row (R365). -/
def decodeImm (op : Nat) (w : W32) : Except Reject Instr :=
  let d := GReg.ofBits (Field.d w)
  let a := GReg.ofBits (Field.a w)
  let i := Field.imm w
  let dz : Bool := Field.d w == 0
  let az : Bool := Field.a w == 0
  let sh : BitVec 6 := w.extractLsb' 0 6
  let shz : Bool := w.extractLsb' 6 10 == 0
  match op with
  | 0x10 => .ok (.addi d a i)
  | 0x11 => .ok (.muli d a i)
  | 0x12 => .ok (.andi d a i)
  | 0x13 => .ok (.ori d a i)
  | 0x14 => .ok (.xori d a i)
  | 0x15 => req shz .reservedField (.ok (.shli d a sh))
  | 0x16 => req shz .reservedField (.ok (.shri d a sh))
  | 0x17 => req shz .reservedField (.ok (.shai d a sh))
  | 0x18 => req shz .reservedField (.ok (.roli d a sh))
  | 0x19 => codeOr (Cond.ofCode (w.extractLsb' 13 3).toNat) fun c => .ok (.cmpi c d a (w.extractLsb' 0 13))
  | 0x1A => req az .reservedField (.ok (.lui d i))
  | 0x3A =>
    req (!w.getLsbD 25 && w.extractLsb' 19 2 == 0 && w.extractLsb' 0 6 == 0) .reservedField
      (.ok (.rpt (w.extractLsb' 21 4) (w.extractLsb' 16 3) (w.extractLsb' 12 4) (w.extractLsb' 6 6)))
  | 0x3B => req (dz && az) .reservedField (.ok (.trap i))
  | 0x3C => req (dz && az) .reservedField (.ok (.sysc i))
  | 0x3D => req az .reservedField (.ok (.ctlrd d i))
  | 0x3E => req dz .reservedField (if i = 0x010D then .ok (.faultend a) else .ok (.ctlwr a i))
  | _ => .error .reservedMajor

/-- The load, store, prefetch and branch majors (R148). -/
def decodeMem (op : Nat) (w : W32) : Except Reject Instr :=
  let d := GReg.ofBits (Field.d w)
  let b := GReg.ofBits (Field.a w)
  let l := Field.lm w
  let lz : Bool := l == 0
  let off := Field.off12 w
  match op with
  | 0x27 => req d.isGroup .badGroup (.ok (.ldv d b l off))
  | 0x28 => req lz .reservedField (.ok (.st .b1 d b off))
  | 0x29 => req lz .reservedField (.ok (.st .b2 d b off))
  | 0x2A => req lz .reservedField (.ok (.st .b4 d b off))
  | 0x2B => req lz .reservedField (.ok (.st .b8 d b off))
  | 0x2C => req d.isGroup .badGroup (req lz .reservedField (.ok (.stv d b off)))
  | 0x2D => req (lz && Field.d w == 0) .reservedField (.ok (.pref b off))
  | 0x30 => .ok (.br .eq d b (Field.imm w))
  | 0x31 => .ok (.br .ne d b (Field.imm w))
  | 0x32 => .ok (.br .lt d b (Field.imm w))
  | 0x33 => .ok (.br .ge d b (Field.imm w))
  | 0x34 => .ok (.br .ltn d b (Field.imm w))
  | 0x35 => .ok (.br .gen d b (Field.imm w))
  | 0x36 => req (Field.a w == 0) .reservedField (.ok (.bz d (Field.imm w)))
  | 0x37 => req (Field.a w == 0) .reservedField (.ok (.bnz d (Field.imm w)))
  | 0x38 => .ok (.j (Field.off26 w))
  | 0x39 => .ok (.call (Field.off26 w))
  | _ => codeOr (LdType.ofCode (op - 0x20)) fun t => .ok (.ld t d b l off)

/-- A grain instruction word (R136, R148). -/
def decodeGrain (w : W32) : Except Reject Instr :=
  let op := (Field.op w).toNat
  if op = 1 then decodeInt w
  else if op = 2 then decodeFpu w
  else if 3 ≤ op ∧ op ≤ 10 then decodeMisc op w
  else if op = 11 then decodeEng w
  else if 0x10 ≤ op ∧ op ≤ 0x1A then decodeImm op w
  else if 0x1C ≤ op ∧ op ≤ 0x1F then decodeAtomic op w
  else if (0x20 ≤ op ∧ op ≤ 0x2D) ∨ (0x30 ≤ op ∧ op ≤ 0x39) then decodeMem op w
  else if 0x3A ≤ op ∧ op ≤ 0x3E then decodeImm op w
  else .error .reservedMajor

/-! ## Chisel syllables -/

/-- The slot code of a syllable (R156): 0 C, 1 S0, 2 S1, 3 V, 4 M, 5 T. -/
def sylSlot (w : W32) : Nat := (w.extractLsb' 29 3).toNat
def sylStop (w : W32) : Bool := w.getLsbD 28

/-- C syllables (R159). -/
def decodeC (w : W32) : Except Reject Instr :=
  let body : BitVec 24 := w.extractLsb' 0 24
  let off : BitVec 16 := w.extractLsb' 0 16
  let s1 : SReg := (w.extractLsb' 16 5).toFin
  let s2 : SReg := (w.extractLsb' 11 5).toFin
  let r (c : Bool) (i : Instr) : Except Reject Instr := req c .reservedField (.ok i)
  match (w.extractLsb' 24 4).toNat with
  | 0 => r (body == 0) .nop
  | 1 => r (w.extractLsb' 16 8 == 0) (.cbr off)
  | 2 => r (w.extractLsb' 16 4 == 0) (.brp (w.getLsbD 23) (w.extractLsb' 20 3).toFin off)
  | 3 => r (w.extractLsb' 21 3 == 0) (.loop s1 off)
  | 4 => r (body == 0) .done
  | 5 => r (w.extractLsb' 11 13 == 0) (.setfmt (w.extractLsb' 0 11))
  | 6 => r (w.extractLsb' 2 22 == 0) (.setrm (w.extractLsb' 0 2))
  | 7 => r (w.extractLsb' 21 3 == 0 && w.extractLsb' 0 16 == 0) (.tpop s1)
  | 8 => r (w.extractLsb' 21 3 == 0 && w.extractLsb' 0 11 == 0) (.tpost s1 s2)
  | 9 => r (body == 0) .mwait
  | _ => .error .reservedFunction

/-- S0 and S1 syllables (R160). -/
def decodeS (u : SSlot) (w : W32) : Except Reject Instr :=
  let d : SReg := (w.extractLsb' 18 5).toFin
  let a : SReg := (w.extractLsb' 13 5).toFin
  let b : SReg := (w.extractLsb' 8 5).toFin
  let x3 : Fin 8 := (w.extractLsb' 5 3).toFin
  let d3 : Fin 8 := (w.extractLsb' 18 3).toFin
  let lowz : Bool := w.extractLsb' 0 5 == 0
  let xz : Bool := w.extractLsb' 5 3 == 0
  let bz : Bool := w.extractLsb' 8 5 == 0
  let dhz : Bool := w.extractLsb' 21 2 == 0
  let r (c : Bool) (i : Instr) : Except Reject Instr := req c .reservedField (.ok i)
  match (w.extractLsb' 23 5).toNat with
  | 0 => r (lowz && xz) (.sAdd u d a b)
  | 1 => .ok (.sAddi u d a (w.extractLsb' 0 13))
  | 2 => r (lowz && xz) (.sSub u d a b)
  | 3 => r (lowz && xz) (.sMul u d a b)
  | 4 => r (lowz && xz) (.sAnd u d a b)
  | 5 => r (lowz && xz) (.sOr u d a b)
  | 6 => r (lowz && xz) (.sXor u d a b)
  | 7 => r (lowz && xz) (.sShl u d a b)
  | 8 => r (lowz && xz) (.sShr u d a b)
  | 9 => r (lowz && xz) (.sSha u d a b)
  | 10 => r (lowz && xz) (.sMin u d a b)
  | 11 => r (lowz && xz) (.sMax u d a b)
  | 12 => codeOr (Cond.ofCode x3.val) fun c => r (lowz && dhz) (.sCmp u c d3 a b)
  | 13 => r lowz (.sSel u d a b x3)
  | 14 => .ok (.li u d (w.extractLsb' 0 18))
  | 15 => codeOr (HField.ofCode x3.val) fun h => r (lowz && bz) (.hget u d a h)
  | 16 => r (lowz && bz && xz && dhz) (.mpset u d3 a)
  | _ => .error .reservedFunction

/-- V syllables (R161). Reserved format codes are left to the format check, which traps FMT (R293). -/
def decodeV (w : W32) : Except Reject Instr :=
  let vd : VReg := (w.extractLsb' 19 4).toFin
  let va : VReg := (w.extractLsb' 15 4).toFin
  let vb : VReg := (w.extractLsb' 11 4).toFin
  let s : SReg := (w.extractLsb' 14 5).toFin
  let f : FmtCode := w.extractLsb' 7 4
  let g : FmtCode := w.extractLsb' 3 4
  let p : PReg := (w.extractLsb' 0 3).toFin
  let gz : Bool := g == 0
  let fz : Bool := f == 0
  let pz : Bool := w.extractLsb' 0 3 == 0
  let bz : Bool := w.extractLsb' 11 4 == 0
  let r (c : Bool) (i : Instr) : Except Reject Instr := req c .reservedField (.ok i)
  match (w.extractLsb' 23 5).toNat with
  | 0 => r (w.extractLsb' 0 9 == 0) (.vld vd s (w.extractLsb' 9 5))
  | 1 => r (w.extractLsb' 0 9 == 0) (.vst vd s (w.extractLsb' 9 5))
  | 2 => r (gz && pz) (.vadd f vd va vb)
  | 3 => r (gz && pz) (.vsub f vd va vb)
  | 4 => r (gz && pz) (.vmul f vd va vb)
  | 5 => r (gz && pz) (.vfma f vd va vb)
  | 6 => r (gz && pz) (.vmax f vd va vb)
  | 7 => r (gz && pz) (.vmin f vd va vb)
  | 8 => r (gz && pz && bz) (.vexp2 f vd va)
  | 9 => r (gz && pz && bz) (.vrcp f vd va)
  | 10 => r (gz && pz && bz) (.vrsq f vd va)
  | 11 => r (pz && (g == 5 || g == 6 || bz)) (.vcvt f g vd va vb)
  | 12 => r (gz && pz && bz) (.vrmax f vd va)
  | 13 => r (gz && pz && bz) (.vrsum f vd va)
  | 14 => r (w.extractLsb' 11 3 == 0 && w.extractLsb' 0 7 == 0) (.vbc f vd s)
  | 15 => r (fz && gz) (.vsel vd va vb p)
  | 16 => r (fz && gz && pz) (.vshuf vd va vb)
  | _ => .error .reservedFunction

/-- M syllables (R162). -/
def decodeM (w : W32) : Except Reject Instr :=
  let n : BitVec 6 := w.extractLsb' 20 6
  match (w.extractLsb' 26 2).toNat with
  | 0 =>
    req (w.extractLsb' 0 3 == 0) .reservedField <|
      req (decide (n.toNat < 7 ∨ 16 ≤ n.toNat)) .reservedFunction
        (.ok (.mcall n (w.extractLsb' 17 3).toFin (w.extractLsb' 10 7).toFin (w.extractLsb' 3 7).toFin))
  | 1 =>
    req (w.extractLsb' 0 15 == 0) .reservedField <|
      req (decide (16 ≤ n.toNat)) .reservedFunction (.ok (.mstore n (w.extractLsb' 15 5).toFin))
  | _ => .error .reservedFunction

/-- T syllables (R163). -/
def decodeT (w : W32) : Except Reject Instr :=
  let x : OSlot := (w.extractLsb' 16 7).toFin
  let acc : Acc := (w.extractLsb' 16 3).toFin
  let vd : VReg := (w.extractLsb' 16 4).toFin
  let sa : SReg := (w.extractLsb' 11 5).toFin
  let sb : SReg := (w.extractLsb' 6 5).toFin
  let xz : Bool := w.extractLsb' 16 7 == 0
  let x3 : Bool := w.extractLsb' 19 4 == 0
  let x4 : Bool := w.extractLsb' 20 3 == 0
  let az : Bool := w.extractLsb' 11 5 == 0
  let bz : Bool := w.extractLsb' 6 5 == 0
  let kz : Bool := w.extractLsb' 0 6 == 0
  let r (c : Bool) (i : Instr) : Except Reject Instr := req c .reservedField (.ok i)
  match (w.extractLsb' 23 5).toNat with
  | 0 => r (az && bz && kz) (.oclaim x)
  | 1 => r (az && bz && kz) (.orel x)
  | 2 => r (bz && kz) (.oload x sa)
  | 3 => r (x3 && az && bz && kz) (.aclr acc)
  | 4 => r (x3 && bz && w.extractLsb' 1 5 == 0) (.ast acc sa (w.getLsbD 0))
  | 5 => r (xz && bz && kz) (.hrel sa)
  | 6 => r (xz && az && bz && kz) .ttclr
  | 7 => r (xz && kz) (.ttnode sa sb)
  | 8 => r kz (.ttmask x sa sb)
  | 9 => r (x4 && bz && kz) (.ttpos vd sa)
  | 10 => r (xz && kz) (.ttprune sa sb)
  | 11 => r (x4 && bz && kz) (.ttpath vd sa)
  | _ => .error .reservedFunction

/-- One chisel syllable (R156). -/
def decodeSyllable (w : W32) : Except Reject Instr :=
  match sylSlot w with
  | 0 => decodeC w
  | 1 => decodeS .s0 w
  | 2 => decodeS .s1 w
  | 3 => decodeV w
  | 4 => decodeM w
  | 5 => decodeT w
  | _ => .error .unknownSlot

/-- What a syllable writes, for the conflict rule of R157. -/
inductive WriteTarget where
  | s (n : Nat) | v (n : Nat) | p (n : Nat) | mp (n : Nat) | acc (n : Nat) | slot (n : Nat)
  deriving DecidableEq, Repr

/-- The registers, accumulator or slot that a syllable names as its destination (R157, R318, R328): every MCALL names its
accumulator. What a user routine writes beyond it, and the vectors of AROWMAX, are checked when the routine is known
(R320). OCLAIM and OREL write no slot: an MCALL of a slot that its own bundle claims traps PERM (R313). -/
def Instr.writes : Instr → List WriteTarget
  | .loop r _ => [.s r.val]
  | .tpop r => [.s r.val]
  | .sAdd _ d _ _ | .sSub _ d _ _ | .sMul _ d _ _ | .sAnd _ d _ _ | .sOr _ d _ _ | .sXor _ d _ _ | .sShl _ d _ _
  | .sShr _ d _ _ | .sSha _ d _ _ | .sMin _ d _ _ | .sMax _ d _ _ | .sSel _ d _ _ _ => [.s d.val]
  | .sAddi _ d _ _ => [.s d.val]
  | .sCmp _ _ p _ _ => [.p p.val]
  | .li _ d _ => [.s d.val]
  | .hget _ d _ _ => [.s d.val]
  | .mpset _ m _ => [.mp m.val]
  | .vld v _ _ => [.v v.val]
  | .vadd _ d _ _ | .vsub _ d _ _ | .vmul _ d _ _ | .vfma _ d _ _ | .vmax _ d _ _ | .vmin _ d _ _ => [.v d.val]
  | .vexp2 _ d _ | .vrcp _ d _ | .vrsq _ d _ | .vrmax _ d _ | .vrsum _ d _ => [.v d.val]
  | .vcvt _ _ d _ _ => [.v d.val]
  | .vbc _ d _ => [.v d.val]
  | .vsel d _ _ _ => [.v d.val]
  | .vshuf d _ _ => [.v d.val]
  | .mcall n acc oA _ => .acc acc.val :: if n = 6 then [.slot oA.val] else []
  | .oload o _ => [.slot o.val]
  | .aclr acc => [.acc acc.val]
  | .ttmask o _ _ => [.slot o.val]
  | .ttpos d _ => [.v d.val]
  | .ttpath d _ => [.v d.val]
  | _ => []

/-- BR, BRP and LOOP (R158), and DONE, which R296 treats alike in a delay slot. -/
def Instr.isBranch : Instr → Bool
  | .cbr _ => true
  | .brp _ _ _ => true
  | .loop _ _ => true
  | _ => false

/-- The syllables of a bundle: the words up to the first stop bit, at most six (R156, R157). -/
def bundleWords : Nat → List W32 → Except Reject (List W32)
  | 0, _ => .error .noStop
  | _ + 1, [] => .error .noStop
  | n + 1, w :: ws => if sylStop w then .ok [w] else
      match bundleWords n ws with
      | .ok r => .ok (w :: r)
      | .error e => .error e

def ascending : List Nat → Bool
  | a :: b :: r => decide (a < b) && ascending (b :: r)
  | _ => true

def decodeAll : List W32 → Except Reject (List Instr)
  | [] => .ok []
  | w :: ws =>
    match decodeSyllable w, decodeAll ws with
    | .ok i, .ok r => .ok (i :: r)
    | .error e, _ => .error e
    | _, .error e => .error e

/-- A bundle decoded as a whole (R157); `inDelay` is true in a delay slot, where a branch or a DONE traps
BRANCH_IN_DELAY (R158, R296). -/
def decodeBundle (inDelay : Bool) (ws : List W32) : Except Reject (List Instr) :=
  match bundleWords 6 ws with
  | .error e => .error e
  | .ok syl =>
    match decodeAll syl with
    | .error e => .error e
    | .ok is =>
      if !ascending (syl.map sylSlot) then .error .slotOrder
      else if !(is.flatMap Instr.writes).Nodup then .error .writeConflict
      else if inDelay && is.any (fun i => i.isBranch || i == .done) then .error .branchInDelay
      else .ok is

/-! ## The encoder -/

/-- Layouts of R137. -/
def fmtA (op : BitVec 6) (d a b : BitVec 5) (l : BitVec 4) (f : BitVec 7) : W32 := op ++ d ++ a ++ b ++ l ++ f
def fmtI (op : BitVec 6) (d a : BitVec 5) (i : BitVec 16) : W32 := op ++ d ++ a ++ i
def fmtM (op : BitVec 6) (d b : BitVec 5) (l : BitVec 4) (off : BitVec 12) : W32 := op ++ d ++ b ++ l ++ off
def fmtJ (op : BitVec 6) (off : BitVec 26) : W32 := op ++ off
def fmtE (t a b c : BitVec 5) (fn : BitVec 6) : W32 := 11#6 ++ t ++ a ++ b ++ c ++ fn
def fmtAt (op : BitVec 6) (d a b : BitVec 5) (sc : BitVec 3) (o : BitVec 2) (k : BitVec 4) (wd : BitVec 2) : W32 :=
  op ++ d ++ a ++ b ++ sc ++ o ++ k ++ wd

def tokBits (t : Fin 16) : BitVec 5 := 0#1 ++ (f4 t)

/-- The word of a grain instruction, from the tables of R148 to R155; none for other constructors. -/
def encodeGrain : Instr → Option W32
  | .add d a b => some (fmtA 1 d.bits a.bits b.bits 0 0x00)
  | .sub d a b => some (fmtA 1 d.bits a.bits b.bits 0 0x01)
  | .mul d a b => some (fmtA 1 d.bits a.bits b.bits 0 0x02)
  | .mulh d a b => some (fmtA 1 d.bits a.bits b.bits 0 0x03)
  | .mulhn d a b => some (fmtA 1 d.bits a.bits b.bits 0 0x04)
  | .div d a b l => some (fmtA 1 d.bits a.bits b.bits l 0x05)
  | .divn d a b l => some (fmtA 1 d.bits a.bits b.bits l 0x06)
  | .rem d a b l => some (fmtA 1 d.bits a.bits b.bits l 0x07)
  | .remn d a b l => some (fmtA 1 d.bits a.bits b.bits l 0x08)
  | .andG d a b => some (fmtA 1 d.bits a.bits b.bits 0 0x10)
  | .orG d a b => some (fmtA 1 d.bits a.bits b.bits 0 0x11)
  | .xorG d a b => some (fmtA 1 d.bits a.bits b.bits 0 0x12)
  | .andn d a b => some (fmtA 1 d.bits a.bits b.bits 0 0x13)
  | .shl d a b => some (fmtA 1 d.bits a.bits b.bits 0 0x14)
  | .shr d a b => some (fmtA 1 d.bits a.bits b.bits 0 0x15)
  | .sha d a b => some (fmtA 1 d.bits a.bits b.bits 0 0x16)
  | .rol d a b => some (fmtA 1 d.bits a.bits b.bits 0 0x17)
  | .minG d a b => some (fmtA 1 d.bits a.bits b.bits 0 0x18)
  | .maxG d a b => some (fmtA 1 d.bits a.bits b.bits 0 0x19)
  | .minn d a b => some (fmtA 1 d.bits a.bits b.bits 0 0x1A)
  | .maxn d a b => some (fmtA 1 d.bits a.bits b.bits 0 0x1B)
  | .clz d a => some (fmtA 1 d.bits a.bits 0 0 0x1C)
  | .ctz d a => some (fmtA 1 d.bits a.bits 0 0 0x1D)
  | .popc d a => some (fmtA 1 d.bits a.bits 0 0 0x1E)
  | .sel d a b => some (fmtA 1 d.bits a.bits b.bits 0 0x1F)
  | .cmp c d a b => some (fmtA 1 d.bits a.bits b.bits 0 (BitVec.ofNat 7 (0x20 + c.code)))
  | .lea d a b sh => some (fmtA 1 d.bits a.bits b.bits sh 0x28)
  | .bext d a b => some (fmtA 1 d.bits a.bits b.bits 0 0x29)
  | .bdep d a b => some (fmtA 1 d.bits a.bits b.bits 0 0x2A)
  | .crc32c d a b => some (fmtA 1 d.bits a.bits b.bits 0 0x2B)
  | .hash64 d a b => some (fmtA 1 d.bits a.bits b.bits 0 0x2C)
  | .hamd d a b => some (fmtA 1 d.bits a.bits b.bits 0 0x2D)
  | .meshxy d a b => some (fmtA 1 d.bits a.bits b.bits 0 0x2E)
  | .rect d a b => some (fmtA 1 d.bits a.bits b.bits 0 0x2F)
  | .fadd d a b => some (fmtA 2 d.bits a.bits b.bits 0 0x00)
  | .fsub d a b => some (fmtA 2 d.bits a.bits b.bits 0 0x01)
  | .fmul d a b => some (fmtA 2 d.bits a.bits b.bits 0 0x02)
  | .ffma d a b => some (fmtA 2 d.bits a.bits b.bits 0 0x03)
  | .fmin d a b => some (fmtA 2 d.bits a.bits b.bits 0 0x04)
  | .fmax d a b => some (fmtA 2 d.bits a.bits b.bits 0 0x05)
  | .fsqrt d a l => some (fmtA 2 d.bits a.bits 0 l 0x08)
  | .frcp d a l => some (fmtA 2 d.bits a.bits 0 l 0x09)
  | .fcmp c d a b => some (fmtA 2 d.bits a.bits b.bits 0 (BitVec.ofNat 7 (0x10 + c.code)))
  | .fcvtFloat d a t s x => some (2#6 ++ d.bits ++ a.bits ++ t ++ s ++ BitVec.ofBool x ++ 0x18#7)
  | .fcvtToInt d a t s => some (2#6 ++ d.bits ++ a.bits ++ t ++ s ++ 0#1 ++ 0x19#7)
  | .fcvtFromInt d a t s => some (2#6 ++ d.bits ++ a.bits ++ t ++ s ++ 0#1 ++ 0x1A#7)
  | .jr a => some (fmtA 3 0 a.bits 0 0 0x00)
  | .callr a => some (fmtA 3 0 a.bits 0 0 0x01)
  | .ret => some (fmtA 3 0 0 0 0 0x02)
  | .yield => some (fmtA 3 0 0 0 0 0x03)
  | .exit => some (fmtA 3 0 0 0 0 0x04)
  | .send d a b l => some (fmtA 4 d.bits a.bits b.bits l 0x00)
  | .recv d a e => some (fmtA 4 d.bits a.bits e 0 0x01)
  | .gjoin d a l => some (fmtA 4 d.bits a.bits 0 l 0x02)
  | .gleave d a l => some (fmtA 4 d.bits a.bits 0 l 0x03)
  | .gsize d a l => some (fmtA 4 d.bits a.bits 0 l 0x04)
  | .binit d a b l => some (fmtA 4 d.bits a.bits b.bits l 0x08)
  | .barrive d a l => some (fmtA 4 d.bits a.bits 0 l 0x09)
  | .bwait d a e => some (fmtA 4 d.bits a.bits e 0 0x0A)
  | .binval d a l => some (fmtA 4 d.bits a.bits 0 l 0x0B)
  | .spawn d a l => some (fmtA 4 d.bits a.bits 0 l 0x10)
  | .join d e => some (fmtA 4 d.bits 0 e 0 0x11)
  | .taskid d => some (fmtA 4 d.bits 0 0 0 0x12)
  | .kill d a l => some (fmtA 4 d.bits a.bits 0 l 0x13)
  | .topen d a b l => some (fmtA 5 d.bits a.bits b.bits l 0x00)
  | .twr d a b => some (fmtA 5 d.bits a.bits b.bits 0 0x01)
  | .twrr d a b l => some (fmtA 5 d.bits a.bits b.bits l 0x02)
  | .seal d a l => some (fmtA 5 d.bits a.bits 0 l 0x03)
  | .tstat d a l => some (fmtA 5 d.bits a.bits 0 l 0x04)
  | .tdrop d a l => some (fmtA 5 d.bits a.bits 0 l 0x05)
  | .cqinit a => some (fmtA 6 0 a.bits 0 0 0x00)
  | .cqpush a b => some (fmtA 6 0 a.bits b.bits 0 0x01)
  | .cqpop d => some (fmtA 6 d.bits 0 0 0 0x02)
  | .frb d l => some (fmtA 7 d.bits 0 0 l 0x00)
  | .fre d e => some (fmtA 7 d.bits 0 e 0 0x01)
  | .frabort => some (fmtA 7 0 0 0 0 0x02)
  | .frstat d a l => some (fmtA 7 d.bits a.bits 0 l 0x03)
  | .balloc d a l => some (fmtA 8 d.bits a.bits 0 l 0x00)
  | .bfree d a l => some (fmtA 8 d.bits a.bits 0 l 0x01)
  | .sqappend d a b l => some (fmtA 8 d.bits a.bits b.bits l 0x02)
  | .sqlook d a b l => some (fmtA 8 d.bits a.bits b.bits l 0x03)
  | .sqfork d a l => some (fmtA 8 d.bits a.bits 0 l 0x04)
  | .sqdrop d a l => some (fmtA 8 d.bits a.bits 0 l 0x05)
  | .pfxput d a b l => some (fmtA 8 d.bits a.bits b.bits l 0x06)
  | .pfxfind d a b l => some (fmtA 8 d.bits a.bits b.bits l 0x07)
  | .pfxfindV d a b l => some (fmtA 8 d.bits a.bits b.bits l 0x08)
  | .eret => some (fmtA 9 0 0 0 0 0x00)
  | .tlbwr d a b => some (fmtA 9 d.bits a.bits b.bits 0 0x01)
  | .tlbinv d a => some (fmtA 9 d.bits a.bits 0 0 0x02)
  | .waiti => some (fmtA 9 0 0 0 0 0x03)
  | .vbopen d a l => some (fmtA 10 d.bits a.bits 0 l 0x00)
  | .vbseal d a l => some (fmtA 10 d.bits a.bits 0 l 0x01)
  | .xcopy t a b c => some (fmtE (tokBits t) a.bits b.bits c.bits 0x00)
  | .xgather t a b c z => some (fmtE (tokBits t) a.bits b.bits c.bits (BitVec.ofNat 6 (0x08 + z.code)))
  | .xscatter t a b c z => some (fmtE (tokBits t) a.bits b.bits c.bits (BitVec.ofNat 6 (0x10 + z.code)))
  | .xfill t a b c => some (fmtE (tokBits t) a.bits b.bits c.bits 0x18)
  | .xnearScaleadd t a b c => some (fmtE (tokBits t) a.bits b.bits c.bits 0x20)
  | .xnearTopk t a b c => some (fmtE (tokBits t) a.bits b.bits c.bits 0x21)
  | .xcoll t a b c v => some (fmtE (tokBits t) a.bits b.bits c.bits (BitVec.ofNat 6 (0x28 + v.code)))
  | .ftest t a => some (fmtE (tokBits t) a.bits 0 0 0x30)
  | .fwait t e => some (fmtE (tokBits t) 0 0 e 0x31)
  | .fcancel t => some (fmtE (tokBits t) 0 0 0 0x32)
  | .addi d a i => some (fmtI 0x10 d.bits a.bits i)
  | .muli d a i => some (fmtI 0x11 d.bits a.bits i)
  | .andi d a i => some (fmtI 0x12 d.bits a.bits i)
  | .ori d a i => some (fmtI 0x13 d.bits a.bits i)
  | .xori d a i => some (fmtI 0x14 d.bits a.bits i)
  | .shli d a n => some (fmtI 0x15 d.bits a.bits (0#10 ++ n))
  | .shri d a n => some (fmtI 0x16 d.bits a.bits (0#10 ++ n))
  | .shai d a n => some (fmtI 0x17 d.bits a.bits (0#10 ++ n))
  | .roli d a n => some (fmtI 0x18 d.bits a.bits (0#10 ++ n))
  | .cmpi c d a i => some (fmtI 0x19 d.bits a.bits (BitVec.ofNat 3 c.code ++ i))
  | .lui d i => some (fmtI 0x1A d.bits 0 i)
  | .amo k wd o sc d a b => some (fmtAt 0x1C d.bits a.bits b.bits (BitVec.ofNat 3 sc.code) (BitVec.ofNat 2 o.code)
      (BitVec.ofNat 4 k.code) (BitVec.ofNat 2 wd.code))
  | .cas wd o sc d a b => some (fmtAt 0x1D d.bits a.bits b.bits (BitVec.ofNat 3 sc.code) (BitVec.ofNat 2 o.code) 0
      (BitVec.ofNat 2 wd.code))
  | .cas2 o sc d a b => some (fmtAt 0x1D d.bits a.bits b.bits (BitVec.ofNat 3 sc.code) (BitVec.ofNat 2 o.code) 1 0)
  | .red k t a b => some (fmtAt 0x1E 0 a.bits b.bits (BitVec.ofNat 3 t.code) 0 (BitVec.ofNat 4 k.code) 0)
  | .fence k sc a => some (fmtAt 0x1F 0 a.bits 0 (BitVec.ofNat 3 sc.code) (BitVec.ofNat 2 k.code) 0 0)
  | .ld t d b l off => some (fmtM (BitVec.ofNat 6 (0x20 + t.code)) d.bits b.bits l off)
  | .ldv d b l off => some (fmtM 0x27 d.bits b.bits l off)
  | .st z d b off => some (fmtM (BitVec.ofNat 6 (0x28 + z.code)) d.bits b.bits 0 off)
  | .stv d b off => some (fmtM 0x2C d.bits b.bits 0 off)
  | .pref b off => some (fmtM 0x2D 0 b.bits 0 off)
  | .br c a b off => some (fmtI (BitVec.ofNat 6 (0x30 + c.code)) a.bits b.bits off)
  | .bz a off => some (fmtI 0x36 a.bits 0 off)
  | .bnz a off => some (fmtI 0x37 a.bits 0 off)
  | .j off => some (fmtJ 0x38 off)
  | .call off => some (fmtJ 0x39 off)
  | .rpt n m s k => some (0x3A#6 ++ 0#1 ++ n ++ 0#2 ++ m ++ s ++ k ++ 0#6)
  | .trap i => some (fmtI 0x3B 0 0 i)
  | .sysc i => some (fmtI 0x3C 0 0 i)
  | .ctlrd d n => some (fmtI 0x3D d.bits 0 n)
  | .ctlwr a n => some (fmtI 0x3E 0 a.bits n)
  | .faultend a => some (fmtI 0x3E 0 a.bits 0x010D)
  | _ => none

def SSlot.code : SSlot → BitVec 3
  | .s0 => 1
  | .s1 => 2

def sylC (stop : Bool) (op : BitVec 4) (body : BitVec 24) : W32 := 0#3 ++ BitVec.ofBool stop ++ op ++ body
def sylS (stop : Bool) (u : SSlot) (op d a b : BitVec 5) (x : BitVec 3) : W32 :=
  u.code ++ BitVec.ofBool stop ++ op ++ d ++ a ++ b ++ x ++ 0#5
def sylV (stop : Bool) (op : BitVec 5) (vd va vb f g : BitVec 4) (p : BitVec 3) : W32 :=
  3#3 ++ BitVec.ofBool stop ++ op ++ vd ++ va ++ vb ++ f ++ g ++ p
def sylVM (stop : Bool) (op : BitVec 5) (vd : BitVec 4) (s row : BitVec 5) : W32 :=
  3#3 ++ BitVec.ofBool stop ++ op ++ vd ++ s ++ row ++ 0#9
def sylT (stop : Bool) (op : BitVec 5) (x : BitVec 7) (sa sb : BitVec 5) (k : BitVec 6) : W32 :=
  5#3 ++ BitVec.ofBool stop ++ op ++ x ++ sa ++ sb ++ k

/-- The word of a chisel syllable, from the tables of R159 to R163; none for other constructors. -/
def encodeSyllable (stop : Bool) : Instr → Option W32
  | .nop => some (sylC stop 0 0)
  | .cbr off => some (sylC stop 1 (0#8 ++ off))
  | .brp neg p off => some (sylC stop 2 (BitVec.ofBool neg ++ (f3 p) ++ 0#4 ++ off))
  | .loop r off => some (sylC stop 3 (0#3 ++ (f5 r) ++ off))
  | .done => some (sylC stop 4 0)
  | .setfmt i => some (sylC stop 5 (0#13 ++ i))
  | .setrm r => some (sylC stop 6 (0#22 ++ r))
  | .tpop r => some (sylC stop 7 (0#3 ++ (f5 r) ++ 0#16))
  | .tpost h m => some (sylC stop 8 (0#3 ++ (f5 h) ++ (f5 m) ++ 0#11))
  | .mwait => some (sylC stop 9 0)
  | .sAdd u d a b => some (sylS stop u 0 (f5 d) (f5 a) (f5 b) 0)
  | .sAddi u d a i => some (u.code ++ BitVec.ofBool stop ++ 1#5 ++ (f5 d) ++ (f5 a) ++ i)
  | .sSub u d a b => some (sylS stop u 2 (f5 d) (f5 a) (f5 b) 0)
  | .sMul u d a b => some (sylS stop u 3 (f5 d) (f5 a) (f5 b) 0)
  | .sAnd u d a b => some (sylS stop u 4 (f5 d) (f5 a) (f5 b) 0)
  | .sOr u d a b => some (sylS stop u 5 (f5 d) (f5 a) (f5 b) 0)
  | .sXor u d a b => some (sylS stop u 6 (f5 d) (f5 a) (f5 b) 0)
  | .sShl u d a b => some (sylS stop u 7 (f5 d) (f5 a) (f5 b) 0)
  | .sShr u d a b => some (sylS stop u 8 (f5 d) (f5 a) (f5 b) 0)
  | .sSha u d a b => some (sylS stop u 9 (f5 d) (f5 a) (f5 b) 0)
  | .sMin u d a b => some (sylS stop u 10 (f5 d) (f5 a) (f5 b) 0)
  | .sMax u d a b => some (sylS stop u 11 (f5 d) (f5 a) (f5 b) 0)
  | .sCmp u c p a b =>
    some (sylS stop u 12 (0#2 ++ (f3 p)) (f5 a) (f5 b) (BitVec.ofNat 3 c.code))
  | .sSel u d a b p => some (sylS stop u 13 (f5 d) (f5 a) (f5 b) (f3 p))
  | .li u d i => some (u.code ++ BitVec.ofBool stop ++ 14#5 ++ (f5 d) ++ i)
  | .hget u d a f => some (sylS stop u 15 (f5 d) (f5 a) 0 (BitVec.ofNat 3 f.code))
  | .mpset u m a => some (sylS stop u 16 (0#2 ++ (f3 m)) (f5 a) 0 0)
  | .vld v h row => some (sylVM stop 0 (f4 v) (f5 h) row)
  | .vst v h row => some (sylVM stop 1 (f4 v) (f5 h) row)
  | .vadd f d a b => some (sylV stop 2 (f4 d) (f4 a) (f4 b) f 0 0)
  | .vsub f d a b => some (sylV stop 3 (f4 d) (f4 a) (f4 b) f 0 0)
  | .vmul f d a b => some (sylV stop 4 (f4 d) (f4 a) (f4 b) f 0 0)
  | .vfma f d a b => some (sylV stop 5 (f4 d) (f4 a) (f4 b) f 0 0)
  | .vmax f d a b => some (sylV stop 6 (f4 d) (f4 a) (f4 b) f 0 0)
  | .vmin f d a b => some (sylV stop 7 (f4 d) (f4 a) (f4 b) f 0 0)
  | .vexp2 f d a => some (sylV stop 8 (f4 d) (f4 a) 0 f 0 0)
  | .vrcp f d a => some (sylV stop 9 (f4 d) (f4 a) 0 f 0 0)
  | .vrsq f d a => some (sylV stop 10 (f4 d) (f4 a) 0 f 0 0)
  | .vcvt f g d a b => some (sylV stop 11 (f4 d) (f4 a) (f4 b) f g 0)
  | .vrmax f d a => some (sylV stop 12 (f4 d) (f4 a) 0 f 0 0)
  | .vrsum f d a => some (sylV stop 13 (f4 d) (f4 a) 0 f 0 0)
  | .vbc f d s =>
    some (3#3 ++ BitVec.ofBool stop ++ 14#5 ++ (f4 d) ++ (f5 s) ++ 0#3 ++ f ++ 0#7)
  | .vsel d a b p => some (sylV stop 15 (f4 d) (f4 a) (f4 b) 0 0 (f3 p))
  | .vshuf d a b => some (sylV stop 16 (f4 d) (f4 a) (f4 b) 0 0 0)
  | .mcall n acc oA oB =>
    some (4#3 ++ BitVec.ofBool stop ++ 0#2 ++ n ++ (f3 acc) ++ (f7 oA) ++ (f7 oB) ++ 0#3)
  | .mstore n h => some (4#3 ++ BitVec.ofBool stop ++ 1#2 ++ n ++ (f5 h) ++ 0#15)
  | .oclaim o => some (sylT stop 0 (f7 o) 0 0 0)
  | .orel o => some (sylT stop 1 (f7 o) 0 0 0)
  | .oload o h => some (sylT stop 2 (f7 o) (f5 h) 0 0)
  | .aclr acc => some (sylT stop 3 (0#4 ++ (f3 acc)) 0 0 0)
  | .ast acc r half => some (sylT stop 4 (0#4 ++ (f3 acc)) (f5 r) 0 (0#5 ++ BitVec.ofBool half))
  | .hrel h => some (sylT stop 5 0 (f5 h) 0 0)
  | .ttclr => some (sylT stop 6 0 0 0 0)
  | .ttnode a b => some (sylT stop 7 0 (f5 a) (f5 b) 0)
  | .ttmask o a b => some (sylT stop 8 (f7 o) (f5 a) (f5 b) 0)
  | .ttpos d a => some (sylT stop 9 (0#3 ++ (f4 d)) (f5 a) 0 0)
  | .ttprune a b => some (sylT stop 10 0 (f5 a) (f5 b) 0)
  | .ttpath d a => some (sylT stop 11 (0#3 ++ (f4 d)) (f5 a) 0 0)
  | _ => none

/-! ## Bytes -/

/-- The n low bytes of x, lowest address first (R4). -/
def leBytes : Nat → Nat → List Byte
  | 0, _ => []
  | n + 1, x => BitVec.ofNat 8 x :: leBytes n (x / 256)

/-- The number whose bytes are given, lowest address first (R4). -/
def ofLeBytes : List Byte → Nat
  | [] => 0
  | b :: bs => b.toNat + 256 * ofLeBytes bs

/-- `n` bytes of a list from offset `o`, short lists padded with zeros. -/
def bytesAt (bs : List Byte) (o n : Nat) : List Byte :=
  let r := (bs.drop o).take n
  r ++ List.replicate (n - r.length) 0

/-- The little-endian number in `n` bytes from offset `o`. -/
def numAt (bs : List Byte) (o n : Nat) : Nat := ofLeBytes ((bs.drop o).take n)

/-- The next grain instruction of a byte stream, and the bytes after it (R136). -/
def decode : List Byte → Except Reject (Instr × List Byte)
  | b0 :: b1 :: b2 :: b3 :: rest =>
    match decodeGrain (BitVec.ofNat 32 (ofLeBytes [b0, b1, b2, b3])) with
    | .ok i => .ok (i, rest)
    | .error e => .error e
  | _ => .error .malformed

/-- The bytes of an instruction: one grain word, or a bundle of the one syllable with its stop bit set. -/
def encode (i : Instr) : List Byte :=
  match encodeGrain i, encodeSyllable true i with
  | some w, _ => leBytes 4 w.toNat
  | none, some w => leBytes 4 w.toNat
  | none, none => []

/-- The decoder on a table word: a row of bits is one 32-bit grain word (R136). -/
def decodeTableWord (nbits w : Nat) : Option Instr :=
  if nbits = 0 ∨ 32 < nbits then none
  else
    match decode (leBytes 4 (w % 2 ^ nbits)) with
    | .ok (i, _) => some i
    | .error _ => none

/-! ## Messages, packets, flits -/

/-- A Host Transport datagram (R427): its TYPE byte and the message. A datagram that R427 drops is rejected. -/
def decodeDatagram (bs : List Byte) : Except Reject Turn :=
  let m : HostMsg := ⟨numAt bs 0 2, numAt bs 2 1, numAt bs 4 1, numAt bs 6 2, numAt bs 8 4, numAt bs 12 4, numAt bs 20 4,
    numAt bs 24 8, bytesAt bs 32 (numAt bs 16 4)⟩
  if bs.length < 32 ∨ !m.wf then .error .malformed else .ok (.host (numAt bs 3 1) m)

/-- A message's datagram of the given TYPE (R427). -/
def encodeDatagram (typ : Nat) (m : HostMsg) : List Byte :=
  leBytes 2 m.magic ++ leBytes 1 m.ver ++ leBytes 1 typ ++ leBytes 1 m.part ++ leBytes 1 0 ++ leBytes 2 m.stream
    ++ leBytes 4 m.seq ++ leBytes 4 m.ackn ++ leBytes 4 m.payload.length ++ leBytes 4 m.tag ++ leBytes 8 m.addr ++ m.payload

/-- A packet's bytes (R441). -/
def encodePacket (typ : Nat) (p : Packet) : List Byte :=
  leBytes 2 p.dst ++ leBytes 2 p.src ++ leBytes 1 typ ++ leBytes 1 p.age ++ leBytes 2 p.payload.length ++ leBytes 4 p.rtag
    ++ leBytes 1 p.part ++ leBytes 1 p.stat ++ leBytes 1 p.detail ++ leBytes 1 0 ++ leBytes 8 p.addr ++ leBytes 8 p.aux
    ++ leBytes 8 p.pmask ++ leBytes 8 0 ++ p.payload

/-- A packet read from its bytes (R441): TYPE and fields, rejected when a field that R441 fixes at zero is not. -/
def decodePacket (bs : List Byte) : Except Reject (Nat × Packet) :=
  let len := numAt bs 6 2
  let p : Packet := ⟨numAt bs 0 2, numAt bs 2 2, numAt bs 5 1, numAt bs 8 4, numAt bs 12 1, numAt bs 13 1, numAt bs 14 1,
    numAt bs 16 8, numAt bs 24 8, numAt bs 32 8, bytesAt bs 48 len⟩
  if bs.length < 48 + len ∨ !p.wf ∨ numAt bs 15 1 ≠ 0 ∨ numAt bs 40 8 ≠ 0 then .error .malformed else .ok (numAt bs 4 1, p)

/-- The fields of a flit (R438). -/
structure Flit where
  lseq : Nat
  vc : Nat
  sop : Bool
  eop : Bool
  ctrl : Bool
  ackv : Bool
  ackseq : Nat
  cred : List Nat
  body : List Byte
  crcGood : Bool
  deriving DecidableEq, Repr

/-- One bit of the CRC-32C loop of R177. -/
def crcBit (c : BitVec 32) (b : Bool) : BitVec 32 :=
  let c' := c >>> 1
  if (c.getLsbD 0) != b then c' ^^^ 0x82F63B78#32 else c'

/-- CRC-32C over a byte, bit 0 first (R177). -/
def crcByte (c : BitVec 32) (b : Byte) : BitVec 32 := (List.range 8).foldl (fun c i => crcBit c (b.getLsbD i)) c

/-- The flit CRC: from 0xFFFF_FFFF, inverted at the end (R438). -/
def flitCrc (bs : List Byte) : Nat := (~~~ (bs.foldl crcByte 0xFFFFFFFF#32)).toNat

def decodeFlit (bs : List Byte) : Flit :=
  let fl := numAt bs 2 1
  let ak := numAt bs 4 2
  { lseq := numAt bs 0 2 % 4096, vc := fl % 4, sop := fl.testBit 2, eop := fl.testBit 3, ctrl := fl.testBit 4,
    ackv := ak.testBit 15, ackseq := ak % 4096, cred := (bytesAt bs 8 4).map BitVec.toNat, body := bytesAt bs 12 240,
    crcGood := numAt bs 252 4 == flitCrc (bytesAt bs 0 252) }

def encodeFlit (f : Flit) : List Byte :=
  let fl := f.vc + (if f.sop then 4 else 0) + (if f.eop then 8 else 0) + (if f.ctrl then 16 else 0)
  let h := leBytes 2 f.lseq ++ leBytes 1 fl ++ leBytes 1 0 ++ leBytes 2 (f.ackseq + if f.ackv then 0x8000 else 0)
    ++ leBytes 2 0 ++ bytesAt (f.cred.map (BitVec.ofNat 8)) 0 4 ++ bytesAt f.body 0 240
  h ++ leBytes 4 (flitCrc h)

end Sys2Proof
end

