-- ==== Sys2Proof/Machine/Table.lean ====
section
/-! DEFINITION. Sparse tables in one canonical form: keys strictly rising, each key once. A byte store (memory,
scratchpad, operand memory, accumulators) lists only bytes that differ from 0, which is what an unlisted
address reads as (log 1). -/

namespace Sys2Proof.Machine

/-- A table by number, keys strictly rising. -/
abbrev Tbl (α : Type) := List (Nat × α)

def Tbl.find {α : Type} : Tbl α → Nat → Option α
  | [], _ => none
  | (k, v) :: t, n => if k = n then some v else if n < k then none else Tbl.find t n

def Tbl.put {α : Type} : Tbl α → Nat → α → Tbl α
  | [], n, x => [(n, x)]
  | (k, v) :: t, n, x =>
    if k = n then (n, x) :: t else if n < k then (n, x) :: (k, v) :: t else (k, v) :: Tbl.put t n x

def Tbl.del {α : Type} : Tbl α → Nat → Tbl α
  | [], _ => []
  | (k, v) :: t, n => if k = n then t else if n < k then (k, v) :: t else (k, v) :: Tbl.del t n

/-- The value at a key, or the given default. -/
def Tbl.getD {α : Type} (t : Tbl α) (n : Nat) (d : α) : α := (t.find n).getD d

/-- Keys strictly rise. -/
def Tbl.sorted {α : Type} : Tbl α → Bool
  | [] => true
  | [_] => true
  | (a, _) :: (b, y) :: t => decide (a < b) && Tbl.sorted ((b, y) :: t)

/-- A byte store. -/
abbrev Mem := List Host.Cell

/-- The byte at an address: an unlisted address reads 0 (log 1). -/
def Mem.get (m : Mem) (a : Nat) : Byte := Tbl.getD m a 0

/-- Write one byte, keeping the canonical form. -/
def Mem.put (m : Mem) (a : Nat) (b : Byte) : Mem := if b = 0 then Tbl.del m a else Tbl.put m a b

/-- The canonical form: addresses strictly rising and no listed zero. -/
def Memory.wf (m : Mem) : Bool := Tbl.sorted m && m.all fun c => c.2 != 0

/-- n bytes from an address, lowest first. -/
def Mem.bytes (m : Mem) (a : Nat) : Nat → List Byte
  | 0 => []
  | n + 1 => m.get a :: Mem.bytes m (a + 1) n

/-- Write bytes from an address upwards. -/
def Mem.putBytes (m : Mem) (a : Nat) : List Byte → Mem
  | [] => m
  | b :: bs => Mem.putBytes (m.put a b) (a + 1) bs

/-- The little-endian number in n bytes (R4). -/
def Mem.num (m : Mem) (a n : Nat) : Nat := ofLeBytes (m.bytes a n)

/-- A set of numbers as a rising list without repeats. -/
abbrev NSet := List Nat

def NSet.has (s : NSet) (n : Nat) : Bool := s.contains n
def NSet.ins : NSet → Nat → NSet
  | [], n => [n]
  | k :: t, n => if k = n then k :: t else if n < k then n :: k :: t else k :: NSet.ins t n
def NSet.rem : NSet → Nat → NSet
  | [], _ => []
  | k :: t, n => if k = n then t else k :: NSet.rem t n

end Sys2Proof.Machine
end

