-- ==== Sys2Proof/Machine/State.lean ====
section
/-! DEFINITION. The state of the device as plain data (INVENTORY.md, State). Tables list only what differs from
their default. Numbers: a grain core by its ordinal (R60), a strand by 16 x ordinal + strand, a chisel by
8 x cluster + its place among the cluster's eight, a context by 8 x chisel + tag, a scratchpad partition by
24 x cluster + core index, a buffer position by 128 x partition + BUF. -/

namespace Sys2Proof.Machine

/-- Trap causes (R363). -/
inductive Cause where
  | none | illegal | align | page | perm | sealedBuf | rangeLocked | branchInDelay | fmt | sys | brk | preempt
  | timer | machine | engine
  deriving DecidableEq, Repr

/-- Status codes (R46). -/
inductive Code where
  | ok | timeout | refused | cancelled | fault | reinit | invalid | killed | abortCycle | abortSource
  | abortCapacity | abortPlain | abortPreempt | abortExplicit | partly | nomatch | exhausted
  deriving DecidableEq, Repr

/-- No meaning and no step stops with a fault: every happening of this device has an effect in the spec. -/
inductive Fault where
  deriving DecidableEq, Repr

/-- Reasons an instruction has no meaning. -/
inductive Refusal where
  /-- Raised by an arm of exec for an instruction that the model gives no meaning. Safe: the run stops. -/
  | notModelled (mnemonic : String)
  deriving DecidableEq, Repr

/-- Where an access is performed once it is translated: memory, a scratchpad bank, a peer's export (R80), a
host-shared page at the host (R404), or a granule that reads as zero (R407). -/
inductive Loc where
  | mem (pa : Nat)
  | spad (a : Nat)
  | peer (p off : Nat)
  | host (va : Nat)
  | zero
  deriving DecidableEq, Repr

/-! ## Strands -/

/-- A value a long-latency instruction delivers (R142). -/
structure Deliver where
  regs : List (GReg × Word) := []
  status : Option Word := none
  flags : Nat := 0
  deriving DecidableEq, Repr

/-- What an outstanding instruction still does. -/
inductive PendAct where
  /-- its values are fixed -/
  | ready (v : Deliver)
  /-- a load not yet performed (R89): type and place -/
  | load (t : LdType) (d : GReg) (l : Loc)
  | loadV (d : GReg) (l : Loc)
  /-- awaits an answer from outside the core: a message, a row, a peer's or the host's response -/
  | awaiting (d : GReg)
  /-- some bytes of an instruction that reads more than one granule, from a peer or the host -/
  | piece (n : Nat)
  /-- a decompressing load (R79, R407): the bytes it reads, and the backing bytes they rest on, by place -/
  | backed (t : Option LdType) (d : GReg) (bs : List Byte) (src : List (Nat × List Byte))
  /-- a store performed at the host (R404): its address and bytes, and whether the write has been sent -/
  | hostStore (va : Nat) (bs : List Byte) (sent : Bool)
  /-- an atomic awaiting its old value (R209): at an own home slice or bank; the release of a comparison that holds (R88) -/
  | amo (k : AmoKind) (n : Nat) (o : Order) (d : GReg) (x : Word) (l : Loc)
  | cas (n : Nat) (o : Order) (d : GReg) (e x : Word) (l : Loc) (rel : Option (Scope × Nat))
  | cas2 (o : Order) (d : GReg) (e0 e1 x0 x1 : Word) (l : Loc) (rel : Option (Scope × Nat))
  deriving DecidableEq, Repr

/-- An outstanding long-latency result (R142) with the instructions that may still issue before it. -/
structure Pending where
  id : Nat
  left : Nat
  act : PendAct
  /-- the address of its access, for the trap of a lost answer (R447) -/
  va : Nat := 0
  deriving DecidableEq, Repr

/-- Waiting instructions (R43). -/
inductive Wait where
  | recv (d : GReg)
  | bwait (d : GReg) (bid : Nat)
  | join (d : GReg)
  | fre (d : GReg)
  | fwait (t : Nat)
  deriving DecidableEq, Repr

/-- Causes of STALL (R31). The stalled instruction issues again when the cause ends. -/
inductive Stall where
  | results
  | puts
  | token (t : Nat)
  | tlb (va : Nat) (fetch : Bool)
  /-- a window move (R191); the last g-cycle since then in which the core had an idle slot -/
  | windows (since : Nat)
  | atomic
  /-- held by the depth bound (R262): the sector, and whether the access writes -/
  | depth (sector : Nat) (write : Bool)
  | remote (va until_ : Nat)
  /-- issues again from a g-cycle on -/
  | turn (at_ : Nat)
  deriving DecidableEq, Repr

/-- Strand states (R31); SUSPENDED is the field halted, which keeps the state held at the halt. -/
inductive Run where
  | free
  | bound
  | ready
  | wait (w : Wait) (deadline : Option Nat)
  | stall (c : Stall)
  deriving DecidableEq, Repr

/-- A held or waiting ENGINE report (R369, R372). -/
structure EngReport where
  tok : Nat
  inner : Nat
  addr : Nat
  elem : Nat
  /-- the SINK that its operation recorded at issue (R47) -/
  sink : Nat
  deriving DecidableEq, Repr

/-- A mailbox message (R212): kind, sender task, four words. -/
structure Message where
  kind : Nat
  sender : Nat
  words : List Word
  deriving DecidableEq, Repr

/-- A repeat frame (R145, R364): pass, index, the parameters and the captured words. -/
structure Frame where
  pass : Nat
  idx : Nat
  nm1 : Nat
  st : Nat
  mask : Nat
  km1 : Nat
  words : List W32
  deriving DecidableEq, Repr

/-- A candidate (R249). -/
structure Cand where
  key : Word
  payload : Word
  order : Nat
  deriving DecidableEq, Repr

/-- How a task ended (R33). -/
inductive Ended where
  | ok
  | fault (c : Nat)
  | killed
  deriving DecidableEq, Repr

/-- An end notice (R41). -/
structure Notice where
  child : Nat
  how : Ended
  deriving DecidableEq, Repr

/-- An outstanding put of a strand (R92): its address. -/
structure PutRec where
  rtag : Nat
  va : Nat
  deriving DecidableEq, Repr

/-- A window on the move (R191): whether it is spilled, the slots still needed, and the bytes that a fill has read so far. -/
structure WinMove where
  spill : Bool
  left : Nat
  got : List Byte := []
  deriving DecidableEq, Repr

/-- One of the 8,192 strands (R23, R30, R361, R382). -/
structure Strand where
  gregs : Vector Word 16 := .replicate 16 0
  /-- resident windows, the top one first -/
  windows : List (Vector Word 16) := [.replicate 16 0]
  depth : Nat := 1
  trapWin : Vector Word 16 := .replicate 16 0
  pc : Word := 0
  run : Run := .free
  halted : Bool := false
  task : Nat := 0
  status : Word := 0
  fstat : Nat := 0
  frmode : Nat := 0
  taskSink : Word := 0
  scopeRect : Word := 0
  skip : Bool := false
  intrap : Bool := false
  priv : Bool := false
  epc : Word := 0
  ecause : Word := 0
  eaddr : Word := 0
  einfo : Word := 0
  tvec : Word := 0
  sscratch0 : Word := 0
  sscratch1 : Word := 0
  stimer : Nat := 0
  frame : Option Frame := none
  /-- the frame of an RPT issued inside a handler (log 21) -/
  trapFrame : Option Frame := none
  /-- arrival record: barrier, incarnation, phase (R216) -/
  arrival : Option (Nat × Nat × Nat) := none
  cands : List Cand := []
  candCap : Nat := 64
  candSigned : Bool := false
  candLargest : Bool := false
  candNext : Nat := 0
  pend : List Pending := []
  pendNext : Nat := 0
  /-- token registers pending (R226) -/
  pendTok : NSet := []
  tokLatch : Bool := false
  reports : List EngReport := []
  timerDue : Bool := false
  preemptDue : Bool := false
  mailbox : List Message := []
  groups : NSet := []
  region : Option Nat := none
  yieldUntil : Nat := 0
  lastIssue : Option Nat := none
  /-- a commit or kill that takes effect at the next boundary (R42) -/
  killDue : Bool := false
  lostPut : Option Nat := none
  puts : List PutRec := []
  /-- the last fill of this address reported NONE (R393) -/
  fillNone : Option Nat := none
  notices : List Notice := []
  children : Nat := 0
  /-- its instruction must come to an end before a halt: a FENCE in progress, a trap or a held access still to be taken or
  performed (R376, R387) -/
  owed : Bool := false
  /-- what has come from a peer or the host for an instruction that reads more than one granule, by address; for the footprint
  copy of a BOUND strand, one byte alone is the cause of a failure -/
  got : List (Nat × List Byte) := []
  /-- an access that a halt has withdrawn: whether a peer load, and its address (R377) -/
  withdrawn : Option (Bool × Nat) := none
  /-- a window on the move (R191) -/
  winMove : Option WinMove := none
  deriving DecidableEq, Repr

/-! ## Grain cores -/

/-- Permissions and place of a translated page (R389). -/
structure Entry where
  part : Nat
  /-- virtual base and log2 of the size -/
  base : Nat
  bits : Nat
  word : Nat
  /-- valid until, for a remote translation (R404) -/
  until_ : Option Nat := none
  /-- the surface record cached with the translation (R407): compressed, frame, bitmap, data, count -/
  surface : Option (Bool × Nat × Nat × Nat × Nat) := none
  deriving DecidableEq, Repr

/-- A store in a core's store buffer (R90). -/
structure BufStore where
  strand : Nat
  va : Nat
  loc : Loc
  bytes : List Byte
  /-- rectangles in which a rectangle release has made it visible (R95) -/
  early : List Nat := []
  deriving DecidableEq, Repr

/-- An update-only line (R99): partials by offset in the line. -/
structure RedLine where
  kind : RedKind
  type : RedType
  parts : Tbl Nat
  deriving DecidableEq, Repr

/-- One of the 512 grain cores: buffer, TLB (least recent first), update-only lines, rotation, parking queue. -/
structure Core where
  stores : List BufStore := []
  tlb : List Entry := []
  red : Tbl RedLine := []
  lastStrand : Nat := 15
  /-- the g-cycle of its last issue slot in use (R32) -/
  issuedAt : Option Nat := none
  parked : List Nat := []
  deriving DecidableEq, Repr

/-! ## Chisels -/

/-- Run states of a context (R50); SUSPENDED is the field frozenBy. -/
inductive CRun where
  | free
  | ready
  | frozen
  | held (fetch : Option Nat)
  | draining
  deriving DecidableEq, Repr

/-- Where an in-flight result goes (R292, R295). -/
inductive CDest where
  | s (n : Nat) (v : Word)
  | v (n : Nat) (bytes : List Byte)
  | p (n : Nat) (b : Bool)
  | mp (n : Nat) (v : Word)
  | fmt (mask : Nat) (v : Nat)
  | slot (o off : Nat) (bytes : List Byte)
  /-- bytes of a slot as the context's own routines still read them, when an MWAIT has let a write of it land early (R302) -/
  | past (o off : Nat) (bytes : List Byte)
  deriving DecidableEq, Repr

/-- An in-flight result and the count of the context's own bundles still to pass (R295). -/
structure InFlight where
  left : Nat
  dest : CDest
  deriving DecidableEq, Repr

/-- An Armature node (R327). -/
structure Node where
  parent : Nat
  token : Nat
  deriving DecidableEq, Repr

/-- How a tile task that waits for its last results ends (R293, R297, R422): by a trap of its bundle, or by a cancel. -/
inductive CtxEnd where
  | done
  | trap (c : Cause) (addr : Nat)
  | killed
  deriving DecidableEq, Repr

/-- One of the 2,048 contexts (R291). -/
structure Ctx where
  s : Vector Word 32 := .replicate 32 0
  v : Tbl (List Byte) := []
  p : Vector Bool 8 := .replicate 8 false
  mp : Vector Word 8 := .replicate 8 0
  fmt : Nat := 0
  pc : Word := 0
  run : CRun := .free
  /-- how it ends once it is draining -/
  ending : CtxEnd := .done
  frozenBy : Bool := false
  queue : List Word := []
  flight : List InFlight := []
  /-- taken branch target and delay bundles still to issue (R296) -/
  delay : Option (Nat × Option Nat) := none
  bundles : Nat := 0
  task : Nat := 0
  sink : Nat := 0
  launch : Nat := 0
  part : Nat := 0
  nodes : Tbl Node := []
  deriving DecidableEq, Repr

/-- A past write of an accumulator, for AST (R317): context, the bundle number and cycle it issued at, its
latency, and the accumulator's image before it. -/
structure AccWrite where
  acc : Nat
  ctx : Nat
  bundle : Nat
  cycle : Nat
  latency : Nat
  before : List Byte
  deriving DecidableEq, Repr

/-- A routine under way on the M unit (R321, R326): whose it is, when and at which bundle it issued, its latency, its operands,
the microwords still to run, mp0 to mp7, FMT and the vector pair as they stood before its bundle, the slots it reads or
writes, and bytes of slots that its bundle still reads as they were (R302). -/
structure Routine where
  ctx : Nat
  bundle : Nat
  cycle : Nat
  latency : Nat
  acc : Nat
  oA : Nat
  oB : Nat
  words : List Nat
  mp : List Word
  fmt : Nat
  pair : List Byte
  slots : List Nat
  past : List (Nat × List Byte) := []
  deriving DecidableEq, Repr

/-- An entry of the outbound list (R301): buffer position, the handle, the mailbox address, the sender. -/
structure Outbound where
  pos : Nat
  handle : Word
  addr : Word
  task : Nat
  part : Nat
  /-- a full mailbox is tried again from this g-cycle on -/
  retryAt : Nat := 0
  deriving DecidableEq, Repr

/-- One of the 256 chisels. -/
structure Chisel where
  /-- the context that claims each slot; 2048 more while a release still waits (R314) -/
  claims : Tbl Nat := []
  routines : NSet := []
  tlb : List Entry := []
  primary : Nat := 7
  posts : List (Nat × Word) := []
  retry : List (Nat × Nat × Word) := []
  outbound : List Outbound := []
  mBusy : Nat := 0
  routine : Option Routine := none
  loadBusy : Nat := 0
  storeBusy : Tbl Nat := []
  accLog : List AccWrite := []
  slotPoison : NSet := []
  accPoison : NSet := []
  deriving DecidableEq, Repr

/-! ## Cluster tables -/

/-- Buffer states (R70, R73). -/
inductive BufSt where
  | free | opened | posted | unposted | held | writing | resultPosted
  deriving DecidableEq, Repr

/-- A buffer position's descriptor (R67). -/
structure Desc where
  st : BufSt := .free
  gen : Nat := 0
  /-- bound context of an input buffer, locking context of a result tile -/
  ctx : Nat := 0
  task : Nat := 0
  count : Nat := 0
  counter : Nat := 0
  mask : Nat := 0
  timer : Option Nat := none
  deriving DecidableEq, Repr

/-- A barrier (R216). -/
structure Barrier where
  live : Bool := false
  inc : Nat := 0
  phase : Nat := 0
  gid : Option Nat := none
  count : Nat := 0
  arrivals : Nat := 0
  deriving DecidableEq, Repr

/-- A group (R38). -/
structure Group where
  part : Nat
  members : NSet
  deriving DecidableEq, Repr

inductive RegSt where
  | free | live | waiting | aborted
  deriving DecidableEq, Repr

/-- A region slot (R252 to R259). -/
structure Region where
  st : RegSt := .free
  stamp : Nat := 0
  code : Nat := 0
  detail : Nat := 0
  preds : List Nat := []
  reads : NSet := []
  writes : NSet := []
  holder : Nat := 0
  /-- the g-cycle after the last one with a live predecessor (R266) -/
  clearAt : Nat := 0
  /-- the g-cycle of its abort, and what it had then: its predecessors, and the sectors whose last region write was its own (R265, R274) -/
  abortAt : Nat := 0
  hadPreds : List Nat := []
  hadLast : NSet := []
  deriving DecidableEq, Repr

/-- An entry of a sector's sequence (R257): the region, the bytes it wrote by offset, or none for a read, and the address it
was made through. -/
structure SeqEntry where
  rid : Nat
  wrote : Option (Tbl Byte)
  va : Nat
  deriving DecidableEq, Repr

/-- A registered range (R101), widened to granules: virtual addresses. -/
structure Lock where
  op : Nat
  dest : Bool
  lo : Nat
  hi : Nat
  deriving DecidableEq, Repr

/-- A fault report (R48) on its way (R47). -/
structure Report where
  cause : Nat
  task : Nat
  kind : Nat
  addr : Nat
  last : Nat
  sink : Nat
  part : Nat
  launch : Nat
  /-- it is on its way to the launch fault mailbox (R421), and waits for a host-shared page -/
  box : Bool := false
  deriving DecidableEq, Repr

/-- Per-cluster tables: queue of tasks, reports, range locks, engine TLB, the g-cycle of the last FRB accepted (R252). -/
structure Cluster where
  queue : List Nat := []
  reports : List Report := []
  locks : List Lock := []
  tlb : List Entry := []
  lastFrb : Option Nat := none
  deriving DecidableEq, Repr

/-! ## Engines -/

inductive EngKind where
  | copy | fill | gather | scatter | scaleadd | topk | coll (v : CollOp)
  deriving DecidableEq, Repr

/-- An engine operation formed and not yet complete (R227, R228). -/
structure EngOp where
  kind : EngKind
  strand : Nat
  task : Nat
  part : Nat
  sink : Nat
  launch : Nat
  tok : Nat
  a : Nat
  b : Nat
  c : Nat
  size : Nat
  count : Nat
  next : Nat := 0
  cancelled : Bool := false
  /-- an element that waits for a fill of this address, and whether the fill reported NONE -/
  miss : Option Nat := none
  missNone : Bool := false
  /-- an element sent to the host or a peer and not yet answered -/
  away : Bool := false
  /-- granules of the element under way that the host has sent (address, bytes, poison), and the one that is asked for (R404) -/
  got : List (Nat × List Byte × Bool) := []
  want : Nat := 0
  /-- granules of it that the host is still to write, the first of them sent, and the one of a page that runs remote that no other
  writer may write meanwhile -/
  puts : List (Nat × List Byte × Bool) := []
  writing : Option Nat := none
  /-- elements that are written together, being in one granule (R84) -/
  stride : Nat := 1
  /-- FP32 lanes of SCALEADD, or TOPK's candidates (value, index) best first -/
  lanes : List Nat := []
  best : List (Nat × Nat) := []
  /-- granules of the result that are poisoned (R229) -/
  poison : NSet := []
  running : Bool := false
  suspended : Bool := false
  yielded : Bool := false
  /-- the chain instance of an XCOLL; the unit of a suspended XNEAR -/
  inst : Nat := 0
  deriving DecidableEq, Repr

/-- A chain instance (R239). -/
structure Chain where
  gid : Nat
  part : Nat
  /-- members as (key, operation), in arrival order until it closes, then in key order -/
  members : List (Nat × Nat)
  closed : Bool
  pos : Nat
  back : Bool
  /-- the partial result carried forward, then backward -/
  value : List Byte
  /-- poisoned granules of the partial result -/
  poison : NSet := []
  done : NSet
  deriving DecidableEq, Repr

/-! ## Quarry -/

/-- A configured pool (R275). -/
structure Pool where
  part : Nat
  size : Nat
  count : Nat
  base : Nat
  free : List Nat
  refs : Tbl Nat := []
  held : NSet := []
  deriving DecidableEq, Repr

/-- A sequence (R278): its pool and block indices. -/
structure Seq where
  pool : Nat
  blocks : List Nat
  deriving DecidableEq, Repr

/-- A prefix-index entry (R282). -/
structure PrefixEnt where
  key : List Byte
  hdr : List Byte
  block : Nat
  deriving DecidableEq, Repr

/-! ## Translation -/

/-- A near/far swap in progress (R399): lines moved so far. -/
structure Swap where
  part : Nat
  nearVa : Nat
  farVa : Nat
  near : Nat
  far : Nat
  done : Nat
  next : Nat
  deriving DecidableEq, Repr

/-- What the firmware has still to do for a swap queue, once a host-shared page that it needs is here (R398, R402): read a posted record, or
write a completion word. -/
inductive SwapTodo where
  | post (part va : Nat)
  | answer (part done : Nat) (c : Code)
  deriving DecidableEq, Repr

/-- The migration record of a host-shared page (R401). moving: some true towards the device, some false towards
the host; hold: the side held off (true: the device) and the end of the hold. -/
structure Page where
  device : Bool
  moving : Option Bool := none
  hold : Option (Bool × Nat) := none
  waiting : Bool := false
  frame : Nat := 0
  parts : NSet := []
  stream : Nat := 0
  deriving DecidableEq, Repr

/-! ## Launches and partitions -/

/-- A task record as taken (R24). -/
structure TaskRec where
  entry : Nat
  args : List Word
  place : Nat
  sink : Nat
  fps : List (Nat × Nat)
  deriving DecidableEq, Repr

inductive TaskSt where
  | queued (cluster : Nat)
  /-- at a mesh position x + 256 y -/
  | walking (xy : Nat)
  | parked (core : Nat)
  | staging (strand : Nat)
  | running (strand : Nat)
  deriving DecidableEq, Repr

/-- A live task (R27, R33). -/
structure Task where
  part : Nat
  launch : Nat
  parent : Nat
  desc : TaskRec
  logical : Bool
  start : Nat
  st : TaskSt
  /-- the g-cycle it arrived at its queue or core (R36) -/
  arrival : Nat
  /-- a walking task stands at its position from this g-cycle on (R35) -/
  nextAt : Nat := 0
  /-- held in its hint cluster's queue, since the parking queue is full (R35) -/
  held : Bool := false
  deriving DecidableEq, Repr

/-- A tile-task record (R415). -/
structure TileRec where
  entry : Nat
  args : List Word
  place : Nat
  sink : Nat
  deriving DecidableEq, Repr

inductive LaunchSt where
  | queued | releasing | running
  deriving DecidableEq, Repr

/-- A launch (R414, R416). -/
structure Launch where
  part : Nat
  lid : Nat
  queue : Nat
  logical : Bool
  w : Nat
  h : Nat
  waitc : Nat
  need : Nat
  sigc : Nat
  sigen : Bool
  fmbox : Nat
  fmcap : Nat
  notify : Nat
  tiles : List TileRec
  tasks : List TaskRec
  st : LaunchSt := .queued
  /-- the checks of R418 have passed; tiles and tasks are then what is still to be released -/
  checked : Bool := false
  cancelling : Bool := false
  x0 : Nat := 0
  y0 : Nat := 0
  live : Nat := 0
  nfault : Nat := 0
  nkill : Nat := 0
  nlost : Nat := 0
  /-- DROPPED of a launch without a fault mailbox (R421) -/
  dropped : Nat := 0
  stream : Nat := 0
  deriving DecidableEq, Repr

inductive PState where
  | off | stopped | running
  deriving DecidableEq, Repr

/-- A partition's blocks (R367, R411) and its front-end state. -/
structure Partition where
  st : PState := .off
  err : Nat := 0
  prect : Nat := 0
  ptroot : Nat := 0
  holdoff : Nat := 200
  /-- the number of the next task accepted (R27) -/
  taskNext : Nat := 1
  lqprio : Nat := 0
  lqweight : Nat := 0x87654321
  pools : Tbl Word := []
  poolBases : Tbl Word := []
  ctrs : Tbl Word := []
  tvec0 : Word := 0
  savebase : Nat := 0
  atomq : Nat := 64
  haltTime : Nat := 0
  haltedBit : Bool := false
  savedBit : Bool := false
  busy : Bool := false
  saveWanted : Bool := false
  haltAt : Nat := 0
  /-- the save has begun and the restore has not ended (R381) -/
  saving : Bool := false
  /-- launch ids in arrival order, per queue -/
  queues : Tbl (List Nat) := []
  /-- grant round (R417): priority, grants made, last queue granted per priority -/
  roundPrio : Nat := 7
  roundCount : Nat := 0
  roundLast : Tbl Nat := []
  granting : Option Nat := none
  /-- an ENABLE answered and not yet acknowledged (R430): stream, its SEQ, the answer's SEQ -/
  enabling : Option (Nat × Nat × Nat) := none
  deriving DecidableEq, Repr

/-! ## Host port -/

/-- A message kept for retransmission or in order (R430). -/
structure Sent where
  typ : Nat
  msg : HostMsg
  time : Nat
  deriving DecidableEq, Repr

/-- One stream's two sequences (R430). -/
structure Stream where
  next : Nat := 1
  send : Nat := 1
  held : List Sent := []
  unacked : List Sent := []
  answers : Tbl Sent := []
  /-- an acknowledgement is outstanding since this cycle -/
  owing : Option Nat := none
  deriving DecidableEq, Repr

/-- A host-window registration (R433). -/
structure Registration where
  part : Nat
  off : Nat
  len : Nat
  key : List Byte
  read : Bool
  write : Bool
  deriving DecidableEq, Repr

/-- Who waits for an answer from the host or a peer. -/
inductive Asker where
  | strand (id k : Nat)
  | engine (op elem : Nat)
  | put (id : Nat)
  | mirror (p : Packet) (typ : Nat) (payload : List Byte) (came : Nat)
  | device
  deriving DecidableEq, Repr

/-- An HMEM waiting for its answer (R434). -/
structure HostReq where
  tag : Nat
  who : Asker
  part : Nat
  write : Bool
  va : Nat
  len : Nat
  dest : Nat
  time : Nat
  deriving DecidableEq, Repr

/-! ## Dune -/

inductive PortSt where
  | down | init | up8 | up7
  deriving DecidableEq, Repr

/-- A flit of a packet that is to leave a port (R438), with the g-cycle since which the packet's residence in this device counts; a
request of the device itself is of age 0 when it leaves (R446). -/
structure QFlit where
  vc : Nat
  sop : Bool
  eop : Bool
  since : Option Nat
  body : List Byte
  deriving DecidableEq, Repr

/-- One Dune port's link layer (R439). -/
structure Port where
  st : PortSt := .down
  bufs : List Nat := [32, 32, 32, 32]
  gotInit : Bool := false
  txSeq : Nat := 0
  rxSeq : Nat := 0
  credits : List Nat := [0, 0, 0, 0]
  freed : List Nat := [0, 0, 0, 0]
  replay : List (Nat × Nat × List Byte) := []
  asm : List (List Byte) := [[], [], [], []]
  queue : List QFlit := []
  nextVc : Nat := 0
  lastGood : Nat := 0
  lastSend : Nat := 0
  nakAt : Option Nat := none
  ackOwed : Bool := false
  deadLane : Option Nat := none
  /-- a lane is being retired: whether this side sent the LANE flit, and the flits after it that still use eight lanes (R439) -/
  narrow : Option (Bool × Nat) := none
  deriving DecidableEq, Repr

/-- A request awaiting its response (R447). -/
structure Request where
  rtag : Nat
  typ : Nat
  who : Asker
  pkt : Packet
  sent : Nat
  /-- of a fill that the owner holds: the g-cycle in which its final response is due, of which the spec states nothing (log 92) -/
  held : Option Nat := none
  deriving DecidableEq, Repr

/-- A versioned buffer at its owner (R109). -/
structure VBuf where
  version : Nat := 0
  isSealed : Bool := false
  /-- some version has been sealed -/
  everSealed : Bool := false
  fillers : NSet := []
  heldFills : List Packet := []
  /-- fills that came while a change of the entry is under way, with their g-cycles: they are judged after it (R444, R451) -/
  lateFills : List (Nat × Packet) := []
  lastFill : Tbl Nat := []
  /-- a VBOPEN in progress: strand and result it answers, the cycle it began, devices still to acknowledge -/
  opening : Option (Nat × Nat × Nat × List Nat) := none
  /-- waits until this cycle before its notices (R111) -/
  reuseAt : Option Nat := none
  /-- a change of the entry that waits for its notices: since when, devices left, a word of a direct write (R109) -/
  change : Option (Nat × List Nat × Option (Nat × Nat)) := none
  deriving DecidableEq, Repr

/-- A line filled from a peer (R110): its version and bytes. -/
structure PeerLine where
  version : Nat
  bytes : List Byte
  deriving DecidableEq, Repr

/-- A message between cores that has not arrived yet (R213). -/
structure Flying where
  strand : Nat
  k : Nat
  task : Nat
  part : Nat
  addr : Word
  words : List Word
  deriving DecidableEq, Repr

/-- A TWRR row that has not reached its bank (R244). -/
structure FlyRow where
  strand : Nat
  k : Nat
  part : Nat
  handle : Word
  row : Nat
  bytes : List Byte
  deriving DecidableEq, Repr

/-- An atomic at a home slice (R385). -/
structure Atom where
  slice : Nat
  part : Nat
  strand : Nat
  k : Nat
  admitted : Bool
  /-- ATOMQ.DEPTH when it arrived (R368) -/
  limit : Nat := 64
  /-- a peer's request (R54, R385), and when it came -/
  pkt : Option Packet := none
  came : Nat := 0
  deriving DecidableEq, Repr

/-! ## Management -/

inductive Phase where
  | boot | recovery | ready | tripped
  deriving DecidableEq, Repr

/-- A strata event (R455). -/
structure Strata where
  cycle : Nat
  seq : Nat
  code : Nat
  cluster : Nat
  unit : Nat
  addr : Nat
  detail : Nat
  bad : Bool := false
  deriving DecidableEq, Repr

/-- What the device signals to the management controller: an in-band interrupt of I3C, or that it asks for power removal (R464). -/
inductive I3cSignal where
  | interrupt
  | removePower
  deriving DecidableEq, Repr

/-- Registers the controller reaches (R456 to R463). -/
structure Mgmt where
  phase : Phase := .boot
  bootres : Nat := 0xFF
  level : Nat := Config.fuseLevel
  runLevel : Nat := 0
  /-- the junction of each die, in sixteenths of a degree, two's complement (R460) -/
  temps : Vector (BitVec 16) 5 := .replicate 5 0
  netmac : Nat := 0
  netip4 : Nat := 0
  netip6l : Nat := 0
  netip6h : Nat := 0
  up : Bool := false
  lanes : Bool := false
  udpPort : Nat := 0
  sp1err : Bool := false
  sp1off : Nat := 0
  strsel : Nat := 0
  /-- the selected entry of a strata ring as it stood when it was selected (R456) -/
  strLatch : List Byte := []
  repair : Tbl Nat := []
  /-- the firmware store, each byte inverted: unlisted bytes are ones, as an erase leaves them (log 9) -/
  store : Mem := []
  digest : List Byte := []
  fwResult : Nat := 0
  fwBusy : Bool := false
  fwErasing : Bool := false
  fwAddr : Nat := 0
  fwData : Vector Word 4 := .replicate 4 0
  fwPend : Option (Nat × List Byte) := none
  nonce : Vector Word 4 := .replicate 4 0
  /-- the nonce of the report that has been started (R463) -/
  attNonce : Vector Word 4 := .replicate 4 0
  attReady : Bool := false
  attBusy : Bool := false
  report : List Byte := []
  /-- the device has power (R456) -/
  powered : Bool := true
  deriving DecidableEq, Repr

/-- The machine. -/
structure State where
  /-- CYCLE (R361) -/
  cycle : Nat
  /-- what happens next (log 4), and the counter of free values taken (log 7) -/
  agenda : List Turn
  freeCount : Nat
  /-- the strand and the context that act (log 4) -/
  strandId : Nat
  ctxId : Nat
  /-- the bundle's syllables have passed their checks (R293) -/
  checked : Bool
  hbm : Mem
  spad : Mem
  opmem : Mem
  accMem : Mem
  routineMem : Mem
  poison : NSet
  spadPoison : NSet
  strands : Tbl Strand
  cores : Tbl Core
  chisels : Tbl Chisel
  ctxs : Tbl Ctx
  descs : Tbl Desc
  clusters : Tbl Cluster
  barriers : Tbl Barrier
  groups : Tbl Group
  regions : Tbl Region
  seqs : Tbl (List SeqEntry)
  ops : Tbl EngOp
  opNext : Nat
  chains : Tbl Chain
  chainNext : Nat
  /-- XNEAR operations per Trowel unit, the first one running (R234) -/
  trowels : Tbl (List Nat)
  pools : Tbl Pool
  sequences : Tbl Seq
  prefixes : Tbl (List PrefixEnt)
  swaps : Tbl Swap
  swapTodo : List SwapTodo
  swapNext : Nat
  pages : Tbl Page
  tasks : Tbl Task
  launches : Tbl Launch
  parts : Tbl Partition
  flying : List Flying
  rows : List FlyRow
  notes : List (Nat × Notice)
  atoms : List Atom
  streams : Tbl Stream
  regs : List Registration
  hostReqs : List HostReq
  hostTag : Nat
  /-- messages sent to the host, latest last (the host's view) -/
  hostOut : List Sent
  devid : Nat
  members : Tbl Nat
  routes : Tbl Nat
  lost : NSet
  exts : Tbl Nat
  mirlens : Tbl Nat
  exports : Tbl Nat
  cnts : Tbl Nat
  ports : Tbl Port
  reqs : List Request
  rtagNext : Nat
  vbufs : Tbl VBuf
  /-- the version held per versioned buffer of a peer (R110; log 75) -/
  peerVers : Tbl Nat
  peerLines : Tbl PeerLine
  shadowSent : Tbl Nat
  shadowNext : Tbl Nat
  shadowHeld : List Packet
  /-- flits sent, as (port, bytes), latest last (the peers' view) -/
  dunOut : List (Nat × List Byte)
  /-- signals to the management controller so far (R464) -/
  i3cOut : List I3cSignal
  /-- corrected errors (R453) -/
  corrected : Nat
  /-- rows of each pseudo-channel in which an uncorrectable error has been met (R452) -/
  badRows : Tbl NSet
  mgmt : Mgmt
  strata : Tbl (List Strata)
  strataSeq : Tbl Nat
  remapped : NSet
  /-- clusters disabled, and clusters that a spare has taken over (R12, R452) -/
  deadClusters : NSet
  substituted : NSet
  deriving DecidableEq, Repr

/-- The machine right after power-up and release of reset (R361, R367, R411, R430, R443, R460): bring-up has not
run yet, every table is empty. Registers whose reset value the spec does not give read 0 (log 3). -/
def State.reset : State where
  cycle := 0
  agenda := []
  freeCount := 0
  strandId := 0
  ctxId := 0
  checked := false
  hbm := []
  spad := []
  opmem := []
  accMem := []
  routineMem := []
  poison := []
  spadPoison := []
  strands := []
  cores := []
  chisels := []
  ctxs := []
  descs := []
  clusters := []
  barriers := []
  groups := []
  regions := []
  seqs := []
  ops := []
  opNext := 0
  chains := []
  chainNext := 0
  trowels := []
  pools := []
  sequences := []
  prefixes := []
  swaps := []
  swapTodo := []
  swapNext := 0
  pages := []
  tasks := []
  launches := []
  parts := []
  flying := []
  rows := []
  notes := []
  atoms := []
  streams := []
  regs := []
  hostReqs := []
  hostTag := 0
  hostOut := []
  devid := 0
  members := []
  routes := []
  lost := []
  exts := []
  mirlens := []
  exports := []
  cnts := []
  ports := []
  reqs := []
  rtagNext := 0
  vbufs := []
  peerVers := []
  peerLines := []
  shadowSent := []
  shadowNext := []
  shadowHeld := []
  dunOut := []
  i3cOut := []
  corrected := 0
  badRows := []
  mgmt := {}
  strata := []
  strataSeq := []
  remapped := []
  deadClusters := []
  substituted := []

end Sys2Proof.Machine
end

