-- ==== Sys2Proof/Machine/Geometry.lean ====
section
/-! DEFINITION. Places and numbers: the core mesh (01 R13 to R15), home slices (03 R60, R61), scratchpad
addresses (03 R62, R63), partitions (19 R409), and the words of statuses and causes (02 R45, R46; 17 R363). -/

namespace Sys2Proof.Machine

/-! ## Codes -/

def Cause.num : Cause → Nat
  | .none => 0 | .illegal => 1 | .align => 2 | .page => 3 | .perm => 4 | .sealedBuf => 5 | .rangeLocked => 6
  | .branchInDelay => 7 | .fmt => 8 | .sys => 9 | .brk => 10 | .preempt => 11 | .timer => 12 | .machine => 13
  | .engine => 14

def Code.num : Code → Nat
  | .ok => 0 | .timeout => 1 | .refused => 2 | .cancelled => 3 | .fault => 4 | .reinit => 5 | .invalid => 6
  | .killed => 7 | .abortCycle => 8 | .abortSource => 9 | .abortCapacity => 10 | .abortPlain => 11
  | .abortPreempt => 12 | .abortExplicit => 13 | .partly => 14 | .nomatch => 15 | .exhausted => 16

/-- The cause whose code is given; a code that is no cause gives none. -/
def Cause.ofCode : Nat → Cause
  | 1 => .illegal | 2 => .align | 3 => .page | 4 => .perm | 5 => .sealedBuf | 6 => .rangeLocked
  | 7 => .branchInDelay | 8 => .fmt | 9 => .sys | 10 => .brk | 11 => .preempt | 12 => .timer | 13 => .machine
  | 14 => .engine | _ => .none

/-- The shared status word (R45). `info` stands from bit 16 upwards. -/
def statusWord (c : Code) (detail info : Nat) : Word := BitVec.ofNat 64 (c.num + 256 * detail + 65536 * info)

/-- Status(code): detail zero, information zero. -/
def status (c : Code) : Word := statusWord c 0 0

/-- Bits h..l of a number. -/
def bitsOf (x h l : Nat) : Nat := x / 2 ^ l % 2 ^ (h + 1 - l)

/-- A virtual address: bits 63..52 are ignored (R57). -/
def vaOf (w : Word) : Nat := w.toNat % 2 ^ 52

/-- Bits 51..48 select the window (R57). -/
def window (va : Nat) : Nat := va / 2 ^ 48 % 16

/-! ## The mesh -/

/-- Column within a cluster of grain index k mod 4, and back (R14, R60). -/
def grainCol (k : Nat) : Nat := if k < 2 then k else k + 2

/-- Packed coordinate of a grain core (R15, R60). -/
def coreX (n : Nat) : Nat := 6 * (n / 16 % 8) + grainCol (n % 4)
def coreY (n : Nat) : Nat := 4 * (n / 128) + n % 16 / 4
def coreXY (n : Nat) : Nat := coreX n + 256 * coreY n

/-- The cluster number of a mesh position (R14). -/
def clusterAt (x y : Nat) : Nat := 8 * (y / 4) + x / 6

/-- The grain core at a mesh position, if one stands there (R14). -/
def coreAt (x y : Nat) : Option Nat :=
  if 47 < x ∨ 15 < y then none
  else
    let k := x % 6
    if k = 2 ∨ k = 3 then none else some (16 * clusterAt x y + 4 * (y % 4) + (if k < 2 then k else k - 2))

/-- The chisel at a mesh position, if one stands there. -/
def chiselAt (x y : Nat) : Option Nat :=
  if 47 < x ∨ 15 < y then none
  else
    let k := x % 6
    if k = 2 ∨ k = 3 then some (8 * clusterAt x y + 2 * (y % 4) + (k - 2)) else none

def chiselX (c : Nat) : Nat := 6 * (c / 8 % 8) + 2 + c % 2
def chiselY (c : Nat) : Nat := 4 * (c / 64) + c % 8 / 2

/-- A packed coordinate names a core when x ≤ 47, y ≤ 15 and the rest is zero (R15). -/
def unpackXY (w : Nat) : Option (Nat × Nat) :=
  let x := w % 256
  let y := w / 256 % 256
  if w / 65536 = 0 ∧ x ≤ 47 ∧ y ≤ 15 then some (x, y) else none

def strandCore (id : Nat) : Nat := id / 16
def strandCluster (id : Nat) : Nat := id / 256
def chiselCluster (c : Nat) : Nat := c / 8
def ctxChisel (id : Nat) : Nat := id / 8

/-- Scratchpad partition numbers: 24 x cluster + core index (R14). -/
def corePad (n : Nat) : Nat := 24 * (n / 16) + 6 * (n % 16 / 4) + grainCol (n % 4)
def chiselPad (c : Nat) : Nat := 24 * (c / 8) + 6 * (c % 8 / 2) + 2 + c % 2

/-- A core index that names a chisel (R14). -/
def padIsChisel (idx : Nat) : Bool := idx % 6 == 2 || idx % 6 == 3

/-- The flat scratchpad number of a window-0x8 address, or the trap of R62: PAGE when undecodable. -/
def padDecode (va : Nat) : Option Nat :=
  if bitsOf va 47 28 ≠ 0 ∨ 23 < bitsOf va 22 18 then none
  else some ((24 * bitsOf va 27 23 + bitsOf va 22 18) * 2 ^ 18 + va % 2 ^ 18)

/-- The window-0x8 address of a flat scratchpad number. -/
def padAddr (a : Nat) : Nat :=
  8 * 2 ^ 48 + (a / 2 ^ 18 / 24) * 2 ^ 23 + (a / 2 ^ 18 % 24) * 2 ^ 18 + a % 2 ^ 18

/-- The buffer position that holds a flat scratchpad byte, if it lies in one (R63). -/
def posOf (a : Nat) : Option Nat :=
  let pn := a / 2 ^ 18
  let off := a % 2 ^ 18
  if padIsChisel (pn % 24) then some (128 * pn + off / 0x800)
  else if off < 0x18000 then some (128 * pn + off / 0x800) else none

/-- First byte of a buffer position. -/
def posBase (pos : Nat) : Nat := (pos / 128) * 2 ^ 18 + (pos % 128) * 0x800

/-- The strand whose footprint area holds a flat scratchpad byte (R28, R63). -/
def footprintOwner (a : Nat) : Option Nat :=
  let pn := a / 2 ^ 18
  let off := a % 2 ^ 18
  let k := pn % 24
  if padIsChisel k ∨ off < 0x20000 then none
  else some (16 * (16 * (pn / 24) + 4 * (k / 6) + (if k % 6 < 2 then k % 6 else k % 6 - 2)) + (off - 0x20000) / 0x2000)

/-- The strand whose spill area holds a flat scratchpad byte (R63, R189). -/
def spillOwner (a : Nat) : Option Nat :=
  let pn := a / 2 ^ 18
  let off := a % 2 ^ 18
  let k := pn % 24
  if padIsChisel k ∨ off < 0x18000 ∨ 0x20000 ≤ off then none
  else some (16 * (16 * (pn / 24) + 4 * (k / 6) + (if k % 6 < 2 then k % 6 else k % 6 - 2)) + (off - 0x18000) / 0x800)

def footprintBase (id : Nat) : Nat := corePad (id / 16) * 2 ^ 18 + 0x20000 + 0x2000 * (id % 16)
def spillBase (id : Nat) : Nat := corePad (id / 16) * 2 ^ 18 + 0x18000 + 0x800 * (id % 16)

/-! ## Memory -/

/-- The home slice of a physical address (R61). -/
def homeSlice (pa : Nat) : Nat := pa / 65536 % 512

def nearLimit : Nat := 0x8000000000
def farBase : Nat := 0x10000000000
def farLimit : Nat := 0x1C000000000

def isNear (pa : Nat) : Bool := decide (pa < nearLimit)
/-- The far tier exists only on an OZ4-M (R2, R59). -/
def isFar (pa : Nat) : Bool := Config.isM && decide (farBase ≤ pa) && decide (pa < farLimit)

/-! ## Partitions -/

/-- The clusters of a PRECT value (R409, R411), or none when it names no shape: WIDE with XHI, or rows past the last. -/
def prectHas (prect c : Nat) : Bool :=
  let xhi := prect % 2
  let wide := prect / 2 % 2
  let cy0 := prect / 4 % 4
  let h := prect / 16 % 4 + 1
  (wide == 1 || c % 8 / 4 == xhi) && decide (cy0 ≤ c / 8) && decide (c / 8 < cy0 + h)

def prectShape (prect : Nat) : Bool :=
  !(prect / 2 % 2 == 1 && prect % 2 == 1) && decide (prect / 4 % 4 + prect / 16 % 4 < 4)

/-! ## Tables with their defaults -/

variable (s : State)

def State.strand (id : Nat) : Strand := s.strands.getD id {}
def State.core (n : Nat) : Core := s.cores.getD n {}
def State.chisel (n : Nat) : Chisel := s.chisels.getD n {}
def State.ctx (n : Nat) : Ctx := s.ctxs.getD n {}
def State.desc (n : Nat) : Desc := s.descs.getD n {}
def State.cluster (n : Nat) : Cluster := s.clusters.getD n {}
def State.barrier (n : Nat) : Barrier := s.barriers.getD n {}
def State.region (n : Nat) : Region := s.regions.getD n {}
def State.part (n : Nat) : Partition := s.parts.getD n {}
def State.stream (n : Nat) : Stream := s.streams.getD n {}
def State.port (n : Nat) : Port := s.ports.getD n {}
def State.vbuf (n : Nat) : VBuf := s.vbufs.getD n {}

def State.setStrand (id : Nat) (t : Strand) : State := { s with strands := s.strands.put id t }
def State.setCore (n : Nat) (t : Core) : State := { s with cores := s.cores.put n t }
def State.setChisel (n : Nat) (t : Chisel) : State := { s with chisels := s.chisels.put n t }
def State.setCtx (n : Nat) (t : Ctx) : State := { s with ctxs := s.ctxs.put n t }
def State.setDesc (n : Nat) (t : Desc) : State := { s with descs := s.descs.put n t }
def State.setCluster (n : Nat) (t : Cluster) : State := { s with clusters := s.clusters.put n t }
def State.setBarrier (n : Nat) (t : Barrier) : State := { s with barriers := s.barriers.put n t }
def State.setRegion (n : Nat) (t : Region) : State := { s with regions := s.regions.put n t }
def State.setPart (n : Nat) (t : Partition) : State := { s with parts := s.parts.put n t }
def State.setStream (n : Nat) (t : Stream) : State := { s with streams := s.streams.put n t }
def State.setPort (n : Nat) (t : Port) : State := { s with ports := s.ports.put n t }
def State.setVbuf (n : Nat) (t : VBuf) : State := { s with vbufs := s.vbufs.put n t }

def State.modStrand (id : Nat) (f : Strand → Strand) : State := s.setStrand id (f (s.strand id))
def State.modCore (n : Nat) (f : Core → Core) : State := s.setCore n (f (s.core n))
def State.modChisel (n : Nat) (f : Chisel → Chisel) : State := s.setChisel n (f (s.chisel n))
def State.modCtx (n : Nat) (f : Ctx → Ctx) : State := s.setCtx n (f (s.ctx n))
def State.modDesc (n : Nat) (f : Desc → Desc) : State := s.setDesc n (f (s.desc n))
def State.modCluster (n : Nat) (f : Cluster → Cluster) : State := s.setCluster n (f (s.cluster n))
def State.modRegion (n : Nat) (f : Region → Region) : State := s.setRegion n (f (s.region n))
def State.modPart (n : Nat) (f : Partition → Partition) : State := s.setPart n (f (s.part n))
def State.modStream (n : Nat) (f : Stream → Stream) : State := s.setStream n (f (s.stream n))
def State.modPort (n : Nat) (f : Port → Port) : State := s.setPort n (f (s.port n))
def State.modVbuf (n : Nat) (f : VBuf → VBuf) : State := s.setVbuf n (f (s.vbuf n))

/-- The enabled partition that holds a cluster (R409). -/
def State.clusterPart (c : Nat) : Option Nat :=
  (List.range 8).find? fun p => (s.part p).st != .off && prectHas (s.part p).prect c

/-- Does partition p hold cluster c. -/
def State.partHas (p c : Nat) : Bool := (s.part p).st != .off && prectHas (s.part p).prect c

/-- The partition number of a strand, 0 when its cluster is in none. -/
def State.strandPart (id : Nat) : Nat := (s.clusterPart (strandCluster id)).getD 0

/-- A frame is owned by a partition when its home ordinal is (R410). -/
def State.ownsFrame (p pa : Nat) : Bool := s.partHas p (homeSlice pa / 16)

/-- The stack, and so the Quarry, of a cluster (R60). -/
def quarryOf (c : Nat) : Nat := 2 * (2 * (c / 16) + c % 8 / 4) + c / 8 % 2

/-- A partition owns Quarry q when it holds that stack's clusters (R409). -/
def State.ownsQuarry (p q : Nat) : Bool := (List.range 32).any fun c => quarryOf c == q && s.partHas p c

/-- Members of the Dune domain (R443). -/
def State.isMember (p : Nat) : Bool := (s.members.getD (p / 64) 0).testBit (p % 64)

/-- A free value of the n-th kind (log 7), and the state that has taken it. -/
def State.takeFree : Word × State := (Config.freeValue s.freeCount, { s with freeCount := s.freeCount + 1 })

end Sys2Proof.Machine
end

