-- ==== Sys2Proof/Machine/Operands.lean ====
section
/-! DEFINITION. Operands of grain instructions: registers of the current window (06 R138), groups and pairs,
sign extension, address operands (06 R139, 08 R200), and the delivery of results. -/

namespace Sys2Proof.Machine

/-- The register i places on in the same bank (R138, R145). -/
def GReg.plus (r : GReg) (i : Nat) : GReg :=
  match r with
  | .g n => .g (n + Fin.ofNat 16 i)
  | .w n => .w (n + Fin.ofNat 16 i)

/-- The window that w0 to w15 name: the trap window while a handler runs (R370), else the top of the stack. -/
def Strand.win (t : Strand) : Vector Word 16 := if t.intrap then t.trapWin else t.windows.headD (.replicate 16 0)

/-- A register read: g0 reads zero (R138). -/
def Strand.read (t : Strand) : GReg → Word
  | .g n => if n = 0 then 0 else t.gregs[n]
  | .w n => t.win[n]

/-- A register write: one to g0 is discarded (R138). -/
def Strand.write (t : Strand) (r : GReg) (v : Word) : Strand :=
  match r with
  | .g n => if n = 0 then t else { t with gregs := t.gregs.set n v }
  | .w n =>
    if t.intrap then { t with trapWin := t.trapWin.set n v }
    else { t with windows := (t.win.set n v) :: t.windows.tail }

def Strand.writeAll (t : Strand) : List (GReg × Word) → Strand
  | [] => t
  | (r, v) :: l => (t.write r v).writeAll l

/-- The four words of a group, first register first (R138). -/
def Strand.group (t : Strand) (r : GReg) : List Word := (List.range 4).map fun i => t.read (GReg.plus r i)

/-- A status goes to STATUS and to the destination (R45). -/
def Strand.report (t : Strand) (d : GReg) (w : Word) : Strand := { (t.write d w) with status := w }

/-- Values delivered by an outstanding instruction; flags are ORed into FSTAT (R127). -/
def Strand.deliver (t : Strand) (v : Deliver) : Strand :=
  let t := t.writeAll v.regs
  { t with status := v.status.getD t.status, fstat := t.fstat ||| v.flags }

/-- The following word (R136). -/
def Strand.next (t : Strand) : Strand := { t with pc := t.pc + 4 }

/-- A waiting instruction completes (R31): READY at the next instruction. -/
def Strand.finishWait (t : Strand) (regs : List (GReg × Word)) (st : Word) : Strand :=
  { (t.writeAll regs) with status := st, run := .ready, pc := t.pc + 4 }

def sext {n : Nat} (x : BitVec n) : Word := x.signExtend 64
def zext {n : Nat} (x : BitVec n) : Word := x.zeroExtend 64

/-- base + Sext(off12) x size (R139). -/
def memAddr (t : Strand) (b : GReg) (off : BitVec 12) (size : Nat) : Nat :=
  vaOf (t.read b + sext off * BitVec.ofNat 64 size)

/-- A jump target: bits 63..52 ignored (R57, R187). -/
def target (w : Word) : Word := w &&& 0xFFFFFFFFFFFFF#64

def LdType.size : LdType → Nat
  | .i8 => 1 | .n8 => 1 | .i16 => 2 | .n16 => 2 | .i32 => 4 | .n32 => 4 | .i64 => 8

/-- Extension of a loaded value (R200). -/
def LdType.extend (t : LdType) (x : Nat) : Word :=
  match t with
  | .i8 => sext (BitVec.ofNat 8 x)
  | .i16 => sext (BitVec.ofNat 16 x)
  | .i32 => sext (BitVec.ofNat 32 x)
  | _ => BitVec.ofNat 64 x

def StSize.bytes : StSize → Nat
  | .b1 => 1 | .b2 => 2 | .b4 => 4 | .b8 => 8

def AWidth.bytes : AWidth → Nat
  | .w32 => 4 | .w64 => 8

def ElemSize.bytes : ElemSize → Nat
  | .e4 => 4 | .e8 => 8 | .e16 => 16 | .e32 => 32 | .e64 => 64

/-- The bytes of a word, lowest first. -/
def wordBytes (n : Nat) (w : Word) : List Byte := leBytes n w.toNat

/-- The words of a byte list, 8 bytes each. -/
def wordsOf (bs : List Byte) (n : Nat) : List Word := (List.range n).map fun i => BitVec.ofNat 64 (numAt bs (8 * i) 8)

/-- A 64-bit status field: bits h..l of a word. -/
def wbits (w : Word) (h l : Nat) : Nat := bitsOf w.toNat h l

end Sys2Proof.Machine
end

