-- ==== Sys2Proof/Machine/Fp.lean ====
section
/-! DEFINITION. Exact binary arithmetic and one rounding (05 R112 to R128; 12 R306 to R308): a finite value is
m x 2^e with a sign, every operation is computed exactly and rounded once. -/

namespace Sys2Proof.Machine

/-- The layout of a format (R115). -/
structure Fmt where
  width : Nat
  mb : Nat
  bias : Nat
  /-- the largest finite magnitude -/
  maxBits : Nat
  nan : Nat
  fp8 : Bool
  /-- the infinity pattern; none for E4M3 -/
  inf : Option Nat
  deriving DecidableEq, Repr

def fp32 : Fmt := ⟨32, 23, 127, 0x7F7FFFFF, 0x7FC00000, false, some 0x7F800000⟩
def bf16 : Fmt := ⟨16, 7, 127, 0x7F7F, 0x7FC0, false, some 0x7F80⟩
def fp16 : Fmt := ⟨16, 10, 15, 0x7BFF, 0x7E00, false, some 0x7C00⟩
def e4m3 : Fmt := ⟨8, 3, 7, 0x7E, 0x7F, true, none⟩
def e5m2 : Fmt := ⟨8, 2, 15, 0x7B, 0x7E, true, some 0x7C⟩

/-- The formats with codes 0 to 4 (R112). -/
def fmtOf : Nat → Option Fmt
  | 0 => some fp32
  | 1 => some bf16
  | 2 => some fp16
  | 3 => some e4m3
  | 4 => some e5m2
  | _ => none

/-- A decoded value: NaN (signalling or not), infinity, or the finite m x 2^e. -/
inductive Fp where
  | nan (sig : Bool)
  | inf (neg : Bool)
  | fin (neg : Bool) (m : Nat) (e : Int)
  deriving DecidableEq, Repr

/-- Rounding modes (R122): 0 RNE, 1 RTZ, 2 RUP, 3 RDN. -/
abbrev Rm := Nat

def flagNV : Nat := 16
def flagDZ : Nat := 8
def flagOF : Nat := 4
def flagUF : Nat := 2
def flagNX : Nat := 1

/-- The value of a pattern (R115, R117). -/
def fpDecode (f : Fmt) (bits : Nat) : Fp :=
  let w := f.width - 1
  let neg := bits.testBit w
  let mag := bits % 2 ^ w
  let frac := mag % 2 ^ f.mb
  let ex := mag / 2 ^ f.mb
  if mag > f.maxBits then
    if f.inf = some mag then .inf neg else .nan (!f.fp8 && !frac.testBit (f.mb - 1))
  else if ex = 0 then .fin neg frac (1 - (f.bias : Int) - f.mb)
  else .fin neg (2 ^ f.mb + frac) ((ex : Int) - f.bias - f.mb)

def signBit (f : Fmt) (neg : Bool) : Nat := if neg then 2 ^ (f.width - 1) else 0

/-- The infinity, or for E4M3 the NaN, of a sign. -/
def fpInf (f : Fmt) (neg : Bool) : Nat :=
  match f.inf with
  | some b => signBit f neg + b
  | none => f.nan

/-- IeeeOverflow of R124. -/
def fpOverflow (f : Fmt) (rm : Rm) (neg : Bool) : Nat :=
  if rm = 0 ∨ (rm = 2 ∧ !neg) ∨ (rm = 3 ∧ neg) then fpInf f neg else signBit f neg + f.maxBits

/-- The number of bits of m. -/
def bitLen (m : Nat) : Nat := if m = 0 then 0 else m.log2 + 1

/-- Drop `sh` bits of m under a rounding mode: the quotient and whether anything was lost. -/
def roundBits (rm : Rm) (neg : Bool) (m sh : Nat) : Nat × Bool :=
  let q := m / 2 ^ sh
  let r := m % 2 ^ sh
  let up : Bool :=
    if r = 0 then false
    else
      match rm with
      | 0 => decide (2 * r > 2 ^ sh) || (decide (2 * r = 2 ^ sh) && decide (q % 2 = 1))
      | 1 => false
      | 2 => !neg
      | _ => neg
  (if up then q + 1 else q, decide (r ≠ 0))

/-- Round the exact m x 2^e into a format (R124): pattern and flags. -/
def fpRound (f : Fmt) (rm : Rm) (sat neg : Bool) (m : Nat) (e : Int) : Nat × Nat :=
  if m = 0 then (signBit f neg, 0)
  else
    let emin : Int := 1 - (f.bias : Int) - f.mb
    let lsb : Int := max (e + bitLen m - (f.mb + 1)) emin
    let (q, nx) := if lsb ≤ e then (m * 2 ^ (e - lsb).toNat, false) else roundBits rm neg m (lsb - e).toNat
    let mag := (lsb - emin).toNat * 2 ^ f.mb + q
    if mag > f.maxBits then
      let v := if f.fp8 then (if sat then signBit f neg + f.maxBits else f.nan) else fpOverflow f rm neg
      (v, flagOF + flagNX)
    else (signBit f neg + mag, (if nx then flagNX else 0) + (if nx && decide (q < 2 ^ f.mb) then flagUF else 0))

/-- Convert of R124. -/
def fpConvert (f : Fmt) (rm : Rm) (sat : Bool) : Fp → Nat × Nat
  | .nan sig => (f.nan, if sig then flagNV else 0)
  | .inf neg =>
    if f.fp8 && sat then (signBit f neg + f.maxBits, 0)
    else (fpInf f neg, if f.inf.isNone then flagNV else 0)
  | .fin neg m e => fpRound f rm sat neg m e

def Fp.isNan : Fp → Bool
  | .nan _ => true
  | _ => false
def Fp.isSig : Fp → Bool
  | .nan s => s
  | _ => false
def Fp.neg : Fp → Fp
  | .nan s => .nan s
  | .inf n => .inf !n
  | .fin n m e => .fin (!n) m e
def Fp.isZero : Fp → Bool
  | .fin _ m _ => m == 0
  | _ => false
def Fp.isNeg : Fp → Bool
  | .nan _ => false
  | .inf n => n
  | .fin n _ _ => n

/-- A signed dyadic number z x 2^e. -/
abbrev Dy := Int × Int

def dyOf (neg : Bool) (m : Nat) (e : Int) : Dy := (if neg then -(m : Int) else m, e)
def dyAdd (a b : Dy) : Dy :=
  let e := min a.2 b.2
  (a.1 * 2 ^ (a.2 - e).toNat + b.1 * 2 ^ (b.2 - e).toNat, e)
def dyMul (a b : Dy) : Dy := (a.1 * b.1, a.2 + b.2)

/-- A quiet result: the canonical NaN, raising NV where asked. -/
def nanResult (f : Fmt) (nv : Bool) : Nat × Nat := (f.nan, if nv then flagNV else 0)

/-- Exact sum of two values with the special cases of R182; `zneg` says whether both operands are negative zeros. -/
def fpAdd (f : Fmt) (rm : Rm) (a b : Fp) : Nat × Nat :=
  match a, b with
  | .nan x, .nan y => nanResult f (x || y)
  | .nan x, _ => nanResult f x
  | _, .nan y => nanResult f y
  | .inf x, .inf y => if x = y then (fpInf f x, 0) else nanResult f true
  | .inf x, _ => (fpInf f x, 0)
  | _, .inf y => (fpInf f y, 0)
  | .fin na ma ea, .fin nb mb eb =>
    let z := dyAdd (dyOf na ma ea) (dyOf nb mb eb)
    if z.1 = 0 then (signBit f (if na = nb then na else decide (rm = 3)), 0)
    else fpRound f rm false (decide (z.1 < 0)) z.1.natAbs z.2

/-- The exact product, or the special value of R182. -/
def fpProd (a b : Fp) : Fp :=
  match a, b with
  | .nan x, .nan y => .nan (x || y)
  | .nan x, _ => .nan x
  | _, .nan y => .nan y
  | .inf x, .inf y => .inf (x != y)
  | .inf x, .fin y m _ => if m = 0 then .nan true else .inf (x != y)
  | .fin x m _, .inf y => if m = 0 then .nan true else .inf (x != y)
  | .fin x ma ea, .fin y mb eb => .fin (x != y) (ma * mb) (ea + eb)

def fpMul (f : Fmt) (rm : Rm) (a b : Fp) : Nat × Nat := fpConvert f rm false (fpProd a b)

/-- Round(a x b + c) with one rounding (R182 FFMA). -/
def fpFma (f : Fmt) (rm : Rm) (a b c : Fp) : Nat × Nat :=
  match fpProd a b, c with
  | .nan x, c => nanResult f (x || c.isSig)
  | p, c => fpAdd f rm p c

/-- floor of the square root, by bits from 2^n downwards. -/
def isqrt : Nat → Nat → Nat → Nat
  | 0, r, m => if (r + 1) * (r + 1) ≤ m then r + 1 else r
  | n + 1, r, m => isqrt n (if (r + 2 ^ (n + 1)) * (r + 2 ^ (n + 1)) ≤ m then r + 2 ^ (n + 1) else r) m

def natSqrt (m : Nat) : Nat := isqrt (bitLen m / 2 + 1) 0 m

/-- An inexact value just above m x 2^e is represented by (2m+1) x 2^(e-1): no format keeps that many bits. -/
def withSticky (m : Nat) (e : Int) (inexact : Bool) : Nat × Int := if inexact then (2 * m + 1, e - 1) else (m, e)

/-- Round(sqrt a) (R182). -/
def fpSqrt (f : Fmt) (rm : Rm) : Fp → Nat × Nat
  | .nan s => nanResult f s
  | .inf n => if n then nanResult f true else (fpInf f false, 0)
  | .fin n m e =>
    if m = 0 then (signBit f n, 0)
    else if n then nanResult f true
    else
      let (m, e) := if e % 2 = 0 then (m, e) else (2 * m, e - 1)
      let k := f.mb + 6
      let m := m * 2 ^ (2 * k)
      let r := natSqrt m
      let (q, x) := withSticky r (e / 2 - k) (decide (r * r ≠ m))
      fpRound f rm false false q x

/-- Round(1 / a) (R182 FRCP). -/
def fpRcp (f : Fmt) (rm : Rm) : Fp → Nat × Nat
  | .nan s => nanResult f s
  | .inf n => (signBit f n, 0)
  | .fin n m e =>
    if m = 0 then (fpInf f n, flagDZ)
    else
      let k := bitLen m + f.mb + 6
      let q := 2 ^ k / m
      let (q, x) := withSticky q (-(k : Int) - e) (decide (2 ^ k % m ≠ 0))
      fpRound f rm false n q x

/-- Round(1 / sqrt a) (R306 VRSQ). -/
def fpRsq (f : Fmt) (rm : Rm) : Fp → Nat
  | .nan _ => f.nan
  | .inf n => if n then f.nan else 0
  | .fin n m e =>
    if m = 0 then fpInf f n
    else if n then f.nan
    else
      let (m, e) := if e % 2 = 0 then (m, e) else (2 * m, e - 1)
      let k := bitLen m + f.mb + 6
      let r := natSqrt (2 ^ (2 * k) / m)
      let (q, x) := withSticky r (-(k : Int) - e / 2) (decide (r * r * m ≠ 2 ^ (2 * k)))
      (fpRound f rm false false q x).1

/-- Bounds of 2^g in units of 2^-q, where the bits of g below the point are those of x, taken from position i - 1
down to 0; (rl, rh) bounds the current root of 2 and (lo, hi) the product so far. -/
def exp2Loop (q x : Nat) : Nat → Nat → Nat → Nat → Nat → Nat × Nat
  | 0, _, _, lo, hi => (lo, hi + hi / 2 ^ q + 1)
  | i + 1, rl, rh, lo, hi =>
    let rl := natSqrt (rl * 2 ^ q)
    let rh := natSqrt (rh * 2 ^ q) + 1
    if x.testBit i then exp2Loop q x i rl rh (lo * rl / 2 ^ q) (hi * rh / 2 ^ q + 1) else exp2Loop q x i rl rh lo hi

/-- floor(2^g x 2^40) for the fraction g = m / 2^k, from bounds at growing precision. -/
def exp2Frac (m k : Nat) : Nat → Nat → Nat
  | 0, _ => 2 ^ 40
  | n + 1, q =>
    let x := if k ≤ q then m * 2 ^ (q - k) else m / 2 ^ (k - q)
    let (lo, hi) := exp2Loop q x q (2 * 2 ^ q) (2 * 2 ^ q) (2 ^ q) (2 ^ q)
    let l := lo / 2 ^ (q - 40)
    if l = hi / 2 ^ (q - 40) ∨ n = 0 then l else exp2Frac m k n (2 * q)

/-- Round(2^(z x 2^e)), correctly rounded (R306 VEXP2, R324): a non-integer power is irrational, so its floor at 40
bits and a sticky bit decide every rounding. -/
def fpExp2 (f : Fmt) (rm : Rm) (z e : Int) : Nat :=
  if 0 ≤ e ∨ z = 0 then
    let t : Int := z * 2 ^ e.toNat
    (fpRound f rm false false 1 (if t > 4096 then 4096 else if t < -4096 then -4096 else t)).1
  else
    let k := (-e).toNat
    let n : Int := z / 2 ^ k
    let g := (z % 2 ^ k).toNat
    let n : Int := if n > 4096 then 4096 else if n < -4096 then -4096 else n
    if g = 0 then (fpRound f rm false false 1 n).1
    else
      let r := exp2Frac g k 4 96
      (fpRound f rm false false (2 * r + 1) (n - 41)).1

/-- FMIN and FMAX (R183): which operand is returned, and NV for a signalling NaN. -/
def fpLess (a b : Fp) : Bool :=
  match a, b with
  | .inf x, .inf y => x && !y
  | .inf x, _ => x
  | _, .inf y => !y
  | .fin na ma ea, .fin nb mb eb =>
    let za := dyOf na ma ea
    let zb := dyOf nb mb eb
    let d := dyAdd za (-zb.1, zb.2)
    decide (d.1 < 0)
  | _, _ => false

/-- The pattern of the smaller (or larger) operand, -0 below +0. -/
def fpMinMax (f : Fmt) (wantMax : Bool) (a b : Nat) : Nat × Nat :=
  let x := fpDecode f a
  let y := fpDecode f b
  let nv := if x.isSig || y.isSig then flagNV else 0
  if x.isNan && y.isNan then (f.nan, nv)
  else if x.isNan then (b, nv)
  else if y.isNan then (a, nv)
  else
    let aLess := fpLess x y || (x.isZero && y.isZero && x.isNeg && !y.isNeg)
    (if aLess != wantMax then a else b, nv)

/-- Equality of values, -0 = +0 (R184). -/
def fpEq (a b : Fp) : Bool := !a.isNan && !b.isNan && !fpLess a b && !fpLess b a

/-- An element of E2M1 (R118). -/
def e2m1Val (c : Nat) : Fp :=
  let m := c % 8
  if m = 0 then .fin (c.testBit 3) 0 0
  else if m < 2 then .fin (c.testBit 3) m (-1)
  else .fin (c.testBit 3) (2 + m % 2) ((m / 2 : Int) - 2)

/-- The level of a QC4 code as a BF16 pattern (R120). -/
def qc4Bits (c : Nat) : Nat :=
  match c with
  | 0 => 0xBF80 | 1 => 0xBF35 | 2 => 0xBF0B | 3 => 0xBED5 | 4 => 0xBE9F | 5 => 0xBE5D | 6 => 0xBE02 | 7 => 0xBD2C
  | 8 => 0x3D2C | 9 => 0x3E02 | 10 => 0x3E5D | 11 => 0x3E9F | 12 => 0x3ED5 | 13 => 0x3F0B | 14 => 0x3F35 | _ => 0x3F80

/-- An MXFP4 element under its E8M0 scale (R119). -/
def mxfp4Val (code scale : Nat) : Fp :=
  if scale = 0xFF then .nan false else fpProd (e2m1Val code) (.fin false 1 ((scale : Int) - 127))

/-- A QC4 element under its BF16 scale (R121). -/
def qc4Val (code scale : Nat) : Fp :=
  if scale.testBit 15 ∨ 255 ≤ scale / 128 % 256 then .nan false
  else if scale = 0 then .fin false 0 0
  else fpProd (fpDecode bf16 (qc4Bits code)) (fpDecode bf16 scale)

end Sys2Proof.Machine
end

