-- ==== Sys2Proof/Machine/Links.lean ====
section
/-! DEFINITION. Sending to the outside: messages to the host on a stream (20 R427, R430), packets onto a Dune port
or looped through the I/O die (20 R438 to R442), strata events (21 R455). -/

namespace Sys2Proof.Machine

/-- The table key of a stream (R427): PART 0xFF is register space 1. -/
def streamKey (part stream : Nat) : Nat := (if part < 8 then part else 8) * 64 + stream

/-- Send one message on a stream with its next sequence number (R430). A port that is down sends nothing. -/
def hostSend (s : State) (part stream typ tag addr : Nat) (payload : List Byte) : State :=
  let k := streamKey part stream
  let q := s.stream k
  let m : HostMsg := ⟨0x4F5A, 1, part, stream, q.send, q.next - 1, tag, addr, payload⟩
  let x : Sent := ⟨typ, m, s.cycle⟩
  if s.mgmt.up then
    { s.setStream k { q with send := q.send + 1, unacked := q.unacked ++ [x], owing := none } with
      hostOut := s.hostOut ++ [x] }
  else s

/-- The ports of a set that are up (R440). -/
def portsUp (s : State) (set : Nat) : List Nat :=
  (List.range 16).filter fun i => set.testBit i && ((s.port i).st == .up8 || (s.port i).st == .up7)

/-- Fields of a ROUTE register (R443). -/
def routeAlt (r : Nat) : Nat := bitsOf r 41 32
def routeHops (r : Nat) : Nat := bitsOf r 18 16
def routePorts (r : Nat) : Nat := r % 65536

/-- The device a packet for `dst` is routed towards: a lost peer's mirrored offsets go to its ALT (R450). -/
def routeTo (s : State) (dst : Nat) : Nat := if s.lost.has dst then routeAlt (s.routes.getD dst 0) else dst

/-- The port of a packet (R440). -/
def portFor (s : State) (p : Packet) : Option Nat :=
  let r := s.routes.getD (routeTo s p.dst) 0
  let up := portsUp s (routePorts r)
  if routeHops r = 0 then none else up[(bitsOf p.addr 21 6 ^^^ p.dst ^^^ p.src) % up.length]?

/-- Count an event of R448, saturating. -/
def count (s : State) (k : Nat) : State :=
  { s with cnts := s.cnts.put k (min (s.cnts.getD k 0 + 1) (2 ^ 64 - 1)) }

/-- Virtual channel of a packet type (R442). -/
def packetVc : Nat → Nat
  | 1 => 0 | 3 => 0 | 8 => 0 | 10 => 0 | 12 => 0 | 16 => 0
  | 6 => 2 | 14 => 3 | 15 => 3
  | _ => 1

/-- Cut bytes into flit bodies of 240 (R438), with SOP on the first and EOP on the last. -/
def flitBodies (vc : Nat) (since : Option Nat) : Nat → Bool → List Byte → List QFlit
  | 0, _, _ => []
  | n + 1, first, bs =>
    if bs.length ≤ 240 then [⟨vc, first, true, since, bs⟩]
    else ⟨vc, first, false, since, bs.take 240⟩ :: flitBodies vc since n false (bs.drop 240)

/-- A microsecond in g-cycles (R6). -/
def usCycles : Nat := 1800

/-- A time in g-cycles as microseconds, rounded up (R446). -/
def usUp (n : Nat) : Nat := (n + usCycles - 1) / usCycles

/-- The age of a flit's packet as it leaves now: what its header holds, and the residence in this device, which is more than no time at
all (R446). -/
def QFlit.age (f : QFlit) (now : Nat) : Nat :=
  numAt f.body 5 1 + (f.since.map fun c => max 1 (usUp (now - c))).getD 0

/-- The queue without the first packet of a channel. -/
def dropFirst (vc : Nat) (q : List QFlit) : List QFlit :=
  let mine := q.filter fun f => f.vc == vc
  let rest := (mine.dropWhile fun f => !f.eop).drop 1
  (q.filter fun f => f.vc != vc) ++ rest

/-- What CRED reports of freed buffers, and what is left to report (R438). -/
def credNow (freed : List Nat) : List Nat := freed.map (min 255)
def credLeft (freed : List Nat) : List Nat := freed.map (· - 255)

/-- k flits have passed in the direction of a LANE flit: from the sixteenth on the port runs on seven lanes (R439). -/
def Port.passed (p : Port) (mine : Bool) (k : Nat) : Port :=
  match p.narrow with
  | some (m, left) =>
    if m ≠ mine then p
    else if left ≤ k then { p with narrow := none, st := if p.st = .up8 then .up7 else p.st }
    else { p with narrow := some (m, left - k) }
  | none => p

/-- One data flit leaves when its channel has credit and the replay buffer has room (R439, items 2 and 5); a packet that would be older
than 64 us is dropped and counted (R446). -/
def pumpOne (s : State) (n : Nat) (vc : Nat) : Option State :=
  let p := s.port n
  match p.queue.find? fun f => f.vc == vc with
  | none => none
  | some f =>
    if p.credits.getD vc 0 = 0 ∨ 2047 ≤ p.replay.length then none
    else if f.sop ∧ 64 < f.age s.cycle then some (count (s.setPort n { p with queue := dropFirst vc p.queue }) 4)
    else
      let body := if f.sop then f.body.set 5 (BitVec.ofNat 8 (f.age s.cycle)) else f.body
      let bytes := encodeFlit ⟨p.txSeq, vc, f.sop, f.eop, false, true, (p.rxSeq + 4095) % 4096, credNow p.freed, body, true⟩
      let p := { p with queue := p.queue.erase f, credits := p.credits.set vc (p.credits.getD vc 0 - 1),
                        txSeq := (p.txSeq + 1) % 4096, replay := p.replay ++ [(p.txSeq, 1, bytes)],
                        freed := credLeft p.freed, ackOwed := false, nextVc := (vc + 1) % 4, lastSend := s.cycle }
      some { s.setPort n (p.passed true 1) with dunOut := s.dunOut ++ [(n, bytes)] }

/-- Serve a port's channels round-robin, one flit at a time, while something can leave (R440). -/
def pump (n : Nat) : Nat → State → State
  | 0, s => s
  | k + 1, s =>
    let p := s.port n
    if p.st = .up8 ∨ p.st = .up7 then
      match (List.range 4).findSome? fun i => pumpOne s n ((p.nextVc + i) % 4) with
      | some s' => pump n k s'
      | none => s
    else s

/-- Put a packet on the port of its route, or discard and count it (R440). -/
def emit (s : State) (typ : Nat) (p : Packet) (since : Option Nat) : State :=
  match portFor s p with
  | none => count s 7
  | some n =>
    let fs := flitBodies (packetVc typ) since 16 true (encodePacket typ p)
    pump n (fs.length + 1) (s.modPort n fun q => { q with queue := q.queue ++ fs })

/-- A packet that has waited in this device since a g-cycle comes to be judged, older by that time, or is dropped (R446). -/
def present (s : State) (typ came : Nat) (p : Packet) : State :=
  let age := p.age + usUp (s.cycle - came)
  if 64 < age then count s 4 else { s with agenda := s.agenda ++ [.packet typ { p with age := age }] }

/-- Send a packet: to the device's own id, or to a lost peer whose ALT it is, it loops through the I/O die (R80, R445, R450). -/
def sendPacket (s : State) (typ : Nat) (p : Packet) (since : Option Nat) : State :=
  if p.dst = s.devid ∨ routeTo s p.dst = s.devid then present s typ (since.getD s.cycle) p
  else emit s typ p since

/-- Form a request awaiting its response (R447). -/
def sendRequest (s : State) (typ : Nat) (who : Asker) (p : Packet) : State :=
  let p := { p with rtag := s.rtagNext % 2 ^ 32 }
  let s := { s with rtagNext := s.rtagNext + 1, reqs := s.reqs ++ [⟨p.rtag, typ, who, p, s.cycle, none⟩] }
  sendPacket s typ p none

/-- A response copies RTAG, ADDR and PART, and exchanges SRC and DST (R441). It inherits an age, to which its residence in this device
since a g-cycle is added (R446). -/
def respondAged (s : State) (age : Nat) (since : Option Nat) (typ : Nat) (p : Packet) (stat detail aux pmask : Nat)
    (payload : List Byte) : State :=
  sendPacket s typ { dst := p.src, src := p.dst, age := age, rtag := p.rtag, part := p.part, stat := stat,
                     detail := detail, addr := p.addr, aux := aux, pmask := pmask, payload := payload } since

/-- Answer a request that came in a g-cycle (R446). -/
def respondFrom (s : State) (came typ : Nat) (p : Packet) (stat detail aux pmask : Nat) (payload : List Byte) : State :=
  respondAged s p.age (some came) typ p stat detail aux pmask payload

def respond (s : State) (typ : Nat) (p : Packet) (stat detail aux pmask : Nat) (payload : List Byte) : State :=
  respondFrom s s.cycle typ p stat detail aux pmask payload

/-- A device's strata ring gains an event (R455). -/
def strataEvent (s : State) (die code cluster unit addr detail : Nat) : State :=
  let n := s.strataSeq.getD die 0 + 1
  let e : Strata := ⟨s.cycle, n, code, cluster, unit, addr, detail, false⟩
  { s with strataSeq := s.strataSeq.put die n,
           strata := s.strata.put die (((s.strata.getD die []).filter fun x => x.seq % 4096 != n % 4096) ++ [e]) }

/-- The die of a cluster (R11). -/
def dieOf (c : Nat) : Nat := 2 * (c / 16) + c % 8 / 4

end Sys2Proof.Machine
end

