-- ==== Sys2Proof/Machine/Memory.lean ====
section
/-! DEFINITION. Memory as all agents share it: forwarding regions and their sector sequences (10 R252 to R266),
update-only lines (04 R99, R100), writes at a home or a bank, the store buffers of the cores (04 R90 to R95). -/

namespace Sys2Proof.Machine

/-! ## Regions -/

def overlap (a n b m : Nat) : Bool := decide (a < b + m) && decide (b < a + n)

/-- The abort status of a region (R271). -/
def abortWord (r : Region) : Word := BitVec.ofNat 64 (r.code + 256 * r.detail)

/-- A region's accesses leave every sector sequence (R253, R261). -/
def dropSeqs (s : State) (rid : Nat) : State :=
  { s with seqs := (s.seqs.map fun (k, l) => (k, l.filter fun e => e.rid != rid)).filter fun (_, l) => !l.isEmpty }

/-- Edges from an ended region are removed (R259); a region left without predecessors may commit from the next
g-cycle (R266). -/
def dropEdges (s : State) (rid : Nat) : State :=
  { s with regions := s.regions.map fun (k, r) =>
      if r.preds.contains rid then
        let ps := r.preds.filter (· != rid)
        (k, { r with preds := ps, clearAt := if ps.isEmpty then s.cycle + 1 else r.clearAt })
      else (k, r) }

/-- A region ends: slot freed, footprint and edges dropped, the code of the end kept (R253). -/
def endRegion (s : State) (rid code detail : Nat) : State :=
  let r := s.region rid
  let s := dropEdges (dropSeqs s rid) rid
  let s := s.setRegion rid { r with st := .free, code := code, detail := detail, preds := [], reads := [], writes := [],
                                    hadPreds := [], hadLast := [] }
  s.modStrand r.holder fun t => if t.region = some rid then { t with region := none } else t

/-- The FRE of a region that has been aborted completes (R271), unless its strand is SUSPENDED. -/
def finishFre (s : State) (rid : Nat) : State :=
  let r := s.region rid
  match (s.strand r.holder).run, (s.strand r.holder).halted with
  | .wait (.fre d) _, false =>
    let w := abortWord r
    let s := s.modStrand r.holder fun t => t.finishWait [(d, w)] w
    endRegion s rid r.code r.detail
  | _, _ => s

/-- The region whose region write is the last one in a sector's sequence. -/
def lastWriter (seq : List SeqEntry) : Option Nat := (seq.filter fun e => e.wrote.isSome).getLast?.map (·.rid)

/-- A region has been aborted, in this g-cycle (R265). -/
def justAborted (s : State) (r : Region) : Bool := r.st == .aborted && r.abortAt == s.cycle

/-- Abort regions from a work list, with the cascade of R261. Of two aborts that reach a region in one g-cycle the lower code
stands (R265); the FRE that waits for it completes when the g-cycle is over. The cascade and the other aborts that no strand asked for have
DETAIL 0 (log 106). -/
def abortLoop : Nat → List (Nat × Nat × Nat) → State → State
  | 0, _, s => s
  | _, [], s => s
  | n + 1, (rid, code, detail) :: w, s =>
    let r := s.region rid
    if r.st = .live ∨ r.st = .waiting then
      let succ := (s.regions.filter fun (_, x) => x.preds.contains rid).map fun (k, _) => (k, Code.abortSource.num, 0)
      let last := (s.seqs.filter fun (_, l) => lastWriter l == some rid).map (·.1)
      let s := s.setRegion rid { r with st := .aborted, code := code, detail := detail, abortAt := s.cycle, hadPreds := r.preds,
                                        hadLast := last }
      abortLoop n (w ++ succ) (dropEdges (dropSeqs s rid) rid)
    else if justAborted s r ∧ code < r.code then
      abortLoop n w (s.setRegion rid { r with code := code, detail := detail })
    else abortLoop n w s

def abortRegion (s : State) (rid : Nat) (code : Code) (detail : Nat) : State :=
  abortLoop 4096 [(rid, code.num, detail)] s

/-- The region a strand holds LIVE or WAITING. -/
def liveRegion (s : State) (id : Nat) : Option Nat :=
  match (s.strand id).region with
  | some r => if (s.region r).st = .live ∨ (s.region r).st = .waiting then some r else none
  | none => none

/-- Abort what a strand holds, if it is LIVE or WAITING; an abort of the same g-cycle with a higher code gives way (R265). -/
def abortHeld (s : State) (id : Nat) (code : Code) (detail : Nat) : State :=
  match (s.strand id).region with
  | some r => abortRegion s r code detail
  | none => s

/-- The edges to a region that stand, or that stood when it was aborted in this g-cycle (R274). -/
def edgesTo (s : State) (r : Region) : List Nat := if justAborted s r then r.hadPreds else r.preds

/-- Does region a precede region b through recorded edges (R260); the depth bound keeps chains at 4. -/
def precedes (s : State) (a : Nat) : Nat → Nat → Bool
  | 0, _ => false
  | n + 1, b => (edgesTo s (s.region b)).any fun p => p == a || precedes s a n p

/-- A plain write to a sector aborts the regions that track it (R264), and counts for those that were aborted in this g-cycle (R265);
of two such regions the one that depends on the other falls with it (R261, and the worked case of two increments). -/
def plainAbort (s : State) (sector : Nat) : State :=
  let hit := s.regions.filter fun (_, r) =>
    (r.st == .live || r.st == .waiting || justAborted s r) && (r.reads.contains sector || r.writes.contains sector)
  let first := hit.filter fun (k, _) => !hit.any fun (j, _) => precedes s j 8 k
  abortLoop 4096 (first.map fun (k, _) => (k, Code.abortPlain.num, 0)) s

/-! ## Homes and banks -/

/-- Combine two RED operands of a type, as patterns of its width (R210). -/
def redCombine (k : RedKind) (t : RedType) (x y : Nat) : Nat :=
  let n := match t with
    | .i64 => 64 | .n64 => 64 | _ => 32
  let a := BitVec.ofNat n x
  let b := BitVec.ofNat n y
  let signed : Bool := match t with
    | .i32 => true | .i64 => true | _ => false
  let less : Bool := if signed then a.slt b else a.ult b
  match k, t with
  | .add, .f32 => (fpAdd fp32 0 (fpDecode fp32 x) (fpDecode fp32 y)).1
  | .add, _ => (a + b).toNat
  | .min, _ => if less then a.toNat else b.toNat
  | .max, _ => if less then b.toNat else a.toNat
  | .or, _ => (a ||| b).toNat

def redSize : RedType → Nat
  | .i64 => 8 | .n64 => 8 | _ => 4

/-- Mark or clear poison of a granule. -/
def setPoison (l : Loc) (on : Bool) (s : State) : State :=
  match l with
  | .mem pa => { s with poison := if on then NSet.ins s.poison (pa / 32) else NSet.rem s.poison (pa / 32) }
  | .spad a => { s with spadPoison := if on then NSet.ins s.spadPoison (a / 32) else NSet.rem s.spadPoison (a / 32) }
  | _ => s

def isPoisoned (s : State) : Loc → Bool
  | .mem pa => NSet.has s.poison (pa / 32)
  | .spad a => NSet.has s.spadPoison (a / 32)
  | _ => false

/-- Store bytes without any other effect; a whole granule clears its poison (R199). -/
def rawWrite (s : State) (l : Loc) (bs : List Byte) : State :=
  let s := if bs.length = 32 then setPoison l false s else s
  match l with
  | .mem pa => { s with hbm := s.hbm.putBytes pa bs }
  | .spad a => { s with spad := s.spad.putBytes a bs }
  | _ => s

def rawRead (s : State) (l : Loc) (n : Nat) : List Byte :=
  match l with
  | .mem pa => s.hbm.bytes pa n
  | .spad a => s.spad.bytes a n
  | _ => List.replicate n 0

/-- One core's partials of a line reach memory (R100); each is a plain write (R264). -/
def recallCore (s : State) (line core : Nat) : State :=
  let c := s.core core
  match c.red.find line with
  | none => s
  | some x =>
    let s := s.setCore core { c with red := c.red.del line }
    x.parts.foldl (fun s (off, v) =>
      let n := redSize x.type
      let pa := 64 * line + off
      let s := plainAbort s (pa / 32)
      rawWrite s (.mem pa) (leBytes n (redCombine x.kind x.type (s.hbm.num pa n) v))) s

/-- The home recalls a line from every core that holds it, in an order that RED_RECALL may settle before (log 10). -/
def recallLine (s : State) (line : Nat) : State :=
  (s.cores.filter fun (_, c) => (c.red.find line).isSome).foldl (fun s (n, _) => recallCore s line n) s

def recallLoc (s : State) : Loc → State
  | .mem pa => recallLine s (pa / 64)
  | _ => s

/-- A write at a home or bank: recall, abort of regions, then the bytes. -/
def homeWrite (s : State) (l : Loc) (bs : List Byte) : State :=
  let s := recallLoc s l
  let s := match l with
    | .mem pa => plainAbort s (pa / 32)
    | _ => s
  rawWrite s l bs

def locOverlap (l : Loc) (n : Nat) (l' : Loc) (m : Nat) : Bool :=
  match l, l' with
  | .mem a, .mem b => overlap a n b m
  | .spad a, .spad b => overlap a n b m
  | .peer p a, .peer q b => p == q && overlap a n b m
  | .host a, .host b => overlap a n b m
  | _, _ => false

/-- Is a core inside a rectangle of a partition (R87). A rectangle that names no core, or leaves out the issuing
core, is unusable. -/
def rectHas (s : State) (part rect core : Nat) : Bool :=
  match unpackXY (rect % 65536), unpackXY (rect / 65536 % 65536) with
  | some (x1, y1), some (x2, y2) =>
    decide (min x1 x2 ≤ coreX core) && decide (coreX core ≤ max x1 x2) && decide (min y1 y2 ≤ coreY core)
      && decide (coreY core ≤ max y1 y2) && s.partHas part (core / 16)
  | _, _ => false

/-- Overlay the bytes of a store on bytes read at a place. -/
def overlayStore (l : Loc) (bs : List Byte) (b : BufStore) : List Byte :=
  match l, b.loc with
  | .mem a, .mem x => ov a x
  | .spad a, .spad x => ov a x
  | .peer p a, .peer q x => if p = q then ov a x else bs
  | .host a, .host x => ov a x
  | _, _ => bs
where
  ov (a x : Nat) : List Byte :=
    bs.mapIdx fun i c => if x ≤ a + i ∧ a + i < x + b.bytes.length then b.bytes.getD (a + i - x) c else c

/-- A store of another core that a core of a partition may have read early (R95). -/
def seenEarly (s : State) (part core : Nat) (b : BufStore) : Bool := b.early.any fun r => rectHas s part r core

/-- The stores that a load of a core meets: those visible to its rectangle, then its own buffer, the newest last (R85, R90, R95). -/
def metStores (s : State) (core part : Nat) : List BufStore :=
  (s.cores.flatMap fun (k, c) => if k = core then [] else c.stores.filter (seenEarly s part core)) ++ (s.core core).stores

/-- What a core's load returns: committed bytes under the stores that it meets. -/
def coreRead (s : State) (core part : Nat) (l : Loc) (n : Nat) : List Byte :=
  (metStores s core part).foldl (overlayStore l) (rawRead s l n)

/-- The bytes of a load that buffered stores cover whole, without a look at its place. -/
def storedBytes (s : State) (core part : Nat) (l : Loc) (n : Nat) : Option (List Byte) :=
  let shown (b : Byte) : List Byte := (metStores s core part).foldl (overlayStore l) (List.replicate n b)
  if shown 0 = shown 255 then some (shown 0) else none

/-- A load of n bytes at a place meets poison: no whole-granule store that stands in a buffer has replaced the data (R199). -/
def meetsPoison (s : State) (core part : Nat) (l : Loc) (n : Nat) : Bool :=
  let granules : List Loc := match l with
    | .mem pa => (List.range ((pa + n + 31) / 32 - pa / 32)).map fun i => .mem (pa / 32 * 32 + 32 * i)
    | .spad a => (List.range ((a + n + 31) / 32 - a / 32)).map fun i => .spad (a / 32 * 32 + 32 * i)
    | _ => []
  granules.any fun g => isPoisoned s g && !(metStores s core part).any fun b => b.bytes.length == 32 && locOverlap g 32 b.loc 32

/-- The key of a peer line (R110). -/
def peerKey (p off : Nat) : Nat := p * 2 ^ 38 + off / 64 * 64

/-- Send a store to its peer as a put (R80, R108): a whole granule, or a narrow put of its bytes. -/
def sendPut (s : State) (b : BufStore) (p off : Nat) : State :=
  let gran := off / 32 * 32
  let sh := off % 32
  let whole : Bool := b.bytes.length == 32
  let payload := if whole then b.bytes else List.replicate sh 0 ++ b.bytes ++ List.replicate (32 - sh - b.bytes.length) 0
  let aux := if whole then 0 else 2 ^ 32 + (2 ^ b.bytes.length - 1) * 2 ^ sh
  let tag := s.rtagNext % 2 ^ 32
  let s := s.modStrand b.strand fun t => { t with puts := t.puts ++ [⟨tag, b.va⟩] }
  let s := { s with peerLines := s.peerLines.del (peerKey p off) }
  sendRequest s 1 (.put b.strand) ⟨p, s.devid, 0, 0, s.strandPart b.strand, 0, 0, gran, aux, 0, payload⟩

/-- An access goes to the host as HMEM: to the host window, or to a page that runs remote (R404, R434, R435). -/
def sendHmem (s : State) (part : Nat) (who : Asker) (write remote : Bool) (addr va len dest : Nat) (key data : List Byte)
    (pmask : Nat) : State :=
  let tag := s.hostTag % 2 ^ 32
  let dir := (if write then 1 else 0) + (if remote then 2 else 0)
  let s := { s with hostTag := s.hostTag + 1,
                    hostReqs := s.hostReqs ++ [⟨tag, who, part, write, va, len, dest, s.cycle⟩] }
  hostSend s part 0 12 tag addr (bytesAt key 0 7 ++ leBytes 1 dir ++ leBytes 4 len ++ leBytes 4 0 ++ leBytes 16 pmask ++ data)

/-! ## The store buffers -/

/-- A place whose bytes come from outside the device. -/
def Loc.isAway : Loc → Bool
  | .peer _ _ => true
  | .host _ => true
  | _ => false

/-- The stores of a buffer that leave it, and those that stay: the ones that meet a condition, and before each of them every
older one that overlaps it, so that writes to a location keep their order (R85). -/
def leaving (f : BufStore → Bool) (l : List BufStore) : List BufStore × List BufStore :=
  l.foldr (fun b (go, stay) =>
    if f b || go.any (fun c => locOverlap b.loc b.bytes.length c.loc c.bytes.length) then (b :: go, stay) else (go, b :: stay)) ([], [])

/-- A store takes effect at its place. -/
def leaveStore (s : State) (b : BufStore) : State :=
  match b.loc with
  | .peer p off => sendPut s b p off
  | l => homeWrite s l b.bytes

/-- The stores in all buffers. -/
def storeCount (s : State) : Nat := (s.cores.map fun (_, c) => c.stores.length).sum

/-- Stores that a rectangle release has made visible commit before any other write of their bytes (R95, R85). -/
def commitEarlyN : Nat → State → Loc → Nat → State
  | 0, s, _, _ => s
  | fuel + 1, s, l, n =>
    s.cores.foldl (fun s (k, _) =>
      let (go, stay) := leaving (fun b => !b.early.isEmpty && locOverlap l n b.loc b.bytes.length) (s.core k).stores
      if go.isEmpty then s
      else
        go.foldl (fun s b => leaveStore (commitEarlyN fuel s b.loc b.bytes.length) b) (s.modCore k fun c => { c with stores := stay })) s

def commitEarly (s : State) (l : Loc) (n : Nat) : State := commitEarlyN (storeCount s) s l n

/-- A plain write by any agent becomes visible (R91). -/
def plainWrite (s : State) (l : Loc) (bs : List Byte) : State := homeWrite (commitEarly s l bs.length) l bs

/-- A store that has left its buffer commits (R91). -/
def commitOne (s : State) (b : BufStore) : State := leaveStore (commitEarly s b.loc b.bytes.length) b

/-- Commit every store of a core's buffer in order (the waits of R92). -/
def flushLoop : Nat → Nat → State → State
  | 0, _, s => s
  | n + 1, core, s =>
    match (s.core core).stores with
    | [] => s
    | b :: rest => flushLoop n core (commitOne (s.modCore core fun c => { c with stores := rest }) b)

def flushCore (s : State) (core : Nat) : State := flushLoop (s.core core).stores.length core s

/-- Commit only the stores of a core that meet a condition, in order, with the older ones they overlap. -/
def flushWhere (s : State) (core : Nat) (f : BufStore → Bool) : State :=
  let (go, stay) := leaving f (s.core core).stores
  if go.isEmpty then s else go.foldl commitOne (s.modCore core fun c => { c with stores := stay })

/-- Every core commits the stores that meet a condition. -/
def flushAll (s : State) (f : BufStore → Bool) : State := s.cores.foldl (fun s (n, _) => flushWhere s n f) s

/-- Every core of a partition commits the stores that meet a condition (R205, R281). -/
def flushPart (s : State) (part : Nat) (f : BufStore → Bool) : State :=
  s.cores.foldl (fun s (n, _) => if s.partHas part (n / 16) then flushWhere s n f else s) s

/-- Early stores of other cores that a core may have read commit (R92: a release is cumulative). -/
def commitSeen (s : State) (part core : Nat) : State :=
  s.cores.foldl (fun s (n, _) => if n = core then s else flushWhere s n (seenEarly s part core)) s

/-- A store becomes visible inside a rectangle: what a home does before it comes first (R95, R100). -/
def showStore (s : State) (b : BufStore) : State :=
  if b.early.isEmpty then recallLoc (commitEarly s b.loc b.bytes.length) b.loc else s

/-- The stores of a core's buffer that meet a condition become visible inside a rectangle; those to a peer set out, since
their home is at the peer. -/
def showStores (s : State) (core rect : Nat) (f : BufStore → Bool) : State :=
  let s := flushWhere s core fun b => f b && b.loc.isAway
  let seen := (s.core core).stores.filter f
  if seen.isEmpty then s
  else
    (seen.foldl showStore s).modCore core fun c =>
      { c with stores := c.stores.map fun b => if f b then { b with early := b.early ++ [rect] } else b }

/-! ## Outstanding loads -/

/-- The values a load delivers from its bytes (R200, R202). -/
def loadRegs (t : LdType) (d : GReg) (bs : List Byte) : Deliver := { regs := [(d, LdType.extend t (ofLeBytes bs))] }
def loadVRegs (d : GReg) (bs : List Byte) : Deliver :=
  { regs := (List.range 4).map fun i => (GReg.plus d i, BitVec.ofNat 64 (numAt bs (8 * i) 8)) }

/-- The place, size and values of an outstanding load that is still to be performed in the device. -/
def loadOf (p : Pending) : Option (Loc × Nat × (List Byte → Deliver)) :=
  match p.act with
  | .load t d l => if l.isAway then none else some (l, LdType.size t, loadRegs t d)
  | .loadV d l => if l.isAway then none else some (l, 32, loadVRegs d)
  | _ => none

/-- n bytes that nothing constrains (log 7). -/
def freeBytes (s : State) (n : Nat) : List Byte × State :=
  ((List.range n).map fun i => (Config.freeValue (s.freeCount + i)).setWidth 8, { s with freeCount := s.freeCount + n })

/-- A spill area one of whose windows is on the move: a load of it may return any value (R64). -/
def onTheMove (s : State) (l : Loc) : Bool :=
  match l with
  | .spad a => ((spillOwner a).map fun o => (s.strand o).winMove.isSome).getD false
  | _ => false

/-- A load of a core is performed: its line is recalled and its bytes are read. -/
def readNow (s : State) (core part : Nat) (l : Loc) (n : Nat) : List Byte × State :=
  let s := recallLoc s l
  if onTheMove s l then freeBytes s n else (coreRead s core part l n, s)

/-- An outstanding load is performed now, and keeps its values until they are delivered (R89). -/
def fixLoad (s : State) (id : Nat) (p : Pending) : State :=
  match loadOf p with
  | some (l, n, regs) =>
    let (bs, s) := readNow s (strandCore id) (s.strandPart id) l n
    s.modStrand id fun t => { t with pend := t.pend.map fun q => if q.id = p.id then { q with act := .ready (regs bs) } else q }
  | none => s

/-- Outstanding loads of a strand from places that meet a condition are performed. -/
def fixLoads (s : State) (id : Nat) (f : Loc → Nat → Bool) : State :=
  (s.strand id).pend.foldl (fun s p => if ((loadOf p).map fun (l, n, _) => f l n).getD false then fixLoad s id p else s) s

/-- Those of every strand: done before a change that no load still outstanding may meet, since its checks have passed (R144). -/
def fixAll (s : State) (f : Loc → Nat → Bool) : State := s.strands.foldl (fun s (id, _) => fixLoads s id f) s

/-- Outstanding loads of a partition that were translated from addresses that meet a condition are performed: what they read is
about to lose its place (R281). -/
def fixThrough (s : State) (part : Nat) (f : Nat → Bool) : State :=
  s.strands.foldl (fun s (id, t) =>
    if s.strandPart id = part then t.pend.foldl (fun s p => if f p.va then fixLoad s id p else s) s else s) s

/-- The granule of a place. -/
def granuleOf (l : Loc) : Loc :=
  match l with
  | .mem pa => .mem (pa / 32 * 32)
  | .spad a => .spad (a / 32 * 32)
  | l => l

/-- Loads of a granule whose checks have passed are performed. -/
def fixGranule (l : Loc) (s : State) : State := fixAll s fun l' n => locOverlap (granuleOf l) 32 l' n

/-- A granule becomes poisoned (R454); loads of it whose checks have passed are performed first. -/
def poisonAt (l : Loc) (s : State) : State := setPoison l true (fixGranule l s)

/-- Poison travels with the data that is written (R454): a write of poisoned data leaves its granule poisoned. -/
def markedWrite (s : State) (l : Loc) (bs : List Byte) (pois : Bool) : State :=
  if pois then setPoison l true (plainWrite (fixGranule l s) l bs) else plainWrite s l bs

/-- Update-only lines of a 64 KiB frame are recalled (R100). -/
def recallFrame (s : State) (pa : Nat) : State :=
  ((s.cores.flatMap fun (_, c) => c.red.map (·.1)).filter fun l => l / 1024 == pa / 65536).foldl recallLine s

/-! ## Accesses of regions -/

/-- The bytes a region read returns at an offset of a sector: the committed ones under every region write of the sequence, in order
(R257). -/
def seqOver (s : State) (sector off : Nat) (bs : List Byte) : List Byte :=
  (s.seqs.getD sector []).foldl (fun bs e =>
    match e.wrote with
    | none => bs
    | some w => bs.mapIdx fun i c => (w.find (off + i)).getD c) bs

def seqBytes (s : State) (pa n : Nat) : List Byte := seqOver s (pa / 32) (pa % 32) (s.hbm.bytes pa n)

/-- A region read of a granule meets poison: region writes of its sequence have not replaced the whole of it (R199, R257). -/
def regionPoison (s : State) (l : Loc) : Bool :=
  match l with
  | .mem pa =>
    let put (i : Nat) : Bool := (s.seqs.getD (pa / 32) []).any fun e => (e.wrote.getD []).any fun w => w.1 == i
    isPoisoned s l && !(List.range 32).all put
  | _ => false

/-- Depth of a region (R262). -/
def regDepth (s : State) : Nat → Nat → Nat
  | 0, _ => 1
  | n + 1, r => ((s.region r).preds.map fun p => 1 + regDepth s n p).foldl max 1

/-- How an access of a live region is judged (R255 to R262). -/
inductive Judged where
  | go (s : State)
  | held
  | aborted (s : State)

/-- A region that may still commit. -/
def pendingRegion (s : State) (rid : Nat) : Bool := (s.region rid).st == .live || (s.region rid).st == .waiting

/-- Regions aborted in this g-cycle that an access of b to a sector would have closed a cycle with, being younger: ABORT_CYCLE, the lower
code, stands (R265, R274). -/
def fallenCycles (s : State) (b sector : Nat) (wr : Bool) : State :=
  let hit := s.regions.filter fun (k, x) =>
    k != b && justAborted s x && decide ((s.region b).stamp < x.stamp)
      && (if wr then NSet.has x.reads sector || NSet.has x.writes sector else NSet.has x.hadLast sector) && precedes s b 8 k
  abortLoop 4096 (hit.map fun (k, _) => (k, Code.abortCycle.num, 0)) s

/-- Edges X -> b that would close a cycle abort the younger region (R260). -/
def breakCycles (b : Nat) : List Nat → State → Judged
  | [], s => .go s
  | x :: xs, s =>
    if pendingRegion s x && !(s.region b).preds.contains x && precedes s b 8 x then
      if (s.region b).stamp > (s.region x).stamp then .aborted (abortRegion s b .abortCycle 0)
      else
        let s := abortRegion s x .abortCycle 0
        if (s.region b).st = .aborted then .aborted s else breakCycles b xs s
    else breakCycles b xs s

/-- The edges X -> b of an access are recorded, or, where b would have more than 4 predecessors, none is and b aborts (R258, R259). -/
def addEdges (b : Nat) (xs : List Nat) (s : State) : Judged :=
  match breakCycles b xs s with
  | .go s =>
    let r := s.region b
    let new := (xs.filter fun x => pendingRegion s x && !r.preds.contains x).eraseDups
    if 4 < r.preds.length + new.length then .aborted (abortRegion s b .abortCapacity 0)
    else .go (s.setRegion b { r with preds := r.preds ++ new })
  | j => j

/-- Judge an access by live region b to a sector: capacity, cycles, a fifth predecessor, the edges of a read or a write, and the depth
bound, in this order (log 91). -/
def judge (s : State) (b sector : Nat) (wr : Bool) : Judged :=
  let s := recallLine (commitEarly s (.mem (32 * sector)) 32) (sector / 2)
  let r := s.region b
  if r.st ≠ .live ∧ r.st ≠ .waiting then .aborted s
  else
    let seq := s.seqs.getD sector []
    let full := (!wr && !NSet.has r.reads sector && decide (256 ≤ r.reads.length))
      || (wr && !NSet.has r.writes sector && decide (64 ≤ r.writes.length))
    if full then .aborted (abortRegion s b .abortCapacity 0)
    else
      let from_ := if wr then (seq.map (·.rid)).filter (· != b)
        else (lastWriter seq).toList.filter (· != b)
      match addEdges b from_ (fallenCycles s b sector wr) with
      | .go s' =>
        let deep := s'.regions.any fun (k, x) => (x.st == .live || x.st == .waiting) && decide (4 < regDepth s' 8 k)
        if deep then .held
        else
          .go (s'.modRegion b fun x => if wr then { x with writes := NSet.ins x.writes sector }
            else { x with reads := NSet.ins x.reads sector })
      | j => j

/-- The sector of a page that runs remote, by its address (R254, R404; log 33). -/
def remoteSector (part va : Nat) : Nat := 2 ^ 60 + part * 2 ^ 46 + va / 32

def isRemote (sector : Nat) : Bool := sector.testBit 60

/-- The address of such a sector. -/
def remoteVa (sector : Nat) : Nat := sector % 2 ^ 46 * 32

/-- A plain write to a granule of a page that runs remote sets out (R264, R404). -/
def sendRemoteWrite (s : State) (part : Nat) (who : Asker) (g : Nat) (bs : List Byte) (pmask : Nat) : State :=
  sendHmem (plainAbort s (remoteSector part g)) part who true true g g 32 0 [] bs pmask

/-- Append an entry to a sector's sequence. -/
def seqAdd (s : State) (sector : Nat) (e : SeqEntry) : State :=
  { s with seqs := s.seqs.put sector (s.seqs.getD sector [] ++ [e]) }

/-- A region read at a judged place: its bytes, and its entry. -/
def regionRead (s : State) (b pa n va : Nat) : State × List Byte :=
  (seqAdd s (pa / 32) ⟨b, none, va⟩, seqBytes s pa n)

/-- A region write at a judged place (R258). -/
def regionWrite (s : State) (b pa : Nat) (bs : List Byte) (va : Nat) : State :=
  seqAdd s (pa / 32) ⟨b, some (bs.mapIdx fun i c => (pa % 32 + i, c)), va⟩

/-- Regions of a partition that have written through an address that meets a condition. -/
def writersAt (s : State) (part : Nat) (f : Nat → Bool) : List Nat :=
  ((s.seqs.flatMap fun (_, l) => (l.filter fun e => e.wrote.isSome && f e.va).map (·.rid)).eraseDups).filter fun r =>
    s.strandPart (s.region r).holder == part

/-- Region writes that a table change leaves without their place fall with their region (log 73). -/
def abortWriters (s : State) (part : Nat) (f : Nat → Bool) (detail : Nat) : State :=
  (writersAt s part f).foldl (fun s r => if pendingRegion s r then abortRegion s r .abortExplicit detail else s) s

/-- An atomic of a strand of this device. -/
def Atom.isOf (a : Atom) (id : Nat) : Bool := a.pkt.isNone && a.strand == id

/-- The address of the atomic that waits at a home slice. -/
def Atom.va (s : State) (a : Atom) : Option Nat :=
  if a.pkt.isSome then none else ((s.strand a.strand).pend.find? fun p => p.id == a.k).map (·.va)

/-- A strand's access goes back to its issue: nothing of it has been performed. -/
def Strand.withdraw (t : Strand) : Strand := { t with pend := [], run := if t.run = .stall .atomic then .ready else t.run }

/-- Atomics of a partition that wait at a home slice, translated from addresses that meet a condition, issue again: a change of
tables, or of the state of a buffer, comes before them (R109, R281). -/
def reissueAtoms (s : State) (part : Nat) (f : Nat → Bool) : State :=
  s.atoms.foldl (fun s a =>
    if a.part = part ∧ (a.va s).any f then { s with atoms := s.atoms.erase a }.modStrand a.strand Strand.withdraw else s) s

/-- The last write of each byte of a sector by a region. -/
def lastWrites (s : State) (rid sector : Nat) : Tbl Byte :=
  (s.seqs.getD sector []).foldl (fun m e =>
    if e.rid = rid then (e.wrote.getD []).foldl (fun m (k, v) => Tbl.put m k v) m else m) []

/-- A region write to a page that runs remote goes to the host as a put of its holder (R404; log 33). -/
def sendRemotePut (id : Nat) (s : State) (sector : Nat) (bs : List Byte) : State :=
  let va := remoteVa sector
  let s := s.modStrand id fun t => { t with puts := t.puts ++ [⟨2 ^ 32 + s.hostTag % 2 ^ 32, va⟩] }
  sendHmem s (s.strandPart id) (.put id) true true va va 32 0 [] bs 0

/-- The commit of a region: its last write of each byte becomes the committed value, all at one moment (R266). -/
def commitRegion (s : State) (rid : Nat) : State :=
  let r := s.region rid
  let out := (r.writes.filter isRemote).map fun sector => (sector, (lastWrites s rid sector).map (·.2))
  let s := (r.writes.filter fun n => !isRemote n).foldl (fun s sector =>
    let w := lastWrites s rid sector
    let s := if w.length = 32 then setPoison (.mem (32 * sector)) false s else s
    { s with hbm := w.foldl (fun m (k, v) => m.put (32 * sector + k) v) s.hbm }) s
  out.foldl (fun s (sector, bs) => sendRemotePut r.holder s sector bs) (endRegion s rid 0 0)

end Sys2Proof.Machine
end

