-- ==== Sys2Proof/Machine/Tiles.lean ====
section
/-! DEFINITION. Tile buffers as their banks keep them (09 R242 to R244), and releases (04 R92, R95, R106), which earlier rows come
before. -/

namespace Sys2Proof.Machine

/-! ## Tile buffers -/

/-- A handle's fields (R68). -/
def hKind (h : Word) : Nat := wbits h 60 60
def hGen (h : Word) : Nat := wbits h 59 52
def hTag (h : Word) : Nat := wbits h 51 49
def hBuf (h : Word) : Nat := wbits h 48 42
def hCore (h : Word) : Nat := wbits h 41 37
def hCluster (h : Word) : Nat := wbits h 36 32
def hMask (h : Word) : Nat := wbits h 31 0

def mkHandle (kind gen tag buf core cluster mask : Nat) : Word :=
  BitVec.ofNat 64 (kind * 2 ^ 60 + gen * 2 ^ 52 + tag * 2 ^ 49 + buf * 2 ^ 42 + core * 2 ^ 37 + cluster * 2 ^ 32 + mask)

/-- The position a handle names, if it is well-formed (R69): reserved bits, BUF in the partition's positions, KIND. -/
def handlePos (h : Word) : Option Nat :=
  let idx := hCore h
  let chis := padIsChisel idx
  if wbits h 63 61 ≠ 0 ∨ 23 < idx ∨ (if chis then hKind h ≠ 1 else hKind h ≠ 0 ∨ 48 ≤ hBuf h) then none
  else some (128 * (24 * hCluster h + idx) + hBuf h)

/-- The handle of a position as its descriptor stands. -/
def posHandle (d : Desc) (pos tag : Nat) : Word :=
  let pn := pos / 128
  mkHandle (if padIsChisel (pn % 24) then 1 else 0) d.gen tag (pos % 128) (pn % 24) (pn / 24) d.mask

/-- A handle enters its context's queue; a FROZEN context becomes READY (R50). -/
def queueHandle (s : State) (ctx : Nat) (h : Word) : State :=
  s.modCtx ctx fun c => { c with queue := c.queue ++ [h], run := if c.run = .frozen then .ready else c.run }

/-- A sealed buffer's handle is posted (R242): to the queue, else the post list, else the bank retries; behind handles that have
been waiting for the same context, since these enter in seal order. -/
def postHandle (s : State) (pos : Nat) : State :=
  let d := s.desc pos
  let c := s.ctx d.ctx
  let ch := ctxChisel d.ctx
  let h := posHandle d pos (d.ctx % 8)
  if c.run = .free ∨ c.task ≠ d.task then s.setDesc pos { d with st := .unposted }
  else
    let s := s.setDesc pos { d with st := .posted }
    let retrying := (s.chisel ch).retry.any fun r => (s.desc r.1).ctx == d.ctx
    let waiting := retrying || (s.chisel ch).posts.any fun p => p.1 == d.ctx
    if c.queue.length < 16 ∧ !waiting then queueHandle s d.ctx h
    else if (s.chisel ch).posts.length < 64 ∧ !retrying then s.modChisel ch fun x => { x with posts := x.posts ++ [(d.ctx, h)] }
    else s.modChisel ch fun x => { x with retry := x.retry ++ [(pos, s.cycle + 64, h)] }

/-- An OPEN buffer seals (R70, R242). -/
def sealPos (s : State) (pos : Nat) : State :=
  postHandle (s.modDesc pos fun d => { d with st := .posted, timer := none }) pos

/-- A row write is applied at its bank (R71, R243). -/
def applyRow (s : State) (pos row : Nat) (bs : List Byte) (pois : Bool) : State :=
  let base := posBase pos + 64 * row
  let s := markedWrite s (.spad base) (bs.take 32) pois
  let s := markedWrite s (.spad (base + 32)) (bs.drop 32) pois
  let d := s.desc pos
  let d := { d with counter := d.counter + 1, mask := d.mask ||| 2 ^ row }
  let s := s.setDesc pos d
  if d.counter = d.count then sealPos s pos else s

/-- The target bank's answer to a remote row (R244); a partition that is saved or restored takes none (R381). -/
def remoteRow (s : State) (part : Nat) (h : Word) (row : Nat) (bs : List Byte) (pois : Bool) : State × Code :=
  match handlePos h with
  | none => (s, .refused)
  | some pos =>
    let d := s.desc pos
    if hGen h ≠ d.gen ∨ d.st ≠ .opened ∨ !s.partHas part (hCluster h) ∨ (s.part part).saving then (s, .refused)
    else (applyRow s pos row bs pois, .ok)

/-! ## Rows under way -/

/-- An outstanding result of a strand has its value (R142). -/
def answerPend (s : State) (id k : Nat) (v : Deliver) : State :=
  s.modStrand id fun t => { t with pend := t.pend.map fun p => if p.id = k then { p with act := .ready v } else p }

/-- The status of an outstanding instruction that awaits an answer (R45). -/
def answerStatus (s : State) (id k : Nat) (c : Code) : State :=
  match (s.strand id).pend.find? fun p => p.id == k with
  | some ⟨_, _, .awaiting d, _⟩ => answerPend s id k { regs := [(d, status c)], status := some (status c) }
  | _ => s

/-- A row reaches its bank, and its strand gets the status (R244). -/
def landRow (s : State) (f : FlyRow) : State :=
  let (s, c) := remoteRow s f.part f.handle f.row f.bytes false
  answerStatus { s with rows := s.rows.erase f } f.strand f.k c

/-- The rows of a strand that are under way reach their banks, in order. -/
def landRows (s : State) (id : Nat) : State := (s.rows.filter fun f => f.strand == id).foldl landRow s

/-! ## Releases -/

/-- A release at a scope (R92, R95, R106): earlier loads have been performed and earlier rows have reached their banks; at rectangle
scope the stores that the strand may have read become visible inside it; at device and system scope they commit; at strand and core
scope nothing need leave the core. -/
def release (s : State) (id : Nat) (sc : Scope) (rect : Nat) : State :=
  let core := strandCore id
  let part := s.strandPart id
  let s := landRows (fixLoads s id fun _ _ => true) id
  let all (s : State) : State := flushCore (commitSeen s part core) core
  match sc with
  | .strand => s
  | .core => s
  | .rect =>
    if rectHas s part rect core then
      s.cores.foldl (fun s (n, _) => showStores s n rect (if n = core then fun _ => true else seenEarly s part core)) s
    else all s
  | .device => all s
  | .system => all s

/-- What the home orders before a region's commit (R264, R266): the commit is a release at device scope, and stores that a
rectangle release has made visible commit before any other write of their bytes. Either may abort the region. -/
def beforeCommit (s : State) (rid : Nat) : State :=
  let s := release s (s.region rid).holder .device 0
  (s.region rid).writes.foldl (fun s sector => commitEarly s (.mem (32 * sector)) 32) s

end Sys2Proof.Machine
end

