-- ==== Sys2Proof/Machine/Translate.lean ====
section
/-! DEFINITION. Translation (18 R388 to R407): the walk of a partition's tree, leaves and their permissions,
TLB entries, surface records, swaps and host-shared pages. -/

namespace Sys2Proof.Machine

/-! ## Leaves -/

def leafSz (e : Nat) : Nat := bitsOf e 15 14
def leafKind (e : Nat) : Nat := bitsOf e 7 6
def leafAddr (e : Nat) : Nat := bitsOf e 55 16 * 256
def leafCmp (e : Nat) : Bool := e.testBit 8
/-- log2 of the page size of SZ. -/
def szBits : Nat → Nat
  | 0 => 16 | 1 => 21 | _ => 29

/-- Level of a leaf by SZ (R388). -/
def szLevel (sz : Nat) : Nat := sz

/-- A frame lies in a range of its KIND and belongs to the partition (R59, R390, R410). -/
def frameOk (s : State) (part kind pa bits : Nat) : Bool :=
  let last := pa + 2 ^ bits - 1
  let inTier := match kind with
    | 0 => isNear pa && isNear last
    | 1 => isFar pa && isFar last
    | _ => isNear pa && isNear last
  inTier && (List.range (min 512 (2 ^ (bits - 16)))).all fun i => s.ownsFrame part (pa + 65536 * i)

/-- The key of a host-shared page's record: partition and page. -/
def pageKey (part va : Nat) : Nat := part * 2 ^ 48 + va / 65536

/-- A host-shared page is DEVICE-owned and not moving, so that its leaf names its frame (R401). -/
def pageHere (s : State) (part va : Nat) : Bool := ((s.pages.find (pageKey part va)).map fun p => p.device && p.moving.isNone).getD false

/-- A near-tier address in a partition's own frames (R59, R410). -/
def ownNear (s : State) (part pa : Nat) : Bool := isNear pa && s.ownsFrame part pa

/-- A leaf entry that R390 and R410 call malformed at a level, for the page of an address. -/
def leafMalformed (s : State) (part va e lv : Nat) : Bool :=
  let sz := leafSz e
  let kind := leafKind e
  bitsOf e 63 56 != 0 || bitsOf e 13 9 != 0 || kind == 3 || lv == 3 || sz == 3 || szLevel sz != lv
    || (if leafCmp e then sz != 0 || kind != 0 || !ownNear s part (leafAddr e)
        else if kind == 2 then sz != 0 || leafAddr e % 65536 != 0 || (pageHere s part va && !ownNear s part (leafAddr e))
        else leafAddr e % 2 ^ szBits sz != 0 || !frameOk s part kind (leafAddr e) (szBits sz))

/-- Size of a table of a level (R388). -/
def tableSize : Nat → Nat
  | 3 => 65536 | 2 => 4096 | 1 => 2048 | _ => 256

/-- A table of a level is aligned to its size and lies in the partition's own near frames (R388, R410). -/
def tableOk (s : State) (part t lv : Nat) : Bool := t % tableSize lv == 0 && ownNear s part t

def ptrMalformed (s : State) (part e lv : Nat) : Bool :=
  bitsOf e 63 56 != 0 || lv == 0 || bitsOf e 15 2 != 0 || !tableOk s part (leafAddr e) (lv - 1)

/-- VA bits that index a level (R388). -/
def levelIndex (va : Nat) : Nat → Nat
  | 3 => bitsOf va 50 38 | 2 => bitsOf va 37 29 | 1 => bitsOf va 28 21 | _ => bitsOf va 20 16

/-- The result of a walk: a leaf with its level, nothing, or a malformed entry at a physical address. -/
inductive Walked where
  | leaf (e lv pa : Nat)
  | none
  | malformed (pa : Nat)
  deriving DecidableEq, Repr

/-- Every update-only line in a span of memory is recalled (R100). -/
def recallSpan (s : State) (pa n : Nat) : State :=
  (List.range ((pa + n + 63) / 64 - pa / 64)).foldl (fun s i => recallLine s (pa / 64 + i)) s

/-- The committed 8 bytes at a physical address; update-only partials count as combined (R100, R390). -/
def readPhys (s : State) (pa : Nat) : Nat := (recallLine s (pa / 64)).hbm.num pa 8

/-- Walk from a table of a level (R390). -/
def walkFrom (s : State) (part va t : Nat) : Nat → Walked
  | 0 =>
    let pa := t + 8 * levelIndex va 0
    let e := readPhys s pa
    if !e.testBit 0 then .none
    else if e.testBit 1 then (if leafMalformed s part va e 0 then .malformed pa else .leaf e 0 pa)
    else .malformed pa
  | lv + 1 =>
    let pa := t + 8 * levelIndex va (lv + 1)
    let e := readPhys s pa
    if !e.testBit 0 then .none
    else if e.testBit 1 then (if leafMalformed s part va e (lv + 1) then .malformed pa else .leaf e (lv + 1) pa)
    else if ptrMalformed s part e (lv + 1) then .malformed pa
    else walkFrom s part va (leafAddr e) lv

/-- The walk of a partition's tree (R390). A PTROOT outside the partition's own frames counts as a malformed entry (R410). -/
def walk (s : State) (part va : Nat) : Walked :=
  let t := (s.part part).ptroot
  if tableOk s part t 3 then walkFrom s part va t 3 else .malformed t

/-- An access of the device's own agents has faulted: a malformed entry on its walk is recorded (R390, R455). -/
def noteWalk (s : State) (part die cluster va : Nat) (c : Cause) : State :=
  match c, walk s part va with
  | .page, .malformed _ => if 8 ≤ window va then s else strataEvent s die 8 cluster 0 va 0
  | _, _ => s

/-- The die of the host port and the fabric (R455), whose walks the model records there (log 87). -/
def ioDie : Nat := 4

/-- Through a swap an access to a line that has moved goes to the page's new frame (R399). -/
def swapFix (s : State) (pa : Nat) : Nat :=
  match s.swaps.find? fun (_, w) => pa / 65536 == w.near / 65536 || pa / 65536 == w.far / 65536 with
  | none => pa
  | some (_, w) =>
    if pa % 65536 / 64 < w.next then (if pa / 65536 = w.near / 65536 then w.far + pa % 65536 else w.near + pa % 65536)
    else pa

/-- The surface record of a CMP leaf (R405): compressed, frame, bitmap, data, count; none when malformed. What it names lies in the
partition's own frames (R410), its bitmap and its packed granules whole. -/
def surfaceOf (s : State) (part rec_ : Nat) : Option (Bool × Nat × Nat × Nat × Nat) :=
  let bs := (recallLine s (rec_ / 64)).hbm.bytes rec_ 64
  let flags := numAt bs 0 8
  let frame := numAt bs 8 8
  let bm := numAt bs 16 8
  let data := numAt bs 24 8
  let n := numAt bs 32 4
  let own := ownNear s part
  if rec_ % 256 ≠ 0 ∨ !own rec_ ∨ flags / 2 ≠ 0 ∨ (bs.drop 36).any (· != 0) ∨ !own frame ∨ frame % 65536 ≠ 0
      ∨ !own bm ∨ !own (bm + 255) ∨ bm % 32 ≠ 0 ∨ !own data ∨ !own (data + 32 * min n 2048 - min n 1) ∨ data % 32 ≠ 0 then none
  else some (flags.testBit 0, frame, bm, data, n)

/-- The TLB entry of a leaf. -/
def entryOf (s : State) (part va e : Nat) : Entry :=
  let bits := szBits (leafSz e)
  { part := part, base := va / 2 ^ bits * 2 ^ bits, bits := bits, word := e,
    surface := if leafCmp e then surfaceOf s part (leafAddr e) else none }

/-- A page's physical address through an entry (R59, R406): none when the page is compressed or its record malformed. -/
def entryPa (s : State) (e : Entry) (va : Nat) : Option Nat :=
  if leafCmp e.word then
    match e.surface with
    | some (false, frame, _) => some (frame + va % 65536)
    | _ => none
  else some (swapFix s (leafAddr e.word + va % 2 ^ e.bits))

def entryHits (part va : Nat) (e : Entry) : Bool := e.part == part && va / 2 ^ e.bits * 2 ^ e.bits == e.base

/-- Permission bits (R389). -/
def permR : Nat := 4
def permW : Nat := 8
def permX : Nat := 16
def permU : Nat := 32

/-- A leaf grants every needed permission (R394). -/
def grants (e need : Nat) : Bool := e &&& need == need

/-- The decompressed place of a byte (R407). -/
def decompress (s : State) (f : Bool × Nat × Nat × Nat × Nat) (va : Nat) : Option Loc :=
  let (comp, frame, bm, data, n) := f
  if !comp then some (.mem (frame + va % 65536))
  else
    let g := va % 65536 / 32
    let m := (recallSpan s bm 256).hbm
    let bit (i : Nat) : Bool := (m.get (bm + i / 8)).getLsbD (i % 8)
    if !bit g then some .zero
    else
      let j := (List.range g).countP bit
      if n ≤ j then none else some (.mem (data + 32 * j + va % 32))

/-- The backing bytes that a decompressed granule rests on (R407): the bitmap and, where it has one, the granule's data. -/
def backing (s : State) (f : Bool × Nat × Nat × Nat × Nat) (l : Loc) : List (Nat × List Byte) :=
  let (_, _, bm, _, _) := f
  let at_ (pa n : Nat) : Nat × List Byte := (pa, (recallSpan s pa n).hbm.bytes pa n)
  at_ bm 256 :: (match l with
    | .mem pa => [at_ (pa / 32 * 32) 32]
    | _ => [])

/-- Translate through the tree at once, as the device's own agents do, needing the given permissions. -/
def treeAddr (s : State) (part va need : Nat) : Except Cause Loc :=
  if 8 ≤ window va then .error .page
  else
    match walk s part va with
    | .leaf e _ _ =>
      let x := entryOf s part va e
      if leafCmp e ∧ x.surface.isNone then .error .page
      else if !grants e need then .error .perm
      else if leafKind e = 2 ∧ !pageHere s part va then .error .page
      else
        match entryPa s x va with
        | some pa => .ok (.mem pa)
        | none => .error .perm
    | _ => .error .page

def blockBytes (code : Nat) : Nat := 4096 * 2 ^ code

/-- The n-th own frame from a frame upwards (R412). -/
def ownFrame (s : State) (part frame : Nat) : Nat → Nat
  | 0 => frame
  | n + 1 => ownFrame s part (((List.range 512).find? fun i => s.ownsFrame part (frame + 65536 * (i + 1))).elim frame
      fun i => frame + 65536 * (i + 1)) n

/-- The physical base of a block (R412). -/
def blockBase (s : State) (p : Pool) (i : Nat) : Nat :=
  let size := blockBytes p.size
  let b := 65536 / size
  let pos := p.base % 65536 / size + i
  ownFrame s p.part (p.base / 65536 * 65536) (pos / b) + size * (pos % b)

/-- The frame is that of a page that the device owns or that is moving. -/
def pageUses (s : State) (f : Nat) : Bool :=
  s.pages.any fun (_, p) => (p.device || p.moving.isSome) && p.frame / 65536 == f / 65536

/-- A leaf maps a frame, or its surface record, bitmap or packed granules lie in it. -/
def leafUses (s : State) (part f e : Nat) : Bool :=
  let at_ (pa n : Nat) : Bool := overlap pa (max 1 n) f 65536
  if leafCmp e then
    at_ (leafAddr e) 64 || (match surfaceOf s part (leafAddr e) with
      | some (_, frame, bm, data, n) => at_ frame 65536 || at_ bm 256 || at_ data (32 * n)
      | none => false)
  else leafKind e == 0 && at_ (leafAddr e) (2 ^ szBits (leafSz e))

/-- A table of a level lies in a frame, or a leaf below it uses that. -/
def treeUses (s : State) (part f t : Nat) : Nat → Bool
  | 0 => overlap t 256 f 65536 || (List.range 32).any fun i =>
    let e := readPhys s (t + 8 * i)
    e.testBit 0 && e.testBit 1 && leafUses s part f e
  | lv + 1 => overlap t (tableSize (lv + 1)) f 65536 || (List.range (tableSize (lv + 1) / 8)).any fun i =>
    let e := readPhys s (t + 8 * i)
    e.testBit 0 && (if e.testBit 1 then leafUses s part f e
      else !ptrMalformed s part e (lv + 1) && treeUses s part f (leafAddr e) lv)

/-- A block of a partition's pools lies in a frame. -/
def poolUses (s : State) (part f : Nat) : Bool :=
  s.pools.any fun (_, p) => p.part == part && (List.range p.count).any fun i => overlap (blockBase s p i) (blockBytes p.size) f 65536

/-- A near frame of a partition that nothing uses (R403): no page that the device owns or that is moving, no table, leaf or surface record of
its tree, no block of its pools, and not its save area. -/
def frameFree (s : State) (part f : Nat) : Bool :=
  let x := s.part part
  ownNear s part f && !pageUses s f && !treeUses s part f x.ptroot 3 && !poolUses s part f
    && !(decide (x.savebase ≤ f) && x.savebase != 0 && decide (f < x.savebase + 2 ^ 29))

/-- An agent of the device meets a host-shared page that is not here: the page is asked for, and the agent comes again (R402). -/
def pageAway (s : State) (part va : Nat) : Bool :=
  match walk s part va with
  | .leaf e _ _ => leafKind e == 2 && !pageHere s part va
  | _ => false

/-- The record of a host-shared page; a page without one is the host's (log 32). -/
def State.page (s : State) (part va : Nat) : Page := s.pages.getD (pageKey part va) { device := false }
def State.setPage (s : State) (part va : Nat) (p : Page) : State := { s with pages := s.pages.put (pageKey part va) p }

/-- The device asks for a page (R402). -/
def askPage (s : State) (part va : Nat) : State := s.setPage part va { s.page part va with waiting := true }

/-- Insert an entry as the most recently used, dropping the least recently used of a full TLB (R392). -/
def tlbInsert (cap : Nat) (l : List Entry) (e : Entry) : List Entry :=
  let l := if cap ≤ l.length then l.tail else l
  l ++ [e]

/-- Look an address up, making the entry the most recently used. -/
def tlbLook (l : List Entry) (part va : Nat) : Option (Entry × List Entry) :=
  match l.find? (entryHits part va) with
  | some e => some (e, l.erase e ++ [e])
  | none => none

/-- Drop entries of a partition that meet a condition from every TLB (R396); the number dropped. -/
def tlbDropAll (s : State) (part : Nat) (f : Entry → Bool) : State × Nat :=
  let g (e : Entry) : Bool := e.part == part && f e
  let n := (s.cores.map fun (_, c) => (c.tlb.filter g).length).sum + (s.chisels.map fun (_, c) => (c.tlb.filter g).length).sum
    + (s.clusters.map fun (_, c) => (c.tlb.filter g).length).sum
  ({ s with cores := s.cores.map fun (k, c) => (k, { c with tlb := c.tlb.filter fun e => !g e }),
            chisels := s.chisels.map fun (k, c) => (k, { c with tlb := c.tlb.filter fun e => !g e }),
            clusters := s.clusters.map fun (k, c) => (k, { c with tlb := c.tlb.filter fun e => !g e }) }, n)

/-- What partitions have under way through addresses is settled (R281): buffered stores commit, outstanding loads are performed,
atomics that wait at a home slice are translated afresh. -/
def settleThrough (s : State) (part : Nat) (f : Nat → Bool) : State :=
  reissueAtoms (fixThrough (flushPart s part fun b => f b.va) part f) part f

/-- The procedure of R281 for translations of a partition: what was made through them is settled, then they are dropped. -/
def dropTranslations (s : State) (part : Nat) (f : Entry → Bool) (through : Nat → Bool) : State × Nat :=
  tlbDropAll (settleThrough s part through) part f

/-! ## The sequence aperture -/

/-- A sequence-aperture address (R82): PERM for another partition's Quarry, PAGE for no such byte. -/
def seqAddr (s : State) (part va : Nat) : Except Cause (Nat × Nat × Nat) :=
  let id := bitsOf va 47 28
  let b := bitsOf va 27 16
  let f := va % 65536
  if !s.ownsQuarry part (id / 2 ^ 17) then .error .perm
  else
    match s.sequences.find id with
    | none => .error .page
    | some q =>
      match q.blocks[b]?, s.pools.find q.pool with
      | some blk, some p =>
        if f < blockBytes p.size then .ok (id, b, blockBase s p blk + f) else .error .page
      | _, _ => .error .page

/-- What goes through addresses of a partition whose place is about to change is settled first (R281), and region writes not
yet committed fall (log 73). -/
def leaveOldPlace (s : State) (part : Nat) (f : Nat → Bool) : State := abortWriters (settleThrough s part f) part f 0

/-- An element has been translated from such an address, a source of the table aperture among them, and is still away. -/
def EngOp.awayFrom (o : EngOp) (f : Nat → Bool) : Bool :=
  let through (va : Nat) : Bool := f va || (window va == 10 && f (va % 2 ^ 48))
  o.away && (o.kind == .gather || o.kind == .scatter || through (o.a + 32 * o.next) || (o.kind == .copy && through (o.b + 32 * o.next)))

/-- What a partition has still under way through such addresses, which a change of their place waits for (R281, R397): engine elements that
are away, of the operations asked about, and stores to a page that runs remote. -/
def stillThrough (s : State) (part : Nat) (f : Nat → Bool) (which : EngOp → Bool) : Bool :=
  s.ops.any (fun (_, o) => o.part == part && which o && o.awayFrom f)
    || s.strands.any (fun (id, t) => s.strandPart id == part && t.pend.any fun p =>
      match p.act with
      | .hostStore u _ _ => f u
      | _ => false)

/-- Addresses of the sequence aperture that lie in an entry of a sequence. -/
def inEntry (id b va : Nat) : Bool := window va == 14 && bitsOf va 47 16 == id * 4096 + b

/-- A copy-on-write at an entry waits for what reads through it and is still away (R281), other than elements of the operation itself. -/
def copyWaits (s : State) (id b : Nat) (which : EngOp → Bool) : Bool :=
  match s.sequences.find id with
  | none => false
  | some q =>
    match q.blocks[b]?, s.pools.find q.pool with
    | some blk, some p => decide (1 < p.refs.getD blk 0) && !p.free.isEmpty && stillThrough s p.part (inEntry id b) which
    | _, _ => false

/-- Copy-on-write (R280): a write to a block whose count is above 1 goes to a fresh copy. None: the pool is empty. -/
def copyOnWrite (s : State) (id b : Nat) : Option State :=
  match s.sequences.find id with
  | none => some s
  | some q =>
    match q.blocks[b]?, s.pools.find q.pool with
    | some blk, some p =>
      if (p.refs.getD blk 0) ≤ 1 then some s
      else
        match p.free with
        | [] => none
        | fresh :: rest =>
          let size := blockBytes p.size
          let src := blockBase s p blk
          let dst := blockBase s p fresh
          let s := leaveOldPlace s p.part (inEntry id b)
          let s := (List.range (size / 32)).foldl (fun s g =>
            let pois := isPoisoned s (.mem (src + 32 * g))
            let s := recallLine s ((src + 32 * g) / 64)
            markedWrite s (.mem (dst + 32 * g)) (s.hbm.bytes (src + 32 * g) 32) pois) s
          let p := { p with free := rest, refs := (p.refs.put fresh 1).put blk (p.refs.getD blk 0 - 1) }
          some { s with pools := s.pools.put q.pool p,
                        sequences := s.sequences.put id { q with blocks := q.blocks.set b fresh } }
    | _, _ => some s

end Sys2Proof.Machine
end

