-- ==== Sys2Proof/Machine/Tasks.lean ====
section
/-! DEFINITION. What instructions share about tasks: waits and their completion (02 R43), groups and barriers (02 R38,
R39; 08 R215 to R220), mailboxes and fault reports (02 R47, R48; 08 R212; 19 R421), the end of a task (07 R196;
04 R98) and of a tile task (12 R297), tile-buffer seals (09 R242). -/

namespace Sys2Proof.Machine

/-! ## Waits -/

/-- What a BWAIT finds (R219): an immediate status, or none to wait. -/
def bwaitResult (s : State) (t : Strand) (bid : Nat) : Option Code :=
  let b := s.barrier bid
  match t.arrival with
  | none => some .invalid
  | some (id, inc, ph) =>
    if id ≠ bid then some .invalid
    else if !b.live then some .invalid
    else if inc ≠ b.inc then some .reinit
    else if b.phase ≠ ph then some .ok
    else none

/-- The word of a completed RECV (R214). -/
def recvWord (m : Message) : Word := statusWord .ok 0 (m.kind + 256 * m.sender)

/-- What a JOIN reports (R41), once every child has ended. -/
def joinWord (ns : List Notice) : Word :=
  match ns.find? fun n => n.how != .ok with
  | none => statusWord .ok 0 ns.length
  | some n =>
    match n.how with
    | .fault c => statusWord .fault c n.child
    | _ => statusWord .killed 0 n.child

/-- Complete a strand's wait if its condition holds (R31); a SUSPENDED strand's wait is settled at resume, and an FWAIT that an
ENGINE trap is to end does not complete (R229). -/
def settleWait (s : State) (id : Nat) : State :=
  let t := s.strand id
  if t.halted then s
  else
    match t.run with
    | .wait (.recv d) _ =>
      match t.mailbox with
      | m :: rest =>
        let regs := (List.range 4).map fun i => (GReg.plus d i, m.words.getD i 0)
        s.setStrand id ({ t with mailbox := rest }.finishWait regs (recvWord m))
      | [] => s
    | .wait (.bwait d bid) _ =>
      match bwaitResult s t bid with
      | some c => s.setStrand id (t.finishWait [(d, status c)] (status c))
      | none => s
    | .wait (.join d) _ =>
      if t.children = 0 then
        s.setStrand id ({ t with notices := [] }.finishWait [(d, joinWord t.notices)] (joinWord t.notices))
      else s
    | .wait (.fre _) _ =>
      match t.region with
      | some rid => if (s.region rid).st = .aborted then finishFre s rid else s
      | none => s
    | .wait (.fwait k) _ =>
      if NSet.has t.pendTok k ∨ (!t.reports.isEmpty ∧ !t.intrap) then s
      else s.setStrand id (t.finishWait [] (t.read (.g (Fin.ofNat 16 k))))
    | _ => s

/-! ## Groups and barriers -/

/-- The live membership of a group (R39). -/
def groupSize (s : State) (gid : Nat) : Nat := ((s.groups.find gid).map fun g => g.members.length).getD 0

/-- The strands waiting on a barrier. -/
def barrierWaiters (s : State) (bid : Nat) : List Nat :=
  (s.strands.filter fun (_, t) =>
    match t.run with
    | .wait (.bwait _ b) _ => b == bid
    | _ => false).map (·.1)

/-- Settle every strand waiting on a barrier. -/
def wakeBarrier (s : State) (bid : Nat) : State := (barrierWaiters s bid).foldl settleWait s

/-- The current phase completes (R218). -/
def completePhase (s : State) (bid : Nat) : State :=
  let b := s.barrier bid
  wakeBarrier (s.setBarrier bid { b with phase := (b.phase + 1) % 2 ^ 32, arrivals := 0 }) bid

/-- A leave lowers what the group's barriers need (R39). -/
def leavePhases (s : State) (gid : Nat) : State :=
  (s.barriers.filter fun (_, b) => b.live && b.gid == some gid).foldl (fun s (bid, b) =>
    if groupSize s gid ≤ b.arrivals then completePhase s bid else s) s

/-- Close the open chain instances whose arrivals meet the membership (R239). -/
def closeChains (s : State) (gid : Nat) : State :=
  { s with chains := s.chains.map fun (k, c) =>
      if c.gid = gid ∧ !c.closed ∧ groupSize s gid ≤ c.members.length then
        (k, { c with closed := true, members := c.members.mergeSort fun a b => decide (a.1 ≤ b.1) })
      else (k, c) }

/-- A strand leaves a group (R38): the group dissolves at its last leave. -/
def leaveGroup (s : State) (id gid : Nat) : State :=
  match s.groups.find gid with
  | none => s
  | some g =>
    if NSet.has g.members id then
      let m := NSet.rem g.members id
      let s := { s with groups := if m.isEmpty then s.groups.del gid else s.groups.put gid { g with members := m } }
      let s := s.modStrand id fun t => { t with groups := NSet.rem t.groups gid }
      closeChains (leavePhases s gid) gid
    else s

/-! ## Reports and mailboxes -/

/-- The four words of a report (R48). -/
def reportWords (r : Report) : List Word :=
  [statusWord .fault r.cause 0, BitVec.ofNat 64 (r.task + 2 ^ 32 * r.kind), BitVec.ofNat 64 r.addr, BitVec.ofNat 64 r.last]

def launchKey (part lid : Nat) : Nat := part * 2 ^ 32 + lid

def modLaunch (s : State) (key : Nat) (f : Launch → Launch) : State :=
  match s.launches.find key with
  | some l => { s with launches := s.launches.put key (f l) }
  | none => s

/-- Write bytes at a user address of a partition in 32-byte steps at most; none when a page refuses (R394, R421). -/
def userWrite (s : State) (part va : Nat) (bs : List Byte) : Option State :=
  match treeAddr s part va (permR + permW + permU) with
  | .ok l => some (plainWrite s l bs)
  | .error _ => none

def userNum (s : State) (part va n : Nat) : Option Nat :=
  match treeAddr s part va (permR + permW + permU) with
  | .ok l => some (ofLeBytes (rawRead (recallLoc (commitEarly s l n) l) l n))
  | .error _ => none

/-- A page of a launch fault mailbox that the next report needs and that is not here. -/
def boxAway (s : State) (part : Nat) (l : Launch) : Option Nat :=
  let n := (userNum s part l.fmbox 8).getD 0
  (l.fmbox :: if n < l.fmcap then [l.fmbox + 32 + 32 * n] else [l.fmbox + 8]).find? (pageAway s part)

/-- A report goes to the launch fault mailbox (R421). It waits in its cluster while a host-shared page of the mailbox is away. -/
def launchReport (s : State) (cluster : Nat) (r : Report) : State :=
  match s.launches.find r.launch with
  | none => s
  | some l =>
    let lose (va : Nat) : State :=
      noteWalk (modLaunch s r.launch fun l => { l with nlost := l.nlost + 1 }) r.part (dieOf cluster) cluster va .page
    match if l.fmbox = 0 then none else boxAway s r.part l with
    | some va => (askPage s r.part va).modCluster cluster fun c => { c with reports := c.reports ++ [{ r with box := true }] }
    | none =>
    if l.fmbox = 0 then modLaunch s r.launch fun l => { l with dropped := l.dropped + 1 }
    else
      match userNum s r.part l.fmbox 8 with
      | none => lose l.fmbox
      | some n =>
        let slot := l.fmbox + 32 + 32 * n
        if n = l.fmcap then
          match (userNum s r.part (l.fmbox + 8) 8).bind fun d => userWrite s r.part (l.fmbox + 8) (leBytes 8 (d + 1)) with
          | some s' => s'
          | none => lose (l.fmbox + 8)
        else
          match (userWrite s r.part slot ((reportWords r).flatMap (wordBytes 8))).bind fun s' =>
              userWrite s' r.part l.fmbox (leBytes 8 (n + 1)) with
          | some s' => s'
          | none => lose slot

/-- The strand bound to a task (R212): BOUND, STAGING or running. -/
def taskStrand (s : State) (part id : Nat) : Option Nat :=
  match s.tasks.find id with
  | some t =>
    if t.part ≠ part then none
    else
      match t.st with
      | .staging k => some k
      | .running k => some k
      | _ => none
  | none => none

/-- Enqueue a message; none when the mailbox is full (R212). A waiting RECV takes it. -/
def enqueue (s : State) (id : Nat) (m : Message) : Option State :=
  let t := s.strand id
  if 16 ≤ t.mailbox.length then none
  else some (settleWait (s.setStrand id { t with mailbox := t.mailbox ++ [m] }) id)

/-- A report goes to its sink, or waits in the cluster's queue behind those that wait already, or goes to the launch fault mailbox
(R47). -/
def sinkReport (s : State) (cluster : Nat) (r : Report) : State :=
  match s.tasks.find r.sink with
  | none => launchReport s cluster r
  | some t =>
    if t.part ≠ r.part then launchReport s cluster r
    else
      let wait : State :=
        if 256 ≤ (s.cluster cluster).reports.length then launchReport s cluster r
        else s.modCluster cluster fun c => { c with reports := c.reports ++ [r] }
      let behind : Bool := (s.cluster cluster).reports.any fun q => q.sink == r.sink && !q.box
      match taskStrand s r.part r.sink with
      | none => wait
      | some id => if behind then wait else (enqueue s id ⟨2, r.task, reportWords r⟩).getD wait

/-- Reports still waiting for a sink that ends go to the launch fault mailbox (R47). -/
def flushReports (s : State) (sink : Nat) : State :=
  s.clusters.foldl (fun s (k, c) =>
    let mine (r : Report) : Bool := r.sink == sink && !r.box
    (c.reports.filter mine).foldl (fun s r => launchReport s k r)
      (s.setCluster k { (s.cluster k) with reports := (s.cluster k).reports.filter fun r => !mine r })) s

/-- The launch of a strand's task. -/
def strandLaunch (s : State) (id : Nat) : Nat := ((s.tasks.find (s.strand id).task).map (·.launch)).getD 0

/-! ## Ends -/

/-- Count an end in its launch (R416, R429). -/
def countEnd (s : State) (launch : Nat) (how : Ended) : State :=
  modLaunch s launch fun l =>
    { l with live := l.live - 1, nfault := (match how with
        | .fault _ => l.nfault + 1
        | _ => l.nfault), nkill := if how = .killed then l.nkill + 1 else l.nkill }

/-- The end notice of a task sets out for its parent (R41); then the task is no longer live. -/
def retireTask (s : State) (tid : Nat) (how : Ended) : State :=
  match s.tasks.find tid with
  | none => s
  | some t =>
    let s := { s with tasks := s.tasks.del tid }
    let s := if (s.tasks.find t.parent).isSome then { s with notes := s.notes ++ [(t.parent, ⟨tid, how⟩)] } else s
    flushReports (countEnd s t.launch how) tid

/-- A task on a strand ends (R196 steps 2 to 5; R98): release, region, groups, notices, FREE. `detail` is the DETAIL of a
region's abort. Unread fault reports go to the launch fault mailbox, that of the ending task's launch, other messages are dropped (R214);
an ENGINE report that the strand still holds goes to its sink, which this task is no longer (R47; log 94). An atomic of the strand that
stands at its home slice is not performed (log 93). -/
def endTask (s : State) (id : Nat) (how : Ended) (detail : Nat) : State :=
  let s := release s id .device 0
  let s := abortHeld s id .abortExplicit detail
  let s := match (s.strand id).region with
    | some r => endRegion s r (s.region r).code (s.region r).detail
    | none => s
  let s := (s.strand id).groups.foldl (fun s g => leaveGroup s id g) s
  let t := s.strand id
  let part := s.strandPart id
  let launch := strandLaunch s id
  let cl := strandCluster id
  let s := s.setStrand id { t with run := .free, halted := false, killDue := false, task := 0, cands := [], frame := none,
                                   trapFrame := none, windows := [.replicate 16 0], depth := 1, intrap := false, priv := false,
                                   fstat := 0, owed := false, got := [], withdrawn := none, winMove := none, skip := false,
                                   pend := [], pendTok := [], reports := [], timerDue := false, preemptDue := false, mailbox := [], groups := [], arrival := none, notices := [],
                                   children := 0, stimer := 0, yieldUntil := 0, fillNone := none,
                                   puts := [], lostPut := none, tokLatch := false }
  let s := { s with atoms := s.atoms.filter fun a => !a.isOf id }
  let s := t.reports.foldl (fun s r =>
    (if r.sink = t.task then launchReport else sinkReport) s cl ⟨r.inner, t.task, 1, r.addr, r.elem, r.sink, part, launch, false⟩) s
  let s := (t.mailbox.filter fun m => m.kind == 2).foldl (fun s m =>
    launchReport s cl ⟨wbits (m.words.getD 0 0) 15 8, m.sender, wbits (m.words.getD 1 0) 39 32, (m.words.getD 2 0).toNat,
      (m.words.getD 3 0).toNat, 0, part, launch, false⟩) s
  retireTask s t.task how

/-- A task ends with FAULT and its report of kind 2 (R47, R365, R371). -/
def faultTask (s : State) (id cause addr pc : Nat) : State :=
  let t := s.strand id
  let r : Report := ⟨cause, t.task, 2, addr, pc, t.taskSink.toNat % 2 ^ 32, s.strandPart id, strandLaunch s id, false⟩
  sinkReport (endTask s id (.fault cause) cause) (strandCluster id) r

/-! ## Kills and deadlines -/

/-- The engine operations of a strand's task are asked to stop (R42, R104). -/
def cancelOps (s : State) (id : Nat) : State :=
  let task := (s.strand id).task
  { s with ops := s.ops.map fun (k, o) => (k, if o.strand = id ∧ o.task = task then { o with cancelled := true } else o) }

/-- A kill takes effect: the task ends with KILLED, its region with DETAIL 0x41 (R42, R265). -/
def killNow (s : State) (id : Nat) : State := endTask (cancelOps s id) id .killed 0x41

/-- A kill reaches a strand (R42): at once in WAIT or STALL, else at the next boundary; held while SUSPENDED (R380). -/
def killStrand (s : State) (id : Nat) : State :=
  let t := s.strand id
  match t.halted, t.run with
  | _, .free => s
  | false, .wait _ _ => killNow s id
  | false, .stall _ => killNow s id
  | _, _ => s.setStrand id { t with killDue := true }

/-- A wait expires (R43, R45): TIMEOUT to STATUS, and to the destination of BWAIT, JOIN and FRE; a waiting region is LIVE
again (R253). -/
def expireWait (s : State) (id : Nat) : State :=
  let t := s.strand id
  let w := status .timeout
  match t.run with
  | .wait (.recv _) _ => s.setStrand id (t.finishWait [] w)
  | .wait (.fwait _) _ => s.setStrand id (t.finishWait [] w)
  | .wait (.bwait d _) _ => s.setStrand id (t.finishWait [(d, w)] w)
  | .wait (.join d) _ => s.setStrand id (t.finishWait [(d, w)] w)
  | .wait (.fre d) _ =>
    let s := match t.region with
      | some r => s.modRegion r fun x => { x with st := if x.st = RegSt.waiting then RegSt.live else x.st }
      | none => s
    s.setStrand id (t.finishWait [(d, w)] w)
  | _ => s

/-- The deadline of the strand's wait has passed. -/
def deadlinePassed (s : State) (t : Strand) : Bool :=
  match t.run with
  | .wait _ (some d) => decide (d ≤ s.cycle)
  | _ => false

/-! ## Tile tasks -/

/-- A buffer of a context whose tile task ends. -/
def endDesc (ctx task : Nat) (d : Desc) : Desc :=
  if d.st = .held ∧ d.ctx = ctx ∧ d.task = task then { d with st := .free }
  else if d.st = .writing ∧ d.ctx = ctx then { d with st := .free }
  else if d.st = .posted ∧ d.ctx = ctx ∧ d.task = task then { d with st := .unposted }
  else d

/-- A tile task ends (R50, R297): queued and held handles and claims are released, its WRITING tiles return to FREE,
waiting handles leave the post list with no handle posted, and the end is counted. -/
def endTile (s : State) (ctx : Nat) (how : Ended) : State :=
  let c := s.ctx ctx
  let ch := ctxChisel ctx
  let free (s : State) (h : Word) : State :=
    match handlePos h with
    | some pos => s.modDesc pos fun d => { d with st := .free }
    | none => s
  let s := c.queue.foldl free s
  let s := { s with descs := s.descs.map fun (k, d) =>
      (k, endDesc ctx c.task d) }
  let s := s.modChisel ch fun x =>
    { x with posts := x.posts.filter fun p => p.1 != ctx, claims := x.claims.filter fun (_, o) => o % 2048 != ctx,
             retry := x.retry.filter fun (p, _, _) => (s.desc p).ctx != ctx }
  let s := s.setCtx ctx { c with run := .free, frozenBy := false, queue := [], flight := [], delay := none, task := 0 }
  countEnd s c.launch how

/-- A chisel trap ends the tile task with FAULT and a report of kind 4 (R293). -/
def chiselFault (s : State) (ctx : Nat) (cause : Cause) (addr : Nat) : State :=
  let c := s.ctx ctx
  let r : Report := ⟨cause.num, c.task, 4, addr, c.pc.toNat, c.sink, c.part, c.launch, false⟩
  sinkReport (endTile s ctx (.fault cause.num)) (chiselCluster (ctxChisel ctx)) r

end Sys2Proof.Machine
end

