-- ==== Sys2Proof/Machine/Ops.lean ====
section
/-! DEFINITION. Operations that grain meanings share: outstanding results (06 R141 to R144), taking an exception and
returning from it (17 R369 to R373), the stall of a pending token (09 R226), and the checks of an access (08 R198). -/

namespace Sys2Proof.Machine

abbrev Out := Host.Outcome State Fault Refusal

/-- The acting strand (log 4). -/
def State.cur (s : State) : Strand := s.strand s.strandId
def State.setCur (s : State) (t : Strand) : State := s.setStrand s.strandId t
def State.curPart (s : State) : Nat := s.strandPart s.strandId
def State.curCluster (s : State) : Nat := strandCluster s.strandId
def State.curCore (s : State) : Nat := strandCore s.strandId

/-! ## Outstanding results -/

/-- Perform an outstanding load, or take a ready value; none while the answer is still away (R142). A decompressing load whose
backing bytes have changed delivers any value (R79). -/
def performPend (s : State) (id : Nat) (p : Pending) : State × Option Deliver :=
  match p.act with
  | .ready v => (s, some v)
  | .backed t d bs src =>
    let same : Bool := src.all fun (pa, b) => (recallSpan s pa b.length).hbm.bytes pa b.length == b
    let (bs, s) := if same then (bs, s) else freeBytes s bs.length
    (s, some (match t with
      | some t => loadRegs t d bs
      | none => loadVRegs d bs))
  | _ =>
    match loadOf p with
    | some (l, n, regs) =>
      let (bs, s) := readNow s (strandCore id) (s.strandPart id) l n
      (s, some (regs bs))
    | none => (s, none)

/-- A result arrives: its values are written and it is no longer outstanding; a strand that waited for its last
result becomes READY (R31). -/
def deliverPend (s : State) (id : Nat) (p : Pending) : State :=
  let (s, v) := performPend s id p
  match v with
  | none => s
  | some v =>
    let t := (s.strand id).deliver v
    let t := { t with pend := t.pend.filter fun q => q.id != p.id }
    s.setStrand id { t with run := if t.run = .stall .results ∧ t.pend.isEmpty then .ready else t.run }

/-- Every result that can arrive now arrives, in order. -/
def deliverAll (s : State) (id : Nat) : State := (s.strand id).pend.foldl (fun s p => deliverPend s id p) s

/-- An access is performed before earlier outstanding loads of the strand that overlap it only after they have been
(R85): those loads are performed now, and keep their values until they are delivered. -/
def orderLoads (s : State) (id : Nat) (l : Loc) (n : Nat) : State := fixLoads s id fun l' m => locOverlap l n l' m

/-- Add an outstanding result with lookahead L (R142). -/
def Strand.addPend (t : Strand) (l : BitVec 4) (act : PendAct) (va : Nat) : Strand :=
  { t with pend := t.pend ++ [⟨t.pendNext, l.toNat, act, va⟩], pendNext := t.pendNext + 1 }

/-- A long-latency instruction issues: its result is outstanding and the strand goes on (R142). -/
def issueLong (s : State) (l : BitVec 4) (act : PendAct) (va : Nat) : State := s.setCur ((s.cur.addPend l act va).next)

/-- A long-latency instruction whose status is settled at issue (R45). -/
def issueStatus (s : State) (d : GReg) (l : BitVec 4) (w : Word) : State :=
  issueLong s l (.ready { regs := [(d, w)], status := some w }) 0

/-! ## Exceptions -/

/-- The ECAUSE word (R363). -/
def ecauseWord (c : Cause) (inner code tok : Nat) : Word :=
  BitVec.ofNat 64 (c.num + 256 * (inner % 64) + 65536 * (code % 65536) + 2 ^ 32 * (tok % 32))

/-- What trap entry writes into the strand (R370). The address is written as it is reported. -/
def Strand.enter (t : Strand) (c : Cause) (inner code addr info tok : Nat) (epc : Word) : Strand :=
  { t with epc := epc, intrap := true, priv := true, skip := decide (c = .brk) || decide (c = .sys),
           ecause := ecauseWord c inner code tok, eaddr := BitVec.ofNat 64 addr, einfo := BitVec.ofNat 64 info,
           pc := t.tvec, run := .ready, got := [], fillNone := none, owed := false }

/-- Outstanding results whose answers are still away. -/
def answersAway (t : Strand) : Bool := t.pend.any fun p =>
  match p.act with
  | .ready _ => false
  | .backed _ _ _ _ => false
  | .load _ _ l => l.isAway
  | .loadV _ l => l.isAway
  | _ => true

/-- Trap entry (R370): all outstanding results are waited for, a waiting instruction leaves its wait, a live region aborts,
and the handler runs at system privilege. A trap in the trap window is a double trap and ends the task (R371). -/
def trapEntry (s : State) (id : Nat) (c : Cause) (inner code addr info tok : Nat) (epc : Word) : State :=
  if (s.strand id).intrap then faultTask s id c.num addr epc.toNat
  else if answersAway (s.strand id) then s.modStrand id fun t => { t with run := .stall .results, owed := true }
  else
    let s := (deliverAll s id).modStrand id fun t => { t with run := .ready }
    let s := abortHeld s id .abortExplicit c.num
    s.modStrand id fun t => t.enter c inner code addr info tok epc

/-- A precise trap of the acting strand's instruction. -/
def trapWith (s : State) (c : Cause) (inner code addr : Nat) : State :=
  trapEntry s s.strandId c inner code addr 0 0 s.cur.pc

def trap (s : State) (c : Cause) : State := trapWith s c 0 0 0

/-- A trap of an access names its address. MACHINE of poisoned data has INNER 1 (R363). -/
def trapAt (s : State) (c : Cause) (va : Nat) : State := trapWith s c (if c = .machine then 1 else 0) 0 va

/-- ERET (R373). -/
def returnFromTrap (s : State) : State :=
  let t := s.cur
  let x := t.epc + (if t.skip then 4 else 0)
  if x.toNat % 4 ≠ 0 then trap s .align
  else s.setCur { t with intrap := false, priv := false, skip := false, trapFrame := none, pc := x }

/-- An asynchronous trap is due (R229, R369). -/
def trapDue (t : Strand) : Bool := !t.intrap && (!t.reports.isEmpty || t.timerDue || t.preemptDue)

/-- The strand enters STALL; the instruction issues again when the cause ends (R31). -/
def stallOn (s : State) (c : Stall) : State := s.setCur { s.cur with run := .stall c, owed := s.cur.owed || decide (c = .puts) }

/-- The strand issues its instruction again in the next g-cycle. -/
def retryLater (s : State) : State := stallOn s (.turn (s.cycle + 1))

/-- The strand enters WAIT with the deadline of R43. -/
def waitOn (s : State) (w : Wait) (e : BitVec 5) : State :=
  s.setCur { s.cur with run := .wait w (if e = 31 then none else some (s.cycle + 2 ^ e.toNat)) }

/-- A waiting instruction issues: it waits, and completes at once if its condition holds; with e = 0 it is a poll,
whose deadline is now (R43). -/
def issueWait (s : State) (w : Wait) (e : BitVec 5) : State := settleWait (waitOn s w e) s.strandId

/-- A pending token among the registers an instruction names (R226). -/
def pendingTok (t : Strand) (rs : List GReg) : Option Nat :=
  rs.findSome? fun r =>
    match r with
    | .g n => if NSet.has t.pendTok n.val then some n.val else none
    | .w _ => none

/-- An instruction that names a pending token register stalls; otherwise it goes on (R44, R226). -/
def withRegs (s : State) (rs : List GReg) (k : Strand → State) : Out :=
  match pendingTok s.cur rs with
  | some n => .next (stallOn s (.token n))
  | none => .next (k s.cur)

def groupRegs (r : GReg) : List GReg := (List.range 4).map (GReg.plus r)
def pairRegs (r : GReg) : List GReg := [r, GReg.plus r 1]

/-! ## Checks on an access -/

inductive AKind where
  | load | store | atom | red
  deriving DecidableEq, Repr

/-- How an access is judged: performed at a place, or its value at once, or its value as long as the backing bytes it rests on
stay as they are, or a trap, or a stall. -/
inductive Access where
  | go (s : State) (l : Loc)
  | value (s : State) (bs : List Byte)
  | backed (s : State) (bs : List Byte) (src : List (Nat × List Byte))
  | trap (s : State) (c : Cause)
  | stall (s : State) (c : Stall)

/-- The words of export entry e (R444). -/
def exportWord (s : State) (e w : Nat) : Nat := s.exports.getD (4 * e + w) 0

/-- The valid export entries. -/
def exportIds (s : State) : List Nat :=
  (s.exports.filter fun (k, v) => k % 4 == 0 && v.testBit 63).map fun (k, _) => k / 4

def exLen (s : State) (e : Nat) : Nat := bitsOf (exportWord s e 1) 22 0 * 65536
def exVa (s : State) (e : Nat) : Nat := exportWord s e 2 % 2 ^ 52
def exPart (s : State) (e : Nat) : Nat := bitsOf (exportWord s e 0) 42 40

/-- The versioned buffer of this device that holds an address of a partition (R109, R204). -/
def vbufAt (s : State) (part va : Nat) : Option Nat :=
  (exportIds s).find? fun e => (exportWord s e 0).testBit 52 && exPart s e == part && decide (exVa s e ≤ va)
    && decide (va < exVa s e + exLen s e)

/-- The range-lock table's answer (R102): does an access of n bytes trap. -/
def lockHit (s : State) (cluster va n : Nat) (wr : Bool) : Bool :=
  (s.cluster cluster).locks.any fun k => decide (va < k.hi) && decide (k.lo < va + n) && (wr || k.dest)

/-- A register's group/region/barrier record in the table aperture (R76, R77): bytes of the 32-byte record, or a trap. -/
def tableRecord (s : State) (part va : Nat) : Except Cause (List Byte) :=
  let tab := bitsOf va 47 40
  let idx := bitsOf va 39 5
  let rec_ (w0 w1 w2 w3 : Nat) : List Byte := leBytes 8 w0 ++ leBytes 8 w1 ++ leBytes 8 w2 ++ leBytes 8 w3
  match tab with
  | 0 =>
    if 65536 ≤ idx then .error .page
    else if !s.partHas part (idx / 2048) then .error .perm
    else
      let b := s.barrier idx
      if !b.live then .ok (rec_ 0 0 0 0)
      else .ok (rec_ (1 + (if b.gid.isSome then 2 else 0) + 4 * (b.phase % 2) + 65536 * b.gid.getD 0)
        ((if b.gid.isSome then 0 else b.count) + 2 ^ 32 * b.arrivals) (barrierWaiters s idx).length 0)
  | 1 =>
    if 65536 ≤ idx then .error .page
    else
      match s.groups.find idx with
      | none => .ok (rec_ 0 0 0 0)
      | some g => if g.part ≠ part then .error .perm else .ok (rec_ (1 + 256 * g.part) g.members.length 0 0)
  | 2 =>
    if 1024 ≤ idx then .error .page
    else if !s.partHas part (idx / 32) then .error .perm
    else
      let r := s.region idx
      let st := match r.st with
        | .free => 0 | .live => 1 | .waiting => 2 | .aborted => 3
      let p (i : Nat) : Nat := r.preds.getD i 0xFFFF
      if r.st = .free then .ok (rec_ (256 * r.code) 0 0 0)
      else
        .ok (rec_ (st + 256 * (if r.st = .aborted then r.code else 0)) r.stamp
          (p 0 + 2 ^ 16 * p 1 + 2 ^ 32 * p 2 + 2 ^ 48 * p 3) (r.reads.length + 2 ^ 16 * r.writes.length))
  | _ => .error .page

/-- A translated paged address of the acting core: its TLB entry, or the miss (R198 step 4). -/
def coreLook (s : State) (va : Nat) : State × Option Entry :=
  match tlbLook (s.core s.curCore).tlb s.curPart va with
  | some (e, l) => ((hit s).modCore s.curCore fun c => { c with tlb := l }, some e)
  | none => (s, none)
where
  /-- a NONE that a fill of the page has reported earlier says nothing any more (R393) -/
  hit (s : State) : State := if s.cur.fillNone = some (va / 65536) then s.setCur { s.cur with fillNone := none } else s

/-- A TLB miss: a stall until the fill (R188, R198), or PAGE when the fill has reported NONE (R393). -/
def tlbMiss (s : State) (va : Nat) (fetch : Bool) : Access :=
  if s.cur.fillNone = some (va / 65536) then .trap (s.setCur { s.cur with fillNone := none }) .page
  else .stall s (.tlb va fetch)

def needOf : AKind → Nat
  | .load => permR
  | .store => permW
  | .red => permW
  | .atom => permR + permW

/-- The windows whose accesses a region tracks (R254). -/
def regionWindow (va : Nat) : Bool := decide (window va < 8) || window va == 14

/-- A read of the acting strand meets poison: a region read sees the region writes of its sequence, any other read the stores in the
buffers (R199, R257). -/
def readsPoison (s : State) (va n : Nat) (l : Loc) : Bool :=
  if regionWindow va && (liveRegion s s.strandId).isSome then regionPoison s l else meetsPoison s s.curCore s.curPart l n

/-- Steps 6 to 8 of R198 for a place in memory. -/
def lateChecks (s : State) (va n : Nat) (k : AKind) (l : Loc) : Access :=
  let wr : Bool := k != .load
  if lockHit s s.curCluster va n wr then .trap s .rangeLocked
  else if wr && ((vbufAt s s.curPart va).map fun e => (s.vbuf e).isSealed).getD false then .trap s .sealedBuf
  else if (k == .load || k == .atom) && readsPoison s va n l then .trap s .machine
  else .go s l

/-- An entry that translates an address; one whose remote translation has expired is dropped and asked for again (R404). -/
def withEntry (s : State) (va : Nat) (fetch : Bool) (k : State → Entry → Access) : Access :=
  match coreLook s va with
  | (s, none) => tlbMiss s va fetch
  | (s, some e) =>
    if (e.until_.map fun c => decide (c ≤ s.cycle)).getD false then
      tlbMiss (s.modCore s.curCore fun c => { c with tlb := c.tlb.erase e }) va fetch
    else k s e

/-- A paged access (R198 steps 4 to 8). -/
def pagedCheck (s : State) (va n : Nat) (k : AKind) : Access :=
  withEntry s va false fun s e =>
    if leafCmp e.word && e.surface.isNone then .trap s .page
    else if !grants e.word (needOf k + if s.cur.priv then 0 else permU) then .trap s .perm
    else
      match e.until_ with
      | some c => if k = .load ∨ k = .store then lateChecks s va n k (.host va) else .stall s (.remote va c)
      | none =>
        match entryPa s e va with
        | some pa => lateChecks s va n k (.mem pa)
        | none => .trap s .perm

/-- The places of a load through a compressed page, a granule at a time (R407). -/
def granulePlaces (s : State) (f : Bool × Nat × Nat × Nat × Nat) (u n : Nat) : Option (List (Loc × Nat)) :=
  if n ≤ 32 then (decompress s f u).map fun l => [(l, n)]
  else
    match decompress s f u, decompress s f (u + 32) with
    | some a, some b => some [(a, 32), (b, n - 32)]
    | _, _ => none

/-- What a load of a core returns at places in turn. -/
def readAll (s : State) (core part : Nat) : List (Loc × Nat) → State × List Byte
  | [] => (s, [])
  | (l, n) :: ls =>
    let s := recallLoc s l
    let bs := coreRead s core part l n
    let (s, rest) := readAll s core part ls
    (s, bs ++ rest)

/-- A load through a compressed page (R79, R407), from step 6 on. -/
def compressedCheck (s : State) (f : Bool × Nat × Nat × Nat × Nat) (u : Nat) (ls : List (Loc × Nat)) : Access :=
  let n := (ls.map (·.2)).sum
  if lockHit s s.curCluster u n false then .trap s .rangeLocked
  else if ls.any fun (l, n) => meetsPoison s s.curCore s.curPart l n then .trap s .machine
  else
    let (s, bs) := readAll s s.curCore s.curPart ls
    .backed s bs (ls.flatMap fun (l, _) => backing s f l)

/-- A load through the Compaction aperture (R79, R406, R407). -/
def apertureCheck (s : State) (u n : Nat) : Access :=
  withEntry s u false fun s e =>
    if leafCmp e.word && e.surface.isNone then .trap s .page
    else if !grants e.word (permR + if s.cur.priv then 0 else permU) then .trap s .perm
    else if e.until_.isSome then lateChecks s u n .load (.host u)
    else
      match e.surface with
      | some f =>
        if f.1 then ((granulePlaces s f u n).map (compressedCheck s f u)).getD (.trap s .page)
        else lateChecks s u n .load (.mem (f.2.1 + u % 65536))
      | none =>
        match entryPa s e u with
        | some pa => lateChecks s u n .load (.mem pa)
        | none => .trap s .page

/-- A scratchpad access (R62, R64, R72, R73). -/
def padCheck (s : State) (va n : Nat) (k : AKind) : Access :=
  match padDecode va with
  | none => .trap s .page
  | some a =>
    let pn := a / 2 ^ 18
    if pn / 24 ≠ s.curCluster then .trap s .perm
    else
      let wr : Bool := k != .load
      let pinned : Bool := match footprintOwner a with
        | some o => wr && o != s.strandId && ((s.strand o).run != .free)
        | none => false
      let spill : Bool := match spillOwner a with
        | some o => wr && o != s.strandId
        | none => false
      if (wr && padIsChisel (pn % 24)) || pinned || spill then .trap s .perm
      else if lockHit s s.curCluster va n wr then .trap s .rangeLocked
      else
        let st := ((posOf a).map fun p => (s.desc p).st).getD .free
        if wr ∧ st = .opened then .trap s .perm
        else if wr ∧ st ≠ .free then .trap s .sealedBuf
        else if !wr ∧ st = .writing then .trap s .rangeLocked
        else if (k = .load ∨ k = .atom) ∧ meetsPoison s s.curCore s.curPart (.spad a) n then .trap s .machine
        else .go s (.spad a)

/-- A peer-window address at the issuing core (R445). -/
def peerCheck (s : State) (va : Nat) : Except Cause (Nat × Nat) :=
  let p := bitsOf va 47 38
  let o := va % 2 ^ 38
  let hops := routeHops (s.routes.getD p 0)
  let lostOk : Bool := s.lost.has p && decide (o < s.mirlens.getD p 0)
  if s.lost.has p then (if lostOk then .ok (p, o) else .error .page)
  else if !s.isMember p ∨ s.exts.getD p 0 ≤ o ∨ (p ≠ s.devid ∧ hops = 0) then .error .page
  else .ok (p, o)

/-- The checks of R198 from step 3 on, for an aligned access of n bytes by the acting strand. -/
def accessCheck (s : State) (va n : Nat) (k : AKind) : Access :=
  match window va with
  | 8 => padCheck s va n k
  | 9 =>
    if k ≠ .load then .trap s .perm
    else
      match tableRecord s s.curPart va, if n ≤ 32 then .ok [] else tableRecord s s.curPart (va + 32) with
      | .ok a, .ok b => .value s (((a ++ b).drop (va % 32)).take n)
      | .error c, _ => .trap s c
      | _, .error c => .trap s c
  | 10 => if k ≠ .load then .trap s .perm else apertureCheck s (va % 2 ^ 48) n
  | 11 => .trap s .page
  | 12 =>
    if k = .red then .trap s .perm
    else
      match peerCheck s va with
      | .error c => .trap s c
      | .ok (p, o) => if lockHit s s.curCluster va n (k != .load) then .trap s .rangeLocked else .go s (.peer p o)
  | 13 => .trap s .perm
  | 14 =>
    match seqAddr s s.curPart va with
    | .error c => .trap s c
    | .ok (id, b, pa) =>
      if k = .load ∨ discards s k then lateChecks s va n k (.mem pa)
      else
        if copyWaits s id b fun _ => true then .stall s (.turn (s.cycle + 1)) else
        match copyOnWrite s id b with
        | none => .trap s .page
        | some s =>
          match seqAddr s s.curPart va with
          | .error c => .trap s c
          | .ok (_, _, pa) => lateChecks s va n k (.mem pa)
  | 15 => .trap s .perm
  | _ => pagedCheck s va n k
where
  /-- a region that has been aborted discards its region writes, so nothing is copied for them (R263) -/
  discards (s : State) (k : AKind) : Bool := k != .red && s.cur.region.isSome && (liveRegion s s.strandId).isNone

/-- A write through the sequence aperture meets a block whose count is above 1 (R280). -/
def copyNeeded (s : State) (va : Nat) : Bool :=
  match window va, seqAddr s s.curPart va with
  | 14, .ok (id, b, _) =>
    (match s.sequences.find id with
    | none => false
    | some q =>
      match q.blocks[b]?, s.pools.find q.pool with
      | some blk, some p => decide (1 < p.refs.getD blk 0)
      | _, _ => false)
  | _, _ => false

/-- Go on with a judged access, or take its trap, or stall. -/
def withAccess (a : Access) (va : Nat) (go : State → Loc → State) (value : State → List Byte → List (Nat × List Byte) → State) : State :=
  match a with
  | .go s l => go s l
  | .value s bs => value s bs []
  | .backed s bs src => value s bs src
  | .trap s c => trapAt s c va
  | .stall s c => stallOn s c

/-- A misaligned access traps ALIGN before any other check (R140). -/
def aligned (s : State) (va n : Nat) (k : State) : State := if va % n = 0 then k else trapAt s .align va

end Sys2Proof.Machine
end

