-- ==== Sys2Proof/Machine/Preempt.lean ====
section
/-! DEFINITION. Pre-emption (17 R367, R368, R375 to R380, R383): the commands HALT, NOTIFY, RESUME and the halt of each
strand, chisel and Trowel unit. -/

namespace Sys2Proof.Machine

/-- The partition halts or is halted: nothing of it is placed, released or issued anew (R375). -/
def State.stopping (s : State) (p : Nat) : Bool := (s.part p).busy || (s.part p).haltedBit

/-- A halt is under way. -/
def State.halting (s : State) (p : Nat) : Bool := (s.part p).busy && !(s.part p).haltedBit

/-- Strands of a partition that hold a task. -/
def partStrands (s : State) (p : Nat) : List Nat :=
  (s.strands.filter fun (id, t) => t.run != .free && s.partHas p (strandCluster id)).map (·.1)

/-- Contexts of a partition that hold a tile task. -/
def partCtxs (s : State) (p : Nat) : List Nat :=
  (s.ctxs.filter fun (id, c) => c.run != .free && s.partHas p (chiselCluster (ctxChisel id))).map (·.1)

/-- HALTED is set once everything of the partition stands still (R367, R375). -/
def checkHalted (s : State) (p : Nat) : State :=
  let still : Bool := ((partStrands s p).all fun id => (s.strand id).halted) && ((partCtxs s p).all fun id => (s.ctx id).frozenBy)
    && (s.ops.all fun (_, o) => !(o.part == p && o.running))
  if s.halting p && still then
    s.modPart p fun x => { x with haltedBit := true, haltTime := (s.cycle - x.haltAt) % 2 ^ 32, busy := x.saveWanted }
  else s

/-- HALT, with or without SAVE (R367, R368). -/
def cmdHalt (s : State) (p : Nat) (save : Bool) : State :=
  let x := s.part p
  if x.st ≠ .running ∨ x.busy ∨ x.haltedBit then s
  else
    let ok := save && x.savebase != 0 && x.savebase % 2 ^ 24 == 0
    checkHalted (s.setPart p { x with busy := true, saveWanted := ok, haltAt := s.cycle }) p

/-- NOTIFY raises a PREEMPT trap in every strand of the partition (R375). -/
def cmdNotify (s : State) (p : Nat) : State :=
  let x := s.part p
  if x.st ≠ .running ∨ x.busy ∨ x.haltedBit then s
  else (partStrands s p).foldl (fun s id => s.modStrand id fun t => { t with preemptDue := true }) s

/-- A strand leaves SUSPENDED: a held kill and its wait are settled (R43, R380, R383); a wait that a due trap is to end issues again
after it (R229). -/
def wakeStrand (s : State) (id : Nat) : State :=
  let s := s.modStrand id fun t => { t with halted := false, withdrawn := none }
  let t := s.strand id
  if t.killDue ∧ t.run ≠ .ready then killNow s id
  else
    let s := settleWait s id
    if deadlinePassed s (s.strand id) ∧ !trapDue (s.strand id) then expireWait s id else s

/-- Suspended Trowel operations of a partition go to the head of their unit's queue (R379). -/
def restoreTrowels (s : State) (p : Nat) : State :=
  let back := s.ops.filter fun (_, o) => o.part == p && o.suspended
  back.foldl (fun s (k, o) =>
    let unit := o.inst
    { s with ops := s.ops.put k { o with suspended := false, yielded := true },
             trowels := s.trowels.put unit (k :: s.trowels.getD unit []) }) s

/-- RESUME (R368, R383). The restore brings back what was saved, which software left unchanged. -/
def cmdResume (s : State) (p : Nat) : State :=
  let x := s.part p
  if x.st ≠ .running ∨ x.busy ∨ !x.haltedBit then s
  else
    let s := s.setPart p { x with haltedBit := false, savedBit := false, saving := false, saveWanted := false }
    let s := (partStrands s p).foldl wakeStrand s
    let s := (partCtxs s p).foldl (fun s id => s.modCtx id fun c => { c with frozenBy := false }) s
    restoreTrowels s p

/-- The home slice has not admitted the strand's atomic yet. -/
def atomWaiting (s : State) (id : Nat) : Bool := s.atoms.any fun a => a.isOf id && !a.admitted

/-- The owner holds the strand's fill (R110). -/
def heldFill (s : State) (id : Nat) : Option Request := s.reqs.find? fun r =>
  r.held.isSome && (match r.who with
    | .strand i _ => i == id
    | _ => false)

/-- The strand becomes SUSPENDED; a live region aborts (R376). -/
def suspend (s : State) (id : Nat) : State :=
  let s := abortHeld s id .abortPreempt 0
  checkHalted (s.modStrand id fun t => { t with halted := true, owed := false, fillNone := none, got := [] }) (s.strandPart id)

/-- The strand's last results arrive; it is SUSPENDED then, unless its instruction must come to an end first (R376, R387). -/
def suspendReady (s : State) (id : Nat) : State :=
  if answersAway (s.strand id) then s
  else if (s.strand id).owed then deliverAll s id
  else suspend (deliverAll s id) id

/-- An access of a strand is withdrawn, a peer's load or an atomic, and noted for its record (R377, R382). -/
def withdrawAccess (s : State) (id : Nat) (load : Bool) : State :=
  let va := ((s.strand id).pend.head?.map (·.va)).getD 0
  suspend (s.modStrand id fun t => { t.withdraw with withdrawn := some (load, va) }) id

/-- A halt reaches a strand (R376, R377): unchanged while something it awaits is still away, or a window is on the move. -/
def haltStrand (s : State) (id : Nat) : State :=
  let t := s.strand id
  if t.winMove.isSome then s else
  match t.run with
  | .free => s
  | .bound => suspend s id
  | .wait _ _ => suspend s id
  | .stall (.token _) => suspend s id
  | .stall (.tlb _ _) => suspend s id
  | .stall (.remote _ _) => suspendReady s id
  | .stall (.turn _) => suspendReady s id
  | .stall (.depth _ _) => (abortHeld s id .abortPreempt 0).modStrand id fun t => { t with run := .ready, owed := true }
  | .stall .atomic =>
    if atomWaiting s id then
      withdrawAccess { s with atoms := s.atoms.filter fun a => !a.isOf id } id false
    else
      match heldFill s id with
      | some r => withdrawAccess { s with reqs := s.reqs.erase r } id true
      | none => s
  | .stall .results => suspendReady s id
  | .stall .puts => s
  | .stall (.windows _) => s
  | .ready => suspendReady s id

/-- A halt reaches a chisel (R378): its contexts freeze once the M unit and the load path are idle. -/
def freezeChisel (s : State) (ch : Nat) : State :=
  let c := s.chisel ch
  if s.cycle < c.mBusy ∨ s.cycle < c.loadBusy then s
  else
    let ids := ((List.range 8).map fun i => 8 * ch + i).filter fun id => (s.ctx id).run != .free
    let s := ids.foldl (fun s id => s.modCtx id fun c => { c with frozenBy := true }) s
    checkHalted s ((s.clusterPart (chiselCluster ch)).getD 0)

/-- A Trowel microprogram suspends at its row boundary and is set aside (R379). -/
def suspendTrowel (s : State) (unit : Nat) : State :=
  match s.trowels.getD unit [] with
  | [] => s
  | k :: rest =>
    match s.ops.find k with
    | none => s
    | some o =>
      if o.running ∧ s.halting o.part then
        checkHalted { s with ops := s.ops.put k { o with running := false, suspended := true, inst := unit },
                             trowels := s.trowels.put unit rest } o.part
      else s

end Sys2Proof.Machine
end

