-- ==== Sys2Proof/Machine/Flags.lean ====
section
/-! DEFINITION. Conditions and flags of the grain: the six comparisons (07 R173), the floating-point comparison
(07 R184), FSTAT (05 R126, R127), conversions between floats and integers (05 R125). -/

namespace Sys2Proof.Machine

/-- The condition holds between two words (R173). -/
def holds (c : Cond) (a b : Word) : Bool :=
  match c with
  | .eq => a == b
  | .ne => a != b
  | .lt => a.slt b
  | .ge => !a.slt b
  | .ltn => a.ult b
  | .gen => !a.ult b

/-- 1 when it holds, else 0. -/
def boolWord (b : Bool) : Word := if b then 1 else 0

/-- The comparand of CMPI (R152): sign-extended for the signed conditions and equality, else zero-extended. -/
def comparand (c : Cond) (i : BitVec 13) : Word :=
  match c with
  | .ltn => zext i
  | .gen => zext i
  | _ => sext i

/-- A raised flag stays set (R126). -/
def Strand.raise (t : Strand) (fl : Nat) : Strand := { t with fstat := t.fstat ||| fl }

/-- The FP32 value in bits 31..0 of a register (R113). -/
def fpOf (w : Word) : Fp := fpDecode fp32 (w.toNat % 2 ^ 32)

/-- FCMP: whether it holds, and its NV flag (R184). -/
def fcompare (c : FCond) (a b : Word) : Bool × Nat :=
  let x := fpOf a
  let y := fpOf b
  let anyNan := x.isNan || y.isNan
  let sig := if x.isSig || y.isSig then flagNV else 0
  let nan := if anyNan then flagNV else 0
  match c with
  | .eq => (!anyNan && fpEq x y, sig)
  | .lt => (!anyNan && fpLess x y, nan)
  | .le => (!anyNan && !fpLess y x, nan)
  | .un => (anyNan, sig)

/-- An integer type of R150: its width and whether it is signed. -/
def intType : Nat → Option (Nat × Bool)
  | 0 => some (8, true)
  | 1 => some (16, true)
  | 2 => some (32, true)
  | 3 => some (64, true)
  | 4 => some (8, false)
  | 5 => some (16, false)
  | 6 => some (32, false)
  | 7 => some (64, false)
  | _ => none

/-- The integer of a type in the low bits of a word. -/
def intRead (ty : Nat × Bool) (w : Word) : Int :=
  let x := w.toNat % 2 ^ ty.1
  if ty.2 ∧ 2 ^ (ty.1 - 1) ≤ x then (x : Int) - 2 ^ ty.1 else x

/-- A finite value rounded to an integer, and whether it was inexact. -/
def roundInt (rm : Rm) (neg : Bool) (m : Nat) (e : Int) : Int × Bool :=
  let (q, nx) := if 0 ≤ e then (m * 2 ^ e.toNat, false) else roundBits rm neg m (-e).toNat
  (if neg then -(q : Int) else q, nx)

/-- FCVT from float to integer (R125): value and flags. -/
def toIntType (ty : Nat × Bool) (rm : Rm) (x : Fp) : Int × Nat :=
  let lo : Int := if ty.2 then -(2 ^ (ty.1 - 1)) else 0
  let hi : Int := if ty.2 then 2 ^ (ty.1 - 1) - 1 else 2 ^ ty.1 - 1
  match x with
  | .nan _ => (0, flagNV)
  | .inf neg => (if neg then lo else hi, flagNV)
  | .fin neg m e =>
    let (z, nx) := roundInt rm neg m e
    if z < lo then (lo, flagNV) else if hi < z then (hi, flagNV) else (z, if nx then flagNX else 0)

end Sys2Proof.Machine
end

