-- ==== Sys2Proof/Machine/Issue.lean ====
section
/-! DEFINITION. The issue slot of a grain core: the rotation (02 R32), kills (02 R42) and asynchronous traps (17 R369) at a boundary,
lookahead windows (06 R142, R143), fetch (07 R188), the repeat frame (06 R145 to R147), decoding (06 R164). -/

namespace Sys2Proof.Machine

/-- A READY strand that has not issued in the preceding 3 g-cycles qualifies (R32). -/
def qualifies (s : State) (id : Nat) : Bool :=
  let t := s.strand id
  t.run == .ready && !t.halted && (t.lastIssue.map fun c => decide (c + 4 ≤ s.cycle)).getD true

/-- A strand that waits for a window notes that its core has had an idle slot (R191). -/
def Strand.sawIdle (t : Strand) (c : Nat) : Strand :=
  match t.run with
  | .stall (.windows _) => { t with run := .stall (.windows c) }
  | _ => t

/-- The strand a core takes (R32); a strand that has yielded only when no other qualifies, and of several such the first in the rotation
(R194; log 96). -/
def pickStrand (s : State) (n : Nat) : Option Nat :=
  let q := ((List.range 16).map fun i => 16 * n + ((s.core n).lastStrand + 1 + i) % 16).filter (qualifies s)
  (q.find? fun id => decide ((s.strand id).yieldUntil ≤ s.cycle)).orElse fun _ => q.head?

/-- Is an asynchronous trap due that the strand can take at this boundary (R369). -/
def asyncDue (t : Strand) : Bool :=
  trapDue t && !t.halted
    && (match t.run with
      | .ready => true
      | .wait _ _ => true
      | .stall (.token _) => true
      | _ => false)

/-- Take the first due asynchronous trap in the order ENGINE, TIMER, PREEMPT (R369). If answers are still away, the strand
first waits for them. -/
def takeAsync (s : State) (id : Nat) : State :=
  let t := s.strand id
  let entered (s : State) (f : Strand → Strand) : State := if (s.strand id).intrap then s.modStrand id f else s
  match t.reports with
  | r :: rest => entered (trapEntry s id .engine r.inner 0 r.addr r.elem r.tok t.pc) fun t => { t with reports := rest }
  | [] =>
    if t.timerDue then entered (trapEntry s id .timer 0 0 0 0 0 t.pc) fun t => { t with timerDue := false }
    else if t.preemptDue then entered (trapEntry s id .preempt 0 0 0 0 0 t.pc) fun t => { t with preemptDue := false }
    else s

/-- An instruction that ends every open window before it issues (R143). -/
def endsWindows : Instr → Bool
  | .recv _ _ _ | .bwait _ _ _ | .join _ _ | .fre _ _ | .fwait _ _ | .amo _ _ _ _ _ _ _ | .cas _ _ _ _ _ _
  | .cas2 _ _ _ _ _ | .fence _ _ _ | .call _ | .callr _ | .ret | .rpt _ _ _ _ | .yield | .trap _ | .sysc _ | .exit
  | .ctlrd _ _ | .ctlwr _ _ | .faultend _ | .eret | .waiti | .tlbwr _ _ _ | .tlbinv _ _ => true
  | _ => false

/-- The repeat frame that is in progress: a handler's own frame while it runs (log 21). -/
def Strand.activeFrame (t : Strand) : Option Frame := if t.intrap then t.trapFrame else t.frame

def Strand.setFrame (t : Strand) (f : Option Frame) : Strand :=
  if t.intrap then { t with trapFrame := f } else { t with frame := f }

/-- Instructions that a frame captures (R146), with their fields d, a, b as staggered by the mask. -/
def stagger (f : GReg → GReg) (da : Bool × Bool × Bool) : Instr → Option Instr :=
  let p (b : Bool) (r : GReg) : GReg := if b then f r else r
  let d := p da.1
  let a := p da.2.1
  let b := p da.2.2
  fun
  | .add x y z => some (.add (d x) (a y) (b z))
  | .sub x y z => some (.sub (d x) (a y) (b z))
  | .mul x y z => some (.mul (d x) (a y) (b z))
  | .mulh x y z => some (.mulh (d x) (a y) (b z))
  | .mulhn x y z => some (.mulhn (d x) (a y) (b z))
  | .andG x y z => some (.andG (d x) (a y) (b z))
  | .orG x y z => some (.orG (d x) (a y) (b z))
  | .xorG x y z => some (.xorG (d x) (a y) (b z))
  | .andn x y z => some (.andn (d x) (a y) (b z))
  | .shl x y z => some (.shl (d x) (a y) (b z))
  | .shr x y z => some (.shr (d x) (a y) (b z))
  | .sha x y z => some (.sha (d x) (a y) (b z))
  | .rol x y z => some (.rol (d x) (a y) (b z))
  | .minG x y z => some (.minG (d x) (a y) (b z))
  | .maxG x y z => some (.maxG (d x) (a y) (b z))
  | .minn x y z => some (.minn (d x) (a y) (b z))
  | .maxn x y z => some (.maxn (d x) (a y) (b z))
  | .clz x y => some (.clz (d x) (a y))
  | .ctz x y => some (.ctz (d x) (a y))
  | .popc x y => some (.popc (d x) (a y))
  | .sel x y z => some (.sel (d x) (a y) (b z))
  | .cmp c x y z => some (.cmp c (d x) (a y) (b z))
  | .lea x y z n => some (.lea (d x) (a y) (b z) n)
  | .bext x y z => some (.bext (d x) (a y) (b z))
  | .bdep x y z => some (.bdep (d x) (a y) (b z))
  | .crc32c x y z => some (.crc32c (d x) (a y) (b z))
  | .hash64 x y z => some (.hash64 (d x) (a y) (b z))
  | .meshxy x y z => some (.meshxy (d x) (a y) (b z))
  | .rect x y z => some (.rect (d x) (a y) (b z))
  | .fadd x y z => some (.fadd (d x) (a y) (b z))
  | .fsub x y z => some (.fsub (d x) (a y) (b z))
  | .fmul x y z => some (.fmul (d x) (a y) (b z))
  | .ffma x y z => some (.ffma (d x) (a y) (b z))
  | .fmin x y z => some (.fmin (d x) (a y) (b z))
  | .fmax x y z => some (.fmax (d x) (a y) (b z))
  | .fcmp c x y z => some (.fcmp c (d x) (a y) (b z))
  | .addi x y i => some (.addi (d x) (a y) i)
  | .muli x y i => some (.muli (d x) (a y) i)
  | .andi x y i => some (.andi (d x) (a y) i)
  | .ori x y i => some (.ori (d x) (a y) i)
  | .xori x y i => some (.xori (d x) (a y) i)
  | .shli x y n => some (.shli (d x) (a y) n)
  | .shri x y n => some (.shri (d x) (a y) n)
  | .shai x y n => some (.shai (d x) (a y) n)
  | .roli x y n => some (.roli (d x) (a y) n)
  | .cmpi c x y i => some (.cmpi c (d x) (a y) i)
  | .lui x i => some (.lui (d x) i)
  | _ => none

/-- The register fields that a captured instruction has and the mask staggers. -/
def staggered (mask : Nat) : Instr → List GReg :=
  let p (i : Nat) (r : GReg) : List GReg := if mask.testBit i && r != .g 0 then [r] else []
  fun
  | .add x y z | .sub x y z | .mul x y z | .mulh x y z | .mulhn x y z | .andG x y z | .orG x y z | .xorG x y z
  | .andn x y z | .shl x y z | .shr x y z | .sha x y z | .rol x y z | .minG x y z | .maxG x y z | .minn x y z
  | .maxn x y z | .sel x y z | .cmp _ x y z | .lea x y z _ | .bext x y z | .bdep x y z | .crc32c x y z
  | .hash64 x y z | .meshxy x y z | .rect x y z | .fadd x y z | .fsub x y z | .fmul x y z | .ffma x y z
  | .fmin x y z | .fmax x y z | .fcmp _ x y z => p 2 x ++ p 1 y ++ p 0 z
  | .clz x y | .ctz x y | .popc x y | .addi x y _ | .muli x y _ | .andi x y _ | .ori x y _ | .xori x y _
  | .shli x y _ | .shri x y _ | .shai x y _ | .roli x y _ | .cmpi _ x y _ => p 2 x ++ p 1 y
  | .lui x _ => p 2 x
  | _ => []

/-- A staggered field in pass j (R145). -/
def staggerReg (f : Frame) (r : GReg) : GReg :=
  if r = .g 0 then r
  else
    match r with
    | .g n => .g (Fin.ofNat 16 (n.val + f.pass * f.st))
    | .w n => .w (Fin.ofNat 16 (n.val + f.pass * f.st))

def regIndex : GReg → Nat
  | .g n => n.val
  | .w n => n.val

/-- The captured instruction of the frame as it runs in this pass; none when R146 forbids it. -/
def capturedInstr (f : Frame) (i : Instr) : Option Instr :=
  if (staggered f.mask i).any fun r => decide (15 < regIndex r + (f.km1 + 1) * f.st) then none
  else stagger (staggerReg f) (f.mask.testBit 2, f.mask.testBit 1, f.mask.testBit 0) i

/-- The frame after one captured instruction has taken effect (R145): none after the last pass. The second value says
whether the strand goes back to the first captured word. -/
def Frame.advance (f : Frame) : Option Frame × Bool :=
  if f.idx < f.nm1 then (some { f with idx := f.idx + 1 }, false)
  else if f.pass ≤ f.km1 then (some { f with pass := f.pass + 1, idx := 0 }, true)
  else (none, false)

/-- What an issue slot comes to: a state, or an instruction to run. -/
inductive Issue where
  | idle (s : State)
  | run (s : State) (i : Instr)

/-- The checks of instruction fetch (R188, R394), then the bytes of the word. A page that runs remote is fetched from once its
hold has ended (log 34). -/
def fetchWord (s : State) (va : Nat) : Access :=
  if 8 ≤ window va then .trap s .perm
  else
    withEntry s va true fun s e =>
      if leafCmp e.word && e.surface.isNone then .trap s .page
      else if !grants e.word (permX + if s.cur.priv then 0 else permU) then .trap s .perm
      else
        match e.until_, entryPa s e va with
        | some c, _ => .stall s (.remote va c)
        | none, none => .trap s .perm
        | none, some pa =>
          if meetsPoison s s.curCore s.curPart (.mem pa) 4 then .trap s .machine
          else
            let (bs, s) := readNow s s.curCore s.curPart (.mem pa) 4
            .value s bs

/-- A fetched word is decoded and, inside a frame, captured (R145 to R147, R164). A word that has no meaning traps ILLEGAL in every
mode, one of the SYS major too, before its privilege is looked at (R153; log 84). -/
def decodeIssue (s : State) (w : W32) : Issue :=
  let t := s.cur
  match t.activeFrame with
  | none =>
    match decodeGrain w with
    | .error _ => .idle (trap s .illegal)
    | .ok i =>
      if endsWindows i && !t.pend.isEmpty then .idle (stallOn s .results) else .run s i
  | some f =>
    match decodeGrain w with
    | .error _ => .idle (trap (s.setCur (t.setFrame none)) .illegal)
    | .ok i =>
      match capturedInstr f i with
      | none => .idle (trap (s.setCur (t.setFrame none)) .illegal)
      | some i => .run (s.setCur (t.setFrame (some { f with words := if f.pass = 0 then f.words ++ [w] else f.words }))) i

/-- The strand's next instruction: a replayed word of a frame, or a fetched word (aligned by 4, R140). -/
def fetchIssue (s : State) : Issue :=
  let t := s.cur
  let replay : Option W32 := t.activeFrame.bind fun f => if f.words.length ≤ f.idx then none else f.words[f.idx]?
  match replay with
  | some w => decodeIssue s w
  | none =>
    if t.pc.toNat % 4 ≠ 0 then .idle (trapWith s .align 0 0 (vaOf t.pc)) else
    match fetchWord s (vaOf t.pc) with
    | .value s bs => decodeIssue s (BitVec.ofNat 32 (ofLeBytes bs))
    | .backed s _ _ => .idle s
    | .go s _ => .idle s
    | .trap s c => .idle (trapWith s c (if c = .machine then 1 else 0) 0 (vaOf t.pc))
    | .stall s c => .idle (stallOn s c)

/-- The slot of core n in this g-cycle is in use (R32). -/
def slotUsed (s : State) (n : Nat) : Bool := (s.core n).issuedAt == some s.cycle

def useSlot (s : State) (n : Nat) : State := s.modCore n fun c => { c with issuedAt := some s.cycle }

/-- The issue slot of core n in this g-cycle, up to the instruction. A strand whose fetch or decoding traps has not issued; the entry of an
asynchronous trap takes the slot (log 97). -/
def issueCore (s : State) (n : Nat) : Issue :=
  match if slotUsed s n then none else pickStrand s n with
  | none => .idle s
  | some id =>
    let s := { s with strandId := id }
    let t := s.cur
    if t.killDue then .idle (killNow s id)
    else if asyncDue t then
      let s := takeAsync s id
      .idle (if (s.strand id).run = .ready then s.modStrand id fun t => { t with lastIssue := some s.cycle } else s)
    else if t.pend.any fun p => p.left == 0 then .idle (stallOn s .results)
    else fetchIssue s

/-- A READY strand stalls as soon as the window of an outstanding result has ended (R142, R334). -/
def Strand.closeWindow (t : Strand) : Strand :=
  if t.run = .ready ∧ t.pend.any (fun p => p.left == 0) then { t with run := .stall .results } else t

/-- An instruction has issued: the windows of earlier results shorten by one (R142), and the rotation moves on (R32). -/
def issued (before after : State) (u : Strand) : State :=
  let t := before.strand before.strandId
  (after.setStrand before.strandId
    (Strand.closeWindow
      { u with pend := u.pend.map fun p => if p.id < t.pendNext then { p with left := p.left - 1 } else p,
               lastIssue := some before.cycle, owed := false })).modCore (strandCore before.strandId)
    fun c => { c with lastStrand := before.strandId % 16, issuedAt := some before.cycle }

/-- After an instruction: outside stalls it has issued, also when it stalls for an answer of its own, and a frame moves on
when its captured instruction has taken effect. -/
def afterGrain (before after : State) : State :=
  let id := before.strandId
  let t := before.strand id
  let u := after.strand id
  match u.run with
  | .stall _ =>
    if (u.pend.map (·.id)).any fun k => t.pendNext ≤ k then issued before after u else
    match t.activeFrame with
    | some f => after.setStrand id (u.setFrame (some { f with words := if f.pass = 0 then f.words.take f.idx else f.words }))
    | none => after
  | _ =>
    let u : Strand :=
      match t.activeFrame with
      | some f =>
        if u.intrap = t.intrap ∧ u.run = .ready ∧ u.task = t.task ∧ u.pc = t.pc + 4 then
          match f.advance with
          | (g, back) => { (u.setFrame g) with pc := if back then u.pc - 4 * BitVec.ofNat 64 (f.nm1 + 1) else u.pc }
        else u
      | none => u
    issued before after u

end Sys2Proof.Machine
end

