-- ==== Sys2Proof/Machine/GrainControl.lean ====
section
/-! DEFINITION. Meanings of branches, jumps, calls and register windows (07 R186 to R192), RPT (06 R145), YIELD,
TRAP, SYSC, EXIT (07 R194 to R196), and the control registers (06 R153; 17 R361 to R365). -/

namespace Sys2Proof.Machine

/-- The target of a word offset from the instruction itself (R139). -/
def offTarget {n : Nat} (t : Strand) (off : BitVec n) : Word := t.pc + 4 * sext off

/-- A conditional branch (R186). -/
def branch (s : State) (t : Strand) (c : Bool) (off : BitVec 16) : State :=
  s.setCur (if c then { t with pc := offTarget t off } else t.next)

def execBr (c : Cond) (a b : GReg) (off : BitVec 16) (s : State) : Out :=
  withRegs s [a, b] fun t => branch s t (holds c (t.read a) (t.read b)) off
def execBz (a : GReg) (off : BitVec 16) (s : State) : Out :=
  withRegs s [a] fun t => branch s t (t.read a == 0) off
def execBnz (a : GReg) (off : BitVec 16) (s : State) : Out :=
  withRegs s [a] fun t => branch s t (t.read a != 0) off
def execJ (off : BitVec 26) (s : State) : Out := .next (s.setCur { s.cur with pc := offTarget s.cur off })

/-- JR: the target's bits 63..52 are ignored; a misaligned one traps ALIGN at the jump (R136, R187), with EADDR zero (log 85). -/
def execJr (a : GReg) (s : State) : Out :=
  withRegs s [a] fun t =>
    if (t.read a).toNat % 4 ≠ 0 then trap s .align else s.setCur { t with pc := target (t.read a) }

/-! ## Windows -/

/-- Push a new window with the return address in w15 (R190). -/
def Strand.push (t : Strand) (dst : Word) : Strand :=
  { t with windows := (Vector.replicate 16 0).set 15 (t.pc + 4) :: t.windows, depth := t.depth + 1, pc := dst }

/-- The common part of CALL and CALLR: ILLEGAL in the trap window (R371), PERM at depth 24, a stall while 8 windows are
resident (R191). -/
def callTo (s : State) (t : Strand) (dst : Word) : State :=
  if t.intrap then trap s .illegal
  else if 24 ≤ t.depth then trap s .perm
  else if 8 ≤ t.windows.length then stallOn s (.windows s.cycle)
  else s.setCur (t.push dst)

def execCall (off : BitVec 26) (s : State) : Out := .next (callTo s s.cur (offTarget s.cur off))

/-- CALLR (R190): inside the trap window it traps ILLEGAL, whatever its target (R371; log 84). -/
def execCallr (a : GReg) (s : State) : Out :=
  withRegs s [a] fun t =>
    if t.intrap then trap s .illegal
    else if (t.read a).toNat % 4 ≠ 0 then trap s .align
    else callTo s t (target (t.read a))

/-- RET (R190); a caller's window that is not resident is filled first (R191). -/
def execRet (s : State) : Out :=
  .next
    (let t := s.cur
     let x := t.read (.w 15)
     if t.intrap then trap s .illegal
     else if t.depth ≤ 1 then trap s .illegal
     else if x.toNat % 4 ≠ 0 then trap s .align
     else if t.windows.length < 2 then stallOn s (.windows s.cycle)
     else s.setCur { t with windows := t.windows.tail, depth := t.depth - 1, pc := target x })

/-- The bytes of a window in the spill area (R189). -/
def windowBytes (w : Vector Word 16) : List Byte := w.toList.flatMap (wordBytes 8)

/-- A window of a strand may be spilled: 7 or 8 are resident (R191). -/
def Strand.spills (t : Strand) : Bool := decide (7 ≤ t.windows.length) && decide (t.depth ≤ 15 + t.windows.length)

/-- A window of a strand may be filled: fewer than 2 are resident, and one is spilled (R191). -/
def Strand.fills (t : Strand) : Bool := decide (t.windows.length < 2) && decide (t.windows.length < t.depth)

/-- A strand's move as it stands: four slots in all (R191). -/
def Strand.moving (t : Strand) (spill : Bool) : WinMove := (t.winMove.filter fun m => m.spill == spill).getD ⟨spill, 4, []⟩

/-- The strand has waited for its window to move, and its core has had no idle slot for 16 g-cycles (R191). -/
def Strand.starved (t : Strand) (now : Nat) : Bool :=
  match t.run with
  | .stall (.windows c) => decide (c + 16 < now)
  | _ => false

/-- A window move gets the core's slot: one that no strand uses, or one that the core takes for a strand that has waited (R191). -/
def slotFor (s : State) (id : Nat) : Bool :=
  !slotUsed s (strandCore id) && ((pickStrand s (strandCore id)).isNone || (s.strand id).starved s.cycle)

/-- A move uses the core's slot. One that no strand would use was idle, which every strand of the core that waits for a window takes
note of. -/
def moveSlot (s : State) (n : Nat) : State :=
  let noted := { s with strands := s.strands.map fun (k, t) => (k, if strandCore k = n then t.sawIdle s.cycle else t) }
  useSlot (if (pickStrand s n).isNone then noted else s) n

/-- The last slot of a move: a strand that waits for it becomes READY (R31). -/
def Strand.windowMoved (t : Strand) (ws : List (Vector Word 16)) : Strand :=
  { t with windows := ws, winMove := none, run := match t.run with
      | .stall (.windows _) => .ready
      | r => r }

/-- One slot of a spill: 32 bytes of the oldest resident window go to the spill area (R189, R191). They go there at once; a store of the
strand to these bytes that its core still holds back comes later (log 95). -/
def spillSlot (s : State) (id : Nat) : State :=
  let t := s.strand id
  let m := t.moving true
  let i := 4 - m.left
  let base := spillBase id + 128 * (t.depth - t.windows.length)
  let s := plainWrite (moveSlot s (strandCore id)) (.spad (base + 32 * i))
    (((windowBytes (t.windows.getLastD (.replicate 16 0))).drop (32 * i)).take 32)
  s.modStrand id fun t => if m.left ≤ 1 then t.windowMoved t.windows.dropLast else { t with winMove := some { m with left := m.left - 1 } }

/-- WINDOW_SPILL: a slot of the spill of the oldest of 7 or 8 resident windows (R191). -/
def execWindowSpill (id : Nat) (s : State) : Out :=
  .next
    (let t := s.strand id
     if t.halted ∨ !slotFor s id then s
     else if t.spills then spillSlot s id
     else s.setStrand id { t with winMove := t.winMove.filter fun m => !m.spill })

/-- The window that the 128 bytes of a spill area's slot hold. -/
def windowOf (bs : List Byte) : Vector Word 16 := Vector.ofFn fun i => BitVec.ofNat 64 (numAt bs (8 * i) 8)

/-- One slot of a fill: 32 bytes of the spill area are read as they stand; after the fourth the newest spilled window is resident (R191,
R192). -/
def fillSlot (s : State) (id : Nat) : State :=
  let t := s.strand id
  let m := t.moving false
  let base := spillBase id + 128 * (t.depth - t.windows.length - 1)
  let got := m.got ++ coreRead s (strandCore id) (s.strandPart id) (.spad (base + 32 * (4 - m.left))) 32
  (moveSlot s (strandCore id)).modStrand id fun t =>
    if m.left ≤ 1 then t.windowMoved (t.windows ++ [windowOf got]) else { t with winMove := some { m with left := m.left - 1, got := got } }

/-- WINDOW_FILL: a slot of the fill of the newest spilled window when fewer than 2 are resident (R191, R192). -/
def execWindowFill (id : Nat) (s : State) : Out :=
  .next
    (let t := s.strand id
     if t.halted ∨ !slotFor s id then s
     else if t.fills then fillSlot s id
     else s.setStrand id { t with winMove := t.winMove.filter fun m => m.spill })

/-! ## RPT, YIELD, TRAP, SYSC, EXIT -/

/-- RPT opens a frame over the next n words (R145). -/
def execRpt (nm1 : BitVec 4) (mask : BitVec 3) (st : BitVec 4) (km1 : BitVec 6) (s : State) : Out :=
  .next (s.setCur (((s.cur).setFrame (some ⟨0, 0, nm1.toNat, st.toNat, mask.toNat, km1.toNat, []⟩)).next))

/-- For the 16 g-cycles that follow, the strand is taken only when no other qualifies (R194). -/
def Strand.yield (t : Strand) (now : Nat) : Strand := { t with yieldUntil := now + 17 }

def execYield (s : State) : Out := .next (s.setCur (s.cur.yield s.cycle).next)
def execTrap (i : BitVec 16) (s : State) : Out := .next (trapWith s .brk 0 i.toNat 0)
def execSysc (i : BitVec 16) (s : State) : Out := .next (trapWith s .sys 0 i.toNat 0)
/-- EXIT ends the task with OK; a live region aborts with DETAIL 0x40 (R196, R265). -/
def execExit (s : State) : Out := .next (endTask s s.strandId .ok 0x40)

/-! ## Control registers -/

/-- ESTATUS (R362). -/
def estatusWord (t : Strand) : Word :=
  BitVec.ofNat 64 ((if t.priv then 1 else 0) + (if t.intrap then 2 else 0) + (if t.skip then 4 else 0))

/-- RPTSTATE (R364). -/
def rptstateWord (t : Strand) : Word :=
  match t.frame with
  | none => 0
  | some f => BitVec.ofNat 64 (2 ^ 31 + f.pass * 2 ^ 24 + f.idx * 2 ^ 20 + f.nm1 * 2 ^ 16 + f.st * 2 ^ 12 + f.mask * 2 ^ 9
      + f.km1 * 2 ^ 3)

/-- PENDTOK (R361). -/
def pendtokWord (t : Strand) : Word := BitVec.ofNat 64 ((t.pendTok.map fun n => 2 ^ n).sum)

/-- The value of a control register (R153, R361); none for a number that names none. -/
def ctlRead (s : State) (t : Strand) (id n : Nat) : Option Word :=
  match n with
  | 0x0000 => some t.status
  | 0x0001 => some (BitVec.ofNat 64 t.fstat)
  | 0x0002 => some (BitVec.ofNat 64 t.frmode)
  | 0x0003 => some (BitVec.ofNat 64 (id % 16))
  | 0x0004 => some (BitVec.ofNat 64 (coreXY (strandCore id)))
  | 0x0005 => some t.taskSink
  | 0x0006 => some t.scopeRect
  | 0x0100 => some (estatusWord t)
  | 0x0101 => some t.epc
  | 0x0102 => some t.ecause
  | 0x0103 => some t.eaddr
  | 0x0104 => some t.einfo
  | 0x0105 => some t.tvec
  | 0x0106 => some t.sscratch0
  | 0x0107 => some t.sscratch1
  | 0x0108 => some (rptstateWord t)
  | 0x0109 => some (BitVec.ofNat 64 t.stimer)
  | 0x010A => some (BitVec.ofNat 64 s.cycle)
  | 0x010B => some (BitVec.ofNat 64 t.depth)
  | 0x010C => some (BitVec.ofNat 64 (s.strandPart id))
  | 0x010D => some 0
  | 0x010E => some (pendtokWord t)
  | _ => none

/-- Write a control register: reserved bits and read-only registers ignore it (R8). -/
def ctlWrite (t : Strand) (n : Nat) (v : Word) : Strand :=
  match n with
  | 0x0000 => { t with status := v }
  | 0x0001 => { t with fstat := v.toNat % 32 }
  | 0x0002 => { t with frmode := v.toNat % 4 }
  | 0x0005 => { t with taskSink := v }
  | 0x0006 => { t with scopeRect := v }
  | 0x0100 => { t with skip := v.getLsbD 2 }
  | 0x0101 => { t with epc := v }
  | 0x0105 => { t with tvec := v }
  | 0x0106 => { t with sscratch0 := v }
  | 0x0107 => { t with sscratch1 := v }
  | 0x0109 => { t with stimer := v.toNat }
  | _ => t

/-- A system register traps PERM at user privilege (R153, R360); a reserved number traps ILLEGAL. -/
def ctlCheck (t : Strand) (n : Nat) : Option Cause :=
  if 0x0100 ≤ n ∧ !t.priv then some .perm
  else if (7 ≤ n ∧ n ≤ 0xFF) ∨ 0x010F ≤ n then some .illegal
  else none

def execCtlrd (d : GReg) (n : BitVec 16) (s : State) : Out :=
  withRegs s [d] fun t =>
    match ctlCheck t n.toNat with
    | some c => trap s c
    | none => s.setCur (t.write d ((ctlRead s t s.strandId n.toNat).getD 0)).next

/-- A write of FAULTEND ends the task with FAULT (R365). -/
def faultEnd (s : State) (v : Word) : State :=
  let t := s.cur
  faultTask s s.strandId (wbits v 5 0) t.eaddr.toNat t.epc.toNat

def execCtlwr (a : GReg) (n : BitVec 16) (s : State) : Out :=
  withRegs s [a] fun t =>
    match ctlCheck t n.toNat with
    | some c => trap s c
    | none => if n = 0x010D then faultEnd s (t.read a) else s.setCur (ctlWrite t n.toNat (t.read a)).next

def execFaultend (a : GReg) (s : State) : Out :=
  withRegs s [a] fun t => if !t.priv then trap s .perm else faultEnd s (t.read a)

end Sys2Proof.Machine
end

