-- ==== Sys2Proof/Machine/Swap.lean ====
section
/-! DEFINITION. Near/far swaps (18 R398 to R400) and the migration of host-shared pages (18 R401 to R404; 20 R436). -/

namespace Sys2Proof.Machine

/-! ## Swaps -/

/-- A 64 KiB page of a kind, not compressed: its leaf's place and value. -/
def pageLeaf (s : State) (part va kind : Nat) : Option (Nat × Nat) :=
  if 8 ≤ window va ∨ va % 65536 ≠ 0 then none
  else
    match walk s part va with
    | .leaf e 0 pa => if leafKind e = kind ∧ !leafCmp e then some (e, pa) else none
    | _ => none

/-- Entries and stores of a page. -/
def pageEntry (va : Nat) (e : Entry) : Bool := entryHits e.part va e
def onPage (va x : Nat) : Bool := x / 65536 == va / 65536

/-- Drop a page's translations by the procedure of R281. -/
def dropPage (s : State) (part va : Nat) : State := (dropTranslations s part (pageEntry va) (onPage va)).1

/-- The status word of a swap at DONE, or the strata event when it cannot be written (R398). It waits for a host-shared page, which the
firmware asks for (R402). -/
def swapAnswer (s : State) (part done : Nat) (c : Code) : State :=
  let bad : State := strataEvent s ioDie 9 0xFF 0 done 0
  if done % 8 ≠ 0 then bad
  else if pageAway s part done then { askPage s part done with swapTodo := s.swapTodo ++ [.answer part done c] }
  else
    match treeAddr s part done permW with
    | .ok l => plainWrite s l (wordBytes 8 (status c))
    | .error c => noteWalk bad part ioDie 0xFF done c

/-- A page of a swap record is not as R398 states it; a malformed entry on its walk is recorded (R390). -/
def noteLeaf (s : State) (part va : Nat) : State := if va % 65536 = 0 then noteWalk s part ioDie 0xFF va .page else s

/-- A swap record is posted (R398, R411). A record that cannot be read ends the request (log 31); one in a host-shared page that is not here
waits for it (R402). Bits 63..52 of its addresses take no part, as in every address (R57). -/
def postSwap (s : State) (part va : Nat) : State :=
  if va % 64 ≠ 0 then strataEvent s ioDie 10 0xFF 0 va 0
  else if pageAway s part va then { askPage s part va with swapTodo := s.swapTodo ++ [.post part va] }
  else
    match treeAddr s part va permR, treeAddr s part (va + 32) permR with
    | .ok a, .ok b =>
      let rd (l : Loc) : List Byte := rawRead (recallLoc (commitEarly s l 32) l) l 32
      let bs := rd a ++ rd b
      let nearVa := numAt bs 0 8 % 2 ^ 52
      let farVa := numAt bs 8 8 % 2 ^ 52
      let done := numAt bs 16 8 % 2 ^ 52
      match pageLeaf s part nearVa 0, pageLeaf s part farVa 1 with
      | some (ne, _), some (fe, _) =>
        if (bs.drop 24).any (· != 0) then swapAnswer s part done .invalid
        else
          let near := leafAddr ne
          let far := leafAddr fe
          let inSwap (pa : Nat) : Bool := s.swaps.any fun (_, w) => w.near == pa || w.far == pa
          if inSwap near ∨ inSwap far ∨ 16 ≤ (s.swaps.filter fun (_, w) => w.part == part).length then
            swapAnswer s part done .refused
          else
            let s := dropPage (dropPage s part nearVa) part farVa
            { s with swaps := s.swaps.put s.swapNext ⟨part, nearVa, farVa, near, far, done, 0⟩, swapNext := s.swapNext + 1 }
      | _, _ => swapAnswer (noteLeaf (noteLeaf s part nearVa) part farVa) part done .invalid
    | .error c, _ => noteWalk (strataEvent s ioDie 9 0xFF 0 va 0) part ioDie 0xFF va c
    | _, .error c => noteWalk (strataEvent s ioDie 9 0xFF 0 va 0) part ioDie 0xFF (va + 32) c

/-- A place in a moving line follows the line (R399). -/
def followLine (a b : Nat) (l : Loc) : Loc :=
  match l with
  | .mem pa => if pa / 64 = a / 64 then .mem (b + pa % 64) else if pa / 64 = b / 64 then .mem (a + pa % 64) else l
  | l => l

def followPend (a b : Nat) (p : Pending) : Pending :=
  match p.act with
  | .load t d l => { p with act := .load t d (followLine a b l) }
  | .loadV d l => { p with act := .loadV d (followLine a b l) }
  | .amo k n o d x l => { p with act := .amo k n o d x (followLine a b l) }
  | .cas n o d e x l r => { p with act := .cas n o d e x (followLine a b l) r }
  | .cas2 o d e0 e1 x0 x1 l r => { p with act := .cas2 o d e0 e1 x0 x1 (followLine a b l) r }
  | _ => p

/-- Exchange the 64 bytes of two lines with their poison; accesses under way follow them, and regions that track a sector
of either line abort (R399, R400). -/
def exchangeLines (s : State) (a b : Nat) : State :=
  let s := commitEarly (commitEarly s (.mem a) 64) (.mem b) 64
  let s := recallLine (recallLine s (a / 64)) (b / 64)
  let s := [a / 32, a / 32 + 1, b / 32, b / 32 + 1].foldl plainAbort s
  let x := s.hbm.bytes a 64
  let y := s.hbm.bytes b 64
  let pois (pa : Nat) : Bool := NSet.has s.poison (pa / 32)
  let s' := { s with hbm := (s.hbm.putBytes a y).putBytes b x }
  let s' := setPoison (.mem a) (pois b) (setPoison (.mem (a + 32)) (pois (b + 32)) s')
  let s' := setPoison (.mem b) (pois a) (setPoison (.mem (b + 32)) (pois (a + 32)) s')
  { s' with cores := s'.cores.map fun (k, c) =>
              (k, { c with stores := c.stores.map fun st => { st with loc := followLine a b st.loc } }),
            strands := s'.strands.map fun (k, t) => (k, { t with pend := t.pend.map (followPend a b) }) }

/-- A leaf that names another frame and KIND (R399). -/
def retarget (e kind frame : Nat) : Nat :=
  e % 64 + kind * 64 + (e / 256 % 256) * 256 + frame / 256 * 65536 + (e / 2 ^ 56) * 2 ^ 56

/-- The pages have changed places: both leaves are rewritten and the swap translations go (R399). -/
def finishSwap (s : State) (k : Nat) (w : Swap) : State :=
  let rewrite (s : State) (va kind frame : Nat) : State :=
    match walk s w.part va with
    | .leaf e _ pa => plainWrite s (.mem pa) (leBytes 8 (retarget e kind frame))
    | _ => s
  let s := rewrite (rewrite s w.nearVa 1 w.far) w.farVa 0 w.near
  let s := dropPage (dropPage s w.part w.nearVa) w.part w.farVa
  swapAnswer { s with swaps := s.swaps.del k } w.part w.done .ok

/-- The next line of a swap moves (R399). -/
def moveLine (s : State) (k : Nat) : State :=
  match s.swaps.find k with
  | none => s
  | some w =>
    let s := exchangeLines s (w.near + 64 * w.next) (w.far + 64 * w.next)
    let w := { w with next := w.next + 1 }
    if w.next = 1024 then finishSwap s k w else { s with swaps := s.swaps.put k w }

/-- What waits for a host-shared page is tried again. -/
def settleSwaps (s : State) : State :=
  s.swapTodo.foldl (fun s x =>
    match x with
    | .post part va => postSwap s part va
    | .answer part done c => swapAnswer s part done c) { s with swapTodo := [] }

/-! ## Migration -/

/-- The KIND 2 leaf that maps a page, and its place. -/
def sharedLeaf (s : State) (part va : Nat) : Option (Nat × Nat) :=
  match walk s part va with
  | .leaf e 0 pa => if leafKind e = 2 then some (e, pa) else none
  | _ => none

/-- Is a side held off now. -/
def heldOff (s : State) (p : Page) (device : Bool) : Bool :=
  match p.hold with
  | some (d, until_) => d == device && decide (s.cycle < until_)
  | none => false

/-- Send one MIGR message (R436). -/
def sendMigr (s : State) (part stream va op partno : Nat) (rest : List Byte) : State :=
  hostSend s part stream 13 0 va (leBytes 2 op ++ leBytes 2 partno ++ leBytes 4 0 ++ rest)

/-- The near frame for a page that moves to the device (R403): the firmware's choice (log 9), if it is free, else the first that is. -/
def nearFrame (s : State) (part va : Nat) : Option Nat :=
  ((Config.migrationFrame (pageKey part va) :: List.range (nearLimit / 65536)).map (65536 * ·)).find? (frameFree s part)

/-- Every sector of a page counts as plainly written, in its frame and as it runs remote (R403). -/
def abortPage (s : State) (part va frame : Nat) : State :=
  (List.range 2048).foldl (fun s i => plainAbort (plainAbort s (frame / 32 + i)) (remoteSector part (va / 65536 * 65536) + i)) s

/-- The agent takes a request for a page from one side (R402). While no near frame is free the device's request waits. -/
def requestPage (s : State) (part va : Nat) (byHost : Bool) : State :=
  match sharedLeaf s part va with
  | none => s
  | some (e, _) =>
    let p := s.page part va
    let device := !byHost
    if p.moving.isSome ∨ p.device = device ∨ heldOff s p device then
      s.setPage part va { p with waiting := if device then false else p.waiting }
    else if device then
      match nearFrame s part va with
      | none => s.setPage part va { p with waiting := true }
      | some frame =>
        sendMigr (s.setPage part va { p with moving := some true, waiting := false, frame := frame, parts := [] }) part p.stream
          (va / 65536 * 65536) 3 0 []
    else
      abortPage (dropPage (s.setPage part va { p with moving := some false, frame := leafAddr e, parts := [] }) part va) part va
        (leafAddr e)

/-- Poison of 128 granules from a frame offset as a mask. -/
def poisonMask (s : State) (pa n : Nat) : Nat :=
  ((List.range n).map fun i => if isPoisoned s (.mem (pa + 32 * i)) then 2 ^ i else 0).sum

/-- The move of a page is complete: HOLD is set against the side that gave it up (R402). -/
def completeMove (s : State) (part va : Nat) (toDevice : Bool) : State :=
  let p := s.page part va
  s.setPage part va { p with device := toDevice, moving := none, parts := [],
                             hold := some (!toDevice, s.cycle + (s.part part).holdoff * usCycles) }

/-- A MIGR message about a page, by its OP and part, that the host has not acknowledged yet. -/
def unacked (s : State) (part stream addr op n : Nat) : Bool :=
  (s.stream (streamKey part stream)).unacked.any fun x =>
    x.typ == 13 && x.msg.addr == addr && numAt x.msg.payload 0 2 == op && numAt x.msg.payload 2 2 == n

/-- The host has acknowledged a message about a page that moves towards it (R436): a part, or OP 5 as number 99. -/
def noteAck (s : State) (x : Sent) : State :=
  let p := s.page x.msg.part x.msg.addr
  if x.typ ≠ 13 ∨ p.moving ≠ some false then s
  else
    match numAt x.msg.payload 0 2 with
    | 2 => s.setPage x.msg.part x.msg.addr { p with parts := NSet.ins p.parts (numAt x.msg.payload 2 2) }
    | 5 => s.setPage x.msg.part x.msg.addr { p with parts := NSet.ins p.parts 99 }
    | _ => s

/-- Part i of a page that moves towards the host goes out, unless it is under way or acknowledged. -/
def sendPart (part base : Nat) (p : Page) (s : State) (i : Nat) : State :=
  if NSet.has p.parts i ∨ unacked s part p.stream base 2 i then s
  else
    sendMigr s part p.stream base 2 i
      (leBytes 16 (poisonMask s (p.frame + 4096 * i) 128) ++ s.hbm.bytes (p.frame + 4096 * i) 4096)

/-- A page's move goes on (R403, R436): towards the host, its 16 parts are sent, then OP 5, and the move is complete when
that is acknowledged; a message that its stream has lost is sent again. Towards the device, the leaf is written once every
part and OP 5 have come. -/
def movePage (s : State) (part va : Nat) : State :=
  let p := s.page part va
  let base := va / 65536 * 65536
  match p.moving with
  | some false =>
    if NSet.has p.parts 99 then completeMove s part va false
    else if (List.range 16).all (NSet.has p.parts) then
      if unacked s part p.stream base 5 0 then s else sendMigr s part p.stream base 5 0 []
    else
      let s := recallFrame (commitEarly s (.mem p.frame) 65536) p.frame
      (List.range 16).foldl (sendPart part base p) s
  | some true =>
    if NSet.has p.parts 99 ∧ (List.range 16).all (NSet.has p.parts) then
      match sharedLeaf s part va with
      | some (e, pa) =>
        let s := abortPage s part va p.frame
        completeMove (plainWrite s (.mem pa) (leBytes 8 (retarget e 2 p.frame))) part va true
      | none => completeMove s part va true
    else s
  | none => s

/-- Page data from the host (R436, OP 4): part n of the page, with its poison. -/
def takePart (s : State) (part va n : Nat) (pmask : Nat) (bs : List Byte) : State :=
  let p := s.page part va
  let s := (List.range 128).foldl (fun s i =>
    let l := Loc.mem (p.frame + 4096 * n + 32 * i)
    markedWrite s l ((bs.drop (32 * i)).take 32) (pmask.testBit i)) s
  s.setPage part va { p with parts := NSet.ins p.parts n }

/-- HOLD ends: remote translations of the page are dropped (R404). -/
def endHold (s : State) (part va : Nat) : State :=
  let p := s.page part va
  match p.hold with
  | some (_, until_) =>
    if until_ ≤ s.cycle then
      let s := (tlbDropAll s part fun e => pageEntry va e && e.until_.isSome).1
      s.setPage part va { p with hold := none }
    else s
  | none => s

end Sys2Proof.Machine
end

