-- ==== Sys2Proof/Machine/PartCmd.lean ====
section
/-! DEFINITION. Partitions (19 R409 to R413): the commands ENABLE, START, STOP, DISABLE, and the registers of a
partition's blocks (17 R366 to R368; 19 R411; 05 R129). -/

namespace Sys2Proof.Machine

/-- The next own near frame above a frame (R412). -/
def nextOwn (s : State) (p f : Nat) : Option Nat :=
  (((List.range 512).map fun i => f + 65536 * (i + 1)).find? (s.ownsFrame p)).filter isNear

/-- n frames on from a frame there is still an own near frame. -/
def framesReach (s : State) (p f : Nat) : Nat → Bool
  | 0 => true
  | n + 1 =>
    match nextOwn s p f with
    | some g => framesReach s p g n
    | none => false

/-- POOLn and POOLBASEn of an enabled pool are usable (R412). -/
def poolOk (s : State) (p : Nat) (w base : Nat) : Bool :=
  let code := w % 8
  let count := bitsOf w 56 32
  let size := blockBytes code
  decide (code < 5) && base % size == 0 && isNear base && s.ownsFrame p base
    && framesReach s p (base / 65536 * 65536) ((base % 65536 / size + count - 1) / (65536 / size))

/-- The enabled pools of a partition (R411). -/
def enabledPools (s : State) (p : Nat) : List Nat :=
  (List.range 64).filter fun n => s.ownsQuarry p (n / 8) && ((s.part p).pools.getD n 0).getLsbD 63

def setErr (s : State) (p e : Nat) : State := s.modPart p fun x => { x with err := e }

/-- ENABLE (R412): the counters are zero (R420). -/
def cmdEnable (s : State) (p : Nat) : State :=
  let x := s.part p
  let clash : Bool := (List.range 32).any fun c => prectHas x.prect c && (s.clusterPart c).isSome
  let dead : Bool := (List.range 32).any fun c => prectHas x.prect c && s.deadClusters.contains c
  if x.st ≠ .off then setErr s p 3
  else if !prectShape x.prect ∨ dead then setErr s p 1
  else if clash then setErr s p 2
  else s.setPart p { x with st := .stopped, err := 0, ctrs := [] }

/-- START (R412): every enabled pool has all its blocks free, and the owned Quarries' tables are empty. Grants begin with a new round (R417). -/
def cmdStart (s : State) (p : Nat) : State :=
  let x := s.part p
  if x.st ≠ .stopped then setErr s p 3
  else
    let ns := enabledPools s p
    let word (n : Nat) : Nat := (x.pools.getD n 0).toNat
    let base (n : Nat) : Nat := (x.poolBases.getD n 0).toNat
    if !ns.all fun n => poolOk s p (word n) (base n) then setErr s p 1
    else
      let mine (q : Nat) : Bool := s.ownsQuarry p q
      let kept := s.pools.filter fun (n, _) => !mine (n / 8)
      let pools := ns.foldl (fun t n =>
        Tbl.put t n ⟨p, word n % 8, bitsOf (word n) 56 32, base n, List.range (bitsOf (word n) 56 32), [], []⟩) kept
      { s.setPart p { x with st := .running, err := 0, roundPrio := 7, roundCount := 0 } with
        pools := pools, sequences := s.sequences.filter fun (id, _) => !mine (id / 2 ^ 17),
        prefixes := s.prefixes.filter fun (q, _) => !mine q }

/-- A Quarry with its pools, sequences and prefix index belongs to the partition that owns its stack: what belongs to one that no longer
does is gone (R275, R409). -/
def dropForeign (s : State) : State :=
  let pools : Tbl Pool := s.pools.filter fun (n, p) => s.ownsQuarry p.part (n / 8)
  let has (q : Nat) : Bool := pools.any fun (n, _) => n / 8 == q
  { s with pools := pools, sequences := s.sequences.filter fun (_, q) => (pools.find q.pool).isSome,
           prefixes := s.prefixes.filter fun (q, _) => has q }

/-- STOP and DISABLE (R412). -/
def cmdStop (s : State) (p : Nat) : State :=
  let x := s.part p
  let active : Bool := s.launches.any fun (_, l) => l.part == p && l.st != .queued
  if x.st ≠ .running ∨ active then setErr s p 3 else s.setPart p { x with st := .stopped, err := 0 }

/-- Its TLBs are emptied, since every TLB holds only translations of its own partition (R392). -/
def cmdDisable (s : State) (p : Nat) : State :=
  let x := s.part p
  if x.st ≠ .stopped then setErr s p 3 else dropForeign (tlbDropAll (s.setPart p { x with st := .off, err := 0 }) p fun _ => true).1

/-- PCTL.CMD (R411). -/
def pctlCommand (s : State) (p cmd : Nat) : State :=
  match cmd with
  | 1 => cmdEnable s p
  | 2 => cmdStart s p
  | 3 => cmdStop s p
  | 4 => cmdDisable s p
  | _ => s

/-- PREEMPT (R367): ignored while BUSY (R368). -/
def preemptCommand (s : State) (p v : Nat) : State :=
  if (s.part p).busy then s
  else
    match v % 4 with
    | 1 => cmdHalt s p (v.testBit 2)
    | 2 => cmdNotify s p
    | 3 => cmdResume s p
    | _ => s

/-! ## Registers -/

/-- CLFSTAT (R129). -/
def clfstat (s : State) (c : Nat) : Nat :=
  (s.strands.filter fun (id, t) => strandCluster id == c && t.run != .free).foldl (fun a (_, t) => a ||| t.fstat) 0

def pstateNum : PState → Nat
  | .off => 0 | .stopped => 1 | .running => 2

/-- A register of a partition block (R367); none for an offset that is not listed. -/
def partRegRead (s : State) (p r : Nat) : Option Nat :=
  let x := s.part p
  match r with
  | 0x00 => some 0
  | 0x08 => some (x.haltTime * 2 ^ 32 + (if x.savedBit then 4 else 0) + (if x.haltedBit then 2 else 0) + (if x.busy then 1 else 0))
  | 0x10 => some x.savebase
  | 0x18 => some x.atomq
  | 0x20 => some x.tvec0.toNat
  | _ => none

def partRegWrite (s : State) (p r v : Nat) : Option State :=
  match r with
  | 0x00 => some (preemptCommand s p v)
  | 0x08 => some s
  | 0x10 => some (s.modPart p fun x => { x with savebase := v % 2 ^ 48 })
  | 0x18 => some (s.modPart p fun x => { x with atomq := if v % 128 = 0 ∨ 64 < v % 128 then 64 else v % 128 })
  | 0x20 => some (s.modPart p fun x => { x with tvec0 := BitVec.ofNat 64 v })
  | _ => none

/-- The Quarries of a partition's rectangle, before it is enabled as after (R411, R412). -/
def rectQuarry (x : Partition) (q : Nat) : Bool := (List.range 32).any fun c => quarryOf c == q && prectHas x.prect c

/-- A register of a configuration block (R411). -/
def cfgRegRead (s : State) (p r : Nat) : Option Nat :=
  let x := s.part p
  if r % 8 ≠ 0 then none
  else if 0x800 ≤ r ∧ r < 0x1000 then some (x.ctrs.getD ((r - 0x800) / 8) 0).toNat
  else if 0x40 ≤ r ∧ r < 0x440 then
    let n := (r - 0x40) / 16
    if !rectQuarry x (n / 8) then some 0
    else some (if r % 16 = 0 then (x.pools.getD n 0).toNat else (x.poolBases.getD n 0).toNat)
  else
    match r with
    | 0x00 => some (x.err * 256 + pstateNum x.st * 64)
    | 0x08 => some x.prect
    | 0x10 => some x.ptroot
    | 0x18 => some x.holdoff
    | 0x20 => some x.lqprio
    | 0x28 => some x.lqweight
    | 0x30 => some 0
    | _ => none

/-- Reserved bits of POOLn read zero (R411). -/
def poolMask (v : Nat) : Nat := bitsOf v 63 63 * 2 ^ 63 + bitsOf v 56 32 * 2 ^ 32 + v % 8

/-- Write a configuration register. A strand writes HOLDOFF, LQWEIGHT, SWAPPOST and the counters only (R411); PRECT, PTROOT
and the pools are not written in RUNNING (R412). -/
def cfgRegWrite (s : State) (p r v : Nat) (host : Bool) : Option State :=
  let x := s.part p
  let still : Bool := host && x.st != .running
  if (cfgRegRead s p r).isNone then none
  else if 0x800 ≤ r then some (s.setPart p { x with ctrs := x.ctrs.put ((r - 0x800) / 8) (BitVec.ofNat 64 v) })
  else if 0x40 ≤ r then
    let n := (r - 0x40) / 16
    if !still ∨ !rectQuarry x (n / 8) then some s
    else if r % 16 = 0 then some (s.setPart p { x with pools := x.pools.put n (BitVec.ofNat 64 (poolMask v)) })
    else some (s.setPart p { x with poolBases := x.poolBases.put n (BitVec.ofNat 64 (v % 2 ^ 48)) })
  else
    match r with
    | 0x00 => some (if host then pctlCommand s p (v % 8) else s)
    | 0x08 => some (if still then dropForeign (s.setPart p { x with prect := v % 64 }) else s)
    | 0x10 => some (if still then s.setPart p { x with ptroot := v % 2 ^ 48 } else s)
    | 0x18 => some (s.setPart p { x with holdoff := v % 65536 })
    | 0x20 => some (if host then s.setPart p { x with lqprio := v % 2 ^ 48 } else s)
    | 0x28 => some (s.setPart p { x with lqweight := v % 2 ^ 32 })
    | _ => some (postSwap s p v)

/-- The block and the register of a system-window offset (R366). -/
inductive SysOff where
  | cluster (c r : Nat)
  | part (p r : Nat)
  | cfg (p r : Nat)
  | none
  deriving DecidableEq, Repr

def sysOff (o : Nat) : SysOff :=
  if o < 0x200000 then .cluster (o / 0x10000) (o % 0x10000)
  else if 0x100000000 ≤ o ∧ o < 0x100008000 then .part ((o - 0x100000000) / 0x1000) (o % 0x1000)
  else if 0x200000000 ≤ o ∧ o < 0x200008000 then .cfg ((o - 0x200000000) / 0x1000) (o % 0x1000)
  else .none

/-- A read of the system window for partition `own` (R366). -/
def sysRead (s : State) (own o : Nat) : Except Cause Nat :=
  let own_ (p : Nat) (v : Option Nat) : Except Cause Nat :=
    match v with
    | Option.none => .error .page
    | some v => if p ≠ own then .error .perm else .ok v
  match sysOff o with
  | .cluster c r => own_ (if s.partHas own c then own else 9) (if r = 0 then some (clfstat s c) else Option.none)
  | .part p r => own_ p (partRegRead s p r)
  | .cfg p r => own_ p (cfgRegRead s p r)
  | .none => .error .page

/-- A write of the system window for partition `own`, by a strand or by the host. -/
def sysWrite (s : State) (own o v : Nat) (host : Bool) : Except Cause State :=
  match sysRead s own o, sysOff o with
  | .error c, _ => .error c
  | .ok _, .part p r => .ok ((partRegWrite s p r v).getD s)
  | .ok _, .cfg p r => .ok ((cfgRegWrite s p r v host).getD s)
  | .ok _, _ => .ok s

end Sys2Proof.Machine
end

