-- ==== Sys2Proof/Machine/Remote.lean ====
section
/-! DEFINITION. Accesses whose answer comes from outside the device: peer loads, peer atomics (03 R80; 04 R110;
20 R442, R445), accesses to host-shared pages that run remote (18 R404; 20 R434, R435), and what a release at system
scope waits for (04 R92; 20 R447). Such an access may trap when its answer arrives, and a trap is found before any
later instruction issues (06 R144): the strand stalls until the answer. -/

namespace Sys2Proof.Machine

/-- The key of the versioned buffer that a peer offset lies in (log 75). -/
def peerUnit (p off : Nat) : Nat := p * 2 ^ 38 + Config.peerBuffer p off % 2 ^ 38

/-- The version that the device holds for the buffer of a peer offset (R110): that of its last notice, or of its first line. -/
def heldVersion (s : State) (p off : Nat) : Option Nat := s.peerVers.find (peerUnit p off)

/-- A line of a peer whose tag is the version that the device holds. -/
def heldLine (s : State) (p off : Nat) : Option PeerLine :=
  (s.peerLines.find (peerKey p off)).filter fun x => heldVersion s p off == some x.version

/-- AUX of a fill request (R442). -/
def fillAux (s : State) (p off : Nat) : Nat := ((heldVersion s p off).map (· + 2 ^ 24)).getD 0

/-- A strand that has other results outstanding waits for them first. -/
def quiet (s : State) (k : State) : State := if s.cur.pend.isEmpty then k else stallOn s .results

/-- The strand stalls until the answer of its instruction comes; the pc stays at the instruction. -/
def stallAway (s : State) (act : PendAct) (va : Nat) : State :=
  s.setCur { (s.cur.addPend 0 act va) with run := .stall .atomic }

/-- Does the strand still await result k. -/
def awaits (s : State) (id k : Nat) : Bool := (s.strand id).pend.any fun q => q.id == k

/-- The answer came: values are delivered and the strand goes on. -/
def completeAway (s : State) (id k : Nat) (v : Deliver) : State :=
  if awaits s id k then
    s.modStrand id fun t =>
      let u := t.deliver v
      let back : Bool := u.run == .stall .atomic
      { u with pend := u.pend.filter fun q => q.id != k, run := if back then .ready else u.run,
               pc := if back then u.pc + 4 else u.pc }
  else s

/-- The answer is a failure: the instruction traps, and its destination keeps its value. The footprint copy of a BOUND strand
takes the cause up when it comes again (R29). -/
def failAway (s : State) (id k : Nat) (c : Cause) (inner va : Nat) : State :=
  if awaits s id k then
    let s := s.modStrand id fun t => { t with pend := t.pend.filter fun q => q.id != k }
    if (s.strand id).run = .bound then s.modStrand id fun t => { t with got := t.got ++ [(va, [BitVec.ofNat 8 c.num])] }
    else trapEntry s id c inner 0 va 0 0 (s.strand id).pc
  else s

/-- A packet from this device to a peer. -/
def request (s : State) (p part addr aux : Nat) (payload : List Byte) : Packet :=
  ⟨p, s.devid, 0, 0, part, 0, 0, addr, aux, 0, payload⟩

/-- The owner is asked for the line of an offset (R110); an instruction that only needs the line awaits it in no register. -/
def askLine (s : State) (act : PendAct) (p off va : Nat) : State :=
  quiet s
    (sendRequest (stallAway s act va) 3 (.strand s.strandId s.cur.pendNext)
      (request s p s.curPart (off / 64 * 64) (fillAux s p off) []))

/-- The host is asked for the granules of a place in a page that runs remote (R404). -/
def askHost (s : State) (act : PendAct) (u va n : Nat) : State :=
  let g := u / 32 * 32
  quiet s
    (sendHmem (stallAway s act va) s.curPart (.strand s.strandId s.cur.pendNext) false true g g (if n ≤ 32 then 32 else 64) 0 [] [] 0)

/-- A put to a peer place is on its way. -/
def putsTo (s : State) (p off n : Nat) : Bool :=
  s.strands.any fun (_, t) => t.puts.any fun q => window q.va == 12 && bitsOf q.va 47 38 == p && overlap (q.va % 2 ^ 38) 32 off n

/-- An access of a peer place comes after the stores that it must meet: those still buffered leave as puts, and it issues again
when they have been acknowledged (R85, R209). -/
def afterPuts (s : State) (p off n : Nat) (k : State → State) : State :=
  let s := flushWhere s s.curCore fun b => locOverlap (.peer p off) n b.loc b.bytes.length
  if putsTo s p off n then stallOn s .puts else k s

/-- The bytes of a peer place that are at hand: buffered stores that cover them are read early (R90), and a line held is read
while no store of the device to them is on its way (R85, R110). -/
def peerBytes (s : State) (p off n : Nat) : Option (List Byte) :=
  match storedBytes s s.curCore s.curPart (.peer p off) n with
  | some bs => some bs
  | none =>
    if putsTo s p off n || (s.core s.curCore).stores.any (fun b => locOverlap (.peer p off) n b.loc b.bytes.length) then none
    else (heldLine s p off).map fun x => (x.bytes.drop (off % 64)).take n

/-- The bytes of a peer or remote place that are not at hand are asked for. -/
def askAway (s : State) (act : PendAct) (loc : Loc) (n va : Nat) : State :=
  match loc with
  | .peer p off => afterPuts s p off n fun s => askLine s act p off va
  | .host u => askHost s act u va n
  | _ => s

/-- Issue a load of a peer or remote place (R90, R110, R404). -/
def awayLoad (s : State) (l : BitVec 4) (act : PendAct) (regs : List Byte → Deliver) (loc : Loc) (n va : Nat) : State :=
  match loc with
  | .peer p off =>
    (match peerBytes s p off n with
    | some bs => issueLong s l (.ready (regs bs)) va
    | none => askAway s act loc n va)
  | loc => askAway s act loc n va

/-- A granule of a page that runs remote is being written by a strand or by an engine element other than those of operation `me`: others
wait, so that what lies between a read and the write back is of no other writer (R84, R85; log 76). -/
def granuleBusy (s : State) (part : Nat) (me : Option Nat) (g : Nat) : Bool :=
  s.strands.any (fun (id, t) => s.strandPart id == part && t.pend.any fun p =>
      match p.act with
      | .hostStore u _ _ => u / 32 * 32 == g
      | _ => false)
    || s.ops.any (fun (k, o) => some k != me && o.part == part && o.writing == some g)

/-- The granule at an address with bytes in their place: those that stay are the host's. -/
def mergeGranule (granule : List Byte) (va : Nat) (bs : List Byte) : List Byte :=
  granule.take (va % 32) ++ bs ++ granule.drop (va % 32 + bs.length)

/-- A store to a page that runs remote is performed at the host, a granule at a time (R84, R404): a narrower one first reads
its granule (log 76). Stores to one granule come one after another. -/
def hostStore (s : State) (u va : Nat) (bs : List Byte) : State :=
  let g := u / 32 * 32
  if granuleBusy s s.curPart none g then retryLater s
  else if bs.length = 32 then
    quiet s (sendRemoteWrite (stallAway s (.hostStore u bs true) va) s.curPart (.strand s.strandId s.cur.pendNext) g bs 0)
  else askHost s (.hostStore u bs false) u va 32

/-- A strand of a core awaits the acknowledgement of a put. -/
def corePuts (s : State) (core : Nat) : Bool := (List.range 16).any fun i => !(s.strand (16 * core + i)).puts.isEmpty

/-- What a release at system scope waits for beyond the release itself: the puts of the strand and those its core held in its
buffer must be acknowledged, and none of its own may be lost (R92, R447); then go on. -/
def releaseSystem (s : State) (k : State → State) : State :=
  let s := release s s.strandId .system 0
  if corePuts s s.curCore then stallOn s .puts
  else
    match s.cur.lostPut with
    | some va => trapWith (s.setCur { s.cur with lostPut := none }) .machine 2 0 va
    | none => k s

/-- A release of the acting strand at a scope, then what follows it. -/
def releaseThen (s : State) (sc : Scope) (rect : Nat) (k : State → State) : State :=
  match sc with
  | .system => releaseSystem s k
  | sc => k (release s s.strandId sc rect)

end Sys2Proof.Machine
end

