-- ==== Sys2Proof/Machine/GrainMem.lean ====
section
/-! DEFINITION. Meanings of loads, stores, atomics, RED and FENCE (08 R198 to R211), inside and outside forwarding regions
(10 R254 to R263), and of the system window (17 R366). -/

namespace Sys2Proof.Machine

/-- An instruction that cannot be undone aborts a live region with DETAIL 0x42 (R256). -/
def irrevocable (s : State) : State := abortHeld s s.strandId .abortExplicit 0x42

/-- The region of the acting strand that tracks an access at an address (R254). -/
def tracked (s : State) (va : Nat) : Option Nat := if regionWindow va then s.cur.region else none

/-- The region that tracks a write, s0 being the state before the access was checked: none when the access itself has aborted
the region, since it then acts as it would outside one (R256). -/
def trackedWrite (s0 s : State) (va : Nat) : Option Nat :=
  if (liveRegion s0 s0.strandId).isSome ∧ (liveRegion s s.strandId).isNone then none else tracked s va

/-- An instruction of R256 that names an address: one outside the windows that a region tracks, or a write that must copy a
block first. It aborts a live region before any of its checks. -/
def writeIssues (s : State) (va : Nat) : State := if regionWindow va && !copyNeeded s va then s else irrevocable s

/-- An access of an aborted region reads what is committed (R263), unless that is poisoned (R199). -/
def readCommitted (s : State) (loc : Loc) (n va : Nat) (k : State → State) : State :=
  if meetsPoison s s.curCore s.curPart loc n then trapAt s .machine va else k s

/-- A region access to a page that runs remote goes on once the host has sent its granule (R254, R404; log 33). -/
def withGranule (s : State) (u va : Nat) (k : State → List Byte → State) : State :=
  let g := va / 32 * 32
  match s.cur.got.find? fun x => x.1 == g with
  | some (_, bs) => k (s.setCur { s.cur with got := [] }) bs
  | none => askHost s (.piece 32) (u / 32 * 32) g 32

/-- A region read of a page that runs remote: the host's bytes under the region writes of the granule's sequence. -/
def remoteLoad (s : State) (rid : Nat) (l : BitVec 4) (regs : List Byte → Deliver) (u n va : Nat) : State :=
  let sector := remoteSector s.curPart u
  withGranule s u va fun s g =>
    let bs := bytesAt g (u % 32) n
    match judge s rid sector false with
    | .go s => issueLong (seqAdd s sector ⟨rid, none, va⟩) l (.ready (regs (seqOver s sector (u % 32) bs))) va
    | .held => stallOn s (.depth sector false)
    | .aborted s => issueLong s l (.ready (regs bs)) va

/-- A load once its checks have passed. -/
def doLoad (s : State) (l : BitVec 4) (act : PendAct) (regs : List Byte → Deliver) (loc : Loc) (n va : Nat) : State :=
  let plain (s : State) : State := issueLong (orderLoads s s.strandId loc n) l act va
  if loc.isAway then
    match (tracked s va).filter (pendingRegion s), loc with
    | some rid, .host u => remoteLoad s rid l regs u n va
    | _, _ => awayLoad s l act regs loc n va
  else
    match tracked s va, loc with
    | some rid, .mem pa =>
      match judge s rid (pa / 32) false with
      | .go s =>
        let (s, bs) := regionRead s rid pa n va
        issueLong s l (.ready (regs bs)) va
      | .held => stallOn s (.depth (pa / 32) false)
      | .aborted s => readCommitted s loc n va plain
    | _, _ => plain s

/-- An access of the system window at system privilege acts as FENCE.AR at device scope first (R366). -/
def sysLoad (s : State) (l : BitVec 4) (regs : List Byte → Deliver) (va : Nat) : State :=
  let s := release s s.strandId .device 0
  match sysRead s s.curPart (va % 2 ^ 48) with
  | .ok v => issueLong s l (.ready (regs (leBytes 8 v))) va
  | .error c => trapAt s c va

def sysStore (s : State) (va : Nat) (bs : List Byte) : State :=
  let s := release s s.strandId .device 0
  match sysWrite s s.curPart (va % 2 ^ 48) (ofLeBytes bs) false with
  | .ok s => s.setCur s.cur.next
  | .error c => trapAt s c va

/-- The system window accepts only LD.i64 and ST.64, at system privilege (R83, R366). -/
def sysAllowed (s : State) (va : Nat) (word : Bool) : Bool := window va == 15 && s.cur.priv && word

/-- A decompressing load delivers what it has found, as long as the backing bytes stay as they are (R79). -/
def PendAct.backedBy (act : PendAct) (bs : List Byte) (src : List (Nat × List Byte)) : PendAct :=
  match act with
  | .load t d _ => .backed (some t) d bs src
  | .loadV d _ => .backed none d bs src
  | a => a

/-- A load of n bytes (R198). -/
def loadAt (s : State) (l : BitVec 4) (act : Loc → PendAct) (regs : List Byte → Deliver) (n va : Nat) (word : Bool) : State :=
  aligned s va n
    (if sysAllowed s va word then sysLoad s l regs va
     else withAccess (accessCheck s va n .load) va (fun s loc => doLoad s l (act loc) regs loc n va)
       (fun s bs src => issueLong s l (if src.isEmpty then .ready (regs bs) else (act .zero).backedBy bs src) va))

def execLd (t : LdType) (d b : GReg) (l : BitVec 4) (off : BitVec 12) (s : State) : Out :=
  withRegs s [d, b] fun u =>
    loadAt s l (.load t d) (loadRegs t d) (LdType.size t) (memAddr u b off (LdType.size t)) (t == .i64)

def execLdv (d b : GReg) (l : BitVec 4) (off : BitVec 12) (s : State) : Out :=
  withRegs s (b :: groupRegs d) fun u => loadAt s l (.loadV d) (loadVRegs d) 32 (memAddr u b off 32) false

/-! ## Stores -/

/-- A store enters the core's shared store buffer (R90, R201), or is performed at the host (R404). -/
def enterStore (s : State) (loc : Loc) (va : Nat) (bs : List Byte) : State :=
  match loc with
  | .host u => hostStore s u va bs
  | _ =>
    let s := orderLoads s s.strandId loc bs.length
    let s := s.modCore s.curCore fun c => { c with stores := c.stores ++ [{ strand := s.strandId, va := va, loc := loc, bytes := bs }] }
    s.setCur s.cur.next

/-- A region write to a page that runs remote: it is kept with the bytes beside it until the region commits, and discarded once the
region has been aborted (R254, R263, R404; log 33). -/
def remoteWrite (s : State) (rid u va : Nat) (bs : List Byte) : State :=
  let sector := remoteSector s.curPart u
  let write (s : State) (g : List Byte) : State :=
    match judge s rid sector true with
    | .go s =>
      let all := mergeGranule (seqOver s sector 0 g) u bs
      (seqAdd s sector ⟨rid, some (all.mapIdx fun i c => (i, c)), va⟩).setCur s.cur.next
    | .held => stallOn s (.depth sector true)
    | .aborted s => s.setCur s.cur.next
  if !pendingRegion s rid then s.setCur s.cur.next
  else if bs.length = 32 then write s bs
  else withGranule s u va write

/-- A store once its checks have passed: a region write, a discarded write of an aborted region (R263), or a plain store. -/
def doStore (s0 s : State) (loc : Loc) (va : Nat) (bs : List Byte) : State :=
  match trackedWrite s0 s va, loc with
  | some rid, .mem pa =>
    match judge s rid (pa / 32) true with
    | .go s => let s := regionWrite s rid pa bs va; s.setCur s.cur.next
    | .held => stallOn s (.depth (pa / 32) true)
    | .aborted s => s.setCur s.cur.next
  | some rid, .host u => remoteWrite s rid u va bs
  | _, _ => enterStore s loc va bs

/-- A store of bytes (R198). -/
def storeAt (s : State) (va : Nat) (bs : List Byte) (word : Bool) : State :=
  let s' := writeIssues s va
  aligned s' va bs.length
    (if sysAllowed s' va word then sysStore s' va bs
     else withAccess (accessCheck s' va bs.length .store) va (fun s' loc => doStore s s' loc va bs) (fun s _ _ => s))

def execSt (sz : StSize) (d b : GReg) (off : BitVec 12) (s : State) : Out :=
  withRegs s [d, b] fun u =>
    storeAt s (memAddr u b off (StSize.bytes sz)) (wordBytes (StSize.bytes sz) (u.read d)) (sz == .b8)

def execStv (d b : GReg) (off : BitVec 12) (s : State) : Out :=
  withRegs s (b :: groupRegs d) fun u => storeAt s (memAddr u b off 32) ((u.group d).flatMap (wordBytes 8)) false

/-- PREF has no effect but the line's place in the L1, which is invisible (R203; log 12). -/
def execPref (b : GReg) (_off : BitVec 12) (s : State) : Out := withRegs s [b] fun u => s.setCur u.next

/-! ## Atomics -/

/-- The new value of an AMO in n bits (R207). -/
def amoNew (k : AmoKind) (n old x : Nat) : Nat :=
  let a := BitVec.ofNat n old
  let b := BitVec.ofNat n x
  match k with
  | .add => (a + b).toNat
  | .and => (a &&& b).toNat
  | .or => (a ||| b).toNat
  | .xor => (a ^^^ b).toNat
  | .swap => b.toNat
  | .min => if a.slt b then a.toNat else b.toNat
  | .max => if a.slt b then b.toNat else a.toNat
  | .minn => if a.ult b then a.toNat else b.toNat
  | .maxn => if a.ult b then b.toNat else a.toNat

/-- The bytes an atomic covers. -/
def atomBytes : PendAct → Nat
  | .amo _ n _ _ _ _ => n
  | .cas n _ _ _ _ _ _ => n
  | .cas2 _ _ _ _ _ _ _ _ => 16
  | _ => 8

/-- An atomic on the old bytes: the new bytes if it writes, and what it delivers (R207, R208). -/
def atomEval (act : PendAct) (old : List Byte) : Option (List Byte) × Deliver :=
  let x := ofLeBytes old
  match act with
  | .amo k n _ d v _ => (some (leBytes n (amoNew k (8 * n) x v.toNat)), { regs := [(d, BitVec.ofNat 64 x)] })
  | .cas n _ d e v _ _ =>
    let hit : Bool := x == e.toNat % 2 ^ (8 * n)
    (if hit then some (wordBytes n v) else none,
      { regs := [(d, BitVec.ofNat 64 x)], status := some (status (if hit then .ok else .nomatch)) })
  | .cas2 _ d e0 e1 x0 x1 _ _ =>
    let lo := numAt old 0 8
    let hi := numAt old 8 8
    let hit : Bool := lo == e0.toNat && hi == e1.toNat
    (if hit then some (wordBytes 8 x0 ++ wordBytes 8 x1) else none,
      { regs := [(d, BitVec.ofNat 64 lo), (GReg.plus d 1, BitVec.ofNat 64 hi)],
        status := some (status (if hit then .ok else .nomatch)) })
  | _ => (none, {})

/-- The release that a comparison performs if it holds (R88). -/
def PendAct.release : PendAct → Option (Scope × Nat)
  | .cas _ _ _ _ _ _ r => r
  | .cas2 _ _ _ _ _ _ _ r => r
  | _ => none

/-- The old bytes of an atomic at its home or bank: what is ordered before it there comes first (R95, R100). -/
def atomOld (s : State) (loc : Loc) (n : Nat) : State × List Byte :=
  let s := recallLoc (commitEarly s loc n) loc
  (s, rawRead s loc n)

/-- Perform an atomic of a strand at its home or bank as one step (R97). A comparison that holds performs its release before it
writes; one that fails has none (R88). -/
def performAtom (s : State) (id : Nat) (loc : Loc) (act : PendAct) : State × Deliver :=
  let n := atomBytes act
  let (s, old) := atomOld s loc n
  let (s, old) := match (atomEval act old).1, act.release with
    | some _, some (sc, rect) => atomOld (Machine.release s id sc rect) loc n
    | _, _ => (s, old)
  let (new, v) := atomEval act old
  ((new.map (homeWrite s loc)).getD s, v)

/-- A delivered result, then the following word. -/
def deliverNext (s : State) (v : Deliver) : State := s.setCur ((s.cur.deliver v).next)

/-- An atomic of a region: its read half and, unless a comparison fails, its write half (R254). -/
def regionAtom (s : State) (rid pa va : Nat) (act : PendAct) : State :=
  let n := atomBytes act
  let committed (s : State) : State :=
    readCommitted s (.mem pa) n va fun s => deliverNext s (atomEval act (rawRead (recallLoc s (.mem pa)) (.mem pa) n)).2
  match judge s rid (pa / 32) false with
  | .held => stallOn s (.depth (pa / 32) false)
  | .aborted s => committed s
  | .go s' =>
    let (s', old) := regionRead s' rid pa n va
    let (new, v) := atomEval act old
    match new with
    | none => deliverNext s' v
    | some bs =>
      match judge s' rid (pa / 32) true with
      | .held => stallOn s (.depth (pa / 32) true)
      | .aborted s => committed s
      | .go s => deliverNext (regionWrite s rid pa bs va) v

/-- The packet that carries an atomic to a peer (R442): AUX and payload. -/
def atomPacket (act : PendAct) : Nat × List Byte :=
  match act with
  | .amo k n o _ v _ => (k.code + (if n = 8 then 16 else 0) + 32 * o.code, wordBytes 8 v)
  | .cas n o _ e v _ _ => (9 + (if n = 8 then 16 else 0) + 32 * o.code, wordBytes 8 e ++ wordBytes 8 v)
  | .cas2 o _ e0 e1 x0 x1 _ _ => (10 + 32 * o.code, wordBytes 8 e0 ++ wordBytes 8 e1 ++ wordBytes 8 x0 ++ wordBytes 8 x1)
  | _ => (0, [])

/-- An atomic would write at its place as that stands, behind what must come before it there. -/
def atomHolds (s : State) (loc : Loc) (act : PendAct) : Bool := (atomEval act (atomOld s loc (atomBytes act)).2).1.isSome

/-- A comparison that holds is to perform a release at system scope, which must be over before it writes (R88, R92). -/
def systemFirst (s : State) (loc : Loc) (act : PendAct) : Bool :=
  (act.release.map fun r => decide (r.1 = .system)).getD false && atomHolds s loc act

/-- An atomic sets out (R97, R209): at a bank at once; to its home slice, whose queue it enters (R385); to a peer. It
first lets the stores of its core to the location leave the buffer. -/
def sendAtom (s : State) (va : Nat) (loc : Loc) (act : PendAct) : State :=
  let n := atomBytes act
  let s := flushWhere s s.curCore fun b => locOverlap loc n b.loc b.bytes.length
  let k := s.cur.pendNext
  match loc with
  | .mem pa =>
    let s := stallAway s act va
    { s with atoms := s.atoms ++ [⟨homeSlice pa, s.curPart, s.strandId, k, false, (s.part s.curPart).atomq, none, 0⟩] }
  | .peer p off =>
    afterPuts s p off n fun s =>
      let (aux, pl) := atomPacket act
      sendRequest (stallAway s act va) 6 (.strand s.strandId k) (request s p s.curPart off aux pl)
  | loc =>
    let perform (s : State) : State :=
      let (s, v) := performAtom s s.strandId loc act
      deliverNext s v
    if systemFirst s loc act then releaseSystem s perform else perform s

def Order.releases : Order → Bool
  | .rel => true
  | .ar => true
  | _ => false

/-- An atomic outside regions, with its release: an AMO performs it first; a comparison at its home, if it holds (R88). A comparison at a
peer, which tells its outcome only with its answer, releases before it sets out (log 77). -/
def orderedAtom (s : State) (va : Nat) (o : Order) (sc : Scope) (loc : Loc) (act : Option (Scope × Nat) → Loc → PendAct) : State :=
  let sc := if window va = 12 then .system else sc
  let rect := wbits s.cur.scopeRect 31 0
  if !Order.releases o then sendAtom s va loc (act none loc)
  else if window va = 12 ∨ (act (some (sc, rect)) loc).release.isNone then
    releaseThen s sc rect fun s => sendAtom s va loc (act none loc)
  else sendAtom s va loc (act (some (sc, rect)) loc)

/-- An atomic at an address (R198, R207 to R209). -/
def atomAt (s : State) (va : Nat) (o : Order) (sc : Scope) (act : Option (Scope × Nat) → Loc → PendAct) : State :=
  let n := atomBytes (act none .zero)
  let s' := writeIssues s va
  aligned s' va n
    (withAccess (accessCheck s' va n .atom) va
      (fun s' loc =>
        match trackedWrite s s' va, loc with
        | some rid, .mem pa => regionAtom s' rid pa va (act none loc)
        | _, _ => orderedAtom s' va o sc loc act)
      (fun s _ _ => s))

def execAmo (k : AmoKind) (wd : AWidth) (o : Order) (sc : Scope) (d a b : GReg) (s : State) : Out :=
  withRegs s [d, a, b] fun t => atomAt s (vaOf (t.read a)) o sc fun _ l => .amo k (AWidth.bytes wd) o d (t.read b) l

def execCas (wd : AWidth) (o : Order) (sc : Scope) (d a b : GReg) (s : State) : Out :=
  withRegs s [d, a, b] fun t => atomAt s (vaOf (t.read a)) o sc fun r l => .cas (AWidth.bytes wd) o d (t.read d) (t.read b) l r

def execCas2 (o : Order) (sc : Scope) (d a b : GReg) (s : State) : Out :=
  withRegs s (a :: pairRegs d ++ pairRegs b) fun t =>
    atomAt s (vaOf (t.read a)) o sc fun r l =>
      .cas2 o d (t.read d) (t.read (GReg.plus d 1)) (t.read b) (t.read (GReg.plus b 1)) l r

/-! ## RED and FENCE -/

/-- A RED into an update-only line of the core (R99): its grant is a plain write (R264), a partial of another kind or type goes
home first. Stores to the line that a rectangle release has made visible are ordered before it (R95, R100). -/
def redLine (s : State) (pa : Nat) (k : RedKind) (t : RedType) (x : Nat) : State :=
  let core := s.curCore
  let line := pa / 64
  let s := commitEarly s (.mem (64 * line)) 64
  let s := flushWhere s core fun b => locOverlap (.mem pa) (redSize t) b.loc b.bytes.length
  let s := match (s.core core).red.find line with
    | some r => if r.kind = k ∧ r.type = t then s else recallCore s line core
    | none => s
  let s := match (s.core core).red.find line with
    | some _ => s
    | none => plainAbort (plainAbort s (2 * line)) (2 * line + 1)
  s.modCore core fun c =>
    let r := c.red.getD line ⟨k, t, []⟩
    let off := pa % 64
    let v := match r.parts.find off with
      | some y => redCombine k t y x
      | none => x % 2 ^ (8 * redSize t)
    { c with red := c.red.put line { r with parts := r.parts.put off v } }

/-- A RED at a scratchpad bank is an AMO without a result (R58, R210). -/
def redBank (s : State) (loc : Loc) (k : RedKind) (t : RedType) (x : Nat) : State :=
  let n := redSize t
  let s := flushWhere s s.curCore fun b => locOverlap loc n b.loc b.bytes.length
  let s := commitEarly s loc n
  homeWrite s loc (leBytes n (redCombine k t (ofLeBytes (rawRead s loc n)) (x % 2 ^ (8 * n))))

def execRed (k : RedKind) (t : RedType) (a b : GReg) (s : State) : Out :=
  withRegs s [a, b] fun u =>
    let va := vaOf (u.read a)
    if t = .f32 ∧ k ≠ .add then trap s .illegal
    else
      let s := irrevocable s
      aligned s va (redSize t)
        (withAccess (accessCheck s va (redSize t) .red) va
          (fun s loc =>
            let s := match loc with
              | .mem pa => redLine s pa k t (u.read b).toNat
              | loc => redBank s loc k t (u.read b).toNat
            s.setCur s.cur.next)
          (fun s _ _ => s))

/-- FENCE (R96, R211). Its acquire part needs nothing more: every earlier load has been performed (R143). -/
def execFence (k : FenceKind) (sc : Scope) (a : GReg) (s : State) : Out :=
  withRegs s (if sc = .rect then [a] else []) fun t =>
    let done (s : State) : State := s.setCur s.cur.next
    if k = .acq then done s else releaseThen s sc (wbits (t.read a) 31 0) done

end Sys2Proof.Machine
end

