-- ==== Sys2Proof/Machine/Versioned.lean ====
section
/-! DEFINITION. Versioned buffers at their owner (04 R109 to R111; 08 R204 to R206): the answers to fills, VBSEAL, VBOPEN and
its waits; and what the owner checks of a peer's request (20 R444, R445). -/

namespace Sys2Proof.Machine

/-! ## Export entries -/

def exOff (s : State) (e : Nat) : Nat := bitsOf (exportWord s e 0) 37 16 * 65536
def exAlt (s : State) (e : Nat) : Nat := bitsOf (exportWord s e 1) 41 32
def exBit (s : State) (e b : Nat) : Bool := (exportWord s e 0).testBit b

/-- Bits of word 0 (R444). -/
def bitR : Nat := 55
def bitW : Nat := 54
def bitA : Nat := 53
def bitVB : Nat := 52
def bitT : Nat := 51
def bitMB : Nat := 50
def bitMIR : Nat := 49
def bitSH : Nat := 48

/-- The device serves requests addressed to a lost peer whose ALT it is (R450). -/
def promotedFor (s : State) (dst : Nat) : Bool := s.lost.has dst && routeAlt (s.routes.getD dst 0) == s.devid

/-- The range entry that covers n bytes at an offset of requests addressed to dst: an own entry, or after promotion an SH
entry for the lost peer. -/
def servingEntry (s : State) (dst o n : Nat) : Option Nat :=
  (exportIds s).find? fun e =>
    !exBit s e bitT && !exBit s e bitMB
      && (if dst = s.devid then !exBit s e bitSH else exBit s e bitSH && exAlt s e == dst)
      && decide (exOff s e ≤ o) && decide (o + n ≤ exOff s e + exLen s e)

/-- Why the owner does not perform a peer's write at a scratchpad place: it is saved or restored, or no store may reach it. -/
def padRefuses (s : State) (part a : Nat) : Bool :=
  let st := ((posOf a).map fun p => (s.desc p).st).getD .free
  !s.partHas part (a / 2 ^ 18 / 24) || padIsChisel (a / 2 ^ 18 % 24) || (spillOwner a).isSome || st != .free
    || ((footprintOwner a).map fun o => (s.strand o).run != .free).getD false

/-- The place of an exported byte under the owner's own tree (R445), needing the given permissions. -/
def ownerPlace (s : State) (e o need : Nat) : Except Cause Loc :=
  let va := exVa s e + (o - exOff s e)
  if window va = 8 then
    match padDecode va with
    | none => .error .page
    | some a => if s.partHas (exPart s e) (a / 2 ^ 18 / 24) then .ok (.spad a) else .error .perm
  else treeAddr s (exPart s e) va need

/-- A peer's access under the owner's tree has been refused: a malformed entry on its walks is recorded (R390). -/
def noteOwner (s : State) (e o need : Nat) (n : Nat) : State :=
  (List.range n).foldl (fun s i =>
    match ownerPlace s e (o + 32 * i) need with
    | .error c => noteWalk s (exPart s e) ioDie 0xFF (exVa s e + (o + 32 * i - exOff s e)) c
    | .ok _ => s) s

/-! ## Fills -/

/-- Answer a fill of a SEALED buffer with its line, tagged with the current version (R110), or with PERM where the owner's tree refuses
it (R442, R445). -/
def answerFill (s : State) (e age : Nat) (since : Option Nat) (p : Packet) : State :=
  let o := p.addr / 64 * 64
  match ownerPlace s e o permR with
  | .error _ => respondAged (noteOwner s e o permR 1) age since 4 p Code.fault.num Cause.perm.num 0 0 []
  | .ok l =>
    let s := recallLoc (commitEarly s l 64) l
    let v := s.vbuf e
    let second : Loc := match l with
      | .mem pa => .mem (pa + 32)
      | l => l
    let pm := (if isPoisoned s l then 1 else 0) + (if isPoisoned s second then 2 else 0)
    let bs := rawRead s l 64
    let s := s.setVbuf e { v with fillers := NSet.ins v.fillers p.src, lastFill := v.lastFill.put v.version s.cycle }
    respondAged s age since 4 p Code.ok.num 0 v.version pm bs

/-- Answer every held fill of a buffer; the final response starts at age 0 (R442). -/
def answerHeld (s : State) (e : Nat) : State :=
  let ps := (s.vbuf e).heldFills
  ps.foldl (fun s p => answerFill s e 0 none p) (s.modVbuf e fun v => { v with heldFills := [] })

/-! ## VBSEAL and VBOPEN -/

/-- The versioned buffer of this device whose base an address is (R204): one of a partition's own before another's. -/
def vbufBase (s : State) (part va : Nat) : Option Nat :=
  let es := (exportIds s).filter fun e => exBit s e bitVB && !exBit s e bitSH && exVa s e == va
  (es.find? fun e => exPart s e == part).orElse fun _ => es.head?

/-- Update-only lines of a range of a partition's addresses are recalled. -/
def recallRange (s : State) (part va n : Nat) : State :=
  (List.range (n / 65536)).foldl (fun s i =>
    match treeAddr s part (va + 65536 * i) permR with
    | .ok (.mem pa) => recallFrame s pa
    | _ => s) s

/-- VBSEAL once its release has been performed (R205): what the partition's cores have under way in the buffer belongs to the
version that is sealed, or comes after; region writes not yet committed fall (log 73). -/
def sealVbuf (s : State) (d : GReg) (l : BitVec 4) (e : Nat) : State :=
  let lo := exVa s e
  let hi := lo + exLen s e
  let inside (va : Nat) : Bool := decide (lo ≤ va) && decide (va < hi)
  let s := recallRange (leaveOldPlace s s.curPart inside) s.curPart lo (hi - lo)
  let v := s.vbuf e
  let s := answerHeld (s.setVbuf e { v with isSealed := true, everSealed := true }) e
  issueStatus s d l (statusWord .ok 0 v.version)

def execVbseal (d a : GReg) (l : BitVec 4) (s : State) : Out :=
  withRegs s [d, a] fun t =>
    let s := irrevocable s
    let va := vaOf (t.read a)
    match vbufBase s s.curPart va with
    | none => issueStatus s d l (status .invalid)
    | some e =>
      if exPart s e ≠ s.curPart then issueStatus s d l (status .refused)
      else if (s.vbuf e).reuseAt.isSome then retryLater s
      else if (s.vbuf e).isSealed then issueStatus s d l (status .refused)
      else releaseSystem s fun s => sealVbuf s d l e

/-- Version notices go to every device that has filled a line (R109). -/
def sendNotices (s : State) (e v : Nat) (ps : List Nat) : State :=
  ps.foldl (fun s p =>
    let tag := s.rtagNext % 2 ^ 32
    let s := { s with rtagNext := s.rtagNext + 1 }
    sendPacket s 14 { request s p (exPart s e) (exOff s e) v [] with rtag := tag } none) s

/-- The VBOPEN in progress is complete: its strand gets OK and the version. -/
def finishOpen (s : State) (e : Nat) : State :=
  let v := s.vbuf e
  match v.opening with
  | none => s
  | some (id, k, _, _) =>
    let s := s.setVbuf e { v with opening := none }
    let w := statusWord .ok 0 v.version
    s.modStrand id fun t => { t with pend := t.pend.map fun p =>
      match p.act with
      | .awaiting d => if p.id = k then { p with act := .ready { regs := [(d, w)], status := some w } } else p
      | _ => p }

/-- The buffer moves to OPEN at v + 1 and its notices go out (R109, R206). -/
def openVbuf (s : State) (e : Nat) : State :=
  let v := s.vbuf e
  let ps := v.fillers
  let next := (v.version + 1) % 2 ^ 24
  let s := s.setVbuf e { v with isSealed := false, version := next, fillers := [], reuseAt := none,
                                opening := v.opening.map fun (id, k, _, _) => (id, k, s.cycle, ps) }
  let s := sendNotices s e next ps
  if ps.isEmpty then finishOpen s e else s

def execVbopen (d a : GReg) (l : BitVec 4) (s : State) : Out :=
  withRegs s [d, a] fun t =>
    let s := irrevocable s
    let va := vaOf (t.read a)
    match vbufBase s s.curPart va with
    | none => issueStatus s d l (status .invalid)
    | some e =>
      let v := s.vbuf e
      if exPart s e ≠ s.curPart then issueStatus s d l (status .refused)
      else if v.opening.isSome then retryLater s
      else if !v.isSealed then issueStatus s d l (status .refused)
      else
        let k := s.cur.pendNext
        let s := issueLong s l (.awaiting d) 0
        let wait := ((v.lastFill.find ((v.version + 1) % 2 ^ 24)).map fun c => c + 65 * usCycles).getD 0
        let s := s.setVbuf e { v with opening := some (s.strandId, k, s.cycle, v.fillers),
                                      reuseAt := if s.cycle < wait then some wait else none }
        if s.cycle < wait then s else openVbuf s e

/-- VBOPEN_REUSE_WAIT: 65 us have passed since the last fill tagged with the number that is used again (R111). -/
def execVbopenReuseWait (e : Nat) (s : State) : Out :=
  .next
    (match (s.vbuf e).reuseAt with
    | some c => if c ≤ s.cycle then openVbuf s e else s
    | none => s)

end Sys2Proof.Machine
end

