-- ==== Sys2Proof/Machine/EngineOps.lean ====
section
/-! DEFINITION. What the engines share (09 R226 to R230): forming an operation, its places, its completion, and elements that
travel to a peer or to the host (20 R434, R442, R447). -/

namespace Sys2Proof.Machine

/-! ## Completion -/

/-- The completion writes the token register, and wakes what waits for it (R226, R374). -/
def Strand.complete (t : Strand) (tok : Nat) (w : Word) : Strand :=
  let t := { t.write (.g (Fin.ofNat 16 tok)) w with pendTok := NSet.rem t.pendTok tok, tokLatch := true }
  { t with run := if t.run = .stall (.token tok) then .ready else t.run }

/-- Take an operation out of the tables with its ranges (R103). -/
def removeOp (s : State) (k : Nat) (o : EngOp) : State :=
  let s := s.modCluster (strandCluster o.strand) fun c => { c with locks := c.locks.filter fun l => l.op != k }
  { s with ops := s.ops.del k, trowels := s.trowels.map fun (u, l) => (u, l.filter (· != k)) }

/-- A hand-back goes to the issuing task while its token's slot is free, else to the sink (R47, R369). -/
def handBack (s : State) (o : EngOp) (inner addr elem : Nat) : State :=
  let t := s.strand o.strand
  if t.run ≠ .free ∧ t.task = o.task ∧ (t.reports.all fun r => r.tok != o.tok) then
    s.setStrand o.strand { t with reports := t.reports ++ [⟨o.tok, inner, addr, elem, o.sink⟩] }
  else sinkReport s (strandCluster o.strand) ⟨inner, o.task, 1, addr, elem, o.sink, o.part, o.launch, false⟩

/-- An operation ends (R103): its ranges are released and its token is written, unless its task has ended (R226). What it hands back
comes before a wait for the token completes. -/
def endOp (s : State) (k : Nat) (w : Word) (report : State → EngOp → State) : State :=
  match s.ops.find k with
  | none => s
  | some o =>
    let s := removeOp s k o
    let t := s.strand o.strand
    let mine : Bool := t.run != .free && t.task == o.task
    let s := report (if mine then s.setStrand o.strand (t.complete o.tok w) else s) o
    checkHalted (if mine then settleWait s o.strand else s) o.part

/-- An operation completes. -/
def completeOp (s : State) (k : Nat) (w : Word) : State := endOp s k w fun s _ => s

/-- An operation stops at element g (R229). -/
def failOp (s : State) (k : Nat) (c : Cause) (addr g : Nat) : State :=
  endOp s k (statusWord .fault c.num g) fun s o => handBack s o c.num addr g

/-! ## Places of elements -/

inductive EngAcc where
  | go (s : State) (l : Loc)
  | miss (s : State) (va : Nat)
  | fault (s : State) (c : Cause)
  /-- the element waits for others (R281) -/
  | wait (s : State)

/-- Look up the cluster's engine TLB (R392, R397); a miss waits for a fill, or is PAGE when the fill reported NONE. -/
def engLook (s : State) (o : EngOp) (va : Nat) (k : State → Entry → EngAcc) : EngAcc :=
  let c := strandCluster o.strand
  let lost : EngAcc := if o.missNone ∧ (o.miss.map fun m => m / 65536) = some (va / 65536) then .fault s .page else .miss s va
  match tlbLook (s.cluster c).tlb o.part va with
  | none => lost
  | some (e, l) =>
    if (e.until_.map fun x => decide (x ≤ s.cycle)).getD false then
      .miss (s.modCluster c fun x => { x with tlb := x.tlb.erase e }) va
    else if leafCmp e.word && e.surface.isNone then .fault s .page
    else k (s.modCluster c fun x => { x with tlb := l }) e

/-- A paged element: permission and U (R394). A write to a SEALED versioned buffer is a PERM fault (R205). -/
def engPaged (s : State) (o : EngOp) (va need : Nat) : EngAcc :=
  engLook s o va fun s e =>
    if !grants e.word (need + permU) then .fault s .perm
    else if need ≠ permR ∧ ((vbufAt s o.part va).map fun v => (s.vbuf v).isSealed).getD false then .fault s .perm
    else if e.until_.isSome then .go s (.host va)
    else
      match entryPa s e va with
      | some pa => .go s (.mem pa)
      | none => .fault s .perm

/-- A scratchpad element (R62, R65, R72, R73). -/
def engPad (s : State) (o : EngOp) (va : Nat) (wr : Bool) : EngAcc :=
  match padDecode va with
  | none => .fault s .page
  | some a =>
    let st := ((posOf a).map fun p => (s.desc p).st).getD .free
    let pinned : Bool := ((footprintOwner a).map fun i => (s.strand i).run != .free).getD false
    if a / 2 ^ 18 / 24 ≠ strandCluster o.strand then .fault s .perm
    else if wr ∧ (padIsChisel (a / 2 ^ 18 % 24) ∨ pinned ∨ (spillOwner a).isSome) then .fault s .perm
    else if wr ∧ st = .opened then .fault s .perm
    else if wr ∧ st ≠ .free then .fault s .sealedBuf
    else if !wr ∧ st = .writing then .fault s .rangeLocked
    else .go s (.spad a)

/-- The registration that covers an offset of the host window with a direction (R433). -/
def hostRange (s : State) (part off : Nat) (wr : Bool) : Option Registration :=
  s.regs.find? fun r => r.part == part && decide (r.off ≤ off) && decide (off < r.off + r.len) && (if wr then r.write else r.read)

/-- The place of up to 32 bytes of an element within one granule (R58, R229). -/
def engPlace (s : State) (o : EngOp) (va : Nat) (wr : Bool) : EngAcc :=
  match window va with
  | 8 => engPad s o va wr
  | 10 =>
    if wr then .fault s .perm
    else
      engLook s o (va % 2 ^ 48) fun s e =>
        if !grants e.word (permR + permU) then .fault s .perm
        else if e.until_.isSome then .go s (.host (va % 2 ^ 48))
        else
          match e.surface with
          | some f => (match decompress s f (va % 2 ^ 48) with
            | some l => .go s l
            | none => .fault s .page)
          | none => (match entryPa s e (va % 2 ^ 48) with
            | some pa => .go s (.mem pa)
            | none => .fault s .page)
  | 11 => .fault s .page
  | 12 =>
    if o.kind ≠ .copy then .fault s .perm
    else
      match peerCheck s va with
      | .error c => .fault s c
      | .ok (p, off) => .go s (.peer p off)
  | 13 =>
    if o.kind ≠ .copy ∧ !(o.kind = .fill ∧ wr) then .fault s .perm
    else if (hostRange s o.part (va % 2 ^ 48) wr).isNone then .fault s .page
    else .go s (.host va)
  | 14 =>
    match seqAddr s o.part va with
    | .error c => .fault s c
    | .ok (id, b, pa) =>
      if !wr then .go s (.mem pa)
      else
        if copyWaits s id b fun x => x.strand != o.strand || x.task != o.task || x.tok != o.tok then .wait s else
        match copyOnWrite s id b with
        | none => .fault s .page
        | some s =>
          match seqAddr s o.part va with
          | .error c => .fault s c
          | .ok (_, _, pa) => .go s (.mem pa)
  | 9 => .fault s .perm
  | 15 => .fault s .perm
  | _ => engPaged s o va (if wr then permW else permR)

/-! ## Elements -/

def setOp (s : State) (k : Nat) (o : EngOp) : State := { s with ops := s.ops.put k o }

/-- The next element of an operation. -/
def nextElem (s : State) (k : Nat) : State :=
  match s.ops.find k with
  | some o =>
    setOp s k { o with next := o.next + o.stride, stride := 1, away := false, miss := none, missNone := false, got := [], puts := [],
                       writing := none }
  | none => s

/-- The element waits for a fill. -/
def missElem (s : State) (k : Nat) (o : EngOp) (va : Nat) : State := setOp s k { o with miss := some va, missNone := false }

/-- The pieces of an element inside single granules. -/
def pieces (va n : Nat) : List (Nat × Nat) :=
  if n ≤ 32 then [(va, n)] else (List.range (n / 32)).map fun i => (va + 32 * i, 32)

/-- The places of all pieces, or the first that is not there with its address. -/
def engPlaces (s : State) (o : EngOp) (wr : Bool) : List (Nat × Nat) → List (Loc × Nat) → Except (Nat × EngAcc) (State × List (Loc × Nat))
  | [], acc => .ok (s, acc)
  | (va, n) :: ps, acc =>
    match engPlace s o va wr with
    | .go s l => engPlaces s o wr ps (acc ++ [(l, n)])
    | x => .error (va, x)

/-- The bytes at places of the device, and whether some granule is poisoned. -/
def readPlaces (s : State) (ls : List (Loc × Nat)) : State × List Byte × Bool :=
  ls.foldl (fun (s, bs, p) (l, n) =>
    let s := recallLoc (commitEarly s l n) l
    (s, bs ++ rawRead s l n, p || isPoisoned s l)) (s, [], false)

/-- Write bytes at places of the device, poisoned where what was read was (R229). -/
def writePlaces (s : State) (pois : Bool) : List (Loc × Nat) → List Byte → State
  | [], _ => s
  | (l, n) :: ls, bs => writePlaces (markedWrite s l (bs.take n) pois) pois ls (bs.drop n)

/-- The HMEM of an element's granule (R434, R435): in the host window, or of a page that runs remote (R404). -/
def elemHmem (s : State) (o : EngOp) (k va : Nat) (wr : Bool) (data : List Byte) (pois : Bool) : State :=
  let pm := if pois then 1 else 0
  if window va = 13 then
    match hostRange s o.part (va % 2 ^ 48) wr with
    | none => s
    | some r => sendHmem s o.part (.engine k o.next) wr false (va % 2 ^ 48 - r.off) va 32 0 r.key data pm
  else if wr then sendRemoteWrite s o.part (.engine k o.next) va data pm
  else sendHmem s o.part (.engine k o.next) false true va va 32 0 [] data pm

/-- Store a granule of XCOPY or XFILL: in the device at once, else as a put or as HMEM. -/
def storeElem (s : State) (k : Nat) (o : EngOp) (va : Nat) (bs : List Byte) (pois : Bool) : State :=
  match engPlace s o va true with
  | .miss s va => missElem s k { o with away := false } va
  | .fault s c => failOp s k c va o.next
  | .wait s => setOp s k { o with away := false }
  | .go s (.peer p off) =>
    sendRequest (setOp s k { o with away := true }) 1 (.engine k o.next)
      { request s p o.part off 0 bs with pmask := if pois then 1 else 0 }
  | .go s (.host v) =>
    if window v ≠ 13 ∧ granuleBusy s o.part (some k) v then setOp s k { o with away := false }
    else elemHmem (setOp s k { o with away := true, writing := if window v = 13 then none else some v }) o k v true bs pois
  | .go s l => nextElem (writePlaces s pois [(l, 32)] bs) k

/-- The granules of an element that the host is to write are sent one after another; then it is done. -/
def sendPuts (s : State) (k : Nat) (o : EngOp) : State :=
  match o.puts with
  | [] => nextElem (setOp s k o) k
  | (va, bs, pois) :: _ => elemHmem (setOp s k { o with away := true, writing := some va }) o k va true bs pois

/-- The host is asked for a granule that the element needs. -/
def askGranule (s : State) (k : Nat) (o : EngOp) (va : Nat) : State :=
  elemHmem (setOp s k { o with away := true, want := va, miss := none, missNone := false }) o k va false [] false

/-- An operation whose elements have an index list (R232). -/
def EngOp.indexed (o : EngOp) : Bool := o.kind == .gather || o.kind == .scatter

/-- A granule has come from outside: a copy's source, or one that an indexed element needs, which it then goes on with. -/
def elemBytes (s : State) (k elem : Nat) (bs : List Byte) (pois : Bool) : State :=
  match s.ops.find k with
  | some o =>
    if !o.away ∨ o.next ≠ elem then s
    else if o.indexed then setOp s k { o with away := false, got := o.got ++ [(o.want, bs, pois)] }
    else storeElem s k o (o.a + 32 * elem) bs pois
  | none => s

/-- A write of an element has been acknowledged. -/
def elemAck (s : State) (k elem : Nat) : State :=
  match s.ops.find k with
  | some o => if o.away ∧ o.next = elem then sendPuts s k { o with puts := o.puts.tail } else s
  | none => s

/-- An element failed outside the device (R434, R441, R447). -/
def elemLost (s : State) (k elem : Nat) (wr : Bool) (c : Cause) : State :=
  match s.ops.find k with
  | some o =>
    let va := if !o.indexed then (if wr then o.a else o.b) + 32 * elem else if wr then (o.puts.head?.map (·.1)).getD o.a else o.want
    if o.away ∧ o.next = elem then failOp s k c va elem else s
  | none => s

end Sys2Proof.Machine
end

