-- ==== Sys2Proof/Machine/TaskRecord.lean ====
section
/-! DEFINITION. Task records and their acceptance (02 R24 to R27), where a task is to run (02 R35, R37), and the queue it
enters. -/

namespace Sys2Proof.Machine

/-- A task record read from its 128 bytes (R24). -/
def parseTask (bs : List Byte) : TaskRec :=
  { entry := numAt bs 0 8, args := (List.range 4).map fun i => BitVec.ofNat 64 (numAt bs (8 + 8 * i) 8), place := numAt bs 40 8,
    sink := numAt bs 48 4,
    fps := (List.range 4).map fun i => (numAt bs (56 + 16 * i) 8, numAt bs (64 + 16 * i) 4) }

/-- PLACE fields (R25). -/
def placePrio (w : Nat) : Nat := bitsOf w 26 24
def placeRadius (w : Nat) : Nat := bitsOf w 21 16
def placeTarget (w : Nat) : Nat := w % 65536

/-- The reserved fields and footprints of a record are well-formed (R26). The base of a range that is not used, its length being 0, is not
looked at (log 81). -/
def taskShape (bs : List Byte) : Bool :=
  let r := parseTask bs
  let live := r.fps.filter fun f => f.2 != 0
  r.entry % 4 == 0 && bitsOf r.place 63 27 == 0 && bitsOf r.place 23 22 == 0 && numAt bs 52 4 == 0 && numAt bs 120 8 == 0
    && (List.range 4).all (fun i => numAt bs (68 + 16 * i) 4 == 0)
    && r.fps.all (fun f => f.2 % 32 == 0) && live.all (fun f => f.1 % 32 == 0) && decide ((r.fps.map (·.2)).sum ≤ 8192)

/-- How a launch places its work: HINT, or LOGICAL with its rectangle and translation (R34, R37). -/
structure PlaceMode where
  logical : Bool
  w : Nat
  h : Nat
  x0 : Nat
  y0 : Nat
  deriving DecidableEq, Repr

/-- The placement checks made at arrival (R26, R416). -/
def placeOk (s : State) (part : Nat) (m : PlaceMode) (r : TaskRec) : Bool :=
  let t := placeTarget r.place
  if m.logical then placeRadius r.place == 0 && decide (t % 256 < m.w) && decide (t / 256 < m.h)
  else
    match unpackXY t with
    | some (x, y) => ((coreAt x y).map fun c => s.partHas part (c / 16)).getD false
    | none => false

/-- The hint core, or the core a logical target is translated to (R37). -/
def targetCore (m : PlaceMode) (r : TaskRec) : Option Nat :=
  let t := placeTarget r.place
  if m.logical then coreAt (t % 256 + m.x0) (t / 256 + m.y0) else coreAt (t % 256) (t / 256)

def launchMode (s : State) (launch : Nat) : PlaceMode :=
  match s.launches.find launch with
  | some l => ⟨l.logical, l.w, l.h, l.x0, l.y0⟩
  | none => ⟨false, 0, 0, 0, 0⟩

/-- A task id is in use by a live task or tile task. -/
def idLive (s : State) (n : Nat) : Bool := (s.tasks.find n).isSome || s.ctxs.any fun (_, c) => c.run != .free && c.task == n

/-- The id of the n-th task of a partition (log 16): partitions share no id, and one returns only after 2^29 further tasks of its
partition (R27). -/
def taskId (part n : Nat) : Nat := (8 * n + part) % 2 ^ 32

/-- The next task number of a partition from a counter: its id is not zero and not live (R27). -/
def freshNumber (s : State) (part : Nat) : Nat → Nat → Nat
  | 0, n => n
  | k + 1, n => if taskId part n = 0 ∨ idLive s (taskId part n) then freshNumber s part k (n + 1) else n

def newId (s : State) (part : Nat) : Nat × State :=
  let n := freshNumber s part (s.tasks.length + s.ctxs.length + 2) (s.part part).taskNext
  (taskId part n, s.modPart part fun x => { x with taskNext := n + 1 })

/-- Accept a task into a cluster's queue (R33, R35). -/
def acceptTask (s : State) (part launch parent : Nat) (logical : Bool) (r : TaskRec) (cluster start : Nat) : Nat × State :=
  let (id, s) := newId s part
  let t : Task := { part := part, launch := launch, parent := parent, desc := r, logical := logical, start := start,
                    st := .queued cluster, arrival := s.cycle }
  let s := { s with tasks := s.tasks.put id t }
  let s := modLaunch s launch fun l => { l with live := l.live + 1 }
  (id, s.modCluster cluster fun c => { c with queue := c.queue ++ [id] })

/-- The bytes that a load of the acting strand meets at a place outside the device, if they are at hand. -/
def awayBytes (s : State) (loc : Loc) (n va : Nat) : Option (List Byte) :=
  ((s.cur.got.find? fun g => g.1 == va).map (·.2)).orElse fun _ =>
    match loc with
    | .peer p off => peerBytes s p off n
    | _ => none

/-- The bytes of n consecutive loads of `size` bytes by the acting strand, each under the checks of R198. The number is the
address of the load it ended at. -/
def readPieces (s : State) (va size : Nat) : Nat → List Byte → Nat × Access
  | 0, bs => (va, .value s bs)
  | n + 1, bs =>
    match accessCheck s va size .load with
    | .value s b => readPieces s (va + size) size n (bs ++ b)
    | .backed s b _ => readPieces s (va + size) size n (bs ++ b)
    | .go s l =>
      if l.isAway then
        (match awayBytes s l size va with
        | some b => readPieces s (va + size) size n (bs ++ b)
        | none => (va, .go s l))
      else
        let (b, s) := readNow s s.curCore s.curPart l size
        readPieces s (va + size) size n (bs ++ b)
    | .trap s c => (va, .trap s c)
    | .stall s c => (va, .stall s c)

/-- Use what readPieces found; bytes of a peer or of the host are asked for, and the instruction issues again with them. -/
def withPieces (s : State) (va size n : Nat) (k : State → List Byte → State) : State :=
  let (va, r) := readPieces s va size n []
  withAccess r va (fun s l => askAway s (.piece size) l size va) (fun s bs _ => k (s.setCur { s.cur with got := [] }) bs)

/-- The bytes that such an instruction asked for have come: it issues again with them. -/
def gotPiece (s : State) (id k va : Nat) (bs : List Byte) : State :=
  s.modStrand id fun t =>
    { t with pend := t.pend.filter fun q => q.id != k, got := t.got ++ [(va, bs)],
             run := if t.run = .stall .atomic then .ready else t.run }

end Sys2Proof.Machine
end

