-- ==== Sys2Proof/Machine/GrainSync.lean ====
section
/-! DEFINITION. Meanings of the SYNC major: mailboxes, groups, barriers, tasks (08 R212 to R224; 02 R38 to R42). -/

namespace Sys2Proof.Machine

/-! ## Mailboxes -/

/-- Fields of a mailbox address (R212). -/
def mbTask (a : Word) : Nat := wbits a 63 32
def mbPeer (a : Word) : Nat := wbits a 31 22
def mbRemote (a : Word) : Bool := a.getLsbD 21
def mbStrand (a : Word) : Nat := wbits a 19 16

/-- The receiving strand of an address whose reserved field is zero and whose XY names a grain core (R212, R213). -/
def mbReceiver (a : Word) : Option Nat :=
  if a.getLsbD 20 ∨ (!mbRemote a ∧ mbPeer a ≠ 0) then none
  else ((unpackXY (wbits a 15 0)).bind fun (x, y) => coreAt x y).map fun c => 16 * c + mbStrand a

/-- The address of a strand's own mailbox. -/
def ownMailbox (id task : Nat) : Word :=
  BitVec.ofNat 64 (task * 2 ^ 32 + id % 16 * 2 ^ 16 + coreXY (strandCore id))

/-- What the receiving core decides (R213): the message enters the mailbox of the task named, or is refused. -/
def deliverMessage (s : State) (part : Nat) (a : Word) (m : Message) : State × Code :=
  match mbReceiver a with
  | none => (s, .invalid)
  | some r =>
    if s.strandPart r ≠ part ∨ taskStrand s part (mbTask a) ≠ some r then (s, .refused)
    else
      match enqueue s r m with
      | some s => (s, .ok)
      | none => (s, .refused)

/-- SEND (R213): local messages fly to the receiver's core; remote ones go as MSG packets. -/
def execSend (d a b : GReg) (l : BitVec 4) (s : State) : Out :=
  withRegs s (d :: a :: groupRegs b) fun t =>
    let s := irrevocable s
    let x := t.read a
    let remote := mbRemote x
    if (mbReceiver x).isNone ∨ (remote ∧ !s.isMember (mbPeer x)) then issueStatus s d l (status .invalid)
    else if remote then
      quiet s (releaseSystem s fun s =>
        let k := s.cur.pendNext
        sendRequest (stallAway s (.awaiting d) 0) 10 (.strand s.strandId k)
          (request s (mbPeer x) s.curPart x.toNat t.task ((t.group b).flatMap (wordBytes 8))))
    else
      let s := release s s.strandId .device 0
      let k := s.cur.pendNext
      let f : Flying := ⟨s.strandId, k, t.task, s.curPart, x, t.group b⟩
      let s := issueLong s l (.awaiting d) 0
      { s with flying := s.flying ++ [f] }

/-- MESSAGE_DELIVERY: a message reaches the receiving core. Messages of one sender to one mailbox keep their order (R213). -/
def execMessageDelivery (k : Nat) (s : State) : Out :=
  .next
    (match s.flying[k]? with
    | none => s
    | some f =>
      if (s.flying.take k).any fun g => g.strand == f.strand && g.addr == f.addr then s
      else
        let (s', c) := deliverMessage s f.part f.addr ⟨0, f.task, f.words⟩
        let s' := { s' with flying := s.flying.eraseIdx k }
        answerStatus s' f.strand f.k c)

/-- RECV (R214). -/
def execRecv (d a : GReg) (e : BitVec 5) (s : State) : Out :=
  withRegs s (a :: groupRegs d) fun t =>
    let s := irrevocable s
    let x := t.read a
    if x ≠ 0 ∧ x ≠ ownMailbox s.strandId t.task then s.setCur { s.cur.next with status := status .invalid }
    else issueWait s (.recv d) e

/-! ## Groups -/

/-- A group id in bits 15..0 with zero above (R215). -/
def groupId (a : Word) : Option Nat := if a.toNat / 65536 = 0 then some a.toNat else none

/-- GJOIN at the group table (R38, R215). -/
def joinGroup (s : State) (id gid : Nat) : State × Word :=
  let part := s.strandPart id
  let t := s.strand id
  match s.groups.find gid with
  | some g =>
    if g.part ≠ part then (s, status .refused)
    else if NSet.has g.members id then (s, statusWord .ok 0 g.members.length)
    else if 4 ≤ t.groups.length then (s, status .refused)
    else
      let m := NSet.ins g.members id
      ({ s with groups := s.groups.put gid { g with members := m } }.modStrand id fun t => { t with groups := NSet.ins t.groups gid },
        statusWord .ok 0 m.length)
  | none =>
    if 4 ≤ t.groups.length ∨ 4096 ≤ s.groups.length then (s, status .refused)
    else
      ({ s with groups := s.groups.put gid ⟨part, [id]⟩ }.modStrand id fun t => { t with groups := NSet.ins t.groups gid },
        statusWord .ok 0 1)

def execGjoin (d a : GReg) (l : BitVec 4) (s : State) : Out :=
  withRegs s [d, a] fun t =>
    let s := irrevocable s
    match groupId (t.read a) with
    | none => issueStatus s d l (status .invalid)
    | some g => let (s, w) := joinGroup s s.strandId g; issueStatus s d l w

def execGleave (d a : GReg) (l : BitVec 4) (s : State) : Out :=
  withRegs s [d, a] fun t =>
    let s := irrevocable s
    match groupId (t.read a) with
    | none => issueStatus s d l (status .invalid)
    | some g =>
      if ((s.groups.find g).map fun x => NSet.has x.members s.strandId).getD false then
        let s := leaveGroup s s.strandId g
        issueStatus s d l (statusWord .ok 0 (groupSize s g))
      else issueStatus s d l (status .invalid)

/-- GSIZE writes a size to d and the status to STATUS (R215). -/
def execGsize (d a : GReg) (l : BitVec 4) (s : State) : Out :=
  withRegs s [d, a] fun t =>
    let put (n : Nat) (c : Code) : State :=
      issueLong s l (.ready { regs := [(d, BitVec.ofNat 64 n)], status := some (status c) }) 0
    match groupId (t.read a) with
    | none => put 0 .invalid
    | some g =>
      match s.groups.find g with
      | none => put 0 .ok
      | some x => if x.part ≠ s.curPart then put 0 .refused else put x.members.length .ok

/-! ## Barriers -/

/-- The checks of R216: a barrier id, or the status that refuses it. -/
def barrierId (s : State) (a : Word) : Except Code Nat :=
  if a.toNat / 65536 ≠ 0 then .error .invalid
  else if !s.partHas s.curPart (a.toNat / 2048) then .error .refused
  else .ok a.toNat

/-- The configuration of BINIT (R217): a group, or a count. A GID without GROUPED, which R217 wants zero, is INVALID (log 86). -/
def barrierConfig (s : State) (b : Word) : Option (Option Nat × Nat) :=
  let gid := wbits b 47 32
  let cnt := wbits b 31 0
  if wbits b 63 49 ≠ 0 then none
  else if b.getLsbD 48 then
    if cnt = 0 ∧ ((s.groups.find gid).map fun g => g.part == s.curPart).getD false then some (some gid, 0) else none
  else if cnt = 0 ∨ gid ≠ 0 then none
  else some (none, cnt)

def execBinit (d a b : GReg) (l : BitVec 4) (s : State) : Out :=
  withRegs s [d, a, b] fun t =>
    let s := irrevocable s
    match barrierId s (t.read a) with
    | .error c => issueStatus s d l (status c)
    | .ok id =>
      match barrierConfig s (t.read b) with
      | none => issueStatus s d l (status .invalid)
      | some (g, n) =>
        let s := s.setBarrier id { live := true, inc := ((s.barrier id).inc + 1) % 65536, phase := 0, gid := g, count := n, arrivals := 0 }
        issueStatus (wakeBarrier s id) d l (status .ok)

/-- One arrival (R218): the status word. -/
def arrive (s : State) (id bid : Nat) : State × Word :=
  let b := s.barrier bid
  if !b.live then (s, status .invalid)
  else if (b.gid.map fun g => !((s.groups.find g).map fun x => NSet.has x.members id).getD false).getD false then (s, status .refused)
  else
    let s := s.setBarrier bid { b with arrivals := b.arrivals + 1 }
    let s := s.modStrand id fun t => { t with arrival := some (bid, b.inc, b.phase) }
    let need := match b.gid with
      | some g => groupSize s g
      | none => b.count
    if need ≤ b.arrivals + 1 then (completePhase s bid, statusWord .ok 1 b.phase) else (s, statusWord .ok 0 b.phase)

def execBarrive (d a : GReg) (l : BitVec 4) (s : State) : Out :=
  withRegs s [d, a] fun t =>
    let s := irrevocable s
    match barrierId s (t.read a) with
    | .error c => issueStatus s d l (status c)
    | .ok id => let (s, w) := arrive (release s s.strandId .device 0) s.strandId id; issueStatus s d l w

def execBwait (d a : GReg) (e : BitVec 5) (s : State) : Out :=
  withRegs s [d, a] fun t =>
    let s := irrevocable s
    match barrierId s (t.read a) with
    | .error c => s.setCur (s.cur.report d (status c)).next
    | .ok id => issueWait s (.bwait d id) e

def execBinval (d a : GReg) (l : BitVec 4) (s : State) : Out :=
  withRegs s [d, a] fun t =>
    let s := irrevocable s
    match barrierId s (t.read a) with
    | .error c => issueStatus s d l (status c)
    | .ok id =>
      if !(s.barrier id).live then issueStatus s d l (status .invalid)
      else issueStatus (wakeBarrier (s.setBarrier id { s.barrier id with live := false }) id) d l (status .ok)

/-! ## Tasks -/

/-- SPAWN once its record has been read (R221). -/
def spawn (s : State) (d : GReg) (l : BitVec 4) (bs : List Byte) : State :=
  let s := release s s.strandId .device 0
  let t := s.cur
  let part := s.curPart
  let launch := strandLaunch s s.strandId
  let m := launchMode s launch
  let r := parseTask bs
  let core := targetCore m r
  if !taskShape bs ∨ !placeOk s part m r ∨ core.isNone then issueStatus s d l (status .invalid)
  else
    let cl := if m.logical then core.getD 0 / 16 else s.curCluster
    if 4096 ≤ (s.tasks.filter fun (_, x) => x.parent == t.task).length ∨ 1024 ≤ (s.cluster cl).queue.length then
      issueStatus s d l (status .refused)
    else
      let (id, s) := acceptTask s part launch t.task m.logical r cl (if m.logical then core.getD 0 else s.curCore)
      issueStatus (s.setCur { s.cur with children := s.cur.children + 1 }) d l (statusWord .ok 0 id)

def execSpawn (d a : GReg) (l : BitVec 4) (s : State) : Out :=
  withRegs s [d, a] fun t =>
    let va := vaOf (t.read a)
    let s := irrevocable s
    aligned s va 64 (withPieces s va 64 2 fun s bs => spawn s d l bs)

def execJoin (d : GReg) (e : BitVec 5) (s : State) : Out :=
  withRegs s [d] fun _ => issueWait (irrevocable s) (.join d) e

def execTaskid (d : GReg) (s : State) : Out :=
  withRegs s [d] fun t => s.setCur (t.write d (BitVec.ofNat 64 t.task)).next

/-- KILL (R42, R224): every member but the issuing task. A task that an earlier KILL ends is not counted again. -/
def execKill (d a : GReg) (l : BitVec 4) (s : State) : Out :=
  withRegs s [d, a] fun t =>
    let s := irrevocable s
    match (groupId (t.read a)).bind s.groups.find with
    | none => issueStatus s d l (status .invalid)
    | some g =>
      if g.part ≠ s.curPart then issueStatus s d l (status .refused)
      else
        let victims := g.members.filter (· != s.strandId)
        let ended := victims.filter fun id => !(s.strand id).killDue
        issueStatus (victims.foldl killStrand s) d l (statusWord .ok 0 ended.length)

end Sys2Proof.Machine
end

