-- ==== Sys2Proof/Machine/GrainTile.lean ====
section
/-! DEFINITION. Meanings of the TILE major (09 R241 to R248) and of the happenings of tile buffers (09 R242, R244). -/

namespace Sys2Proof.Machine

/-- The input buffer position of the acting strand's cluster that a scratchpad address names (R241). -/
def tilePos (s : State) (va : Nat) : Option Nat :=
  if window va ≠ 8 then none
  else
    match padDecode va with
    | none => none
    | some a =>
      let pn := a / 2 ^ 18
      if pn / 24 ≠ s.curCluster ∨ padIsChisel (pn % 24) ∨ a % 0x800 ≠ 0 ∨ 0x18000 ≤ a % 2 ^ 18 then none else posOf a

/-- A well-formed binding word whose TARGET is a chisel of the cluster: the bound context (R241). -/
def bindingCtx (s : State) (b : Word) : Option Nat :=
  let cnt := wbits b 29 24
  if wbits b 63 48 ≠ 0 ∨ wbits b 31 30 ≠ 0 ∨ wbits b 23 19 ≠ 0 ∨ cnt = 0 ∨ 32 < cnt then none
  else
    match (unpackXY (wbits b 15 0)).bind fun (x, y) => chiselAt x y with
    | some c => if chiselCluster c = s.curCluster then some (8 * c + wbits b 18 16) else none
    | none => none

/-- A handle to d and a status to STATUS. -/
def issueHandle (s : State) (d : GReg) (l : BitVec 4) (h : Word) (c : Code) : State :=
  issueLong s l (.ready { regs := [(d, h)], status := some (status c) }) 0

/-- The descriptor that TOPEN sets (R70, R241). -/
def openDesc (s : State) (d : Desc) (ctx : Nat) (b : Word) : Desc :=
  let t := wbits b 47 32
  { st := .opened, gen := (d.gen + 1) % 256, ctx := ctx, task := (s.ctx ctx).task, count := wbits b 29 24, counter := 0,
    mask := 0, timer := if t = 0 then none else some (s.cycle + 256 * t) }

/-- Stores still buffered for a position and loads of it still outstanding come before a change of its state: their checks have
passed (R72, R106, R107, R144). -/
def settleTile (s : State) (pos : Nat) : State :=
  let inTile (l : Loc) (n : Nat) : Bool := locOverlap (.spad (posBase pos)) 0x800 l n
  fixAll (flushAll s fun b => inTile b.loc b.bytes.length) inTile

def execTopen (d a b : GReg) (l : BitVec 4) (s : State) : Out :=
  withRegs s [d, a, b] fun t =>
    let s := irrevocable s
    let va := vaOf (t.read a)
    match tilePos s va, bindingCtx s (t.read b) with
    | some pos, some ctx =>
      if (s.ctx ctx).run = .free then issueHandle s d l 0 .refused
      else if (s.desc pos).st ≠ .free ∨ lockHit s s.curCluster va 0x800 true then issueHandle s d l 0 .refused
      else
        let x := openDesc s (s.desc pos) ctx (t.read b)
        issueHandle ((settleTile s pos).setDesc pos x) d l (posHandle x pos (ctx % 8)) .ok
    | _, _ => issueHandle s d l 0 .invalid

/-- A handle of a position of the acting strand's cluster (R69). -/
def ownPos (s : State) (h : Word) : Option Nat := if hCluster h = s.curCluster then handlePos h else none

/-- An input-buffer handle of the acting strand's cluster. -/
def ownInput (s : State) (h : Word) : Option Nat := if hKind h = 0 then ownPos s h else none

/-- The bank's answer to a local row write (R243). -/
def bankRow (s : State) (pos row : Nat) (h : Word) (bs : List Byte) : State :=
  if lockHit s s.curCluster (padAddr (posBase pos + 64 * row)) 64 true then
    trapAt s .rangeLocked (padAddr (posBase pos + 64 * row))
  else if hGen h ≠ (s.desc pos).gen ∨ (s.desc pos).st ≠ .opened then trap s .sealedBuf
  else
    let s := applyRow (release s s.strandId .device 0) pos row bs false
    s.setCur s.cur.next

def execTwr (d a b : GReg) (s : State) : Out :=
  withRegs s [d, a, b] fun t =>
    let s := irrevocable s
    let row := (t.read d).toNat
    let va := vaOf (t.read b)
    if 32 ≤ row then trap s .perm
    else
      match ownInput s (t.read a) with
      | none => trap s .perm
      | some pos => aligned s va 64 (withPieces s va 64 1 fun s bs => bankRow s pos row (t.read a) bs)

/-- The reserved fields of TWRR's d are zero and its PEER is usable (R244). -/
def rowWordOk (s : State) (x : Word) : Bool :=
  wbits x 63 26 == 0 && wbits x 14 5 == 0 && (if x.getLsbD 15 then s.isMember (wbits x 25 16) else wbits x 25 16 == 0)

/-- TWRR once its row has been read: local rows fly to their bank, others go out as TROW (R442). -/
def sendRow (s : State) (d : GReg) (l : BitVec 4) (x h : Word) (bs : List Byte) : State :=
  if !rowWordOk s x then issueStatus s d l (status .invalid)
  else if x.getLsbD 15 then
    quiet s (releaseSystem s fun s =>
      let k := s.cur.pendNext
      sendRequest (stallAway s (.awaiting d) 0) 8 (.strand s.strandId k)
        (request s (wbits x 25 16) s.curPart h.toNat (wbits x 4 0) bs))
  else
    let s := release s s.strandId .device 0
    let f : FlyRow := ⟨s.strandId, s.cur.pendNext, s.curPart, h, wbits x 4 0, bs⟩
    let s := issueLong s l (.awaiting d) 0
    { s with rows := s.rows ++ [f] }

def execTwrr (d a b : GReg) (l : BitVec 4) (s : State) : Out :=
  withRegs s [d, a, b] fun t =>
    let va := vaOf (t.read b)
    let s := irrevocable s
    aligned s va 64 (withPieces s va 64 1 fun s bs => sendRow s d l (t.read d) (t.read a) bs)

/-- TWRR_ROW_APPLY: a row reaches its bank (R244), after the earlier rows of its strand, whose release it is (R106). -/
def execTwrrRowApply (k : Nat) (s : State) : Out :=
  .next
    (match s.rows[k]? with
    | none => s
    | some f =>
      if (s.rows.take k).any fun g => g.strand == f.strand then s else landRow s f)

/-- SEAL of an own input buffer (R245): the handle for d and the status; a malformed handle is INVALID, as its table says (log 104). -/
def sealBuffer (s : State) (h : Word) : State × Word × Code :=
  match ownInput s h with
  | none => (s, 0, .invalid)
  | some pos =>
    let d := s.desc pos
    if hGen h ≠ d.gen then (s, 0, .refused)
    else
      match d.st with
      | .opened => (sealPos s pos, posHandle d pos (d.ctx % 8), .ok)
      | .free => (s, 0, .refused)
      | _ => (s, posHandle d pos (d.ctx % 8), .refused)

def execSeal (d a : GReg) (l : BitVec 4) (s : State) : Out :=
  withRegs s [d, a] fun t =>
    let s := release (irrevocable s) s.strandId .device 0
    let (s, h, c) := sealBuffer s (t.read a)
    issueHandle s d l h c

/-- State numbers of TSTAT (R246). -/
def bufStNum : BufSt → Nat
  | .free => 0 | .opened => 1 | .posted => 2 | .unposted => 3 | .held => 4 | .writing => 5 | .resultPosted => 6

/-- The word of TSTAT (R246). -/
def tstatWord (s : State) (h : Word) : Word :=
  match ownPos s h with
  | none => status .invalid
  | some pos =>
    let d := s.desc pos
    statusWord (if hGen h = d.gen then .ok else .refused) d.gen
      (16 * bufStNum d.st + 256 * min d.counter 255 + 65536 * d.mask)

def execTstat (d a : GReg) (l : BitVec 4) (s : State) : Out :=
  withRegs s [d, a] fun t => let s := irrevocable s; issueStatus s d l (tstatWord s (t.read a))

/-- TDROP (R247). -/
def dropTile (s : State) (h : Word) : State × Code :=
  match ownPos s h with
  | none => (s, .invalid)
  | some pos =>
    let d := s.desc pos
    let freed : State × Code := (s.setDesc pos { d with st := .free, timer := none }, .ok)
    if hGen h ≠ d.gen then (s, .refused)
    else
      match d.st with
      | .opened => freed
      | .unposted => freed
      | .resultPosted => freed
      | _ => (s, .refused)

def execTdrop (d a : GReg) (l : BitVec 4) (s : State) : Out :=
  withRegs s [d, a] fun t =>
    let (s, c) := dropTile (irrevocable s) (t.read a)
    issueStatus s d l (status c)

/-! ## Seals and posts -/

/-- SEAL_TIMER_EXPIRY: the timer of an OPEN buffer has run out (R242). -/
def execSealTimerExpiry (pos : Nat) (s : State) : Out :=
  .next
    (let d := s.desc pos
     if d.st = .opened ∧ (d.timer.map fun c => decide (c ≤ s.cycle)).getD false then sealPos s pos else s)

/-- POST_LIST_ENTRY: the oldest waiting handle for a context enters its queue (R242). -/
def execPostListEntry (chisel tag : Nat) (s : State) : Out :=
  .next
    (let id := 8 * chisel + tag
     match (s.chisel chisel).posts.find? fun p => p.1 == id with
     | some p =>
       if 16 ≤ (s.ctx id).queue.length then s
       else queueHandle (s.modChisel chisel fun x => { x with posts := x.posts.erase p }) id p.2
     | none => s)

/-- POST_RETRY: a bank offers its handle to the post list again, every 64 g-cycles; earlier ones for the same context come first
(R242). -/
def execPostRetry (pos : Nat) (s : State) : Out :=
  .next
    (let d := s.desc pos
     let ch := ctxChisel d.ctx
     let first (r : Nat × Nat × Word) : Bool := ((s.chisel ch).retry.find? fun q => (s.desc q.1).ctx == d.ctx) == some r
     match (s.chisel ch).retry.find? fun r => r.1 == pos with
     | some r =>
       if s.cycle < r.2.1 then s
       else if (s.chisel ch).posts.length < 64 ∧ first r then
         s.modChisel ch fun x => { x with retry := x.retry.erase r, posts := x.posts ++ [(d.ctx, r.2.2)] }
       else s.modChisel ch fun x => { x with retry := x.retry.map fun q => if q = r then (r.1, s.cycle + 64, r.2.2) else q }
     | none => s)

end Sys2Proof.Machine
end

