-- ==== Sys2Proof/Machine/Owner.lean ====
section
/-! DEFINITION. Dune requests at the device they are addressed to (20 R442, R444, R445, R449): puts, fills, atomics, rows,
messages, copy reads, version notices and shadows. -/

namespace Sys2Proof.Machine

/-- A request whose form R442 does not give is discarded and counted (R448). -/
def wellFormed (s : State) (ok : Bool) (k : State) : State := if ok then k else count s 7

/-- The place of a granule that a peer writes, or the counter of R448 that counts the put as discarded. -/
def putPlace (s : State) (e o : Nat) : Except Nat Loc :=
  let va := exVa s e + (o - exOff s e)
  if !exBit s e bitW then .error 3
  else if ((vbufAt s (exPart s e) va).map fun v => (s.vbuf v).isSealed).getD false then .error 1
  else
    match ownerPlace s e o permW with
    | .error _ => .error 3
    | .ok (.spad a) =>
      if (s.part (exPart s e)).saving then .error 2 else if padRefuses s (exPart s e) a then .error 3 else .ok (.spad a)
    | .ok l => .ok l

/-- The places of the granules of a put, in order. -/
def putPlaces (s : State) (e o : Nat) : Nat → Except Nat (List Loc)
  | 0 => .ok []
  | n + 1 =>
    match putPlace s e o, putPlaces s e (o + 32) n with
    | .ok l, .ok ls => .ok (l :: ls)
    | .error c, _ => .error c
    | _, .error c => .error c

/-- A place some bytes on. -/
def locPlus (l : Loc) (i : Nat) : Loc :=
  match l with
  | .mem a => .mem (a + i)
  | .spad a => .spad (a + i)
  | l => l

/-- Write the masked bytes of a granule (R80, R84). -/
def writeMasked (s : State) (l : Loc) (mask : Nat) (bs : List Byte) : State :=
  (List.range 32).foldl (fun s i => if mask.testBit i then plainWrite s (locPlus l i) ((bs.drop i).take 1) else s) s

/-- Write whole granules with their poison (R199, R454). -/
def writeWhole (s : State) (ls : List Loc) (bs : List Byte) (pmask : Nat) : State :=
  ls.zipIdx.foldl (fun s (l, i) => markedWrite s l ((bs.drop (32 * i)).take 32) (pmask.testBit i)) s

/-- The written granules go to ALT, whose acknowledgement lets the response go (R449). -/
def mirror (s : State) (e came : Nat) (p : Packet) (typ stat : Nat) (payload : List Byte) (o : Nat) (ls : List Loc) : State :=
  let alt := routeAlt (s.routes.getD s.devid 0)
  let n := s.shadowSent.getD alt 0
  let now := ls.flatMap fun l => rawRead s l 32
  let pm := (ls.zipIdx.map fun (l, i) => if isPoisoned s l then 2 ^ i else 0).sum
  let s := { s with shadowSent := s.shadowSent.put alt (n + 1) }
  sendRequest s 16 (.mirror { p with stat := stat } typ payload came)
    { request s alt (exPart s e) o (n % 2 ^ 32) now with pmask := pm }

/-- Answer a performed write that came in a g-cycle, at once or after its mirror (R449), which only an OZ4-M has (R2). -/
def answerWrite (s : State) (e came : Nat) (p : Packet) (typ stat : Nat) (payload : List Byte) (o : Nat) (ls : List Loc) : State :=
  if exBit s e bitMIR && Config.isM then mirror s e came p typ stat payload o ls
  else respondFrom s came typ p stat 0 0 0 payload

/-- PUT (R442, R445). A put of whole granules is performed whole or not at all. The answer to one that is refused has STAT FAULT and
DETAIL PERM, which a strand does not heed and a copy element takes; a narrow put's has STAT OK (log 35). -/
def execPut (p : Packet) (s : State) : Out :=
  .next
    (let narrow : Bool := p.aux.testBit 32
     let n := p.payload.length / 32
     let o := if narrow then p.addr / 32 * 32 else p.addr
     wellFormed s (p.payload.length % 32 == 0 && decide (1 ≤ n) && decide (n ≤ 64) && p.addr % 32 == 0 && (!narrow || n == 1))
       (let refuse (s : State) : State := 
         if narrow then respond s 2 p Code.ok.num 0 0 0 [] else respond s 2 p Code.fault.num Cause.perm.num 0 0 []
        match servingEntry s p.dst o (32 * n) with
        | none => refuse (count s 3)
        | some e =>
          match putPlaces s e o n with
          | .error c => if c = 3 then refuse (count (noteOwner s e o permW n) 3) else respond (count s c) 2 p Code.ok.num 0 0 0 []
          | .ok ls =>
            let s := if narrow then writeMasked s (ls.getD 0 .zero) (p.aux % 2 ^ 32) p.payload else writeWhole s ls p.payload p.pmask
            answerWrite s e s.cycle p 2 Code.ok.num [] o ls))

/-- A refusal with a cause (R441). -/
def refusePacket (s : State) (typ : Nat) (p : Packet) (c : Cause) : State := respond s typ p Code.fault.num c.num 0 0 []

/-- FILL (R110, R442): answered when the buffer is SEALED, held while it is OPEN. One that comes while the entry changes is judged under
the changed entry (R444, R451). -/
def execFill (p : Packet) (s : State) : Out :=
  .next
    (match servingEntry s p.dst (p.addr / 64 * 64) 64 with
    | none => refusePacket s 4 p .perm
    | some e =>
      let v := s.vbuf e
      if !exBit s e bitR ∨ !exBit s e bitVB ∨ !v.everSealed then refusePacket s 4 p .perm
      else if v.change.isSome then s.setVbuf e { v with lateFills := v.lateFills ++ [(s.cycle, p)] }
      else if v.isSealed then answerFill s e p.age (some s.cycle) p
      else respond (s.setVbuf e { v with heldFills := v.heldFills ++ [p] }) 5 p 0 0 0 0 [])

/-- The atomic that an ATOM carries (R442), at a place. -/
def packetAtom (p : Packet) (l : Loc) : Option PendAct :=
  let k := p.aux % 16
  let n := if p.aux.testBit 4 then 8 else 4
  let o := Order.ofCode (bitsOf p.aux 6 5)
  let w (i : Nat) : Word := BitVec.ofNat 64 (numAt p.payload (8 * i) 8)
  if k = 9 then (if p.payload.length = 16 then some (.cas n o (.g 0) (w 0) (w 1) l none) else none)
  else if k = 10 then (if p.payload.length = 32 then some (.cas2 o (.g 0) (w 0) (w 1) (w 2) (w 3) l none) else none)
  else if p.payload.length ≠ 8 then none
  else (AmoKind.ofCode k).map fun k => .amo k n o (.g 0) (w 0) l

/-- Does an atomic write, on the old bytes. -/
def atomWrites (act : PendAct) (old : List Byte) : Bool := (atomEval act old).1.isSome

/-- The old value as ATOMR carries it (R442), and its STAT. -/
def atomAnswer (act : PendAct) (old : List Byte) : Nat × List Byte :=
  (if atomWrites act old then Code.ok.num else Code.nomatch.num, fit (if old.length = 16 then 16 else 8) old)
where
  fit (n : Nat) (bs : List Byte) : List Byte := bytesAt bs 0 n

/-- The entry and place of an ATOM, under the checks of the owner (R445). A peer reaches a scratchpad only by puts (R18), and its
atomics are performed at a home slice (R97). -/
def peerAtom (s : State) (p : Packet) (act : PendAct) : Except Cause (Nat × Loc) :=
  let n := atomBytes act
  match servingEntry s p.dst p.addr n with
  | none => .error .perm
  | some e =>
    let va := exVa s e + (p.addr - exOff s e)
    if !exBit s e bitA then .error .perm
    else
      match ownerPlace s e p.addr (permR + permW) with
      | .error _ => .error .perm
      | .ok (.spad _) => .error .perm
      | .ok l =>
        if ((vbufAt s (exPart s e) va).map fun v => (s.vbuf v).isSealed).getD false then .error .sealedBuf
        else if isPoisoned s l then .error .machine
        else .ok (e, l)

/-- A peer's atomic that came in a g-cycle is refused; a malformed entry on its walk is recorded (R390). -/
def refuseAtom (s : State) (came : Nat) (p : Packet) (act : PendAct) (c : Cause) : State :=
  let noted := (servingEntry s p.dst p.addr (atomBytes act)).map fun e => noteOwner s e p.addr (permR + permW) 1
  respondFrom (noted.getD s) came 7 p Code.fault.num c.num 0 0 []

/-- A peer's atomic that came in a g-cycle is performed, and answered with the old value (R209, R449). -/
def performPeer (s : State) (came : Nat) (p : Packet) (act : PendAct) : State :=
  match peerAtom s p act with
  | .error c => refuseAtom s came p act c
  | .ok (e, l) =>
    let (s, old) := atomOld s l (atomBytes act)
    let (stat, pl) := atomAnswer act old
    let s := (performAtom s 0 l act).1
    if atomWrites act old then
      answerWrite s e came p 7 stat pl (p.addr / 32 * 32) [match l with
        | .mem a => .mem (a / 32 * 32)
        | .spad a => .spad (a / 32 * 32)
        | l => l]
    else respondFrom s came 7 p stat 0 0 0 pl

/-- ATOM (R209, R442, R445): it enters the queue of its home slice (R54, R385). -/
def execAtom (p : Packet) (s : State) : Out :=
  .next
    (match packetAtom p .zero with
    | none => count s 7
    | some act =>
      wellFormed s (p.addr % atomBytes act == 0)
        (match peerAtom s p act with
        | .error c => refuseAtom s s.cycle p act c
        | .ok (e, .mem pa) =>
          { s with atoms := s.atoms ++ [⟨homeSlice pa, exPart s e, 0, 0, false, (s.part (exPart s e)).atomq, some p, s.cycle⟩] }
        | .ok _ => performPeer s s.cycle p act))

/-- The atomic that stands first among the admitted ones of a slice, if it is a peer's, is performed (R54). -/
def servePeer (s : State) (slice : Nat) : State :=
  match s.atoms.find? fun b => b.slice == slice && b.admitted with
  | some a =>
    match a.pkt.bind fun p => (packetAtom p .zero).map fun act => (p, act) with
    | some (p, act) => performPeer { s with atoms := s.atoms.erase a } a.came p act
    | none => s
  | none => s

/-- ATOMIC_ADMIT: a home slice admits the atomic that has waited longest, while fewer than ATOMQ are admitted (R385), and serves a
peer's when its turn has come; a strand's own is served by the arrival of its result. -/
def execAtomicAdmit (slice : Nat) (s : State) : Out :=
  .next
    (let inSlice := s.atoms.filter fun a => a.slice == slice
     let s := match inSlice.find? fun a => !a.admitted with
       | none => s
       | some a =>
         if (inSlice.filter fun a => a.admitted).length < a.limit then
           { s with atoms := s.atoms.map fun b => if b = a then { b with admitted := true } else b }
         else s
     servePeer s slice)

/-- An entry of a kind for a partition (R445), for requests addressed to dst: the device's own, or after promotion those that shadow the
lost peer (R450). -/
def admitsPart (s : State) (dst bit part : Nat) : Bool :=
  (exportIds s).any fun e => exBit s e bit && exPart s e == part
    && (if dst = s.devid then !exBit s e bitSH else exBit s e bitSH && exAlt s e == dst)

/-- TROW (R244, R445): the bank answers, if a T entry admits the row to the partition of the handle's cluster. -/
def execTrow (p : Packet) (s : State) : Out :=
  .next
    (wellFormed s (p.payload.length == 64)
      (let h : Word := BitVec.ofNat 64 p.addr
       match s.clusterPart (hCluster h) with
       | none => respond s 9 p Code.refused.num 0 0 0 []
       | some part =>
         if !admitsPart s p.dst bitT part then respond s 9 p Code.refused.num 0 0 0 []
         else
           let (s, c) := remoteRow s part h (p.aux % 32) p.payload (p.pmask % 4 != 0)
           respond s 9 p c.num 0 0 0 []))

/-- MSG (R213, R445). -/
def execMsg (p : Packet) (s : State) : Out :=
  .next
    (wellFormed s (p.payload.length == 32)
      (let a : Word := BitVec.ofNat 64 p.addr
       match mbReceiver a with
       | none => respond s 11 p Code.refused.num 0 0 0 []
       | some r =>
         match s.clusterPart (strandCluster r) with
         | none => respond s 11 p Code.refused.num 0 0 0 []
         | some part =>
           if !admitsPart s p.dst bitMB part then respond s 11 p Code.refused.num 0 0 0 []
           else
             let (s, c) := deliverMessage s part a ⟨0, p.aux % 2 ^ 32, wordsOf p.payload 4⟩
             respond s 11 p c.num 0 0 0 []))

/-- Read granules of an exported range: the bytes, and which of them are poisoned. A scratchpad is not read from outside (R18). -/
def readExport (s : State) (e o : Nat) : Nat → Except Cause (State × List Byte × List Bool)
  | 0 => .ok (s, [], [])
  | n + 1 =>
    match ownerPlace s e o permR with
    | .error c => .error c
    | .ok (.spad _) => .error .perm
    | .ok l =>
      let s := recallLoc (commitEarly s l 32) l
      match readExport s e (o + 32) n with
      | .error c => .error c
      | .ok (s', bs, ps) => .ok (s', rawRead s l 32 ++ bs, isPoisoned s l :: ps)

/-- XREAD (R442, R445). -/
def execXread (p : Packet) (s : State) : Out :=
  .next
    (let len := p.aux % 4096
     wellFormed s (len % 32 == 0 && decide (32 ≤ len) && decide (len ≤ 2048) && p.addr % 32 == 0)
       (match servingEntry s p.dst p.addr len with
       | none => refusePacket s 13 p .perm
       | some e =>
         if !exBit s e bitR then refusePacket s 13 p .perm
         else
           match readExport s e p.addr (len / 32) with
           | .error c => refusePacket (noteOwner s e p.addr permR (len / 32)) 13 p c
           | .ok (s, bs, ps) => respond s 13 p Code.ok.num 0 0 (ps.zipIdx.map fun (b, i) => if b then 2 ^ i else 0).sum bs))

/-- VNOTE (R109): the device holds the new version of the buffer, lines of it with another match no longer, and the notice is
acknowledged. -/
def execVnote (p : Packet) (s : State) : Out :=
  .next
    (let v := p.aux % 2 ^ 24
     let unit := peerUnit p.src (p.addr % 2 ^ 38)
     let others := s.peerLines.filter fun (k, x) => peerUnit (k / 2 ^ 38) (k % 2 ^ 38) != unit || x.version == v
     respond { s with peerVers := s.peerVers.put unit v, peerLines := others } 15 p 0 0 p.aux 0 [])

/-- Apply one SHADOW to the SH entry of its owner (R449). -/
def applyShadow (s : State) (p : Packet) : State :=
  let n := p.payload.length / 32
  let sh := (exportIds s).find? fun e => exBit s e bitSH && exAlt s e == p.src && decide (exOff s e ≤ p.addr)
    && decide (p.addr + 32 * n ≤ exOff s e + exLen s e)
  match sh with
  | none => count s 3
  | some e =>
    let ls := (List.range n).map fun i => ownerPlace s e (p.addr + 32 * i) permW
    if ls.any fun l => l.toOption.isNone then count (noteOwner s e p.addr permW n) 3
    else respond (writeWhole s (ls.filterMap Except.toOption) p.payload p.pmask) 17 p 0 0 p.aux 0 []

/-- Apply the shadows of an owner that are next in its order. -/
def drainShadows (src : Nat) : Nat → State → State
  | 0, s => s
  | f + 1, s =>
    let n := s.shadowNext.getD src 0
    match s.shadowHeld.find? fun q => q.src == src && q.aux % 2 ^ 32 == n % 2 ^ 32 with
    | none => s
    | some q =>
      drainShadows src f
        (applyShadow { s with shadowHeld := s.shadowHeld.erase q, shadowNext := s.shadowNext.put src (n + 1) } q)

/-- SHADOW (R449): applied in the order of its owner's sequence numbers; one from a lost peer is discarded (R450). -/
def execShadow (p : Packet) (s : State) : Out :=
  .next
    (wellFormed s (p.payload.length % 32 == 0 && decide (32 ≤ p.payload.length) && p.addr % 32 == 0)
      (if s.lost.has p.src then s
       else drainShadows p.src (s.shadowHeld.length + 1) { s with shadowHeld := s.shadowHeld ++ [p] }))

end Sys2Proof.Machine
end

