-- ==== Sys2Proof/Machine/Space1.lean ====
section
/-! DEFINITION. Register space 1 (20 R443): routes, exports and their changes (20 R440, R444; 04 R109), counters, ports; lost
requests and lost peers (20 R447, R450). -/

namespace Sys2Proof.Machine

/-! ## Lost requests -/

/-- Strands that wait for puts look again. -/
def wakePuts (s : State) : State :=
  { s with strands := s.strands.map fun (k, t) => (k, if t.run = .stall .puts then { t with run := .ready } else t) }

/-- A put of a strand is no longer outstanding; strands that waited for it go on (R92). The line that it wrote to is filled anew. -/
def dropPut (s : State) (id rtag : Nat) : State :=
  let lines := ((s.strand id).puts.filter fun q => q.rtag == rtag).map fun q => peerKey (bitsOf q.va 47 38) (q.va % 2 ^ 38)
  let s := s.modStrand id fun t => { t with puts := t.puts.filter fun q => q.rtag != rtag }
  wakePuts { s with peerLines := s.peerLines.filter fun (k, _) => !lines.contains k }

/-- A put is lost to the next release at system scope (R447). -/
def losePut (s : State) (id rtag : Nat) : State :=
  match (s.strand id).puts.find? fun q => q.rtag == rtag with
  | some q => dropPut (s.modStrand id fun t => { t with lostPut := t.lostPut.orElse fun _ => some q.va }) id rtag
  | none => s

/-- The address of the instruction that awaits result k. -/
def pendVa (s : State) (id k : Nat) : Nat := (((s.strand id).pend.find? fun q => q.id == k).map (·.va)).getD 0

/-- What the loss of an answer does to whoever waits for it (R434, R447). -/
def loseAsker (s : State) (who : Asker) (rtag : Nat) (wr : Bool) : State :=
  match who with
  | .strand id k => failAway s id k .machine 2 (pendVa s id k)
  | .engine k e => elemLost s k e wr .machine
  | .put id => losePut s id rtag
  | _ => s

/-- A request is declared lost (R447, R448). -/
def loseRequest (s : State) (r : Request) : State :=
  loseAsker (count { s with reqs := s.reqs.erase r } 5) r.who r.rtag (r.typ == 1)

/-- REQUEST_LOST: no response has come for 65 us since it was sent, or for a fill that the owner holds since the final response was due
(R447). -/
def execRequestLost (rtag : Nat) (s : State) : Out :=
  .next
    (match s.reqs.find? fun r => r.rtag == rtag with
    | some r => if r.held.getD r.sent + 65 * usCycles ≤ s.cycle then loseRequest s r else s
    | none => s)

/-- System software declares a peer lost (R450). -/
def losePeer (s : State) (p : Nat) : State :=
  let m := s.members.getD (p / 64) 0
  let s := { s with lost := NSet.ins s.lost p, shadowHeld := s.shadowHeld.filter fun q => q.src != p,
                    members := s.members.put (p / 64) (if m.testBit (p % 64) then m - 2 ^ (p % 64) else m) }
  let s := strataEvent s 4 7 0xFF p 0 0
  (s.reqs.filter fun r => r.pkt.dst == p).foldl loseRequest s

/-! ## Routes -/

/-- A write of ROUTEp (R440, R443): none is INVALID. -/
def writeRoute (s : State) (p v : Nat) : Option State :=
  let hops := routeHops v
  let ports := routePorts v
  if 4 < hops ∨ (hops ≠ 0 ∧ ports = 0) then none
  else
    some { s with routes := s.routes.put p (routeAlt v * 2 ^ 32 + hops * 2 ^ 16 + if hops = 0 then 0 else ports) }

/-! ## Exports -/

/-- The four words of an entry with word w as a write would leave it. -/
def entryAfter (s : State) (e w v : Nat) : List Nat := (List.range 4).map fun i => if i = w then v else exportWord s e i

/-- A reserved bit of an entry is set (R444). -/
def exReserved (ws : List Nat) : Bool :=
  let a := ws.getD 0 0
  let b := ws.getD 1 0
  bitsOf a 62 56 != 0 || bitsOf a 47 43 != 0 || bitsOf a 39 38 != 0 || bitsOf a 15 0 != 0 || bitsOf b 63 42 != 0
    || bitsOf b 31 23 != 0 || bitsOf (ws.getD 2 0) 63 52 != 0 || ws.getD 3 0 != 0

/-- Every page of a range lies in the far tier under the partition's tree (R444). -/
def farRange (s : State) (part va n : Nat) : Bool :=
  (List.range n).all fun i =>
    match treeAddr s part (va + 65536 * i) permR with
    | .ok (.mem pa) => isFar pa
    | _ => false

/-- The namespace of a range entry: own offsets, or those of one shadowed device (R444). -/
def exSpace (ws : List Nat) : Option Nat := if (ws.getD 0 0).testBit bitSH then some (bitsOf (ws.getD 1 0) 41 32) else none

def entryWords (s : State) (e : Nat) : List Nat := (List.range 4).map (exportWord s e)

/-- An entry that R444 calls malformed, as a write would leave entry e. Mirroring is an OZ4-M's (R2, R449; log 78). -/
def exMalformed (s : State) (e : Nat) (ws : List Nat) : Bool :=
  let a := ws.getD 0 0
  let off := bitsOf a 37 16 * 65536
  let len := bitsOf (ws.getD 1 0) 22 0
  let va := ws.getD 2 0
  let part := bitsOf a 42 40
  let clash : Bool := (exportIds s).any fun x =>
    x != e && !exBit s x bitT && !exBit s x bitMB && exSpace (entryWords s x) == exSpace ws
      && overlap off (len * 65536) (exOff s x) (exLen s x)
  let place : Bool := va % 65536 == 0
    && (decide (window va < 8) || (window va == 8 && ((padDecode va).map fun y => s.partHas part (y / 2 ^ 18 / 24)).getD false))
  exReserved ws
    || (a.testBit 63
      && ((if a.testBit bitT || a.testBit bitMB then off != 0 || len != 0 || va != 0
           else len == 0 || decide (2 ^ 22 < len) || clash || !place)
        || (a.testBit bitVB && (a.testBit bitMIR || decide (8 ≤ window va)))
        || (a.testBit bitMIR && (!Config.isM || decide (s.mirlens.getD s.devid 0 < off + len * 65536)))
        || (a.testBit bitSH && !farRange s part va (max 1 len))))

/-- A request admitted through an entry has not completed yet: a fill that its OPEN buffer holds, an atomic in its home slice's queue, or
a mirrored request that ALT has not acknowledged (R110, R444, R449, R451). -/
def admittedThrough (s : State) (e : Nat) : Bool :=
  let inside (p : Packet) : Bool := decide (exOff s e ≤ p.addr) && decide (p.addr < exOff s e + exLen s e)
  !(s.vbuf e).heldFills.isEmpty || s.atoms.any (fun a => a.pkt.any inside)
    || s.reqs.any (fun r =>
      match r.who with
      | .mirror p _ _ _ => inside p
      | _ => false)

/-- The waits of a change are over (R109, R444). -/
def changeReady (s : State) (e : Nat) : Bool :=
  match (s.vbuf e).change with
  | some (c, ds, _) => (ds.isEmpty || decide (c + 64 * usCycles ≤ s.cycle)) && !admittedThrough s e
  | none => false

/-- Put a word of an entry. -/
def putWord (s : State) (e w v : Nat) : State := { s with exports := s.exports.put (4 * e + w) v }

/-- A live entry has changed: its versioned buffer ends and its counter advances (R109); fills that have come meanwhile are judged under
the entry as it is now (R444). -/
def finishChange (s : State) (e w v : Nat) : State :=
  let b := s.vbuf e
  let s := finishOpen s e
  let next := if exBit s e bitVB then (b.version + 1) % 2 ^ 24 else b.version
  let s := putWord (s.setVbuf e { version := next, lastFill := b.lastFill }) e w v
  b.lateFills.foldl (fun s (c, p) => present s 3 c p) s

inductive Written where
  | invalid
  | done (s : State)
  | wait (s : State)

/-- A write of word w of entry e (R444). `later` keeps the write for the end of its waits; a message of the host waits in its
stream instead. -/
def writeExport (s : State) (e w v : Nat) (later : Bool) : Written :=
  if exMalformed s e (entryAfter s e w v) then .invalid
  else if !exBit s e 63 ∨ exportWord s e w = v then .done (putWord s e w v)
  else
    let s := match (s.vbuf e).change with
      | some _ => s
      | none =>
        let vb := exBit s e bitVB
        let ps := if vb then (s.vbuf e).fillers else []
        let s := if vb then sendNotices s e (((s.vbuf e).version + 1) % 2 ^ 24) ps else s
        s.modVbuf e fun b => { b with change := some (s.cycle, ps, if later then some (w, v) else none) }
    if changeReady s e then .done (finishChange s e w v) else .wait s

/-- A change that was kept for the end of its waits takes place. -/
def settleChange (s : State) (e : Nat) : State :=
  match (s.vbuf e).change with
  | some (_, _, some (w, v)) => if changeReady s e then finishChange s e w v else s
  | _ => s

def settleChanges (s : State) : State := s.vbufs.foldl (fun s (e, _) => settleChange s e) s

/-- VBOPEN_TIMEOUT: 64 us after the notices the VBOPEN, or the change of the entry, completes without the devices that have
not answered (R109). -/
def execVbopenTimeout (e : Nat) (s : State) : Out :=
  .next
    (settleChange
      (match (s.vbuf e).opening, (s.vbuf e).reuseAt with
      | some (_, _, c, _), none => if c + 64 * usCycles ≤ s.cycle then finishOpen s e else s
      | _, _ => s) e)

/-! ## The registers -/

/-- PORTn (R443). -/
def portWord (p : Port) : Nat :=
  match p.st with
  | .up8 => 256 + 8
  | .up7 => 512 + 7
  | _ => 0

/-- A register of space 1 (R443); none for an offset that is not listed. -/
def sp1Read (s : State) (o : Nat) : Option Nat :=
  if o % 8 ≠ 0 then none
  else if o = 0 then some s.devid
  else if 0x100 ≤ o ∧ o < 0x180 then some (s.members.getD ((o - 0x100) / 8) 0)
  else if 0x10000 ≤ o ∧ o < 0x18000 then
    let p := (o - 0x10000) / 32
    match o % 32 with
    | 0 => some (s.routes.getD p 0 + if s.lost.has p then 2 ^ 63 else 0)
    | 8 => some (s.exts.getD p 0)
    | 16 => some (s.mirlens.getD p 0)
    | _ => none
  else if 0x20000 ≤ o ∧ o < 0x22000 then some (s.exports.getD ((o - 0x20000) / 8) 0)
  else if 0x30000 ≤ o ∧ o < 0x30040 then some (s.cnts.getD ((o - 0x30000) / 8) 0)
  else if 0x30100 ≤ o ∧ o < 0x30180 then some (portWord (s.port ((o - 0x30100) / 8)))
  else if o = 0x31000 then some 0
  else none

/-- A write of space 1 (R432, R443). -/
def sp1Write (s : State) (o v : Nat) (later : Bool) : Written :=
  if (sp1Read s o).isNone then .invalid
  else if o = 0 then .done { s with devid := v % 1024 }
  else if o < 0x180 then .done { s with members := s.members.put ((o - 0x100) / 8) (v % 2 ^ 64) }
  else if o < 0x18000 then
    let p := (o - 0x10000) / 32
    match o % 32 with
    | 0 => (writeRoute s p v).elim .invalid .done
    | 8 => .done { s with exts := s.exts.put p (v % 2 ^ 38) }
    | _ => .done { s with mirlens := s.mirlens.put p (v % 2 ^ 38) }
  else if o < 0x22000 then writeExport s ((o - 0x20000) / 32) (o % 32 / 8) v later
  else if o < 0x30040 then .done { s with cnts := s.cnts.put ((o - 0x30000) / 8) (v % 2 ^ 64) }
  else if o < 0x30180 then .done s
  else .done (losePeer s (v % 1024))

/-- A write that does not come from the host: what it leaves, and whether it was accepted (R460). -/
def directWrite (s : State) (o v : Nat) : State × Bool :=
  match sp1Write s o v true with
  | .invalid => (s, false)
  | .done s => (s, true)
  | .wait s => (s, true)

end Sys2Proof.Machine
end

