-- ==== Sys2Proof/Machine/Answers.lean ====
section
/-! DEFINITION. Dune responses at the device that asked (20 R442, R447, R449; 04 R109, R110). A response that answers no request
still waiting has no effect. -/

namespace Sys2Proof.Machine

/-- The request that a response answers, taken from those that wait (R441). -/
def withReq (s : State) (typ : Nat) (p : Packet) (k : State → Request → State) : State :=
  match s.reqs.find? fun r => r.rtag == p.rtag && r.typ == typ with
  | some r => k { s with reqs := s.reqs.erase r } r
  | none => s

/-- The status code of a number (R46). -/
def codeOf (n : Nat) : Code :=
  ([.ok, .timeout, .refused, .cancelled, .fault, .reinit, .invalid, .killed, .abortCycle, .abortSource, .abortCapacity,
    .abortPlain, .abortPreempt, .abortExplicit, .partly, .nomatch, .exhausted] : List Code).getD n .refused

/-- The answer refuses: the waiting instruction traps with its cause (R441); MACHINE is of poisoned data. -/
def refuseAway (s : State) (id k : Nat) (p : Packet) : State :=
  let c := Cause.ofCode p.detail
  failAway s id k c (if c = .machine then 1 else 0) (pendVa s id k)

/-- PUTACK (R442). -/
def execPutack (p : Packet) (s : State) : Out :=
  .next
    (withReq s 1 p fun s r =>
      match r.who with
      | .put id => dropPut s id p.rtag
      | .engine k e => if p.stat = 0 ∧ p.detail = 0 then elemAck s k e else elemLost s k e true (Cause.ofCode p.detail)
      | _ => s)

/-- The bytes of a load from a line of 64, at its offset. -/
def lineBytes (bs : List Byte) (off n : Nat) : List Byte := bytesAt bs (off % 64) n

/-- A line reaches the strand that asked for it (R110): a load is performed; an instruction that needs more bytes issues again with
these. A poisoned granule traps. -/
def deliverLine (s : State) (id k : Nat) (p : Packet) : State :=
  match (s.strand id).pend.find? fun q => q.id == k with
  | none => s
  | some q =>
    let both : Bool := match q.act with
      | .piece n => decide (32 < n)
      | _ => false
    if p.pmask.testBit (q.va % 64 / 32) ∨ (both ∧ p.pmask % 4 ≠ 0) then failAway s id k .machine 1 q.va
    else
      match q.act with
      | .load t d _ => completeAway s id k (loadRegs t d (lineBytes p.payload q.va (LdType.size t)))
      | .loadV d _ => completeAway s id k (loadVRegs d (lineBytes p.payload q.va 32))
      | .piece n => gotPiece s id k q.va (lineBytes p.payload q.va n)
      | _ => s

/-- A fill response whose tag differs from the version that the device holds (R110). -/
def staleFill (s : State) (r : Request) (tag : Nat) : Bool :=
  ((heldVersion s r.pkt.dst r.pkt.addr).map fun v => v != tag).getD false

/-- A line is kept with its tag. A device that holds no version of the buffer yet holds that one from then on. -/
def keepLine (s : State) (dst off tag : Nat) (bs : List Byte) : State :=
  { s with peerVers := s.peerVers.put (peerUnit dst off) tag, peerLines := s.peerLines.put (peerKey dst off) ⟨tag, bs⟩ }

/-- FILLR (R110): the line is kept with its tag; a stale one is counted and asked for again. -/
def execFillr (p : Packet) (s : State) : Out :=
  .next
    (withReq s 3 p fun s r =>
      match r.who with
      | .strand id k =>
        if p.stat ≠ 0 then refuseAway s id k p
        else
          let tag := p.aux % 2 ^ 24
          if staleFill s r tag then
            let s := count s 0
            if awaits s id k then
              sendRequest s 3 r.who { r.pkt with aux := fillAux s r.pkt.dst r.pkt.addr }
            else s
          else deliverLine (if p.pmask % 4 = 0 then keepLine s r.pkt.dst r.pkt.addr tag p.payload else s) id k p
      | _ => s)

/-- HELD: the owner holds the fill (R110, R446). The deadline of R447 counts from when the final response is due, of which the spec
states nothing: a free number of g-cycles (log 92). -/
def execHeld (p : Packet) (s : State) : Out :=
  .next
    (let (w, s) := s.takeFree
     { s with reqs := s.reqs.map fun r =>
         if r.rtag = p.rtag ∧ r.typ = 3 then { r with held := some (s.cycle + w.toNat) } else r })

/-- ATOMR (R207 to R209, R442): the old value is delivered. -/
def execAtomr (p : Packet) (s : State) : Out :=
  .next
    (withReq s 6 p fun s r =>
      match r.who with
      | .strand id k =>
        if p.stat = Code.fault.num then refuseAway s id k p
        else
          match (s.strand id).pend.find? fun q => q.id == k with
          | some q => completeAway s id k (atomEval q.act (p.payload.take (atomBytes q.act))).2
          | none => s
      | _ => s)

/-- The status of a remote SEND or TWRR arrives (R213, R244). -/
def statusAway (s : State) (who : Asker) (p : Packet) : State :=
  match who with
  | .strand id k =>
    match (s.strand id).pend.find? fun q => q.id == k with
    | some ⟨_, _, .awaiting d, _⟩ =>
      let w := status (codeOf p.stat)
      completeAway s id k { regs := [(d, w)], status := some w }
    | _ => s
  | _ => s

/-- TROWR (R244, R442). -/
def execTrowr (p : Packet) (s : State) : Out := .next (withReq s 8 p fun s r => statusAway s r.who p)

/-- MSGR (R213, R442). -/
def execMsgr (p : Packet) (s : State) : Out := .next (withReq s 10 p fun s r => statusAway s r.who p)

/-- XREADR (R442): a copy's source granule has come, or its element faults (R229). -/
def execXreadr (p : Packet) (s : State) : Out :=
  .next
    (withReq s 12 p fun s r =>
      match r.who with
      | .engine k e =>
        if p.stat = 0 then elemBytes s k e p.payload (p.pmask != 0) else elemLost s k e false (Cause.ofCode p.detail)
      | _ => s)

/-- A device has acknowledged its notice (R109). -/
def takeVnack (s : State) (e src : Nat) : State :=
  let s := s.modVbuf e fun b =>
    { b with opening := b.opening.map fun (id, k, c, ds) => (id, k, c, ds.filter (· != src)),
             change := b.change.map fun (c, ds, w) => (c, ds.filter (· != src), w) }
  let b := s.vbuf e
  let s := match b.opening with
    | some (_, _, _, []) => if b.reuseAt.isNone then finishOpen s e else s
    | _ => s
  settleChange s e

/-- VNACK (R109). -/
def execVnack (p : Packet) (s : State) : Out :=
  .next
    (match (exportIds s).find? fun e => exBit s e bitVB && exOff s e == p.addr with
    | some e => takeVnack s e p.src
    | none => s)

/-- SHACK: ALT has acknowledged, and the owner answers the origin (R449). -/
def execShack (p : Packet) (s : State) : Out :=
  .next
    (withReq s 16 p fun s r =>
      match r.who with
      | .mirror q typ bs came => settleChanges (respondFrom s came typ q q.stat 0 0 0 bs)
      | _ => s)

end Sys2Proof.Machine
end

