-- ==== Sys2Proof/Machine/ChiselOps.lean ====
section
/-! DEFINITION. What chisel syllables share (12 R291 to R295; 13 R314 to R317): registers of the acting context, results in
flight, handles and result tiles, the accumulators and their history, traps. -/

namespace Sys2Proof.Machine

/-- The acting context (log 4) and its chisel. -/
def State.curCtx (s : State) : Ctx := s.ctx s.ctxId
def State.curChisel (s : State) : Nat := ctxChisel s.ctxId

def Ctx.sreg (c : Ctx) (r : SReg) : Word := c.s[r]
def Ctx.vreg (c : Ctx) (r : Nat) : List Byte := bytesAt (c.v.getD r []) 0 64
def Ctx.pred (c : Ctx) (p : PReg) : Bool := c.p[p]

/-- FMT.RM, FMT.SAT and the operand formats (R123). -/
def Ctx.rm (c : Ctx) : Rm := bitsOf c.fmt 10 9
def Ctx.sat (c : Ctx) : Bool := c.fmt.testBit 8

/-! ## Results in flight -/

/-- A result of this bundle becomes visible at the context's L-th bundle from here (R52, R292). -/
def addFlight (s : State) (l : Nat) (d : CDest) : State :=
  s.modCtx s.ctxId fun c => { c with flight := c.flight ++ [⟨l, d⟩] }

def toS (s : State) (r : SReg) (v : Word) : State := addFlight s 1 (.s r.val v)
def toV (s : State) (r : VReg) (bs : List Byte) : State := addFlight s 3 (.v r.val bs)

/-- First byte of an operand slot. -/
def slotBase (ch o : Nat) : Nat := ch * 2 ^ 18 + 2048 * (o % 128)

/-- A result reaches its destination. -/
def landOne (s : State) (id : Nat) (d : CDest) : State :=
  match d with
  | .s n v => s.modCtx id fun c => { c with s := c.s.set! n v }
  | .v n bs => s.modCtx id fun c => { c with v := c.v.put n bs }
  | .p n b => s.modCtx id fun c => { c with p := c.p.set! n b }
  | .mp n v => s.modCtx id fun c => { c with mp := c.mp.set! n v }
  | .fmt m v => s.modCtx id fun c => { c with fmt := (c.fmt ^^^ (c.fmt &&& m)) ||| v }
  | .slot o off bs =>
    let s := if bs.length = 2048 then s.modChisel (ctxChisel id) fun x => { x with slotPoison := NSet.rem x.slotPoison o } else s
    { s with opmem := s.opmem.putBytes (slotBase (ctxChisel id) o + off) bs }
  | .past _ _ _ => s

/-- A routine of the context still runs. -/
def routineRuns (s : State) (id : Nat) : Bool := ((s.chisel (ctxChisel id)).routine.map fun r => r.ctx == id).getD false

/-- A routine under way reads or writes an operand slot: the slot keeps its bytes and its claim (R314, R330). -/
def routineUses (s : State) (ch o : Nat) : Bool := ((s.chisel ch).routine.map fun r => r.slots.contains o).getD false

/-- A result that must wait for a routine that still reads its slot. -/
def mustWait (s : State) (ch : Nat) : CDest → Bool
  | .slot o _ _ => routineUses s ch o
  | _ => false

/-- The slot that a result in flight is for. -/
def InFlight.isFor (f : InFlight) (o : Nat) : Bool :=
  match f.dest with
  | .slot k _ _ => k == o
  | _ => false

/-- Slots whose OREL waited become free once every earlier write of the context has reached them and no routine uses them (R314). -/
def releaseSlots (s : State) (ch : Nat) : State :=
  let busy (k o : Nat) : Bool := routineUses s ch k || (s.ctx (o - 2048)).flight.any fun f => f.isFor k
  s.modChisel ch fun x => { x with claims := x.claims.filter fun (k, o) => decide (o < 2048) || busy k o }

/-- Results that are due land, in issue order. -/
def landDue (s : State) (id : Nat) : State :=
  let due (f : InFlight) : Bool := f.left == 0 && !mustWait s (ctxChisel id) f.dest
  let c := s.ctx id
  (c.flight.filter due).foldl (fun s f => landOne s id f.dest) (s.setCtx id { c with flight := c.flight.filter fun f => !due f })

/-- A bundle of the context is about to issue: counts fall by one and due results land (R52). -/
def tickFlight (s : State) (id : Nat) : State :=
  landDue (s.modCtx id fun c => { c with flight := c.flight.map fun f => { f with left := f.left - 1 } }) id

/-- Every result in flight lands (R293, R297), once no routine of the context runs. -/
def landAll (s : State) (id : Nat) : State :=
  landDue (s.modCtx id fun c => { c with flight := c.flight.map fun f => { f with left := 0 } }) id

/-! ## Handles and result tiles -/

/-- The input buffer that a handle names while the acting context holds it (R310, R313). -/
def heldPos (s : State) (h : Word) : Option Nat :=
  if hKind h = 1 then none
  else (handlePos h).bind fun pos =>
    let d := s.desc pos
    if d.st = .held ∧ d.ctx = s.ctxId ∧ d.gen = hGen h then some pos else none

/-- Row r of a tile as its handle's MASK lets it be read (R72). -/
def tileRow (s : State) (h : Word) (pos r : Nat) : List Byte :=
  if (hMask h).testBit r then s.spad.bytes (posBase pos + 64 * r) 64 else List.replicate 64 0

def rowPoisoned (s : State) (pos r : Nat) : Bool :=
  isPoisoned s (.spad (posBase pos + 64 * r)) || isPoisoned s (.spad (posBase pos + 64 * r + 32))

/-- The result tile that a word names in the chisel's own partition (R305). -/
def resultPos (s : State) (w : Word) : Option Nat :=
  let pn := chiselPad s.curChisel
  if hKind w = 1 ∧ wbits w 63 61 = 0 ∧ 24 * hCluster w + hCore w = pn ∧ hCore w < 24 then some (128 * pn + hBuf w) else none

/-- Why the acting context may not write a result tile (R311). -/
def tileTrap (s : State) (w : Word) : Option Cause :=
  match resultPos s w with
  | none => some .perm
  | some pos =>
    let d := s.desc pos
    match d.st with
    | .writing => if d.ctx = s.ctxId then none else some .rangeLocked
    | .resultPosted => some .sealedBuf
    | _ => none

/-- Write one row of a result tile (R311). -/
def writeRow (s : State) (pos r : Nat) (bs : List Byte) : State :=
  let s := if (s.desc pos).st = .free then settleTile s pos else s
  let d := s.desc pos
  let d := if d.st = .free then { d with gen := (d.gen + 1) % 256, mask := 0, st := .writing, ctx := s.ctxId } else d
  let s := s.setDesc pos { d with mask := d.mask ||| 2 ^ r }
  let a := posBase pos + 64 * r
  rawWrite (rawWrite s (.spad a) (bs.take 32)) (.spad (a + 32)) (bs.drop 32)

/-- Write rows one after another, 64 bytes each, from row r. -/
def writeRows (s : State) (pos r : Nat) : Nat → List Byte → State
  | 0, _ => s
  | n + 1, bs => writeRows (writeRow s pos r (bs.take 64)) pos (r + 1) n (bs.drop 64)

/-! ## Operand slots -/

/-- The context that claims a slot. -/
def claimer (s : State) (o : Nat) : Option Nat := (s.chisel s.curChisel).claims.find o
def claimed (s : State) (o : Nat) : Bool := claimer s o == some s.ctxId

/-! ## Accumulators -/

def accBase (ch a : Nat) : Nat := ch * 2 ^ 15 + 4096 * (a % 8)
def accImage (s : State) (ch a : Nat) : List Byte := s.accMem.bytes (accBase ch a) 4096
def setAcc (s : State) (ch a : Nat) (bs : List Byte) : State := { s with accMem := s.accMem.putBytes (accBase ch a) bs }

/-- A context's AST sees a write (R317): its own from its L-th bundle on, another's L a-cycles on. -/
def seesWrite (s : State) (id : Nat) (w : AccWrite) : Bool :=
  if w.ctx = id then decide (w.bundle + w.latency ≤ (s.ctx id).bundles) else decide (w.cycle + 3 * w.latency ≤ s.cycle)

/-- The image after the last write that the context sees: the image before the first of the writes that follow it. -/
def seenImage (s : State) (id : Nat) : List AccWrite → List Byte → List Byte
  | [], now => now
  | w :: ws, now => if (w :: ws).any (seesWrite s id) then seenImage s id ws now else w.before

def astImage (s : State) (ch a id : Nat) : List Byte :=
  seenImage s id ((s.chisel ch).accLog.filter fun w => w.acc == a) (accImage s ch a)

/-- A write that every context sees, and those before it, need no history. -/
def pruneLog (s : State) (l : List AccWrite) : List AccWrite :=
  l.filter fun w => !(decide (w.cycle + 3 * w.latency ≤ s.cycle) && decide (w.bundle + w.latency ≤ (s.ctx w.ctx).bundles))

/-- A write in M-unit order by a context (R317). -/
def writeAcc (s : State) (ch a id bundle cycle latency : Nat) (bs : List Byte) : State :=
  let w : AccWrite := ⟨a, id, bundle, cycle, latency, accImage s ch a⟩
  let l := (s.chisel ch).accLog
  let others := l.filter fun x => x.acc != a
  let mine := l.filter fun x => x.acc == a
  let mine := if mine.isEmpty ∨ !(pruneLog s mine).isEmpty then mine else []
  setAcc (s.modChisel ch fun x => { x with accLog := others ++ mine ++ [w] }) ch a bs

end Sys2Proof.Machine
end

