-- ==== Sys2Proof/Machine/MUnit.lean ====
section
/-! DEFINITION. The M unit (05 R130 to R132; 13 R315 to R318, R321 to R326): operand elements, the steps, the unary routines,
and microwords run one after another. -/

namespace Sys2Proof.Machine

/-! ## Formats -/

/-- Bits of an element of a format code that a routine accepts. -/
def fmtBits (f : Nat) : Nat := if f = 1 ∨ f = 2 then 16 else if f = 3 ∨ f = 4 then 8 else 4

/-- Elements of k per step (R130). -/
def stepK (f : Nat) : Nat := if f = 1 ∨ f = 2 then 32 else if f = 3 ∨ f = 4 then 64 else 256

/-- The format pairs of a step (R130). -/
def pairOk (a b : Nat) : Bool :=
  (a == 1 && b == 1) || (a == 2 && b == 2) || ((a == 3 || a == 4) && (b == 3 || b == 4)) || ((a == 5 || a == 6) && (b == 5 || b == 6))

/-- AF and BF of FMT (R123). -/
def fmtAF (fmt : Nat) : Nat := fmt % 16
def fmtBF (fmt : Nat) : Nat := fmt / 16 % 16

/-! ## Matrix parameters (R322) -/

def mpSeg (w : Word) : Nat := wbits w 10 8
def mpSslot (w : Word) : Nat := wbits w 6 0
def mpVr (w : Word) : Nat := wbits w 3 0
def mpCf (w : Word) : Nat := wbits w 7 4
def mpHalf (w : Word) : Bool := w.getLsbD 8
def mpTr (w : Word) : Bool := w.getLsbD 9
def mpMslot (w : Word) : Nat := wbits w 22 16
def mpMseg (w : Word) : Nat := wbits w 27 24

/-! ## Operand elements -/

/-- The bytes of a slot of a chisel's operand memory, or of the pair of a 4-bit operand (R315). -/
def slotBytes (m : Mem) (ch o f : Nat) : List Byte :=
  let one (o : Nat) : List Byte := m.bytes (slotBase ch o) 2048
  if fmtBits f = 4 then one o ++ one (o + 1) else one o

/-- Code c of packed 4-bit codes, the even one in the low half of its byte (R113). -/
def nibble (bs : List Byte) (c : Nat) : Nat := numAt bs (c / 2) 1 / 16 ^ (c % 2) % 16

/-- The pattern of element k of line r, where lines run along the slot's rows (R315: A, and B of MMAT and MMATM). -/
def lineCode (f : Nat) (bs : List Byte) (r k : Nat) : Nat :=
  match fmtBits f with
  | 16 => numAt bs (64 * r + 2 * k) 2
  | 8 => numAt bs (64 * r + k) 1
  | _ => nibble bs (4096 * (k / 128) + 128 * r + k % 128)

/-- The pattern of B(k, j) of an MMA (R315). -/
def columnCode (f : Nat) (bs : List Byte) (j k : Nat) : Nat :=
  match fmtBits f with
  | 16 => numAt bs (64 * k + 2 * j) 2
  | 8 => numAt bs (32 * k + j) 1
  | _ => nibble bs (32 * k + j)

/-- The value of a pattern under its block scale: `seg` is the scale segment (R316, R119, R121). -/
def elemValue (f code : Nat) (seg : List Byte) (r k : Nat) : Fp :=
  match f with
  | 5 => mxfp4Val code (numAt seg (8 * r + k / 32) 1)
  | 6 => qc4Val code (numAt seg (8 * r + 2 * (k / 64)) 2)
  | _ => (fmtOf f).elim (.nan false) fun x => fpDecode x code

/-- The scale segment that a parameter register names, moved on by a microword's scale offset (R316, R326). -/
def scaleSegment (m : Mem) (ch : Nat) (mp : Word) (off : Nat) : List Byte :=
  m.bytes (slotBase ch (mpSslot mp) + 256 * ((mpSeg mp + off) % 8)) 256

/-- The elements of one line, k rising. -/
def lineValues (f : Nat) (bs seg : List Byte) (byColumn : Bool) (r : Nat) : List Fp :=
  (List.range (stepK f)).map fun k =>
    elemValue f (if byColumn then columnCode f bs r k else lineCode f bs r k) seg r k

/-! ## A step -/

/-- The sums of R131 over one output element. -/
structure Sum where
  nan : Bool := false
  pinf : Bool := false
  ninf : Bool := false
  sum : Dy := (0, 0)
  deriving DecidableEq, Repr

def Sum.add (x : Sum) (a b : Fp) : Sum :=
  match fpProd a b with
  | .nan _ => { x with nan := true }
  | .inf n => if n then { x with ninf := true } else { x with pinf := true }
  | .fin n m e => if m = 0 then x else { x with sum := dyAdd x.sum (dyOf n m e) }

/-- The new accumulator element (R131). -/
def Sum.onto (x : Sum) (c : Nat) : Nat :=
  match fpDecode fp32 c with
  | .nan _ => fp32.nan
  | .inf n =>
    if x.nan || (x.pinf && x.ninf) || (x.pinf && n) || (x.ninf && !n) then fp32.nan else fpInf fp32 n
  | .fin n m e =>
    if x.nan || (x.pinf && x.ninf) then fp32.nan
    else if x.pinf then fpInf fp32 false
    else if x.ninf then fpInf fp32 true
    else
      let t := dyAdd x.sum (dyOf n m e)
      if t.1 = 0 then 0 else (fpRound fp32 0 false (decide (t.1 < 0)) t.1.natAbs t.2).1

/-- Minus infinity in FP32. -/
def minusInf : Nat := 0xFF800000

/-- The accumulator's elements, row by row. -/
def accElems (bs : List Byte) : Nat → List Nat
  | 0 => []
  | n + 1 => ofLeBytes (bs.take 4) :: accElems (bs.drop 4) n

def accBytes (xs : List Nat) : List Byte := xs.flatMap (leBytes 4)

/-- One step of R131 on an accumulator image: `mask` keeps the elements whose bit is set (R323). -/
def stepImage (as bs : List (List Fp)) (mask : Option (List Byte)) (img : List Byte) : List Byte :=
  accBytes ((accElems img 1024).mapIdx fun n c =>
    let i := n / 32
    let j := n % 32
    let keep : Bool := (mask.map fun m => (numAt m (4 * i) 4).testBit j).getD true
    if keep then (((as.getD i []).zip (bs.getD j [])).foldl (fun x (a, b) => x.add a b) {} : Sum).onto c else minusInf)

/-! ## Unary routines (R324) -/

/-- Element i of a vector pair. -/
def pairAt (v : List Byte) (i : Nat) : Nat := numAt v (4 * i) 4

def ascaleImage (v img : List Byte) : List Byte :=
  accBytes ((accElems img 1024).mapIdx fun n c => (fpMul fp32 0 (fpDecode fp32 c) (fpDecode fp32 (pairAt v (n / 32)))).1)

/-- AROWMAX: the pair's 128 bytes. -/
def rowMax (img : List Byte) : List Byte :=
  let xs := accElems img 1024
  (List.range 32).flatMap fun i =>
    leBytes 4 ((((xs.drop (32 * i)).take 32).drop 1).foldl (fun a b => (fpMinMax fp32 true a b).1)
      (let x := xs.getD (32 * i) 0
       if (fpDecode fp32 x).isNan then fp32.nan else x))

/-- One element of AEXPSUB. -/
def expSub (x c v : Nat) : Nat :=
  match fpProd (fpDecode fp32 x) (fpDecode fp32 c), (fpDecode fp32 v).neg with
  | .nan _, _ => fp32.nan
  | _, .nan _ => fp32.nan
  | .inf a, .inf b => if a = b then (if a then 0 else fpInf fp32 false) else fp32.nan
  | .inf a, _ => if a then 0 else fpInf fp32 false
  | _, .inf b => if b then 0 else fpInf fp32 false
  | .fin na ma ea, .fin nb mb eb =>
    let t := dyAdd (dyOf na ma ea) (dyOf nb mb eb)
    fpExp2 fp32 0 t.1 t.2

def aexpsubImage (c : Nat) (v img : List Byte) : List Byte :=
  accBytes ((accElems img 1024).mapIdx fun n x => expSub x c (pairAt v (n / 32)))

/-- ACONV: the pieces of the destination slot that it writes. -/
def aconvPieces (mp0 : Word) (fmt : Nat) (img : List Byte) : List (Nat × List Byte) :=
  let xs := accElems img 1024
  match fmtOf (mpCf mp0) with
  | none => []
  | some f =>
    let w := f.width / 8
    (List.range 32).map fun r =>
      (64 * r + (if w = 1 ∧ mpHalf mp0 then 32 else 0), (List.range 32).flatMap fun c =>
        let x := if mpTr mp0 then xs.getD (32 * c + r) 0 else xs.getD (32 * r + c) 0
        leBytes w (fpConvert f (bitsOf fmt 10 9) (fmt.testBit 8) (fpDecode fp32 x)).1)

/-! ## Microwords (R326) -/

def uop (w : Nat) : Nat := w / 2 ^ 28

/-- A word that R326 reserves. -/
def uwordReserved (w : Nat) : Bool :=
  match uop w with
  | 0 => w != 0
  | 1 => w % 64 != 0 || (!w.testBit 27 && w.testBit 26)
  | 2 => w % 65536 != 0
  | 3 => bitsOf w 27 26 != 0 || w % 2 ^ 23 != 0
  | _ => true

def isEnd (w : Nat) : Bool := uop w == 0
def isStep (w : Nat) : Bool := uop w == 1
def isAconv (w : Nat) : Bool := uop w == 2 && bitsOf w 27 26 == 3
def isRowmax (w : Nat) : Bool := uop w == 2 && bitsOf w 27 26 == 1

/-- The 512 microwords of a stored routine. -/
def imageWords (bs : List Byte) : List Nat := accElems bs 512

/-- The microwords of routine n before its END: a vendor routine is one microword (R323, R324). -/
def routineWords (s : State) (ch n : Nat) : List Nat :=
  match n with
  | 0 => [0x10000000]
  | 1 => [0x18000000]
  | 2 => [0x1C000000]
  | 3 => [0x20000000]
  | 4 => [0x24000000]
  | 5 => [0x28000000]
  | 6 => [0x2C000000]
  | _ => (imageWords (s.routineMem.bytes (ch * 2 ^ 17 + 2048 * (n % 64)) 2048)).takeWhile fun w => !isEnd w

/-- Slots that a microword of a call reads or writes (R320). -/
def wordSlots (mp0 mp6 mp7 : Word) (fmt oA oB w : Nat) : List Nat :=
  match uop w with
  | 1 =>
    let a := (oA + bitsOf w 22 16) % 128
    let b := (oB + bitsOf w 15 9) % 128
    let four (f : Nat) : Bool := fmtBits f == 4
    [a] ++ (if four (fmtAF fmt) then [(a + 1) % 128, mpSslot mp6] else []) ++ [b]
      ++ (if four (fmtBF fmt) then [(b + 1) % 128, mpSslot mp7] else []) ++ (if w.testBit 26 then [mpMslot mp0] else [])
  | 2 => if isAconv w then [(oA + bitsOf w 22 16) % 128] else []
  | _ => []

/-- Bytes of a slot are written in M-unit order: at once, and over what an earlier OLOAD or TTMASK of the context still
brings, or its routines still read (R324, R330). -/
def writeSlot (s : State) (ch id o : Nat) (pieces : List (Nat × List Byte)) : State :=
  let overlay (bs : List Byte) (off : Nat) : List Byte :=
    pieces.foldl (fun bs (p, new) => bs.mapIdx fun i b => if p ≤ off + i ∧ off + i < p + new.length then new.getD (off + i - p) 0 else b) bs
  let fix (f : InFlight) : InFlight :=
    match f.dest with
    | .slot o' off bs => if o' = o then { f with dest := .slot o' off (overlay bs off) } else f
    | .past o' off bs => if o' = o then { f with dest := .past o' off (overlay bs off) } else f
    | _ => f
  let old (x : Nat × List Byte) : Nat × List Byte := if x.1 / 2048 * 2048 = slotBase ch o then (x.1, overlay x.2 (x.1 % 2048)) else x
  let s := (s.modCtx id fun c => { c with flight := c.flight.map fix }).modChisel ch fun x =>
    { x with routine := x.routine.map fun r => { r with past := r.past.map old } }
  { s with opmem := pieces.foldl (fun m (p, bs) => m.putBytes (slotBase ch o + p) bs) s.opmem }

/-- Operand memory as a routine reads it: where its bundle came too early to see a write, as it was before (R292, R302). -/
def routineMem (s : State) (r : Routine) : Mem := r.past.foldl (fun m (a, bs) => m.putBytes a bs) s.opmem

/-- The lines of A and of B of a STEP. -/
def stepLines (s : Mem) (ch : Nat) (r : Routine) (w : Nat) : List (List Fp) × List (List Fp) :=
  let sc := bitsOf w 8 6
  let af := fmtAF r.fmt
  let bf := fmtBF r.fmt
  let a := slotBytes s ch (r.oA + bitsOf w 22 16) af
  let b := slotBytes s ch (r.oB + bitsOf w 15 9) bf
  let sa := if fmtBits af = 4 then scaleSegment s ch (r.mp.getD 6 0) sc else []
  let sb := if fmtBits bf = 4 then scaleSegment s ch (r.mp.getD 7 0) sc else []
  ((List.range 32).map (lineValues af a sa false), (List.range 32).map (lineValues bf b sb (!w.testBit 27)))

/-- Run one microword of a routine on a chisel, in M-unit order (R317, R326). -/
def runWord (s : State) (ch : Nat) (r : Routine) (w : Nat) : State :=
  let acc := (r.acc + bitsOf w 25 23) % 8
  let img := accImage s ch acc
  let put (s : State) (bs : List Byte) : State := writeAcc s ch acc r.ctx r.bundle r.cycle r.latency bs
  let mp0 := r.mp.getD 0 0
  match uop w with
  | 1 =>
    let m := routineMem s r
    let (as, bs) := stepLines m ch r w
    let mask := if w.testBit 26 then some (m.bytes (slotBase ch (mpMslot mp0) + 128 * mpMseg mp0) 128) else none
    put s (stepImage as bs mask img)
  | 2 =>
    match bitsOf w 27 26 with
    | 0 => put s (ascaleImage r.pair img)
    | 1 =>
      let v := rowMax img
      let left := r.bundle + r.latency - (s.ctx r.ctx).bundles
      let vr := mpVr mp0
      s.modCtx r.ctx fun c => { c with flight := c.flight ++ [⟨left, .v vr (v.take 64)⟩, ⟨left, .v ((vr + 1) % 16) (v.drop 64)⟩] }
    | 2 => put s (aexpsubImage (wbits (r.mp.getD 1 0) 31 0) r.pair img)
    | _ => writeSlot s ch r.ctx ((r.oA + bitsOf w 22 16) % 128) (aconvPieces mp0 r.fmt img)
  | 3 => (put s (List.replicate 4096 0)).modChisel ch fun x => { x with accPoison := NSet.rem x.accPoison acc }
  | _ => s

/-- The routine of a chisel has finished. -/
def endRoutine (s : State) (ch : Nat) : State := s.modChisel ch fun x => { x with routine := none }

/-- The M unit runs the next microword of its routine. -/
def runNext (s : State) (ch : Nat) : State :=
  match (s.chisel ch).routine with
  | none => s
  | some r =>
    match r.words with
    | [] => endRoutine s ch
    | w :: ws =>
      let s := runWord s ch r w
      if ws.isEmpty then endRoutine s ch else s.modChisel ch fun x => { x with routine := x.routine.map fun r => { r with words := ws } }

end Sys2Proof.Machine
end

