-- ==== Sys2Proof/Machine/ChiselCheck.lean ====
section
/-! DEFINITION. The checks of a bundle before any syllable takes effect (12 R293, steps 3 and 4), the chisel trap, and how a
syllable's meaning goes through them. -/

namespace Sys2Proof.Machine

/-! ## Step 3: format codes -/

/-- A format code that an arithmetic V operation refuses (R304). -/
def badArith (f : FmtCode) : Bool := decide (2 < f.toNat)

/-- The FMT trap of a syllable (R123, R130, R304). -/
def fmtTrap (s : State) : Instr → Bool
  | .setfmt i => decide (6 < i.toNat % 16) || decide (6 < i.toNat / 16 % 16)
  | .vadd f _ _ _ => badArith f
  | .vsub f _ _ _ => badArith f
  | .vmul f _ _ _ => badArith f
  | .vfma f _ _ _ => badArith f
  | .vmax f _ _ _ => badArith f
  | .vmin f _ _ _ => badArith f
  | .vexp2 f _ _ => badArith f
  | .vrcp f _ _ => badArith f
  | .vrsq f _ _ => badArith f
  | .vrmax f _ _ => badArith f
  | .vrsum f _ _ => badArith f
  | .vcvt f g _ _ _ => decide (4 < f.toNat) || decide (6 < g.toNat)
  | .vbc f _ _ => decide (4 < f.toNat)
  | .mcall n _ _ _ =>
    let stored : Bool := decide (n.toNat < 16) || NSet.has (s.chisel s.curChisel).routines n.toNat
    stored && (routineWords s s.curChisel n.toNat).any isStep && !pairOk (fmtAF s.curCtx.fmt) (fmtBF s.curCtx.fmt)
  | _ => false

/-! ## Step 4: each syllable's own checks -/

/-- The trap of a handle that is not an input buffer held by the context, or of its poisoned rows (R310, R313). -/
def handleTrap (s : State) (h : Word) (rows : List Nat) : Option Cause :=
  match heldPos s h with
  | none => some .perm
  | some pos => if rows.any (rowPoisoned s pos) then some .machine else none

/-- A mailbox address that TPOST refuses (R300). -/
def postAddrBad (a : Word) : Bool := (mbReceiver a).isNone || mbRemote a || a.getLsbD 20 || mbPeer a != 0

/-- TPOST's traps (R300). -/
def tpostTrap (s : State) (h m : Word) : Option Cause :=
  match resultPos s h with
  | none => some .perm
  | some pos =>
    if (s.desc pos).st = .free then some .perm
    else
      match tileTrap s h with
      | some c => some c
      | none => if postAddrBad m then some .perm else none

/-- MCALL's traps, in the order of R320; then a poisoned slot or accumulator that the routine reads (R453). What the image of a
user routine writes beside another syllable of the bundle is met with the third check (R157; log 79). That ACONV takes no CF
of FP32 is R320's item 4, R322 and R324; R112's table lists it otherwise (log 80). -/
def mcallTrap (s : State) (others : List Instr) (n acc oA oB : Nat) : Option Cause :=
  let ch := s.curChisel
  let c := s.curCtx
  let x := s.chisel ch
  let mp (i : Fin 8) : Word := c.mp[i]
  let ws := routineWords s ch n
  let slots := ws.flatMap (wordSlots (mp 0) (mp 6) (mp 7) c.fmt oA oB)
  let vr := mpVr (mp 0)
  let clash : Bool := (others.flatMap Instr.writes).any fun t => t == .v vr || t == .v ((vr + 1) % 16)
  let accOf (w : Nat) : Nat := (acc + bitsOf w 25 23) % 8
  let accs := (ws.filter fun w => uop w != 3).map accOf
  let image : List WriteTarget := if n < 16 then [] else
    (ws.filter fun w => !isAconv w && !isRowmax w).map (fun w => .acc (accOf w))
      ++ (ws.filter isAconv).map fun w => .slot ((oA + bitsOf w 22 16) % 128)
  let doubled : Bool := (others.flatMap Instr.writes).any image.contains
  if 16 ≤ n ∧ !NSet.has x.routines n then some .illegal
  else if slots.any fun o => !claimed s o then some .perm
  else if (ws.any isRowmax ∧ clash) ∨ doubled then some .illegal
  else if ws.any isAconv ∧ (mpCf (mp 0) = 0 ∨ 4 < mpCf (mp 0)) then some .fmt
  else if slots.any (NSet.has x.slotPoison) ∨ accs.any (NSet.has x.accPoison) then some .machine
  else none

/-- The bytes of an input tile as its handle's MASK lets them be read (R72). -/
def tileBytes (s : State) (h : Word) : List Byte :=
  match heldPos s h with
  | some pos => (List.range 32).flatMap (tileRow s h pos)
  | none => []

/-- MSTORE's traps (R325). -/
def mstoreTrap (s : State) (h : Word) : Option Cause :=
  match handleTrap s h (List.range 32) with
  | some c => some c
  | none =>
    let ws := imageWords (tileBytes s h)
    if ws.all (fun w => !isEnd w) ∨ (ws.takeWhile fun w => !isEnd w).any uwordReserved then some .illegal
    else if (ws.find? isEnd).any uwordReserved then some .illegal
    else none

/-! ### The Armature file (R327) -/

/-- The path of a node to the root, the node first, as long as it is live: none when it is not. -/
def pathOf (c : Ctx) : Nat → Nat → Option (List Nat)
  | 0, _ => none
  | n + 1, k =>
    match c.nodes.find k with
    | none => none
    | some x => if x.parent = 0xFF then some [k] else (pathOf c n x.parent).map fun l => k :: l

def nodePath (c : Ctx) (k : Nat) : Option (List Nat) := pathOf c 256 k
def nodeLive (c : Ctx) (k : Nat) : Bool := (nodePath c k).isSome
def nodeDepth (c : Ctx) (k : Nat) : Nat := ((nodePath c k).map List.length).getD 0
def isAnc (c : Ctx) (q k : Nat) : Bool := ((nodePath c q).map fun l => l.contains k).getD false

/-- TTNODE's trap (R328). -/
def ttnodeTrap (c : Ctx) (a : Word) : Option Cause :=
  let p := wbits a 15 8
  if a.getLsbD 16 ∨ p = 0xFF ∨ (nodeLive c p ∧ p < wbits a 7 0) then none else some .perm

/-- The trap of a syllable's own checks; `others` are the bundle's other syllables. -/
def ownTrap (s : State) (others : List Instr) (i : Instr) : Option Cause :=
  let c := s.curCtx
  match i with
  | .tpost h m => tpostTrap s (c.sreg h) (c.sreg m)
  | .vld _ h row => handleTrap s (c.sreg h) [row.toNat]
  | .vst _ h _ => tileTrap s (c.sreg h)
  | .mcall n acc oA oB => mcallTrap s others n.toNat acc.val oA.val oB.val
  | .mstore _ h => mstoreTrap s (c.sreg h)
  | .oclaim o => if (claimer s o.val).any fun k => k % 2048 != s.ctxId then some .rangeLocked else none
  | .orel o => if claimed s o.val then none else some .perm
  | .oload o h => if claimed s o.val then handleTrap s (c.sreg h) (List.range 32) else some .perm
  | .ast _ r _ => tileTrap s (c.sreg r)
  | .hrel h => handleTrap s (c.sreg h) []
  | .ttnode a _ => ttnodeTrap c (c.sreg a)
  | .ttmask o _ _ => if claimed s o.val then none else some .perm
  | .ttprune a b => if nodeLive c (wbits (c.sreg a) 7 0) then tileTrap s (c.sreg b) else some .perm
  | _ => none

/-- The trap of a bundle that has decoded (R293, steps 3 and 4): slot order is list order. -/
def bundleTrap (s : State) (is : List Instr) : Option Cause :=
  if is.any (fmtTrap s) then some .fmt else is.findSome? fun i => ownTrap s (is.erase i) i

/-! ## Traps and meanings -/

/-- The end of a tile task whose last results land now (R293, R297, R422). -/
def finishCtx (s : State) (id : Nat) (e : CtxEnd) : State :=
  match e with
  | .done => endTile (landAll s id) id .ok
  | .trap c addr => chiselFault (landAll s id) id c addr
  | .killed => endTile (landAll s id) id .killed

/-- A tile task ends: at once, or when its routine has run to its end, and not while it is SUSPENDED (R50, R297). -/
def endCtx (s : State) (id : Nat) (e : CtxEnd) : State :=
  if routineRuns s id ∨ (s.ctx id).frozenBy then s.modCtx id fun c => { c with run := .draining, ending := e } else finishCtx s id e

/-- A chisel trap (R293): results in flight land, the context's routine runs to its end, the tile task ends with FAULT. -/
def chiselTrap (s : State) (id : Nat) (c : Cause) (addr : Nat) : State := endCtx s id (.trap c addr)

/-- The meaning of a syllable: its effect, once the bundle's checks have passed. A syllable on its own is a bundle of one. -/
def syllable (s : State) (i : Instr) (act : State → State) : Out :=
  .next
    (if s.checked then act s
     else
       match bundleTrap s [i] with
       | some c => chiselTrap s s.ctxId c 0
       | none => act s)

end Sys2Proof.Machine
end

