-- ==== Sys2Proof/Machine/Armature.lean ====
section
/-! DEFINITION. Meanings of the Armature operations (13 R327 to R329). -/

namespace Sys2Proof.Machine

def setNodes (s : State) (t : Tbl Node) : State := s.modCtx s.ctxId fun c => { c with nodes := t }

def execTtclr (s : State) : Out := syllable s .ttclr fun s => setNodes s []

/-- TTNODE (R328). -/
def execTtnode (a b : SReg) (s : State) : Out :=
  syllable s (.ttnode a b) fun s =>
    let c := s.curCtx
    let x := c.sreg a
    if x.getLsbD 16 then setNodes s (Tbl.del c.nodes (wbits x 7 0))
    else setNodes s (Tbl.put c.nodes (wbits x 7 0) ⟨wbits x 15 8, wbits (c.sreg b) 31 0⟩)

/-- Word i of a mask segment (R328). -/
def maskWord (c : Ctx) (qb kb i : Nat) : Nat :=
  ((List.range 32).map fun j => if isAnc c (32 * qb + i) (32 * kb + j) then 2 ^ j else 0).sum

def execTtmask (o : OSlot) (a b : SReg) (s : State) : Out :=
  syllable s (.ttmask o a b) fun s =>
    let c := s.curCtx
    let x := c.sreg a
    let bs := (List.range 32).flatMap fun i => leBytes 4 (maskWord c (wbits x 2 0) (wbits x 10 8) i)
    addFlight s 4 (.slot o.val (128 * wbits (c.sreg b) 3 0) bs)

/-- Lane i of TTPOS. -/
def posLane (c : Ctx) (x : Word) (i : Nat) : Nat :=
  let n := wbits x 7 0 + i
  if n ≤ 255 ∧ nodeLive c n then (wbits x 63 32 + nodeDepth c n) % 2 ^ 32 else 0xFFFFFFFF

def execTtpos (d : VReg) (a : SReg) (s : State) : Out :=
  syllable s (.ttpos d a) fun s =>
    let c := s.curCtx
    toV s d ((List.range 16).flatMap fun i => leBytes 4 (posLane c (c.sreg a) i))

/-- The ancestors of a live node from depth 1 down to the node. -/
def rootPath (c : Ctx) (n : Nat) : List Nat := ((nodePath c n).getD []).reverse

def execTtpath (d : VReg) (a : SReg) (s : State) : Out :=
  syllable s (.ttpath d a) fun s =>
    let c := s.curCtx
    let x := c.sreg a
    let p := rootPath c (wbits x 7 0)
    toV s d ((List.range 64).map fun i => BitVec.ofNat 8 (p.getD (wbits x 15 8 + i) 0xFF))

/-- The file that keeps only a root path (R329, step 2). -/
def prunedNodes (c : Ctx) (p : List Nat) : Tbl Node :=
  p.mapIdx fun i k => (i, ⟨if i = 0 then 0xFF else i - 1, ((c.nodes.find k).map (·.token)).getD 0⟩)

def execTtprune (a b : SReg) (s : State) : Out :=
  syllable s (.ttprune a b) fun s =>
    let c := s.curCtx
    let p := rootPath c (wbits (c.sreg a) 7 0)
    match resultPos s (c.sreg b) with
    | none => s
    | some pos =>
      let bs := (List.range 256).map fun i => BitVec.ofNat 8 (p.getD i 0xFF)
      setNodes (writeRows s pos 0 4 bs) (prunedNodes c p)

end Sys2Proof.Machine
end

