-- ==== Sys2Proof/Machine/ChiselCtl.lean ====
section
/-! DEFINITION. Meanings of the C slot (12 R296 to R302) and of the happenings it leads to (12 R297, R301). -/

namespace Sys2Proof.Machine

def execNop (s : State) : Out := syllable s .nop fun s => s

/-- A branch resolves: two delay-slot bundles follow, then its target if it is taken (R296). -/
def branchTo (s : State) (taken : Bool) (off : BitVec 16) : State :=
  s.modCtx s.ctxId fun c => { c with delay := some (2, if taken then some (c.pc + 4 * sext off).toNat else none) }

def execCbr (off : BitVec 16) (s : State) : Out := syllable s (.cbr off) fun s => branchTo s true off

def execBrp (neg : Bool) (p : PReg) (off : BitVec 16) (s : State) : Out :=
  syllable s (.brp neg p off) fun s => branchTo s (s.curCtx.pred p != neg) off

def execLoop (r : SReg) (off : BitVec 16) (s : State) : Out :=
  syllable s (.loop r off) fun s =>
    let c := s.curCtx.sreg r
    branchTo (if c = 0 then s else toS s r (c - 1)) (decide (1 < c.toNat)) off

/-- DONE: the context is HELD until its results have landed, then FREE (R297). -/
def execDone (s : State) : Out := syllable s .done fun s => s.modCtx s.ctxId fun c => { c with run := .draining, ending := .done }

/-- A write into FMT under a mask, with latency 4 (R298). -/
def toFmt (s : State) (mask v : Nat) : State := addFlight s 4 (.fmt mask v)

def execSetfmt (i : BitVec 11) (s : State) : Out := syllable s (.setfmt i) fun s => toFmt s 0x7FF i.toNat
def execSetrm (r : BitVec 2) (s : State) : Out := syllable s (.setrm r) fun s => toFmt s 0x600 (r.toNat * 512)

/-- The popped buffer becomes HELD by the context (R70). -/
def holdBuffer (s : State) (h : Word) : State :=
  match handlePos h with
  | some pos => s.modDesc pos fun d => { d with st := .held }
  | none => s

/-- TPOP (R299): an empty queue freezes the context. -/
def execTpop (r : SReg) (s : State) : Out :=
  syllable s (.tpop r) fun s =>
    match s.curCtx.queue with
    | [] => s.modCtx s.ctxId fun c => { c with run := .frozen }
    | h :: rest => toS (holdBuffer (s.modCtx s.ctxId fun c => { c with queue := rest }) h) r h

/-- TPOST (R300): the tile is POSTED and its handle joins the chisel's outbound list (R301). -/
def execTpost (h m : SReg) (s : State) : Out :=
  syllable s (.tpost h m) fun s =>
    let c := s.curCtx
    match resultPos s (c.sreg h) with
    | none => s
    | some pos =>
      let d := s.desc pos
      let e : Outbound := ⟨pos, posHandle d pos (s.ctxId % 8), c.sreg m, c.task, c.part, 0⟩
      (s.setDesc pos { d with st := .resultPosted }).modChisel s.curChisel fun x => { x with outbound := x.outbound ++ [e] }

def execMwait (s : State) : Out := syllable s .mwait fun s => s.modCtx s.ctxId fun c => { c with run := .held none }

/-! ## Happenings -/

/-- OUTBOUND_DELIVERY: entry k of a chisel's outbound list reaches its receiver's core, unless an earlier entry for the
same mailbox is still there; at a full mailbox it tries again every 64 g-cycles, and a receiver that is not there discards it
(R301). -/
def execOutboundDelivery (ch k : Nat) (s : State) : Out :=
  .next
    (match (s.chisel ch).outbound[k]? with
    | none => s
    | some e =>
      if s.cycle < e.retryAt ∨ ((s.chisel ch).outbound.take k).any (fun x => x.addr == e.addr) then s
      else
        let gone (s : State) : State := s.modChisel ch fun x => { x with outbound := x.outbound.eraseIdx k }
        let full : Bool := ((mbReceiver e.addr).map fun r => decide (16 ≤ (s.strand r).mailbox.length)).getD false
        match deliverMessage s e.part e.addr ⟨1, e.task, [e.handle, 0, 0, 0]⟩ with
        | (s', .ok) => gone s'
        | _ =>
          let there : Bool := ((mbReceiver e.addr).map fun r =>
            s.strandPart r == e.part && taskStrand s e.part (mbTask e.addr) == some r).getD false
          if there && full then
            s.modChisel ch fun x => { x with outbound := x.outbound.set k { e with retryAt := s.cycle + 64 } }
          else (gone s).modDesc e.pos fun d => { d with st := if d.st = .resultPosted ∧ d.gen = hGen e.handle then .free else d.st })

/-- TILE_TASK_END: a context after DONE, a trap or a cancel becomes FREE once every result of its bundles has been written
(R293, R297), and not while it is SUSPENDED (R50). -/
def execTileTaskEnd (id : Nat) (s : State) : Out :=
  .next
    (let c := s.ctx id
     if c.run = .draining ∧ !routineRuns s id ∧ !c.frozenBy then finishCtx s id c.ending else s)

end Sys2Proof.Machine
end

