-- ==== Sys2Proof/Machine/ChiselMatrix.lean ====
section
/-! DEFINITION. Meanings of the M slot and of the T slot's slot, handle and accumulator operations (13 R313, R314, R318 to
R325). -/

namespace Sys2Proof.Machine

/-- The routine of a call: what it reads outside the M unit is read now (R320, R321). Of writes that it comes too early to see, the
earliest tells what it reads (R292). -/
def callRoutine (s : State) (n acc oA oB : Nat) : Routine :=
  let c := s.curCtx
  let ws := routineWords s s.curChisel n
  let vr := mpVr c.mp[(0 : Fin 8)]
  { ctx := s.ctxId, bundle := c.bundles, cycle := s.cycle, latency := if n < 16 then 6 else 5 + ws.length, acc := acc, oA := oA,
    oB := oB, words := ws, mp := c.mp.toList, fmt := c.fmt, pair := c.vreg vr ++ c.vreg ((vr + 1) % 16),
    slots := ws.flatMap (wordSlots c.mp[(0 : Fin 8)] c.mp[(6 : Fin 8)] c.mp[(7 : Fin 8)] c.fmt oA oB),
    past := (c.flight.filterMap fun f =>
      match f.dest with
      | .past o off bs => some (slotBase s.curChisel o + off, bs)
      | _ => none).reverse }

/-- MCALL: the routine takes the M unit for one a-cycle a microword, and its first microword runs (R321, R326). -/
def execMcall (n : BitVec 6) (acc : Acc) (oA oB : OSlot) (s : State) : Out :=
  syllable s (.mcall n acc oA oB) fun s =>
    let r := callRoutine s n.toNat acc.val oA.val oB.val
    let ch := s.curChisel
    runNext (s.modChisel ch fun x => { x with routine := some r, mBusy := s.cycle + 3 * r.words.length }) ch

/-- MSTORE: the image of a routine is stored; the load path is taken for 4 a-cycles (R325). -/
def execMstore (n : BitVec 6) (h : SReg) (s : State) : Out :=
  syllable s (.mstore n h) fun s =>
    let ch := s.curChisel
    let bs := tileBytes s (s.curCtx.sreg h)
    let s := { s with routineMem := s.routineMem.putBytes (ch * 2 ^ 17 + 2048 * n.toNat) bs }
    s.modChisel ch fun x => { x with routines := NSet.ins x.routines n.toNat, loadBusy := max x.loadBusy s.cycle + 12,
                                     storeBusy := x.storeBusy.put n.toNat (s.cycle + 12) }

/-- OCLAIM (R313). -/
def execOclaim (o : OSlot) (s : State) : Out :=
  syllable s (.oclaim o) fun s => s.modChisel s.curChisel fun x => { x with claims := x.claims.put o.val s.ctxId }

/-- OREL (R313): the context holds the slot no longer; it is free once its earlier writes have landed and no routine uses it
(R314). -/
def execOrel (o : OSlot) (s : State) : Out :=
  syllable s (.orel o) fun s => s.modChisel s.curChisel fun x => { x with claims := x.claims.put o.val (2048 + s.ctxId) }

/-- OLOAD (R313): the tile's bytes reach the slot with latency 4; the load path is taken for 4 a-cycles. -/
def execOload (o : OSlot) (h : SReg) (s : State) : Out :=
  syllable s (.oload o h) fun s =>
    let bs := tileBytes s (s.curCtx.sreg h)
    (addFlight s 4 (.slot o.val 0 bs)).modChisel s.curChisel fun x => { x with loadBusy := max x.loadBusy s.cycle + 12 }

/-- ACLR (R318): a write of +0.0 to every element, in M-unit order, with latency 6. -/
def execAclr (acc : Acc) (s : State) : Out :=
  syllable s (.aclr acc) fun s =>
    let ch := s.curChisel
    (writeAcc s ch acc.val s.ctxId s.curCtx.bundles s.cycle 6 (List.replicate 4096 0)).modChisel ch fun x =>
      { x with accPoison := NSet.rem x.accPoison acc.val }

/-- AST (R319): half of the accumulator's image as the context sees it (R317), as the 32 rows of a result tile. Poison
travels with it (R454). -/
def execAst (acc : Acc) (r : SReg) (half : Bool) (s : State) : Out :=
  syllable s (.ast acc r half) fun s =>
    let img := astImage s s.curChisel acc.val s.ctxId
    let bs := (img.drop (if half then 2048 else 0)).take 2048
    match resultPos s (s.curCtx.sreg r) with
    | none => s
    | some pos =>
      let bad := NSet.has (s.chisel s.curChisel).accPoison acc.val
      let s := writeRows s pos 0 32 bs
      if bad then (List.range 64).foldl (fun s g => poisonAt (.spad (posBase pos + 32 * g)) s) s else s

/-- HREL (R313, R70): the buffer becomes FREE. Reads of the tile by earlier bundles have taken their bytes (R314). -/
def execHrel (h : SReg) (s : State) : Out :=
  syllable s (.hrel h) fun s =>
    match heldPos s (s.curCtx.sreg h) with
    | some pos => s.modDesc pos fun d => { d with st := .free }
    | none => s

end Sys2Proof.Machine
end

