-- ==== Sys2Proof/Machine/ChiselScalar.lean ====
section
/-! DEFINITION. Meanings of the S0 and S1 slots (12 R303). -/

namespace Sys2Proof.Machine

/-- A result of two scalar registers, with latency 1. -/
def scalar2 (s : State) (i : Instr) (d a b : SReg) (f : Word → Word → Word) : Out :=
  syllable s i fun s => toS s d (f (s.curCtx.sreg a) (s.curCtx.sreg b))

/-- A shift amount: bits 5..0. -/
def shiftBy (b : Word) : Nat := b.toNat % 64

def execSAdd (u : SSlot) (d a b : SReg) (s : State) : Out := scalar2 s (.sAdd u d a b) d a b (· + ·)

def execSAddi (u : SSlot) (d a : SReg) (i : BitVec 13) (s : State) : Out :=
  syllable s (.sAddi u d a i) fun s => toS s d (s.curCtx.sreg a + sext i)

def execSSub (u : SSlot) (d a b : SReg) (s : State) : Out := scalar2 s (.sSub u d a b) d a b (· - ·)
def execSMul (u : SSlot) (d a b : SReg) (s : State) : Out := scalar2 s (.sMul u d a b) d a b (· * ·)
def execSAnd (u : SSlot) (d a b : SReg) (s : State) : Out := scalar2 s (.sAnd u d a b) d a b (· &&& ·)
def execSOr (u : SSlot) (d a b : SReg) (s : State) : Out := scalar2 s (.sOr u d a b) d a b (· ||| ·)
def execSXor (u : SSlot) (d a b : SReg) (s : State) : Out := scalar2 s (.sXor u d a b) d a b (· ^^^ ·)

def execSShl (u : SSlot) (d a b : SReg) (s : State) : Out :=
  scalar2 s (.sShl u d a b) d a b fun x y => x <<< shiftBy y

def execSShr (u : SSlot) (d a b : SReg) (s : State) : Out :=
  scalar2 s (.sShr u d a b) d a b fun x y => x >>> shiftBy y

def execSSha (u : SSlot) (d a b : SReg) (s : State) : Out :=
  scalar2 s (.sSha u d a b) d a b fun x y => x.sshiftRight (shiftBy y)

def execSMin (u : SSlot) (d a b : SReg) (s : State) : Out :=
  scalar2 s (.sMin u d a b) d a b fun x y => if y.slt x then y else x

def execSMax (u : SSlot) (d a b : SReg) (s : State) : Out :=
  scalar2 s (.sMax u d a b) d a b fun x y => if x.slt y then y else x

def execSCmp (u : SSlot) (c : Cond) (p : PReg) (a b : SReg) (s : State) : Out :=
  syllable s (.sCmp u c p a b) fun s => addFlight s 1 (.p p.val (holds c (s.curCtx.sreg a) (s.curCtx.sreg b)))

def execSSel (u : SSlot) (d a b : SReg) (p : PReg) (s : State) : Out :=
  syllable s (.sSel u d a b p) fun s => toS s d (if s.curCtx.pred p then s.curCtx.sreg a else s.curCtx.sreg b)

def execLi (u : SSlot) (d : SReg) (i : BitVec 18) (s : State) : Out := syllable s (.li u d i) fun s => toS s d (sext i)

/-- A field of a handle (R68). -/
def handleField (f : HField) (h : Word) : Nat :=
  match f with
  | .kind => hKind h
  | .gen => hGen h
  | .tag => hTag h
  | .buf => hBuf h
  | .core => hCore h
  | .cluster => hCluster h
  | .mask => hMask h

def execHget (u : SSlot) (d a : SReg) (f : HField) (s : State) : Out :=
  syllable s (.hget u d a f) fun s => toS s d (BitVec.ofNat 64 (handleField f (s.curCtx.sreg a)))

def execMpset (u : SSlot) (m : MpReg) (a : SReg) (s : State) : Out :=
  syllable s (.mpset u m a) fun s => addFlight s 1 (.mp m.val (s.curCtx.sreg a))

end Sys2Proof.Machine
end

