-- ==== Sys2Proof/Machine/ChiselVector.lean ====
section
/-! DEFINITION. Meanings of the V slot (12 R304 to R311). -/

namespace Sys2Proof.Machine

/-! ## Lanes -/

/-- The format of an F field that the format check has admitted. -/
def vFmt (f : FmtCode) : Fmt := (fmtOf f.toNat).getD fp32

/-- Bytes of a lane, and the lanes of a register (R304). -/
def laneBytes (f : Fmt) : Nat := f.width / 8
def vLanes (f : Fmt) (v : List Byte) : List Nat := (List.range (64 / laneBytes f)).map fun i => numAt v (laneBytes f * i) (laneBytes f)
def vBytes (f : Fmt) (xs : List Nat) : List Byte := xs.flatMap (leBytes (laneBytes f))

/-- One operand, lane by lane, by FMT.RM. -/
def lanewise1 (s : State) (i : Instr) (f : FmtCode) (d a : VReg) (op : Fmt → Rm → Nat → Nat) : Out :=
  syllable s i fun s =>
    let c := s.curCtx
    let x := vFmt f
    toV s d (vBytes x ((vLanes x (c.vreg a.val)).map (op x c.rm)))

/-- Two operands, lane by lane, by FMT.RM. -/
def lanewise2 (s : State) (i : Instr) (f : FmtCode) (d a b : VReg) (op : Fmt → Rm → Nat → Nat → Nat) : Out :=
  syllable s i fun s =>
    let c := s.curCtx
    let x := vFmt f
    toV s d (vBytes x (List.zipWith (op x c.rm) (vLanes x (c.vreg a.val)) (vLanes x (c.vreg b.val))))

/-! ## Arithmetic (R306) -/

def vaddLane (f : Fmt) (rm : Rm) (a b : Nat) : Nat := (fpAdd f rm (fpDecode f a) (fpDecode f b)).1
def vsubLane (f : Fmt) (rm : Rm) (a b : Nat) : Nat := (fpAdd f rm (fpDecode f a) (fpDecode f b).neg).1
def vmulLane (f : Fmt) (rm : Rm) (a b : Nat) : Nat := (fpMul f rm (fpDecode f a) (fpDecode f b)).1
def vmaxLane (f : Fmt) (_ : Rm) (a b : Nat) : Nat := (fpMinMax f true a b).1
def vminLane (f : Fmt) (_ : Rm) (a b : Nat) : Nat := (fpMinMax f false a b).1

def vexp2Lane (f : Fmt) (rm : Rm) (a : Nat) : Nat :=
  match fpDecode f a with
  | .nan _ => f.nan
  | .inf n => if n then 0 else fpInf f false
  | .fin n m e => fpExp2 f rm (dyOf n m e).1 e

def vrcpLane (f : Fmt) (rm : Rm) (a : Nat) : Nat := (fpRcp f rm (fpDecode f a)).1
def vrsqLane (f : Fmt) (rm : Rm) (a : Nat) : Nat := fpRsq f rm (fpDecode f a)

def execVadd (f : FmtCode) (d a b : VReg) (s : State) : Out := lanewise2 s (.vadd f d a b) f d a b vaddLane
def execVsub (f : FmtCode) (d a b : VReg) (s : State) : Out := lanewise2 s (.vsub f d a b) f d a b vsubLane
def execVmul (f : FmtCode) (d a b : VReg) (s : State) : Out := lanewise2 s (.vmul f d a b) f d a b vmulLane
def execVmax (f : FmtCode) (d a b : VReg) (s : State) : Out := lanewise2 s (.vmax f d a b) f d a b vmaxLane
def execVmin (f : FmtCode) (d a b : VReg) (s : State) : Out := lanewise2 s (.vmin f d a b) f d a b vminLane

/-- VFMA: the old vd is the addend. -/
def execVfma (f : FmtCode) (d a b : VReg) (s : State) : Out :=
  syllable s (.vfma f d a b) fun s =>
    let c := s.curCtx
    let x := vFmt f
    let fma (p : Nat × Nat) (z : Nat) : Nat := (fpFma x c.rm (fpDecode x p.1) (fpDecode x p.2) (fpDecode x z)).1
    toV s d (vBytes x (List.zipWith fma ((vLanes x (c.vreg a.val)).zip (vLanes x (c.vreg b.val))) (vLanes x (c.vreg d.val))))

def execVexp2 (f : FmtCode) (d a : VReg) (s : State) : Out := lanewise1 s (.vexp2 f d a) f d a vexp2Lane
def execVrcp (f : FmtCode) (d a : VReg) (s : State) : Out := lanewise1 s (.vrcp f d a) f d a vrcpLane
def execVrsq (f : FmtCode) (d a : VReg) (s : State) : Out := lanewise1 s (.vrsq f d a) f d a vrsqLane

/-! ## Reductions (R307) -/

def maxLanes (f : Fmt) (xs : List Nat) : Nat :=
  match xs with
  | [] => 0
  | x :: rest => rest.foldl (fun a b => (fpMinMax f true a b).1) x

def sumLanes (f : Fmt) (rm : Rm) (xs : List Nat) : Nat :=
  let vs := xs.map (fpDecode f)
  let hasInf (neg : Bool) : Bool := vs.any fun v => v == .inf neg
  if vs.any Fp.isNan ∨ (hasInf true ∧ hasInf false) then f.nan
  else if hasInf true then fpInf f true
  else if hasInf false then fpInf f false
  else
    let t : Dy := vs.foldl (fun (z : Dy) v =>
      match v with
      | .fin n m e => if m = 0 then z else dyAdd z (dyOf n m e)
      | _ => z) (0, 0)
    if t.1 = 0 then signBit f (vs.all fun v => v.isZero && v.isNeg)
    else (fpRound f rm false (decide (t.1 < 0)) t.1.natAbs t.2).1

/-- A reduction to every lane. -/
def reduce (s : State) (i : Instr) (f : FmtCode) (d a : VReg) (op : Fmt → Rm → List Nat → Nat) : Out :=
  syllable s i fun s =>
    let c := s.curCtx
    let x := vFmt f
    let r := op x c.rm (vLanes x (c.vreg a.val))
    toV s d (vBytes x (List.replicate (64 / laneBytes x) r))

def execVrmax (f : FmtCode) (d a : VReg) (s : State) : Out := reduce s (.vrmax f d a) f d a fun x _ xs => maxLanes x xs
def execVrsum (f : FmtCode) (d a : VReg) (s : State) : Out := reduce s (.vrsum f d a) f d a sumLanes

/-! ## Conversion and movement (R308, R309) -/

/-- Lane i of a source format; the 4-bit formats take their scale from vb. -/
def sourceLane (src : Nat) (va vb : List Byte) (i : Nat) : Fp :=
  match src with
  | 5 => mxfp4Val (nibble va i) (numAt vb 0 1)
  | 6 => qc4Val (nibble va i) (numAt vb 0 2)
  | _ => (fmtOf src).elim (.nan false) fun x => fpDecode x (numAt va (laneBytes x * i) (laneBytes x))

/-- The bytes of VCVT's result. -/
def convertLanes (c : Ctx) (f src : Nat) (va vb : List Byte) : List Byte :=
  let x := (fmtOf f).getD fp32
  let ws := ((fmtOf src).map laneBytes).getD 1
  let n := 64 / max (laneBytes x) ws
  bytesAt (vBytes x ((List.range n).map fun i => (fpConvert x c.rm c.sat (sourceLane src va vb i)).1)) 0 64

def execVcvt (f g : FmtCode) (d a b : VReg) (s : State) : Out :=
  syllable s (.vcvt f g d a b) fun s =>
    let c := s.curCtx
    toV s d (convertLanes c f.toNat g.toNat (c.vreg a.val) (c.vreg b.val))

def execVbc (f : FmtCode) (d : VReg) (r : SReg) (s : State) : Out :=
  syllable s (.vbc f d r) fun s =>
    let x := vFmt f
    toV s d (vBytes x (List.replicate (64 / laneBytes x) (s.curCtx.sreg r).toNat))

def execVsel (d a b : VReg) (p : PReg) (s : State) : Out :=
  syllable s (.vsel d a b p) fun s =>
    let c := s.curCtx
    toV s d (if c.pred p then c.vreg a.val else c.vreg b.val)

/-- Byte i of VSHUF. -/
def shuffleByte (va : List Byte) (x : Byte) : Byte := if x.getLsbD 7 then 0 else va.getD (x.toNat % 64) 0

def execVshuf (d a b : VReg) (s : State) : Out :=
  syllable s (.vshuf d a b) fun s =>
    let c := s.curCtx
    toV s d ((c.vreg b.val).map (shuffleByte (c.vreg a.val)))

/-! ## Tiles (R310, R311) -/

def execVld (v : VReg) (h : SReg) (row : BitVec 5) (s : State) : Out :=
  syllable s (.vld v h row) fun s =>
    let w := s.curCtx.sreg h
    match heldPos s w with
    | some pos => toV s v (tileRow s w pos row.toNat)
    | none => s

def execVst (v : VReg) (r : SReg) (row : BitVec 5) (s : State) : Out :=
  syllable s (.vst v r row) fun s =>
    let c := s.curCtx
    match resultPos s (c.sreg r) with
    | some pos => writeRow s pos row.toNat (c.vreg v.val)
    | none => s

end Sys2Proof.Machine
end

