-- ==== Sys2Proof/Machine/Engine.lean ====
section
/-! DEFINITION. Meanings of the ENG major: issue of the copy operations and XNEAR (09 R227, R232, R234), their elements (09 R233,
R235, R236), FTEST, FWAIT, FCANCEL (09 R231), and the happenings of engines (09 R103, R234, R237). -/

namespace Sys2Proof.Machine

/-! ## Issue -/

/-- A window admits an engine range on a side (R58). In window 0x8 an address that names no scratchpad byte (R62) is of no scratchpad of
the cluster, and is INVALID like one of another cluster (log 82). -/
def rangeWindow (s : State) (kind : EngKind) (dest : Bool) (va : Nat) : Bool :=
  match window va with
  | 8 => ((padDecode va).map fun a => a / 2 ^ 18 / 24 == s.curCluster).getD false
  | 9 => false
  | 10 => !dest
  | 11 => false
  | 12 => kind == .copy
  | 13 => kind == .copy || (kind == .fill && dest)
  | 14 => true
  | 15 => false
  | _ => true

/-- Both ends of a range lie in a window that admits it, and in the same one outside paged memory: R58 speaks of one window per range
(log 82). -/
def rangeOk (s : State) (kind : EngKind) (dest : Bool) (va n : Nat) : Bool :=
  let last := va + (n - 1)
  rangeWindow s kind dest va && decide (last < 2 ^ 52) && rangeWindow s kind dest last
    && (window va == window last || (decide (window va < 8) && decide (window last < 8)))

/-- Steps 4 and 5 of R227 for a contiguous destination. -/
def destCheck (s : State) (va n : Nat) : Option Code :=
  if window va ≠ 8 ∨ n = 0 then none
  else
    let first := va / 0x800 * 0x800
    let blocks := (List.range ((va + n - first + 0x7FF) / 0x800)).filterMap fun i => padDecode (first + 0x800 * i)
    if blocks.any fun a => ((posOf a).map fun p => (s.desc p).st != .free).getD false then some .invalid
    else if blocks.any fun a => padIsChisel (a / 2 ^ 18 % 24) || (spillOwner a).isSome
        || ((footprintOwner a).map fun i => (s.strand i).run != .free).getD false then some .refused
    else none

/-- A range widened to granules, registered as source or destination (R101). -/
def mkLock (k : Nat) (dest : Bool) (va n : Nat) : Lock := ⟨k, dest, va / 32 * 32, (va + n + 31) / 32 * 32⟩

/-- The table takes the ranges: room, and no overlap that R101 forbids. -/
def lockRoom (s : State) (ls : List Lock) : Bool :=
  let t := (s.cluster s.curCluster).locks
  decide (t.length + ls.length ≤ 64)
    && ls.all fun l => t.all fun x => !(decide (l.lo < x.hi) && decide (x.lo < l.hi) && (l.dest || x.dest))

/-- The completion of an operation that was never formed (R227). -/
def unformed (s : State) (tok : Fin 16) (c : Code) : State := s.setCur ((s.cur.complete tok.val (status c)).next)

/-- An operation of the acting strand. -/
def newOp (s : State) (kind : EngKind) (tok : Fin 16) (a b c size count : Nat) : EngOp :=
  { kind := kind, strand := s.strandId, task := s.cur.task, part := s.curPart, sink := s.cur.taskSink.toNat % 2 ^ 32,
    launch := strandLaunch s s.strandId, tok := tok.val, a := a, b := b, c := c, size := size, count := count }

/-- Steps 4 to 7 of R227: refused with a status, or formed with its ranges registered and its token pending. R227 allows 8 g-cycles for
the registration, which the model makes in the issue itself (log 83). Of a destination that
is not FREE and overlaps a registered range, step 4 tells first (log 102). -/
def formOp (s : State) (tok : Fin 16) (o : EngOp) (dests : List (Nat × Nat)) (ranges : List (Bool × Nat × Nat))
    (full : Bool) : State :=
  let k := s.opNext
  let ls := ranges.map fun (d, va, n) => mkLock k d va n
  match dests.findSome? fun (va, n) => destCheck s va n with
  | some c => unformed s tok c
  | none =>
    if full ∨ !lockRoom s ls then unformed s tok .refused
    else
      let s := s.modCluster s.curCluster fun c => { c with locks := c.locks ++ ls }
      let s := { s with ops := s.ops.put k o, opNext := k + 1 }
      s.setCur { s.cur.next with pendTok := NSet.ins s.cur.pendTok tok.val }

/-- An engine instruction: a pending token stalls it, then the operands are read (R226, R227). It is irrevocable (R256). -/
def engineIssue (s : State) (tok : Fin 16) (a b c : GReg) (k : State → Word → Word → Word → State) : Out :=
  withRegs s [.g tok, a, b, c] fun t => k (irrevocable s) (t.read a) (t.read b) (t.read c)

/-- XCOPY and XFILL lengths (R232). -/
def lengthOk (n : Nat) : Bool := n % 32 == 0 && decide (n ≤ 2 ^ 30)

def execXcopy (tok : Fin 16) (a b c : GReg) (s : State) : Out :=
  engineIssue s tok a b c fun s x y z =>
    let dst := vaOf x
    let src := vaOf y
    let n := z.toNat
    if dst % 32 ≠ 0 ∨ src % 32 ≠ 0 ∨ !lengthOk n ∨ overlap dst n src n ∨ !rangeOk s .copy true dst n
        ∨ !rangeOk s .copy false src n then unformed s tok .invalid
    else if n = 0 then unformed s tok .ok
    else formOp s tok (newOp s .copy tok dst src n 32 (n / 32)) [(dst, n)] [(false, src, n), (true, dst, n)] false

def execXfill (tok : Fin 16) (a b c : GReg) (s : State) : Out :=
  engineIssue s tok a b c fun s x y z =>
    let dst := vaOf x
    let n := z.toNat
    if dst % 32 ≠ 0 ∨ !lengthOk n ∨ !rangeOk s .fill true dst n then unformed s tok .invalid
    else if n = 0 then unformed s tok .ok
    else formOp s tok (newOp s .fill tok dst y.toNat n 32 (n / 32)) [(dst, n)] [(true, dst, n)] false

/-- The list length of XGATHER and XSCATTER (R232). -/
def listCount (b : Word) : Nat := if wbits b 63 52 = 0 then 4096 else wbits b 63 52

/-- XGATHER and XSCATTER (R232): the contiguous side is a destination or a source. -/
def indexIssue (s : State) (tok : Fin 16) (sz : ElemSize) (x y z : Word) (scatter : Bool) : State :=
  let n := listCount y
  let size := ElemSize.bytes sz
  let al := if size = 64 then 32 else size
  let lst := vaOf y
  let dst := vaOf x
  let src := vaOf z
  let kind : EngKind := if scatter then .scatter else .gather
  let dlen := if scatter then 1 else size * n
  let slen := if scatter then size * n else 1
  if dst % al ≠ 0 ∨ src % al ≠ 0 ∨ lst % 4 ≠ 0 ∨ !rangeOk s kind false lst (4 * n) ∨ !rangeOk s kind true dst dlen
      ∨ !rangeOk s kind false src slen then unformed s tok .invalid
  else
    formOp s tok (newOp s kind tok dst lst src size n) (if scatter then [] else [(dst, dlen)])
      [(false, lst, 4 * n), if scatter then (false, src, slen) else (true, dst, dlen)] false

def execXgather (tok : Fin 16) (a b c : GReg) (sz : ElemSize) (s : State) : Out :=
  engineIssue s tok a b c fun s x y z => indexIssue s tok sz x y z false

def execXscatter (tok : Fin 16) (a b c : GReg) (sz : ElemSize) (s : State) : Out :=
  engineIssue s tok a b c fun s x y z => indexIssue s tok sz x y z true

/-- The Trowel unit of a core's pseudo-channel: the sibling's once the channel has been remapped (R452). -/
def trowelUnit (s : State) (core : Nat) : Nat := if s.remapped.has core then core ^^^ 1 else core

/-- XNEAR's operation enters the queue of its home pseudo-channel, which holds 8 (R227, R234). -/
def formNear (s : State) (tok : Fin 16) (o : EngOp) (dst : Nat × Nat) (src : Nat × Nat) : State :=
  let u := trowelUnit s s.curCore
  let q := s.trowels.getD u []
  let k := s.opNext
  let s' := formOp s tok o [dst] [(false, src.1, src.2), (true, dst.1, dst.2)] (decide (8 ≤ q.length))
  if s'.opNext = k then s' else { s' with trowels := s'.trowels.put u (q ++ [k]) }

def execXnearScaleadd (tok : Fin 16) (a b c : GReg) (s : State) : Out :=
  engineIssue s tok a b c fun s x y z =>
    let n := wbits z 47 32
    if vaOf x % 256 ≠ 0 ∨ vaOf y % 256 ≠ 0 ∨ wbits z 63 48 ≠ 0 ∨ n = 0 then unformed s tok .invalid
    else formNear s tok (newOp s .scaleadd tok (vaOf x) (vaOf y) (wbits z 31 0) 256 n) (vaOf x, 256) (vaOf y, 256 * n)

def execXnearTopk (tok : Fin 16) (a b c : GReg) (s : State) : Out :=
  engineIssue s tok a b c fun s x y z =>
    let n := wbits z 19 0
    let k := wbits z 38 32
    if vaOf x % 8 ≠ 0 ∨ vaOf y % 256 ≠ 0 ∨ wbits z 63 39 ≠ 0 ∨ wbits z 31 20 ≠ 0 ∨ n = 0 ∨ k = 0 ∨ 64 < k then
      unformed s tok .invalid
    else formNear s tok (newOp s .topk tok (vaOf x) (vaOf y) n k n) (vaOf x, 8 * k) (vaOf y, 4 * n)

/-! ## Token instructions -/

/-- The operation whose token is tok. -/
def tokOp (s : State) (id : Nat) (tok : Fin 16) : Option (Nat × EngOp) :=
  s.ops.find? fun (_, o) => o.strand == id && o.task == (s.strand id).task && o.tok == tok.val

/-- FTEST (R231); it stalls on no token register. -/
def execFtest (tok : Fin 16) (a : GReg) (s : State) : Out :=
  withRegs s [] fun t =>
    let s := irrevocable s
    let w := if NSet.has t.pendTok tok.val then status .timeout else t.read (.g tok)
    s.setCur (s.cur.report a w).next

/-- FWAIT (R231). -/
def execFwait (tok : Fin 16) (e : BitVec 5) (s : State) : Out := .next (issueWait (irrevocable s) (.fwait tok.val) e)

/-- FCANCEL (R231). -/
def execFcancel (tok : Fin 16) (s : State) : Out :=
  .next
    (let s := irrevocable s
     let s := match tokOp s s.strandId tok with
       | some (k, o) => setOp s k { o with cancelled := true }
       | none => s
     s.setCur s.cur.next)

/-! ## Elements of the copy engines -/

/-- Element `next` of XCOPY or XFILL (R233). -/
def copyElem (s : State) (k : Nat) (o : EngOp) : State :=
  let dst := o.a + 32 * o.next
  if o.kind = .fill then
    let p := leBytes 8 o.b
    storeElem s k o dst (p ++ p ++ p ++ p) false
  else
    let src := o.b + 32 * o.next
    match engPlace s o src false with
    | .miss s va => missElem s k o va
    | .fault s c => failOp s k c src o.next
    | .wait s => s
    | .go s (.peer p off) =>
      sendRequest (setOp s k { o with away := true }) 12 (.engine k o.next) (request s p o.part off 32 [])
    | .go s (.host v) => elemHmem (setOp s k { o with away := true }) o k v false [] false
    | .go s l =>
      let (s, bs, pois) := readPlaces s [(l, 32)]
      storeElem s k o dst bs pois

/-- What an element does when one of its places is not there: the address of that granule is the faulting one (R229). -/
def placeFailed (k : Nat) (o : EngOp) : Nat × EngAcc → State
  | (_, .miss s va) => missElem s k o va
  | (va, .fault s c) => failOp s k c va o.next
  | (_, .wait s) => s
  | (_, .go s _) => s

/-- What an indexed element has read: its index, its bytes and which of its pieces were poisoned; or the granule of a page that runs remote that the
host is asked for first (R404); or the piece that is not there. -/
inductive ElemRead where
  | ok (s : State) (x : Nat) (bs : List Byte) (pois : List Bool)
  | ask (s : State) (va : Nat)
  | stop (x : EngAcc) (va : Nat)

/-- Bytes at a place: from the device, or as the host has sent them. -/
def placeBytes (s : State) (o : EngOp) (l : Loc) (va n : Nat) : ElemRead :=
  if l.isAway then
    match o.got.find? fun g => g.1 == va / 32 * 32 with
    | some (_, bs, p) => .ok s 0 (bytesAt bs (va % 32) n) [p]
    | none => .ask s (va / 32 * 32)
  else
    let (s, bs, p) := readPlaces s [(l, n)]
    .ok s 0 bs [p]

/-- Read the pieces of a part of element x, behind bytes that have been read. -/
def elemRead (s : State) (o : EngOp) (x : Nat) : List (Nat × Nat) → List Byte → List Bool → ElemRead
  | [], bs, p => .ok s x bs p
  | (va, n) :: ps, bs, p =>
    match engPlace s o va false with
    | .go s l =>
      match placeBytes s o l va n with
      | .ok s _ b q => elemRead s o x ps (bs ++ b) (p ++ q)
      | y => y
    | y => .stop y va

/-- The index of element i, whose poison goes with it (R229), and then what the element moves (R233). -/
def elemSource (s : State) (o : EngOp) (i : Nat) : ElemRead :=
  match elemRead s o 0 [(o.b + 4 * i, 4)] [] [] with
  | .ok s _ ib p =>
    let x := ofLeBytes ib
    (match elemRead s o x (pieces ((o.c + o.size * (if o.kind = .scatter then i else x)) % 2 ^ 52) o.size) [] [] with
    | .ok s x bs q => .ok s x bs (q.map fun b => b || p.any id)
    | y => y)
  | y => y

/-- The elements of XGATHER from i on that share a destination granule are read together, up to one that fails (R84, R229). -/
def gatherRead (o : EngOp) : Nat → State → List Byte → List Bool → ElemRead
  | 0, s, bs, p => .ok s 0 bs p
  | m + 1, s, bs, p =>
    match elemSource s o (o.next + bs.length / o.size) with
    | .ok s _ b q => gatherRead o m s (bs ++ b) (if bs.isEmpty then q else [p.any id || q.any id])
    | .stop (.fault s' c) va => if bs.isEmpty then .stop (.fault s' c) va else .ok s 0 bs p
    | y => y

/-- Write a unit of an indexed operation: `n` elements whose bytes are placed at dst, each granule whole (R84)
and poisoned where what it comes from was (R229). -/
def storeUnit (s : State) (k : Nat) (o : EngOp) (dst n : Nat) (bs : List Byte) (pois : List Bool) : State :=
  let ps := pieces dst bs.length
  match engPlaces s o true ps [] with
  | .error x => placeFailed k o x
  | .ok (s, ls) =>
    let parts := (ls.zip ps).zipIdx.map fun (((l, m), va, _), i) => (l, va, bytesAt bs (32 * i) m, pois.getD i false)
    let out := parts.filter fun x => x.1.isAway
    if out.any fun x => granuleBusy s o.part (some k) (x.2.1 / 32 * 32) then setOp s k { o with miss := none, missNone := false } else
    match out.find? fun (_, va, b, _) => b.length != 32 && o.got.all fun g => g.1 != va / 32 * 32 with
    | some (_, va, _) => askGranule s k { o with writing := some (va / 32 * 32) } (va / 32 * 32)
    | none =>
      let s := (parts.filter fun x => !x.1.isAway).foldl (fun s (l, _, b, p) => writePlaces s p [(l, b.length)] b) s
      let whole (x : Loc × Nat × List Byte × Bool) : Nat × List Byte × Bool :=
        let g := x.2.1 / 32 * 32
        let old := ((o.got.find? fun y => y.1 == g).map (·.2)).getD ([], false)
        (g, mergeGranule old.1 x.2.1 x.2.2.1, x.2.2.2 || old.2)
      sendPuts s k { o with puts := out.map whole, stride := n, miss := none, missNone := false }

/-- What comes of what an indexed element has read. -/
def elemGoes (k : Nat) (o : EngOp) (r : ElemRead) (go : State → Nat → List Byte → List Bool → State) : State :=
  match r with
  | .ok s x bs p => go s x bs p
  | .ask s va => askGranule s k o va
  | .stop x va => placeFailed k o (va, x)

/-- The next elements of XGATHER or XSCATTER (R233): the index, then the source, then the destination. -/
def indexElem (s : State) (k : Nat) (o : EngOp) : State :=
  if o.kind = .scatter then
    elemGoes k o (elemSource s o o.next) fun s x bs p => storeUnit s k o ((o.a + o.size * x) % 2 ^ 52) 1 bs p
  else
    let dst := (o.a + o.size * o.next) % 2 ^ 52
    let m := if 32 ≤ o.size then 1 else min ((32 - dst % 32) / o.size) (o.count - o.next)
    elemGoes k o (gatherRead o m s [] []) fun s _ bs p => storeUnit s k o dst (bs.length / o.size) bs p

/-! ## Trowel microprograms -/

/-- A place in the near tier whose home is the unit's pseudo-channel (R234). -/
def nearPlace (s : State) (o : EngOp) (va : Nat) (wr : Bool) : EngAcc :=
  if 8 ≤ window va then .fault s .perm
  else
    match engPlace s o va wr with
    | .go s (.mem pa) => if isNear pa ∧ homeSlice pa = strandCore o.strand then .go s (.mem pa) else .fault s .perm
    | .go s _ => .fault s .perm
    | x => x

/-- The places of the 32-byte pieces of a row or a list. -/
def nearPlaces (s : State) (o : EngOp) (wr : Bool) : List (Nat × Nat) → List (Loc × Nat) →
    Except (Nat × EngAcc) (State × List (Loc × Nat))
  | [], acc => .ok (s, acc)
  | (va, n) :: ps, acc =>
    match nearPlace s o va wr with
    | .go s l => nearPlaces s o wr ps (acc ++ [(l, n)])
    | x => .error (va, x)

/-- A range cut at granules. -/
def cutRange : Nat → Nat → Nat → List (Nat × Nat)
  | 0, _, _ => []
  | f + 1, va, n => if n = 0 then [] else let m := min n (32 - va % 32); (va, m) :: cutRange f (va + m) (n - m)

/-- The granules of a read that are poisoned, by their order. -/
def poisonSet (s : State) (ls : List (Loc × Nat)) : NSet := (ls.zipIdx.filter fun p => isPoisoned s p.1.1).map (·.2)

/-- Write the pieces with the operation's poison. -/
def writeNear (s : State) (o : EngOp) (ls : List (Loc × Nat)) (bs : List Byte) : State :=
  let cut := ls.foldl (fun (acc, rest) (l, n) => (acc ++ [(l, rest.take n)], rest.drop n)) (([] : List (Loc × List Byte)), bs)
  cut.1.zipIdx.foldl (fun s ((l, b), i) => markedWrite s l b (NSet.has o.poison i)) s

def lanesOf (bs : List Byte) (n : Nat) : List Nat := (List.range n).map fun j => numAt bs (4 * j) 4

/-- Row `next` of SCALEADD, or its end (R235). -/
def scaleaddRow (s : State) (k : Nat) (o : EngOp) : State :=
  let dst := cutRange 8 o.a 256
  let finish (s : State) (o : EngOp) (w : State → State) : State :=
    match nearPlaces s o true dst [] with
    | .error x => placeFailed k o x
    | .ok (s, ls) => w (writeNear s o ls (o.lanes.flatMap (leBytes 4)))
  if o.lanes.isEmpty then
    match nearPlaces s o false dst [], nearPlaces s o true dst [] with
    | .error x, _ => placeFailed k o x
    | _, .error x => placeFailed k o x
    | .ok (s, ls), .ok _ =>
      let (s, bs, _) := readPlaces s ls
      setOp s k { o with lanes := lanesOf bs 64, poison := poisonSet s ls, miss := none, missNone := false }
  else if o.next = o.count then finish s o fun s => completeOp s k (status .ok)
  else
    let row := o.b + 256 * o.next
    match nearPlaces s o false (cutRange 8 row 256) [] with
    | .error (va, .fault s c) => finish s o fun s => failOp s k c va o.next
    | .error x => placeFailed k o x
    | .ok (s, ls) =>
      let p := poisonSet s ls
      let (s, bs, _) := readPlaces s ls
      let scale := fpDecode fp32 o.c
      let lanes := o.lanes.zipWith (fun a x => (fpFma fp32 0 scale (fpDecode fp32 x) (fpDecode fp32 a)).1) (lanesOf bs 64)
      nextElem (setOp s k { o with lanes := lanes, poison := p.foldl NSet.ins o.poison }) k

/-- A candidate is valid when it is neither a NaN nor minus infinity (R236). -/
def topkValid (v : Nat) : Bool :=
  match fpDecode fp32 v with
  | .nan _ => false
  | .inf neg => !neg
  | _ => true

/-- Insert a candidate behind every one that is not smaller: among equal values the lower index comes first (R236). -/
def topkInsert (v i : Nat) : List (Nat × Nat) → List (Nat × Nat)
  | [] => [(v, i)]
  | (w, j) :: l => if fpLess (fpDecode fp32 w) (fpDecode fp32 v) then (v, i) :: (w, j) :: l else (w, j) :: topkInsert v i l

/-- The result list of k entries (R236). -/
def topkBytes (best : List (Nat × Nat)) (k : Nat) : List Byte :=
  (List.range k).flatMap fun j =>
    match best[j]? with
    | some (v, i) => leBytes 4 i ++ leBytes 4 v
    | none => leBytes 4 0xFFFFFFFF ++ leBytes 4 0

/-- The row at candidate `next` of TOPK, or its end (R236). `size` is k. -/
def topkRow (s : State) (k : Nat) (o : EngOp) : State :=
  let dst := cutRange 18 o.a (8 * o.size)
  let finish (s : State) (w : State → State) : State :=
    match nearPlaces s o true dst [] with
    | .error x => placeFailed k o x
    | .ok (s, ls) =>
      let all := if o.poison.isEmpty then [] else List.range ls.length
      w (writeNear s { o with poison := all } ls (topkBytes o.best o.size))
  if o.count ≤ o.next then
    let m := o.best.length
    finish s fun s => completeOp s k (statusWord (if m = o.size then .ok else .partly) 0 m)
  else
    let row := o.b + 4 * o.next
    let n := min 64 (o.count - o.next)
    match nearPlaces s o false (cutRange 8 row (4 * n)) [], nearPlaces s o true (if o.next = 0 then dst else []) [] with
    | .error (va, .fault s c), _ => finish s fun s => failOp s k c va o.next
    | .error x, _ => placeFailed k o x
    | _, .error x => placeFailed k o x
    | .ok (s, ls), .ok _ =>
      let p := poisonSet s ls
      let (s, bs, _) := readPlaces s ls
      let best := (lanesOf bs n).zipIdx.foldl (fun b (v, j) =>
        if topkValid v then (topkInsert v (o.next + j) b).take o.size else b) o.best
      setOp s k { o with best := best, next := o.next + n, poison := p.foldl NSet.ins o.poison, miss := none, missNone := false }

/-- After a row the home slice's waiting accesses win the pseudo-channel (R237). -/
def yieldRow (s : State) (k : Nat) : State :=
  match s.ops.find k with
  | some o => if s.atoms.any fun a => a.slice == strandCore o.strand then setOp s k { o with yielded := true } else s
  | none => s

/-- The next element of an engine operation (R233): nothing while it is away, waits its turn or stands aside. -/
def engineTurn (s : State) (k : Nat) : State :=
  match s.ops.find k with
  | none => s
  | some o =>
    let coll : Bool := match o.kind with
      | .coll _ => true
      | _ => false
    let near : Bool := o.kind == .scaleadd || o.kind == .topk
    if coll ∨ o.away ∨ o.suspended ∨ (o.miss.isSome ∧ !o.missNone) then s
    else if o.cancelled then completeOp s k (status .cancelled)
    else if near then
      if !o.running ∨ o.yielded then s
      else yieldRow (if o.kind = .scaleadd then scaleaddRow s k o else topkRow s k o) k
    else if o.next = o.count then s
    else if o.kind = .copy ∨ o.kind = .fill then copyElem s k o
    else indexElem s k o

/-! ## Happenings -/

/-- ENGINE_COMPLETION: every element of a copy operation has been performed (R103). -/
def execEngineCompletion (k : Nat) (s : State) : Out :=
  .next
    (match s.ops.find k with
    | some o =>
      let plain : Bool := o.kind == .copy || o.kind == .fill || o.kind == .gather || o.kind == .scatter
      if plain ∧ !o.away ∧ o.next = o.count then completeOp s k (status (if o.cancelled then .cancelled else .ok)) else s
    | none => s)

/-- XNEAR_START: an idle unit starts its oldest operation (R234) of a partition that does not halt (R379). -/
def execXnearStart (u : Nat) (s : State) : Out :=
  .next
    (let q := s.trowels.getD u []
     let busy : Bool := q.any fun k => ((s.ops.find k).map (·.running)).getD false
     let ready (k : Nat) : Bool := ((s.ops.find k).map fun o => !s.stopping o.part).getD false
     match q.find? ready with
     | some k =>
       if busy then s
       else
         match s.ops.find k with
         | some o => { setOp s k { o with running := true } with trowels := s.trowels.put u (k :: q.filter (· != k)) }
         | none => s
     | none => s)

/-- TROWEL_RESUME: the running microprogram goes on after the slice's accesses have been served (R237). -/
def execTrowelResume (u : Nat) (s : State) : Out :=
  .next
    (match s.trowels.getD u [] with
    | k :: _ =>
      match s.ops.find k with
      | some o => if o.running then setOp s k { o with yielded := false } else s
      | none => s
    | [] => s)

end Sys2Proof.Machine
end

