-- ==== Sys2Proof/Machine/Coll.lean ====
section
/-! DEFINITION. Chain collectives: XCOLL and the steps of a chain instance (09 R238 to R240; 05 R133). -/

namespace Sys2Proof.Machine

/-- Element bytes of a variant (R238). -/
def CollOp.width : CollOp → Nat
  | .addF32 => 4 | .minF32 => 4 | .maxF32 => 4 | _ => 8

/-- Combine two elements (R133, R240). -/
def collCombine (v : CollOp) (x y : Nat) : Nat :=
  let a := BitVec.ofNat 64 x
  let b := BitVec.ofNat 64 y
  match v with
  | .addF32 => (fpAdd fp32 0 (fpDecode fp32 x) (fpDecode fp32 y)).1
  | .minF32 => (fpMinMax fp32 false x y).1
  | .maxF32 => (fpMinMax fp32 true x y).1
  | .addI64 => (a + b).toNat
  | .minI64 => if b.slt a then y else x
  | .maxI64 => if a.slt b then y else x
  | .bcast => x

def collBytes (v : CollOp) (n : Nat) (xs ys : List Byte) : List Byte :=
  let w := CollOp.width v
  (List.range n).flatMap fun i => leBytes w (collCombine v (numAt xs (w * i) w) (numAt ys (w * i) w))

/-- The chain key of a strand (R239). -/
def chainKey (s : State) (id : Nat) : Nat :=
  let m := launchMode s (strandLaunch s id)
  let c := strandCore id
  if m.logical then 16 * (m.w * (coreY c - m.y0) + (coreX c - m.x0)) + id % 16 else 16 * c + id % 16

/-- The oldest open instance of a group that the strand has not joined (R239). -/
def openChain (s : State) (gid id : Nat) : Option (Nat × Chain) :=
  s.chains.find? fun (_, c) =>
    c.gid == gid && !c.closed && c.members.all fun m => ((s.ops.find m.2).map fun o => o.strand != id).getD true

def openCount (s : State) (gid : Nat) : Nat := (s.chains.filter fun (_, c) => c.gid == gid && !c.closed).length

/-- XCOLL once its operands are in order and the strand is a member (R238, R239), both of which are tested before steps 4 to 7 of R227
(log 103). -/
def joinChain (s : State) (tok : Fin 16) (gid a n : Nat) (v : CollOp) : State :=
  let id := s.strandId
  let k := s.opNext
  let len := CollOp.width v * n
  let o := newOp s (.coll v) tok a gid 0 (CollOp.width v) n
  let key := chainKey s id
  match openChain s gid id with
  | some (i, c) =>
    let s' := formOp s tok { o with inst := i } [(a, len)] [(true, a, len)] false
    if s'.opNext = k then s'
    else closeChains { s' with chains := s'.chains.put i { c with members := c.members ++ [(key, k)] } } gid
  | none =>
    if 2 ≤ openCount s gid then unformed s tok .refused
    else
      let i := s.chainNext
      let s' := formOp s tok { o with inst := i } [(a, len)] [(true, a, len)] false
      if s'.opNext = k then s'
      else
        let c : Chain := ⟨gid, s.curPart, [(key, k)], false, 0, false, [], [], []⟩
        closeChains { s' with chains := s'.chains.put i c, chainNext := i + 1 } gid

def execXcoll (tok : Fin 16) (a b c : GReg) (v : CollOp) (s : State) : Out :=
  engineIssue s tok a b c fun s x y z =>
    let va := vaOf x
    let n := z.toNat
    if window va ≠ 8 ∨ va % 32 ≠ 0 ∨ 65536 ≤ y.toNat ∨ n = 0 ∨ 4096 < n ∨ !rangeOk s (.coll v) true va (CollOp.width v * n) then
      unformed s tok .invalid
    else if !((s.groups.find y.toNat).map fun g => NSet.has g.members s.strandId).getD false then unformed s tok .refused
    else joinChain s tok y.toNat va n v

/-- A member's buffer: flat address, bytes and poisoned granules. -/
def memberBytes (s : State) (o : EngOp) : List Byte × NSet :=
  let a := (padDecode o.a).getD 0
  let n := o.size * o.count
  (s.spad.bytes a n, (List.range ((n + 31) / 32)).filter fun i => isPoisoned s (.spad (a + 32 * i)))

/-- Write a result to a member's buffer, a granule at a time, and complete the member with OK; a granule that no engine may write any
more, being pinned to a task since the issue (R28), ends the member as a fault ends an operation (R229; log 88). -/
def memberDone (s : State) (k : Nat) (o : EngOp) (bs : List Byte) (pois : NSet) : State :=
  let n := (bs.length + 31) / 32
  let at_ (i : Nat) : Nat := o.a + 32 * i
  let bad := (List.range n).find? fun i =>
    match engPad s o (at_ i) true with
    | .go _ _ => false
    | _ => true
  let s := (List.range (bad.getD n)).foldl (fun s i =>
    match engPad s o (at_ i) true with
    | .go s l => markedWrite s l ((bs.drop (32 * i)).take 32) (NSet.has pois i)
    | _ => s) s
  match bad with
  | none => completeOp s k (status .ok)
  | some i =>
    match engPad s o (at_ i) true with
    | .fault s c => failOp s k c (at_ i) (32 * i / o.size)
    | _ => s

/-- Every member that is not done completes with a status, and the instance ends. -/
def endChain (s : State) (i : Nat) (c : Chain) (code : Code) : State :=
  let s := c.members.foldl (fun s m => if NSet.has c.done m.2 then s else completeOp s m.2 (status code)) s
  { s with chains := s.chains.del i }

def setChain (s : State) (i : Nat) (c : Chain) : State := { s with chains := s.chains.put i c }

/-- The device release of a member's step (R98), while the task that joined still runs. -/
def stepRelease (s : State) (o : EngOp) : State :=
  if (s.strand o.strand).run ≠ .free ∧ (s.strand o.strand).task = o.task then release s o.strand .device 0 else s

/-- Position `pos` of a closed instance acts (R240), behind the earlier accesses of its strand (R98). -/
def chainStep (s : State) (i : Nat) (c : Chain) (v : CollOp) (n : Nat) : State :=
  match c.members[c.pos]? with
  | none => { s with chains := s.chains.del i }
  | some (_, k) =>
    match s.ops.find k with
    | none => { s with chains := s.chains.del i }
    | some o =>
      let s := stepRelease s o
      let (bs, ps) := memberBytes s o
      let final : Bool := c.pos + 1 == c.members.length
      if v = .bcast then
        let value := if c.pos = 0 then bs else c.value
        let pois := if c.pos = 0 then ps else c.poison
        let s := if c.pos = 0 then completeOp s k (status .ok) else memberDone s k o value pois
        if final then { s with chains := s.chains.del i }
        else setChain s i { c with pos := c.pos + 1, value := value, poison := pois, done := NSet.ins c.done k }
      else if !c.back then
        let value := if c.pos = 0 then bs else collBytes v n c.value bs
        let pois := ps.foldl NSet.ins c.poison
        if !final then setChain s i { c with pos := c.pos + 1, value := value, poison := pois }
        else
          let s := memberDone s k o value pois
          if c.pos = 0 then { s with chains := s.chains.del i }
          else setChain s i { c with pos := c.pos - 1, back := true, value := value, poison := pois, done := NSet.ins c.done k }
      else
        let s := memberDone s k o c.value c.poison
        if c.pos = 0 then { s with chains := s.chains.del i }
        else setChain s i { c with pos := c.pos - 1, done := NSet.ins c.done k }

/-- XCOLL_CHAIN_STEP (R239, R240): a lost member cancels those not yet written; members that disagree get INVALID; else the
next position of a closed instance acts. -/
def execXcollChainStep (i : Nat) (s : State) : Out :=
  .next
    (match s.chains.find i with
    | none => s
    | some c =>
      let os := c.members.filterMap fun m => if NSet.has c.done m.2 then none else s.ops.find m.2
      if os.any (·.cancelled) then endChain s i c .cancelled
      else if !c.closed then s
      else
        match os.head? with
        | none => { s with chains := s.chains.del i }
        | some o =>
          if os.any fun x => x.kind != o.kind || x.count != o.count then endChain s i c .invalid
          else
            match o.kind with
            | .coll v => chainStep s i c v o.count
            | _ => s)

end Sys2Proof.Machine
end

