-- ==== Sys2Proof/Machine/Dune.lean ====
section
/-! DEFINITION. The link layer of a Dune port (20 R437 to R439): start, receipt, acknowledgement, replay, credit, lanes,
failure; and the meanings of its flits and timers. -/

namespace Sys2Proof.Machine


/-- The fabric does nothing before the firmware runs: until then only the I3C registers respond (R458). -/
def fabricOn (s : State) : Bool := s.mgmt.phase == .ready || s.mgmt.phase == .tripped

/-- Send one control flit of a body (R438, R439). It carries the acknowledgement and the credits. -/
def sendControl (s : State) (n : Nat) (body : List Byte) : State :=
  let p := s.port n
  let bytes := encodeFlit ⟨p.txSeq, 0, false, false, true, true, (p.rxSeq + 4095) % 4096, credNow p.freed, body, true⟩
  { s.setPort n (Port.passed { p with freed := credLeft p.freed, ackOwed := false, lastSend := s.cycle } true 1) with
    dunOut := s.dunOut ++ [(n, bytes)] }

def sendInit (s : State) (n : Nat) : State :=
  sendControl s n (leBytes 1 1 ++ (s.port n).bufs.flatMap (leBytes 1) ++ leBytes 2 s.devid)

def sendNak (s : State) (n : Nat) : State :=
  (sendControl s n (leBytes 1 2 ++ leBytes 2 (s.port n).rxSeq)).modPort n fun p => { p with nakAt := some s.cycle }

def portRuns (p : Port) : Bool := p.st == .up8 || p.st == .up7

/-- Serve a port's channels as far as they go. -/
def pumpAll (s : State) (n : Nat) : State := pump n ((s.port n).queue.length + 1) s

/-- The packets of a port that have not begun to leave: by channel, whole bodies from their first flit. -/
def unsent (q : List QFlit) : List (Option Nat × List Byte) :=
  (List.range 4).flatMap fun v =>
    let fs := (q.filter fun f => f.vc == v).dropWhile fun f => !f.sop
    (fs.foldl (fun (acc : List (Option Nat × List Byte) × List Byte) f =>
      let b := (if f.sop then [] else acc.2) ++ f.body
      if f.eop then (acc.1 ++ [(f.since, b)], []) else (acc.1, b)) ([], [])).1

/-- A port goes down (R437, R439): recorded, its link state is lost, and packets that had not begun to leave take another
port (R440). -/
def portDown (s : State) (n : Nat) : State :=
  let p := s.port n
  if p.st = .down then s
  else
    let left := unsent p.queue
    let s := strataEvent (s.setPort n { bufs := p.bufs }) ioDie 6 0xFF n 0 0
    left.foldl (fun s (since, bs) =>
      match decodePacket bs with
      | .ok (typ, q) => emit s typ q since
      | .error _ => s) s

/-- An acknowledgement frees the replay buffer up to and including the number it names (R439, item 4). -/
def ackReplay (p : Port) (f : Flit) : Port :=
  if f.ackv ∧ p.replay.any (fun r => r.1 == f.ackseq) then
    { p with replay := (p.replay.dropWhile fun r => r.1 != f.ackseq).drop 1 }
  else p

/-- What every accepted flit carries: acknowledgement, credits, and that the link lives (R439). -/
def takeLink (s : State) (n : Nat) (f : Flit) : State :=
  s.modPort n fun p => { ackReplay p f with credits := p.credits.zipWith (· + ·) f.cred, lastGood := s.cycle }

/-- A packet has arrived over a link, one microsecond older (R446). -/
def arrivePacket (s : State) (bs : List Byte) : State :=
  match decodePacket bs with
  | .error _ => count s 7
  | .ok (typ, p) =>
    if 64 < p.age + 1 then count s 4 else { s with agenda := s.agenda ++ [.packet typ { p with age := p.age + 1 }] }

/-- A flit's body joins its channel's packet, which is delivered with its last flit (R438). -/
def takeBody (s : State) (n : Nat) (f : Flit) : State :=
  let p := s.port n
  let b := (if f.sop then [] else p.asm.getD f.vc []) ++ f.body
  let s := s.setPort n { p with asm := p.asm.set f.vc (if f.eop then [] else b), rxSeq := (p.rxSeq + 1) % 4096, nakAt := none,
                                ackOwed := true, freed := p.freed.set f.vc (p.freed.getD f.vc 0 + 1) }
  if f.eop then arrivePacket s b else s

/-- A side with an acknowledgement to report and no flit to send sends IDLE (R439, item 6). -/
def idleIfOwing (s : State) (n : Nat) : State := if (s.port n).ackOwed then sendControl s n [0] else s

/-- DATA_FLIT (R439, items 2 and 3). -/
def execDataFlit (n : Nat) (flit : List Byte) (s : State) : Out :=
  .next
    (let f := decodeFlit flit
     let s := s.modPort n fun p => p.passed false 1
     let p := s.port n
     if !portRuns p ∨ f.ctrl then s
     else if !f.crcGood ∨ f.lseq ≠ p.rxSeq then
       let s := if f.crcGood then s.modPort n fun p => { p with lastGood := s.cycle } else s
       if p.nakAt.isNone then sendNak s n else s
     else idleIfOwing (pumpAll (takeBody (takeLink s n f) n f) n) n)

/-- A control flit with a good CRC on a port that is not down (R439, item 5). -/
def control (s : State) (n : Nat) (flit : List Byte) (kind : Nat) (k : State → Flit → State) : State :=
  let f := decodeFlit flit
  if (s.port n).st = .down ∨ !f.crcGood ∨ !f.ctrl ∨ numAt f.body 0 1 ≠ kind then s
  else k (s.modPort n fun p => p.passed false 1) f

/-- IDLE (R439). -/
def execIdle (n : Nat) (flit : List Byte) (s : State) : Out :=
  .next (control s n flit 0 fun s f => pumpAll (takeLink s n f) n)

/-- INIT (R439, item 1): the next number is 0 and the credits are the other side's buffers. -/
def execInit (n : Nat) (flit : List Byte) (s : State) : Out :=
  .next
    (control s n flit 1 fun s f =>
      let p := s.port n
      if p.st = .init then
        pumpAll (s.setPort n { p with st := .up8, gotInit := true, txSeq := 0, lastGood := s.cycle,
                                      credits := (List.range 4).map fun v => numAt f.body (1 + v) 1 }) n
      else s.modPort n fun p => { p with lastGood := s.cycle })

/-- The unacknowledged flits from a number on are sent again (R439, item 4), each counted (R448). -/
def replayFrom (s : State) (n from_ : Nat) : State :=
  let p := s.port n
  let keep := p.replay.takeWhile fun r => r.1 != from_
  let again := p.replay.dropWhile fun r => r.1 != from_
  let q : Port := { p with replay := keep ++ again.map fun r => (r.1, r.2.1 + 1, r.2.2), lastSend := s.cycle }
  let s := { s.setPort n (q.passed true again.length) with dunOut := s.dunOut ++ again.map fun r => (n, r.2.2) }
  again.foldl (fun s _ => count s 6) s

/-- A flit of the port has been sent 8 times (R439, item 7). -/
def worn (p : Port) : Bool := p.replay.any fun r => decide (8 ≤ r.2.1)

/-- NAK (R439, items 3, 4 and 7). -/
def execNak (n : Nat) (flit : List Byte) (s : State) : Out :=
  .next
    (control s n flit 2 fun s f =>
      let s := takeLink s n f
      if worn (s.port n) then portDown s n else pumpAll (replayFrom s n (numAt f.body 1 2 % 4096)) n)

/-- A lane is retired (R437): seven lanes are left from the sixteenth flit after the LANE flit on (R439), or the port goes down with
its second lane. -/
def retireLane (s : State) (n lane : Nat) (mine : Bool) : State :=
  let p := s.port n
  if !portRuns p ∨ p.deadLane = some lane then s
  else if p.deadLane.isSome then portDown s n
  else strataEvent (s.setPort n { p with deadLane := some lane, narrow := some (mine, 15) }) ioDie 5 0xFF n 0 lane

/-- LANE (R439). -/
def execLane (n : Nat) (flit : List Byte) (s : State) : Out :=
  .next (control s n flit 3 fun s f => let s := takeLink s n f; pumpAll (retireLane s n (numAt f.body 1 1) false) n)

/-- DOWN: the sender takes the port down (R439). -/
def execDown (n : Nat) (flit : List Byte) (s : State) : Out := .next (control s n flit 4 fun s _ => portDown s n)

/-- LANE_FAILURE: a lane of this side fails; the other side is told, and flits in flight are replayed (R437). -/
def execLaneFailure (n lane : Nat) (s : State) : Out :=
  .next
    (if portRuns (s.port n) ∧ (s.port n).deadLane.isNone then
       let s := retireLane (sendControl s n (leBytes 1 3 ++ leBytes 1 lane)) n lane true
       match (s.port n).replay with
       | r :: _ => replayFrom s n r.1
       | [] => s
     else retireLane s n lane true)

/-- LINK_UP: the electrical layers of a port that is down report the link up, and INIT begins (R439, item 1; R458). -/
def execLinkUp (n : Nat) (bufs : List Nat) (s : State) : Out :=
  .next
    (if (s.port n).st = .down ∧ fabricOn s then sendInit (s.setPort n { st := .init, bufs := bufs, lastGood := s.cycle }) n else s)

/-- INIT_RETRY: INIT goes out every microsecond until the other side's has come (R439, item 1). -/
def execInitRetry (n : Nat) (s : State) : Out :=
  .next
    (let p := s.port n
     if p.st = .init ∧ p.lastSend + usCycles ≤ s.cycle then sendInit s n else s)

/-- NAK_RETRY: the NAK of a gap goes out again every 2 us (R439, item 3). -/
def execNakRetry (n : Nat) (s : State) : Out :=
  .next
    (match (s.port n).nakAt with
    | some c => if portRuns (s.port n) ∧ c + 2 * usCycles ≤ s.cycle then sendNak s n else s
    | none => s)

/-- Is a port to be declared failed (R439, item 7). -/
def portFailed (s : State) (n : Nat) : Bool :=
  let p := s.port n
  p.st != .down && (worn p || decide (p.lastGood + 100 * usCycles ≤ s.cycle))

/-- PORT_FAILURE (R439, item 7). -/
def execPortFailure (n : Nat) (s : State) : Out := .next (if portFailed s n then portDown s n else s)

end Sys2Proof.Machine
end

