-- ==== Sys2Proof/Machine/Launch.lean ====
section
/-! DEFINITION. Launches (19 R414 to R423): records, arrival, grants, release, completion, cancellation; the installation of
tile tasks (02 R49); and the meanings of the launch happenings. -/

namespace Sys2Proof.Machine

/-! ## Records -/

/-- A tile-task record from its 64 bytes (R415). -/
def parseTile (bs : List Byte) : TileRec :=
  { entry := numAt bs 0 8, args := (List.range 4).map fun i => BitVec.ofNat 64 (numAt bs (8 + 8 * i) 8), place := numAt bs 40 8,
    sink := numAt bs 48 4 }

def tileShape (bs : List Byte) : Bool :=
  let r := parseTile bs
  r.entry % 4 == 0 && bitsOf r.place 63 19 == 0 && numAt bs 52 4 == 0 && numAt bs 56 8 == 0

/-- The bytes of record i of size n from an offset. -/
def recordAt (bs : List Byte) (o n i : Nat) : List Byte := bytesAt bs (o + n * i) n

def headerMode (bs : List Byte) : PlaceMode := ⟨numAt bs 5 1 == 1, numAt bs 6 1, numAt bs 7 1, 0, 0⟩

/-- The header's reserved fields are zero and its limits hold (R414). -/
def headerOk (bs : List Byte) : Bool :=
  let m := numAt bs 5 1
  let w := numAt bs 6 1
  let h := numAt bs 7 1
  let nt := numAt bs 8 2
  let nc := numAt bs 10 2
  let fm := numAt bs 32 8
  let cap := numAt bs 40 4
  decide (bs.length = 64 + 64 * nc + 128 * nt) && decide (numAt bs 4 1 < 16)
    && (if m = 1 then decide (1 ≤ w ∧ w ≤ 48 ∧ 1 ≤ h ∧ h ≤ 16) else m == 0 && w == 0 && h == 0)
    && decide (nt ≤ 8192) && decide (nc ≤ 2048) && decide (nt + nc ≠ 0) && numAt bs 12 4 == 0 && numAt bs 17 3 == 0
    && decide (numAt bs 25 1 < 2) && numAt bs 26 6 == 0 && fm % 32 == 0
    && (if fm = 0 then cap == 0 else decide (1 ≤ cap ∧ cap ≤ 65535)) && numAt bs 44 4 == 0 && numAt bs 56 8 == 0

/-- The launch of a record that has arrived (R414). -/
def parseLaunch (bs : List Byte) (part stream : Nat) : Launch :=
  let nc := numAt bs 10 2
  { part := part, lid := numAt bs 0 4, queue := numAt bs 4 1, logical := numAt bs 5 1 == 1, w := numAt bs 6 1, h := numAt bs 7 1,
    waitc := numAt bs 16 1, need := numAt bs 20 4, sigc := numAt bs 24 1, sigen := numAt bs 25 1 == 1, fmbox := numAt bs 32 8,
    fmcap := numAt bs 40 4, notify := numAt bs 48 8, stream := stream,
    tiles := (List.range nc).map fun i => parseTile (recordAt bs 64 64 i),
    tasks := (List.range (numAt bs 8 2)).map fun i => parseTask (recordAt bs (64 + 64 * nc) 128 i) }

/-- A LOGICAL tile-task TARGET lies in the rectangle; in HINT mode it is judged at the grant (R416, R418). -/
def tilePlaceOk (m : PlaceMode) (r : TileRec) : Bool :=
  let t := placeTarget r.place
  !m.logical || (decide (t % 256 < m.w) && decide (t / 256 < m.h))

/-- A launch arrives (R416): queued, or refused with INVALID. -/
def takeLaunch (s : State) (part stream : Nat) (bs : List Byte) : State × Code :=
  let l := parseLaunch bs part stream
  let key := launchKey part l.lid
  let m := headerMode bs
  let nc := numAt bs 10 2
  let q := (s.part part).queues.getD l.queue []
  if !headerOk bs ∨ (s.launches.find key).isSome
      ∨ !(List.range nc).all (fun i => tileShape (recordAt bs 64 64 i))
      ∨ !l.tiles.all (tilePlaceOk m)
      ∨ !(List.range (numAt bs 8 2)).all (fun i => taskShape (recordAt bs (64 + 64 * nc) 128 i))
      ∨ !l.tasks.all (placeOk s part m) ∨ 64 ≤ q.length then (s, .invalid)
  else
    ({ s.modPart part fun x => { x with queues := Tbl.put x.queues l.queue (q ++ [l.lid]) } with
        launches := s.launches.put key l }, .ok)

/-! ## Ends -/

/-- The launch ends and its notice goes to the host (R416, R429). -/
def endLaunch (s : State) (key outcome : Nat) : State :=
  match s.launches.find key with
  | none => s
  | some l =>
    let s := { s with launches := s.launches.del key }
    hostSend s l.part l.stream 6 0 0
      (leBytes 4 l.lid ++ leBytes 4 outcome ++ leBytes 4 l.nfault ++ leBytes 4 l.nkill ++ leBytes 4 l.nlost ++ leBytes 4 0
        ++ leBytes 8 l.notify)

/-- Everything of a launch has ended: tasks, tile tasks, engine operations, reports that wait (R416). -/
def launchDone (s : State) (key : Nat) (l : Launch) : Bool :=
  l.st == .running && l.live == 0 && s.ops.all (fun (_, o) => o.launch != key)
    && s.clusters.all fun (_, c) => c.reports.all fun r => r.launch != key

/-- Raise a dependence counter by 1 (R420). -/
def raiseCounter (s : State) (part c : Nat) : State :=
  s.modPart part fun x => { x with ctrs := Tbl.put x.ctrs c (Tbl.getD x.ctrs c 0 + 1) }

def completeLaunch (s : State) (key : Nat) (l : Launch) : State :=
  if l.cancelling then endLaunch s key 2
  else if l.nfault + l.nkill = 0 then
    endLaunch (if l.sigen then raiseCounter s l.part l.sigc else s) key 0
  else endLaunch s key 1

/-! ## Cancellation (R422) -/

/-- A task of a cancelled launch ends as under a KILL; a SUSPENDED strand holds it until it resumes (R380, R387). -/
def killTask (s : State) (tid : Nat) (t : Task) : State :=
  match t.st with
  | .queued c => retireTask (s.modCluster c fun x => { x with queue := x.queue.filter (· != tid) }) tid .killed
  | .walking _ => retireTask s tid .killed
  | .parked c => retireTask (s.modCore c fun x => { x with parked := x.parked.filter (· != tid) }) tid .killed
  | .staging id => if (s.strand id).halted then s.modStrand id fun t => { t with killDue := true } else endTask s id .killed 0x41
  | .running id => killStrand s id

/-- A tile task of a cancelled launch ends as at DONE, with KILLED. -/
def killTile (s : State) (id : Nat) : State := if (s.ctx id).run = .draining then s else endCtx s id .killed

def killWork (s : State) (key : Nat) : State :=
  let s := (s.tasks.filter fun (_, t) => t.launch == key).foldl (fun s (tid, t) => killTask s tid t) s
  (s.ctxs.filter fun (_, c) => c.run != .free && c.launch == key).foldl (fun s (id, _) => killTile s id) s

/-- CANCEL of an LID (R422). -/
def cancelLaunch (s : State) (part lid : Nat) : State × Code :=
  let key := launchKey part lid
  match s.launches.find key with
  | none => (s, .invalid)
  | some l =>
    let s := modLaunch s key fun l => { l with cancelling := true }
    match l.st with
    | .queued =>
      let s := s.modPart part fun x =>
        { x with queues := Tbl.put x.queues l.queue ((Tbl.getD x.queues l.queue []).filter (· != lid)) }
      (endLaunch s key 2, .ok)
    | .releasing => (s, .ok)
    | .running => (killWork s key, .ok)

/-! ## Grants (R417) -/

def queuePrio (x : Partition) (q : Nat) : Nat := bitsOf x.lqprio (3 * q + 2) (3 * q)
def prioWeight (x : Partition) (p : Nat) : Nat := max 1 (bitsOf x.lqweight (4 * p + 3) (4 * p))

/-- The head of a queue when it is ready. -/
def readyHead (s : State) (part q : Nat) : Option Nat :=
  match (s.part part).queues.getD q [] with
  | [] => none
  | lid :: _ =>
    (s.launches.find (launchKey part lid)).bind fun l =>
      if l.need = 0 ∨ l.need ≤ ((s.part part).ctrs.getD l.waitc 0).toNat then some lid else none

/-- The first queue of a priority with a ready head, after the last one granted at that priority. -/
def nextQueue (s : State) (part p : Nat) : Option Nat :=
  let x := s.part part
  let last := x.roundLast.getD p 15
  ((List.range 16).map fun i => (last + 1 + i) % 16).find? fun q => queuePrio x q == p && (readyHead s part q).isSome

/-- Where the round goes on from priority p with n grants made at it: the queue to grant, or none at the round's end. -/
def roundNext (s : State) (part : Nat) : Nat → Nat → Option (Nat × Nat × Nat)
  | 0, n => if n < prioWeight (s.part part) 0 then (nextQueue s part 0).map fun q => (0, n, q) else none
  | p + 1, n =>
    match (if n < prioWeight (s.part part) (p + 1) then nextQueue s part (p + 1) else none) with
    | some q => some (p + 1, n, q)
    | none => roundNext s part p 0

/-- Grant the head of a queue. -/
def grantHead (s : State) (part p n q : Nat) : State :=
  match readyHead s part q with
  | none => s
  | some lid =>
    let s := modLaunch s (launchKey part lid) fun l => { l with st := .releasing }
    s.modPart part fun x =>
      { x with queues := Tbl.put x.queues q ((Tbl.getD x.queues q []).drop 1), roundPrio := p, roundCount := n + 1,
               roundLast := Tbl.put x.roundLast p q, granting := some (launchKey part lid) }

/-- LAUNCH_GRANT: the front end grants one ready head, in the order of the round (R417). -/
def execLaunchGrant (part : Nat) (s : State) : Out :=
  .next
    (let x := s.part part
     if x.st ≠ .running ∨ s.stopping part ∨ x.granting.isSome then s
     else
       match (roundNext s part x.roundPrio x.roundCount).orElse fun _ => roundNext s part 7 0 with
       | some (p, n, q) => grantHead s part p n q
       | none => s.setPart part { x with roundPrio := 7, roundCount := 0 })

/-! ## Release (R37, R418) -/

/-- The clusters that a logical rectangle touches. -/
def rectClusters (x0 y0 w h : Nat) : List Nat :=
  ((List.range w).flatMap fun i => (List.range h).map fun j => clusterAt (x0 + i) (y0 + j)).eraseDups

/-- A translation of R37: inside the partition, and no route crosses the bypass of a substituted cluster (R12). -/
def translationOk (s : State) (part w h x0 y0 : Nat) : Bool :=
  let cs := rectClusters x0 y0 w h
  decide (x0 + w ≤ 48) && decide (y0 + h ≤ 16) && cs.all (s.partHas part)
    && (decide (cs.length ≤ 1) || cs.all fun c => !s.substituted.contains c)

/-- The loader's choice: y0 rising, and within it x0 rising in steps of 6 (R37). -/
def findTranslation (s : State) (part w h : Nat) : Option (Nat × Nat) :=
  ((List.range 16).flatMap fun y => (List.range 8).map fun i => (6 * i, y)).find? fun (x, y) => translationOk s part w h x y

/-- The context that a tile-task record names, if a chisel of the partition stands there (R418). -/
def tileCtx (s : State) (part : Nat) (m : PlaceMode) (r : TileRec) : Option Nat :=
  let t := placeTarget r.place
  let x := t % 256 + (if m.logical then m.x0 else 0)
  let y := t / 256 + (if m.logical then m.y0 else 0)
  (chiselAt x y).bind fun c => if s.partHas part (chiselCluster c) then some (8 * c + bitsOf r.place 18 16) else none

/-- Install a tile task (R49). -/
def installTile (s : State) (key : Nat) (part : Nat) (ctx : Nat) (r : TileRec) : State :=
  let (id, s) := newId s part
  let c := s.ctx ctx
  let s := s.setCtx ctx
    { s := Vector.ofFn fun i => r.args.getD i.val 0, pc := BitVec.ofNat 64 r.entry, run := .ready, bundles := c.bundles, task := id,
      sink := r.sink, launch := key, part := part }
  modLaunch s key fun l => { l with live := l.live + 1 }

/-- The checks before anything is installed: the launch's mode with its translation, or the outcome that ends it. -/
def releaseChecks (s : State) (l : Launch) : Except Nat PlaceMode :=
  let m? : Option PlaceMode :=
    if l.logical then (findTranslation s l.part l.w l.h).map fun (x, y) => ⟨true, l.w, l.h, x, y⟩ else some ⟨false, 0, 0, 0, 0⟩
  match m? with
  | none => .error 3
  | some m =>
    let ctxs := l.tiles.map (tileCtx s l.part m)
    if l.tasks.any (fun r => (targetCore m r).isNone) ∨ ctxs.any Option.isNone ∨ !ctxs.Nodup
        ∨ (ctxs.filterMap fun c => c).any (fun c => (s.ctx c).run != .free) then .error 4
    else .ok m

/-- A task is passed to its cluster's queue, unless that is full. -/
def passTask (s : State) (key : Nat) (l : Launch) (m : PlaceMode) (r : TaskRec) (rest : List TaskRec) : State :=
  let core := (targetCore m r).getD 0
  let cl := core / 16
  if 1024 ≤ (s.cluster cl).queue.length then s
  else
    (fun s => modLaunch s key fun l => { l with tasks := rest })
      (acceptTask s l.part key 0 m.logical r cl (if m.logical then core else 16 * cl)).2

/-- The next record of a release (R418, R419): tile tasks are installed first, then tasks are passed on. -/
def releaseNext (s : State) (part key : Nat) (l : Launch) (m : PlaceMode) : State :=
  match l.tiles, l.tasks with
  | r :: rest, _ =>
    let s := modLaunch s key fun l => { l with tiles := rest }
    (match tileCtx s part m r with
    | some c => installTile s key part c r
    | none => s)
  | [], r :: rest => passTask s key l m r rest
  | [], [] => s

/-- The launch leaves RELEASING. -/
def leaveRelease (s : State) (part key : Nat) : State :=
  let s := s.modPart part fun x => { x with granting := none }
  match s.launches.find key with
  | some l =>
    let s := modLaunch s key fun l => { l with st := .running }
    if l.cancelling then killWork s key else s
  | none => s

/-- LAUNCH_RELEASE: the granted launch is checked, then a record is released at a time, so that a halt stops it at the next one
(R418, R419). -/
def execLaunchRelease (part : Nat) (s : State) : Out :=
  .next
    (match (s.part part).granting with
    | none => s
    | some key =>
      match s.launches.find key with
      | none => s.modPart part fun x => { x with granting := none }
      | some l =>
        if s.stopping part then s
        else
          let checked : Except Nat PlaceMode := if l.checked then .ok ⟨l.logical, l.w, l.h, l.x0, l.y0⟩ else releaseChecks s l
          match checked with
          | .error o => endLaunch (s.modPart part fun x => { x with granting := none }) key o
          | .ok m =>
            let s := releaseNext (modLaunch s key fun l => { l with checked := true, x0 := m.x0, y0 := m.y0 }) part key l m
            if ((s.launches.find key).map fun l => l.tiles.isEmpty && l.tasks.isEmpty).getD true then leaveRelease s part key else s)

/-- LAUNCH_COMPLETE (R416). -/
def execLaunchComplete (part lid : Nat) (s : State) : Out :=
  .next
    (match s.launches.find (launchKey part lid) with
    | some l => if launchDone s (launchKey part lid) l then completeLaunch s (launchKey part lid) l else s
    | none => s)

end Sys2Proof.Machine
end

