-- ==== Sys2Proof/Machine/HostApply.lean ====
section
/-! DEFINITION. What each message of the host does once its stream applies it (20 R428 to R436, R466; 19 R416, R422). -/

namespace Sys2Proof.Machine

/-- What applying a message gives: an answer of a TYPE, no answer, or a wait that blocks its stream. -/
inductive Applied where
  | answer (s : State) (typ : Nat) (payload : List Byte)
  | silent (s : State)
  | wait (s : State)

/-- A STATUS answer (R428). -/
def answerWord (s : State) (w : Word) : Applied := .answer s 7 (wordBytes 8 w)
def answerCode (s : State) (c : Code) : Applied := answerWord s (status c)

/-- The messages that an OFF partition, or register space 1, answers with INVALID (R466). -/
def inPartition (s : State) (m : HostMsg) (k : Applied) : Applied :=
  if 8 ≤ m.part ∨ (s.part m.part).st = .off then answerCode s .invalid else k

/-! ## WRITE and READ (R431, R454) -/

/-- A host access to a granule: its place, or the cause of the fault. -/
def hostPlace (s : State) (part va need : Nat) (wr : Bool) : Except Cause Loc :=
  match treeAddr s part va (need + permU) with
  | .error c => .error c
  | .ok l =>
    if wr && ((vbufAt s part va).map fun e => (s.vbuf e).isSealed).getD false then .error .sealedBuf
    else if isPoisoned s l then .error .machine
    else .ok l

/-- Write granules until one fails: the state, and the fault with its byte offset. -/
def writeGranules (part va : Nat) : Nat → List Byte → State → State × Option (Cause × Nat)
  | 0, _, s => (s, none)
  | n + 1, bs, s =>
    match hostPlace s part va permW true with
    | .error c => (noteWalk s part ioDie 0xFF va c, some (c, 0))
    | .ok l =>
      match writeGranules part (va + 32) n (bs.drop 32) (plainWrite s l (bs.take 32)) with
      | (s, some (c, o)) => (s, some (c, o + 32))
      | r => r

def applyWrite (s : State) (m : HostMsg) : Applied :=
  inPartition s m
    (if m.addr % 32 ≠ 0 ∨ m.payload.length % 32 ≠ 0 then answerCode s .invalid
     else
       match writeGranules m.part (m.addr % 2 ^ 52) (m.payload.length / 32) m.payload s with
       | (s, none) => answerCode s .ok
       | (s, some (c, o)) => answerWord s (statusWord .fault c.num o))

/-- Read granules until one fails. -/
def readHost (s : State) (part va : Nat) : Nat → Nat → List Byte → State × Except (Cause × Nat) (List Byte)
  | 0, _, acc => (s, .ok acc)
  | n + 1, o, acc =>
    match hostPlace s part (va + o) permR false with
    | .error c => (noteWalk s part ioDie 0xFF (va + o) c, .error (c, o))
    | .ok l =>
      let s := recallLoc (commitEarly s l 32) l
      readHost s part va n (o + 32) (acc ++ rawRead s l 32)

def applyRead (s : State) (m : HostMsg) : Applied :=
  let n := numAt m.payload 0 4
  inPartition s m
    (if m.addr % 32 ≠ 0 ∨ m.payload.length ≠ 4 ∨ n % 32 ≠ 0 ∨ n < 32 ∨ 8192 < n then answerCode s .invalid
     else
       match readHost s m.part (m.addr % 2 ^ 52) (n / 32) 0 [] with
       | (s, .ok bs) => .answer s 5 bs
       | (s, .error (c, o)) => answerWord s (statusWord .fault c.num o))

/-! ## Launches -/

def applyLaunch (s : State) (m : HostMsg) : Applied :=
  inPartition s m (let (s, c) := takeLaunch s m.part m.stream m.payload; answerCode s c)

def applyCancel (s : State) (m : HostMsg) : Applied :=
  inPartition s m
    (if 2 ^ 32 ≤ m.addr then answerCode s .invalid
     else let (s, c) := cancelLaunch s m.part m.addr; answerCode s c)

/-! ## Registers (R432) -/

/-- A CFGW whose ENABLE takes effect (R430). -/
def enables (s : State) (m : HostMsg) : Bool :=
  decide (m.part < 8) && m.payload.length == 8 && m.addr == 0x200000000 + 0x1000 * m.part && numAt m.payload 0 8 % 8 == 1
    && (s.part m.part).st == .off && (cmdEnable s m.part |>.part m.part).st == .stopped

def applyCfgw (s : State) (m : HostMsg) : Applied :=
  let v := numAt m.payload 0 8
  if m.payload.length ≠ 8 then answerCode s .invalid
  else if m.part < 8 then
    if m.addr < 0x100000000 then answerCode s .invalid
    else
    match sysWrite s m.part m.addr v true with
    | .error _ => answerCode s .invalid
    | .ok s => answerCode s .ok
  else
    match sp1Write s m.addr v false with
    | .invalid => answerCode s .invalid
    | .done s => answerCode s .ok
    | .wait s => .wait s

def applyCfgr (s : State) (m : HostMsg) : Applied :=
  if m.part < 8 then
    if m.addr < 0x100000000 then answerCode s .invalid
    else
    match sysRead s m.part m.addr with
    | .error _ => answerCode s .invalid
    | .ok v => .answer s 5 (leBytes 8 v)
  else
    match sp1Read s m.addr with
    | none => answerCode s .invalid
    | some v => .answer s 5 (leBytes 8 v)

/-! ## Registrations (R433) -/

def applyReg (s : State) (m : HostMsg) : Applied :=
  let len := numAt m.payload 0 8
  let dir := numAt m.payload 15 1
  let mine := s.regs.filter fun r => r.part == m.part
  inPartition s m
    (if m.payload.length ≠ 16 ∨ m.addr % 65536 ≠ 0 ∨ len % 65536 ≠ 0 ∨ len = 0 ∨ 2 ^ 40 < len ∨ 2 ^ 48 < m.addr + len
         ∨ 4 ≤ dir then
       answerCode s .invalid
     else if 1024 ≤ mine.length ∨ mine.any (fun r => overlap m.addr len r.off r.len) then answerCode s .refused
     else
       answerCode { s with regs := s.regs ++ [⟨m.part, m.addr, len, bytesAt m.payload 8 7, dir.testBit 0, dir.testBit 1⟩] } .ok)

/-- An engine element translated through a registration has not been answered. -/
def regBusy (s : State) (r : Registration) : Bool := s.hostReqs.any fun q =>
  let off := q.va % 2 ^ 48
  q.part == r.part && window q.va == 13 && decide (r.off ≤ off) && decide (off < r.off + r.len)

/-- UNREG: no new element goes through the registration; it is gone once those under way are answered (R433). -/
def applyUnreg (s : State) (m : HostMsg) : Applied :=
  inPartition s m
    (match s.regs.find? fun r => r.part == m.part && r.off == m.addr with
    | none => answerCode s .invalid
    | some r =>
      if regBusy s r then .wait { s with regs := s.regs.map fun q => if q = r then { q with read := false, write := false } else q }
      else answerCode { s with regs := s.regs.erase r } .ok)

/-! ## Answers to HMEM (R434, R435) -/

/-- A store at the host has read its granule: it is written back with the stored bytes in their place (R84, R404; log 76). -/
def mergeStore (s : State) (id k u : Nat) (bs granule : List Byte) : State :=
  let g := u / 32 * 32
  let s := s.modStrand id fun t =>
    { t with pend := t.pend.map fun q => if q.id = k then { q with act := .hostStore u bs true } else q }
  sendRemoteWrite s (s.strandPart id) (.strand id k) g (mergeGranule granule u bs) 0

/-- The host has answered a strand's access to a page that runs remote (R404): bytes it asked for, or the acknowledgement of a
store. -/
def hostAnswer (s : State) (id k : Nat) (bs : List Byte) : State :=
  match (s.strand id).pend.find? fun q => q.id == k with
  | none => s
  | some q =>
    match q.act with
    | .load t d _ => completeAway s id k (loadRegs t d (bytesAt bs (q.va % 32) (LdType.size t)))
    | .loadV d _ => completeAway s id k (loadVRegs d (bytesAt bs (q.va % 32) 32))
    | .piece n => gotPiece s id k q.va (bytesAt bs (q.va % 32) n)
    | .hostStore _ _ true => completeAway s id k {}
    | .hostStore u b false => mergeStore s id k u b bs
    | _ => s

/-- An HMEM has its answer: the bytes of a read, the acknowledgement of a write, or a failure. -/
def answerHmem (s : State) (q : HostReq) (good : Option (List Byte)) : State :=
  match q.who, good with
  | .strand id k, some bs => hostAnswer s id k bs
  | .strand id k, none => failAway s id k .perm 0 (pendVa s id k)
  | .engine k e, some bs => if q.write then elemAck s k e else elemBytes s k e bs false
  | .engine k e, none => elemLost s k e q.write .perm
  | .put id, some _ => dropPut s id (2 ^ 32 + q.tag)
  | .put id, none => losePut s id (2 ^ 32 + q.tag)
  | _, _ => s

/-- Take the HMEM that an answer's TAG names. -/
def withHmem (s : State) (m : HostMsg) (k : State → HostReq → State) : Applied :=
  match s.hostReqs.find? fun q => q.tag == m.tag && q.part == m.part with
  | none => .silent s
  | some q => .silent (k { s with hostReqs := s.hostReqs.erase q } q)

/-- RDATA (R434): exactly the bytes asked for, else a failure. -/
def applyRdata (s : State) (m : HostMsg) : Applied :=
  withHmem s m fun s q =>
    answerHmem s q (if q.write ∨ m.payload.length ≠ q.len then none else some m.payload)

/-- STATUS (R434): OK answers a write. -/
def applyStatus (s : State) (m : HostMsg) : Applied :=
  withHmem s m fun s q =>
    answerHmem s q (if q.write ∧ m.payload.length = 8 ∧ numAt m.payload 0 1 = Code.ok.num then some [] else none)

/-! ## MIGR (R436) -/

/-- A MIGR message names a KIND 2 page, with its reserved bytes zero. A malformed entry on the page's walk is recorded (R390). -/
def withPage (s : State) (m : HostMsg) (k : Nat → Page → Applied) : Applied :=
  let va := m.addr % 2 ^ 52
  inPartition s m
    (if (sharedLeaf s m.part va).isNone ∨ 8 ≤ window va ∨ numAt m.payload 4 4 ≠ 0 then
       answerCode (noteWalk s m.part ioDie 0xFF va .page) .invalid
     else k va (s.page m.part va))

/-- OP 1: a host request (R402). A host that loses is told REFUSED; while the page already moves towards the host, the request
waits for the end of the move. -/
def applyMigrRequest (s : State) (m : HostMsg) : Applied :=
  if m.payload.length ≠ 8 ∨ numAt m.payload 2 2 ≠ 0 then answerCode s .invalid
  else
    withPage s m fun va p =>
      let loses : Bool := p.moving == some true || (p.moving.isNone && p.device && heldOff s p false)
      if p.moving = some false then .wait s
      else if loses then answerCode s .refused
      else answerCode (requestPage (s.setPage m.part va { p with stream := m.stream }) m.part va true) .ok

/-- OP 4: page data towards the device (R403). -/
def applyMigrData (s : State) (m : HostMsg) : Applied :=
  let n := numAt m.payload 2 2
  if m.payload.length ≠ 4120 ∨ 15 < n then answerCode s .invalid
  else
    withPage s m fun va p =>
      if p.moving ≠ some true ∨ numAt m.payload 8 16 ≠ 0 then answerCode s .invalid
      else answerCode (takePart s m.part va n 0 (m.payload.drop 24)) .ok

/-- OP 5: the host has sent every part (R436). -/
def applyMigrComplete (s : State) (m : HostMsg) : Applied :=
  if m.payload.length ≠ 8 ∨ numAt m.payload 2 2 ≠ 0 then answerCode s .invalid
  else
    withPage s m fun va p =>
      if p.moving ≠ some true then answerCode s .invalid
      else answerCode (s.setPage m.part va { p with parts := NSet.ins p.parts 99 }) .ok

def applyMigr (s : State) (m : HostMsg) : Applied :=
  match numAt m.payload 0 2 with
  | 1 => applyMigrRequest s m
  | 4 => applyMigrData s m
  | 5 => applyMigrComplete s m
  | _ => inPartition s m (answerCode s .invalid)

end Sys2Proof.Machine
end

