-- ==== Sys2Proof/Machine/HostPort.lean ====
section
/-! DEFINITION. The streams of the host port (20 R427, R430): order, duplicates, acknowledgement, retransmission, RESET and the
restart of ENABLE; and the meanings of the messages of the host. -/

namespace Sys2Proof.Machine

/-- The stream of a message. -/
def msgKey (m : HostMsg) : Nat := streamKey m.part m.stream

/-- What a message of a TYPE does when its turn comes (R428). MIGR has its three operations; an unlisted TYPE, or one that
only the device sends, is INVALID. -/
def applyHost (s : State) (typ : Nat) (m : HostMsg) : Applied :=
  match typ with
  | 1 => applyLaunch s m
  | 2 => applyCancel s m
  | 3 => applyWrite s m
  | 4 => applyRead s m
  | 5 => applyRdata s m
  | 7 => applyStatus s m
  | 8 => applyCfgw s m
  | 9 => applyCfgr s m
  | 10 => applyReg s m
  | 11 => applyUnreg s m
  | 13 => applyMigr s m
  | _ => answerCode s .invalid

/-- Send a kept message again with the acknowledgement of now. -/
def resend (s : State) (k : Nat) (x : Sent) : State :=
  let q := s.stream k
  { s.setStream k { q with owing := none } with hostOut := s.hostOut ++ [{ x with msg := { x.msg with ackn := q.next - 1 } }] }

/-- An acknowledgement outstanding since now. -/
def oweAck (s : State) (k : Nat) : State := s.modStream k fun q => { q with owing := some s.cycle }

/-- Every other stream of a partition loses what it holds, and this one its held messages, from an ENABLE on (R430). -/
def clearStreams (s : State) (part keep : Nat) : State :=
  { s with streams := s.streams.map fun (k, q) =>
      (k, if k / 64 ≠ part then q else if k % 64 = keep then { q with held := [] } else { q with held := [], unacked := [] }) }

/-- Every stream of a partition starts both sequences at 1. -/
def restartStreams (s : State) (part : Nat) : State := { s with streams := s.streams.filter fun (k, _) => k / 64 != part }

/-- Answer a message on its stream, and keep the answer for duplicates (R430). -/
def answerOn (s : State) (m : HostMsg) (typ : Nat) (payload : List Byte) : State :=
  let k := msgKey m
  let n := (s.stream k).send
  let s := hostSend s m.part m.stream typ m.tag 0 payload
  s.modStream k fun q =>
    let x : Sent := ⟨typ, ⟨0x4F5A, 1, m.part, m.stream, n, q.next - 1, m.tag, 0, payload⟩, s.cycle⟩
    { q with answers := q.answers.put m.seq x }

/-- Apply the message that is next on its stream: true when it was applied, false when it waits. -/
def applyNext (s : State) (typ : Nat) (m : HostMsg) : State × Bool :=
  let k := msgKey m
  let en := typ == 8 && enables s m
  let pass (s : State) : State := oweAck (s.modStream k fun q =>
    { q with next := q.next + 1, held := q.held.filter fun x => x.msg.seq != m.seq }) k
  match applyHost s typ m with
  | .wait s' =>
    (s'.modStream k fun q =>
      { q with held := if q.held.any fun x => x.msg.seq == m.seq then q.held else q.held ++ [⟨typ, m, s.cycle⟩] }, false)
  | .silent s => (pass s, true)
  | .answer s t bs =>
    let s := pass s
    let n := (s.stream k).send
    let s := answerOn s m t bs
    (if en then (clearStreams s m.part m.stream).modPart m.part fun x => { x with enabling := some (m.stream, m.seq, n) } else s, true)

/-- Apply the held messages of a stream that are next in order. -/
def drainStream (k : Nat) : Nat → State → State
  | 0, s => s
  | f + 1, s =>
    match (s.stream k).held.find? fun x => x.msg.seq == (s.stream k).next with
    | none => s
    | some x =>
      match applyNext s x.typ x.msg with
      | (s, true) => drainStream k f s
      | (s, false) => s

/-- An acknowledgement of the host: device-to-host messages up to it need not be sent again (R430), and a page's move may go on
(R436). -/
def takeAck (s : State) (m : HostMsg) : State :=
  let k := msgKey m
  let got := (s.stream k).unacked.filter fun x => decide (x.msg.seq ≤ m.ackn)
  got.foldl noteAck (s.modStream k fun q => { q with unacked := q.unacked.filter fun x => decide (m.ackn < x.msg.seq) })

/-- A message reaches its stream (R430). -/
def streamTake (s : State) (typ : Nat) (m : HostMsg) : State :=
  let k := msgKey m
  let q := s.stream k
  if m.seq < q.next then
    match q.answers.find m.seq with
    | some x => resend s k x
    | none => oweAck s k
  else if m.seq = q.next then
    match applyNext s typ m with
    | (s, true) => drainStream k 65 s
    | (s, false) => s
  else if m.seq ≤ q.next + 64 ∧ (q.held.filter fun x => x.msg.seq != q.next).length < 64 ∧ q.held.all (fun x => x.msg.seq != m.seq) then
    oweAck (s.setStream k { q with held := q.held ++ [⟨typ, m, s.cycle⟩] }) k
  else s

/-- A message of a partition whose ENABLE the host has not acknowledged: the acknowledgement restarts the streams, and the
message that carries it is the first of the new sequence (log 37); a duplicate of the ENABLE is answered again, all else is
dropped (R430). -/
def duringEnable (s : State) (typ : Nat) (m : HostMsg) (e : Nat × Nat × Nat) (k : State → State) : State :=
  let (st, seq, ans) := e
  if m.stream = st ∧ ans ≤ m.ackn then k (restartStreams (s.modPart m.part fun x => { x with enabling := none }) m.part)
  else if m.stream = st ∧ typ = 8 ∧ m.seq = seq then
    match (s.stream (msgKey m)).answers.find seq with
    | some x => resend s (msgKey m) x
    | none => s
  else s

/-- The enabling record of a message's partition. -/
def enablingOf (s : State) (m : HostMsg) : Option (Nat × Nat × Nat) := if m.part < 8 then (s.part m.part).enabling else none

/-- A message that the device does not drop (R426, R427, R430). -/
def receive (s : State) (m : HostMsg) (typ : Nat) (k : State → State) : Out :=
  .next
    (if !s.mgmt.up ∨ !m.wf then s
     else
       match enablingOf s m with
       | some e => duringEnable s typ m e k
       | none => k (takeAck s m))

/-! ## The messages -/

/-- ACK (R430): it is never answered and takes no number. -/
def execAck (m : HostMsg) (s : State) : Out := receive s m 0 fun s => s

def execLaunch (m : HostMsg) (s : State) : Out := receive s m 1 fun s => streamTake s 1 m
def execCancel (m : HostMsg) (s : State) : Out := receive s m 2 fun s => streamTake s 2 m
def execWrite (m : HostMsg) (s : State) : Out := receive s m 3 fun s => streamTake s 3 m
def execRead (m : HostMsg) (s : State) : Out := receive s m 4 fun s => streamTake s 4 m
def execRdata (m : HostMsg) (s : State) : Out := receive s m 5 fun s => streamTake s 5 m
def execStatus (m : HostMsg) (s : State) : Out := receive s m 7 fun s => streamTake s 7 m
def execCfgw (m : HostMsg) (s : State) : Out := receive s m 8 fun s => streamTake s 8 m
def execCfgr (m : HostMsg) (s : State) : Out := receive s m 9 fun s => streamTake s 9 m
def execReg (m : HostMsg) (s : State) : Out := receive s m 10 fun s => streamTake s 10 m
def execUnreg (m : HostMsg) (s : State) : Out := receive s m 11 fun s => streamTake s 11 m

/-- MIGR with OP 1, 4, 5 (R436). -/
def execMigrRequest (m : HostMsg) (s : State) : Out := receive s m 13 fun s => streamTake s 13 m
def execMigrData (m : HostMsg) (s : State) : Out := receive s m 13 fun s => streamTake s 13 m
def execMigrComplete (m : HostMsg) (s : State) : Out := receive s m 13 fun s => streamTake s 13 m

/-- RESET (R430): applied on arrival; its answer is the first message of the new sequence. -/
def execReset (m : HostMsg) (s : State) : Out :=
  receive s m 14 fun s =>
    hostSend (s.setStream (msgKey m) {}) m.part m.stream 7 m.tag 0 (wordBytes 8 (status .ok))

/-- A message with a TYPE that has no row, or that only the device sends (R428). -/
def otherMessage (typ : Nat) (m : HostMsg) (s : State) : Out := receive s m typ fun s => streamTake s typ m

/-! ## Timers -/

/-- HMEM_TIMEOUT: no answer has come for 1 ms (R434). -/
def execHmemTimeout (tag : Nat) (s : State) : Out :=
  .next
    (match s.hostReqs.find? fun q => q.tag == tag with
    | some q =>
      if q.time + 1000 * usCycles ≤ s.cycle then
        loseAsker { s with hostReqs := s.hostReqs.erase q } q.who (2 ^ 32 + q.tag) q.write
      else s
    | none => s)

/-- Unacknowledged messages that have not been sent for 100 us (R430). -/
def staleSent (s : State) (q : Stream) : List Sent := q.unacked.filter fun x => decide (x.time + 100 * usCycles ≤ s.cycle)

/-- HOST_RETRANSMIT: device-to-host messages go out again every 100 us until they are acknowledged (R430). -/
def execHostRetransmit (part stream : Nat) (s : State) : Out :=
  .next
    (let k := streamKey part stream
     let due := staleSent s (s.stream k)
     if !s.mgmt.up ∨ due.isEmpty then s
     else
       due.foldl (fun s x => resend s k x)
         (s.modStream k fun q => { q with unacked := q.unacked.map fun x => if due.contains x then { x with time := s.cycle } else x }))

/-- ACK_TIMER: a stream has been idle for 20 us with an acknowledgement outstanding (R430). -/
def execAckTimer (part stream : Nat) (s : State) : Out :=
  .next
    (let k := streamKey part stream
     let q := s.stream k
     match q.owing with
     | some c =>
       if s.mgmt.up ∧ c + 20 * usCycles ≤ s.cycle then
         resend s k ⟨0, ⟨0x4F5A, 1, if part < 8 then part else 0xFF, stream, 0, 0, 0, 0, []⟩, s.cycle⟩
       else s
     | none => s)

end Sys2Proof.Machine
end

