-- ==== Sys2Proof/Machine/Save.lean ====
section
/-! DEFINITION. The save of a halted partition (17 R381, R382): the records as bytes in near memory. Bytes whose layout the
spec leaves to the firmware are free (log 9). -/

namespace Sys2Proof.Machine

/-- n bytes that hold a content in a layout that the spec does not give. -/
def recordBytes {α : Type} (content : α) (n : Nat) : List Byte := (List.range n).map (Config.recordByte content)

/-- The state of a strand at its halt (R31), as its record names it: FREE, BOUND, READY, WAIT or STALL. -/
def Run.name : Run → Nat
  | .free => 0
  | .bound => 1
  | .ready => 2
  | .wait _ _ => 3
  | .stall _ => 4

/-- The deadline of a strand's wait (R43). -/
def Run.deadline : Run → Option Nat
  | .wait _ d => d
  | _ => none

/-- A list of bytes cut or filled with zeros to n bytes. -/
def fit (n : Nat) (bs : List Byte) : List Byte := bytesAt bs 0 n

/-- A report in the form of R48. -/
def engReportBytes (task : Nat) (r : EngReport) : List Byte :=
  leBytes 8 (Code.fault.num + 256 * r.inner) ++ leBytes 8 (task + 2 ^ 32) ++ leBytes 8 r.addr ++ leBytes 8 r.elem

/-- The 4 KiB strand record (R382). -/
def strandRecord (s : State) (id : Nat) : List Byte :=
  let t := s.strand id
  let ctl : List Word := [t.pc, estatusWord t, t.epc, t.ecause, t.eaddr, t.einfo, t.tvec, t.sscratch0, t.sscratch1, t.status,
    BitVec.ofNat 64 t.fstat, BitVec.ofNat 64 t.frmode, t.taskSink, t.scopeRect, rptstateWord t, BitVec.ofNat 64 t.stimer]
  let rest := (t.arrival, t.run.deadline, (t.candCap, t.candSigned, t.candLargest), t.run, t.withdrawn, t.tokLatch, t.lostPut, t.mailbox.length)
  let state := recordBytes t.run.name 1 ++ leBytes 1 t.depth ++ leBytes 2 (pendtokWord t).toNat ++ leBytes 4 t.task ++ recordBytes rest 120
  let reports := (List.range 15).flatMap fun i =>
    ((t.reports.find? fun r => r.tok == i + 1).map (engReportBytes t.task)).getD (List.replicate 32 0)
  fit 128 (windowBytes t.gregs) ++ fit 128 (ctl.flatMap (wordBytes 8)) ++ fit 128 state
    ++ fit 128 (((t.frame.map (·.words)).getD []).flatMap fun w => leBytes 4 w.toNat)
    ++ fit 1024 (t.windows.flatMap windowBytes) ++ fit 128 (windowBytes t.trapWin) ++ fit 512 reports
    ++ fit 512 (t.mailbox.flatMap fun m => fit 32 (m.words.flatMap (wordBytes 8)))
    ++ fit 1024 (t.cands.flatMap fun c => wordBytes 8 c.key ++ wordBytes 8 c.payload) ++ List.replicate 384 0

/-- The slot writes still in flight on a chisel: slot, offset, new bytes and old ones (R378). -/
def slotWrites (s : State) (ch : Nat) : List (Nat × Nat × List Byte × List Byte) :=
  (List.range 8).flatMap fun i => (s.ctx (8 * ch + i)).flight.filterMap fun f =>
    match f.dest with
    | .slot o off bs => some (o, off, bs, s.opmem.bytes (slotBase ch o + off) bs.length)
    | .past o off bs => some (o, off, s.opmem.bytes (slotBase ch o + off) bs.length, bs)
    | _ => none

/-- The slots of a chisel that have a shadow image, in the images' order (R382). -/
def shadowSlots (s : State) (ch : Nat) : List Nat := ((slotWrites s ch).map (·.1)).eraseDups

/-- The accumulator writes of a context that it does not see yet, and the bundles of its own still to pass (R292, R317). -/
def accFlight (s : State) (id : Nat) : List (Nat × Nat) :=
  (s.chisel (ctxChisel id)).accLog.filterMap fun w =>
    let left := w.bundle + w.latency - (s.ctx id).bundles
    if w.ctx = id ∧ 0 < left then some (w.acc, left) else none

/-- A latched result of 80 bytes (R382): kind, index, remaining count and shadow number in the first 16, then the value; the format of
the first 16, and of a value that the operand memory or an accumulator holds, is not given. -/
def latchedBytes (kind index left shadow : Nat) (value : Option (List Byte)) : List Byte :=
  recordBytes (kind, index, left, shadow) 16 ++ (value.map (fit 64)).getD (recordBytes (kind, index, left, shadow) 80 |>.drop 16)

/-- The latched result of a write in flight. -/
def latched (s : State) (ch : Nat) (f : InFlight) : List Byte :=
  match f.dest with
  | .s n v => latchedBytes 0 n f.left 0 (some (wordBytes 8 v))
  | .v n bs => latchedBytes 1 n f.left 0 (some bs)
  | .p n b => latchedBytes 2 n f.left 0 (some [if b then 1 else 0])
  | .mp n v => latchedBytes 3 n f.left 0 (some (wordBytes 8 v))
  | .fmt m v => latchedBytes 4 m f.left 0 (some (leBytes 4 v))
  | .slot o _ _ => latchedBytes 6 o f.left ((shadowSlots s ch).idxOf o) none
  | .past o _ _ => latchedBytes 6 o f.left ((shadowSlots s ch).idxOf o) none

/-- The 8 KiB context record (R382). FMT takes eight bytes, as every register of a strand record does, and the predicates the byte behind it
(log 9). -/
def ctxRecord (s : State) (id : Nat) : List Byte :=
  let c := s.ctx id
  let claim (o : Nat) : Bool := (s.chisel (ctxChisel id)).claims.getD o 9999 == id
  let claims := (List.range 16).map fun i =>
    BitVec.ofNat 8 (((List.range 8).map fun b => if claim (8 * i + b) then 2 ^ b else 0).sum)
  let results := c.flight.flatMap (latched s (ctxChisel id)) ++ (accFlight s id).flatMap fun (a, left) => latchedBytes 5 a left a none
  let fmtWrites := c.flight.filterMap fun f => match f.dest with
    | .fmt m v => some (m, v, f.left)
    | _ => none
  let preds := ((List.range 8).map fun i => if c.p.toList.getD i false then 2 ^ i else 0).sum
  let rest := (c.run, c.ending, c.delay, fmtWrites, c.task, c.sink)
  let node (n : Nat) : List Byte :=
    match c.nodes.find n with
    | some x => leBytes 4 x.token ++ leBytes 1 x.parent ++ [1, 0, 0]
    | none => List.replicate 8 0
  fit 256 (c.s.toList.flatMap (wordBytes 8)) ++ fit 1024 ((List.range 16).flatMap fun i => fit 64 (c.v.getD i []))
    ++ fit 64 (c.mp.toList.flatMap (wordBytes 8)) ++ (wordBytes 8 c.pc ++ leBytes 8 c.fmt ++ leBytes 1 preds ++ recordBytes rest 47)
    ++ fit 128 (c.queue.flatMap (wordBytes 8)) ++ fit 64 claims ++ fit 2560 results
    ++ List.replicate 1984 0 ++ fit 2048 ((List.range 256).flatMap node)

/-- The 1 MiB chisel record (R382): operand memory with its new bytes, and the old ones as shadows. -/
def chiselRecord (s : State) (ch : Nat) : List Byte :=
  let base := ch * 2 ^ 18
  let ws := slotWrites s ch
  let new : Mem := ws.foldl (fun m (o, off, bs, _) => m.putBytes (slotBase ch o + off) bs) s.opmem
  let old : Mem := ws.foldl (fun m (o, off, _, bs) => m.putBytes (slotBase ch o + off) bs) s.opmem
  let shadow (a : Nat) : List Byte :=
    (((s.chisel ch).accLog.find? fun w => w.acc == a).map (·.before)).getD (List.replicate 4096 0)
  new.bytes base (2 ^ 18) ++ s.accMem.bytes (ch * 2 ^ 15) (2 ^ 15) ++ (List.range 8).flatMap (fun a => fit 4096 (shadow a))
    ++ fit (2 ^ 15) ((shadowSlots s ch).flatMap fun o => old.bytes (slotBase ch o) 2048)
    ++ s.routineMem.bytes (ch * 2 ^ 17 + 2048 * 16) (2048 * 48) ++ (List.range 8).flatMap (fun i => ctxRecord s (8 * ch + i))
    ++ recordBytes (s.chisel ch, s.descs.filter fun d => d.1 / 128 == chiselPad ch) (2 ^ 19)

/-- What the cluster tables of a cluster's record hold (R381): its tile-buffer descriptors, its barriers, groups and regions, its
range-lock table and report queue, and the Trowel operations of its strands. -/
def clusterTables (s : State) (c : Nat) : Tbl Desc × Tbl Barrier × Tbl Group × Tbl Region × List Lock × List Report × Tbl EngOp :=
  let x := s.cluster c
  (s.descs.filter fun d => d.1 / 3072 == c, s.barriers.filter fun b => b.1 / 2048 == c, s.groups.filter fun g => g.1 / 2048 == c,
   s.regions.filter fun r => r.1 / 32 == c, x.locks, x.reports, s.ops.filter fun o => strandCluster o.2.strand == c)

/-- The four parts of a cluster's record, at their offsets (R381). -/
def clusterRecord (s : State) (c : Nat) : List (Nat × List Byte) :=
  [(0, s.spad.bytes (24 * c * 2 ^ 18) (24 * 2 ^ 18)),
   (0x600000, (List.range 256).flatMap fun i => strandRecord s (256 * c + i)),
   (0x700000, (List.range 8).flatMap fun i => chiselRecord s (8 * c + i)),
   (0xF00000, recordBytes (clusterTables s c) (2 ^ 20))]

/-- Write bytes to near memory as plain writes of 32 bytes. -/
def physWrite (s : State) (pa : Nat) (bs : List Byte) : State :=
  (List.range (bs.length / 32)).foldl (fun s i => plainWrite s (.mem (pa + 32 * i)) ((bs.drop (32 * i)).take 32)) s

/-- The save of a partition (R381). It starts once HALTED is set and every engine operation and swap has completed; a Trowel
operation that is set aside or has not started waits for the resume (R379). -/
def savePartition (s : State) (p : Nat) : State :=
  let x := s.part p
  let aside (o : EngOp) : Bool := (o.kind == .scaleadd || o.kind == .topk) && !o.running
  let done : Bool := s.ops.all (fun (_, o) => o.part != p || aside o) && s.swaps.all fun (_, w) => w.part != p
  if x.haltedBit ∧ x.saveWanted ∧ done then
    let cs := (List.range 32).filter fun c => s.partHas p c
    let parts := cs.mapIdx fun i c => (clusterRecord s c).map fun (off, bs) => (x.savebase + i * 2 ^ 24 + off, bs)
    let s := parts.flatten.foldl (fun s (pa, bs) => physWrite s pa bs) s
    s.modPart p fun x => { x with savedBit := true, busy := false, saving := true, saveWanted := false }
  else s

end Sys2Proof.Machine
end

