-- ==== Sys2Proof/Machine/EvPart.lean ====
section
/-! DEFINITION. Meanings of the register commands that have rows of their own: of partitions (17 R367, R368, R375, R381, R383;
19 R411, R412), of space 1 (20 R440, R444, R450); and of the halt (17 R376 to R379, R381). A command comes from the device or a
strand, or is a CFGW of the host, which passes through its stream (20 R430, R432). -/

namespace Sys2Proof.Machine

/-- A command by its source: at once, or by the host's message when that message is this command. -/
def command (s : State) (src : CmdSrc) (part addr : Nat) (is : Nat → Bool) (k : State) : Out :=
  match src with
  | .direct => .next k
  | .host m =>
    if m.part = part ∧ m.addr = addr ∧ is (numAt m.payload 0 8) then receive s m 8 fun s => streamTake s 8 m else .next s

/-- Offsets of a partition's PREEMPT, PCTL and SWAPPOST in the system window (R367, R411). -/
def preemptAt (p : Nat) : Nat := 0x100000000 + 0x1000 * p
def pctlAt (p : Nat) : Nat := 0x200000000 + 0x1000 * p
def swappostAt (p : Nat) : Nat := pctlAt p + 0x30

/-- SWAPPOST (R411, R398). -/
def execSwappost (src : CmdSrc) (p va : Nat) (s : State) : Out :=
  command s src p (swappostAt p) (fun v => v == va) (postSwap s p va)

/-- HALT without SAVE (R375). -/
def execHalt (src : CmdSrc) (p : Nat) (s : State) : Out :=
  command s src p (preemptAt p) (fun v => v % 8 == 1) (cmdHalt s p false)

/-- HALT with SAVE (R381). -/
def execHaltSave (src : CmdSrc) (p : Nat) (s : State) : Out :=
  command s src p (preemptAt p) (fun v => v % 8 == 5) (cmdHalt s p true)

/-- NOTIFY (R375). -/
def execNotify (src : CmdSrc) (p : Nat) (s : State) : Out :=
  command s src p (preemptAt p) (fun v => v % 4 == 2) (cmdNotify s p)

/-- RESUME (R383). -/
def execResume (src : CmdSrc) (p : Nat) (s : State) : Out :=
  command s src p (preemptAt p) (fun v => v % 4 == 3) (cmdResume s p)

/-- ENABLE (R412). -/
def execEnable (src : CmdSrc) (p : Nat) (s : State) : Out :=
  command s src p (pctlAt p) (fun v => v % 8 == 1) (cmdEnable s p)

/-- START (R412). -/
def execStart (src : CmdSrc) (p : Nat) (s : State) : Out :=
  command s src p (pctlAt p) (fun v => v % 8 == 2) (cmdStart s p)

/-- STOP (R412). -/
def execStop (src : CmdSrc) (p : Nat) (s : State) : Out :=
  command s src p (pctlAt p) (fun v => v % 8 == 3) (cmdStop s p)

/-- DISABLE (R412). -/
def execDisable (src : CmdSrc) (p : Nat) (s : State) : Out :=
  command s src p (pctlAt p) (fun v => v % 8 == 4) (cmdDisable s p)

/-! ## Space 1 -/

/-- ROUTE_WRITE (R440). -/
def execRouteWrite (src : CmdSrc) (peer : Nat) (value : Word) (s : State) : Out :=
  command s src 0xFF (0x10000 + 32 * peer) (fun v => v == value.toNat) ((writeRoute s peer value.toNat).getD s)

/-- EXPORT_WRITE (R444): `off` counts from EXPORT0. -/
def execExportWrite (src : CmdSrc) (off : Nat) (value : Word) (s : State) : Out :=
  command s src 0xFF (0x20000 + off) (fun v => v == value.toNat) (directWrite s (0x20000 + off) value.toNat).1

/-- LOSSCMD (R450). -/
def execLosscmd (src : CmdSrc) (value : Word) (s : State) : Out :=
  command s src 0xFF 0x31000 (fun v => v == value.toNat) (losePeer s (value.toNat % 1024))

/-! ## The halt -/

/-- STRAND_HALT: the halt reaches a strand (R376). -/
def execStrandHalt (id : Nat) (s : State) : Out :=
  .next (if s.halting (s.strandPart id) ∧ !(s.strand id).halted ∧ (s.strand id).run ≠ .free then haltStrand s id else s)

/-- CHISEL_FREEZE (R378). -/
def execChiselFreeze (ch : Nat) (s : State) : Out :=
  .next
    (match s.clusterPart (chiselCluster ch) with
    | some p => if s.halting p then freezeChisel s ch else s
    | none => s)

/-- TROWEL_SUSPEND (R379). -/
def execTrowelSuspend (unit : Nat) (s : State) : Out := .next (suspendTrowel s unit)

/-- PARTITION_SAVE (R381). -/
def execPartitionSave (p : Nat) (s : State) : Out := .next (savePartition s p)

end Sys2Proof.Machine
end

