-- ==== Sys2Proof/Machine/MgmtOps.lean ====
section
/-! DEFINITION. What the management controller and failures share (21 R452 to R464): the I3C registers, the firmware store and its
image, bring-up, reset, the stop of a partition, the attestation report. -/

namespace Sys2Proof.Machine

def State.modMgmt (s : State) (f : Mgmt → Mgmt) : State := { s with mgmt := f s.mgmt }

/-! ## The firmware store (R457, R462) -/

/-- n bytes of the store. -/
def storeBytes (m : Mgmt) (a n : Nat) : List Byte := (m.store.bytes a n).map (~~~ ·)

/-- Program bytes of the store. -/
def storePut (m : Mgmt) (a : Nat) (bs : List Byte) : Mem := m.store.putBytes a (bs.map (~~~ ·))

/-- The header's fields in four-byte words: MAGIC, version, level, body length (log 9). -/
def imageMagic (m : Mgmt) : Nat := ofLeBytes (storeBytes m 0 4)
def imageLevel (m : Mgmt) : Nat := ofLeBytes (storeBytes m 8 4)
def imageLength (m : Mgmt) : Nat := ofLeBytes (storeBytes m 12 4)

def imageDigest (m : Mgmt) : List Byte := Config.sha3 (storeBytes m 0 (64 + imageLength m))

/-- The boot ROM's checks in their order: 0, or the reason of R458. -/
def checkImage (m : Mgmt) : Nat :=
  if imageMagic m ≠ 0x4F5A4657 ∨ 2 ^ 26 < imageLength m then 1
  else if imageDigest m ≠ storeBytes m (64 + imageLength m) 32 then 2
  else if !Config.signatureValid (imageDigest m) (storeBytes m (96 + imageLength m) 2420) then 3
  else if imageLevel m < m.level then 4
  else 0

/-- FWDATA3 programs 32 bytes that are all ones (R462). -/
def programStore (s : State) (v : Nat) : State :=
  if s.mgmt.fwBusy then s
  else
    s.modMgmt fun m =>
      let data := m.fwData.set 3 (BitVec.ofNat 64 v)
      if (storeBytes m m.fwAddr 32).any fun b => b != 0xFF then { m with fwData := data, fwResult := 4 }
      else
        { m with fwData := data, fwBusy := true, fwErasing := false,
                 fwPend := some (m.fwAddr, data.toList.flatMap (wordBytes 8)), fwAddr := (m.fwAddr + 32) % 2 ^ 27 }

/-- An erase or a programming ends. One that fails leaves the bytes it was to change with any value. -/
def endStoreOp (s : State) (ok : Bool) : State :=
  let m := s.mgmt
  if !m.fwBusy then s
  else if m.fwErasing then
    if ok then s.modMgmt fun m => { m with store := [], fwResult := 0, fwBusy := false, fwErasing := false }
    else
      let (bs, s) := freeBytes s m.store.length
      let mem : Mem := (m.store.zip bs).foldl (fun t (c, b) => t.put c.1 b) []
      s.modMgmt fun m => { m with store := mem, fwResult := 2, fwBusy := false, fwErasing := false }
  else
    match m.fwPend with
    | none => s.modMgmt fun m => { m with fwBusy := false }
    | some (a, bs) =>
      if ok then s.modMgmt fun m => { m with store := storePut m a bs, fwResult := 0, fwBusy := false, fwPend := none }
      else
        let (free, s) := freeBytes s 32
        s.modMgmt fun m => { m with store := storePut m a free, fwResult := 3, fwBusy := false, fwPend := none }

/-! ## The repair list (R452, R461) -/

def repairV (w : Nat) : Bool := w.testBit 63
def repairUnit (w : Nat) : Nat := w % 512

/-- A write of REPAIRe by the controller. -/
def writeRepair (s : State) (e v : Nat) : State :=
  if bitsOf v 61 9 ≠ 0 ∨ (e < 4 ∧ 31 < repairUnit v) then s
  else s.modMgmt fun m => { m with repair := m.repair.put e (bitsOf v 63 63 * 2 ^ 63 + repairUnit v) }

/-- The device fails a unit: the lowest entry of its kind whose V is 0 takes it, with V and RT. -/
def enterRepair (s : State) (cluster : Bool) (unit : Nat) : State :=
  let es := if cluster then List.range 4 else (List.range 64).map (· + 4)
  match es.find? fun e => !repairV (s.mgmt.repair.getD e 0) with
  | some e => s.modMgmt fun m => { m with repair := m.repair.put e (2 ^ 63 + 2 ^ 62 + unit) }
  | none => s

/-- The valid entries of a kind, in order. -/
def repairUnits (m : Mgmt) (cluster : Bool) : List Nat :=
  (m.repair.filter fun (e, w) => (if cluster then decide (e < 4) else decide (4 ≤ e)) && repairV w).map fun (_, w) => repairUnit w

/-- The firmware applies the repair list (R452): a die's spare takes one cluster, a second one stays disabled. -/
def applyRepairs (s : State) : State :=
  let s := (repairUnits s.mgmt true).foldl (fun s c =>
    let taken : Bool := s.substituted.any fun x => dieOf x == dieOf c && x != c
    let s := if taken then { s with deadClusters := NSet.ins s.deadClusters c } else { s with substituted := NSet.ins s.substituted c }
    strataEvent s (dieOf c) 4 c 0 0 0) s
  (repairUnits s.mgmt false).foldl (fun s n =>
    strataEvent { s with remapped := NSet.ins s.remapped n } (dieOf (n / 16)) 3 (n / 16) n 0 0) s

/-! ## Bring-up and reset (R458, R460) -/

/-- Steps 2 to 4 of bring-up. -/
def bootDevice (s : State) : State :=
  let r := checkImage s.mgmt
  if r ≠ 0 then
    strataEvent (s.modMgmt fun m => { m with phase := .recovery, bootres := r }) ioDie 13 0xFF 0 0 r
  else
    let s := applyRepairs s
    let s := s.modMgmt fun m =>
      { m with phase := .ready, bootres := 0, digest := imageDigest m, runLevel := imageLevel m, level := max m.level (imageLevel m) }
    strataEvent s ioDie 13 0xFF 0 0 0

/-- All state at its reset values, but for what lies outside the device, the store and the fuse (R455, R457). -/
def clearDevice (s : State) (m : Mgmt) : State :=
  { State.reset with
    mgmt := { m with store := s.mgmt.store, level := s.mgmt.level }, freeCount := s.freeCount,
    hostOut := s.hostOut, dunOut := s.dunOut, i3cOut := s.i3cOut, accMem := s.accMem,
    chisels := (s.chisels.filter fun (_, c) => c.accPoison != []).map fun (n, c) => (n, { accPoison := c.accPoison }) }

/-- The warm reset keeps the record, the repair list and the registers NETMAC to NETCFG but UP (R460). -/
def warmReset (s : State) : State :=
  let m := s.mgmt
  { clearDevice s { repair := m.repair, netmac := m.netmac, netip4 := m.netip4, netip6l := m.netip6l, netip6h := m.netip6h,
                    lanes := m.lanes, udpPort := m.udpPort } with
    strata := s.strata, strataSeq := s.strataSeq }

/-! ## The stop of a partition -/

/-- Everything of a launch ends at once, with no report of its own. -/
def endWork (s : State) (key : Nat) : State :=
  let s := (s.tasks.filter fun (_, t) => t.launch == key).foldl (fun s (tid, t) =>
    match t.st with
    | .running id => killNow s id
    | _ => killTask s tid t) s
  let s := (s.ctxs.filter fun (_, c) => c.run != .free && c.launch == key).foldl (fun s (id, _) => killTile s id) s
  (s.ops.filter fun (_, o) => o.launch == key).foldl (fun s (k, o) => removeOp s k o) s

/-- Stop a partition as by HALT without SAVE (R375): its RUNNING launches end, with a notice of the given outcome or none. -/
def stopPartition (s : State) (p : Nat) (outcome : Option Nat) : State :=
  if (s.part p).st ≠ .running then s
  else
    let keys := (s.launches.filter fun (_, l) => l.part == p && l.st != .queued).map (·.1)
    let s := keys.foldl (fun s key =>
      let s := endWork s key
      match outcome with
      | some o => endLaunch s key o
      | none => { s with launches := s.launches.del key }) s
    cmdHalt (s.modPart p fun x => { x with granting := none }) p false

/-! ## The host port (R460) -/

/-- NETCFG written while the port is down. -/
def setNetcfg (m : Mgmt) (v : Nat) : Mgmt := { m with lanes := v.testBit 16, udpPort := v % 65536 }

/-- UP is set: the port comes up and every stream starts at 1 (R430), if it has an address and a port, and the firmware runs. -/
def portUp (s : State) (v : Nat) : State :=
  if s.mgmt.up then s
  else
    let s := s.modMgmt fun m => setNetcfg m v
    let m := s.mgmt
    if (m.netip4 = 0 ∧ m.netip6l = 0 ∧ m.netip6h = 0) ∨ m.udpPort = 0 ∨ m.phase = .boot ∨ m.phase = .recovery then s
    else { s.modMgmt fun m => { m with up := true } with streams := [] }

/-- UP is cleared: every held and unacknowledged message is discarded. -/
def portOff (s : State) (v : Nat) : State :=
  let s := s.modMgmt fun m => { setNetcfg m v with up := false }
  { s with streams := [], parts := s.parts.map fun (k, x) => (k, { x with enabling := none }) }

/-! ## SP1ADDR and SP1DATA (R460) -/

def sp1Fetch (s : State) : State × Nat :=
  match sp1Read s s.mgmt.sp1off with
  | some v => (s.modMgmt fun m => { m with sp1err := false }, v)
  | none => (s.modMgmt fun m => { m with sp1err := true }, 0)

def sp1Store (s : State) (v : Nat) : State :=
  let (s, ok) := directWrite s s.mgmt.sp1off v
  s.modMgmt fun m => { m with sp1err := !ok }

/-! ## Attestation (R459, R463) -/

def fitTo (n : Nat) (bs : List Byte) : List Byte := bytesAt bs 0 n

/-- PRECT and PTROOT of every partition, zeros where it is OFF. -/
def partitionImage (s : State) : List Byte := (List.range 8).flatMap fun p =>
  let x := s.part p
  if x.st = .off then leBytes 16 0 else leBytes 8 x.prect ++ leBytes 8 x.ptroot

def repairImage (m : Mgmt) : List Byte := (List.range 68).flatMap fun e => leBytes 8 (m.repair.getD e 0)

/-- The report (R463). -/
def attestation (s : State) : List Byte :=
  let m := s.mgmt
  let body := leBytes 4 0x4F5A4154 ++ leBytes 2 1 ++ leBytes 2 0 ++ leBytes 4 m.runLevel ++ leBytes 4 0
    ++ fitTo 32 (Config.sha3 Config.identityKey) ++ fitTo 32 m.digest ++ fitTo 32 (Config.sha3 (repairImage m))
    ++ fitTo 32 (Config.sha3 (partitionImage s)) ++ m.attNonce.toList.flatMap (wordBytes 8) ++ leBytes 8 s.cycle ++ leBytes 8 0
  body ++ fitTo 2420 (Config.identitySign (Config.sha3 body)) ++ leBytes 12 0

/-- The identity certificate (R463). -/
def certificate : List Byte := fitTo 1312 Config.identityKey ++ fitTo 2420 Config.identityCert ++ leBytes 12 0

/-- A nonce word is written; the last one starts a report over the nonce as it then stands (R463). -/
def writeNonce (s : State) (i v : Nat) : State :=
  s.modMgmt fun m =>
    let m := { m with nonce := m.nonce.set! i (BitVec.ofNat 64 v) }
    if i = 3 then { m with attNonce := m.nonce, attReady := false, attBusy := true } else m

/-! ## The I3C registers (R456, R460 to R463) -/

def phaseNum : Phase → Nat
  | .boot => 0 | .recovery => 1 | .ready => 2 | .tripped => 3

/-- The entry that STRSEL selects, as it stands (R456). -/
def strataEntry (s : State) : Option Strata :=
  let idx := s.mgmt.strsel % 4096
  (s.strata.getD (bitsOf s.mgmt.strsel 14 12) []).find? fun e => (e.seq - 1) % 4096 == idx

/-- The 32 bytes of an entry (R455); an entry marked BAD reads as zero but for BAD. -/
def strataBytes (e : Strata) : List Byte :=
  if e.bad then leBytes 8 0 ++ leBytes 8 0 ++ leBytes 8 0 ++ leBytes 8 (2 ^ 63)
  else leBytes 8 e.cycle ++ leBytes 4 e.seq ++ leBytes 1 e.code ++ leBytes 1 e.cluster ++ leBytes 2 e.unit ++ leBytes 8 e.addr
    ++ leBytes 8 (e.detail % 2 ^ 63)

/-- STRSEL is written: the entry that it selects is what STRDATA0 to STRDATA3 read, as it stands at this moment (R456; log 98). -/
def selectStrata (s : State) (v : Nat) : State :=
  let s := s.modMgmt fun m => { m with strsel := v % 2 ^ 15 }
  s.modMgmt fun m => { m with strLatch := ((strataEntry s).map strataBytes).getD [] }

/-- The hottest junction (R460). -/
def hottest (m : Mgmt) : BitVec 16 := m.temps.toList.foldl (fun a b => if a.slt b then b else a) (m.temps[(0 : Fin 5)])

/-- What a read of an I3C register returns. FWDATA0, FWDATA3 and SP1DATA also act, as their rows say. -/
def i3cRead (s : State) (o : Nat) : Nat :=
  let m := s.mgmt
  let seq := s.strataSeq.getD (bitsOf m.strsel 14 12) 0
  if o % 8 ≠ 0 then 0
  else if o = 0x0000 then m.level % 256 * 65536 + m.bootres * 256 + phaseNum m.phase
  else if o = 0x0010 then (hottest m).toNat
  else if o = 0x0040 then m.netmac
  else if o = 0x0048 then m.netip4
  else if o = 0x0050 then m.netip6l
  else if o = 0x0058 then m.netip6h
  else if o = 0x0060 then (if m.up then 2 ^ 17 else 0) + (if m.lanes then 2 ^ 16 else 0) + m.udpPort
  else if o = 0x0080 then (if m.sp1err then 2 ^ 63 else 0) + m.sp1off
  else if o = 0x0088 then (sp1Fetch s).2
  else if o = 0x0100 then m.strsel
  else if o = 0x0108 then seq % 2 ^ 32 * 2 ^ 32 + seq % 4096
  else if 0x0110 ≤ o ∧ o ≤ 0x0128 then numAt m.strLatch (o - 0x0110) 8
  else if 0x0200 ≤ o ∧ o ≤ 0x0218 then (m.nonce[(o - 0x0200) / 8]?.getD 0).toNat
  else if o = 0x0220 then (if m.attReady then 1 else 0)
  else if 0x0300 ≤ o ∧ o < 0x0520 then m.repair.getD ((o - 0x0300) / 8) 0
  else if o = 0x0600 then m.fwResult * 4096 + (if m.fwBusy then 256 else 0)
  else if o = 0x0608 then m.fwAddr
  else if 0x0610 ≤ o ∧ o ≤ 0x0628 then (m.fwData[(o - 0x0610) / 8]?.getD 0).toNat
  else if 0x1000 ≤ o ∧ o < 0x1A40 then numAt m.report (o - 0x1000) 8
  else if 0x2000 ≤ o ∧ o < 0x2EA0 then numAt certificate (o - 0x2000) 8
  else 0

/-- A write of a register that has no row of its own; an offset that is not listed ignores it (R460). -/
def i3cWrite (s : State) (o v : Nat) : State :=
  let net (f : Mgmt → Mgmt) : State := if s.mgmt.up then s else s.modMgmt f
  if o = 0x0040 then net fun m => { m with netmac := v % 2 ^ 48 }
  else if o = 0x0048 then net fun m => { m with netip4 := v % 2 ^ 32 }
  else if o = 0x0050 then net fun m => { m with netip6l := v }
  else if o = 0x0058 then net fun m => { m with netip6h := v }
  else if o = 0x0060 then (if v.testBit 17 then s else net fun m => setNetcfg m v)
  else if o = 0x0080 then s.modMgmt fun m => { m with sp1off := v % 2 ^ 20 }
  else if o = 0x0100 then selectStrata s v
  else if 0x0200 ≤ o ∧ o < 0x0218 ∧ o % 8 = 0 then writeNonce s ((o - 0x0200) / 8) v
  else if 0x0300 ≤ o ∧ o < 0x0520 ∧ o % 8 = 0 then writeRepair s ((o - 0x0300) / 8) v
  else if o = 0x0608 then s.modMgmt fun m => { m with fwAddr := v % 2 ^ 27 / 32 * 32 }
  else if 0x0610 ≤ o ∧ o < 0x0628 ∧ o % 8 = 0 then
    s.modMgmt fun m => { m with fwData := m.fwData.set! ((o - 0x0610) / 8) (BitVec.ofNat 64 v) }
  else s

end Sys2Proof.Machine
end

