-- ==== Sys2Proof/Machine/EvMgmt.lean ====
section
/-! DEFINITION. Meanings of the happenings of management and failure (21 R452 to R464). A register write that is not the row's own
leaves the state as it is. -/

namespace Sys2Proof.Machine

/-- I3C_REGISTER_WRITE (R460). -/
def execI3cRegisterWrite (off : Nat) (value : Word) (s : State) : Out := .next (i3cWrite s off value.toNat)

/-- HOST_PORT_UP: a write of NETCFG with UP set (R460). -/
def execHostPortUp (value : Word) (s : State) : Out := .next (if value.getLsbD 17 then portUp s value.toNat else s)

/-- HOST_PORT_DOWN: a write of NETCFG that clears UP (R460). -/
def execHostPortDown (value : Word) (s : State) : Out :=
  .next (if s.mgmt.up ∧ !value.getLsbD 17 then portOff s value.toNat else s)

/-- SP1DATA_READ and SP1DATA_WRITE (R460). -/
def execSp1dataRead (s : State) : Out := .next (sp1Fetch s).1
def execSp1dataWrite (value : Word) (s : State) : Out := .next (sp1Store s value.toNat)

/-- FW_ERASE: CMD 1 of FWCTL (R462). -/
def execFwErase (s : State) : Out :=
  .next (if s.mgmt.fwBusy then s else s.modMgmt fun m => { m with fwBusy := true, fwErasing := true })

/-- FW_PROGRAM: a write of FWDATA3 (R462). -/
def execFwProgram (value : Word) (s : State) : Out := .next (programStore s value.toNat)

/-- FW_OP_COMPLETE: an erase or a programming ends, well with 0 (R462). -/
def execFwOpComplete (result : Nat) (s : State) : Out := .next (endStoreOp s (result == 0))

/-- FW_LOAD: a read of FWDATA0 loads the 32 bytes at OFF (R462). -/
def execFwLoad (s : State) : Out :=
  .next
    (s.modMgmt fun m =>
      { m with fwData := Vector.ofFn fun i : Fin 4 => BitVec.ofNat 64 (ofLeBytes (storeBytes m (m.fwAddr + 8 * i.val) 8)) })

/-- FW_ADVANCE: a read of FWDATA3 advances OFF by 32 (R462). -/
def execFwAdvance (s : State) : Out := .next (s.modMgmt fun m => { m with fwAddr := (m.fwAddr + 32) % 2 ^ 27 })

/-- ATTESTATION_START: a write of ATTNONCE3 (R463). -/
def execAttestationStart (value : Word) (s : State) : Out := .next (writeNonce s 3 value.toNat)

/-- ATTESTATION_READY: the firmware has made the report (R459, R463). -/
def execAttestationReady (s : State) : Out :=
  .next
    (if s.mgmt.attBusy ∧ (s.mgmt.phase = .ready ∨ s.mgmt.phase = .tripped) then
       let r := attestation s
       s.modMgmt fun m => { m with report := r, attReady := true, attBusy := false }
     else s)

/-- BOOT: reset has been released, and bring-up runs (R458). -/
def execBoot (s : State) : Out := .next (if s.mgmt.powered ∧ s.mgmt.phase = .boot then bootDevice s else s)

/-- WARM (R460). -/
def execWarm (s : State) : Out := .next (if s.mgmt.powered then warmReset s else s)

/-- POWER_OFF: all state is lost with the record (R455). -/
def execPowerOff (s : State) : Out := .next (clearDevice s { powered := false })

/-- POWER_UP: the repair list and all other state start cleared (R461). -/
def execPowerUp (s : State) : Out := .next (if s.mgmt.powered then s else clearDevice s {})

/-- A junction's temperature, in sixteenths of a degree, two's complement (R460). -/
def setTemp (s : State) (die temp : Nat) : State := s.modMgmt fun m => { m with temps := m.temps.set! die (BitVec.ofNat 16 temp) }

/-- The device signals to the management controller (R464). -/
def signal (s : State) (x : I3cSignal) : State := { s with i3cOut := s.i3cOut ++ [x] }

/-- A junction passes a temperature in degrees (R464). -/
def passes (s : State) (die temp degrees : Nat) : Bool :=
  let lim := BitVec.ofNat 16 (16 * degrees)
  ((s.mgmt.temps[die]?).getD 0).slt lim && !(BitVec.ofNat 16 temp).slt lim

/-- TEMPERATURE_ALERT: the temperature of a die's junction changes; when it reaches 105 degrees, the alert is recorded and the controller is
interrupted (R460, R464; log 100). -/
def execTemperatureAlert (die temp : Nat) (s : State) : Out :=
  .next
    (let u := setTemp s die temp
     if passes s die temp 105 then signal (strataEvent u die 11 0xFF 0 0 temp) .interrupt else u)

/-- The phase of a device that runs ends with a trip; one that has verified no firmware stays as it is (R458, R460). -/
def tripPhase (m : Mgmt) : Mgmt := if m.phase = .ready then { m with phase := .tripped } else m

/-- THERMAL_TRIP: a junction reaches 115 degrees; every partition stops, no notice is sent, and the controller is asked to remove power
(R464). -/
def execThermalTrip (die temp : Nat) (s : State) : Out :=
  .next
    (if passes s die temp 115 then
       let s := strataEvent ((setTemp s die temp).modMgmt tripPhase) die 12 0xFF 0 0 temp
       (List.range 8).foldl (fun s p => stopPartition s p none) (signal s .removePower)
     else s)

/-! ## Errors in storage (R453) -/

/-- Where an error is recorded: die, cluster, core index or pseudo-channel, and physical address. -/
def eccPlace : EccSite → Nat × Nat × Nat × Nat
  | .granule pa => (dieOf (homeSlice pa / 16), homeSlice pa / 16, homeSlice pa, pa / 32 * 32)
  | .line pa => (dieOf (homeSlice pa / 16), homeSlice pa / 16, homeSlice pa, pa / 64 * 64)
  | .pad a => (dieOf (a / 2 ^ 18 / 24), a / 2 ^ 18 / 24, a / 2 ^ 18 % 24, 0)
  | .slot ch _ => (dieOf (chiselCluster ch), chiselCluster ch, ch % 8, 0)
  | .acc ch _ => (dieOf (chiselCluster ch), chiselCluster ch, ch % 8, 0)
  | .strand id => (dieOf (strandCluster id), strandCluster id, id / 16 % 16, 0)
  | .context id => (dieOf (chiselCluster (ctxChisel id)), chiselCluster (ctxChisel id), ctxChisel id % 8, 0)
  | .strata die _ => (die, 0xFF, 0, 0)

/-- An event at such a place. -/
def eccEvent (s : State) (x : EccSite) (code : Nat) : State :=
  let (die, cluster, unit, addr) := eccPlace x
  strataEvent s die code cluster unit addr 0

/-- A granule is poisoned, behind the update-only copies of its line (R100); nothing is created that is there already. -/
def poisonGranule (s : State) (l : Loc) : State := if isPoisoned s l then s else poisonAt l (recallLoc s l)

/-- A row of a pseudo-channel in which an error could not be corrected (R452). -/
def noteRow (s : State) (pa : Nat) : State :=
  let n := homeSlice pa
  if isNear pa then { s with badRows := s.badRows.put n (NSet.ins (s.badRows.getD n []) (Config.dramRow pa)) } else s

/-- An entry of a ring is BAD (R456). -/
def markBad (s : State) (die slot : Nat) : State :=
  { s with strata := s.strata.put die ((s.strata.getD die []).map fun e => if (e.seq - 1) % 4096 = slot then { e with bad := true } else e) }

/-- An error that its code cannot correct (R453): what it lies in is poisoned or marked, or the strand or context traps MACHINE, a strand with
INNER 3. A strand or context that does not run does not meet it. -/
def uncorrectable (s : State) (x : EccSite) : State :=
  match x with
  | .granule pa => if isPoisoned s (.mem pa) then noteRow s pa else eccEvent (poisonGranule (noteRow s pa) (.mem (pa / 32 * 32))) x 2
  | .line pa =>
    let g := pa / 64 * 64
    if isPoisoned s (.mem g) ∧ isPoisoned s (.mem (g + 32)) then s
    else eccEvent (poisonGranule (poisonGranule s (.mem g)) (.mem (g + 32))) x 2
  | .pad a => if isPoisoned s (.spad a) then s else eccEvent (poisonGranule s (.spad (a / 32 * 32))) x 2
  | .slot ch o => eccEvent (s.modChisel ch fun c => { c with slotPoison := NSet.ins c.slotPoison o }) x 2
  | .acc ch a => eccEvent (s.modChisel ch fun c => { c with accPoison := NSet.ins c.accPoison a }) x 2
  | .strand id =>
    let t := s.strand id
    if t.run = .ready ∧ !t.halted then trapEntry s id .machine 3 0 0 0 0 t.pc else s
  | .context id => if (s.ctx id).run = .ready ∧ !(s.ctx id).frozenBy then chiselTrap s id .machine 0 else s
  | .strata die slot => markBad s die slot

/-- PATROL_SCRUB: an error is met in storage, by the scrub or by an access (R453; log 44). One that its code corrects is written back,
counted and recorded. -/
def execPatrolScrub (x : EccSite) (correctable : Bool) (s : State) : Out :=
  .next
    (let there : Bool := match x with
       | .granule pa => isNear pa || isFar pa
       | .line pa => isNear pa || isFar pa
       | _ => true
     if !there then s
     else if correctable then eccEvent { s with corrected := s.corrected + 1 } x 1
     else uncorrectable s x)

/-- CLUSTER_FAILURE (R452). -/
def execClusterFailure (c : Nat) (s : State) : Out :=
  .next
    (let s := strataEvent (enterRepair s true c) (dieOf c) 4 c 0 0 0
     match s.clusterPart c with
     | none => s
     | some p => (stopPartition s p (some 1)).modPart p fun x => { x with st := .stopped })

/-- The update-only copies of the lines that a pseudo-channel homes are recalled, as before a line moves (R399, R452). -/
def recallChannel (s : State) (n : Nat) : State :=
  let lines := (s.cores.flatMap fun (_, c) => c.red.map (·.1)).filter fun line => homeSlice (64 * line) == n
  lines.foldl recallLine s

/-- PSEUDO_CHANNEL_REMAP, after uncorrectable errors in 16 distinct rows: the channel's frames are stored at its sibling; the granules that
could not be read are poisoned, and its Trowel work joins the sibling's queue (R452). The copy of a line is one moment between accesses
(log 44). -/
def execPseudoChannelRemap (n : Nat) (bad : List Nat) (s : State) : Out :=
  .next
    (if s.remapped.has n ∨ (s.badRows.getD n []).length < 16 then s
     else
       let s := recallChannel (enterRepair s false n) n
       let s := bad.foldl (fun s pa => if homeSlice pa = n then poisonAt (.mem pa) s else s) s
       let sib := n ^^^ 1
       let q := s.trowels.getD n []
       let s := { s with remapped := NSet.ins s.remapped n,
                         ops := s.ops.map fun (k, o) =>
                           (k, if q.contains k ∨ (o.suspended ∧ o.inst = n) then { o with running := false, inst := sib } else o),
                         trowels := (s.trowels.put sib (s.trowels.getD sib [] ++ q)).put n [] }
       strataEvent s (dieOf (n / 16)) 3 (n / 16) n 0 0)

end Sys2Proof.Machine
end

