-- ==== Sys2Proof/Machine/GrainSearch.lean ====
section
/-! DEFINITION. Meanings of the SRCH major: the candidate queue of a strand (09 R249 to R251), kept best first. -/

namespace Sys2Proof.Machine

/-- A status to STATUS alone, then the following word. -/
def Strand.statusNext (t : Strand) (w : Word) : Strand := { t.next with status := w }

/-- CQINIT's limits (R249). -/
def candConfigOk (x : Word) : Bool := wbits x 63 10 == 0 && !x.getLsbD 7 && decide (1 ≤ wbits x 6 0) && decide (wbits x 6 0 ≤ 64)

/-- The queue as CQINIT leaves it. -/
def Strand.initCands (t : Strand) (x : Word) : Strand :=
  { t with cands := [], candCap := wbits x 6 0, candLargest := x.getLsbD 8, candSigned := x.getLsbD 9, candNext := 0 }

def execCqinit (a : GReg) (s : State) : Out :=
  withRegs s [a] fun t =>
    if candConfigOk (t.read a) then s.setCur ((t.initCands (t.read a)).statusNext (status .ok))
    else s.setCur (t.statusNext (status .invalid))

/-- Key x ranks strictly better than key y (R249). -/
def Strand.better (t : Strand) (x y : Word) : Bool :=
  let lt (a b : Word) : Bool := if t.candSigned then a.slt b else a.ult b
  if t.candLargest then lt y x else lt x y

/-- Insert a candidate behind every entry that is not worse: among equal keys the earlier push ranks better (R250). -/
def Strand.insertCand (t : Strand) (c : Cand) : List Cand → List Cand
  | [] => [c]
  | e :: es => if t.better c.key e.key then c :: e :: es else e :: t.insertCand c es

/-- CQPUSH (R250). -/
def Strand.pushCand (t : Strand) (key payload : Word) : Strand :=
  let c : Cand := ⟨key, payload, t.candNext⟩
  let put (l : List Cand) (detail : Nat) : Strand :=
    let u : Strand := { t with cands := t.insertCand c l, candNext := t.candNext + 1 }
    u.statusNext (statusWord .ok detail 0)
  if t.cands.length < t.candCap then put t.cands 0
  else if (t.cands.getLast?.map fun w => t.better key w.key).getD false then put t.cands.dropLast 1
  else t.statusNext (Machine.status .refused)

def execCqpush (a b : GReg) (s : State) : Out :=
  withRegs s [a, b] fun t => s.setCur (t.pushCand (t.read a) (t.read b))

/-- CQPOP (R251). -/
def Strand.popCand (t : Strand) (d : GReg) : Strand :=
  match t.cands with
  | [] => t.statusNext (Machine.status .exhausted)
  | c :: cs =>
    let u : Strand := { t with cands := cs }
    ((u.write d c.key).write (GReg.plus d 1) c.payload).statusNext (Machine.status .ok)

def execCqpop (d : GReg) (s : State) : Out := withRegs s (pairRegs d) fun t => s.setCur (t.popCand d)

end Sys2Proof.Machine
end

