-- ==== Sys2Proof/Machine/GrainRegion.lean ====
section
/-! DEFINITION. Meanings of the REGN major and of the commits of forwarding regions (10 R262 to R273). -/

namespace Sys2Proof.Machine

/-- The slot of a cluster's region unit that FRB takes, of those that are free the lowest (R252; log 105). -/
def freeSlot (s : State) (cluster : Nat) : Option Nat :=
  ((List.range 32).map fun i => 32 * cluster + i).find? fun r => (s.region r).st == .free

/-- FRB (R270): the core's stores commit, then the region unit gives a slot and a stamp (R252). -/
def beginRegion (s : State) : State × Word :=
  let s := flushCore s s.curCore
  let c := s.curCluster
  match s.cur.region, freeSlot s c with
  | none, some rid =>
    let s := s.setRegion rid { st := .live, stamp := 32 * s.cycle + c, holder := s.strandId }
    let s := s.modCluster c fun x => { x with lastFrb := some s.cycle }
    (s.setCur { s.cur with region := some rid }, statusWord .ok 0 rid)
  | _, _ => (s, status .refused)

/-- The region unit has accepted an FRB in this g-cycle, and would accept this one in the next (R252). -/
def frbWaits (s : State) : Bool :=
  (s.cluster s.curCluster).lastFrb == some s.cycle && s.cur.region.isNone && (freeSlot s s.curCluster).isSome

def execFrb (d : GReg) (l : BitVec 4) (s : State) : Out :=
  withRegs s [d] fun _ =>
    if frbWaits s then retryLater s
    else
      let (s, w) := beginRegion s
      issueStatus s d l w

/-- A WAITING region may begin its commit (R266): a granule that it has written in a page that runs remote is not being written by
another agent (log 76). -/
def mayCommit (s : State) (rid : Nat) : Bool :=
  let r := s.region rid
  r.st == .waiting && r.preds.isEmpty && decide (r.clearAt ≤ s.cycle)
    && !r.writes.any fun n => isRemote n && granuleBusy s (s.strandPart r.holder) none (remoteVa n)

/-- The commit, and the completion of the FRE that waits for it (R266, R271). What the home orders before the commit may abort the
region, which then does not commit. -/
def commitWait (s : State) (rid : Nat) : State :=
  let s := beforeCommit s rid
  if mayCommit s rid then
    let id := (s.region rid).holder
    let s := commitRegion s rid
    match (s.strand id).run with
    | .wait (.fre d) _ => s.modStrand id fun t => t.finishWait [(d, status .ok)] (status .ok)
    | _ => s
  else s

/-- FRE (R271). A poll (e = 0) commits at once where it may. -/
def execFre (d : GReg) (e : BitVec 5) (s : State) : Out :=
  withRegs s [d] fun t =>
    match t.region with
    | none => s.setCur (t.report d (status .invalid)).next
    | some rid =>
      let r := s.region rid
      if r.st = .aborted then
        let s := endRegion s rid r.code r.detail
        s.setCur (s.cur.report d (abortWord r)).next
      else
        let s := waitOn (s.setRegion rid { r with st := .waiting }) (.fre d) e
        if e = 0 ∧ mayCommit s rid then commitWait s rid else s

/-- FRABORT (R272). -/
def execFrabort (s : State) : Out :=
  .next
    (match s.cur.region with
    | none => s.setCur (s.cur.statusNext (status .invalid))
    | some rid =>
      let s := abortRegion s rid .abortExplicit 0
      let r := s.region rid
      let s := endRegion s rid r.code r.detail
      s.setCur (s.cur.statusNext (abortWord r)))

/-- The word of FRSTAT (R273). -/
def frstatWord (s : State) (a : Word) : Word :=
  let rid := wbits a 25 16
  if a.toNat ≠ rid * 65536 then status .invalid
  else if !s.partHas s.curPart (rid / 32) then status .refused
  else
    let r := s.region rid
    let (st, last) := match r.st with
      | .free => (0, r.code)
      | .live => (1, 0)
      | .waiting => (2, 0)
      | .aborted => (3, r.code)
    BitVec.ofNat 64 (st * 2 ^ 8 + last * 2 ^ 16 + r.preds.length * 2 ^ 24 + r.reads.length * 2 ^ 28 + r.writes.length * 2 ^ 37)

def execFrstat (d a : GReg) (l : BitVec 4) (s : State) : Out :=
  withRegs s [d, a] fun t => issueStatus s d l (frstatWord s (t.read a))

/-- REGION_COMMIT: a WAITING region begins and ends its commit (R266); the FRE of one that was aborted in an earlier g-cycle
completes (R265, R271). -/
def execRegionCommit (rid : Nat) (s : State) : Out :=
  .next
    (if mayCommit s rid then commitWait s rid
     else if (s.region rid).st = .aborted ∧ (s.region rid).abortAt < s.cycle then finishFre s rid
     else s)

/-- The depth bound still holds an access of a strand's region back (R262). -/
def depthHolds (s : State) (t : Strand) (sector : Nat) (wr : Bool) : Bool :=
  match t.region with
  | none => false
  | some r =>
    match judge s r sector wr with
    | .held => true
    | _ => false

/-- HELD_ACCESS_REJUDGE: a strand held by the depth bound issues its access again once the bound lets it pass, and it is
judged afresh (R262). -/
def execHeldAccessRejudge (id : Nat) (s : State) : Out :=
  .next (s.modStrand id fun t =>
    match t.run with
    | .stall (.depth sector wr) => if t.halted ∨ depthHolds s t sector wr then t else { t with run := .ready }
    | _ => t)

end Sys2Proof.Machine
end

