-- ==== Sys2Proof/Machine/EvStrand.lean ====
section
/-! DEFINITION. Happenings at a strand: asynchronous traps and STIMER (17 R365, R369), the ends of waits (02 R43), kills (02 R42),
answers (02 R31), end notices (02 R41); and those of the store buffer, of update-only lines and of home slices (04 R91, R100;
17 R385). A happening that is not due leaves the state as it is. -/

namespace Sys2Proof.Machine

/-- ASYNC_TRAP_ENTRY (R369). -/
def execAsyncTrapEntry (id : Nat) (s : State) : Out := .next (if asyncDue (s.strand id) then takeAsync s id else s)

/-- STIMER_EXPIRY: the last g-cycle of STIMER passes, and a TIMER trap is due (R365). -/
def execStimerExpiry (id : Nat) (s : State) : Out :=
  .next
    (let t := s.strand id
     if t.stimer = 1 ∧ !t.intrap ∧ !t.halted then s.setStrand id { t with stimer := 0, timerDue := true } else s)

/-- The region of a strand that waits in FRE may commit. -/
def freCommits (s : State) (t : Strand) : Option Nat :=
  match t.run with
  | .wait (.fre _) _ => t.region.filter (mayCommit s)
  | _ => none

/-- WAIT_TIMEOUT: a wait whose deadline has passed completes if it can, and else expires (R43), unless a trap is to end it (R369). -/
def execWaitTimeout (id : Nat) (s : State) : Out :=
  .next
    (let t := s.strand id
     if t.halted ∨ !deadlinePassed s t ∨ asyncDue t then s
     else
       match freCommits s t with
       | some rid => commitWait s rid
       | none =>
         let s := settleWait s id
         if deadlinePassed s (s.strand id) then expireWait s id else s)

/-- KILL_EFFECT: a kill takes effect at the victim's boundary (R42). -/
def execKillEffect (id : Nat) (s : State) : Out :=
  .next
    (let t := s.strand id
     if t.killDue ∧ !t.halted ∧ t.run ≠ .free ∧ t.run ≠ .bound then killNow s id else s)

/-- END_NOTICE_ARRIVAL: an end notice reaches the parent's core (R41). -/
def execEndNoticeArrival (parent child : Nat) (s : State) : Out :=
  .next
    (match s.notes.find? fun n => n.1 == parent && n.2.child == child with
    | none => s
    | some n =>
      let s := { s with notes := s.notes.erase n }
      match (s.tasks.find parent).map fun t => t.st with
      | some (TaskSt.running id) =>
        settleWait (s.modStrand id fun t => { t with notices := t.notices ++ [n.2], children := t.children - 1 }) id
      | _ => s)

/-! ## Answers -/

/-- The atomic of a strand that stands first at its slice. -/
def atomTurn (s : State) (id k : Nat) : Option Atom :=
  (s.atoms.find? fun a => a.isOf id && a.k == k).filter fun a =>
    a.admitted && (s.atoms.find? fun b => b.slice == a.slice && b.admitted) == some a

/-- An admitted atomic is performed at its slice, and its old value reaches the strand (R54, R97, R209); data poisoned by then
traps (R199). A comparison that holds and releases at system scope is performed once its strand's puts are acknowledged, and traps when
one is lost (R88, R92, R447). -/
def serveAtom (s : State) (id : Nat) (p : Pending) (loc : Loc) : State :=
  match atomTurn s id p.id with
  | none => s
  | some a =>
    let u := { s with atoms := s.atoms.erase a }
    let u := commitEarly u loc (atomBytes p.act)
    let perform (u : State) : State :=
      let (u, v) := performAtom u id loc p.act
      completeAway u id p.id v
    if isPoisoned u loc then failAway u id p.id .machine 1 p.va
    else if systemFirst u loc p.act then
      let u := release u id .system 0
      if corePuts u (strandCore id) then { u with atoms := s.atoms }
      else
        match (u.strand id).lostPut with
        | some va => failAway (u.modStrand id fun t => { t with lostPut := none }) id p.id .machine 2 va
        | none => perform u
    else perform u

/-- An outstanding result arrives, where its bytes are in the device. -/
def arrivePend (s : State) (id : Nat) (p : Pending) : State :=
  match p.act with
  | .amo _ _ _ _ _ l => serveAtom s id p l
  | .cas _ _ _ _ _ l _ => serveAtom s id p l
  | .cas2 _ _ _ _ _ _ l _ => serveAtom s id p l
  | _ => deliverPend s id p

/-- A write of an operand slot that is under way reaches it; what it covers is kept for the context's own routines. -/
def landSlot (s : State) (id : Nat) (f : InFlight) : State :=
  match f.dest with
  | .slot o off bs =>
    let old := s.opmem.bytes (slotBase (ctxChisel id) o + off) bs.length
    (landOne s id f.dest).modCtx id fun c => { c with flight := c.flight ++ [⟨f.left, .past o off old⟩] }
  | _ => s.modCtx id fun c => { c with flight := c.flight ++ [f] }

/-- Writes of operand slots that are under way reach them in their order (R302). The context's own routines go on reading the bytes that
each of them covers, until its latency has passed (R292). -/
def landSlots (s : State) (id : Nat) : State :=
  let c := s.ctx id
  c.flight.foldl (fun s f => landSlot s id f) (s.setCtx id { c with flight := [] })

/-- Every result of a context's bundles has reached its destination (R302), or can. -/
def resultsReached (s : State) (id : Nat) : Bool :=
  !routineRuns s id && (s.chisel (ctxChisel id)).accLog.all fun w => w.ctx != id || decide (w.cycle + 3 * w.latency ≤ s.cycle)

/-- AWAITED_RESULT_ARRIVAL: an outstanding result of a strand arrives (R31), or what a context that is HELD awaits (R50). -/
def execAwaitedResultArrival (who : Awaiter) (s : State) : Out :=
  .next
    (match who with
    | .strand id k =>
      match (s.strand id).pend.find? fun p => p.id == k with
      | some p => arrivePend s id p
      | none => s
    | .context id =>
      if (s.ctx id).run = .held none ∧ !(s.ctx id).frozenBy ∧ resultsReached s id then
        (landSlots s id).modCtx id fun c => { c with run := .ready }
      else s)

/-! ## Stores, update-only lines, atomics -/

/-- STORE_COMMIT: the k-th store of a core's buffer commits, unless an earlier one overlaps it (R91). -/
def execStoreCommit (core k : Nat) (s : State) : Out :=
  .next
    (let l := (s.core core).stores
     match l[k]? with
     | none => s
     | some b =>
       if (l.take k).any fun x => locOverlap x.loc x.bytes.length b.loc b.bytes.length then s
       else commitOne (s.modCore core fun c => { c with stores := c.stores.eraseIdx k }) b)

/-- RED_RECALL: a core's partials of a line reach memory (R100). -/
def execRedRecall (line core : Nat) (s : State) : Out := .next (recallCore s line core)

end Sys2Proof.Machine
end

