-- ==== Sys2Proof/Machine/EvTasks.lean ====
section
/-! DEFINITION. Happenings that place a task and start it (02 R28 to R30, R35 to R37) and deliver reports that wait (02 R47). -/

namespace Sys2Proof.Machine

/-! ## Binding -/

/-- The FREE strands of a core, the lowest-numbered first (R35). -/
def freeStrands (s : State) (core : Nat) : List Nat :=
  ((List.range 16).map fun i => 16 * core + i).filter fun id => (s.strand id).run == .free && !(s.strand id).halted

def modTask (s : State) (tid : Nat) (f : Task → Task) : State :=
  { s with tasks := s.tasks.map fun (k, x) => (k, if k = tid then f x else x) }

/-- A task is bound to a strand (R31, R212). -/
def bindTask (s : State) (tid id : Nat) : State :=
  modTask (s.modStrand id fun t => { t with run := .bound, task := tid, mailbox := [] }) tid fun x => { x with st := .staging id }

/-- The order in which contending tasks are served (R36): PRIO, then arrival, then id. -/
def servedBefore (a b : Nat × Task) : Bool :=
  let pa := placePrio a.2.desc.place
  let pb := placePrio b.2.desc.place
  decide (pb < pa) || (pa == pb && (decide (a.2.arrival < b.2.arrival) || (a.2.arrival == b.2.arrival && decide (a.1 < b.1))))

def manhattan (x y x' y' : Nat) : Nat := (max x x' - min x x') + (max y y' - min y y')

/-- The core a task makes for: its hint, or its bound core in LOGICAL mode (R35, R37). -/
def hintCore (s : State) (t : Task) : Option Nat := if t.logical then some t.start else targetCore (launchMode s t.launch) t.desc

/-- A task contends for the FREE strands of a core (R35 to R37): a walking one that stands there within its radius, one that is
parked there, or one in LOGICAL mode that is bound to it. -/
def offered (s : State) (core : Nat) (t : Task) : Bool :=
  match t.st, hintCore s t with
  | .walking xy, some h =>
    xy == coreXY core && decide (t.nextAt ≤ s.cycle)
      && decide (manhattan (coreX core) (coreY core) (coreX h) (coreY h) ≤ placeRadius t.desc.place)
  | .parked c, _ => c == core
  | .queued _, some h => t.logical && h == core
  | _, _ => false

/-- How many tasks that meet a condition are served before one of them (R36). -/
def ahead (s : State) (f : Nat × Task → Bool) (a : Nat × Task) : Nat := s.tasks.countP fun b => f b && servedBefore b a

/-- The strand of a core that a contending task takes: those served before it take lower-numbered ones (R35, R36). -/
def strandFor (s : State) (core : Nat) (a : Nat × Task) : Option Nat :=
  if offered s core a.2 then (freeStrands s core)[ahead s (fun b => offered s core b.2) a]? else none

/-- A task without a strand contends for the parking queue of its hint core: it stands there, or is held in the cluster's
queue, or is bound to the core (R35 to R37). -/
def wantsPlace (s : State) (core : Nat) (a : Nat × Task) : Bool :=
  hintCore s a.2 == some core && (strandFor s core a).isNone
    && (match a.2.st with
        | .walking xy => xy == coreXY core && decide (a.2.nextAt ≤ s.cycle)
        | .queued _ => a.2.logical || a.2.held
        | _ => false)

/-- The parking queue of a core takes a task: those that contend for it, held ones too, are served by PRIO, then in the order of arrival (R36;
log 101). -/
def placeFor (s : State) (core : Nat) (a : Nat × Task) : Bool :=
  wantsPlace s core a && decide ((s.core core).parked.length + ahead s (wantsPlace s core) a < 64)

/-- A task at its hint core whose parking queue is full waits for an entry of the cluster's queue, in arrival order (R35). -/
def wantsEntry (s : State) (cluster : Nat) (a : Nat × Task) : Bool :=
  match a.2.st, hintCore s a.2 with
  | .walking _, some h => h / 16 == cluster && wantsPlace s h a && !placeFor s h a
  | _, _ => false

def entryFor (s : State) (cluster : Nat) (a : Nat × Task) : Bool :=
  let earlier (b : Nat × Task) : Bool := wantsEntry s cluster b
    && (decide (b.2.arrival < a.2.arrival) || (b.2.arrival == a.2.arrival && decide (b.1 < a.1)))
  wantsEntry s cluster a && decide ((s.cluster cluster).queue.length + s.tasks.countP earlier < 1024)

/-- The next position on the dimension-order route: x first, then y (R35). -/
def nextHop (xy h : Nat) : Nat :=
  let x := xy % 256
  let y := xy / 256
  let hx := h % 256
  let hy := h / 256
  if x < hx then xy + 1 else if hx < x then xy - 1 else if y < hy then xy + 256 else xy - 256

/-- A task leaves the queue of its cluster, if it stands in one. -/
def leaveQueue (s : State) (tid : Nat) (t : Task) : State :=
  match t.st with
  | .queued c => s.modCluster c fun x => { x with queue := x.queue.filter (· != tid) }
  | _ => s

/-- A task without a strand at the core it makes for: it parks, or is held in the cluster's queue, or waits where it is (R35). -/
def parkTask (s : State) (core : Nat) (a : Nat × Task) : State :=
  let (tid, t) := a
  if placeFor s core a then
    modTask ((leaveQueue s tid t).modCore core fun c => { c with parked := c.parked ++ [tid] }) tid fun x =>
      { x with st := .parked core, held := false }
  else if entryFor s (core / 16) a then
    modTask (s.modCluster (core / 16) fun x => { x with queue := x.queue ++ [tid] }) tid fun x =>
      { x with st := .queued (core / 16), held := true }
  else s

/-- A walking task where it stands: taken there, or parked at its hint, or on to the next position, 4 g-cycles away (R35). -/
def walkAt (s : State) (tid h xy : Nat) (t : Task) : State :=
  let on : State := modTask s tid fun x => { x with st := .walking (nextHop xy (coreXY h)), nextAt := s.cycle + 4, arrival := s.cycle + 4 }
  if s.cycle < t.nextAt then s
  else
    match coreAt (xy % 256) (xy / 256) with
    | none => on
    | some core =>
      match strandFor s core (tid, t) with
      | some id => bindTask s tid id
      | none => if core = h then parkTask s core (tid, t) else on

/-- A queued task (R35, R37): one in LOGICAL mode is taken by its core or parks there, one held after its walk tries to park, and
another starts its walk. -/
def placeQueued (s : State) (tid h : Nat) (t : Task) : State :=
  if t.logical then
    match strandFor s h (tid, t) with
    | some id => bindTask (leaveQueue s tid t) tid id
    | none => parkTask s h (tid, t)
  else if t.held then parkTask s h (tid, t)
  else
    let u : Task := { t with st := .walking (coreXY t.start), nextAt := s.cycle, arrival := s.cycle }
    let s := modTask (leaveQueue s tid t) tid fun _ => u
    walkAt s tid h (coreXY t.start) u

/-- TASK_WALK_HOP: a task that waits to be placed is looked at (R35 to R37). -/
def execTaskWalkHop (tid : Nat) (s : State) : Out :=
  .next
    (match s.tasks.find tid with
    | none => s
    | some t =>
      match hintCore s t with
      | none => s
      | some h =>
        if s.stopping t.part then s
        else
          match t.st with
          | .queued _ => placeQueued s tid h t
          | .walking xy => walkAt s tid h xy t
          | _ => s)

/-- PARKED_TASK_RELEASE: parked tasks take the FREE strands of their core as it serves them (R36). -/
def execParkedTaskRelease (core : Nat) (s : State) : Out :=
  .next
    (if s.stopping ((s.clusterPart (core / 16)).getD 0) then s
     else
       match (s.core core).parked.findSome? fun tid => (s.tasks.find tid).bind fun t => (strandFor s core (tid, t)).map fun id => (tid, id) with
       | some (tid, id) => bindTask (s.modCore core fun c => { c with parked := c.parked.filter (· != tid) }) tid id
       | none => s)

/-! ## Staging -/

/-- The strand at dispatch (R30, R361). Its mailbox, the numbering of its results, its turn in the rotation (R32) and a PREEMPT
trap that is due (R375) go on. -/
def dispatched (s : State) (t : Strand) (tid id part : Nat) (r : TaskRec) : Strand :=
  let args : List Word := r.args ++ [BitVec.ofNat 64 (padAddr (footprintBase id)), BitVec.ofNat 64 tid]
  { windows := [Vector.ofFn fun i => args.getD i.val 0], pc := BitVec.ofNat 64 r.entry, run := .ready, task := tid,
    taskSink := BitVec.ofNat 64 r.sink, tvec := (s.part part).tvec0, mailbox := t.mailbox, pendNext := t.pendNext,
    lastIssue := t.lastIssue, preemptDue := t.preemptDue }

/-- The granules that a footprint names, in order. -/
def footprintGranules (r : TaskRec) : List Nat :=
  r.fps.flatMap fun f => (List.range (f.2 / 32)).map fun i => (f.1 + 32 * i) % 2 ^ 52

/-- What the copy of one granule meets: its bytes and whether they are poisoned, a fault, or something that it waits for. -/
inductive Copied where
  | bytes (s : State) (bs : List Byte) (pois : Bool)
  | fault (s : State) (c : Cause)
  | wait (s : State)

/-- A granule of a place in the device, read as an acquire at device scope (R28). -/
def copyAt (s : State) (l : Loc) : Copied :=
  let s := recallLoc (commitEarly s l 32) l
  .bytes s (rawRead s l 32) (isPoisoned s l)

/-- A granule of a page by the tree; through the Compaction aperture a compressed page is read granule by granule (R79, R407). -/
def copyPaged (s : State) (part va : Nat) (aperture : Bool) : Copied :=
  let fault (c : Cause) : Copied := .fault (noteWalk s part (dieOf s.curCluster) s.curCluster va c) c
  if pageAway s part va then .wait (askPage s part va)
  else
    match treeAddr s part va (permR + permU), walk s part va with
    | .ok l, _ => copyAt s l
    | .error .perm, .leaf e _ _ =>
      (match aperture && grants e (permR + permU), surfaceOf s part (leafAddr e) with
      | true, some f => ((decompress s f va).map (copyAt s)).getD (fault .page)
      | _, _ => fault .perm)
    | .error c, _ => fault c

/-- A granule of the acting strand's footprint, as its task's own load would meet it (R28, R58, R394): a line of a peer is asked
for, once. -/
def copyGranule (s : State) (part va : Nat) : Copied :=
  match window va with
  | 8 =>
    (match padDecode va with
    | none => .fault s .page
    | some a =>
      if a / 2 ^ 18 / 24 ≠ s.curCluster then .fault s .perm
      else if ((posOf a).map fun p => (s.desc p).st) = some .writing then .fault s .rangeLocked
      else copyAt s (.spad a))
  | 9 => (match tableRecord s part va with
    | .ok bs => .bytes s bs false
    | .error c => .fault s c)
  | 10 => copyPaged s part (va % 2 ^ 48) true
  | 11 => .fault s .page
  | 12 =>
    (match peerCheck s va, s.cur.got.find? fun g => g.1 == va with
    | .error c, _ => .fault s c
    | .ok _, some (_, [c]) => .fault s (Cause.ofCode c.toNat)
    | .ok _, some (_, bs) => .bytes s bs false
    | .ok (p, o), none =>
      match peerBytes s p o 32 with
      | some bs => .bytes s bs false
      | none =>
        if !s.cur.pend.isEmpty then .wait s
        else
          .wait (sendRequest (s.setCur (s.cur.addPend 0 (.piece 32) va)) 3 (.strand s.strandId s.cur.pendNext)
            (request s p part (o / 64 * 64) (fillAux s p o) [])))
  | 13 => .fault s .perm
  | 14 => (match seqAddr s part va with
    | .ok (_, _, pa) => copyAt s (.mem pa)
    | .error c => .fault s c)
  | 15 => .fault s .perm
  | _ => copyPaged s part va false

/-- What the copy of a footprint comes to: done, the fault of a granule with its index, or a wait. -/
inductive CopyEnd where
  | done (s : State)
  | fault (s : State) (c : Cause) (va i : Nat)
  | wait (s : State)

/-- Copy granules into a footprint area with their poison (R28, R454; log 43). -/
def copyFootprint (part base : Nat) : Nat → List Nat → State → CopyEnd
  | _, [], s => .done s
  | i, va :: vs, s =>
    match copyGranule s part va with
    | .bytes s bs pois => copyFootprint part base (i + 1) vs (markedWrite s (.spad (base + 32 * i)) bs pois)
    | .fault s c => .fault s c va i
    | .wait s => .wait s

/-- A failed copy ends the task with FAULT and a report of kind 3 (R29, R48). -/
def footprintFault (s : State) (id : Nat) (t : Task) (c : Cause) (va i : Nat) : State :=
  let r : Report := ⟨c.num, (s.strand id).task, 3, va, i, t.desc.sink, t.part, t.launch, false⟩
  sinkReport (endTask s id (.fault c.num) 0) (strandCluster id) r

/-- Stores still buffered for a strand's footprint area and loads of it still outstanding come before the copy. -/
def settleArea (s : State) (id : Nat) : State :=
  let inArea (l : Loc) (n : Nat) : Bool := locOverlap (.spad (footprintBase id)) 8192 l n
  fixAll (flushAll s fun b => inArea b.loc b.bytes.length) inArea

/-- FOOTPRINT_COPY: the footprint of a BOUND strand's task is copied, and the strand is dispatched (R28 to R31). -/
def execFootprintCopy (id : Nat) (s : State) : Out :=
  .next
    (let u := s.strand id
     match s.tasks.find u.task with
     | none => s
     | some t =>
       if u.run ≠ .bound ∨ u.halted ∨ s.stopping t.part then s
       else
         match copyFootprint t.part (footprintBase id) 0 (footprintGranules t.desc) (settleArea { s with strandId := id } id) with
         | .wait s => s
         | .fault s c va i => footprintFault s id t c va i
         | .done s =>
           modTask (s.setStrand id (dispatched s (s.strand id) u.task id t.part t.desc)) u.task fun x => { x with st := .running id })

/-! ## Reports -/

/-- The sink's mailbox exists and has room. -/
def sinkReady (s : State) (r : Report) : Option Nat :=
  (taskStrand s r.part r.sink).filter fun id => decide ((s.strand id).mailbox.length < 16)

/-- A report for a launch fault mailbox tries its pages again, any other goes when its sink is ready. -/
def reportReady (s : State) (r : Report) : Bool := r.box || (sinkReady s r).isSome

/-- FAULT_REPORT_DELIVERY: the oldest report of a cluster's queue that can be delivered reaches its sink, or its launch fault
mailbox once the pages of that are here (R47, R421). -/
def execFaultReportDelivery (cluster : Nat) (s : State) : Out :=
  .next
    (match (s.cluster cluster).reports.find? (reportReady s) with
    | none => s
    | some r =>
      let s := s.modCluster cluster fun c => { c with reports := c.reports.erase r }
      if r.box then launchReport s cluster r
      else ((sinkReady s r).bind fun id => enqueue s id ⟨2, r.task, reportWords r⟩).getD s)

end Sys2Proof.Machine
end

