-- ==== Sys2Proof/Machine/EvTrans.lean ====
section
/-! DEFINITION. Happenings of translation: TLB fills (18 R390 to R393), swaps (18 R399), requests and moves of
host-shared pages (18 R402 to R404). -/

namespace Sys2Proof.Machine

/-- What a fill finds (R390, R393, R403). -/
inductive Filled where
  | entry (s : State) (e : Entry)
  | nothing (s : State)
  | wait (s : State)

/-- A fill of a host-shared page asks the migration agent (R402 to R404). -/
def fillShared (s : State) (part va e : Nat) : Filled :=
  let p := s.page part va
  if p.moving.isSome then .wait s
  else if p.device then .entry s (entryOf s part va e)
  else
    match p.hold with
    | some (true, c) =>
      if s.cycle < c then .entry s { entryOf s part va e with until_ := some c } else .wait (askPage s part va)
    | _ => .wait (askPage s part va)

/-- The service core walks the tree (R390). A malformed entry is recorded (R455). -/
def fillFor (s : State) (part cluster va : Nat) : Filled :=
  match walk s part va with
  | .none => .nothing s
  | .malformed _ => .nothing (noteWalk s part (dieOf cluster) cluster va .page)
  | .leaf e _ _ => if leafKind e = 2 then fillShared s part va e else .entry s (entryOf s part va e)

/-- Write an entry, in place of any that overlaps its page (R392). -/
def tlbFill (cap : Nat) (l : List Entry) (e : Entry) : List Entry :=
  tlbInsert cap (l.filter fun x => !(x.part == e.part && overlap x.base (2 ^ x.bits) e.base (2 ^ e.bits))) e

/-- A strand's fill has ended. -/
def wakeTlb (t : Strand) (none_ : Option Nat) : Strand := { t with run := .ready, fillNone := none_ }

/-- The fill that a strand waits for. That of a strand that is SUSPENDED meanwhile still writes its entry (R376), and the access issues
again when the partition resumes. -/
def fillStrand (s : State) (id : Nat) : State :=
  let t := s.strand id
  match t.run with
  | .stall (.tlb va _) =>
    if t.halted && (s.core (strandCore id)).tlb.any (entryHits (s.strandPart id) va) then s
    else
      let wake (none_ : Option Nat) (t : Strand) : Strand := if t.halted then t else wakeTlb t none_
      match fillFor s (s.strandPart id) (strandCluster id) va with
      | .entry s e => (s.modCore (strandCore id) fun c => { c with tlb := tlbFill 64 c.tlb e }).modStrand id (wake none)
      | .nothing s' => if t.halted then s else s'.modStrand id (wake (some (va / 65536)))
      | .wait s => s
  | _ => s

/-- The fill that a chisel context waits for (R294). -/
def fillContext (s : State) (id : Nat) : State :=
  let c := s.ctx id
  let ch := ctxChisel id
  match c.run with
  | .held (some va) =>
    if c.frozenBy && (s.chisel ch).tlb.any (entryHits c.part va) then s
    else
      match fillFor s c.part (chiselCluster ch) va with
      | .entry s e =>
        (s.modChisel ch fun x => { x with tlb := tlbFill 16 x.tlb e }).modCtx id fun c => if c.frozenBy then c else { c with run := .ready }
      | .nothing s' => if c.frozenBy then s else chiselTrap s' id .page va
      | .wait s => s
  | _ => s

/-- The fill that an engine element waits for (R397). -/
def fillEngine (s : State) (k : Nat) : State :=
  match s.ops.find k with
  | none => s
  | some o =>
    match o.miss with
    | none => s
    | some va =>
      let cl := strandCluster o.strand
      match fillFor s o.part cl va with
      | .entry s e =>
        let s := s.modCluster cl fun c => { c with tlb := tlbFill 256 c.tlb e }
        { s with ops := s.ops.put k { o with miss := none, missNone := false } }
      | .nothing s => { s with ops := s.ops.put k { o with missNone := true } }
      | .wait s => s

/-- TLB_FILL (R393). -/
def execTlbFill (who : TlbUser) (s : State) : Out :=
  .next
    (match who with
    | .strand id => fillStrand s id
    | .context id => fillContext s id
    | .engine k => fillEngine s k)

/-- SWAP_LINE_MOVE (R399); what the swap queue has still to do is tried again (R398). -/
def execSwapLineMove (k : Nat) (s : State) : Out := .next (settleSwaps (moveLine s k))

/-- MIGRATION_REQUEST: the migration agent takes a request (R402). A device request is one that a fill has made. -/
def execMigrationRequest (part va : Nat) (byHost : Bool) (s : State) : Out :=
  .next (if byHost ∨ (s.page part va).waiting then requestPage s part va byHost else s)

/-- PAGE_MOVE (R403, R436). -/
def execPageMove (part va : Nat) (s : State) : Out := .next (movePage s part va)

/-- Strands that stall until a g-cycle that has come issue again (R404). -/
def wakeHeld (s : State) (part va : Nat) : State :=
  let due (id : Nat) (t : Strand) : Bool :=
    match t.run with
    | .stall (.remote v c) => decide (c ≤ s.cycle) && v / 65536 == va / 65536 && !t.halted && s.strandPart id == part
    | _ => false
  { s with strands := s.strands.map fun (id, t) => (id, if due id t then { t with run := .ready } else t) }

/-- HOLD_END: the hold of a page ends, and its remote translations are dropped (R402, R404). -/
def execHoldEnd (part va : Nat) (s : State) : Out := .next (wakeHeld (endHold s part va) part va)

end Sys2Proof.Machine
end

