-- ==== Sys2Proof/Machine/GrainFp.lean ====
section
/-! DEFINITION. Meanings of the FPU major (07 R182 to R185). -/

namespace Sys2Proof.Machine

/-- d := result, flags into FSTAT, next word. -/
def fpWrite (s : State) (t : Strand) (d : GReg) (r : Nat × Nat) : State :=
  s.setCur ((t.write d (BitVec.ofNat 64 r.1)).raise r.2).next

/-- d := f a b in FP32 under FRMODE. -/
def fpu (d a b : GReg) (f : Rm → Word → Word → Nat × Nat) (s : State) : Out :=
  withRegs s [d, a, b] fun t => fpWrite s t d (f t.frmode (t.read a) (t.read b))

def execFadd (d a b : GReg) (s : State) : Out := fpu d a b (fun rm x y => fpAdd fp32 rm (fpOf x) (fpOf y)) s
def execFsub (d a b : GReg) (s : State) : Out := fpu d a b (fun rm x y => fpAdd fp32 rm (fpOf x) (fpOf y).neg) s
def execFmul (d a b : GReg) (s : State) : Out := fpu d a b (fun rm x y => fpMul fp32 rm (fpOf x) (fpOf y)) s
/-- FFMA reads d as its addend (R150). -/
def execFfma (d a b : GReg) (s : State) : Out :=
  withRegs s [d, a, b] fun t =>
    fpWrite s t d (fpFma fp32 t.frmode (fpOf (t.read a)) (fpOf (t.read b)) (fpOf (t.read d)))
def execFmin (d a b : GReg) (s : State) : Out :=
  fpu d a b (fun _ x y => fpMinMax fp32 false (x.toNat % 2 ^ 32) (y.toNat % 2 ^ 32)) s
def execFmax (d a b : GReg) (s : State) : Out :=
  fpu d a b (fun _ x y => fpMinMax fp32 true (x.toNat % 2 ^ 32) (y.toNat % 2 ^ 32)) s
def execFcmp (c : FCond) (d a b : GReg) (s : State) : Out :=
  fpu d a b (fun _ x y => ((boolWord (fcompare c x y).1).toNat, (fcompare c x y).2)) s

/-- A long-latency result: value and flags are delivered together (R127). -/
def fpLong (d a : GReg) (l : BitVec 4) (f : Rm → Fp → Nat × Nat) (s : State) : Out :=
  withRegs s [d, a] fun t =>
    let r := f t.frmode (fpOf (t.read a))
    issueLong s l (.ready { regs := [(d, BitVec.ofNat 64 r.1)], flags := r.2 }) 0

def execFsqrt (d a : GReg) (l : BitVec 4) (s : State) : Out := fpLong d a l (fpSqrt fp32) s
def execFrcp (d a : GReg) (l : BitVec 4) (s : State) : Out := fpLong d a l (fpRcp fp32) s

/-- FCVT between floats; a reserved type traps FMT (R150, R185). -/
def execFcvtFloat (d a : GReg) (t src : FmtCode) (sat : Bool) (s : State) : Out :=
  withRegs s [d, a] fun u =>
    match fmtOf t.toNat, fmtOf src.toNat with
    | some f, some g => fpWrite s u d (fpConvert f u.frmode sat (fpDecode g ((u.read a).toNat % 2 ^ g.width)))
    | _, _ => trap s .fmt

def execFcvtToInt (d a : GReg) (t src : FmtCode) (s : State) : Out :=
  withRegs s [d, a] fun u =>
    match intType t.toNat, fmtOf src.toNat with
    | some ty, some g =>
      let r := toIntType ty u.frmode (fpDecode g ((u.read a).toNat % 2 ^ g.width))
      s.setCur ((u.write d (BitVec.ofInt 64 r.1)).raise r.2).next
    | _, _ => trap s .fmt

def execFcvtFromInt (d a : GReg) (t src : FmtCode) (s : State) : Out :=
  withRegs s [d, a] fun u =>
    match fmtOf t.toNat, intType src.toNat with
    | some f, some ty =>
      let z := intRead ty (u.read a)
      fpWrite s u d (fpRound f u.frmode false (decide (z < 0)) z.natAbs 0)
    | _, _ => trap s .fmt

end Sys2Proof.Machine
end

