-- ==== Sys2Proof/Machine/GrainInt.lean ====
section
/-! DEFINITION. Meanings of the INT major and the immediate majors (07 R170 to R181). -/

namespace Sys2Proof.Machine

/-- d := f a b, then the following word (R171). -/
def alu (d a b : GReg) (f : Word → Word → Word) (s : State) : Out :=
  withRegs s [d, a, b] fun t => s.setCur (t.write d (f (t.read a) (t.read b))).next

/-- d := f a. -/
def alu1 (d a : GReg) (f : Word → Word) (s : State) : Out :=
  withRegs s [d, a] fun t => s.setCur (t.write d (f (t.read a))).next

/-- A long-latency d := f a b: operands are read at issue (R141, R171). -/
def longAlu (d a b : GReg) (l : BitVec 4) (f : Word → Word → Word) (s : State) : Out :=
  withRegs s [d, a, b] fun t => issueLong s l (.ready { regs := [(d, f (t.read a) (t.read b))] }) 0

/-- The 128-bit products (R172). -/
def mulHigh (a b : Word) : Word := BitVec.ofInt 64 (a.toInt * b.toInt / 2 ^ 64)
def mulHighN (a b : Word) : Word := BitVec.ofNat 64 (a.toNat * b.toNat / 2 ^ 64)

/-- Shift amounts are bits 5..0 (R172). -/
def amount (b : Word) : Nat := b.toNat % 64

/-- Division as R174 gives it. -/
def divS (a b : Word) : Word := if b = 0 then BitVec.allOnes 64 else BitVec.ofInt 64 (a.toInt.tdiv b.toInt)
def divU (a b : Word) : Word := if b = 0 then BitVec.allOnes 64 else BitVec.ofNat 64 (a.toNat / b.toNat)
def remS (a b : Word) : Word := if b = 0 then a else BitVec.ofInt 64 (a.toInt.tmod b.toInt)
def remU (a b : Word) : Word := if b = 0 then a else BitVec.ofNat 64 (a.toNat % b.toNat)

/-- Leading zeros, trailing zeros, set bits (R172). -/
def clz64 (a : Word) : Nat := 64 - bitLen a.toNat
def ctz64 (a : Word) : Nat := ((List.range 64).find? fun i => a.getLsbD i).getD 64
def popcount (a : Word) : Nat := (List.range 64).countP fun i => a.getLsbD i

/-- BEXT and BDEP (R176): bits 0 to 63 of the mask in turn; j counts the set ones so far. -/
def bextLoop (a b : Word) : Nat → Nat → Nat → Nat
  | 0, _, _ => 0
  | n + 1, i, j =>
    if b.getLsbD i then (a.getLsbD i).toNat * 2 ^ j + bextLoop a b n (i + 1) (j + 1) else bextLoop a b n (i + 1) j
def bdepLoop (a b : Word) : Nat → Nat → Nat → Nat
  | 0, _, _ => 0
  | n + 1, i, j =>
    if b.getLsbD i then (a.getLsbD j).toNat * 2 ^ i + bdepLoop a b n (i + 1) (j + 1) else bdepLoop a b n (i + 1) j
def bext64 (a b : Word) : Word := BitVec.ofNat 64 (bextLoop a b 64 0 0)
def bdep64 (a b : Word) : Word := BitVec.ofNat 64 (bdepLoop a b 64 0 0)

/-- CRC32C over the eight bytes of b, bit 0 first (R177). -/
def crc64 (a b : Word) : Word :=
  zext ((List.range 64).foldl (fun c i => crcBit c (b.getLsbD i)) (a.truncate 32 : BitVec 32))

/-- HASH64 (R178). -/
def hash (a b : Word) : Word :=
  let x := a + b.rotateLeft 29
  let x := x ^^^ (x >>> 31)
  let x := x * 0xD6E8FEB86659FD93#64
  let x := x ^^^ (x >>> 27)
  let x := x * 0xCF1BD2A58E03B9D1#64
  x ^^^ (x >>> 33)

/-- The base core of MESHXY (R180). -/
def meshBase (a : Word) : Option (Nat × Nat) :=
  if wbits a 51 48 = 8 then
    let cl := wbits a 27 23
    let ci := wbits a 22 18
    if 23 < ci then none else some (6 * (cl % 8) + ci % 6, 4 * (cl / 8) + ci / 6)
  else unpackXY a.toNat

/-- MESHXY (R180). -/
def meshxy (a b : Word) : Word :=
  match meshBase a with
  | none => 0xFFFF
  | some (x, y) =>
    let x := (x : Int) + (BitVec.ofNat 8 b.toNat).toInt
    let y := (y : Int) + (BitVec.ofNat 8 (b.toNat / 256)).toInt
    if x < 0 ∨ 47 < x ∨ y < 0 ∨ 15 < y then 0xFFFF else BitVec.ofInt 64 (x + 256 * y)

/-- One corner of RECT (R181). -/
def corner (a : Word) : Nat := if a.toNat / 65536 = 0 then a.toNat else 0xFFFF
def rectWord (a b : Word) : Word := BitVec.ofNat 64 (corner a + 65536 * corner b)

/-! ## Register forms -/

def execAdd (d a b : GReg) (s : State) : Out := alu d a b (fun x y => x + y) s
def execSub (d a b : GReg) (s : State) : Out := alu d a b (fun x y => x - y) s
def execMul (d a b : GReg) (s : State) : Out := alu d a b (fun x y => x * y) s
def execMulh (d a b : GReg) (s : State) : Out := alu d a b mulHigh s
def execMulhn (d a b : GReg) (s : State) : Out := alu d a b mulHighN s
def execDiv (d a b : GReg) (l : BitVec 4) (s : State) : Out := longAlu d a b l divS s
def execDivn (d a b : GReg) (l : BitVec 4) (s : State) : Out := longAlu d a b l divU s
def execRem (d a b : GReg) (l : BitVec 4) (s : State) : Out := longAlu d a b l remS s
def execRemn (d a b : GReg) (l : BitVec 4) (s : State) : Out := longAlu d a b l remU s
def execAndG (d a b : GReg) (s : State) : Out := alu d a b (fun x y => x &&& y) s
def execOrG (d a b : GReg) (s : State) : Out := alu d a b (fun x y => x ||| y) s
def execXorG (d a b : GReg) (s : State) : Out := alu d a b (fun x y => x ^^^ y) s
def execAndn (d a b : GReg) (s : State) : Out := alu d a b (fun x y => x &&& ~~~y) s
def execShl (d a b : GReg) (s : State) : Out := alu d a b (fun x y => x <<< amount y) s
def execShr (d a b : GReg) (s : State) : Out := alu d a b (fun x y => x >>> amount y) s
def execSha (d a b : GReg) (s : State) : Out := alu d a b (fun x y => x.sshiftRight (amount y)) s
def execRol (d a b : GReg) (s : State) : Out := alu d a b (fun x y => x.rotateLeft (amount y)) s
def execMinG (d a b : GReg) (s : State) : Out := alu d a b (fun x y => if x.slt y then x else y) s
def execMaxG (d a b : GReg) (s : State) : Out := alu d a b (fun x y => if x.slt y then y else x) s
def execMinn (d a b : GReg) (s : State) : Out := alu d a b (fun x y => if x.ult y then x else y) s
def execMaxn (d a b : GReg) (s : State) : Out := alu d a b (fun x y => if x.ult y then y else x) s
def execClz (d a : GReg) (s : State) : Out := alu1 d a (fun x => BitVec.ofNat 64 (clz64 x)) s
def execCtz (d a : GReg) (s : State) : Out := alu1 d a (fun x => BitVec.ofNat 64 (ctz64 x)) s
def execPopc (d a : GReg) (s : State) : Out := alu1 d a (fun x => BitVec.ofNat 64 (popcount x)) s
/-- SEL reads d as the selector (R172). -/
def execSel (d a b : GReg) (s : State) : Out :=
  withRegs s [d, a, b] fun t => s.setCur (t.write d (if t.read d ≠ 0 then t.read a else t.read b)).next
def execCmp (c : Cond) (d a b : GReg) (s : State) : Out := alu d a b (fun x y => boolWord (holds c x y)) s
def execLea (d a b : GReg) (sh : BitVec 4) (s : State) : Out := alu d a b (fun x y => x + y <<< sh.toNat) s
def execBext (d a b : GReg) (s : State) : Out := alu d a b bext64 s
def execBdep (d a b : GReg) (s : State) : Out := alu d a b bdep64 s
def execCrc32c (d a b : GReg) (s : State) : Out := alu d a b crc64 s
def execHash64 (d a b : GReg) (s : State) : Out := alu d a b hash s
/-- HAMD reads both groups before it writes d (R179). -/
def execHamd (d a b : GReg) (s : State) : Out :=
  withRegs s (d :: groupRegs a ++ groupRegs b) fun t =>
    let n := ((t.group a).zip (t.group b)).map fun (x, y) => popcount (x ^^^ y)
    s.setCur (t.write d (BitVec.ofNat 64 n.sum)).next
def execMeshxy (d a b : GReg) (s : State) : Out := alu d a b meshxy s
def execRect (d a b : GReg) (s : State) : Out := alu d a b rectWord s

/-! ## Immediate forms -/

def execAddi (d a : GReg) (i : BitVec 16) (s : State) : Out := alu1 d a (fun x => x + sext i) s
def execMuli (d a : GReg) (i : BitVec 16) (s : State) : Out := alu1 d a (fun x => x * sext i) s
def execAndi (d a : GReg) (i : BitVec 16) (s : State) : Out := alu1 d a (fun x => x &&& zext i) s
def execOri (d a : GReg) (i : BitVec 16) (s : State) : Out := alu1 d a (fun x => x ||| zext i) s
def execXori (d a : GReg) (i : BitVec 16) (s : State) : Out := alu1 d a (fun x => x ^^^ zext i) s
def execShli (d a : GReg) (n : BitVec 6) (s : State) : Out := alu1 d a (fun x => x <<< n.toNat) s
def execShri (d a : GReg) (n : BitVec 6) (s : State) : Out := alu1 d a (fun x => x >>> n.toNat) s
def execShai (d a : GReg) (n : BitVec 6) (s : State) : Out := alu1 d a (fun x => x.sshiftRight n.toNat) s
def execRoli (d a : GReg) (n : BitVec 6) (s : State) : Out := alu1 d a (fun x => x.rotateLeft n.toNat) s
def execCmpi (c : Cond) (d a : GReg) (i : BitVec 13) (s : State) : Out :=
  alu1 d a (fun x => boolWord (holds c x (comparand c i))) s
def execLui (d : GReg) (i : BitVec 16) (s : State) : Out :=
  withRegs s [d] fun t => s.setCur (t.write d (sext i <<< 16)).next

end Sys2Proof.Machine
end

