-- ==== Sys2Proof/Machine/GrainSys.lean ====
section
/-! DEFINITION. Meanings of the SYS major: ERET, WAITI (17 R373, R374), TLBWR, TLBINV (18 R395, R396). All trap PERM at user
privilege (17 R360). -/

namespace Sys2Proof.Machine

/-- A privileged instruction. -/
def privileged (s : State) (k : Out) : Out := if s.cur.priv then k else .next (trap s .perm)

def execEret (s : State) : Out := privileged s (.next (returnFromTrap s))

/-- An event of R374 is present. -/
def eventPresent (t : Strand) : Bool :=
  !t.mailbox.isEmpty || t.tokLatch || !t.reports.isEmpty || t.timerDue || t.preemptDue

/-- WAITI: completes with an event present, else issues again in slots that no other strand wants (R374). -/
def execWaiti (s : State) : Out :=
  privileged s
    (.next
      (let s := irrevocable s
       let t := s.cur
       if eventPresent t then s.setCur { t.next with tokLatch := false } else s.setCur (t.yield s.cycle)))

/-- Two pages share an address. -/
def entryOverlaps (part va bits : Nat) (e : Entry) : Bool :=
  e.part == part && overlap e.base (2 ^ e.bits) va (2 ^ bits)

/-- TLBWR's checks and its write into the issuing core's TLB (R395). -/
def writeTlb (s : State) (va e : Nat) : State × Word :=
  let bits := szBits (leafSz e)
  if 8 ≤ window va ∨ va % 2 ^ bits ≠ 0 then (s, status .invalid)
  else if !e.testBit 0 ∨ !e.testBit 1 ∨ leafMalformed s s.curPart va e (szLevel (leafSz e)) then (s, status .invalid)
  else if leafKind e = 2 then (s, status .refused)
  else
    let x := entryOf s s.curPart va e
    (s.modCore s.curCore fun c =>
      { c with tlb := tlbInsert 64 (c.tlb.filter fun y => !entryOverlaps s.curPart va bits y) x }, status .ok)

def execTlbwr (d a b : GReg) (s : State) : Out :=
  privileged s
    (withRegs s [d, a, b] fun t =>
      let (s, w) := writeTlb (irrevocable s) (vaOf (t.read a)) (t.read b).toNat
      s.setCur (s.cur.report d w).next)

/-- Could an access at an address have been translated by the page, of whatever size, that holds va: also by an entry that has
been replaced since. -/
def samePage (va x : Nat) : Bool := decide (window x < 8) && x / 2 ^ 29 == va / 2 ^ 29

def pagedVa (x : Nat) : Bool := decide (window x < 8)

/-- TLBINV waits for what is still under way through the translations that it drops (R281, R397). -/
def invWaits (s : State) (a : Word) : Bool :=
  match wbits a 63 62 with
  | 1 => stillThrough s s.curPart (samePage (vaOf a)) fun _ => true
  | 2 => stillThrough s s.curPart pagedVa fun _ => true
  | _ => false

/-- TLBINV (R396): the stores made through the entries commit, then the entries go. The word holds the number dropped. -/
def invalidate (s : State) (a : Word) : State × Word :=
  let va := vaOf a
  let part := s.curPart
  let paged : Bool := decide (window va < 8)
  if wbits a 61 52 ≠ 0 then (s, status .invalid)
  else
    match wbits a 63 62 with
    | 0 =>
      if !paged then (s, status .invalid)
      else
        let es := (s.core s.curCore).tlb.filter (entryHits part va)
        let s := flushWhere s s.curCore fun b => samePage va b.va
        (s.modCore s.curCore fun c => { c with tlb := c.tlb.filter fun e => !entryHits part va e },
          statusWord .ok 0 es.length)
    | 1 =>
      if !paged then (s, status .invalid)
      else
        let (s, n) := dropTranslations s part (entryHits part va) (samePage va)
        (s, statusWord .ok 0 n)
    | 2 =>
      let (s, n) := dropTranslations s part (fun _ => true) pagedVa
      (s, statusWord .ok 0 n)
    | _ => (s, status .invalid)

def execTlbinv (d a : GReg) (s : State) : Out :=
  privileged s
    (withRegs s [d, a] fun t =>
      let s := irrevocable s
      if invWaits s (t.read a) then retryLater s
      else
        let (s, w) := invalidate s (t.read a)
        s.setCur (s.cur.report d w).next)

end Sys2Proof.Machine
end

