-- ==== Sys2Proof/Machine/Quarry.lean ====
section
/-! DEFINITION. Meanings of the QRY major: blocks, sequences and the prefix index (11 R275 to R289). -/

namespace Sys2Proof.Machine

/-! ## Operands -/

/-- A block operand (R276): its flag, its pool and its index; none when a reserved bit is set. -/
def blockOperand (w : Word) : Option (Bool × Nat × Nat) :=
  if wbits w 63 33 ≠ 0 ∨ wbits w 25 24 ≠ 0 then none else some (w.getLsbD 32, wbits w 31 26, wbits w 23 0)

def blockWord (pool i : Nat) : Nat := pool * 2 ^ 26 + i

/-- A sequence operand (R279): KEEP, TRUNC, NEW and bits 19..0. -/
def seqOperand (w : Word) : Option (Nat × Bool × Bool × Nat) :=
  if wbits w 63 45 ≠ 0 ∨ wbits w 29 20 ≠ 0 then none else some (wbits w 44 32, w.getLsbD 31, w.getLsbD 30, wbits w 19 0)

/-- A sequence operand whose form allows neither KEEP, TRUNC nor NEW. -/
def plainSeq (w : Word) : Option Nat :=
  match seqOperand w with
  | some (0, false, false, q) => some q
  | _ => none

/-- The status word of R286. -/
def quarryWord (c : Code) (detail block cnt : Nat) : Word := statusWord c detail (block + 2 ^ 32 * cnt)

/-! ## References -/

/-- The count limit of R277. -/
def refRoom (p : Pool) (i : Nat) : Bool := decide (p.refs.getD i 0 < 65535)

/-- One reference more. -/
def addRef (p : Pool) (i : Nat) : Pool := { p with refs := p.refs.put i (p.refs.getD i 0 + 1) }

/-- One reference less; a block whose count falls to 0 goes to the head of the free list (R277). -/
def dropRef (p : Pool) (i : Nat) : Pool :=
  let n := p.refs.getD i 0 - 1
  if n = 0 then { p with refs := p.refs.del i, free := i :: p.free } else { p with refs := p.refs.put i n }

/-- Take the head of the free list, with one reference. -/
def takeBlock (p : Pool) : Option (Nat × Pool) :=
  match p.free with
  | [] => none
  | i :: rest => some (i, { p with free := rest, refs := p.refs.put i 1 })

def setPool (s : State) (n : Nat) (p : Pool) : State := { s with pools := s.pools.put n p }
def setSeq (s : State) (id : Nat) (q : Seq) : State := { s with sequences := s.sequences.put id q }

/-- A block is live. -/
def blockLive (p : Pool) (i : Nat) : Bool := p.refs.getD i 0 != 0

/-- Steps 4 and 5 of R285 for a pool and a sequence with its pool. What a partition no longer owns is gone from the tables (R275). -/
def findPool (s : State) (n : Nat) : Except Code Pool :=
  match s.pools.find n with
  | none => .error .invalid
  | some p => if p.part ≠ s.curPart then .error .refused else .ok p

def findSeq (s : State) (id : Nat) : Except Code (Seq × Pool) :=
  match s.sequences.find id with
  | none => .error .invalid
  | some q =>
    match s.pools.find q.pool with
    | none => .error .invalid
    | some p => if p.part ≠ s.curPart then .error .refused else .ok (q, p)

/-- A Quarry instruction's answer: unchanged with a status when it is not OK. -/
def quarryAnswer (s : State) (d : GReg) (l : BitVec 4) : Except Word (State × Word) → State
  | .ok (s', w) => issueStatus s' d l w
  | .error w => issueStatus s d l w

def refuseWith {α : Type} : Except Code α → Except Word α
  | .ok x => .ok x
  | .error c => .error (status c)

/-! ## Blocks -/

/-- BALLOC (R287). -/
def quarryAlloc (s : State) (a : Word) : Except Word (State × Word) := do
  let n := wbits a 5 0
  if wbits a 63 6 ≠ 0 then throw (status .invalid)
  let p ← refuseWith (findPool s n)
  match takeBlock p with
  | none => throw (status .exhausted)
  | some (i, p) => return (setPool s n { p with held := NSet.ins p.held i }, quarryWord .ok 0 (blockWord n i) 0)

def execBalloc (d a : GReg) (l : BitVec 4) (s : State) : Out :=
  withRegs s [d, a] fun t => let s := irrevocable s; quarryAnswer s d l (quarryAlloc s (t.read a))

/-- BFREE (R287). -/
def quarryFree (s : State) (a : Word) : Except Word (State × Word) :=
  match blockOperand a with
  | some (false, n, i) => do
    let inv : Except Word Unit := match s.pools.find n with
      | some p => if blockLive p i then .ok () else .error (status .invalid)
      | none => .error (status .invalid)
    inv
    let p ← refuseWith (findPool s n)
    if !NSet.has p.held i then throw (status .refused)
    let p := dropRef { p with held := NSet.rem p.held i } i
    return (setPool s n p, statusWord .ok 0 (p.refs.getD i 0))
  | _ => .error (status .invalid)

def execBfree (d a : GReg) (l : BitVec 4) (s : State) : Out :=
  withRegs s [d, a] fun t => let s := irrevocable s; quarryAnswer s d l (quarryFree s (t.read a))

/-! ## Sequences -/

/-- Append a block whose reference is already counted in p (R287). -/
def appendBlock (s : State) (id : Nat) (q : Seq) (p : Pool) (i : Nat) : State × Word :=
  let q := { q with blocks := q.blocks ++ [i] }
  (setSeq (setPool s q.pool p) id q, quarryWord .ok 0 (blockWord q.pool i) q.blocks.length)

/-- SQAPPEND (R287). -/
def quarryAppend (s : State) (a b : Word) : Except Word (State × Word) :=
  match plainSeq a, blockOperand b with
  | some id, some (alloc, n, i) => do
    if alloc && i != 0 then throw (status .invalid)
    match s.pools.find n with
    | none => throw (status .invalid)
    | some p => if !alloc && !blockLive p i then throw (status .invalid)
    let (q, p) ← refuseWith (findSeq s id)
    let _ ← refuseWith (findPool s n)
    if n ≠ q.pool then throw (status .invalid)
    if 4096 ≤ q.blocks.length then throw (status .refused)
    if alloc then
      match takeBlock p with
      | none => throw (status .exhausted)
      | some (i, p) => return appendBlock s id q p i
    else if !refRoom p i then throw (status .refused)
    else return appendBlock s id q (addRef p i) i
  | _, _ => .error (status .invalid)

def execSqappend (d a b : GReg) (l : BitVec 4) (s : State) : Out :=
  withRegs s [d, a, b] fun t => let s := irrevocable s; quarryAnswer s d l (quarryAppend s (t.read a) (t.read b))

/-- SQLOOK (R287). -/
def quarryLook (s : State) (a b : Word) : Except Word (State × Word) :=
  match plainSeq a with
  | some id => do
    if wbits b 63 12 ≠ 0 then throw (status .invalid)
    let (q, p) ← refuseWith (findSeq s id)
    match q.blocks[b.toNat]? with
    | none => throw (quarryWord .refused 0 0 q.blocks.length)
    | some i => return (s, quarryWord .ok (if 1 < p.refs.getD i 0 then 1 else 0) (blockWord q.pool i) q.blocks.length)
  | none => .error (status .invalid)

def execSqlook (d a b : GReg) (l : BitVec 4) (s : State) : Out :=
  withRegs s [d, a, b] fun t => let s := irrevocable s; quarryAnswer s d l (quarryLook s (t.read a) (t.read b))

/-- The lowest free sequence id of a Quarry (R278). -/
def freeSeq (s : State) (q : Nat) : Option Nat :=
  ((List.range (s.sequences.length + 1)).find? fun k => (s.sequences.find (2 ^ 17 * q + k)).isNone).bind fun k =>
    if k < 2 ^ 17 then some (2 ^ 17 * q + k) else none

/-- Raise every named block's count; none at the limit. -/
def refAll (p : Pool) : List Nat → Option Pool
  | [] => some p
  | i :: is => if refRoom p i then refAll (addRef p i) is else none

/-- SQFORK (R287). -/
def quarryFork (s : State) (a : Word) : Except Word (State × Word) :=
  match seqOperand a with
  | some (0, false, true, x) => do
    if 64 ≤ x then throw (status .invalid)
    let _ ← refuseWith (findPool s x)
    match freeSeq s (x / 8) with
    | none => throw (status .refused)
    | some id => return (setSeq s id ⟨x, []⟩, statusWord .ok 0 id)
  | some (0, false, false, x) => do
    let (q, p) ← refuseWith (findSeq s x)
    match freeSeq s (x / 2 ^ 17), refAll p q.blocks with
    | some id, some p => return (setSeq (setPool s q.pool p) id q, statusWord .ok 0 (id + 2 ^ 32 * q.blocks.length))
    | _, _ => throw (status .refused)
  | _ => .error (status .invalid)

def execSqfork (d a : GReg) (l : BitVec 4) (s : State) : Out :=
  withRegs s [d, a] fun t => let s := irrevocable s; quarryAnswer s d l (quarryFork s (t.read a))

/-- Addresses of the sequence aperture from an entry on. -/
def entriesFrom (id keep va : Nat) : Bool := window va == 14 && bitsOf va 47 28 == id && decide (keep ≤ bitsOf va 27 16)

/-- Update-only copies of the lines of a block are recalled (R100). -/
def recallBlock (s : State) (p : Pool) (i : Nat) : State := recallSpan s (blockBase s p i) (blockBytes p.size)

/-- Entries from `keep` on leave the table: writes made through them are settled first (R281), then the counts fall. -/
def cutEntries (s : State) (id keep : Nat) (q : Seq) : State × Pool :=
  let s := leaveOldPlace s s.curPart (entriesFrom id keep)
  let s := ((s.pools.find q.pool).map fun p => (q.blocks.drop keep).foldl (fun s i => recallBlock s p i) s).getD s
  (s, (q.blocks.drop keep).foldl dropRef (s.pools.getD q.pool ⟨0, 0, 0, 0, [], [], []⟩))

/-- SQDROP (R287). -/
def quarryDrop (s : State) (a : Word) : Except Word (State × Word) :=
  match seqOperand a with
  | some (keep, trunc, false, id) => do
    if (!trunc && keep != 0) || decide (4096 < keep) then throw (status .invalid)
    let (q, _) ← refuseWith (findSeq s id)
    let (s, p) := cutEntries s id keep q
    let s := setPool s q.pool p
    if trunc then
      let bs := q.blocks.take keep
      return (setSeq s id { q with blocks := bs }, quarryWord .ok 0 0 bs.length)
    else return ({ s with sequences := s.sequences.del id }, quarryWord .ok 0 0 0)
  | _ => .error (status .invalid)

/-- SQDROP waits for what is still under way through the entries that it removes (R281). -/
def dropWaits (s : State) (a : Word) : Bool :=
  match seqOperand a with
  | some (keep, _, _, id) => stillThrough s s.curPart (entriesFrom id keep) fun _ => true
  | none => false

def execSqdrop (d a : GReg) (l : BitVec 4) (s : State) : Out :=
  withRegs s [d, a] fun t =>
    let s := irrevocable s
    match quarryDrop s (t.read a) with
    | .ok r => if dropWaits s (t.read a) then retryLater s else quarryAnswer s d l (.ok r)
    | .error w => quarryAnswer s d l (.error w)

/-! ## The prefix index -/

/-- A prefix record (R283): key and header; none when a reserved byte is set or LEN is 0. -/
def prefixRecord (bs : List Byte) : Option (List Byte × List Byte) :=
  if ((bs.drop 20).take 12).any (· != 0) ∨ numAt bs 16 4 = 0 then none else some (bs.take 20, (bs.drop 32).take 64)

/-- PFXPUT without and with REMOVE (R287). -/
def prefixPut (s : State) (bs : List Byte) (b : Word) : Except Word (State × Word) :=
  match prefixRecord bs, blockOperand b with
  | some (key, hdr), some (remove, n, i) => do
    match s.pools.find n with
    | none => throw (status .invalid)
    | some p => if !blockLive p i then throw (status .invalid)
    let p ← refuseWith (findPool s n)
    let es := s.prefixes.getD (n / 8) []
    let w := blockWord n i
    let old := es.find? fun e => e.key == key
    if remove then
      match old with
      | some e =>
        if e.block ≠ w then throw (status .refused)
        return ({ setPool s n (dropRef p i) with prefixes := s.prefixes.put (n / 8) (es.filter fun x => x.key != key) },
          quarryWord .ok 0 w 0)
      | none => throw (status .refused)
    else
      match old with
      | some e => throw (quarryWord .refused 0 e.block 0)
      | none =>
        if 262144 ≤ es.length then throw (status .refused)
        if !refRoom p i then throw (status .refused)
        return ({ setPool s n (addRef p i) with prefixes := s.prefixes.put (n / 8) (es ++ [⟨key, hdr, w⟩]) }, quarryWord .ok 0 w 0)
  | _, _ => .error (status .invalid)

/-- PFXPUT is a release at device scope (R288). -/
def execPfxput (d a b : GReg) (l : BitVec 4) (s : State) : Out :=
  withRegs s [d, a, b] fun t =>
    let va := vaOf (t.read a)
    let s := irrevocable s
    aligned s va 32 (withPieces s va 32 3 fun s bs =>
      let s := release s s.strandId .device 0
      quarryAnswer s d l (prefixPut s bs (t.read b)))

/-- PFXFIND, and with `verify` PFXFIND.v (R287). -/
def prefixFind (s : State) (bs : List Byte) (b : Word) (verify : Bool) : Except Word (State × Word) :=
  match prefixRecord bs with
  | some (key, hdr) => do
    let id := b.toNat
    if 2 ^ 20 ≤ id then throw (status .invalid)
    let (q, p) ← refuseWith (findSeq s id)
    match (s.prefixes.getD (id / 2 ^ 17) []).find? fun e => e.key == key with
    | none => throw (status .nomatch)
    | some e =>
      if verify && e.hdr != hdr then throw (statusWord .nomatch 1 0)
      let i := e.block % 2 ^ 24
      if e.block / 2 ^ 26 ≠ q.pool then throw (status .refused)
      if 4096 ≤ q.blocks.length then throw (status .refused)
      if !refRoom p i then throw (status .refused)
      return appendBlock s id q (addRef p i) i
  | none => .error (status .invalid)

def execPfxfind (d a b : GReg) (l : BitVec 4) (s : State) : Out :=
  withRegs s [d, a, b] fun t =>
    let va := vaOf (t.read a)
    let s := irrevocable s
    aligned s va 32 (withPieces s va 32 3 fun s bs => quarryAnswer s d l (prefixFind s bs (t.read b) false))

def execPfxfindV (d a b : GReg) (l : BitVec 4) (s : State) : Out :=
  withRegs s [d, a, b] fun t =>
    let va := vaOf (t.read a)
    let s := irrevocable s
    aligned s va 32 (withPieces s va 32 3 fun s bs => quarryAnswer s d l (prefixFind s bs (t.read b) true))

end Sys2Proof.Machine
end

