-- ==== Sys2Proof/Machine/Dispatch.lean ====
section
/-! DEFINITION. The dispatch: one arm per constructor of Instr. -/

namespace Sys2Proof.Machine

def exec (i : Instr) (s : State) : Host.Outcome State Fault Refusal :=
  match i with
  | .add d a b => Sys2Proof.Machine.execAdd d a b s
  | .sub d a b => Sys2Proof.Machine.execSub d a b s
  | .mul d a b => Sys2Proof.Machine.execMul d a b s
  | .mulh d a b => Sys2Proof.Machine.execMulh d a b s
  | .mulhn d a b => Sys2Proof.Machine.execMulhn d a b s
  | .div d a b l => Sys2Proof.Machine.execDiv d a b l s
  | .divn d a b l => Sys2Proof.Machine.execDivn d a b l s
  | .rem d a b l => Sys2Proof.Machine.execRem d a b l s
  | .remn d a b l => Sys2Proof.Machine.execRemn d a b l s
  | .andG d a b => Sys2Proof.Machine.execAndG d a b s
  | .orG d a b => Sys2Proof.Machine.execOrG d a b s
  | .xorG d a b => Sys2Proof.Machine.execXorG d a b s
  | .andn d a b => Sys2Proof.Machine.execAndn d a b s
  | .shl d a b => Sys2Proof.Machine.execShl d a b s
  | .shr d a b => Sys2Proof.Machine.execShr d a b s
  | .sha d a b => Sys2Proof.Machine.execSha d a b s
  | .rol d a b => Sys2Proof.Machine.execRol d a b s
  | .minG d a b => Sys2Proof.Machine.execMinG d a b s
  | .maxG d a b => Sys2Proof.Machine.execMaxG d a b s
  | .minn d a b => Sys2Proof.Machine.execMinn d a b s
  | .maxn d a b => Sys2Proof.Machine.execMaxn d a b s
  | .clz d a => Sys2Proof.Machine.execClz d a s
  | .ctz d a => Sys2Proof.Machine.execCtz d a s
  | .popc d a => Sys2Proof.Machine.execPopc d a s
  | .sel d a b => Sys2Proof.Machine.execSel d a b s
  | .cmp c d a b => Sys2Proof.Machine.execCmp c d a b s
  | .lea d a b sh => Sys2Proof.Machine.execLea d a b sh s
  | .bext d a b => Sys2Proof.Machine.execBext d a b s
  | .bdep d a b => Sys2Proof.Machine.execBdep d a b s
  | .crc32c d a b => Sys2Proof.Machine.execCrc32c d a b s
  | .hash64 d a b => Sys2Proof.Machine.execHash64 d a b s
  | .hamd d a b => Sys2Proof.Machine.execHamd d a b s
  | .meshxy d a b => Sys2Proof.Machine.execMeshxy d a b s
  | .rect d a b => Sys2Proof.Machine.execRect d a b s
  | .fadd d a b => Sys2Proof.Machine.execFadd d a b s
  | .fsub d a b => Sys2Proof.Machine.execFsub d a b s
  | .fmul d a b => Sys2Proof.Machine.execFmul d a b s
  | .ffma d a b => Sys2Proof.Machine.execFfma d a b s
  | .fmin d a b => Sys2Proof.Machine.execFmin d a b s
  | .fmax d a b => Sys2Proof.Machine.execFmax d a b s
  | .fsqrt d a l => Sys2Proof.Machine.execFsqrt d a l s
  | .frcp d a l => Sys2Proof.Machine.execFrcp d a l s
  | .fcmp c d a b => Sys2Proof.Machine.execFcmp c d a b s
  | .fcvtFloat d a t src sat => Sys2Proof.Machine.execFcvtFloat d a t src sat s
  | .fcvtToInt d a t src => Sys2Proof.Machine.execFcvtToInt d a t src s
  | .fcvtFromInt d a t src => Sys2Proof.Machine.execFcvtFromInt d a t src s
  | .jr a => Sys2Proof.Machine.execJr a s
  | .callr a => Sys2Proof.Machine.execCallr a s
  | .send d a b l => Sys2Proof.Machine.execSend d a b l s
  | .recv d a e => Sys2Proof.Machine.execRecv d a e s
  | .gjoin d a l => Sys2Proof.Machine.execGjoin d a l s
  | .gleave d a l => Sys2Proof.Machine.execGleave d a l s
  | .gsize d a l => Sys2Proof.Machine.execGsize d a l s
  | .binit d a b l => Sys2Proof.Machine.execBinit d a b l s
  | .barrive d a l => Sys2Proof.Machine.execBarrive d a l s
  | .bwait d a e => Sys2Proof.Machine.execBwait d a e s
  | .binval d a l => Sys2Proof.Machine.execBinval d a l s
  | .spawn d a l => Sys2Proof.Machine.execSpawn d a l s
  | .join d e => Sys2Proof.Machine.execJoin d e s
  | .taskid d => Sys2Proof.Machine.execTaskid d s
  | .kill d a l => Sys2Proof.Machine.execKill d a l s
  | .topen d a b l => Sys2Proof.Machine.execTopen d a b l s
  | .twr d a b => Sys2Proof.Machine.execTwr d a b s
  | .twrr d a b l => Sys2Proof.Machine.execTwrr d a b l s
  | .seal d a l => Sys2Proof.Machine.execSeal d a l s
  | .tstat d a l => Sys2Proof.Machine.execTstat d a l s
  | .tdrop d a l => Sys2Proof.Machine.execTdrop d a l s
  | .cqinit a => Sys2Proof.Machine.execCqinit a s
  | .cqpush a b => Sys2Proof.Machine.execCqpush a b s
  | .cqpop d => Sys2Proof.Machine.execCqpop d s
  | .frb d l => Sys2Proof.Machine.execFrb d l s
  | .fre d e => Sys2Proof.Machine.execFre d e s
  | .frstat d a l => Sys2Proof.Machine.execFrstat d a l s
  | .balloc d a l => Sys2Proof.Machine.execBalloc d a l s
  | .bfree d a l => Sys2Proof.Machine.execBfree d a l s
  | .sqappend d a b l => Sys2Proof.Machine.execSqappend d a b l s
  | .sqlook d a b l => Sys2Proof.Machine.execSqlook d a b l s
  | .sqfork d a l => Sys2Proof.Machine.execSqfork d a l s
  | .sqdrop d a l => Sys2Proof.Machine.execSqdrop d a l s
  | .pfxput d a b l => Sys2Proof.Machine.execPfxput d a b l s
  | .pfxfind d a b l => Sys2Proof.Machine.execPfxfind d a b l s
  | .pfxfindV d a b l => Sys2Proof.Machine.execPfxfindV d a b l s
  | .tlbwr d a b => Sys2Proof.Machine.execTlbwr d a b s
  | .tlbinv d a => Sys2Proof.Machine.execTlbinv d a s
  | .vbopen d a l => Sys2Proof.Machine.execVbopen d a l s
  | .vbseal d a l => Sys2Proof.Machine.execVbseal d a l s
  | .xcopy t a b c => Sys2Proof.Machine.execXcopy t a b c s
  | .xgather t a b c sz => Sys2Proof.Machine.execXgather t a b c sz s
  | .xscatter t a b c sz => Sys2Proof.Machine.execXscatter t a b c sz s
  | .xfill t a b c => Sys2Proof.Machine.execXfill t a b c s
  | .xnearScaleadd t a b c => Sys2Proof.Machine.execXnearScaleadd t a b c s
  | .xnearTopk t a b c => Sys2Proof.Machine.execXnearTopk t a b c s
  | .xcoll t a b c v => Sys2Proof.Machine.execXcoll t a b c v s
  | .ftest t a => Sys2Proof.Machine.execFtest t a s
  | .fwait t e => Sys2Proof.Machine.execFwait t e s
  | .fcancel t => Sys2Proof.Machine.execFcancel t s
  | .addi d a imm => Sys2Proof.Machine.execAddi d a imm s
  | .muli d a imm => Sys2Proof.Machine.execMuli d a imm s
  | .andi d a imm => Sys2Proof.Machine.execAndi d a imm s
  | .ori d a imm => Sys2Proof.Machine.execOri d a imm s
  | .xori d a imm => Sys2Proof.Machine.execXori d a imm s
  | .shli d a n => Sys2Proof.Machine.execShli d a n s
  | .shri d a n => Sys2Proof.Machine.execShri d a n s
  | .shai d a n => Sys2Proof.Machine.execShai d a n s
  | .roli d a n => Sys2Proof.Machine.execRoli d a n s
  | .cmpi c d a imm => Sys2Proof.Machine.execCmpi c d a imm s
  | .lui d imm => Sys2Proof.Machine.execLui d imm s
  | .amo k wd o sc d a b => Sys2Proof.Machine.execAmo k wd o sc d a b s
  | .cas wd o sc d a b => Sys2Proof.Machine.execCas wd o sc d a b s
  | .cas2 o sc d a b => Sys2Proof.Machine.execCas2 o sc d a b s
  | .red k t a b => Sys2Proof.Machine.execRed k t a b s
  | .fence k sc a => Sys2Proof.Machine.execFence k sc a s
  | .ld t d b l off => Sys2Proof.Machine.execLd t d b l off s
  | .ldv d b l off => Sys2Proof.Machine.execLdv d b l off s
  | .st sz d b off => Sys2Proof.Machine.execSt sz d b off s
  | .stv d b off => Sys2Proof.Machine.execStv d b off s
  | .pref b off => Sys2Proof.Machine.execPref b off s
  | .br c a b off => Sys2Proof.Machine.execBr c a b off s
  | .bz a off => Sys2Proof.Machine.execBz a off s
  | .bnz a off => Sys2Proof.Machine.execBnz a off s
  | .j off => Sys2Proof.Machine.execJ off s
  | .call off => Sys2Proof.Machine.execCall off s
  | .rpt nm1 mask st km1 => Sys2Proof.Machine.execRpt nm1 mask st km1 s
  | .trap imm => Sys2Proof.Machine.execTrap imm s
  | .sysc imm => Sys2Proof.Machine.execSysc imm s
  | .ctlrd d n => Sys2Proof.Machine.execCtlrd d n s
  | .ctlwr a n => Sys2Proof.Machine.execCtlwr a n s
  | .faultend a => Sys2Proof.Machine.execFaultend a s
  | .cbr off => Sys2Proof.Machine.execCbr off s
  | .brp neg p off => Sys2Proof.Machine.execBrp neg p off s
  | .loop r off => Sys2Proof.Machine.execLoop r off s
  | .setfmt imm => Sys2Proof.Machine.execSetfmt imm s
  | .setrm rm => Sys2Proof.Machine.execSetrm rm s
  | .tpop r => Sys2Proof.Machine.execTpop r s
  | .tpost h m => Sys2Proof.Machine.execTpost h m s
  | .sAdd u d a b => Sys2Proof.Machine.execSAdd u d a b s
  | .sAddi u d a imm => Sys2Proof.Machine.execSAddi u d a imm s
  | .sSub u d a b => Sys2Proof.Machine.execSSub u d a b s
  | .sMul u d a b => Sys2Proof.Machine.execSMul u d a b s
  | .sAnd u d a b => Sys2Proof.Machine.execSAnd u d a b s
  | .sOr u d a b => Sys2Proof.Machine.execSOr u d a b s
  | .sXor u d a b => Sys2Proof.Machine.execSXor u d a b s
  | .sShl u d a b => Sys2Proof.Machine.execSShl u d a b s
  | .sShr u d a b => Sys2Proof.Machine.execSShr u d a b s
  | .sSha u d a b => Sys2Proof.Machine.execSSha u d a b s
  | .sMin u d a b => Sys2Proof.Machine.execSMin u d a b s
  | .sMax u d a b => Sys2Proof.Machine.execSMax u d a b s
  | .sCmp u c p a b => Sys2Proof.Machine.execSCmp u c p a b s
  | .sSel u d a b p => Sys2Proof.Machine.execSSel u d a b p s
  | .li u d imm => Sys2Proof.Machine.execLi u d imm s
  | .hget u d a f => Sys2Proof.Machine.execHget u d a f s
  | .mpset u m a => Sys2Proof.Machine.execMpset u m a s
  | .vld v h row => Sys2Proof.Machine.execVld v h row s
  | .vst v h row => Sys2Proof.Machine.execVst v h row s
  | .vadd f d a b => Sys2Proof.Machine.execVadd f d a b s
  | .vsub f d a b => Sys2Proof.Machine.execVsub f d a b s
  | .vmul f d a b => Sys2Proof.Machine.execVmul f d a b s
  | .vfma f d a b => Sys2Proof.Machine.execVfma f d a b s
  | .vmax f d a b => Sys2Proof.Machine.execVmax f d a b s
  | .vmin f d a b => Sys2Proof.Machine.execVmin f d a b s
  | .vexp2 f d a => Sys2Proof.Machine.execVexp2 f d a s
  | .vrcp f d a => Sys2Proof.Machine.execVrcp f d a s
  | .vrsq f d a => Sys2Proof.Machine.execVrsq f d a s
  | .vcvt f src d a b => Sys2Proof.Machine.execVcvt f src d a b s
  | .vrmax f d a => Sys2Proof.Machine.execVrmax f d a s
  | .vrsum f d a => Sys2Proof.Machine.execVrsum f d a s
  | .vbc f d r => Sys2Proof.Machine.execVbc f d r s
  | .vsel d a b p => Sys2Proof.Machine.execVsel d a b p s
  | .vshuf d a b => Sys2Proof.Machine.execVshuf d a b s
  | .mcall n acc oA oB => Sys2Proof.Machine.execMcall n acc oA oB s
  | .mstore n h => Sys2Proof.Machine.execMstore n h s
  | .oclaim o => Sys2Proof.Machine.execOclaim o s
  | .orel o => Sys2Proof.Machine.execOrel o s
  | .oload o h => Sys2Proof.Machine.execOload o h s
  | .aclr acc => Sys2Proof.Machine.execAclr acc s
  | .ast acc r half => Sys2Proof.Machine.execAst acc r half s
  | .hrel h => Sys2Proof.Machine.execHrel h s
  | .ttnode a b => Sys2Proof.Machine.execTtnode a b s
  | .ttmask o a b => Sys2Proof.Machine.execTtmask o a b s
  | .ttpos d a => Sys2Proof.Machine.execTtpos d a s
  | .ttprune a b => Sys2Proof.Machine.execTtprune a b s
  | .ttpath d a => Sys2Proof.Machine.execTtpath d a s
  | .asyncTrapEntry id => Sys2Proof.Machine.execAsyncTrapEntry id s
  | .stimerExpiry id => Sys2Proof.Machine.execStimerExpiry id s
  | .waitTimeout id => Sys2Proof.Machine.execWaitTimeout id s
  | .windowSpill id => Sys2Proof.Machine.execWindowSpill id s
  | .windowFill id => Sys2Proof.Machine.execWindowFill id s
  | .taskWalkHop tid => Sys2Proof.Machine.execTaskWalkHop tid s
  | .parkedTaskRelease core => Sys2Proof.Machine.execParkedTaskRelease core s
  | .footprintCopy id => Sys2Proof.Machine.execFootprintCopy id s
  | .killEffect id => Sys2Proof.Machine.execKillEffect id s
  | .messageDelivery k => Sys2Proof.Machine.execMessageDelivery k s
  | .faultReportDelivery cluster => Sys2Proof.Machine.execFaultReportDelivery cluster s
  | .storeCommit core k => Sys2Proof.Machine.execStoreCommit core k s
  | .redRecall line core => Sys2Proof.Machine.execRedRecall line core s
  | .atomicAdmit slice => Sys2Proof.Machine.execAtomicAdmit slice s
  | .engineCompletion op => Sys2Proof.Machine.execEngineCompletion op s
  | .xnearStart chan => Sys2Proof.Machine.execXnearStart chan s
  | .trowelResume chan => Sys2Proof.Machine.execTrowelResume chan s
  | .xcollChainStep inst => Sys2Proof.Machine.execXcollChainStep inst s
  | .twrrRowApply k => Sys2Proof.Machine.execTwrrRowApply k s
  | .sealTimerExpiry pos => Sys2Proof.Machine.execSealTimerExpiry pos s
  | .postListEntry chisel tag => Sys2Proof.Machine.execPostListEntry chisel tag s
  | .postRetry pos => Sys2Proof.Machine.execPostRetry pos s
  | .outboundDelivery chisel k => Sys2Proof.Machine.execOutboundDelivery chisel k s
  | .tileTaskEnd ctx => Sys2Proof.Machine.execTileTaskEnd ctx s
  | .regionCommit rid => Sys2Proof.Machine.execRegionCommit rid s
  | .heldAccessRejudge id => Sys2Proof.Machine.execHeldAccessRejudge id s
  | .tlbFill who => Sys2Proof.Machine.execTlbFill who s
  | .swappost src part va => Sys2Proof.Machine.execSwappost src part va s
  | .swapLineMove k => Sys2Proof.Machine.execSwapLineMove k s
  | .migrationRequest part va byHost => Sys2Proof.Machine.execMigrationRequest part va byHost s
  | .pageMove part va => Sys2Proof.Machine.execPageMove part va s
  | .holdEnd part va => Sys2Proof.Machine.execHoldEnd part va s
  | .halt src part => Sys2Proof.Machine.execHalt src part s
  | .haltSave src part => Sys2Proof.Machine.execHaltSave src part s
  | .notify src part => Sys2Proof.Machine.execNotify src part s
  | .resume src part => Sys2Proof.Machine.execResume src part s
  | .strandHalt id => Sys2Proof.Machine.execStrandHalt id s
  | .chiselFreeze chisel => Sys2Proof.Machine.execChiselFreeze chisel s
  | .trowelSuspend chan => Sys2Proof.Machine.execTrowelSuspend chan s
  | .partitionSave part => Sys2Proof.Machine.execPartitionSave part s
  | .enable src part => Sys2Proof.Machine.execEnable src part s
  | .start src part => Sys2Proof.Machine.execStart src part s
  | .stop src part => Sys2Proof.Machine.execStop src part s
  | .launchGrant part => Sys2Proof.Machine.execLaunchGrant part s
  | .launchRelease part => Sys2Proof.Machine.execLaunchRelease part s
  | .launchComplete part lid => Sys2Proof.Machine.execLaunchComplete part lid s
  | .hmemTimeout tag => Sys2Proof.Machine.execHmemTimeout tag s
  | .hostRetransmit part stream => Sys2Proof.Machine.execHostRetransmit part stream s
  | .ackTimer part stream => Sys2Proof.Machine.execAckTimer part stream s
  | .initRetry port => Sys2Proof.Machine.execInitRetry port s
  | .nakRetry port => Sys2Proof.Machine.execNakRetry port s
  | .portFailure port => Sys2Proof.Machine.execPortFailure port s
  | .vbopenTimeout entry => Sys2Proof.Machine.execVbopenTimeout entry s
  | .vbopenReuseWait entry => Sys2Proof.Machine.execVbopenReuseWait entry s
  | .requestLost rtag => Sys2Proof.Machine.execRequestLost rtag s
  | .fwOpComplete result => Sys2Proof.Machine.execFwOpComplete result s
  | .awaitedResultArrival who => Sys2Proof.Machine.execAwaitedResultArrival who s
  | .endNoticeArrival parent child => Sys2Proof.Machine.execEndNoticeArrival parent child s
  | .ret => Sys2Proof.Machine.execRet s
  | .yield => Sys2Proof.Machine.execYield s
  | .exit => Sys2Proof.Machine.execExit s
  | .frabort => Sys2Proof.Machine.execFrabort s
  | .eret => Sys2Proof.Machine.execEret s
  | .waiti => Sys2Proof.Machine.execWaiti s
  | .nop => Sys2Proof.Machine.execNop s
  | .done => Sys2Proof.Machine.execDone s
  | .mwait => Sys2Proof.Machine.execMwait s
  | .ttclr => Sys2Proof.Machine.execTtclr s
  | .warm => Sys2Proof.Machine.execWarm s
  | .sp1dataRead => Sys2Proof.Machine.execSp1dataRead s
  | .fwErase => Sys2Proof.Machine.execFwErase s
  | .fwLoad => Sys2Proof.Machine.execFwLoad s
  | .fwAdvance => Sys2Proof.Machine.execFwAdvance s
  | .attestationReady => Sys2Proof.Machine.execAttestationReady s
  | .boot => Sys2Proof.Machine.execBoot s
  | .powerOff => Sys2Proof.Machine.execPowerOff s
  | .powerUp => Sys2Proof.Machine.execPowerUp s
  | .disable src part => Sys2Proof.Machine.execDisable src part s
  | .ack m => Sys2Proof.Machine.execAck m s
  | .launch m => Sys2Proof.Machine.execLaunch m s
  | .cancel m => Sys2Proof.Machine.execCancel m s
  | .write m => Sys2Proof.Machine.execWrite m s
  | .read m => Sys2Proof.Machine.execRead m s
  | .rdata m => Sys2Proof.Machine.execRdata m s
  | .status m => Sys2Proof.Machine.execStatus m s
  | .cfgw m => Sys2Proof.Machine.execCfgw m s
  | .cfgr m => Sys2Proof.Machine.execCfgr m s
  | .reg m => Sys2Proof.Machine.execReg m s
  | .unreg m => Sys2Proof.Machine.execUnreg m s
  | .migrRequest m => Sys2Proof.Machine.execMigrRequest m s
  | .migrData m => Sys2Proof.Machine.execMigrData m s
  | .migrComplete m => Sys2Proof.Machine.execMigrComplete m s
  | .reset m => Sys2Proof.Machine.execReset m s
  | .linkUp port bufs => Sys2Proof.Machine.execLinkUp port bufs s
  | .dataFlit port flit => Sys2Proof.Machine.execDataFlit port flit s
  | .idle port flit => Sys2Proof.Machine.execIdle port flit s
  | .init port flit => Sys2Proof.Machine.execInit port flit s
  | .nak port flit => Sys2Proof.Machine.execNak port flit s
  | .lane port flit => Sys2Proof.Machine.execLane port flit s
  | .down port flit => Sys2Proof.Machine.execDown port flit s
  | .laneFailure port lane => Sys2Proof.Machine.execLaneFailure port lane s
  | .put p => Sys2Proof.Machine.execPut p s
  | .putack p => Sys2Proof.Machine.execPutack p s
  | .fill p => Sys2Proof.Machine.execFill p s
  | .fillr p => Sys2Proof.Machine.execFillr p s
  | .held p => Sys2Proof.Machine.execHeld p s
  | .atom p => Sys2Proof.Machine.execAtom p s
  | .atomr p => Sys2Proof.Machine.execAtomr p s
  | .trow p => Sys2Proof.Machine.execTrow p s
  | .trowr p => Sys2Proof.Machine.execTrowr p s
  | .msg p => Sys2Proof.Machine.execMsg p s
  | .msgr p => Sys2Proof.Machine.execMsgr p s
  | .xread p => Sys2Proof.Machine.execXread p s
  | .xreadr p => Sys2Proof.Machine.execXreadr p s
  | .vnote p => Sys2Proof.Machine.execVnote p s
  | .vnack p => Sys2Proof.Machine.execVnack p s
  | .shadow p => Sys2Proof.Machine.execShadow p s
  | .shack p => Sys2Proof.Machine.execShack p s
  | .routeWrite src peer value => Sys2Proof.Machine.execRouteWrite src peer value s
  | .exportWrite src off value => Sys2Proof.Machine.execExportWrite src off value s
  | .losscmd src value => Sys2Proof.Machine.execLosscmd src value s
  | .i3cRegisterWrite off value => Sys2Proof.Machine.execI3cRegisterWrite off value s
  | .hostPortUp value => Sys2Proof.Machine.execHostPortUp value s
  | .hostPortDown value => Sys2Proof.Machine.execHostPortDown value s
  | .sp1dataWrite value => Sys2Proof.Machine.execSp1dataWrite value s
  | .fwProgram value => Sys2Proof.Machine.execFwProgram value s
  | .attestationStart value => Sys2Proof.Machine.execAttestationStart value s
  | .temperatureAlert die temp => Sys2Proof.Machine.execTemperatureAlert die temp s
  | .thermalTrip die temp => Sys2Proof.Machine.execThermalTrip die temp s
  | .patrolScrub site correctable => Sys2Proof.Machine.execPatrolScrub site correctable s
  | .clusterFailure cluster => Sys2Proof.Machine.execClusterFailure cluster s
  | .pseudoChannelRemap chan bad => Sys2Proof.Machine.execPseudoChannelRemap chan bad s

end Sys2Proof.Machine
end

