-- ==== Sys2Proof/Machine/Place.lean ====
section
/-! DEFINITION. Where the grain's next word lies, for State.withFetchWord (log 5): strand 0 of core 0 made READY, with its
page translated at the core, and a word stored there. -/

namespace Sys2Proof.Machine

/-- A leaf that grants everything, for the page of an address at physical frame 0 (R389). -/
def openEntry (part va : Nat) : Entry := { part := part, base := va / 65536 * 65536, bits := 16, word := 0x3F }

/-- Strand 0 of core 0 is READY at its pc, at the head of the rotation, with nothing outstanding. -/
def readyStrand (t : Strand) : Strand :=
  { t with run := .ready, halted := false, pc := if t.pc.toNat % 4 = 0 ∧ window (vaOf t.pc) < 8 then t.pc else 0, frame := none,
           trapFrame := none, pend := [], reports := [], timerDue := false, preemptDue := false, killDue := false,
           yieldUntil := 0, lastIssue := none, fillNone := none }

/-- Put the bytes of a word where strand 0 fetches next, and let core 0 have the next turn. -/
def placeWord (s : State) (bs : List Byte) : State :=
  let t := readyStrand (s.strand 0)
  let va := vaOf t.pc
  let e := openEntry (s.strandPart 0) va
  let s := s.setStrand 0 t
  let s := s.modCore 0 fun c => { c with lastStrand := 15, tlb := e :: (c.tlb.filter fun x => !entryHits e.part va x) }
  let pa := (entryPa s e va).getD 0
  let clean (c : Core) : Core :=
    { c with red := c.red.del (pa / 64), stores := c.stores.filter fun b => !locOverlap (.mem pa) 4 b.loc b.bytes.length }
  { s with cores := s.cores.map fun (k, c) => (k, clean c), poison := NSet.rem s.poison (pa / 32),
           hbm := s.hbm.putBytes pa bs, agenda := .core 0 :: s.agenda }

end Sys2Proof.Machine
end

