-- ==== Sys2Proof/Machine/ChiselTurn.lean ====
section
/-! DEFINITION. The merge stage of a chisel in one a-cycle (02 R50 to R52; 12 R292 to R296): fetch, decode and format checks of
each READY context's next bundle, the primary and the secondary, their issue, and the M unit's microword. -/

namespace Sys2Proof.Machine

/-! ## The next bundle of a context -/

/-- What the next bundle of a context comes to before its own checks (R293, steps 1 to 3); a trap with the slot codes that the
bundle carries, as far as it has been fetched (R51). -/
inductive Peek where
  | bundle (is : List Instr) (words : Nat)
  | trap (c : Cause) (addr : Nat) (slots : List Nat)
  | miss (va : Nat)
  deriving DecidableEq, Repr

/-- One word of a bundle (R294). A page that runs remote is waited for: R404 performs no fetch at the host (log 34). -/
def bundleWord (s : State) (ch part va : Nat) : Except Peek W32 :=
  if 8 ≤ window va then .error (.trap .perm va [])
  else
    match (s.chisel ch).tlb.find? (entryHits part va) with
    | none => .error (.miss va)
    | some e =>
      if e.until_.isSome then .error (.miss va)
      else if leafCmp e.word && e.surface.isNone then .error (.trap .page va [])
      else if !grants e.word (permX + permU) then .error (.trap .perm va [])
      else
        match (entryPa s e va).map Loc.mem with
        | none => .error (.trap .perm va [])
        | some l =>
          if isPoisoned s l then .error (.trap .machine va [])
          else .ok (BitVec.ofNat 32 (ofLeBytes (rawRead (recallLoc (commitEarly s l 4) l) l 4)))

/-- The words of a bundle up to its stop bit, at most n of them. -/
def peekWords (s : State) (ch part va : Nat) : Nat → List W32 → Except Peek (List W32)
  | 0, ws => .ok ws
  | n + 1, ws =>
    match bundleWord s ch part va with
    | .error (.trap c a _) => .error (.trap c a (ws.map sylSlot))
    | .error p => .error p
    | .ok w => if sylStop w then .ok (ws ++ [w]) else peekWords s ch part ((va + 4) % 2 ^ 52) n (ws ++ [w])

/-- The next bundle of context id, judged as it would read the registers if it issued now. -/
def peekBundle (s : State) (id : Nat) : Peek :=
  let c := s.ctx id
  match peekWords s (ctxChisel id) c.part (vaOf c.pc) 6 [] with
  | .error p => p
  | .ok ws =>
    match decodeBundle c.delay.isSome ws with
    | .error .branchInDelay => .trap .branchInDelay 0 (ws.map sylSlot)
    | .error _ => .trap .illegal 0 (ws.map sylSlot)
    | .ok is =>
      if is.any (fmtTrap { tickFlight s id with ctxId := id }) then .trap .fmt 0 (ws.map sylSlot) else .bundle is ws.length

/-! ## Which contexts can issue -/

def usesLoadPath : Instr → Bool
  | .oload _ _ => true
  | .mstore _ _ => true
  | _ => false

def isTpop : Instr → Bool
  | .tpop _ => true
  | _ => false

/-- The M unit or the load path is not free for a bundle (R314, R321, R325). -/
def unitBusy (s : State) (ch : Nat) (is : List Instr) : Bool :=
  let x := s.chisel ch
  is.any fun i =>
    match i with
    | .mcall n _ _ _ => decide (s.cycle < x.mBusy) || decide (s.cycle < x.storeBusy.getD n.toNat 0)
    | .oload _ _ => decide (s.cycle < x.loadBusy)
    | .mstore _ _ => decide (s.cycle < x.loadBusy)
    | _ => false

/-- A context whose bundle does not issue in this a-cycle: HELD on a miss (R294), FROZEN at a TPOP without a handle (R299). -/
def parkCtx (s : State) (id : Nat) (p : Peek) : State :=
  match p with
  | .miss va => s.modCtx id fun c => { c with run := .held (some va) }
  | .bundle is _ => if is.any isTpop ∧ (s.ctx id).queue.isEmpty then s.modCtx id fun c => { c with run := .frozen } else s
  | .trap _ _ _ => s

/-- A context that can be taken in this a-cycle. -/
def canIssue (s : State) (id : Nat) (p : Peek) : Bool :=
  match p with
  | .miss _ => false
  | .trap _ _ _ => true
  | .bundle is _ => !(is.any isTpop && (s.ctx id).queue.isEmpty) && !unitBusy s (ctxChisel id) is

/-- The slot code of a syllable, as its word carries it. -/
def slotOf (i : Instr) : Nat := ((encodeSyllable true i).map sylSlot).getD 0

/-- An MCALL, which enters the M unit after the T slot's ACLR (R317). -/
def isMcall : Instr → Bool
  | .mcall _ _ _ _ => true
  | _ => false

/-! ## Issue -/

/-- The program counter after a bundle of n words: delay slots run out, then a taken branch's target (R296). -/
def advancePc (before : Option (Nat × Option Nat)) (n : Nat) (c : Ctx) : Ctx :=
  let next := c.pc + BitVec.ofNat 64 (4 * n)
  match before with
  | none => { c with pc := next }
  | some (k, t) =>
    if k ≤ 1 then { c with delay := none, pc := (t.map (BitVec.ofNat 64)).getD next }
    else { c with delay := some (k - 1, t), pc := next }

/-- A fetch makes its translations the most recently used (R392). -/
def touchTlb (s : State) (id n : Nat) : State :=
  let c := s.ctx id
  (List.range n).foldl (fun s i =>
    match tlbLook (s.chisel (ctxChisel id)).tlb c.part (vaOf (c.pc + BitVec.ofNat 64 (4 * i))) with
    | some (_, l) => s.modChisel (ctxChisel id) fun x => { x with tlb := l }
    | none => s) s

/-- Run syllables whose bundle has passed its checks. -/
def runSyllables (run : Instr → State → Out) (id : Nat) (is : List Instr) (s : State) : State :=
  is.foldl (fun s i =>
    match run i { s with ctxId := id, checked := true } with
    | .next s' => { s' with checked := false }
    | _ => s) s

/-- A bundle issues: its results in flight move on, its checks are made, and its syllables but an MCALL take effect. -/
def issueBundle (run : Instr → State → Out) (s : State) (id : Nat) (is : List Instr) (n : Nat) : State × Bool :=
  let before := (s.ctx id).delay
  let s := tickFlight (s.modCtx id fun c => { c with bundles := c.bundles + 1 }) id
  let s := { touchTlb s id n with ctxId := id }
  match bundleTrap s is with
  | some c => (chiselTrap s id c 0, false)
  | none => ((runSyllables run id (is.filter fun i => !isMcall i) s).modCtx id (advancePc before n), true)

/-- Take one context: its bundle issues or traps. An MCALL that is still to run is returned. -/
def takeCtx (run : Instr → State → Out) (s : State) (id : Nat) (p : Peek) : State × List (Nat × Instr) :=
  match p with
  | .bundle is n =>
    let (s, ok) := issueBundle run s id is n
    (s, if ok then (is.filter isMcall).map fun i => (id, i) else [])
  | .trap c addr _ => (chiselTrap s id c addr, [])
  | .miss _ => (s, [])

/-- The slot codes that a bundle carries (R51). -/
def peekSlots : Peek → List Nat
  | .bundle is _ => is.map slotOf
  | .trap _ _ l => l
  | .miss _ => []

def peekLoads : Peek → Bool
  | .bundle is _ => is.any usesLoadPath
  | _ => false

/-- May a bundle join the primary (R51): it has passed steps 1 to 3, and its slots and the load path are free. -/
def joins (p q : Peek) : Bool :=
  match q with
  | .bundle is _ => is.all (fun i => !(peekSlots p).contains (slotOf i)) && !(peekLoads p && peekLoads q)
  | _ => false

/-- The merge stage of chisel ch, and the M unit's microword of this a-cycle. -/
def chiselTurn (run : Instr → State → Out) (s : State) (ch : Nat) : State :=
  let part := (s.clusterPart (chiselCluster ch)).getD 0
  let hadRoutine := (s.chisel ch).routine.isSome
  let ready := ((List.range 8).map fun i => 8 * ch + i).filter fun id =>
    (s.ctx id).run == .ready && !(s.ctx id).frozenBy && !s.stopping part
  let peeks := ready.map fun id => (id, peekBundle s id)
  let s := peeks.foldl (fun s (id, p) => parkCtx s id p) s
  let able := peeks.filter fun (id, p) => canIssue s id p
  let order := (List.range 8).map fun i => 8 * ch + ((s.chisel ch).primary + 1 + i) % 8
  let (s, ms) : State × List (Nat × Instr) :=
    match order.findSome? fun id => able.find? fun x => x.1 == id with
    | none => (s, [])
    | some (id, p) =>
      let (s, m1) := takeCtx run (s.modChisel ch fun x => { x with primary := id % 8 }) id p
      match able.find? fun x => x.1 != id && joins p x.2 with
      | none => (s, m1)
      | some (id2, q) =>
        let (s, m2) := takeCtx run s id2 q
        (s, m1 ++ m2)
  let s := if hadRoutine then runNext s ch else s
  releaseSlots (ms.foldl (fun s (id, i) => runSyllables run id [i] s) s) ch

end Sys2Proof.Machine
end

