-- ==== Sys2Proof/Machine/Sched.lean ====
section
/-! DEFINITION. What may happen in the next g-cycle (log 4): the order in which a step with an empty agenda lists what ends the
g-cycle before, the clock, every third g-cycle the chisels (00 R6), the happenings that wait for their moment, the engines and the
grain cores. A happening that is not due when its turn comes changes nothing, so the list only has to name enough of them. -/

namespace Sys2Proof.Machine

/-- STIMER counts down in a strand that runs outside its trap window (R365); its last g-cycle is a happening. -/
def countDown (t : Strand) : Strand := if 1 < t.stimer ∧ !t.intrap ∧ !t.halted then { t with stimer := t.stimer - 1 } else t

/-- A strand that stalls until a g-cycle is READY when it has come (R31). -/
def readyAt (now : Nat) (t : Strand) : Strand :=
  match t.run with
  | .stall (.turn c) => if c ≤ now ∧ !t.halted then { t with run := .ready } else t
  | _ => t

/-- Strands whose STIMER passes its last g-cycle. -/
def expiring (s : State) : List Nat := (s.strands.filter fun (_, t) => t.stimer == 1 && !t.intrap && !t.halted).map (·.1)

/-- The clock advances by one g-cycle; cores whose slot no strand has used had an idle one (R191). -/
def tick (s : State) : State :=
  let idle (k : Nat) (t : Strand) : Strand := if slotUsed s (strandCore k) then t else t.sawIdle s.cycle
  { s with cycle := s.cycle + 1, strands := s.strands.map fun (k, t) => (k, readyAt (s.cycle + 1) (countDown (idle k t))),
           agenda := (expiring s).map (fun id => Turn.event (.stimerExpiry id)) ++ s.agenda }

/-- Happenings at a strand by its run state. -/
def runTurns (id : Nat) (t : Strand) : List Instr :=
  match t.run with
  | .free => []
  | .bound => [.footprintCopy id]
  | .ready => []
  | .wait _ _ => [.asyncTrapEntry id, .killEffect id]
  | .stall (.tlb _ _) => [.killEffect id, .tlbFill (.strand id)]
  | .stall (.depth _ _) => [.killEffect id, .heldAccessRejudge id]
  | .stall _ => [.asyncTrapEntry id, .killEffect id]

def strandTurns (s : State) (id : Nat) (t : Strand) : List Instr :=
  runTurns id t ++ t.pend.map (fun p => Instr.awaitedResultArrival (.strand id p.id))
    ++ (if t.winMove.isSome || t.spills then [.windowSpill id] else [])
    ++ (if t.winMove.isSome || t.fills then [.windowFill id] else [])
    ++ (if s.halting (s.strandPart id) then [.strandHalt id] else [])

def ctxTurns (id : Nat) (c : Ctx) : List Instr :=
  match c.run with
  | .held (some _) => [.tlbFill (.context id)]
  | .held none => [.awaitedResultArrival (.context id)]
  | .draining => [.tileTaskEnd id]
  | _ => []

def chiselTurns (n : Nat) (c : Chisel) : List Instr :=
  c.posts.map (fun p => Instr.postListEntry n (p.1 % 8)) ++ c.retry.map (fun r => Instr.postRetry r.1)
    ++ (List.range c.outbound.length).reverse.map fun k => Instr.outboundDelivery n k

/-- The expiries that a g-cycle ends with, after all else that it holds: of waits (R43), of the timers of OPEN tile buffers (R71), the
requests for pages that fills have made, behind the host's (R402), and the loss deadlines of requests, which a response of the same
g-cycle meets (R434, R447, R451). -/
def endings (s : State) : List Instr :=
  (s.strands.filter fun (_, t) => deadlinePassed s t && !t.halted).map (fun (id, _) => Instr.waitTimeout id)
    ++ (s.descs.filter fun (_, d) => d.st == .opened && (d.timer.map fun c => decide (c ≤ s.cycle)).getD false).map
        (fun (p, _) => Instr.sealTimerExpiry p)
    ++ (s.pages.filter fun (_, p) => p.waiting).map
        (fun (k, _) => Instr.migrationRequest (k / 2 ^ 48) (k % 2 ^ 48 * 65536) false)
    ++ s.reqs.map (fun r => Instr.requestLost r.rtag)
    ++ s.hostReqs.map (fun q => Instr.hmemTimeout q.tag)

/-- Tasks on their way to a strand (R35, R36). -/
def taskTurns (tid : Nat) (t : Task) : List Instr :=
  match t.st with
  | .queued _ => [.taskWalkHop tid]
  | .walking _ => [.taskWalkHop tid]
  | _ => []

def coreTurns (n : Nat) (c : Core) : List Instr :=
  c.parked.map (fun _ => Instr.parkedTaskRelease n) ++ (if c.stores.isEmpty then [] else [.storeCommit n 0])

def pageTurns (key : Nat) (p : Page) : List Instr :=
  let part := key / 2 ^ 48
  let va := key % 2 ^ 48 * 65536
  (if p.hold.isSome then [.holdEnd part va] else []) ++ (if p.moving.isSome then [.pageMove part va] else [])

/-- Strands that wait for a g-cycle to issue an access again (R404): their page's hold is looked at when it has come. -/
def remoteTurns (s : State) (id : Nat) (t : Strand) : List Instr :=
  match t.run with
  | .stall (.remote va c) => if c ≤ s.cycle + 1 then [.holdEnd (s.strandPart id) (va / 65536 * 65536)] else []
  | _ => []

/-- The front end of a partition, its halt and its save (R375, R381, R416 to R418). -/
def partTurns (s : State) (p : Nat) (x : Partition) : List Instr :=
  let ready : Bool := (List.range 16).any (fun q => (readyHead s p q).isSome) || x.roundPrio != 7 || x.roundCount != 0
  (if x.st = .running ∧ ready ∧ x.granting.isNone then [.launchGrant p] else [])
    ++ (if x.granting.isSome then [.launchRelease p] else [])
    ++ (if s.halting p then
          ((List.range 256).filter fun c => s.partHas p (chiselCluster c)).map (fun c => Instr.chiselFreeze c)
            ++ s.trowels.map fun (u, _) => Instr.trowelSuspend u
        else [])
    ++ (if x.haltedBit ∧ x.saveWanted then [.partitionSave p] else [])

def opTurns (k : Nat) (o : EngOp) : List Turn :=
  (if o.miss.isSome ∧ !o.missNone then [.event (.tlbFill (.engine k))] else []) ++ [.engine k, .event (.engineCompletion k)]

def streamTurns (k : Nat) (q : Stream) : List Turn :=
  let part := if k / 64 < 8 then k / 64 else 0xFF
  (if q.unacked.isEmpty then [] else [.event (.hostRetransmit part (k % 64))])
    ++ (if q.owing.isSome then [.event (.ackTimer part (k % 64))] else [])
    ++ (match q.held.find? fun x => x.msg.seq == q.next with
        | some x => [.host x.typ x.msg]
        | none => [])

def portTurns (s : State) (n : Nat) (p : Port) : List Turn :=
  (if p.st = .init then [.event (.initRetry n)] else []) ++ (if p.nakAt.isSome then [.event (.nakRetry n)] else [])
    ++ (if portFailed s n then [.event (.portFailure n)] else [])

def vbufTurns (e : Nat) (v : VBuf) : List Instr :=
  (if v.reuseAt.isSome then [.vbopenReuseWait e] else []) ++ (if v.opening.isSome ∨ v.change.isSome then [.vbopenTimeout e] else [])

/-- Cores with a strand that may issue, and chisels with work. -/
def busyCores (s : State) : List Nat :=
  ((s.strands.filter fun (_, t) => t.run == .ready && !t.halted).map fun (id, _) => strandCore id).eraseDups
def busyChisels (s : State) : List Nat :=
  (((s.ctxs.filter fun x => x.2.run != .free).map fun x => ctxChisel x.1)
    ++ ((s.chisels.filter fun x => x.2.routine.isSome).map fun x => x.1)).eraseDups

def mgmtTurns (m : Mgmt) : List Instr :=
  (if m.phase = .boot then [.boot] else []) ++ (if m.fwBusy then [.fwOpComplete 0] else [])
    ++ (if m.attBusy then [.attestationReady] else [])

/-- What the happenings of the tables list. -/
def happenings (s : State) : List Instr :=
  mgmtTurns s.mgmt
    ++ s.strands.flatMap (fun (id, t) => strandTurns s id t ++ remoteTurns s id t)
    ++ s.tasks.flatMap (fun (tid, t) => taskTurns tid t)
    ++ s.cores.flatMap (fun (n, c) => coreTurns n c)
    ++ s.flying.map (fun _ => Instr.messageDelivery 0)
    ++ s.rows.map (fun _ => Instr.twrrRowApply 0)
    ++ s.notes.map (fun n => Instr.endNoticeArrival n.1 n.2.child)
    ++ (s.atoms.filter fun a => !a.admitted || a.pkt.isSome).map (fun a => Instr.atomicAdmit a.slice)
    ++ s.clusters.flatMap (fun (c, x) => if x.reports.isEmpty then [] else [Instr.faultReportDelivery c])
    ++ s.ctxs.flatMap (fun (id, c) => ctxTurns id c)
    ++ s.chisels.flatMap (fun (n, c) => chiselTurns n c)
    ++ (s.regions.filter fun (_, r) => r.st == .waiting || r.st == .aborted).map (fun (r, _) => Instr.regionCommit r)
    ++ s.swaps.map (fun (k, _) => Instr.swapLineMove k) ++ (if s.swapTodo.isEmpty then [] else [.swapLineMove s.swapNext])
    ++ s.pages.flatMap (fun (k, p) => pageTurns k p)
    ++ s.parts.flatMap (fun (p, x) => partTurns s p x)
    ++ s.launches.map (fun (_, l) => Instr.launchComplete l.part l.lid)
    ++ s.trowels.flatMap (fun (u, _) => [Instr.xnearStart u, Instr.trowelResume u])
    ++ s.chains.map (fun (i, _) => Instr.xcollChainStep i)
    ++ s.vbufs.flatMap (fun (e, v) => vbufTurns e v)

/-- One g-cycle's agenda. -/
def turns (s : State) : List Turn :=
  (endings s).map Turn.event ++ [.tick] ++ (if s.cycle % 3 = 2 then (busyChisels s).map Turn.chisel else [])
    ++ (happenings s).map Turn.event
    ++ s.ops.flatMap (fun (k, o) => opTurns k o)
    ++ s.streams.flatMap (fun (k, q) => streamTurns k q)
    ++ s.ports.flatMap (fun (n, p) => portTurns s n p)
    ++ (busyCores s).map Turn.core

/-- An empty agenda is filled; a device without power has none (R455). -/
def refill (s : State) : State := { s with agenda := if s.mgmt.powered then turns s else [.tick] }

/-- A packet at the I/O die that is for this device (R440, R450). -/
def forMe (s : State) (p : Packet) : Bool := p.dst == s.devid || promotedFor s p.dst

/-- Send a packet on towards its destination, older by the time it spends here (R440, R446). -/
def forward (s : State) (typ : Nat) (p : Packet) : State := emit s typ p (some s.cycle)

/-- An ALT that serves for a lost peer takes the requests that reach the peer's memory, its banks and mailboxes; what answers the peer,
or concerns its own copies, is lost with it (R450). -/
def promotedTypes (typ : Nat) : Bool := typ == 1 || typ == 3 || typ == 6 || typ == 8 || typ == 10 || typ == 12

/-- A packet of a TYPE that R442 does not list (R448). -/
def strayPacket (s : State) : State := count s 7

/-- A packet at the I/O die (R440 to R442): on its way, or performed by its TYPE. -/
def packetTurn (typ : Nat) (p : Packet) (s : State) : Out :=
  if !fabricOn s then .next s
  else if !forMe s p then .next (forward s typ p)
  else if p.dst ≠ s.devid ∧ decide (1 ≤ typ) ∧ decide (typ ≤ 17) ∧ !promotedTypes typ then .next s
  else
    match typ with
    | 1 => execPut p s
    | 2 => execPutack p s
    | 3 => execFill p s
    | 4 => execFillr p s
    | 5 => execHeld p s
    | 6 => execAtom p s
    | 7 => execAtomr p s
    | 8 => execTrow p s
    | 9 => execTrowr p s
    | 10 => execMsg p s
    | 11 => execMsgr p s
    | 12 => execXread p s
    | 13 => execXreadr p s
    | 14 => execVnote p s
    | 15 => execVnack p s
    | 16 => execShadow p s
    | 17 => execShack p s
    | _ => .next (strayPacket s)

/-- A message of the host by its TYPE (R428), MIGR by its OP (R436). -/
def hostTurn (typ : Nat) (m : HostMsg) (s : State) : Out :=
  match typ with
  | 0 => execAck m s
  | 1 => execLaunch m s
  | 2 => execCancel m s
  | 3 => execWrite m s
  | 4 => execRead m s
  | 5 => execRdata m s
  | 7 => execStatus m s
  | 8 => execCfgw m s
  | 9 => execCfgr m s
  | 10 => execReg m s
  | 11 => execUnreg m s
  | 13 =>
    match numAt m.payload 0 2 with
    | 1 => execMigrRequest m s
    | 4 => execMigrData m s
    | 5 => execMigrComplete m s
    | _ => otherMessage typ m s
  | 14 => execReset m s
  | _ => otherMessage typ m s

/-- Only the controller acts on a device without power, and only by applying it (R458). -/
def happens (s : State) (i : Instr) : Bool :=
  s.mgmt.powered ||
    (match i with
    | .powerUp => true
    | _ => false)

end Sys2Proof.Machine
end

