-- ==== Sys2Proof/Machine/Step.lean ====
section
/-! DEFINITION. One step: the next turn of the agenda, or the filling of an empty one (log 4). -/

namespace Sys2Proof.Machine

/-- A grain core's instruction, and what follows every instruction (R142, R145). -/
def runGrain (s : State) (i : Instr) : Host.Outcome State Fault Refusal :=
  match exec i s with
  | .next s' => .next (afterGrain s s')
  | .fault f => .fault f
  | .refused r => .refused r

/-- One turn. -/
def turn (t : Turn) (s : State) : Host.Outcome State Fault Refusal :=
  match t with
  | .core n =>
    match issueCore s n with
    | .idle s => .next s
    | .run s i => runGrain s i
  | .chisel n => .next (chiselTurn exec s n)
  | .engine k => .next (engineTurn s k)
  | .tick => .next (tick s)
  | .event i => if happens s i then exec i s else .next s
  | .host typ m => hostTurn typ m s
  | .packet typ p => packetTurn typ p s

def step (s : State) : Host.Outcome State Fault Refusal :=
  match s.agenda with
  | [] => .next (refill s)
  | t :: rest => turn t { s with agenda := rest }

/-- s with a table word stored where step fetches its next instruction (log 5). -/
def State.withFetchWord (s : State) (nbits w : Nat) : State := placeWord s (leBytes 4 (w % 2 ^ nbits))

end Sys2Proof.Machine
end

