-- ==== Sys2Proof/Safety.lean ====
section
/-! DEFINITION. The terms in which statements speak: an instruction that completes, a run that does not stop, stores in
canonical form, and a core that is about to issue an instruction. -/

namespace Sys2Proof.Machine

/-! ## Completion -/

/-- No register that an instruction names is a pending token register, so it does not stall (R226). -/
def NoStall (s : State) (rs : List GReg) : Prop := pendingTok s.cur rs = none

/-- The next state, in which the acting strand is u and all else stands as in s. -/
def became (s : State) (u : Strand) : Out := .next (s.setCur u)

/-- The acting strand has written w to d and goes on at the following word. -/
def wrote (s : State) (d : GReg) (w : Word) : Out := became s { s.cur.write d w with pc := s.cur.pc + 4 }

/-- A result is outstanding that may stay away for l more instructions, and the strand goes on (R142). -/
def outstanding (s : State) (l : BitVec 4) (act : PendAct) (va : Nat) : Out :=
  became s { s.cur with pend := s.cur.pend ++ [⟨s.cur.pendNext, l.toNat, act, va⟩], pendNext := s.cur.pendNext + 1,
                        pc := s.cur.pc + 4 }

/-- A status is outstanding that goes to d and to STATUS (R45). -/
def reported (s : State) (d : GReg) (l : BitVec 4) (w : Word) : Out :=
  outstanding s l (.ready { regs := [(d, w)], status := some w }) 0

/-- A status of a code and an information field is outstanding that goes to d and to STATUS (R45). -/
def reports (s : State) (d : GReg) (l : BitVec 4) (c : Code) (info : Nat) : Out :=
  reported s d l (BitVec.ofNat 64 (c.num + 2 ^ 16 * info))

/-- The acting strand waits: never to expire for e = 31, else from 2^e g-cycles on (R43). -/
def waiting (s : State) (w : Wait) (e : BitVec 5) : Out :=
  became s { s.cur with run := .wait w (if e = 31 then none else some (s.cycle + 2 ^ e.toNat)) }

/-- The acting strand runs outside forwarding regions with its core's store buffer empty, no load or row of its own under way and no
store anywhere visible before its commit, so that an irrevocable instruction aborts nothing and a release has nothing to
wait for. -/
structure Calm (s : State) : Prop where
  noRegion : s.cur.region = none
  noStores : (s.core s.curCore).stores = []
  present : s.cur.halted = false
  noLoads : ∀ p ∈ s.cur.pend, loadOf p = none
  noEarly : ∀ c ∈ s.cores, ∀ b ∈ c.2.stores, b.early = []
  noRows : ∀ f ∈ s.rows, f.strand ≠ s.strandId

/-! ## Traps -/

/-- The acting strand runs outside a handler with no result outstanding and no forwarding region, so that a trap is taken at once. -/
structure Quiet (s : State) : Prop where
  outside : s.cur.intrap = false
  settled : s.cur.pend = []
  noRegion : s.cur.region = none

/-- The acting strand has entered its handler by a precise trap of its instruction (R363, R370): EPC, ESTATUS, ECAUSE, EADDR and
EINFO are written, the pc is at TVEC, and all else stands as in s, but for what the model keeps of an instruction under way. -/
def handled (s : State) (c : Cause) (inner code addr : Nat) : Out :=
  became s { s.cur with epc := s.cur.pc, intrap := true, priv := true, skip := decide (c = .brk ∨ c = .sys),
                        ecause := BitVec.ofNat 64 (c.num + 2 ^ 8 * inner + 2 ^ 16 * code), eaddr := BitVec.ofNat 64 addr,
                        einfo := 0, pc := s.cur.tvec, run := .ready, got := [], fillNone := none, owed := false }

/-! ## Numbers -/

/-- The value of a finite number, m x 2^e with its sign (R115). -/
def fpVal : Fp → ℚ
  | .fin neg m e => (if neg then -(m : ℚ) else m) * 2 ^ e
  | _ => 0

/-! ## Memory -/

/-- A write of memory changes the bytes written and nothing else: no store is visible before its commit, no core holds
update-only partials, no forwarding region tracks a sector or was aborted in this g-cycle (R265). -/
structure PlainMemory (s : State) : Prop where
  noEarly : ∀ c ∈ s.cores, ∀ b ∈ c.2.stores, b.early = []
  noPartials : ∀ c ∈ s.cores, c.2.red = []
  noRegions : ∀ r ∈ s.regions, r.2.st ≠ .live ∧ r.2.st ≠ .waiting ∧ justAborted s r.2 = false

/-- Nothing is under way in memory: every store buffer is empty, no load is still to be performed, no atomic waits at a home slice and no
forwarding region has accessed a sector, so that a change of tables has nothing to settle. -/
structure Still (s : State) : Prop where
  stores : ∀ c ∈ s.cores, c.2.stores = []
  loads : ∀ u ∈ s.strands, ∀ p ∈ u.2.pend, loadOf p = none
  atoms : s.atoms = []
  sectors : s.seqs = []

/-- No buffered store and no load still to be performed meets a tile, so that a change of its state has nothing to settle. -/
structure TileStill (s : State) (pos : Nat) : Prop where
  stores : ∀ c ∈ s.cores, ∀ b ∈ c.2.stores, locOverlap (.spad (posBase pos)) 0x800 b.loc b.bytes.length = false
  loads : ∀ u ∈ s.strands, ∀ p ∈ u.2.pend, ∀ x, loadOf p = some x → locOverlap (.spad (posBase pos)) 0x800 x.1 x.2.1 = false

/-- The checks of R198 pass for an access of n bytes: it is aligned, lies outside the system window, and is to be performed at loc
in state s', which differs from s in no strand. -/
structure Checked (s s' : State) (va n : Nat) (k : AKind) (loc : Loc) : Prop where
  aligned : va % n = 0
  ordinary : window va ≠ 15
  passes : accessCheck s va n k = .go s' loc
  sameId : s'.strandId = s.strandId
  sameCur : s'.cur = s.cur

/-! ## Chisels -/

/-- A result of the acting context is in flight with a latency, and nothing else changes (R292, R295). -/
def inFlight (s : State) (l : Nat) (d : CDest) : Out :=
  .next (s.setCtx s.ctxId { s.curCtx with flight := s.curCtx.flight ++ [⟨l, d⟩] })

/-- A syllable's bundle has passed its checks, or the syllable on its own passes them (R293). -/
def Passes (s : State) (i : Instr) : Prop := s.checked = true ∨ bundleTrap s [i] = none

/-! ## Messages of the host -/

/-- The device takes a message of the host: its port is up, the message is well-formed and its partition's streams do not restart
(R426, R427, R430). -/
structure Takes (s : State) (m : HostMsg) : Prop where
  up : s.mgmt.up = true
  wf : m.wf = true
  settled : enablingOf s m = none

/-- A message is the next on its stream in a state, with none held behind it (R430). -/
structure NextOn (s : State) (m : HostMsg) : Prop where
  next : (s.stream (msgKey m)).next = m.seq
  alone : (s.stream (msgKey m)).held = []

/-- The stream of m has applied it in u, and owes its acknowledgement (R430). -/
def passed (u : State) (m : HostMsg) : State :=
  let q := u.stream (msgKey m)
  u.setStream (msgKey m) { q with next := q.next + 1, held := [], owing := some u.cycle }

/-- So has it, and the answer of a TYPE is on its way and kept for duplicates (R430). -/
def replied (u : State) (m : HostMsg) (typ : Nat) (payload : List Byte) : State := answerOn (passed u m) m typ payload

/-! ## Runs -/

/-- n steps from s end in a state. -/
def RunsFor (n : Nat) (s : State) : Prop := ∃ t, Host.Core.run core n s = .next t

/-- Every byte store is in canonical form. -/
def State.storesOk (s : State) : Bool :=
  Memory.wf s.hbm && Memory.wf s.spad && Memory.wf s.opmem && Memory.wf s.accMem
    && Memory.wf s.routineMem && Memory.wf s.mgmt.store

/-! ## Issue -/

/-- Core n, whose slot is free in this g-cycle, takes strand id at an instruction boundary at which nothing else is due (R32, R42,
R142, R369). -/
structure TakesStrand (s : State) (n id : Nat) : Prop where
  slot : slotUsed s n = false
  picked : pickStrand s n = some id
  noKill : (s.strand id).killDue = false
  noTrap : asyncDue (s.strand id) = false
  windowOpen : ((s.strand id).pend.any fun p => p.left == 0) = false
  noFrame : (s.strand id).activeFrame = none
  aligned : (s.strand id).pc.toNat % 4 = 0

/-- The word at the acting strand's program counter is translated through entry e to pa, may be fetched, and decodes to i
(R188, R394, R164); an instruction that ends windows finds no result outstanding (R143). -/
structure FetchesWord (s : State) (e : Entry) (pa : Nat) (i : Instr) : Prop where
  paged : window (vaOf s.cur.pc) < 8
  mapped : (leafCmp e.word && e.surface.isNone) = false
  allowed : grants e.word (permX + if s.cur.priv then 0 else permU) = true
  resident : e.until_ = none
  place : entryPa s e (vaOf s.cur.pc) = some pa
  clean : meetsPoison s s.curCore s.curPart (.mem pa) 4 = false
  decodes : decodeGrain (BitVec.ofNat 32 (ofLeBytes (coreRead (recallLoc s (.mem pa)) s.curCore s.curPart (.mem pa) 4))) = .ok i
  windowsEnd : endsWindows i = true → (recallLoc s (.mem pa)).cur.pend = []

end Sys2Proof.Machine
end

