-- ==== Sys2Proof/Certificates/Slice0/Obligations.lean ====
section
/-! DEFINITION. The statements for the provers, in the order of OBLIGATIONS.json. -/

open Sys2Proof Sys2Proof.Machine

/-! ## The machine -/

/-- What reset leaves (R31, R361, R368, R411, R430, R443, R458): every strand FREE with an empty window of depth 1, every
partition OFF with the reset values of its blocks, both sequences of every stream at 1, every port down, memory clear of
poison, the device in bring-up with its host port down. That memory reads zero is the model's choice (log 1), and so is that
strands and contexts are FREE and barriers not LIVE, with zero in every register that no rule resets (log 3). -/
def Obligations.ResetState : Prop :=
  (∀ id, let t := State.reset.strand id
    t.run = .free ∧ t.depth = 1 ∧ t.fstat = 0 ∧ t.frmode = 0 ∧ t.stimer = 0 ∧ t.priv = false ∧ t.intrap = false
      ∧ t.mailbox = [] ∧ t.pendTok = [] ∧ t.groups = [] ∧ t.region = none)
  ∧ (∀ p, let x := State.reset.part p
    x.st = .off ∧ x.err = 0 ∧ x.prect = 0 ∧ x.ptroot = 0 ∧ x.holdoff = 200 ∧ x.lqprio = 0 ∧ x.lqweight = 0x87654321
      ∧ x.tvec0 = 0 ∧ x.savebase = 0 ∧ x.atomq = 64 ∧ x.busy = false ∧ x.haltedBit = false ∧ x.savedBit = false)
  ∧ (∀ k, (State.reset.stream k).next = 1 ∧ (State.reset.stream k).send = 1)
  ∧ (∀ n, (State.reset.port n).st = .down ∧ (State.reset.region n).st = .free ∧ (State.reset.barrier n).live = false)
  ∧ (∀ c, (State.reset.ctx c).run = .free ∧ (State.reset.ctx c).queue = [])
  ∧ State.reset.cycle = 0 ∧ State.reset.devid = 0 ∧ State.reset.mgmt.phase = .boot ∧ State.reset.mgmt.up = false
  ∧ (∀ a, isPoisoned State.reset (.mem a) = false ∧ State.reset.hbm.get a = 0)

/-- Nothing stops: every instruction and happening of the table, in every state, gives a next state, so does every step, and
so a run of any length from any state goes on. -/
def Obligations.NothingStops : Prop :=
  (∀ (i : Instr) (s : State), ∃ t, exec i s = .next t) ∧ (∀ s : State, ∃ t, step s = .next t)
    ∧ ∀ (n : Nat) (s : State), RunsFor n s

/-- A step at which core n has its issue slot runs exactly the instruction that the word at the program counter of the
strand it takes decodes to (R32, R136, R188): `exec` at the state in which the strand acts, its translation has become the
most recently used and update-only partials of the fetched line have come home; then what follows every instruction
(`afterGrain`: results outstanding come closer by one instruction, the rotation moves on). -/
def Obligations.StepRunsDecoded : Prop :=
  ∀ (s s' t : State) (n id pa : Nat) (e : Entry) (i : Instr) (rest : List Turn),
    s.agenda = .core n :: rest → TakesStrand { s with agenda := rest } n id →
    coreLook { s with agenda := rest, strandId := id } (vaOf (s.strand id).pc) = (s', some e) →
    FetchesWord s' e pa i → exec i (recallLoc s' (.mem pa)) = .next t →
    step s = .next (afterGrain (recallLoc s' (.mem pa)) t)

/-- A step at which a happening is due runs exactly it, on the state with that turn taken off the agenda; a message of the host
by its TYPE, MIGR by its OP, and a packet for this device by its TYPE likewise, each TYPE that R428 and R442 let come in; a
message of any other is answered INVALID; an empty agenda is filled (the model's order of events, log 4), with the clock in
it, behind the expiry of every wait whose deadline has come (R43: what happens in a g-cycle comes before it).

The clock (R361, R365): a tick adds one g-cycle and counts STIMER down in every strand that runs outside its trap window,
down to its last g-cycle, which is a happening of its own. -/
def Obligations.StepRunsHappening : Prop :=
  (∀ (s : State) (rest : List Turn),
    (∀ i, s.agenda = .event i :: rest → s.mgmt.powered = true → step s = exec i { s with agenda := rest })
    ∧ (∀ (m : HostMsg) (k : Nat) (i : Instr), s.agenda = .host k m :: rest →
        (k, i) ∈ [(0, Instr.ack m), (1, .launch m), (2, .cancel m), (3, .write m), (4, .read m), (5, .rdata m), (7, .status m),
          (8, .cfgw m), (9, .cfgr m), (10, .reg m), (11, .unreg m), (14, .reset m)]
        ∨ (k = 13 ∧ (numAt m.payload 0 2, i) ∈ [(1, Instr.migrRequest m), (4, .migrData m), (5, .migrComplete m)]) →
        step s = exec i { s with agenda := rest })
    ∧ (∀ (m : HostMsg) (k : Nat), s.agenda = .host k m :: rest →
        k = 6 ∨ k = 12 ∨ 15 ≤ k ∨ (k = 13 ∧ numAt m.payload 0 2 ∉ [1, 4, 5]) →
        let s0 := { s with agenda := rest }
        Takes s0 m → NextOn (takeAck s0 m) m → step s = .next (replied (takeAck s0 m) m 7 (leBytes 8 6)))
    ∧ (∀ (p : Packet) (k : Nat) (i : Instr), s.agenda = .packet k p :: rest →
        (k, i) ∈ [(1, Instr.put p), (2, .putack p), (3, .fill p), (4, .fillr p), (5, .held p), (6, .atom p), (7, .atomr p), (8, .trow p),
          (9, .trowr p), (10, .msg p), (11, .msgr p), (12, .xread p), (13, .xreadr p), (14, .vnote p), (15, .vnack p),
          (16, .shadow p), (17, .shack p)] →
        (s.mgmt.phase = .ready ∨ s.mgmt.phase = .tripped → p.dst = s.devid → step s = exec i { s with agenda := rest })
        ∧ (s.mgmt.phase ≠ .ready → s.mgmt.phase ≠ .tripped → step s = .next { s with agenda := rest }))
    ∧ (s.agenda = [] → s.mgmt.powered = true → ∃ l1 l2, step s = .next { s with agenda := l1 ++ .tick :: l2 }
      ∧ ∀ p ∈ s.strands, deadlinePassed s p.2 = true → p.2.halted = false → .event (.waitTimeout p.1) ∈ l1))
  ∧ (∀ (s : State) (rest : List Turn), s.agenda = .tick :: rest → ∃ t, step s = .next t ∧ t.cycle = s.cycle + 1
    ∧ ∀ id, (t.strand id).stimer
        = (if 1 < (s.strand id).stimer ∧ (s.strand id).intrap = false ∧ (s.strand id).halted = false
            then (s.strand id).stimer - 1 else (s.strand id).stimer))

/-- Every step keeps the canonical form of every byte store: memory, the scratchpads, the operand slots, the
accumulators, the stored routines and the firmware store (addresses strictly rise, and no entry is what an unlisted byte reads
as). The form is the model's own (log 1). -/
def Obligations.StepKeepsStoresCanonical : Prop :=
  ∀ s t : State, s.storesOk = true → step s = .next t → t.storesOk = true

/-! ## Encodings -/

/-- A few words, written out from the encodings of the spec, decode to what they stand for: the worked words of the chapters
(LEA, CMPI.ltn, FCVT, STV, AMO, CAS2, RED, FENCE, RPT), an ADD, a BZ, a CTLRD, and syllables of the C, S0 and V slots. -/
def Obligations.WordsDecode : Prop :=
  decodeGrain 0x067191A8#32 = .ok (.lea (.w 3) (.w 1) (.w 2) 3)
  ∧ decodeGrain 0x66328064#32 = .ok (.cmpi .ltn (.w 1) (.w 2) 100)
  ∧ decodeGrain 0x0A533098#32 = .ok (.fcvtFloat (.w 2) (.w 3) 3 0 true)
  ∧ decodeGrain 0xB3120002#32 = .ok (.stv (.w 8) (.w 2) 2)
  ∧ decodeGrain 0x72329B41#32 = .ok (.amo .add .w64 .acq .device (.w 1) (.w 2) (.w 3))
  ∧ decodeGrain 0x7692B3C4#32 = .ok (.cas2 .ar .device (.w 4) (.w 2) (.w 6))
  ∧ decodeGrain 0x78129C00#32 = .ok (.red .add .f32 (.w 2) (.w 3))
  ∧ decodeGrain 0x7C160280#32 = .ok (.fence .rel .rect (.w 6))
  ∧ decodeGrain 0xE8262000#32 = .ok (.rpt 1 6 2 0)
  ∧ decodeGrain (1#6 ++ 17#5 ++ 18#5 ++ 3#5 ++ 0#4 ++ 0#7) = .ok (.add (.w 1) (.w 2) (.g 3))
  ∧ decodeGrain (0x36#6 ++ 20#5 ++ 0#5 ++ 0xFFFF#16) = .ok (.bz (.w 4) 0xFFFF)
  ∧ decodeSyllable (0#3 ++ 1#1 ++ 4#4 ++ 0#24) = .ok .done
  ∧ decodeSyllable (1#3 ++ 0#1 ++ 0#5 ++ 3#5 ++ 1#5 ++ 2#5 ++ 0#8) = .ok (.sAdd .s0 3 1 2)

/-- Decode and encode agree on every grain instruction: each well-formed instruction that has a word decodes from that word.

Decode and encode agree on every chisel syllable, whatever its stop bit. -/
def Obligations.EncodingsRoundTrip : Prop :=
  (∀ (i : Instr) (w : W32), i.wf = true → encodeGrain i = some w → decodeGrain w = .ok i)
  ∧ (∀ (stop : Bool) (i : Instr) (w : W32), i.wf = true → encodeSyllable stop i = some w →
    decodeSyllable w = .ok i ∧ sylStop w = stop)

/-- A grain word has one meaning: a word that decodes is the word that its instruction encodes to, and the instruction is
well-formed, so every reserved bit of an accepted word is zero (R141, R164). -/
def Obligations.GrainWordIsEncoding : Prop :=
  ∀ (i : Instr) (w : W32), decodeGrain w = .ok i → encodeGrain i = some w ∧ i.wf = true

/-! ## Registers -/

/-- The register file (R138, R189, R370): g0 reads zero and a write to it changes nothing; any other register reads back what
is written and leaves the others of both banks alone; in a handler w0 to w15 are the trap window, and the window stack keeps
its words.

A pending token register (R44, R226): ADD, FADD, DIV, AMO, TOPEN, BINIT and SQLOOK, of which one operand names it, stall
until the completion is written, and nothing else changes. FTEST and FCANCEL do not stall (R231). -/
def Obligations.RegistersAndTokens : Prop :=
  (∀ (t : Strand) (r q : GReg) (w : Word),
    t.read (.g 0) = 0 ∧ t.write (.g 0) w = t
    ∧ (r ≠ .g 0 → (t.write r w).read r = w)
    ∧ (q ≠ r → (t.write r w).read q = t.read q)
    ∧ (t.intrap = true → (t.write r w).windows = t.windows)
    ∧ (t.intrap = false → (t.write r w).trapWin = t.trapWin ∧ (t.write r w).windows.tail = t.windows.tail))
  ∧ (∀ (s : State) (d a b : GReg) (t : Fin 16), pendingTok s.cur [d, a, b] = some t.val →
    exec (.add d a b) s = became s { s.cur with run := .stall (.token t.val) }
    ∧ exec (.fadd d a b) s = became s { s.cur with run := .stall (.token t.val) }
    ∧ exec (.div d a b 0) s = became s { s.cur with run := .stall (.token t.val) }
    ∧ exec (.amo .add .w64 .rlx .device d a b) s = became s { s.cur with run := .stall (.token t.val) }
    ∧ exec (.topen d a b 0) s = became s { s.cur with run := .stall (.token t.val) }
    ∧ exec (.binit d a b 0) s = became s { s.cur with run := .stall (.token t.val) }
    ∧ exec (.sqlook d a b 0) s = became s { s.cur with run := .stall (.token t.val) })

/-! ## Integer and floating-point instructions -/

/-- The integer instructions of two registers (R172, R175, R178, R180, R181): d takes the value and the strand goes on; nothing
else changes. The shift amounts are bits 5..0 of b.

The immediate majors (R148, R172): imm16 is sign-extended for ADDI and MULI and zero-extended for ANDI, ORI and XORI; LUI
puts its sign-extended imm16 at bit 16.

Products, minima and maxima against exact integers (R172): MULH and MULHN give bits 127..64 of the 128-bit product, MIN
and MAX the smaller and the larger signed value, MINN and MAXN the unsigned ones.

CLZ, CTZ and POPC (R172): the counts, characterised bit by bit; each is at most 64, and is 64 for CLZ and CTZ of zero. -/
def Obligations.IntegerResults : Prop :=
  (∀ (s : State) (d a b : GReg) (sh : BitVec 4), NoStall s [d, a, b] →
    let x := s.cur.read a
    let y := s.cur.read b
    let n := y.toNat % 64
    exec (.add d a b) s = wrote s d (x + y) ∧ exec (.sub d a b) s = wrote s d (x - y)
    ∧ exec (.mul d a b) s = wrote s d (x * y)
    ∧ exec (.andG d a b) s = wrote s d (x &&& y) ∧ exec (.orG d a b) s = wrote s d (x ||| y)
    ∧ exec (.xorG d a b) s = wrote s d (x ^^^ y) ∧ exec (.andn d a b) s = wrote s d (x &&& ~~~y)
    ∧ exec (.shl d a b) s = wrote s d (x <<< n) ∧ exec (.shr d a b) s = wrote s d (x >>> n)
    ∧ exec (.sha d a b) s = wrote s d (x.sshiftRight n) ∧ exec (.rol d a b) s = wrote s d (x.rotateLeft n)
    ∧ exec (.sel d a b) s = wrote s d (if s.cur.read d = 0 then y else x)
    ∧ exec (.lea d a b sh) s = wrote s d (x + y <<< sh.toNat)
    ∧ exec (.hash64 d a b) s = wrote s d
        (let h := x + y.rotateLeft 29
         let h := h ^^^ (h >>> 31)
         let h := h * 0xD6E8FEB86659FD93#64
         let h := h ^^^ (h >>> 27)
         let h := h * 0xCF1BD2A58E03B9D1#64
         h ^^^ (h >>> 33))
    ∧ exec (.rect d a b) s = wrote s d
        (BitVec.ofNat 64 ((if x.toNat < 65536 then x.toNat else 0xFFFF) + 65536 * (if y.toNat < 65536 then y.toNat else 0xFFFF))))
  ∧ (∀ (s : State) (d a : GReg) (i : BitVec 16) (n : BitVec 6), NoStall s [d, a] → NoStall s [d] →
    let x := s.cur.read a
    exec (.addi d a i) s = wrote s d (x + i.signExtend 64) ∧ exec (.muli d a i) s = wrote s d (x * i.signExtend 64)
    ∧ exec (.andi d a i) s = wrote s d (x &&& i.zeroExtend 64) ∧ exec (.ori d a i) s = wrote s d (x ||| i.zeroExtend 64)
    ∧ exec (.xori d a i) s = wrote s d (x ^^^ i.zeroExtend 64)
    ∧ exec (.shli d a n) s = wrote s d (x <<< n.toNat) ∧ exec (.shri d a n) s = wrote s d (x >>> n.toNat)
    ∧ exec (.shai d a n) s = wrote s d (x.sshiftRight n.toNat) ∧ exec (.roli d a n) s = wrote s d (x.rotateLeft n.toNat)
    ∧ exec (.lui d i) s = wrote s d (i.signExtend 64 <<< 16))
  ∧ (∀ (s : State) (d a b : GReg), NoStall s [d, a, b] →
    let x := s.cur.read a
    let y := s.cur.read b
    exec (.mulh d a b) s = wrote s d ((x.signExtend 128 * y.signExtend 128).extractLsb' 64 64)
    ∧ exec (.mulhn d a b) s = wrote s d ((x.zeroExtend 128 * y.zeroExtend 128).extractLsb' 64 64)
    ∧ exec (.minG d a b) s = wrote s d (BitVec.ofInt 64 (min x.toInt y.toInt))
    ∧ exec (.maxG d a b) s = wrote s d (BitVec.ofInt 64 (max x.toInt y.toInt))
    ∧ exec (.minn d a b) s = wrote s d (BitVec.ofNat 64 (min x.toNat y.toNat))
    ∧ exec (.maxn d a b) s = wrote s d (BitVec.ofNat 64 (max x.toNat y.toNat)))
  ∧ (∀ (s : State) (d a : GReg), NoStall s [d, a] →
    let x := s.cur.read a
    (∃ n ≤ 64, exec (.clz d a) s = wrote s d (BitVec.ofNat 64 n) ∧ (∀ i < 64, 64 - n ≤ i → x.getLsbD i = false)
      ∧ (n < 64 → x.getLsbD (63 - n) = true))
    ∧ (∃ n ≤ 64, exec (.ctz d a) s = wrote s d (BitVec.ofNat 64 n) ∧ (∀ i < n, x.getLsbD i = false)
      ∧ (n < 64 → x.getLsbD n = true))
    ∧ exec (.popc d a) s = wrote s d (BitVec.ofNat 64 ((Finset.range 64).filter fun i => x.getLsbD i = true).card))

/-- CMP.cond and CMPI.cond write 1 when the condition holds and 0 otherwise; BR, BZ and BNZ branch on it (R173, R186). The
comparand of CMPI is zero-extended for ltn and gen, else sign-extended. -/
def Obligations.CompareAndBranch : Prop :=
  ∀ (s : State) (c : Cond) (d a b : GReg) (i : BitVec 13) (off : BitVec 16), NoStall s [d, a, b] → NoStall s [a, b] →
    NoStall s [d, a] → NoStall s [a] →
    let meets (x y : Word) : Prop := match c with
      | .eq => x = y
      | .ne => x ≠ y
      | .lt => x.toInt < y.toInt
      | .ge => y.toInt ≤ x.toInt
      | .ltn => x.toNat < y.toNat
      | .gen => y.toNat ≤ x.toNat
    let x := s.cur.read a
    let y := s.cur.read b
    let z : Word := if c = .ltn ∨ c = .gen then i.zeroExtend 64 else i.signExtend 64
    let taken : Strand := { s.cur with pc := s.cur.pc + 4 * off.signExtend 64 }
    let next : Strand := { s.cur with pc := s.cur.pc + 4 }
    (meets x y → exec (.cmp c d a b) s = wrote s d 1 ∧ exec (.br c a b off) s = became s taken)
    ∧ (¬meets x y → exec (.cmp c d a b) s = wrote s d 0 ∧ exec (.br c a b off) s = became s next)
    ∧ (meets x z → exec (.cmpi c d a i) s = wrote s d 1) ∧ (¬meets x z → exec (.cmpi c d a i) s = wrote s d 0)
    ∧ exec (.bz a off) s = became s (if x = 0 then taken else next)
    ∧ exec (.bnz a off) s = became s (if x = 0 then next else taken)

/-- BEXT gathers the bits of a that the mask b selects into the low bits of d, BDEP scatters the low bits of a to the
positions set in b (R176): bit by bit, with the number of mask bits below a position as its rank.

CRC32C advances the CRC by the 64 bits of b, bit 0 first (R177); HAMD counts the bit positions in which two groups of four
registers differ (R179); MESHXY moves a packed coordinate or the core of a scratchpad address by two signed offsets, and gives
0xFFFF where the result names no core (R180). -/
def Obligations.FieldsAndDigests : Prop :=
  (∀ (s : State) (d a b : GReg), NoStall s [d, a, b] →
    let x := s.cur.read a
    let y := s.cur.read b
    let rank (i : Nat) : Nat := ((Finset.range i).filter fun j => y.getLsbD j = true).card
    (∃ w : Word, exec (.bext d a b) s = wrote s d w ∧ (∀ i < 64, y.getLsbD i = true → w.getLsbD (rank i) = x.getLsbD i)
      ∧ ∀ j, rank 64 ≤ j → w.getLsbD j = false)
    ∧ ∃ w : Word, exec (.bdep d a b) s = wrote s d w ∧ ∀ i < 64, w.getLsbD i = (y.getLsbD i && x.getLsbD (rank i)))
  ∧ (∀ (s : State) (d a b : GReg), NoStall s [d, a, b] →
    let x := s.cur.read a
    let y := s.cur.read b
    let bit (c : BitVec 32) (i : Nat) : BitVec 32 :=
      if (c.getLsbD 0 ^^ y.getLsbD i) = true then (c >>> 1) ^^^ 0x82F63B78#32 else c >>> 1
    let cl := x.toNat / 2 ^ 23 % 32
    let ci := x.toNat / 2 ^ 18 % 32
    let pad : Bool := x.toNat / 2 ^ 48 % 16 == 8
    let named : Prop := if pad then ci ≤ 23 else x.toNat < 65536 ∧ x.toNat % 256 ≤ 47 ∧ x.toNat / 256 ≤ 15
    let mx : Int := (if pad then 6 * (cl % 8) + ci % 6 else x.toNat % 256 : Nat) + (y.extractLsb' 0 8).toInt
    let my : Int := (if pad then 4 * (cl / 8) + ci / 6 else x.toNat / 256 : Nat) + (y.extractLsb' 8 8).toInt
    exec (.crc32c d a b) s = wrote s d (((List.range 64).foldl bit (x.extractLsb' 0 32)).zeroExtend 64)
    ∧ (NoStall s (d :: groupRegs a ++ groupRegs b) →
        exec (.hamd d a b) s = wrote s d (BitVec.ofNat 64
          ((Finset.range 4).sum fun i => ((Finset.range 64).filter fun j =>
            (s.cur.read (GReg.plus a i)).getLsbD j ≠ (s.cur.read (GReg.plus b i)).getLsbD j).card)))
    ∧ (named ∧ 0 ≤ mx ∧ mx ≤ 47 ∧ 0 ≤ my ∧ my ≤ 15 → exec (.meshxy d a b) s = wrote s d (BitVec.ofInt 64 (mx + 256 * my)))
    ∧ (¬(named ∧ 0 ≤ mx ∧ mx ≤ 47 ∧ 0 ≤ my ∧ my ≤ 15) → exec (.meshxy d a b) s = wrote s d 0xFFFF))

/-- DIV, DIVN, REM and REMN never trap (R174): the quotient truncated towards zero and the remainder with the sign of the
dividend, all ones and the dividend for a zero divisor, the dividend and 0 for the one signed overflow. The result is
outstanding with lookahead L and reaches d when it arrives (R31, R142).

AWAITED_RESULT_ARRIVAL of a result whose values are fixed, of whatever instruction (R31, R45, R142, R170): its registers take
their values, STATUS its status if it has one, FSTAT its flags; it is no longer outstanding, and a strand that stalled for its results
issues again once none is left. A result that is not outstanding arrives without effect. -/
def Obligations.Division : Prop :=
  (∀ (s : State) (d a b : GReg) (l : BitVec 4), NoStall s [d, a, b] →
    let x := s.cur.read a
    let y := s.cur.read b
    let ovf : Bool := x == 0x8000000000000000 && y == 0xFFFFFFFFFFFFFFFF
    let q : Word := if y = 0 then 0xFFFFFFFFFFFFFFFF else if ovf then x else BitVec.ofInt 64 (x.toInt.tdiv y.toInt)
    let r : Word := if y = 0 then x else if ovf then 0 else BitVec.ofInt 64 (x.toInt - y.toInt * x.toInt.tdiv y.toInt)
    let un : Word := if y = 0 then 0xFFFFFFFFFFFFFFFF else BitVec.ofNat 64 (x.toNat / y.toNat)
    let rn : Word := if y = 0 then x else BitVec.ofNat 64 (x.toNat % y.toNat)
    exec (.div d a b l) s = outstanding s l (.ready { regs := [(d, q)] }) 0
    ∧ exec (.rem d a b l) s = outstanding s l (.ready { regs := [(d, r)] }) 0
    ∧ exec (.divn d a b l) s = outstanding s l (.ready { regs := [(d, un)] }) 0
    ∧ exec (.remn d a b l) s = outstanding s l (.ready { regs := [(d, rn)] }) 0)
  ∧ (∀ (s : State) (id k left va : Nat) (v : Deliver),
    let t := s.strand id
    let rest := t.pend.filter fun p => p.id != k
    ((t.pend.find? fun p => p.id == k) = some ⟨k, left, .ready v, va⟩ →
      exec (.awaitedResultArrival (.strand id k)) s =
        .next (s.setStrand id { v.regs.foldl (fun u r => u.write r.1 r.2) t with
          status := v.status.getD t.status, fstat := t.fstat ||| v.flags, pend := rest,
          run := if t.run = .stall .results ∧ rest.isEmpty then .ready else t.run }))
    ∧ ((t.pend.find? fun p => p.id == k) = none → exec (.awaitedResultArrival (.strand id k)) s = .next s))

/-- FADD, FSUB, FMUL and FFMA read FP32 from bits 31..0 of their sources, round the exact result once under FRMODE, write it with zero
above and OR their flags into FSTAT; FSQRT and FRCP deliver value and flags together when their result arrives (R122, R124, R126, R127,
R170, R171, R182). The exact operation and the rounding are the model's `fpAdd`, `fpMul`, `fpFma`, `fpSqrt` and `fpRcp`, and they are
right: of finite operands a finite result is the rounding of the exact value, NX saying whether it differs, and one that is not
finite is an overflow; a NaN gives the canonical NaN. A pattern r is z rounded down when the finite patterns up to z are
those up to r, rounded up likewise, rounded to nearest when no other is nearer and a tie has an even pattern; a square root is
compared by squares. -/
def Obligations.FloatResults : Prop :=
  ∀ (s : State) (d a b : GReg) (l : BitVec 4),
    let x := (s.cur.read a).toNat % 2 ^ 32
    let y := (s.cur.read b).toNat % 2 ^ 32
    let z := (s.cur.read d).toNat % 2 ^ 32
    let v := fpDecode fp32
    let rm := s.cur.frmode
    let put (r : Nat × Nat) : Out :=
      became s { s.cur.write d (BitVec.ofNat 64 r.1) with pc := s.cur.pc + 4, fstat := s.cur.fstat ||| r.2 }
    let late (r : Nat × Nat) : Out := outstanding s l (.ready { regs := [(d, BitVec.ofNat 64 r.1)], flags := r.2 }) 0
    let finite (p : Nat) : Prop := p % 2 ^ 31 ≤ 0x7F7FFFFF
    let val (p : Nat) : ℚ := fpVal (v p)
    let sum := fpAdd fp32 rm (v x) (v y)
    let diff := fpAdd fp32 rm (v x) (v y).neg
    let prod := fpMul fp32 rm (v x) (v y)
    let fused := fpFma fp32 rm (v x) (v y) (v z)
    let root := fpSqrt fp32 rm (v x)
    let rcp := fpRcp fp32 rm (v x)
    let rounds (r : Nat × Nat) (e : ℚ) : Prop := (r.2 % 2 = 1 ↔ val r.1 ≠ e) ∧ ∀ p < 2 ^ 32, finite p →
      (rm = 3 ∨ rm = 1 ∧ 0 ≤ e → (val p ≤ e ↔ val p ≤ val r.1))
      ∧ (rm = 2 ∨ rm = 1 ∧ e ≤ 0 → (e ≤ val p ↔ val r.1 ≤ val p))
      ∧ (rm = 0 → (val p < val r.1 → val p + val r.1 ≤ 2 * e) ∧ (val r.1 < val p → 2 * e ≤ val p + val r.1)
          ∧ (val p ≠ val r.1 → val p + val r.1 = 2 * e → r.1 % 2 = 0))
    let right (r : Nat × Nat) (e : ℚ) : Prop := (finite r.1 → rounds r e) ∧ (¬finite r.1 → val 0x7F7FFFFF < |e| ∧ r.2 = 5)
    (NoStall s [d, a, b] → exec (.fadd d a b) s = put sum ∧ exec (.fsub d a b) s = put diff ∧ exec (.fmul d a b) s = put prod
      ∧ exec (.ffma d a b) s = put fused)
    ∧ (NoStall s [d, a] → exec (.fsqrt d a l) s = late root ∧ exec (.frcp d a l) s = late rcp)
    ∧ (∀ r ∈ [sum, diff, prod, fused, root, rcp], r.1 < 2 ^ 32 ∧ r.2 < 32)
    ∧ (finite x → finite y → right sum (val x + val y) ∧ right diff (val x - val y) ∧ right prod (val x * val y)
      ∧ (finite z → right fused (val x * val y + val z)))
    ∧ (finite x → val x ≠ 0 → right rcp (1 / val x))
    ∧ (finite x → val x < 0 → root = (0x7FC00000, 16))
    ∧ (finite x → 0 ≤ val x → finite root.1 ∧ (root.2 % 2 = 1 ↔ val root.1 ^ 2 ≠ val x) ∧ ∀ p < 2 ^ 32, finite p → 0 ≤ val p →
      (rm = 3 ∨ rm = 1 → (val p ^ 2 ≤ val x ↔ val p ≤ val root.1)) ∧ (rm = 2 → (val x ≤ val p ^ 2 ↔ val root.1 ≤ val p))
      ∧ (rm = 0 → (val p < val root.1 → (val p + val root.1) ^ 2 ≤ 4 * val x)
          ∧ (val root.1 < val p → 4 * val x ≤ (val p + val root.1) ^ 2)))
    ∧ ((v x).isNan = true → ∀ r ∈ [sum, diff, prod, fused, root, rcp], r.1 = 0x7FC00000)
    ∧ ((v y).isNan = true → ∀ r ∈ [sum, diff, prod, fused], r.1 = 0x7FC00000)

/-- FMIN and FMAX (R183) return one of their operands, never round, order -0 below +0, prefer a number to a NaN, give the canonical
NaN for two NaNs and raise NV for a signalling NaN and no other flag. FCMP (R184) writes 1 or 0 to all of d by its condition, and
raises NV for a signalling NaN, of lt and le for any NaN; a NaN makes eq, lt and le write 0.

FCVT converts under FRMODE between the formats and the integer types, with SAT of its encoding; a reserved type traps FMT (R150,
R185, R370). Converting a value to its own format gives its pattern back and raises nothing, for every pattern of every format
that is not a NaN, under every rounding mode (R124). -/
def Obligations.ComparesAndConversions : Prop :=
  (∀ (s : State) (c : FCond) (d a b : GReg), NoStall s [d, a, b] →
    let x := (s.cur.read a).toNat % 2 ^ 32
    let y := (s.cur.read b).toNat % 2 ^ 32
    let v := fpDecode fp32
    let put (w flags : Nat) : Out :=
      became s { s.cur.write d (BitVec.ofNat 64 w) with pc := s.cur.pc + 4, fstat := s.cur.fstat ||| flags }
    let nv : Nat := if (v x).isSig || (v y).isSig then 16 else 0
    let nan : Bool := (v x).isNan || (v y).isNan
    let picked (big : Bool) (r : Nat) : Prop :=
      ((v x).isNan = true → (v y).isNan = true → r = 0x7FC00000)
      ∧ ((v x).isNan = true → (v y).isNan = false → r = y) ∧ ((v x).isNan = false → (v y).isNan = true → r = x)
      ∧ (nan = false → (r = x ∨ r = y)
          ∧ (big = false → fpLess (v x) (v r) = false ∧ fpLess (v y) (v r) = false)
          ∧ (big = true → fpLess (v r) (v x) = false ∧ fpLess (v r) (v y) = false))
      ∧ (x = 0x80000000 ∧ y = 0 ∨ x = 0 ∧ y = 0x80000000 → r = if big then 0 else 0x80000000)
    (∃ r, exec (.fmin d a b) s = put r nv ∧ picked false r) ∧ (∃ r, exec (.fmax d a b) s = put r nv ∧ picked true r)
    ∧ ∃ h : Bool, exec (.fcmp c d a b) s =
        put (if h then 1 else 0) (if nv = 16 ∨ ((c = .lt ∨ c = .le) ∧ nan = true) then 16 else 0)
      ∧ (c = .un → h = nan) ∧ (c ≠ .un → nan = true → h = false)
      ∧ (c ≠ .un → nan = false → h = (match c with
          | .eq => fpEq (v x) (v y)
          | .lt => fpLess (v x) (v y)
          | _ => !fpLess (v y) (v x))))
  ∧ ((∀ (s : State) (d a : GReg) (t u : BitVec 4) (sat : Bool), NoStall s [d, a] →
    let x := s.cur.read a
    let rm := s.cur.frmode
    let put (w : Word) (fl : Nat) : Out := became s { s.cur.write d w with pc := s.cur.pc + 4, fstat := s.cur.fstat ||| fl }
    let fmt : Out := .next (trap s .fmt)
    (5 ≤ t.toNat ∨ 5 ≤ u.toNat → exec (.fcvtFloat d a t u sat) s = fmt)
    ∧ (8 ≤ t.toNat ∨ 5 ≤ u.toNat → exec (.fcvtToInt d a t u) s = fmt)
    ∧ (5 ≤ t.toNat ∨ 8 ≤ u.toNat → exec (.fcvtFromInt d a t u) s = fmt)
    ∧ (∀ f g, fmtOf t.toNat = some f → fmtOf u.toNat = some g →
        exec (.fcvtFloat d a t u sat) s =
          (let r := fpConvert f rm sat (fpDecode g (x.toNat % 2 ^ g.width)); put (BitVec.ofNat 64 r.1) r.2))
    ∧ (∀ n sg g, intType t.toNat = some (n, sg) → fmtOf u.toNat = some g →
        exec (.fcvtToInt d a t u) s =
          (let r := toIntType (n, sg) rm (fpDecode g (x.toNat % 2 ^ g.width)); put (BitVec.ofInt 64 r.1) r.2))
    ∧ (∀ f n sg, fmtOf t.toNat = some f → intType u.toNat = some (n, sg) →
        exec (.fcvtFromInt d a t u) s =
          (let z := intRead (n, sg) x
           let r := fpRound f rm false (decide (z < 0)) z.natAbs 0
           put (BitVec.ofNat 64 r.1) r.2)))
  ∧ ∀ (k : Nat) (f : Fmt) (rm x : Nat), fmtOf k = some f → x < 2 ^ f.width → (fpDecode f x).isNan = false →
      fpConvert f rm false (fpDecode f x) = (x, 0))

/-! ## Control -/

/-- TRAP and SYSC trap BREAK and SYS with their imm16 as CODE (R195, R363, R370): EPC is the instruction's own address, SKIP is
set so that ERET goes on behind it, the strand runs its handler at TVEC at system privilege, and nothing else changes.

A trap waits for answers that are away and aborts the strand's live region: ABORT_EXPLICIT with the cause as DETAIL, here of one that no
other region depends on; in the trap window it is a double trap, and the task ends (R144, R265, R370, R371).

ERET (R373): to EPC, or EPC + 4 when SKIP is set, out of the trap window and back to user privilege; w0 to w15 name the top
window of the stack again. A misaligned address is a double trap, which ends the task (R371). That the handler's RPT frame
goes with it is log 21. -/
def Obligations.TrapsAndReturns : Prop :=
  (∀ (s : State) (i : BitVec 16), Quiet s →
    let t := s.cur
    let entered (cause : Nat) : Strand :=
      { t with epc := t.pc, intrap := true, priv := true, skip := true, ecause := BitVec.ofNat 64 (cause + 2 ^ 16 * i.toNat),
               eaddr := 0, einfo := 0, pc := t.tvec, run := .ready, got := [], fillNone := none, owed := false }
    exec (.trap i) s = became s (entered 10) ∧ exec (.sysc i) s = became s (entered 9))
  ∧ (∀ (s : State) (i : BitVec 16), ∃ t, exec (.trap i) s = .next t ∧
    let u := t.strand s.strandId
    (s.cur.intrap = false → answersAway s.cur = true → t = s.setCur { s.cur with run := .stall .results, owed := true })
    ∧ (s.cur.intrap = false → answersAway s.cur = false →
        u.epc = s.cur.pc ∧ u.intrap = true ∧ u.priv = true ∧ u.pc = u.tvec ∧ u.run = .ready
        ∧ (s.cur.pend = [] → ∀ r, s.cur.region = some r → (t.region r).st ≠ .live ∧ (t.region r).st ≠ .waiting
            ∧ ((s.region r).st = .live ∨ (s.region r).st = .waiting → (∀ x ∈ s.regions, r ∉ x.2.preds) →
              (t.region r).st = .aborted ∧ (t.region r).code = 13 ∧ (t.region r).detail = 10)))
    ∧ (s.cur.intrap = true → u.run = .free))
  ∧ (∀ (s : State), s.cur.priv = true →
    let x := s.cur.epc + (if s.cur.skip then 4 else 0)
    (x.toNat % 4 = 0 →
      exec .eret s = became s { s.cur with intrap := false, priv := false, skip := false, trapFrame := none, pc := x }
      ∧ ∀ t, exec .eret s = .next t → ∀ n, t.cur.read (.w n) = (s.cur.windows.headD (.replicate 16 0))[n])
    ∧ (x.toNat % 4 ≠ 0 → s.cur.intrap = true → ∃ t, exec .eret s = .next t ∧ (t.strand s.strandId).run = .free))

/-- Asynchronous traps and STIMER (R363, R365, R369, R370): at a boundary outside a handler the strand takes the first of ENGINE, TIMER and
PREEMPT that is due; the last g-cycle of STIMER makes a TIMER trap due.

What is open only at system privilege traps PERM at user privilege, before anything else (R153, R360, R365): the SYS major,
control registers from 0x0100, a write of FAULTEND, the system window. -/
def Obligations.AsynchronousTrapsAndPrivilege : Prop :=
  (∀ (s : State) (id : Nat),
    let t := s.strand id
    let enter (c : Cause) (r : EngReport) (f : Strand) : Strand :=
      { f with epc := t.pc, intrap := true, priv := true, skip := false, eaddr := BitVec.ofNat 64 r.addr, pc := t.tvec, run := .ready,
               got := [], fillNone := none, owed := false,
               ecause := BitVec.ofNat 64 (c.num + 2 ^ 8 * (r.inner % 2 ^ 6) + 2 ^ 32 * (r.tok % 2 ^ 5)), einfo := BitVec.ofNat 64 r.elem }
    (asyncDue t = true → t.pend = [] → t.region = none →
      (∀ r rest, t.reports = r :: rest → exec (.asyncTrapEntry id) s = .next (s.setStrand id (enter .engine r { t with reports := rest })))
      ∧ (t.reports = [] → t.timerDue = true →
          exec (.asyncTrapEntry id) s = .next (s.setStrand id (enter .timer ⟨0, 0, 0, 0, 0⟩ { t with timerDue := false })))
      ∧ (t.reports = [] → t.timerDue = false →
          exec (.asyncTrapEntry id) s = .next (s.setStrand id (enter .preempt ⟨0, 0, 0, 0, 0⟩ { t with preemptDue := false }))))
    ∧ (asyncDue t = false → exec (.asyncTrapEntry id) s = .next s)
    ∧ (t.stimer = 1 → t.intrap = false → t.halted = false →
        exec (.stimerExpiry id) s = .next (s.setStrand id { t with stimer := 0, timerDue := true }))
    ∧ (t.stimer ≠ 1 ∨ t.intrap = true ∨ t.halted = true → exec (.stimerExpiry id) s = .next s))
  ∧ (∀ (s : State) (d a b : GReg) (n : BitVec 16) (l : BitVec 4) (off : BitVec 12), Quiet s → s.cur.priv = false →
    let perm := handled s .perm 0 0 0
    exec .eret s = perm ∧ exec .waiti s = perm ∧ exec (.tlbwr d a b) s = perm ∧ exec (.tlbinv d a) s = perm
    ∧ (NoStall s [d] → 0x0100 ≤ n.toNat → exec (.ctlrd d n) s = perm ∧ exec (.ctlwr d n) s = perm ∧ exec (.faultend d) s = perm)
    ∧ (NoStall s [d, b] → let va := vaOf (s.cur.read b + off.signExtend 64 * 8)
        va % 8 = 0 → window va = 15 →
          exec (.ld .i64 d b l off) s = handled s .perm 0 0 va ∧ exec (.st .b8 d b off) s = handled s .perm 0 0 va))

/-- Jumps, calls and returns (R187, R190, R191). J, CALL are pc-relative, JR and CALLR take bits 51..0 of a register; CALL and
CALLR push a window of zeros whose w15 is the return address; RET pops one; that CALLR and RET too take bits 51..0 is log 25.
A misaligned target traps ALIGN at the jump, with EADDR 0 (log 85), a call at depth 24 PERM, a return at depth 1 ILLEGAL;
with 8 windows resident, or the caller's not resident, the strand stalls.

In a handler, which has the trap window alone, CALL, CALLR and RET trap ILLEGAL, which there ends the task (R189, R371; for
CALLR whatever its target, log 84).

Window moves (R189, R191): a move takes four issue slots of its core, 32 bytes in each; a slot is to be had when the core has
not issued in this g-cycle and no strand of it qualifies, or when the strand has waited for 16 g-cycles without such an idle
slot. A spill writes the oldest of 7 or 8 resident windows to the 128 bytes that its depth gives it in the spill area, lowest
register and lowest byte first; a fill brings the newest spilled window back below the one that is resident; with the last
slot a strand that stalled for the move becomes READY. -/
def Obligations.JumpsAndWindows : Prop :=
  (∀ (s : State) (off : BitVec 26) (a : GReg), NoStall s [a] → Quiet s →
    let t := s.cur
    let x := t.read a
    let r := t.read (.w 15)
    let low (w : Word) : Word := w &&& 0x000FFFFFFFFFFFFF
    let pushed (pc : Word) : Strand :=
      { t with windows := (Vector.replicate 16 (0 : Word)).set 15 (t.pc + 4) :: t.windows, depth := t.depth + 1, pc := pc }
    let stalls : Out := became s { t with run := .stall (.windows s.cycle) }
    exec (.j off) s = became s { t with pc := t.pc + 4 * off.signExtend 64 }
    ∧ (x.toNat % 4 = 0 → exec (.jr a) s = became s { t with pc := low x })
    ∧ (x.toNat % 4 ≠ 0 → exec (.jr a) s = handled s .align 0 0 0 ∧ exec (.callr a) s = handled s .align 0 0 0)
    ∧ (t.depth < 24 → t.windows.length < 8 →
        exec (.call off) s = became s (pushed (t.pc + 4 * off.signExtend 64))
        ∧ (x.toNat % 4 = 0 → exec (.callr a) s = became s (pushed (low x))))
    ∧ (24 ≤ t.depth → exec (.call off) s = handled s .perm 0 0 0
        ∧ (x.toNat % 4 = 0 → exec (.callr a) s = handled s .perm 0 0 0))
    ∧ (t.depth < 24 → 8 ≤ t.windows.length → exec (.call off) s = stalls ∧ (x.toNat % 4 = 0 → exec (.callr a) s = stalls))
    ∧ (1 < t.depth → r.toNat % 4 = 0 → 2 ≤ t.windows.length →
        exec .ret s = became s { t with windows := t.windows.tail, depth := t.depth - 1, pc := low r })
    ∧ (1 < t.depth → r.toNat % 4 = 0 → t.windows.length < 2 → exec .ret s = stalls)
    ∧ (1 < t.depth → r.toNat % 4 ≠ 0 → exec .ret s = handled s .align 0 0 0)
    ∧ (t.depth ≤ 1 → exec .ret s = handled s .illegal 0 0 0))
  ∧ (∀ (s : State) (off : BitVec 26) (a : GReg), NoStall s [a] → s.cur.intrap = true →
    ∀ i ∈ [Instr.call off, .callr a, .ret], ∃ u, exec i s = .next u ∧ (u.strand s.strandId).run = .free)
  ∧ (∀ (s : State) (id : Nat),
    let n := (s.strand id).windows.length
    let core := strandCore id
    let idle : Bool := (pickStrand s core).isNone
    let t : Strand := { s.strand id with run := match (s.strand id).run with
      | .stall (.windows c) => .stall (.windows (if idle then s.cycle else c))
      | r => r }
    let woken : Run := match t.run with
      | .stall (.windows _) => .ready
      | r => r
    let mayUse : Bool := !t.halted && (s.core core).issuedAt != some s.cycle && (idle || (match t.run with
      | .stall (.windows c) => decide (c + 16 < s.cycle)
      | _ => false))
    let left (spill : Bool) : Nat := match t.winMove with
      | some m => if m.spill = spill then m.left else 4
      | none => 4
    let got : List Byte := match t.winMove with
      | some m => if m.spill then [] else m.got
      | none => []
    let kept : List Byte := match t.winMove with
      | some m => if m.spill then m.got else []
      | none => []
    let base := spillBase id + 128 * (t.depth - n - 1)
    let read : List Byte := got ++ coreRead s core (s.strandPart id) (.spad (base + 32 * (4 - left false))) 32
    (mayUse = false → exec (.windowSpill id) s = .next s ∧ exec (.windowFill id) s = .next s)
    ∧ (mayUse = true → PlainMemory s → Memory.wf s.spad = true → 7 ≤ n → t.depth ≤ 15 + n → 1 ≤ left true →
      ∃ u, exec (.windowSpill id) s = .next u ∧ u.hbm = s.hbm ∧ (u.core core).issuedAt = some s.cycle
        ∧ u.strand id = (if left true = 1 then { t with windows := t.windows.dropLast, winMove := none, run := woken }
            else { t with winMove := some { spill := true, left := left true - 1, got := kept } })
        ∧ ∀ a, u.spad.get a =
            (let base := spillBase id + 128 * (t.depth - n)
             let first := base + 32 * (4 - left true)
             if first ≤ a ∧ a < first + 32 then
               let w := (t.windows.getLastD (.replicate 16 0)).toList.getD ((a - base) / 8) 0
               w.extractLsb' (8 * ((a - base) % 8)) 8
             else s.spad.get a))
    ∧ (mayUse = true → n < 2 → n < t.depth → 1 ≤ left false → ∃ u, exec (.windowFill id) s = .next u ∧ u.spad = s.spad ∧ u.hbm = s.hbm
        ∧ (u.core core).issuedAt = some s.cycle
        ∧ (left false ≠ 1 → u.strand id = { t with winMove := some { spill := false, left := left false - 1, got := read } })
        ∧ (left false = 1 → ∃ w, u.strand id = { t with windows := t.windows ++ [w], winMove := none, run := woken }
            ∧ ∀ i : Fin 16, w[i] = BitVec.ofNat 64 (ofLeBytes ((read.drop (8 * i.val)).take 8)))))

/-- CTLRD of each control register (R153, R361, R362): the user registers at either privilege, the system registers at system
privilege; FAULTEND, which can only be written, reads zero (R7); a number that names none traps ILLEGAL. TASKID reads the
task's id (R223). CYCLE, the core and the partition come from the device.

CTLWR of each control register (R8, R122, R126, R153, R361, R362, R365): the registers that take a write take the bits that
exist, the read-only ones ignore it (that such a write goes on at all is log 2); a write of FAULTEND, as FAULTEND itself,
ends the task and frees the strand; a number that names none traps ILLEGAL. -/
def Obligations.ControlRegisters : Prop :=
  (∀ (s : State) (d : GReg) (n : BitVec 16), NoStall s [d] →
    let t := s.cur
    let gives (k : BitVec 16) (w : Word) : Prop := exec (.ctlrd d k) s = wrote s d w
    gives 0x0000 t.status ∧ gives 0x0001 (BitVec.ofNat 64 t.fstat) ∧ gives 0x0002 (BitVec.ofNat 64 t.frmode)
    ∧ gives 0x0003 (BitVec.ofNat 64 (s.strandId % 16)) ∧ gives 0x0004 (BitVec.ofNat 64 (coreXY (s.strandId / 16)))
    ∧ gives 0x0005 t.taskSink ∧ gives 0x0006 t.scopeRect
    ∧ exec (.taskid d) s = wrote s d (BitVec.ofNat 64 t.task)
    ∧ (t.priv = true →
        gives 0x0100 (BitVec.ofNat 64 (1 + (if t.intrap then 2 else 0) + (if t.skip then 4 else 0)))
        ∧ gives 0x0101 t.epc ∧ gives 0x0102 t.ecause ∧ gives 0x0103 t.eaddr ∧ gives 0x0104 t.einfo ∧ gives 0x0105 t.tvec
        ∧ gives 0x0106 t.sscratch0 ∧ gives 0x0107 t.sscratch1 ∧ gives 0x0109 (BitVec.ofNat 64 t.stimer)
        ∧ gives 0x010A (BitVec.ofNat 64 s.cycle) ∧ gives 0x010B (BitVec.ofNat 64 t.depth)
        ∧ gives 0x010C (BitVec.ofNat 64 s.curPart) ∧ gives 0x010D 0 ∧ gives 0x010E (BitVec.ofNat 64 ((t.pendTok.map fun n => 2 ^ n).sum))
        ∧ (t.frame = none → gives 0x0108 0)
        ∧ ∀ f, t.frame = some f → gives 0x0108 (BitVec.ofNat 64 (2 ^ 31 + f.pass * 2 ^ 24 + f.idx * 2 ^ 20 + f.nm1 * 2 ^ 16
            + f.st * 2 ^ 12 + f.mask * 2 ^ 9 + f.km1 * 2 ^ 3)))
    ∧ (7 ≤ n.toNat → n.toNat ≤ 0xFF → exec (.ctlrd d n) s = .next (trap s .illegal))
    ∧ (t.priv = true → 0x010F ≤ n.toNat → exec (.ctlrd d n) s = .next (trap s .illegal)))
  ∧ (∀ (s : State) (a : GReg) (n : BitVec 16), NoStall s [a] →
    let t := s.cur
    let x := t.read a
    let makes (k : BitVec 16) (u : Strand) : Prop := exec (.ctlwr a k) s = became s { u with pc := t.pc + 4 }
    makes 0x0000 { t with status := x } ∧ makes 0x0001 { t with fstat := x.toNat % 32 }
    ∧ makes 0x0002 { t with frmode := x.toNat % 4 } ∧ makes 0x0003 t ∧ makes 0x0004 t
    ∧ makes 0x0005 { t with taskSink := x } ∧ makes 0x0006 { t with scopeRect := x }
    ∧ (t.priv = true →
        makes 0x0100 { t with skip := x.getLsbD 2 } ∧ makes 0x0101 { t with epc := x } ∧ makes 0x0102 t ∧ makes 0x0103 t
        ∧ makes 0x0104 t ∧ makes 0x0105 { t with tvec := x } ∧ makes 0x0106 { t with sscratch0 := x }
        ∧ makes 0x0107 { t with sscratch1 := x } ∧ makes 0x0108 t ∧ makes 0x0109 { t with stimer := x.toNat } ∧ makes 0x010A t
        ∧ makes 0x010B t ∧ makes 0x010C t ∧ makes 0x010E t
        ∧ (∃ u, exec (.ctlwr a 0x010D) s = .next u ∧ (u.strand s.strandId).run = .free)
        ∧ ∃ u, exec (.faultend a) s = .next u ∧ (u.strand s.strandId).run = .free)
    ∧ (7 ≤ n.toNat → n.toNat ≤ 0xFF → exec (.ctlwr a n) s = .next (trap s .illegal))
    ∧ (t.priv = true → 0x010F ≤ n.toNat → exec (.ctlwr a n) s = .next (trap s .illegal)))

/-- RPT opens a frame over the next n words with the fields of its encoding, in a handler beside the interrupted program's (log
21); YIELD marks the strand as one that yields for 16 g-cycles; WAITI completes, clearing the token-completion latch, when an
event is present, and else stays where it is; EXIT frees the strand, and so does a kill that takes effect (R42, R145, R194,
R196, R374). -/
def Obligations.FramesYieldsEnds : Prop :=
  ∀ (s : State) (nm1 : BitVec 4) (mask : BitVec 3) (st : BitVec 4) (km1 : BitVec 6) (id : Nat),
    let t := s.cur
    let f : Frame := { pass := 0, idx := 0, nm1 := nm1.toNat, st := st.toNat, mask := mask.toNat, km1 := km1.toNat, words := [] }
    let event : Bool := !t.mailbox.isEmpty || t.tokLatch || !t.reports.isEmpty || t.timerDue || t.preemptDue
    (t.intrap = false → exec (.rpt nm1 mask st km1) s = became s { t with frame := some f, pc := t.pc + 4 })
    ∧ (t.intrap = true → exec (.rpt nm1 mask st km1) s = became s { t with trapFrame := some f, pc := t.pc + 4 })
    ∧ exec .yield s = became s { t with yieldUntil := s.cycle + 17, pc := t.pc + 4 }
    ∧ (t.priv = true → t.region = none → event = true → exec .waiti s = became s { t with tokLatch := false, pc := t.pc + 4 })
    ∧ (t.priv = true → t.region = none → event = false → exec .waiti s = became s { t with yieldUntil := s.cycle + 17 })
    ∧ (∃ u, exec .exit s = .next u ∧ let v := u.strand s.strandId; v.run = .free ∧ v.depth = 1 ∧ v.groups = [] ∧ v.cands = [])
    ∧ ((s.strand id).killDue = true → (s.strand id).halted = false → (s.strand id).run ≠ .free → (s.strand id).run ≠ .bound →
        ∃ u, exec (.killEffect id) s = .next u ∧ (u.strand id).run = .free ∧ (u.strand id).groups = [])

/-! ## Memory -/

/-- A misaligned access traps ALIGN with its address before any other check, and nothing of it happens (R140, R198, R363).

The checks of a paged access through a TLB entry, in the order of R198: permission, place, range locks, a sealed versioned
buffer, poison; an access that passes them all is performed at the entry's place. Without an entry the strand stalls. -/
def Obligations.AccessChecks : Prop :=
  (∀ (s : State) (d a b : GReg) (l : BitVec 4) (off : BitVec 12) (ty : LdType) (sz : StSize) (wd : AWidth) (k : AmoKind) (o : Order)
    (sc : Scope) (rk : RedKind) (rt : RedType), Quiet s → NoStall s [d, b] → NoStall s (b :: groupRegs d) → NoStall s [d, a, b] →
    NoStall s (a :: pairRegs d ++ pairRegs b) → NoStall s [a, b] →
    let align (va : Nat) : Out := handled s .align 0 0 va
    let ea (n : Nat) : Nat := memAddr s.cur b off n
    let va := vaOf (s.cur.read a)
    (ea (LdType.size ty) % LdType.size ty ≠ 0 → exec (.ld ty d b l off) s = align (ea (LdType.size ty)))
    ∧ (ea (StSize.bytes sz) % StSize.bytes sz ≠ 0 → exec (.st sz d b off) s = align (ea (StSize.bytes sz)))
    ∧ (ea 32 % 32 ≠ 0 → exec (.ldv d b l off) s = align (ea 32) ∧ exec (.stv d b off) s = align (ea 32))
    ∧ (va % AWidth.bytes wd ≠ 0 → exec (.amo k wd o sc d a b) s = align va ∧ exec (.cas wd o sc d a b) s = align va)
    ∧ (va % 16 ≠ 0 → exec (.cas2 o sc d a b) s = align va)
    ∧ (rt = .f32 → rk ≠ .add → exec (.red rk rt a b) s = handled s .illegal 0 0 0)
    ∧ (¬(rt = .f32 ∧ rk ≠ .add) → va % redSize rt ≠ 0 → exec (.red rk rt a b) s = align va))
  ∧ (∀ (s s' : State) (va n : Nat) (k : AKind), window va < 8 →
    let wr : Bool := k != .load
    (coreLook s va = (s', none) → s'.cur.fillNone ≠ some (va / 65536) → accessCheck s va n k = .stall s' (.tlb va false))
    ∧ ∀ (e : Entry) (pa : Nat), coreLook s va = (s', some e) → e.until_ = none → (leafCmp e.word = false ∨ e.surface.isSome) →
        let allowed : Bool := grants e.word ((match k with
          | .load => permR
          | .atom => permR + permW
          | _ => permW) + if s'.cur.priv then 0 else permU)
        let locked : Bool := lockHit s' s'.curCluster va n wr
        let sealedHere : Bool := wr && ((vbufAt s' s'.curPart va).map fun x => (s'.vbuf x).isSealed).getD false
        let bad : Bool := (k == .load || k == .atom) && readsPoison s' va n (.mem pa)
        (allowed = false → accessCheck s va n k = .trap s' .perm)
        ∧ (allowed = true → entryPa s' e va = some pa → locked = true → accessCheck s va n k = .trap s' .rangeLocked)
        ∧ (allowed = true → entryPa s' e va = some pa → locked = false → sealedHere = true →
            accessCheck s va n k = .trap s' .sealedBuf)
        ∧ (allowed = true → entryPa s' e va = some pa → locked = false → sealedHere = false → bad = true →
            accessCheck s va n k = .trap s' .machine)
        ∧ (allowed = true → entryPa s' e va = some pa → locked = false → sealedHere = false → bad = false →
            accessCheck s va n k = .go s' (.mem pa)))

/-- LD, LDV and PREF of a strand without a region (R89, R142, R200, R202, R203): a load whose checks pass is outstanding, to be
performed when its result arrives (log 13); its destination then takes the bytes as its core sees them, lowest first, extended as its
type says; from a spill area with a window on the move it takes any (R64: free bytes, log 7). No byte of memory changes. -/
def Obligations.Loads : Prop :=
  ∀ (s s' : State) (ty : LdType) (d b : GReg) (l : BitVec 4) (off : BitVec 12) (loc : Loc), NoStall s [b] → NoStall s [d, b] →
    NoStall s (b :: groupRegs d) → s.cur.region = none → loc.isAway = false →
    let ea (n : Nat) : Nat := memAddr s.cur b off n
    let n := LdType.size ty
    exec (.pref b off) s = became s { s.cur with pc := s.cur.pc + 4 }
    ∧ (Checked s s' (ea n) n .load loc →
        exec (.ld ty d b l off) s = outstanding (orderLoads s' s'.strandId loc n) l (.load ty d loc) (ea n))
    ∧ (Checked s s' (ea 32) 32 .load loc →
        exec (.ldv d b l off) s = outstanding (orderLoads s' s'.strandId loc 32) l (.loadV d loc) (ea 32))
    ∧ ∀ (id k left va : Nat), PlainMemory s →
        let t := s.strand id
        let rest := t.pend.filter fun q => q.id != k
        let run : Run := if t.run = .stall .results ∧ rest.isEmpty then .ready else t.run
        let seen (m f : Nat) (bs : List Byte) : Prop := bs.length = m
          ∧ (onTheMove s loc = false → bs = coreRead s (strandCore id) (s.strandPart id) loc m ∧ f = s.freeCount)
        ((t.pend.find? fun p => p.id == k) = some ⟨k, left, .load ty d loc, va⟩ →
          ∃ bs f, seen n f bs ∧
          let x := ofLeBytes bs
          let w : Word := match ty with
            | .i8 => (BitVec.ofNat 8 x).signExtend 64
            | .i16 => (BitVec.ofNat 16 x).signExtend 64
            | .i32 => (BitVec.ofNat 32 x).signExtend 64
            | .i64 => BitVec.ofNat 64 x
            | .n8 => BitVec.ofNat 64 x
            | .n16 => BitVec.ofNat 64 x
            | .n32 => BitVec.ofNat 64 x
          exec (.awaitedResultArrival (.strand id k)) s =
            .next ({ s with freeCount := f }.setStrand id { t.write d w with pend := rest, run := run }))
        ∧ ((t.pend.find? fun p => p.id == k) = some ⟨k, left, .loadV d loc, va⟩ →
          ∃ bs f, seen 32 f bs ∧
          let w (i : Nat) : Word := BitVec.ofNat 64 (ofLeBytes ((bs.drop (8 * i)).take 8))
          exec (.awaitedResultArrival (.strand id k)) s =
            .next ({ s with freeCount := f }.setStrand id
              { (((t.write d (w 0)).write (GReg.plus d 1) (w 1)).write (GReg.plus d 2) (w 2)).write (GReg.plus d 3) (w 3)
                with pend := rest, run := run }))

/-- ST and STV of a strand without a region (R90, R201, R202): a store whose checks pass enters its core's store buffer, behind the
stores that stand there, and no byte of memory changes yet; a load of its core finds the stored bytes. One to a page that runs
remote asks the host (R404), and the strand waits for the answer (log 24): to write the granule, or, for less than a granule,
to read it first (log 76).

STORE_COMMIT (R91): the k-th store of a core's buffer leaves it and its bytes reach its place; every other byte of memory and
of the scratchpads stands. A store that an earlier one overlaps waits for that one. -/
def Obligations.Stores : Prop :=
  (∀ (s s' : State) (sz : StSize) (d b : GReg) (off : BitVec 12) (loc : Loc), NoStall s [d, b] → NoStall s (b :: groupRegs d) →
    s.cur.region = none →
    let ea (n : Nat) : Nat := memAddr s.cur b off n
    let n := StSize.bytes sz
    let entered (t : Out) (va : Nat) (bs : List Byte) : Prop := ∃ u, t = .next u
      ∧ (u.core s.curCore).stores = (s'.core s.curCore).stores ++ [{ strand := s.strandId, va := va, loc := loc, bytes := bs }]
      ∧ u.cur = { s.cur with pc := s.cur.pc + 4 } ∧ u.hbm = s'.hbm ∧ u.spad = s'.spad
      ∧ (loc.isAway = false → loc ≠ .zero → coreRead u s.curCore s.curPart loc bs.length = bs)
    let asks (t : Out) (va : Nat) (write : Bool) : Prop := ∃ u q, t = .next u ∧ u.hostReqs = s'.hostReqs ++ [q] ∧ q.write = write
      ∧ q.who = .strand s.strandId s.cur.pendNext ∧ q.va = va / 32 * 32 ∧ q.len = 32 ∧ u.cur.run = .stall .atomic
      ∧ u.cur.pc = s.cur.pc ∧ u.hbm = s'.hbm ∧ u.spad = s'.spad
    (∀ h, loc = .host h → h = ea n → s.cur.pend = [] → Checked s s' (ea n) n .store loc → asks (exec (.st sz d b off) s) h false)
    ∧ (∀ h, loc = .host h → h = ea 32 → s.cur.pend = [] → Checked s s' (ea 32) 32 .store loc → asks (exec (.stv d b off) s) h true)
    ∧ ((∀ h, loc ≠ .host h) → Checked s s' (ea n) n .store loc → orderLoads s' s.strandId loc n = s' →
        entered (exec (.st sz d b off) s) (ea n) (leBytes n (s.cur.read d).toNat))
    ∧ ((∀ h, loc ≠ .host h) → Checked s s' (ea 32) 32 .store loc → orderLoads s' s.strandId loc 32 = s' →
        entered (exec (.stv d b off) s) (ea 32)
          ((List.range 4).flatMap fun i => leBytes 8 (s.cur.read (GReg.plus d i)).toNat)))
  ∧ (∀ (s : State) (core k : Nat) (b : BufStore), PlainMemory s → (s.core core).stores[k]? = some b →
    let waits : Bool := ((s.core core).stores.take k).any fun x => locOverlap x.loc x.bytes.length b.loc b.bytes.length
    (waits = true → exec (.storeCommit core k) s = .next s)
    ∧ (waits = false → ∀ a, b.loc = .mem a → Memory.wf s.hbm = true → ∃ u, exec (.storeCommit core k) s = .next u
        ∧ (u.core core).stores = (s.core core).stores.eraseIdx k ∧ u.spad = s.spad ∧ u.strands = s.strands
        ∧ ∀ x, u.hbm.get x = if a ≤ x ∧ x < a + b.bytes.length then b.bytes.getD (x - a) 0 else s.hbm.get x)
    ∧ (waits = false → ∀ a, b.loc = .spad a → Memory.wf s.spad = true → ∃ u, exec (.storeCommit core k) s = .next u
        ∧ (u.core core).stores = (s.core core).stores.eraseIdx k ∧ u.hbm = s.hbm ∧ u.strands = s.strands
        ∧ ∀ x, u.spad.get x = if a ≤ x ∧ x < a + b.bytes.length then b.bytes.getD (x - a) 0 else s.spad.get x))

/-- AMO, CAS and CAS2 at a scratchpad bank (R97, R207 to R209): one step, which reads the old value, writes the new one unless a
comparison fails, and delivers the old value; CAS and CAS2 report OK or NOMATCH in STATUS. Every other byte stands. So it is under
every ordering; one that releases has nothing to release here.

An atomic in paged memory (R97, R209, R385): the strand stalls and the atomic stands at its home slice, which admits the one
that has waited longest while fewer than its limit are admitted; the first admitted one is performed as one step, its old value
reaches the strand, and the strand goes on; data poisoned by then traps MACHINE (R199). -/
def Obligations.Atomics : Prop :=
  (∀ (s s' : State) (k : AmoKind) (wd : AWidth) (o : Order) (sc : Scope) (d a b : GReg) (at_ : Nat), NoStall s [d, a, b] →
    NoStall s (a :: pairRegs d ++ pairRegs b) → s.cur.region = none → window (vaOf (s.cur.read a)) = 8 → PlainMemory s' →
    (s'.core s.curCore).stores = [] → Memory.wf s'.spad = true →
    (Order.releases o = true → (∀ p ∈ s'.cur.pend, loadOf p = none) ∧ (∀ f ∈ s'.rows, f.strand ≠ s.strandId)
      ∧ corePuts s' s.curCore = false ∧ s'.cur.lostPut = none) →
    let va := vaOf (s.cur.read a)
    let n := AWidth.bytes wd
    let t := s.cur
    let old := ofLeBytes (s'.spad.bytes at_ n)
    let lo := ofLeBytes (s'.spad.bytes at_ 8)
    let hi := ofLeBytes (s'.spad.bytes (at_ + 8) 8)
    let became (i : Instr) (u : Strand) (bs : List Byte) : Prop := ∃ v, exec i s = .next v ∧ v.cur = { u with pc := t.pc + 4 }
      ∧ v.hbm = s'.hbm ∧ ∀ x, v.spad.get x = if at_ ≤ x ∧ x < at_ + bs.length then bs.getD (x - at_) 0 else s'.spad.get x
    (Checked s s' va n .atom (.spad at_) →
      became (.amo k wd o sc d a b) (t.write d (BitVec.ofNat 64 old)) (leBytes n (amoNew k (8 * n) old (t.read b).toNat))
      ∧ (old = (t.read d).toNat % 2 ^ (8 * n) →
          became (.cas wd o sc d a b) { t.write d (BitVec.ofNat 64 old) with status := 0 } (leBytes n (t.read b).toNat))
      ∧ (old ≠ (t.read d).toNat % 2 ^ (8 * n) →
          became (.cas wd o sc d a b) { t.write d (BitVec.ofNat 64 old) with status := 15 } []))
    ∧ (Checked s s' va 16 .atom (.spad at_) →
        let u := (t.write d (BitVec.ofNat 64 lo)).write (GReg.plus d 1) (BitVec.ofNat 64 hi)
        (lo = (t.read d).toNat ∧ hi = (t.read (GReg.plus d 1)).toNat →
          became (.cas2 o sc d a b) { u with status := 0 }
            (leBytes 8 (t.read b).toNat ++ leBytes 8 (t.read (GReg.plus b 1)).toNat))
        ∧ (¬(lo = (t.read d).toNat ∧ hi = (t.read (GReg.plus d 1)).toNat) →
          became (.cas2 o sc d a b) { u with status := 15 } [])))
  ∧ (∀ (s s' : State) (k : AmoKind) (wd : AWidth) (o : Order) (sc : Scope) (d a b : GReg) (pa slice : Nat), NoStall s [d, a, b] →
    s.cur.region = none →
    let va := vaOf (s.cur.read a)
    let n := AWidth.bytes wd
    (window va < 8 → Checked s s' va n .atom (.mem pa) → (s'.core s.curCore).stores = [] →
      (Order.releases o = true → (∀ p ∈ s'.cur.pend, loadOf p = none) ∧ (∀ c ∈ s'.cores, ∀ b ∈ c.2.stores, b.early = [])
        ∧ (∀ f ∈ s'.rows, f.strand ≠ s.strandId) ∧ corePuts s' s.curCore = false ∧ s'.cur.lostPut = none) →
      ∃ u, exec (.amo k wd o sc d a b) s = .next u ∧ u.hbm = s'.hbm ∧ u.cur.run = .stall .atomic ∧ u.cur.pc = s.cur.pc
        ∧ u.atoms = s'.atoms ++ [⟨homeSlice pa, s'.curPart, s.strandId, s.cur.pendNext, false, (s'.part s'.curPart).atomq, none, 0⟩])
    ∧ (∀ x, (∀ y ∈ s.atoms, y.pkt = none) → (s.atoms.filter fun y => y.slice == slice).find? (fun y => !y.admitted) = some x →
        (((s.atoms.filter fun y => y.slice == slice).filter fun y => y.admitted).length < x.limit →
          exec (.atomicAdmit slice) s = .next { s with atoms := s.atoms.map fun y => if y = x then { y with admitted := true } else y })
        ∧ (x.limit ≤ ((s.atoms.filter fun y => y.slice == slice).filter fun y => y.admitted).length →
          exec (.atomicAdmit slice) s = .next s))
    ∧ ∀ (id m left v : Nat) (y : Word) (x : Atom), PlainMemory s → Memory.wf s.hbm = true →
        (s.strand id).pend = [⟨m, left, .amo k n o d y (.mem pa), v⟩] → (s.strand id).run = .stall .atomic →
        atomTurn s id m = some x →
        (isPoisoned s (.mem pa) = true → (s.strand id).intrap = false → (s.strand id).region = none →
          ∃ u, exec (.awaitedResultArrival (.strand id m)) s = .next u ∧ u.hbm = s.hbm ∧ u.atoms = s.atoms.erase x
            ∧ (u.strand id).intrap = true ∧ (u.strand id).epc = (s.strand id).pc ∧ (u.strand id).pc = (s.strand id).tvec
            ∧ (u.strand id).ecause = BitVec.ofNat 64 (13 + 2 ^ 8) ∧ (u.strand id).eaddr = BitVec.ofNat 64 v)
        ∧ (isPoisoned s (.mem pa) = false → ∃ u, exec (.awaitedResultArrival (.strand id m)) s = .next u
          ∧ u.strand id = { (s.strand id).write d (BitVec.ofNat 64 (ofLeBytes (s.hbm.bytes pa n))) with
              pend := [], run := .ready, pc := (s.strand id).pc + 4 }
          ∧ u.atoms = s.atoms.erase x
          ∧ ∀ z, u.hbm.get z = (let bs := leBytes n (amoNew k (8 * n) (ofLeBytes (s.hbm.bytes pa n)) y.toNat)
              if pa ≤ z ∧ z < pa + bs.length then bs.getD (z - pa) 0 else s.hbm.get z)))

/-- CAS and CAS2 in paged memory (R88, R97, R208, R209): the strand stalls while the comparison waits at its home slice; performed, it
delivers the old value, with STATUS OK and the new bytes written if it held, and NOMATCH and nothing written otherwise; the
release of one that holds comes first, and finds nothing to do here.

RED at a scratchpad bank (R58, R210): the bank combines the operand with what stands there as one step, and no register changes.

The system window (R83, R366): at system privilege LD.i64 reads and ST.64 writes the register of the cluster, partition or
configuration block at its offset, each behind a release at device scope; a place that the partition may not touch traps PERM and one
that is not listed PAGE; a narrower access, and any access at user privilege, traps PERM. A cluster block reads CLFSTAT. -/
def Obligations.AtomicsElsewhere : Prop :=
  (∀ (s s' : State) (wd : AWidth) (o : Order) (sc : Scope) (d a b : GReg) (pa : Nat), NoStall s [d, a, b] →
    NoStall s (a :: pairRegs d ++ pairRegs b) → s.cur.region = none →
    let va := vaOf (s.cur.read a)
    let t := s.cur
    let rel : Option (Scope × Nat) := if Order.releases o then some (sc, wbits t.scopeRect 31 0) else none
    let waits (act : PendAct) : Strand :=
      { t with pend := t.pend ++ [⟨t.pendNext, 0, act, va⟩], pendNext := t.pendNext + 1, run := .stall .atomic }
    let entry : Atom := ⟨homeSlice pa, s'.curPart, s.strandId, t.pendNext, false, (s'.part s'.curPart).atomq, none, 0⟩
    (window va < 8 → (s'.core s.curCore).stores = [] →
      (Checked s s' va (AWidth.bytes wd) .atom (.mem pa) → ∃ u, exec (.cas wd o sc d a b) s = .next u ∧ u.hbm = s'.hbm
        ∧ u.cur = waits (.cas (AWidth.bytes wd) o d (t.read d) (t.read b) (.mem pa) rel) ∧ u.atoms = s'.atoms ++ [entry])
      ∧ (Checked s s' va 16 .atom (.mem pa) → ∃ u, exec (.cas2 o sc d a b) s = .next u ∧ u.hbm = s'.hbm
        ∧ u.cur = waits (.cas2 o d (t.read d) (t.read (GReg.plus d 1)) (t.read b) (t.read (GReg.plus b 1)) (.mem pa) rel)
        ∧ u.atoms = s'.atoms ++ [entry]))
    ∧ ∀ (id m left v : Nat) (e e' y y' : Word) (r : Option (Scope × Nat)) (x : Atom) (act : PendAct), PlainMemory s →
        Memory.wf s.hbm = true → (s.strand id).pend = [⟨m, left, act, v⟩] → (s.strand id).run = .stall .atomic →
        atomTurn s id m = some x → isPoisoned s (.mem pa) = false → (s.core (strandCore id)).stores = [] →
            (r.map fun q => q.1) ≠ some .system → (∀ f ∈ s.rows, f.strand ≠ id) →
        let w := s.strand id
        let performed (u : Strand) (code : Word) (bs : List Byte) : Prop :=
          ∃ z, exec (.awaitedResultArrival (.strand id m)) s = .next z ∧ z.atoms = s.atoms.erase x
            ∧ z.strand id = { u with pend := [], run := .ready, status := code, pc := w.pc + 4 }
            ∧ ∀ i, z.hbm.get i = if pa ≤ i ∧ i < pa + bs.length then bs.getD (i - pa) 0 else s.hbm.get i
        (let n := AWidth.bytes wd
         let old := ofLeBytes (s.hbm.bytes pa n)
         act = .cas n o d e y (.mem pa) r →
          (old = e.toNat % 2 ^ (8 * n) → performed (w.write d (BitVec.ofNat 64 old)) 0 (leBytes n y.toNat))
          ∧ (old ≠ e.toNat % 2 ^ (8 * n) → performed (w.write d (BitVec.ofNat 64 old)) 15 []))
        ∧ (let lo := ofLeBytes (s.hbm.bytes pa 8)
           let hi := ofLeBytes (s.hbm.bytes (pa + 8) 8)
           let both := (w.write d (BitVec.ofNat 64 lo)).write (GReg.plus d 1) (BitVec.ofNat 64 hi)
           act = .cas2 o d e e' y y' (.mem pa) r →
            (lo = e.toNat ∧ hi = e'.toNat → performed both 0 (leBytes 8 y.toNat ++ leBytes 8 y'.toNat))
            ∧ (¬(lo = e.toNat ∧ hi = e'.toNat) → performed both 15 [])))
  ∧ (∀ (s s' : State) (k : RedKind) (ty : RedType) (a b : GReg) (at_ : Nat), NoStall s [a, b] → s.cur.region = none →
    ¬(ty = .f32 ∧ k ≠ .add) → PlainMemory s' → (s'.core s.curCore).stores = [] → Memory.wf s'.spad = true →
    let n := redSize ty
    Checked s s' (vaOf (s.cur.read a)) n .red (.spad at_) →
    let bs := leBytes n (redCombine k ty (ofLeBytes (s'.spad.bytes at_ n)) ((s.cur.read b).toNat % 2 ^ (8 * n)))
    ∃ u, exec (.red k ty a b) s = .next u ∧ u.cur = { s.cur with pc := s.cur.pc + 4 } ∧ u.hbm = s'.hbm
      ∧ ∀ i, u.spad.get i = if at_ ≤ i ∧ i < at_ + bs.length then bs.getD (i - at_) 0 else s'.spad.get i)
  ∧ (∀ (s : State) (d b : GReg) (l : BitVec 4) (off : BitVec 12) (ty : LdType) (sz : StSize) (c : Nat), NoStall s [d, b] → Calm s → Quiet s →
    let t := s.cur
    let va (n : Nat) : Nat := memAddr t b off n
    let o := va 8 % 2 ^ 48
    (window (va 8) = 15 → va 8 % 8 = 0 → t.priv = true →
      (∀ v, sysRead s s.curPart o = .ok v →
        exec (.ld .i64 d b l off) s = outstanding s l (.ready (loadRegs .i64 d (leBytes 8 v))) (va 8))
      ∧ (∀ e, sysRead s s.curPart o = .error e → exec (.ld .i64 d b l off) s = handled s e 0 0 (va 8)
          ∧ exec (.st .b8 d b off) s = handled s e 0 0 (va 8))
      ∧ (∀ u, sysWrite s s.curPart o (t.read d).toNat false = .ok u →
          exec (.st .b8 d b off) s = became u { u.cur with pc := u.cur.pc + 4 }))
    ∧ (let n := LdType.size ty
       window (va n) = 15 → va n % n = 0 → t.priv = false ∨ ty ≠ .i64 → exec (.ld ty d b l off) s = handled s .perm 0 0 (va n))
    ∧ (let n := StSize.bytes sz
       window (va n) = 15 → va n % n = 0 → t.priv = false ∨ sz ≠ .b8 → exec (.st sz d b off) s = handled s .perm 0 0 (va n))
    ∧ (c < 32 → s.partHas s.curPart c = true → sysRead s s.curPart (0x10000 * c) = .ok (clfstat s c))
    ∧ (c < 32 → s.partHas s.curPart c = false → s.curPart < 8 → sysRead s s.curPart (0x10000 * c) = .error .perm)
    ∧ (o < 0x100000000 → o % 0x10000 ≠ 0 ∨ 32 ≤ o / 0x10000 → sysRead s s.curPart o = .error .page))

/-- RED (R99, R100, R210): in paged memory the operand joins its core's partial for that place, or is the first, and no byte of
memory changes; a recall combines the partials of the line into memory and takes the line from the core. -/
def Obligations.Reductions : Prop :=
  ∀ (s s' : State) (k : RedKind) (ty : RedType) (a b : GReg) (pa : Nat), NoStall s [a, b] → s.cur.region = none →
    ¬(ty = .f32 ∧ k ≠ .add) →
    let va := vaOf (s.cur.read a)
    let n := redSize ty
    let core := s.curCore
    let x := (s.cur.read b).toNat
    let line := pa / 64
    (Checked s s' va n .red (.mem pa) → (s'.core core).stores = [] → (∀ c ∈ s'.cores, ∀ b ∈ c.2.stores, b.early = []) →
      (∀ r ∈ s'.regions, r.2.st ≠ .live ∧ r.2.st ≠ .waiting ∧ justAborted s' r.2 = false) →
      ((s'.core core).red.find line = none →
        exec (.red k ty a b) s = .next ((s'.setCore core { s'.core core with
          red := Tbl.put (s'.core core).red line ⟨k, ty, [(pa % 64, x % 2 ^ (8 * n))]⟩ }).setCur { s'.cur with pc := s'.cur.pc + 4 }))
      ∧ ∀ parts y, (s'.core core).red.find line = some ⟨k, ty, parts⟩ → parts.find (pa % 64) = some y →
        exec (.red k ty a b) s = .next ((s'.setCore core { s'.core core with
          red := Tbl.put (s'.core core).red line ⟨k, ty, Tbl.put parts (pa % 64) (redCombine k ty y x)⟩ }).setCur
            { s'.cur with pc := s'.cur.pc + 4 }))
    ∧ ∀ (c off y : Nat), (∀ r ∈ s.regions, r.2.st ≠ .live ∧ r.2.st ≠ .waiting ∧ justAborted s r.2 = false) → Memory.wf s.hbm = true →
        (s.core c).red = [(line, ⟨k, ty, [(off, y)]⟩)] →
        ∃ u, exec (.redRecall line c) s = .next u ∧ (u.core c).red = [] ∧ u.strands = s.strands
          ∧ ∀ z, u.hbm.get z =
              (let bs := leBytes n (redCombine k ty (ofLeBytes (s.hbm.bytes (64 * line + off) n)) y)
               if 64 * line + off ≤ z ∧ z < 64 * line + off + bs.length then bs.getD (z - (64 * line + off)) 0 else s.hbm.get z)

/-- FENCE (R86, R92, R95, R96, R447): its acquire part leaves everything as it is (log 89); a release at strand or core scope
performs the loads that are still outstanding, and no more; a release at device scope, and one at system scope with no put of
its core unacknowledged, empties the core's store buffer (log 18); at system scope the strand stalls while puts are
outstanding, and a lost one traps MACHINE. At rectangle scope every buffered store becomes visible inside the rectangle (log
14); with one that does not hold the core it is a release at device scope (R96). -/
def Obligations.Fences : Prop :=
  ∀ (s : State) (k : FenceKind) (sc : Scope) (a : GReg), NoStall s [a] →
    let core := s.curCore
    let next : Strand := { s.cur with pc := s.cur.pc + 4 }
    exec (.fence .acq sc a) s = became s next
    ∧ (k ≠ .acq → (∀ f ∈ s.rows, f.strand ≠ s.strandId) → ∀ c ∈ [Scope.strand, .core],
        (∃ u, exec (.fence k c a) s = .next u ∧ u.cur.pc = s.cur.pc + 4 ∧ ∀ p ∈ u.cur.pend, loadOf p = none)
        ∧ ((∀ p ∈ s.cur.pend, loadOf p = none) → exec (.fence k c a) s = became s next))
    ∧ (k ≠ .acq → PlainMemory s → (∀ b ∈ (s.core core).stores, b.loc.isAway = false) → s.cur.pend = [] →
        (∀ f ∈ s.rows, f.strand ≠ s.strandId) →
        (∃ u, exec (.fence k .device a) s = .next u ∧ (u.core core).stores = [] ∧ u.cur = next)
        ∧ (corePuts s core = false → s.cur.lostPut = none →
            ∃ u, exec (.fence k .system a) s = .next u ∧ (u.core core).stores = [] ∧ u.cur = next)
        ∧ (corePuts s core = true →
            ∃ u, exec (.fence k .system a) s = .next u ∧ u.cur = { s.cur with run := .stall .puts, owed := true })
        ∧ (∀ va, Quiet s → corePuts s core = false → s.cur.lostPut = some va → (s.core core).stores = [] →
            exec (.fence k .system a) s = handled (s.setCur { s.cur with lostPut := none }) .machine 2 0 va)
        ∧ (let rect := (s.cur.read a).toNat % 2 ^ 32
           rectHas s s.curPart rect core = true →
            ∃ u, exec (.fence k .rect a) s = .next u ∧ u.cur = next ∧ u.hbm = s.hbm ∧ u.spad = s.spad
              ∧ (u.core core).stores = (s.core core).stores.map fun b => { b with early := b.early ++ [rect] }))
    ∧ (rectHas s s.curPart ((s.cur.read a).toNat % 2 ^ 32) core = false → exec (.fence k .rect a) s = exec (.fence k .device a) s)

/-! ## Messages, groups, barriers and tasks -/

/-- SEND and MESSAGE_DELIVERY (R212, R213): a well-formed local address sends the group b on its way, with the sender's task; the
receiving core enters it in the mailbox of the task named and answers OK, or answers REFUSED with nothing entered when the
mailbox is full or the strand does not run that task; a malformed address is INVALID at once. A SEND to a peer stalls its
strand until the answer comes, since R447 makes a lost one a precise trap of the instruction.

RECV (R43, R214): takes the oldest message into the group d, with kind and sender in STATUS; waits while there is none; refuses
an address that is not its own. A message that arrives for a waiting strand completes its wait. -/
def Obligations.Messages : Prop :=
  (∀ (s : State) (d a b : GReg) (l : BitVec 4), NoStall s (d :: a :: groupRegs b) → Calm s →
    let x := s.cur.read a
    let words : List Word := (List.range 4).map fun i => s.cur.read (GReg.plus b i)
    (∀ r, mbReceiver x = some r → mbRemote x = false →
      ∃ u, exec (.send d a b l) s = .next u
        ∧ u.flying = s.flying ++ [⟨s.strandId, s.cur.pendNext, s.cur.task, s.curPart, x, words⟩]
        ∧ u.cur = { s.cur with pend := s.cur.pend ++ [⟨s.cur.pendNext, l.toNat, .awaiting d, 0⟩], pendNext := s.cur.pendNext + 1,
                               pc := s.cur.pc + 4 })
    ∧ (mbReceiver x = none ∨ (mbRemote x = true ∧ s.isMember (mbPeer x) = false) →
        exec (.send d a b l) s = reports s d l .invalid 0)
    ∧ (mbReceiver x ≠ none → mbRemote x = true → s.isMember (mbPeer x) = true → s.cur.pend = [] → corePuts s s.curCore = false →
        s.cur.lostPut = none → ∃ u, exec (.send d a b l) s = .next u ∧ u.rtagNext = s.rtagNext + 1
          ∧ u.cur = { s.cur with pend := [⟨s.cur.pendNext, 0, .awaiting d, 0⟩], pendNext := s.cur.pendNext + 1, run := .stall .atomic })
    ∧ ∀ (f : Flying) (rest : List Flying) (r left : Nat), s.flying = f :: rest → mbReceiver f.addr = some r → r ≠ f.strand →
        (s.strand f.strand).pend = [⟨f.k, left, .awaiting d, 0⟩] →
        let answered (c : Code) : Strand :=
          let w : Word := BitVec.ofNat 64 c.num
          { s.strand f.strand with pend := [⟨f.k, left, .ready { regs := [(d, w)], status := some w }, 0⟩] }
        (s.strandPart r = f.part → taskStrand s f.part (mbTask f.addr) = some r → (s.strand r).mailbox.length < 16 →
          (s.strand r).run = .ready →
          ∃ u, exec (.messageDelivery 0) s = .next u ∧ u.flying = rest ∧ u.strand f.strand = answered .ok
            ∧ u.strand r = { s.strand r with mailbox := (s.strand r).mailbox ++ [⟨0, f.task, f.words⟩] })
        ∧ (s.strandPart r ≠ f.part ∨ taskStrand s f.part (mbTask f.addr) ≠ some r ∨ 16 ≤ (s.strand r).mailbox.length →
          ∃ u, exec (.messageDelivery 0) s = .next u ∧ u.flying = rest ∧ u.strand f.strand = answered .refused
            ∧ u.strand r = s.strand r))
  ∧ (∀ (s : State) (d a : GReg) (e : BitVec 5), NoStall s (a :: groupRegs d) → Calm s →
    let t := s.cur
    let own := t.read a = 0 ∨ t.read a = ownMailbox s.strandId t.task
    let taken (u : Strand) (m : Message) (rest : List Message) : Strand :=
      { (((u.write d (m.words.getD 0 0)).write (GReg.plus d 1) (m.words.getD 1 0)).write (GReg.plus d 2) (m.words.getD 2 0)).write
          (GReg.plus d 3) (m.words.getD 3 0) with
        status := BitVec.ofNat 64 (2 ^ 16 * m.kind + 2 ^ 24 * m.sender), mailbox := rest, run := .ready, pc := u.pc + 4 }
    (∀ m rest, own → t.mailbox = m :: rest → exec (.recv d a e) s = became s (taken t m rest))
    ∧ (own → t.mailbox = [] → exec (.recv d a e) s = waiting s (.recv d) e)
    ∧ (¬own → exec (.recv d a e) s = became s { t with status := 6, pc := t.pc + 4 })
    ∧ ∀ (f : Flying) (rest : List Flying) (r : Nat) (deadline : Option Nat), s.flying = f :: rest → mbReceiver f.addr = some r →
        r ≠ f.strand → s.strandPart r = f.part → taskStrand s f.part (mbTask f.addr) = some r → (s.strand r).mailbox = [] →
        (s.strand r).run = .wait (.recv d) deadline → (s.strand r).halted = false →
        ∃ u, exec (.messageDelivery 0) s = .next u ∧ u.strand r = taken (s.strand r) ⟨0, f.task, f.words⟩ [])

/-- GJOIN, GLEAVE and GSIZE (R38, R215): a join adds the strand and creates the group if need be, up to 4 groups of a strand; a
leave removes it, and the last leave dissolves the group; each reports the membership. A malformed id is INVALID.

A leave that brings a group down to the arrivals of a phase completes that phase and releases who waits for it with OK
(R39): the worked case of four members, here for one barrier and one waiter. -/
def Obligations.Groups : Prop :=
  (∀ (s : State) (d a : GReg) (l : BitVec 4), NoStall s [d, a] → Calm s →
    let x := (s.cur.read a).toNat
    let id := s.strandId
    let joined (g : Tbl Group) : State :=
      { s with groups := g }.setCur { s.cur with groups := NSet.ins s.cur.groups x }
    (65536 ≤ x → exec (.gjoin d a l) s = reports s d l .invalid 0 ∧ exec (.gleave d a l) s = reports s d l .invalid 0
      ∧ exec (.gsize d a l) s = outstanding s l (.ready { regs := [(d, 0)], status := some 6 }) 0)
    ∧ (x < 65536 → s.groups.find x = none →
        (s.cur.groups.length < 4 → s.groups.length < 4096 →
          exec (.gjoin d a l) s = reports (joined (s.groups.put x ⟨s.curPart, [id]⟩)) d l .ok 1)
        ∧ (4 ≤ s.cur.groups.length → exec (.gjoin d a l) s = reports s d l .refused 0)
        ∧ exec (.gleave d a l) s = reports s d l .invalid 0
        ∧ exec (.gsize d a l) s = outstanding s l (.ready { regs := [(d, 0)], status := some 0 }) 0)
    ∧ ∀ g, x < 65536 → s.groups.find x = some g →
        (g.part ≠ s.curPart → exec (.gjoin d a l) s = reports s d l .refused 0
          ∧ exec (.gsize d a l) s = outstanding s l (.ready { regs := [(d, 0)], status := some 2 }) 0)
        ∧ (g.part = s.curPart →
            exec (.gsize d a l) s = outstanding s l (.ready { regs := [(d, BitVec.ofNat 64 g.members.length)], status := some 0 }) 0)
        ∧ (g.part = s.curPart → id ∈ g.members → exec (.gjoin d a l) s = reports s d l .ok g.members.length)
        ∧ (g.part = s.curPart → id ∉ g.members → 4 ≤ s.cur.groups.length → exec (.gjoin d a l) s = reports s d l .refused 0)
        ∧ (g.part = s.curPart → id ∉ g.members → s.cur.groups.length < 4 →
            let m := NSet.ins g.members id
            exec (.gjoin d a l) s = reports (joined (s.groups.put x { g with members := m })) d l .ok m.length)
        ∧ (id ∉ g.members → exec (.gleave d a l) s = reports s d l .invalid 0)
        ∧ (id ∈ g.members → (∀ b ∈ s.barriers, b.2.gid ≠ some x) → s.chains = [] → Tbl.sorted s.groups = true →
            let m := NSet.rem g.members id
            let groups := if m.isEmpty then s.groups.del x else s.groups.put x { g with members := m }
            exec (.gleave d a l) s =
              reports ({ s with groups := groups }.setCur { s.cur with groups := NSet.rem s.cur.groups x }) d l .ok m.length))
  ∧ (∀ (s : State) (d a : GReg) (l : BitVec 4) (dw : GReg) (g : Group) (bid w : Nat) (b : Barrier) (deadline : Option Nat),
    NoStall s [d, a] → Calm s → (s.cur.read a).toNat < 65536 →
    let x := (s.cur.read a).toNat
    s.groups.find x = some g → s.strandId ∈ g.members → w ≠ s.strandId → (NSet.rem g.members s.strandId).length = b.arrivals →
    (NSet.rem g.members s.strandId) ≠ [] →
    s.barriers = [(bid, b)] → b.live = true → b.gid = some x → s.chains = [] →
    s.cur.run = .ready → s.strands = [(min w s.strandId, s.strand (min w s.strandId)), (max w s.strandId, s.strand (max w s.strandId))] →
    (s.strand w).run = .wait (.bwait dw bid) deadline → (s.strand w).halted = false →
    (s.strand w).arrival = some (bid, b.inc, b.phase) → b.phase < 2 ^ 32 →
    ∃ u, exec (.gleave d a l) s = .next u ∧ u.barrier bid = { b with phase := (b.phase + 1) % 2 ^ 32, arrivals := 0 }
      ∧ u.strand w = { (s.strand w).write dw 0 with status := 0, run := .ready, pc := (s.strand w).pc + 4 })

/-- BINIT, BARRIVE, BWAIT and BINVAL (R216 to R220): the checks of the id; a configuration is set with a new incarnation and phase
0; an arrival is counted and recorded, and the one that reaches the count completes the phase; BWAIT compares the record with the
barrier; BINVAL ends it. Here no other strand waits on the barrier.

WAIT_TIMEOUT (R43, R45): a wait whose deadline has passed and whose condition does not hold expires: STATUS takes TIMEOUT, so
does the destination of BWAIT and JOIN, and the strand goes on; a RECV that has a message still takes it. A wait that a trap is to
end does not expire (R229, R369, log 90). -/
def Obligations.Barriers : Prop :=
  (∀ (s : State) (d a b : GReg) (l : BitVec 4) (e : BitVec 5), NoStall s [d, a, b] → NoStall s [d, a] → Calm s →
    let x := (s.cur.read a).toNat
    let y := s.cur.read b
    let r := s.barrier x
    let t := s.cur
    let all (c : Code) : Prop := exec (.binit d a b l) s = reports s d l c 0 ∧ exec (.barrive d a l) s = reports s d l c 0
      ∧ exec (.binval d a l) s = reports s d l c 0
      ∧ exec (.bwait d a e) s = became s { t.write d (BitVec.ofNat 64 c.num) with status := BitVec.ofNat 64 c.num, pc := t.pc + 4 }
    let waits (c : Code) : Prop :=
      exec (.bwait d a e) s =
        became s { t.write d (BitVec.ofNat 64 c.num) with status := BitVec.ofNat 64 c.num, run := .ready, pc := t.pc + 4 }
    (65536 ≤ x → all .invalid)
    ∧ (x < 65536 → s.partHas s.curPart (x / 2048) = false → all .refused)
    ∧ (x < 65536 → s.partHas s.curPart (x / 2048) = true → barrierWaiters s x = [] → t.run = .ready →
        (y ≠ 0 → y.toNat < 2 ^ 32 → exec (.binit d a b l) s = reports
          (s.setBarrier x { live := true, inc := (r.inc + 1) % 65536, phase := 0, gid := none, count := y.toNat, arrivals := 0 }) d l .ok 0)
        ∧ (y = 0 → exec (.binit d a b l) s = reports s d l .invalid 0)
        ∧ (r.live = false → exec (.barrive d a l) s = reports s d l .invalid 0 ∧ exec (.binval d a l) s = reports s d l .invalid 0)
        ∧ (r.live = true → exec (.binval d a l) s = reports (s.setBarrier x { r with live := false }) d l .ok 0)
        ∧ (r.live = true → r.gid = none →
            (r.arrivals + 1 < r.count → exec (.barrive d a l) s =
              reports ((s.setBarrier x { r with arrivals := r.arrivals + 1 }).setCur { t with arrival := some (x, r.inc, r.phase) })
                d l .ok r.phase)
            ∧ (r.count ≤ r.arrivals + 1 → exec (.barrive d a l) s =
              reported ((s.setBarrier x { r with phase := (r.phase + 1) % 2 ^ 32, arrivals := 0 }).setCur
                { t with arrival := some (x, r.inc, r.phase) }) d l (BitVec.ofNat 64 (2 ^ 8 + 2 ^ 16 * r.phase))))
        ∧ (t.arrival = none → waits .invalid)
        ∧ ∀ id inc ph, t.arrival = some (id, inc, ph) →
            (id ≠ x ∨ r.live = false → waits .invalid)
            ∧ (id = x → r.live = true → inc ≠ r.inc → waits .reinit)
            ∧ (id = x → r.live = true → inc = r.inc → r.phase ≠ ph → waits .ok)
            ∧ (id = x → r.live = true → inc = r.inc → r.phase = ph → exec (.bwait d a e) s = waiting s (.bwait d x) e)))
  ∧ (∀ (s : State) (id deadline : Nat) (d : GReg) (k : Fin 16) (bid : Nat), (s.strand id).halted = false →
    let t := s.strand id
    let expired (u : Strand) : Out := .next (s.setStrand id { u with status := 1, run := .ready, pc := t.pc + 4 })
    (asyncDue t = true → exec (.waitTimeout id) s = .next s)
    ∧ (deadline ≤ s.cycle → asyncDue t = false →
      (t.run = .wait (.recv d) (some deadline) → t.mailbox = [] → exec (.waitTimeout id) s = expired t)
      ∧ (∀ m rest, t.run = .wait (.recv d) (some deadline) → t.mailbox = m :: rest →
          ∃ u, exec (.waitTimeout id) s = .next u ∧ (u.strand id).mailbox = rest ∧ (u.strand id).run = .ready
            ∧ (u.strand id).status = BitVec.ofNat 64 (2 ^ 16 * m.kind + 2 ^ 24 * m.sender))
      ∧ (t.run = .wait (.fwait k.val) (some deadline) → k.val ∈ t.pendTok → exec (.waitTimeout id) s = expired t)
      ∧ (t.run = .wait (.join d) (some deadline) → t.children ≠ 0 → exec (.waitTimeout id) s = expired (t.write d 1))
      ∧ (t.run = .wait (.bwait d bid) (some deadline) → bwaitResult s t bid = none →
          exec (.waitTimeout id) s = expired (t.write d 1)))
    ∧ (s.cycle < deadline → t.run = .wait (.recv d) (some deadline) → exec (.waitTimeout id) s = .next s))

/-- GROUPED barriers and the release of waiters (R39, R43, R217, R218, R220): BINIT takes a live group of the partition in place
of a count; an arrival of a strand that is no member is REFUSED and not counted, the one that reaches the live membership
completes the phase; a strand that waits is released with OK by the arrival that completes its phase, with REINIT by BINIT
and with INVALID by BINVAL. A GID without GROUPED is refused too (log 86). -/
def Obligations.GroupedBarriers : Prop :=
  ∀ (s : State) (d a b dw : GReg) (l : BitVec 4) (g : Group) (gid w : Nat) (deadline : Option Nat), NoStall s [d, a, b] →
    NoStall s [d, a] → Calm s →
    let x := (s.cur.read a).toNat
    let y := (s.cur.read b).toNat
    let r := s.barrier x
    let t := s.cur
    let answered (u : State) (z : Nat) : Prop := u.cur.pc = t.pc + 4
      ∧ u.cur.pend = t.pend ++ [⟨t.pendNext, l.toNat, .ready { regs := [(d, BitVec.ofNat 64 z)], status := some (BitVec.ofNat 64 z) }, 0⟩]
    let next : Barrier := { r with phase := (r.phase + 1) % 2 ^ 32, arrivals := 0 }
    let renewed (gid : Option Nat) (n : Nat) : Barrier :=
      { live := true, inc := (r.inc + 1) % 65536, phase := 0, gid := gid, count := n, arrivals := 0 }
    x < 65536 → s.partHas s.curPart (x / 2048) = true →
    (barrierWaiters s x = [] → gid < 65536 →
      (y = 2 ^ 48 + 2 ^ 32 * gid → s.groups.find gid = some g →
        (g.part = s.curPart → exec (.binit d a b l) s = reports (s.setBarrier x (renewed (some gid) 0)) d l .ok 0)
        ∧ (g.part ≠ s.curPart → exec (.binit d a b l) s = reports s d l .invalid 0))
      ∧ (y = 2 ^ 48 + 2 ^ 32 * gid → s.groups.find gid = none → exec (.binit d a b l) s = reports s d l .invalid 0)
      ∧ (2 ^ 49 ≤ y ∨ (y / 2 ^ 48 = 1 ∧ y % 2 ^ 32 ≠ 0) ∨ (y < 2 ^ 48 ∧ 2 ^ 32 ≤ y) → exec (.binit d a b l) s = reports s d l .invalid 0)
      ∧ (r.live = true → r.gid = some gid → s.groups.find gid = some g →
        (s.strandId ∉ g.members → exec (.barrive d a l) s = reports s d l .refused 0)
        ∧ (s.strandId ∈ g.members → r.arrivals + 1 < g.members.length → exec (.barrive d a l) s =
            reports ((s.setBarrier x { r with arrivals := r.arrivals + 1 }).setCur { t with arrival := some (x, r.inc, r.phase) })
              d l .ok r.phase)
        ∧ (s.strandId ∈ g.members → g.members.length ≤ r.arrivals + 1 → exec (.barrive d a l) s =
            reported ((s.setBarrier x next).setCur { t with arrival := some (x, r.inc, r.phase) }) d l
              (BitVec.ofNat 64 (2 ^ 8 + 2 ^ 16 * r.phase))))
      ∧ (r.live = true → r.gid = some gid → s.groups.find gid = none → exec (.barrive d a l) s = reports s d l .refused 0))
    ∧ (w ≠ s.strandId → t.run = .ready → r.live = true → r.phase < 2 ^ 32 → r.inc < 2 ^ 16 →
        s.strands = [(min w s.strandId, s.strand (min w s.strandId)), (max w s.strandId, s.strand (max w s.strandId))] →
        (s.strand w).run = .wait (.bwait dw x) deadline → (s.strand w).halted = false →
        (s.strand w).arrival = some (x, r.inc, r.phase) →
        let gone (u : State) (z : Nat) : Prop := u.strand w = { (s.strand w).write dw (BitVec.ofNat 64 z) with
          status := BitVec.ofNat 64 z, run := .ready, pc := (s.strand w).pc + 4 }
        (0 < y → y < 2 ^ 32 → ∃ u, exec (.binit d a b l) s = .next u ∧ answered u 0 ∧ gone u 5 ∧ u.barrier x = renewed none y)
        ∧ (∃ u, exec (.binval d a l) s = .next u ∧ answered u 0 ∧ gone u 6 ∧ u.barrier x = { r with live := false })
        ∧ (r.gid = none → r.count ≤ r.arrivals + 1 → ∃ u, exec (.barrive d a l) s = .next u ∧ answered u (2 ^ 8 + 2 ^ 16 * r.phase)
            ∧ gone u 0 ∧ u.barrier x = next ∧ u.cur.arrival = some (x, r.inc, r.phase))
        ∧ (r.gid = none → r.arrivals + 1 < r.count → ∃ u, exec (.barrive d a l) s = .next u ∧ answered u (2 ^ 16 * r.phase)
            ∧ u.strand w = s.strand w))

/-- SPAWN, JOIN, KILL and the arrival of an end notice (R40 to R42, R221, R222, R224): a record that passes its checks becomes a
task in the queue of its cluster, a child of the issuing task; JOIN completes once every child has ended, with the count, or the
outcome of the first that failed; a kill reaches every other member of the group, at once a strand that waits, and counts those that
no earlier kill ends. -/
def Obligations.ChildTasks : Prop :=
  ∀ (s s' : State) (d a : GReg) (l : BitVec 4) (e : BitVec 5) (bs : List Byte) (va' : Nat), NoStall s [d, a] → NoStall s [d] → Calm s →
    let t := s.cur
    let va := vaOf (t.read a)
    let launch := strandLaunch s s.strandId
    let m := launchMode s launch
    let r := parseTask bs
    (va % 64 ≠ 0 → exec (.spawn d a l) s = .next (trapAt s .align va))
    ∧ (va % 64 = 0 → readPieces s va 64 2 [] = (va', .value s' bs) → t.got = [] → (∀ c ∈ s'.cores, ∀ b ∈ c.2.stores, b.early = []) →
        s'.strandId = s.strandId → s'.cur = t → s'.curPart = s.curPart → strandLaunch s' s.strandId = launch → launchMode s' launch = m →
        (s'.core s.curCore).stores = [] → m.logical = false →
        (taskShape bs = false ∨ placeOk s' s.curPart m r = false ∨ targetCore m r = none →
          exec (.spawn d a l) s = reports s' d l .invalid 0)
        ∧ (taskShape bs = true → placeOk s' s.curPart m r = true → targetCore m r ≠ none →
            (s'.tasks.filter fun (_, x) => x.parent == t.task).length < 4096 → (s'.cluster s.curCluster).queue.length < 1024 →
            let (id, s2) := acceptTask s' s.curPart launch t.task false r s.curCluster s.curCore
            exec (.spawn d a l) s = reports (s2.setCur { s2.cur with children := s2.cur.children + 1 }) d l .ok id
            ∧ s2.tasks.find id = some { part := s.curPart, launch := launch, parent := t.task, desc := r, logical := false,
                                        start := s.curCore, st := .queued s.curCluster, arrival := s'.cycle }
            ∧ (s2.cluster s.curCluster).queue = (s'.cluster s.curCluster).queue ++ [id]))
    ∧ (t.children = 0 → (∀ n ∈ t.notices, n.how = .ok) →
        let w : Word := BitVec.ofNat 64 (2 ^ 16 * t.notices.length)
        exec (.join d e) s = became s { t.write d w with status := w, notices := [], run := .ready, pc := t.pc + 4 })
    ∧ (∀ oks n rest c, t.children = 0 → t.notices = oks ++ ⟨n, .fault c⟩ :: rest → (∀ x ∈ oks, x.how = .ok) →
        let w : Word := BitVec.ofNat 64 (4 + 2 ^ 8 * c + 2 ^ 16 * n)
        exec (.join d e) s = became s { t.write d w with status := w, notices := [], run := .ready, pc := t.pc + 4 })
    ∧ (t.children ≠ 0 → exec (.join d e) s = waiting s (.join d) e)
    ∧ (65536 ≤ (t.read a).toNat ∨ s.groups.find (t.read a).toNat = none → exec (.kill d a l) s = reports s d l .invalid 0)
    ∧ (∀ g, (t.read a).toNat < 65536 → s.groups.find (t.read a).toNat = some g →
        (g.part ≠ s.curPart → exec (.kill d a l) s = reports s d l .refused 0)
        ∧ (g.part = s.curPart →
            let others := g.members.filter (· != s.strandId)
            exec (.kill d a l) s = reports (others.foldl killStrand s) d l .ok
              (others.filter fun id => !(s.strand id).killDue).length))
    ∧ (∀ id, (s.strand id).halted = false →
        ((s.strand id).run = .ready → killStrand s id = s.setStrand id { s.strand id with killDue := true })
        ∧ (∀ w dl, (s.strand id).run = .wait w dl → ((killStrand s id).strand id).run = .free)
        ∧ ∀ c, (s.strand id).run = .stall c → ((killStrand s id).strand id).run = .free)
    ∧ ∀ (parent id : Nat) (n : Notice) (rest : List (Nat × Notice)) (x : Task), s.notes = (parent, n) :: rest →
        s.tasks.find parent = some x → x.st = .running id → (s.strand id).run = .ready →
        exec (.endNoticeArrival parent n.child) s = .next ({ s with notes := rest }.setStrand id
          { s.strand id with notices := (s.strand id).notices ++ [n], children := (s.strand id).children - 1 })

/-! ## Tiles and candidates -/

/-- TOPEN, SEAL, TSTAT and TDROP (R70, R241, R242, R245 to R247): an own FREE position whose binding names a context that runs a
tile task opens with a new generation, what was buffered for it or being read settled; an OPEN buffer seals into its
context's queue; the state is read; an OPEN, UNPOSTED or posted result position is dropped. A stale generation, or a state
that does not allow it, is REFUSED with nothing changed. -/
def Obligations.TileBuffers : Prop :=
  ∀ (s : State) (d a b : GReg) (l : BitVec 4) (pos ctx : Nat), NoStall s [d, a, b] → NoStall s [d, a] → Calm s →
    let x := s.cur.read a
    let y := s.cur.read b
    let q := s.desc pos
    let c := s.ctx q.ctx
    let gives (s : State) (h : Word) (code : Code) : Out :=
      outstanding s l (.ready { regs := [(d, h)], status := some (BitVec.ofNat 64 code.num) }) 0
    (tilePos s (vaOf x) = none ∨ bindingCtx s y = none → exec (.topen d a b l) s = gives s 0 .invalid)
    ∧ (tilePos s (vaOf x) = some pos → bindingCtx s y = some ctx →
        let timer := y.toNat / 2 ^ 32 % 65536
        let q' : Desc := { st := .opened, gen := (q.gen + 1) % 256, ctx := ctx, task := (s.ctx ctx).task, count := y.toNat / 2 ^ 24 % 64,
                           counter := 0, mask := 0, timer := if timer = 0 then none else some (s.cycle + 256 * timer) }
        ((s.ctx ctx).run = .free ∨ q.st ≠ .free → exec (.topen d a b l) s = gives s 0 .refused)
        ∧ ((s.ctx ctx).run ≠ .free → q.st = .free → lockHit s s.curCluster (vaOf x) 0x800 true = false →
            exec (.topen d a b l) s = gives ((settleTile s pos).setDesc pos q') (posHandle q' pos (ctx % 8)) .ok
            ∧ (TileStill s pos → settleTile s pos = s)))
    ∧ (ownPos s x = none → exec (.seal d a l) s = gives s 0 .invalid ∧ exec (.tstat d a l) s = reports s d l .invalid 0
        ∧ exec (.tdrop d a l) s = reports s d l .invalid 0)
    ∧ (ownPos s x = some pos →
        (hGen x ≠ q.gen → exec (.tdrop d a l) s = reports s d l .refused 0 ∧ (hKind x = 0 → exec (.seal d a l) s = gives s 0 .refused))
        ∧ exec (.tstat d a l) s = reported s d l (BitVec.ofNat 64 ((if hGen x = q.gen then 0 else 2) + 2 ^ 8 * q.gen
            + 2 ^ 16 * (16 * (match q.st with
              | .free => 0
              | .opened => 1
              | .posted => 2
              | .unposted => 3
              | .held => 4
              | .writing => 5
              | .resultPosted => 6) + 2 ^ 8 * min q.counter 255 + 2 ^ 16 * q.mask)))
        ∧ (hGen x = q.gen → q.st = .opened ∨ q.st = .unposted ∨ q.st = .resultPosted →
            exec (.tdrop d a l) s = reports (s.setDesc pos { q with st := .free, timer := none }) d l .ok 0)
        ∧ (hGen x = q.gen → q.st = .posted ∨ q.st = .held ∨ q.st = .writing ∨ q.st = .free →
            exec (.tdrop d a l) s = reports s d l .refused 0)
        ∧ (hGen x = q.gen → hKind x = 0 → q.st = .opened → c.run ≠ .free → c.task = q.task → c.queue.length < 16 →
            ((s.chisel (ctxChisel q.ctx)).posts.any fun p => p.1 == q.ctx) = false →
            ((s.chisel (ctxChisel q.ctx)).retry.any fun r => (s.desc r.1).ctx == q.ctx) = false →
            let h := posHandle q pos (q.ctx % 8)
            exec (.seal d a l) s = gives ((s.setDesc pos { q with st := .posted, timer := none }).setCtx q.ctx
              { c with queue := c.queue ++ [h], run := if c.run = .frozen then .ready else c.run }) h .ok))

/-- TWR and TWRR (R71, R243, R244): a row goes to the tile's bank, 64 bytes and no others, is counted and marked in MASK; the row
that reaches COUNT seals the tile into its context's queue; a bad row or handle traps PERM, a stale or closed one SEALED. A row of
TWRR flies to its bank and reports when it is applied; one to a peer stalls its strand until the answer comes, since R447 makes a
lost one a precise trap; while the partition is being saved a row of TWRR is REFUSED (R381).

Happenings of tile buffers (R242): the timer of an OPEN buffer seals it once it has run out; the oldest handle that waits in a
chisel's post list enters its context's queue once that has room; a bank offers its handle to the post list again after 64
g-cycles. -/
def Obligations.TileRows : Prop :=
  (∀ (s s' : State) (d a b : GReg) (l : BitVec 4) (pos va' : Nat) (bs : List Byte), NoStall s [d, a, b] → Calm s →
    let h := s.cur.read a
    let va := vaOf (s.cur.read b)
    let row := (s.cur.read d).toNat
    let q := s'.desc pos
    let c := s'.ctx q.ctx
    let q' : Desc := { q with counter := q.counter + 1, mask := q.mask ||| 2 ^ row }
    let bytes (u : State) : Prop := u.hbm = s'.hbm ∧ ∀ x, u.spad.get x =
      if posBase pos + 64 * row ≤ x ∧ x < posBase pos + 64 * row + 64 then bs.getD (x - (posBase pos + 64 * row)) 0 else s'.spad.get x
    (Quiet s → 32 ≤ row → exec (.twr d a b) s = handled s .perm 0 0 0)
    ∧ (Quiet s → row < 32 → ownInput s h = none → exec (.twr d a b) s = handled s .perm 0 0 0)
    ∧ (row < 32 → ownInput s h = some pos → va % 64 = 0 → readPieces s va 64 1 [] = (va', .value s' bs) → bs.length = 64 →
        s.cur.got = [] → (∀ c ∈ s'.cores, ∀ b ∈ c.2.stores, b.early = []) → s'.strandId = s.strandId → s'.cur = s.cur →
            (s'.core s.curCore).stores = [] → Memory.wf s'.spad = true →
        lockHit s' s'.curCluster (padAddr (posBase pos + 64 * row)) 64 true = false →
        (Quiet s' → hGen h ≠ q.gen ∨ q.st ≠ .opened → exec (.twr d a b) s = handled s' .sealedBuf 0 0 0)
        ∧ (hGen h = q.gen → q.st = .opened → q.counter + 1 ≠ q.count →
            ∃ u, exec (.twr d a b) s = .next u ∧ u.desc pos = q' ∧ u.cur = { s.cur with pc := s.cur.pc + 4 } ∧ bytes u)
        ∧ (hGen h = q.gen → q.st = .opened → q.counter + 1 = q.count → c.run ≠ .free → c.task = q.task → c.queue.length < 16 →
            ((s'.chisel (ctxChisel q.ctx)).posts.any fun p => p.1 == q.ctx) = false →
            ((s'.chisel (ctxChisel q.ctx)).retry.any fun r => (s'.desc r.1).ctx == q.ctx) = false →
            ∃ u, exec (.twr d a b) s = .next u ∧ u.desc pos = { q' with st := .posted, timer := none } ∧ bytes u
              ∧ (u.ctx q.ctx).queue = c.queue ++ [posHandle q' pos (q.ctx % 8)]))
    ∧ (va % 64 = 0 → readPieces s va 64 1 [] = (va', .value s' bs) → s.cur.got = [] → s'.strandId = s.strandId → s'.cur = s.cur →
        (s'.core s.curCore).stores = [] → (∀ c ∈ s'.cores, ∀ b ∈ c.2.stores, b.early = []) →
        (rowWordOk s' (s.cur.read d) = false → exec (.twrr d a b l) s = reports s' d l .invalid 0)
        ∧ (rowWordOk s' (s.cur.read d) = true → (s.cur.read d).getLsbD 15 = false →
            ∃ u, exec (.twrr d a b l) s = .next u
              ∧ u.rows = s'.rows ++ [⟨s.strandId, s.cur.pendNext, s'.curPart, h, (s.cur.read d).toNat % 32, bs⟩]
              ∧ u.cur = { s.cur with pend := s.cur.pend ++ [⟨s.cur.pendNext, l.toNat, .awaiting d, 0⟩],
                                     pendNext := s.cur.pendNext + 1, pc := s.cur.pc + 4 })
        ∧ (rowWordOk s' (s.cur.read d) = true → (s.cur.read d).getLsbD 15 = true → s.cur.pend = [] → corePuts s' s.curCore = false →
            s.cur.lostPut = none → ∃ u, exec (.twrr d a b l) s = .next u ∧ u.rtagNext = s'.rtagNext + 1
              ∧ u.cur = { s.cur with pend := [⟨s.cur.pendNext, 0, .awaiting d, 0⟩], pendNext := s.cur.pendNext + 1,
                                     run := .stall .atomic }))
    ∧ ∀ (f : FlyRow) (rest : List FlyRow) (left : Nat) (r : GReg), s'.rows = f :: rest → f.bytes = bs → bs.length = 64 → f.row = row →
        Memory.wf s'.spad = true → (∀ c ∈ s'.cores, ∀ b ∈ c.2.stores, b.early = []) → handlePos f.handle = some pos →
            s'.partHas f.part (hCluster f.handle) = true →
        (s'.strand f.strand).pend = [⟨f.k, left, .awaiting r, 0⟩] →
        let answered (code : Code) : Strand :=
          let w : Word := BitVec.ofNat 64 code.num
          { s'.strand f.strand with pend := [⟨f.k, left, .ready { regs := [(r, w)], status := some w }, 0⟩] }
        (hGen f.handle = q.gen → q.st = .opened → (s'.part f.part).saving = false → q.counter + 1 ≠ q.count →
          ∃ u, exec (.twrrRowApply 0) s' = .next u ∧ u.rows = rest ∧ u.desc pos = q' ∧ bytes u ∧ u.strand f.strand = answered .ok)
        ∧ (hGen f.handle ≠ q.gen ∨ q.st ≠ .opened ∨ (s'.part f.part).saving = true →
          ∃ u, exec (.twrrRowApply 0) s' = .next u ∧ u.rows = rest ∧ u.desc pos = q ∧ u.spad = s'.spad
            ∧ u.strand f.strand = answered .refused))
  ∧ (∀ (s : State) (pos ch tag : Nat),
    let q := s.desc pos
    let c := s.ctx q.ctx
    (∀ due, q.st = .opened → q.timer = some due → due ≤ s.cycle → c.run ≠ .free → c.task = q.task → c.queue.length < 16 →
      ((s.chisel (ctxChisel q.ctx)).posts.any fun p => p.1 == q.ctx) = false →
      ((s.chisel (ctxChisel q.ctx)).retry.any fun r => (s.desc r.1).ctx == q.ctx) = false →
      exec (.sealTimerExpiry pos) s = .next ((s.setDesc pos { q with st := .posted, timer := none }).setCtx q.ctx
        { c with queue := c.queue ++ [posHandle q pos (q.ctx % 8)], run := if c.run = .frozen then .ready else c.run }))
    ∧ (∀ due, q.st = .opened → q.timer = some due → due ≤ s.cycle → c.run = .free →
      exec (.sealTimerExpiry pos) s = .next (s.setDesc pos { q with st := .unposted, timer := none }))
    ∧ (∀ due, q.timer = some due → s.cycle < due → exec (.sealTimerExpiry pos) s = .next s)
    ∧ (let id := 8 * ch + tag
       let x := s.ctx id
       ∀ p, ((s.chisel ch).posts.find? fun p => p.1 == id) = some p →
        (x.queue.length < 16 → exec (.postListEntry ch tag) s =
          .next ((s.setChisel ch { s.chisel ch with posts := (s.chisel ch).posts.erase p }).setCtx id
            { x with queue := x.queue ++ [p.2], run := if x.run = .frozen then .ready else x.run }))
        ∧ (16 ≤ x.queue.length → exec (.postListEntry ch tag) s = .next s))
    ∧ (let k := ctxChisel q.ctx
       let first := (s.chisel k).retry.find? fun r => (s.desc r.1).ctx == q.ctx
       ∀ due h, ((s.chisel k).retry.find? fun r => r.1 == pos) = some (pos, due, h) →
        (s.cycle < due → exec (.postRetry pos) s = .next s)
        ∧ (due ≤ s.cycle → (s.chisel k).posts.length < 64 → first = some (pos, due, h) → exec (.postRetry pos) s =
            .next (s.setChisel k { s.chisel k with retry := (s.chisel k).retry.erase (pos, due, h),
                                                   posts := (s.chisel k).posts ++ [(q.ctx, h)] }))
        ∧ (due ≤ s.cycle → 64 ≤ (s.chisel k).posts.length ∨ first ≠ some (pos, due, h) → exec (.postRetry pos) s =
            .next (s.setChisel k { s.chisel k with retry := (s.chisel k).retry.map fun r =>
              if r = (pos, due, h) then (pos, s.cycle + 64, h) else r }))))

/-- The candidate queue (R249 to R251): CQINIT sets its limit and its order; CQPUSH keeps it in order, best first, and the earlier
of equal keys first, puts the worst out of a full queue if the new one is strictly better, and refuses it otherwise; CQPOP takes the
best, key and payload. -/
def Obligations.CandidateQueue : Prop :=
  ∀ (s : State) (d a b : GReg), NoStall s [a] → NoStall s [a, b] → NoStall s (pairRegs d) →
    let t := s.cur
    let x := (t.read a).toNat
    let c : Cand := ⟨t.read a, t.read b, t.candNext⟩
    let ordered (l : List Cand) : Prop :=
      l.Pairwise fun p q => t.better q.key p.key = false ∧ (t.better p.key q.key = false → p.order < q.order)
    let pushed (status : Word) (l : List Cand) : Prop := ∃ m, exec (.cqpush a b) s =
        became s { t with cands := m, candNext := t.candNext + 1, status := status, pc := t.pc + 4 }
      ∧ m.Perm (c :: l) ∧ (ordered l → (∀ p ∈ l, p.order < t.candNext) → ordered m)
    (∀ p q : Word, t.better p q = (match t.candSigned, t.candLargest with
      | false, false => decide (p.toNat < q.toNat)
      | false, true => decide (q.toNat < p.toNat)
      | true, false => decide (p.toInt < q.toInt)
      | true, true => decide (q.toInt < p.toInt)))
    ∧ (x < 1024 → x / 128 % 2 = 0 → 1 ≤ x % 128 → x % 128 ≤ 64 →
        exec (.cqinit a) s = became s { t with
          cands := [], candCap := x % 128, candLargest := (t.read a).getLsbD 8, candSigned := (t.read a).getLsbD 9, candNext := 0,
          status := 0, pc := t.pc + 4 })
    ∧ (1024 ≤ x ∨ x / 128 % 2 = 1 ∨ x % 128 = 0 ∨ 64 < x % 128 →
        exec (.cqinit a) s = became s { t with status := 6, pc := t.pc + 4 })
    ∧ (t.cands.length < t.candCap → pushed 0 t.cands)
    ∧ (∀ l w, t.candCap ≤ t.cands.length → t.cands = l ++ [w] →
        (t.better c.key w.key = true → pushed 0x100 l)
        ∧ (t.better c.key w.key = false → exec (.cqpush a b) s = became s { t with status := 2, pc := t.pc + 4 }))
    ∧ (t.cands = [] → exec (.cqpop d) s = became s { t with status := 16, pc := t.pc + 4 })
    ∧ ∀ w l, t.cands = w :: l →
        exec (.cqpop d) s = became s { (t.write d w.key).write (GReg.plus d 1) w.payload with cands := l, status := 0, pc := t.pc + 4 }

/-! ## Forwarding regions -/

/-- FRB, FRE, FRABORT and FRSTAT (R252, R253, R270 to R273): a strand without a region gets a free slot and the stamp of its
g-cycle and cluster, one a g-cycle of the cluster; FRE makes the region WAITING and the strand waits, or reports an abort and
frees the slot; FRABORT ends the region with ABORT_EXPLICIT; a strand without a region is refused INVALID; the state of a
slot of the partition is read.

REGION_COMMIT (R266, R271): a WAITING region without predecessors writes the bytes it has written to memory, and no others,
and its FRE completes with OK; the FRE of a region that was aborted in an earlier g-cycle completes with the abort.
HELD_ACCESS_REJUDGE (R262): a strand that the depth bound held issues again once it has no region, or the bound lets it pass. -/
def Obligations.Regions : Prop :=
  (∀ (s : State) (d a : GReg) (l : BitVec 4) (e : BitVec 5) (rid : Nat), NoStall s [d] → NoStall s [d, a] →
    let t := s.cur
    let r := s.region rid
    let ended (w : Word) (u : State) : Prop := u.cur.region = none ∧ u.cur.status = w ∧ u.cur.pc = t.pc + 4 ∧ (u.region rid).st = .free
      ∧ u.hbm = s.hbm
    (Calm s → freeSlot s s.curCluster = some rid →
        ((s.cluster s.curCluster).lastFrb ≠ some s.cycle → ∃ u, exec (.frb d l) s = reports u d l .ok rid
          ∧ u.region rid = { st := .live, stamp := 32 * s.cycle + s.curCluster, holder := s.strandId }
          ∧ u.cur = { t with region := some rid } ∧ (u.cluster s.curCluster).lastFrb = some s.cycle)
        ∧ ((s.cluster s.curCluster).lastFrb = some s.cycle →
          exec (.frb d l) s = became s { t with run := .stall (.turn (s.cycle + 1)) }))
    ∧ (Calm s → freeSlot s s.curCluster = none → exec (.frb d l) s = reports s d l .refused 0)
    ∧ (t.region ≠ none → (s.core s.curCore).stores = [] → exec (.frb d l) s = reports s d l .refused 0)
    ∧ (t.region = none → exec (.fre d e) s = became s { t.write d 6 with status := 6, pc := t.pc + 4 }
        ∧ exec .frabort s = became s { t with status := 6, pc := t.pc + 4 })
    ∧ (t.region = some rid → r.st = .live → e ≠ 0 → exec (.fre d e) s = waiting (s.setRegion rid { r with st := .waiting }) (.fre d) e)
    ∧ (t.region = some rid → r.st = .aborted → r.holder = s.strandId → ∃ u, exec (.fre d e) s = .next u
        ∧ ended (BitVec.ofNat 64 (r.code + 2 ^ 8 * r.detail)) u
        ∧ u.cur = { t.write d (BitVec.ofNat 64 (r.code + 2 ^ 8 * r.detail)) with
            region := none, status := BitVec.ofNat 64 (r.code + 2 ^ 8 * r.detail), pc := t.pc + 4 })
    ∧ (t.region = some rid → r.st = .live → r.holder = s.strandId → t.run = .ready → s.regions = [(rid, r)] →
        ∃ u, exec .frabort s = .next u ∧ ended 13 u)
    ∧ (let x := (t.read a).toNat
       x % 65536 = 0 → x / 65536 < 1024 → s.partHas s.curPart (x / 65536 / 32) = true →
        let q := s.region (x / 65536)
        let st := match q.st with
          | .free => 0
          | .live => 1
          | .waiting => 2
          | .aborted => 3
        let last := if q.st = .free ∨ q.st = .aborted then q.code else 0
        exec (.frstat d a l) s = reported s d l (BitVec.ofNat 64 (st * 2 ^ 8 + last * 2 ^ 16 + q.preds.length * 2 ^ 24
          + q.reads.length * 2 ^ 28 + q.writes.length * 2 ^ 37))))
  ∧ (∀ (s : State) (rid sector va : Nat) (w : Tbl Byte) (d : GReg) (deadline : Option Nat),
    let r := s.region rid
    let id := r.holder
    let t := s.strand id
    (r.st = .waiting → r.preds = [] → r.clearAt ≤ s.cycle → r.writes = [sector] → s.seqs.getD sector [] = [⟨rid, some w, va⟩] →
      (∀ p ∈ w, p.1 < 32) → Tbl.sorted w = true → Memory.wf s.hbm = true → (∀ c ∈ s.cores, ∀ b ∈ c.2.stores, b.early = []) →
      (s.core (strandCore id)).stores = [] → (∀ p ∈ t.pend, loadOf p = none) → t.run = .wait (.fre d) deadline → t.region = some rid →
      ∃ u, exec (.regionCommit rid) s = .next u ∧ (u.region rid).st = .free
        ∧ u.strand id = { t.write d 0 with region := none, status := 0, run := .ready, pc := t.pc + 4 }
        ∧ ∀ a, u.hbm.get a = if a / 32 = sector then (w.find (a % 32)).getD (s.hbm.get a) else s.hbm.get a)
    ∧ (r.st ≠ .waiting ∨ r.preds ≠ [] ∨ s.cycle < r.clearAt → r.st ≠ .aborted ∨ s.cycle ≤ r.abortAt →
      exec (.regionCommit rid) s = .next s)
    ∧ (r.st = .aborted → r.abortAt < s.cycle → t.run = .wait (.fre d) deadline → t.halted = false → t.region = some rid →
      let x : Word := BitVec.ofNat 64 (r.code + 2 ^ 8 * r.detail)
      ∃ u, exec (.regionCommit rid) s = .next u ∧ (u.region rid).st = .free ∧ u.hbm = s.hbm
        ∧ u.strand id = { t.write d x with region := none, status := x, run := .ready, pc := t.pc + 4 })
    ∧ (∀ n wr, (s.strand n).run = .stall (.depth sector wr) → (s.strand n).halted = false →
        depthHolds s (s.strand n) sector wr = false →
        exec (.heldAccessRejudge n) s = .next (s.setStrand n { s.strand n with run := .ready })))

/-- How a home judges an access of a LIVE or WAITING region to a sector, and what an abort does (R255, R258 to R262, R265): a
full footprint, a fifth predecessor and a cycle that the region itself is the younger of abort it; of a cycle the younger
region falls; an edge from the last writer is recorded; an access that would make some region deeper than 4 is held; an
access of an aborted region is judged so. The order of these is the model's choice (log 91), and so is DETAIL 0 of an abort
that no instruction asked for (log 106). An aborted region leaves the sequences, and a region that depends on it falls with
ABORT_SOURCE.

Accesses inside a forwarding region (R254, R257, R258, R263, R264): a load returns each byte as the last region write of its
sector left it, else as committed, and joins the sequence; a store is a region write, which no buffer and no byte of memory sees before
the commit; an atomic is both, whatever its order and scope, and a comparison that fails is a read alone; an access that the depth
bound holds stalls; in an aborted region a load is a plain load and a store is discarded. A plain write to a sector that a region tracks
aborts it with ABORT_PLAIN.

Instructions that cannot be undone (R256): in a LIVE or WAITING region each first aborts it with ABORT_EXPLICIT and DETAIL 0x42, then
acts exactly as it would otherwise: RED, SEND, RECV and the other functions of SYNC and TILE but TASKID and GSIZE, those of QRY and
MEMX, the engines', TLBWR, TLBINV and WAITI, and a store or an atomic outside the windows that a region tracks. -/
def Obligations.RegionAccesses : Prop :=
  (∀ (s : State) (rid x k sector detail : Nat) (wr : Bool) (front : List SeqEntry) (w : Tbl Byte) (va : Nat) (c : Code),
    let r := s.region rid
    let seq := s.seqs.getD sector []
    let mine := if wr then r.writes else r.reads
    let pending (r : Region) : Prop := r.st = .live ∨ r.st = .waiting
    let inserted (r : Region) : Region := if wr then { r with writes := NSet.ins r.writes sector }
        else { r with reads := NSet.ins r.reads sector }
    let shallow (u : State) : Prop := ∀ y ∈ u.regions, pending y.2 → regDepth u 8 y.1 ≤ 4
    let fresh : Prop := seq = front ++ [⟨x, some w, va⟩] ∧ x ≠ rid ∧ (∀ e ∈ front, e.rid = rid ∨ e.rid = x) ∧ pending (s.region x)
      ∧ r.preds.contains x = false
    let joined := s.setRegion rid { r with preds := r.preds ++ [x] }
    (∀ c ∈ s.cores, ∀ b ∈ c.2.stores, b.early = []) → (∀ c ∈ s.cores, c.2.red = []) →
    (¬pending r → judge s rid sector wr = .aborted s)
    ∧ (pending r → NSet.has mine sector = false → (if wr then 64 else 256) ≤ mine.length →
        judge s rid sector wr = .aborted (abortRegion s rid .abortCapacity 0))
    ∧ (pending r → NSet.has mine sector = true ∨ mine.length < (if wr then 64 else 256) → (∀ y ∈ s.regions, justAborted s y.2 = false) →
        ((∀ e ∈ seq, e.rid = rid) → r.preds.length ≤ 4 → shallow s → judge s rid sector wr = .go (s.setRegion rid (inserted r)))
        ∧ (fresh → precedes s rid 8 x = false →
            (4 ≤ r.preds.length → judge s rid sector wr = .aborted (abortRegion s rid .abortCapacity 0))
            ∧ (r.preds.length < 4 → shallow joined →
                judge s rid sector wr = .go (joined.setRegion rid (inserted { r with preds := r.preds ++ [x] })))
            ∧ (r.preds.length < 4 → ¬shallow joined → judge s rid sector wr = .held))
        ∧ (fresh → precedes s rid 8 x = true →
            ((s.region x).stamp < r.stamp → judge s rid sector wr = .aborted (abortRegion s rid .abortCycle 0))
            ∧ (r.stamp ≤ (s.region x).stamp → ∀ u, judge s rid sector wr = .go u →
                (u.region x).st = .aborted ∧ (u.region x).code = 8 ∧ (u.region x).detail = 0)))
    ∧ (pending r →
        let u := abortRegion s rid c detail
        (∀ y ∈ s.regions, y.2.preds.contains rid = false) →
          u.region rid = { r with st := .aborted, code := c.num, detail := detail, abortAt := s.cycle, hadPreds := r.preds,
                                  hadLast := (u.region rid).hadLast }
          ∧ (∀ y ∈ u.seqs, ∀ e ∈ y.2, e.rid ≠ rid) ∧ (∀ j, j ≠ rid → u.region j = s.region j) ∧ u.strands = s.strands ∧ u.hbm = s.hbm)
    ∧ (pending r → k ≠ rid → pending (s.region k) → (∀ y ∈ s.regions, y.2.preds.contains rid = decide (y.1 = k)) →
        (∀ y ∈ s.regions, y.2.preds.contains k = false) → (∃ z, (k, z) ∈ s.regions) → Tbl.sorted s.regions = true →
        let u := abortRegion s rid c detail
        (u.region rid).st = .aborted ∧ (u.region rid).code = c.num ∧ (u.region rid).detail = detail
        ∧ (u.region k).st = .aborted ∧ (u.region k).code = 9 ∧ (u.region k).detail = 0
        ∧ ∀ y ∈ u.seqs, ∀ e ∈ y.2, e.rid ≠ rid ∧ e.rid ≠ k))
  ∧ (∀ (s s' u v : State) (rid pa core : Nat) (ty : LdType) (sz : StSize) (k : AmoKind) (wd : AWidth) (o : Order) (sc : Scope)
    (d a b : GReg) (l : BitVec 4) (off : BitVec 12) (st : BufStore), NoStall s [d, b] → NoStall s [d, a, b] → s.cur.region = some rid →
    s'.region rid = s.region rid →
    let sector := pa / 32
    let t := s.cur
    let at_ (n : Nat) : Nat := memAddr t b off n
    let ea := vaOf (t.read a)
    let inside (va : Nat) : Prop := window va < 8 ∨ (window va = 14 ∧ copyNeeded s va = false)
    let next (u : State) : Out := became u { u.cur with pc := u.cur.pc + 4 }
    let seen (u : State) (n : Nat) : List Byte := (List.range n).map fun i =>
      (((u.seqs.getD sector []).filterMap fun e => e.wrote.bind fun w => w.find (pa % 32 + i)).getLast?).getD (u.hbm.get (pa + i))
    let joins (u : State) (wrote : Option (List Byte)) (va : Nat) : State := { u with seqs := u.seqs.put sector (u.seqs.getD sector []
      ++ [⟨rid, wrote.map fun bs => bs.mapIdx fun i c => (pa % 32 + i, c), va⟩]) }
    let reads := judge s' rid sector false
    let writes := judge s' rid sector true
    let held (wr : Bool) : Out := became s' { s'.cur with run := .stall (.depth sector wr) }
    (let n := LdType.size ty
     inside (at_ n) → Checked s s' (at_ n) n .load (.mem pa) →
      (reads = .go u → exec (.ld ty d b l off) s
          = outstanding (joins u none (at_ n)) l (.ready (loadRegs ty d (seen u n))) (at_ n))
      ∧ (reads = .held → exec (.ld ty d b l off) s = held false)
      ∧ (reads = .aborted u → meetsPoison u u.curCore u.curPart (.mem pa) n = false →
          exec (.ld ty d b l off) s = outstanding (orderLoads u u.strandId (.mem pa) n) l (.load ty d (.mem pa)) (at_ n)))
    ∧ (let n := StSize.bytes sz
       inside (at_ n) → Checked s s' (at_ n) n .store (.mem pa) →
        (writes = .go u → exec (.st sz d b off) s = next (joins u (some (leBytes n (t.read d).toNat)) (at_ n)))
        ∧ (writes = .held → exec (.st sz d b off) s = held true)
        ∧ (writes = .aborted u → exec (.st sz d b off) s = next u))
    ∧ (let n := AWidth.bytes wd
       inside ea → Checked s s' ea n .atom (.mem pa) → reads = .go u →
        let old := ofLeBytes (seen u n)
        let answer (w : State) (code : Option Word) : Out :=
          became w { w.cur.write d (BitVec.ofNat 64 old) with status := code.getD w.cur.status, pc := w.cur.pc + 4 }
        let own := old = (t.read d).toNat % 2 ^ (8 * n)
        (judge (joins u none ea) rid sector true = .go v →
          exec (.amo k wd o sc d a b) s = answer (joins v (some (leBytes n (amoNew k (8 * n) old (t.read b).toNat))) ea) none
          ∧ (own → exec (.cas wd o sc d a b) s = answer (joins v (some (leBytes n (t.read b).toNat)) ea) (some 0)))
        ∧ (¬own → exec (.cas wd o sc d a b) s = answer (joins u none ea) (some 15)))
    ∧ (s.regions = [(rid, s.region rid)] → ((s.region rid).st = .live ∨ (s.region rid).st = .waiting) →
        (s.region rid).preds.contains rid = false → (s.core core).stores = [st] → st.loc = .mem pa → pa % 32 + st.bytes.length ≤ 32 →
        (∀ c ∈ s.cores, ∀ b ∈ c.2.stores, b.early = []) → (∀ c ∈ s.cores, c.2.red = []) →
        (NSet.has (s.region rid).reads sector = true ∨ NSet.has (s.region rid).writes sector = true) →
        ∃ w, exec (.storeCommit core 0) s = .next w ∧ (w.region rid).st = .aborted ∧ (w.region rid).code = 11
          ∧ (w.region rid).detail = 0 ∧ w.hbm = (rawWrite s (.mem pa) st.bytes).hbm))
  ∧ (∀ (s : State) (rid : Nat) (d a b c : GReg) (l : BitVec 4) (e : BitVec 5) (t : Fin 16) (k : RedKind) (sz : StSize) (off : BitVec 12)
    (ak : AmoKind) (wd : AWidth) (o : Order) (sc : Scope) (es : ElemSize) (v : CollOp), (∀ rs, NoStall s rs) → s.cur.region = some rid →
    ((s.region rid).st = .live ∨ (s.region rid).st = .waiting) →
    let u := abortRegion s rid .abortExplicit 0x42
    let alike (i : Instr) : Prop := exec i s = exec i u
    let free (va : Nat) : Prop := 8 ≤ window va ∧ window va ≠ 14
    ((u.region rid).st = .aborted ∧ (u.region rid).code = 13 ∧ (u.region rid).detail = 0x42 ∧ u.cur = s.cur ∧ u.hbm = s.hbm)
    ∧ (∀ i ∈ [Instr.red k .n32 a b, .send d a b l, .recv d a e, .gjoin d a l, .gleave d a l, .binit d a b l, .barrive d a l, .bwait d a e,
        .binval d a l, .spawn d a l, .join d e, .kill d a l, .topen d a b l, .twr d a b, .twrr d a b l, .seal d a l, .tstat d a l,
        .tdrop d a l, .balloc d a l, .bfree d a l, .sqappend d a b l, .sqlook d a b l, .sqfork d a l, .sqdrop d a l, .pfxput d a b l,
        .pfxfind d a b l, .pfxfindV d a b l, .vbopen d a l, .vbseal d a l, .xcopy t a b c, .xgather t a b c es, .xscatter t a b c es,
        .xfill t a b c, .xnearScaleadd t a b c, .xnearTopk t a b c, .xcoll t a b c v, .ftest t a, .fwait t e, .fcancel t], alike i)
    ∧ (s.cur.priv = true → ∀ i ∈ [Instr.tlbwr d a b, .tlbinv d a, .waiti], alike i)
    ∧ (free (memAddr s.cur b off (StSize.bytes sz)) → alike (.st sz d b off))
    ∧ (free (memAddr s.cur b off 32) → alike (.stv d b off))
    ∧ (free (vaOf (s.cur.read a)) → alike (.amo ak wd o sc d a b) ∧ alike (.cas wd o sc d a b) ∧ alike (.cas2 o sc d a b)))

/-! ## The Quarry -/

/-- Blocks and sequences (R275 to R281, R285 to R287): BALLOC takes the head of the free list, BFREE gives up what the partition
holds, and a block whose last reference goes is the new head; SQAPPEND adds a new block or one more reference, SQLOOK reads
an entry, SQFORK makes an empty sequence or a copy with one more reference to each block, SQDROP cuts or removes one, giving
up its blocks in the order of its entries (log 28).

The prefix index (R282, R283, R287): PFXPUT enters a key for a live block and counts a reference, REMOVE takes it out; PFXFIND
appends the block found to a sequence, PFXFIND.v only when the header agrees too; a key that is not there gives NOMATCH. -/
def Obligations.Quarry : Prop :=
  (∀ (s : State) (d a b : GReg) (l : BitVec 4) (n i id : Nat) (p : Pool) (q : Seq), NoStall s [d, a] → NoStall s [d, a, b] → Calm s →
    let x := s.cur.read a
    let y := s.cur.read b
    let word (c detail block count : Nat) : Word := BitVec.ofNat 64 (c + 2 ^ 8 * detail + 2 ^ 16 * (block + 2 ^ 32 * count))
    let answer (s' : State) (w : Word) : Out := reported s' d l w
    s.pools.find n = some p → p.part = s.curPart →
    (x.toNat = n → n < 64 →
      (∀ rest, p.free = i :: rest → exec (.balloc d a l) s =
        answer (setPool s n { p with free := rest, refs := p.refs.put i 1, held := NSet.ins p.held i }) (word 0 0 (n * 2 ^ 26 + i) 0))
      ∧ (p.free = [] → exec (.balloc d a l) s = reports s d l .exhausted 0))
    ∧ (blockOperand x = some (false, n, i) →
        (p.refs.getD i 0 = 1 → i ∈ p.held → Tbl.sorted p.refs = true → exec (.bfree d a l) s =
          answer (setPool s n { p with held := NSet.rem p.held i, refs := p.refs.del i, free := i :: p.free }) 0)
        ∧ (1 < p.refs.getD i 0 → i ∈ p.held → exec (.bfree d a l) s =
          answer (setPool s n { p with held := NSet.rem p.held i, refs := p.refs.put i (p.refs.getD i 0 - 1) })
            (word 0 0 (p.refs.getD i 0 - 1) 0))
        ∧ (p.refs.getD i 0 ≠ 0 → i ∉ p.held → exec (.bfree d a l) s = reports s d l .refused 0)
        ∧ (p.refs.getD i 0 = 0 → exec (.bfree d a l) s = reports s d l .invalid 0))
    ∧ (s.sequences.find id = some q → q.pool = n → q.blocks.length < 4096 → plainSeq x = some id →
        let grown (p : Pool) (i : Nat) : Out :=
          answer (setSeq (setPool s n p) id { q with blocks := q.blocks ++ [i] }) (word 0 0 (n * 2 ^ 26 + i) (q.blocks.length + 1))
        (∀ rest, blockOperand y = some (true, n, 0) → p.free = i :: rest →
          exec (.sqappend d a b l) s = grown { p with free := rest, refs := p.refs.put i 1 } i)
        ∧ (blockOperand y = some (true, n, 0) → p.free = [] → exec (.sqappend d a b l) s = reports s d l .exhausted 0)
        ∧ (blockOperand y = some (false, n, i) → 0 < p.refs.getD i 0 → p.refs.getD i 0 < 65535 →
          exec (.sqappend d a b l) s = grown { p with refs := p.refs.put i (p.refs.getD i 0 + 1) } i)
        ∧ (y.toNat < q.blocks.length → q.blocks[y.toNat]? = some i → exec (.sqlook d a b l) s =
          answer s (word 0 (if 1 < p.refs.getD i 0 then 1 else 0) (n * 2 ^ 26 + i) q.blocks.length))
        ∧ (q.blocks.length ≤ y.toNat → y.toNat < 4096 → exec (.sqlook d a b l) s = answer s (word 2 0 0 q.blocks.length)))
    ∧ (∀ k, seqOperand x = some (0, false, true, n) → n < 64 → freeSeq s (n / 8) = some k →
        exec (.sqfork d a l) s = answer (setSeq s k ⟨n, []⟩) (word 0 0 k 0))
    ∧ (∀ k p', s.sequences.find id = some q → q.pool = n → seqOperand x = some (0, false, false, id) → freeSeq s (id / 2 ^ 17) = some k →
        refAll p q.blocks = some p' → exec (.sqfork d a l) s = answer (setSeq (setPool s n p') k q) (word 0 0 k q.blocks.length))
    ∧ (s.sequences.find id = some q → q.pool = n → Still s →
        (seqOperand x = some (0, false, false, id) → ∃ u, exec (.sqdrop d a l) s = reported u d l 0
          ∧ u.sequences = s.sequences.del id ∧ u.pools = Tbl.put s.pools n (q.blocks.foldl dropRef p))
        ∧ (∀ keep, keep ≤ 4096 → seqOperand x = some (keep, true, false, id) →
            ∃ u, exec (.sqdrop d a l) s = reported u d l (word 0 0 0 (min keep q.blocks.length))
              ∧ u.sequences = Tbl.put s.sequences id { q with blocks := q.blocks.take keep }
              ∧ u.pools = Tbl.put s.pools n ((q.blocks.drop keep).foldl dropRef p))))
  ∧ (∀ (s s' : State) (d a b : GReg) (l : BitVec 4) (n i id va' : Nat) (p : Pool) (q : Seq) (bs key hdr : List Byte),
    NoStall s [d, a, b] → Calm s →
    let va := vaOf (s.cur.read a)
    let y := s.cur.read b
    let word (c detail block count : Nat) : Word := BitVec.ofNat 64 (c + 2 ^ 8 * detail + 2 ^ 16 * (block + 2 ^ 32 * count))
    let w := n * 2 ^ 26 + i
    let es := s'.prefixes.getD (n / 8) []
    va % 32 = 0 → readPieces s va 32 3 [] = (va', .value s' bs) → s.cur.got = [] → s'.strandId = s.strandId → s'.cur = s.cur →
    (s'.core s'.curCore).stores = [] → (∀ c ∈ s'.cores, ∀ b ∈ c.2.stores, b.early = []) → prefixRecord bs = some (key, hdr) →
        s'.pools.find n = some p → p.part = s'.curPart →
    i < 2 ^ 24 → p.refs.getD i 0 ≠ 0 →
    (blockOperand y = some (false, n, i) →
      ((es.find? fun e => e.key == key) = none → es.length < 262144 → p.refs.getD i 0 < 65535 →
        exec (.pfxput d a b l) s =
          reported { setPool s' n { p with refs := p.refs.put i (p.refs.getD i 0 + 1) } with
            prefixes := s'.prefixes.put (n / 8) (es ++ [⟨key, hdr, w⟩]) } d l (word 0 0 w 0))
      ∧ ∀ e, (es.find? fun e => e.key == key) = some e → exec (.pfxput d a b l) s = reported s' d l (word 2 0 e.block 0))
    ∧ (∀ e, blockOperand y = some (true, n, i) → (es.find? fun e => e.key == key) = some e → e.block = w →
        exec (.pfxput d a b l) s =
          reported { setPool s' n (dropRef p i) with prefixes := s'.prefixes.put (n / 8) (es.filter fun x => x.key != key) }
            d l (word 0 0 w 0))
    ∧ (y.toNat = id → id < 2 ^ 20 → s'.sequences.find id = some q → q.pool = n → id / 2 ^ 17 = n / 8 →
        ((es.find? fun e => e.key == key) = none →
          exec (.pfxfind d a b l) s = reports s' d l .nomatch 0 ∧ exec (.pfxfindV d a b l) s = reports s' d l .nomatch 0)
        ∧ ∀ e, (es.find? fun e => e.key == key) = some e → e.block = w → q.blocks.length < 4096 → p.refs.getD i 0 < 65535 →
            let grown : Out := reported (setSeq (setPool s' n { p with refs := p.refs.put i (p.refs.getD i 0 + 1) }) id
              { q with blocks := q.blocks ++ [i] }) d l (word 0 0 w (q.blocks.length + 1))
            exec (.pfxfind d a b l) s = grown
            ∧ (e.hdr = hdr → exec (.pfxfindV d a b l) s = grown)
            ∧ (e.hdr ≠ hdr → exec (.pfxfindV d a b l) s = reported s' d l (word 15 1 0 0))))

/-! ## Translation -/

/-- TLBWR, TLBINV and TLB_FILL (R392, R393, R395, R396): an entry is written in place of those that overlap its page; entries go
with their number reported, under SCOPE 0 those of the core, under SCOPE 1 and 2 those of every TLB of the partition, once no engine
element or store translated by them is away; a fill of a mapped page gives its entry and wakes the
strand, unless that is SUSPENDED; one of an unmapped page reports NONE. -/
def Obligations.Translations : Prop :=
  ∀ (s : State) (d a b : GReg) (id : Nat), NoStall s [d, a, b] → NoStall s [d, a] → s.cur.priv = true → Calm s →
    let x := s.cur.read a
    let va := vaOf x
    let e := (s.cur.read b).toNat
    let bits := szBits (leafSz e)
    let fits : Prop := window va < 8 ∧ va % 2 ^ bits = 0 ∧ e.testBit 0 = true ∧ e.testBit 1 = true
      ∧ leafMalformed s s.curPart va e (szLevel (leafSz e)) = false
    let ended (s' : State) (c : Code) (n : Nat) : Out :=
      let w : Word := BitVec.ofNat 64 (c.num + 2 ^ 16 * n)
      became s' { s.cur.write d w with status := w, pc := s.cur.pc + 4 }
    let core := s.core s.curCore
    let hit (y : Entry) : Bool := y.part == s.curPart && va / 2 ^ y.bits * 2 ^ y.bits == y.base
    let scope := x.toNat / 2 ^ 62
    let bad : Prop := x.toNat / 2 ^ 52 % 2 ^ 10 ≠ 0 ∨ scope = 3 ∨ (scope < 2 ∧ 8 ≤ window va)
    (¬fits → exec (.tlbwr d a b) s = ended s .invalid 0)
    ∧ (fits → leafKind e = 2 → exec (.tlbwr d a b) s = ended s .refused 0)
    ∧ (fits → leafKind e ≠ 2 → exec (.tlbwr d a b) s =
        ended (s.setCore s.curCore { core with
          tlb := tlbInsert 64 (core.tlb.filter fun y => !(y.part == s.curPart && overlap y.base (2 ^ y.bits) va (2 ^ bits)))
            (entryOf s s.curPart va e) }) .ok 0)
    ∧ (bad → invWaits s x = false → exec (.tlbinv d a) s = ended s .invalid 0)
    ∧ (¬bad → scope = 0 → exec (.tlbinv d a) s =
        ended (s.setCore s.curCore { core with tlb := core.tlb.filter fun y => !hit y }) .ok (core.tlb.filter hit).length)
    ∧ (invWaits s x = true → exec (.tlbinv d a) s = became s { s.cur with run := .stall (.turn (s.cycle + 1)) })
    ∧ (¬bad → scope ≠ 0 → invWaits s x = false → Still s →
        let gone (y : Entry) : Bool := y.part == s.curPart && (scope == 2 || hit y)
        let count (l : List Entry) : Nat := (l.filter gone).length
        let n := (s.cores.map fun c => count c.2.tlb).sum + (s.chisels.map fun c => count c.2.tlb).sum
          + (s.clusters.map fun c => count c.2.tlb).sum
        ∃ t, exec (.tlbinv d a) s = ended t .ok n ∧ t.hbm = s.hbm ∧ t.spad = s.spad ∧ t.strands = s.strands
          ∧ (∀ k, (t.core k).tlb = (s.core k).tlb.filter fun y => !gone y)
          ∧ (∀ k, (t.chisel k).tlb = (s.chisel k).tlb.filter fun y => !gone y)
          ∧ ∀ k, (t.cluster k).tlb = (s.cluster k).tlb.filter fun y => !gone y)
    ∧ ∀ m fetch, (s.strand id).run = .stall (.tlb m fetch) →
        let t := s.strand id
        (∀ w lv pa, walk s (s.strandPart id) m = .leaf w lv pa → leafKind w ≠ 2 →
          t.halted = false ∨ ((s.core (strandCore id)).tlb.any (entryHits (s.strandPart id) m)) = false →
          let y := entryOf s (s.strandPart id) m w
          let c := s.core (strandCore id)
          exec (.tlbFill (.strand id)) s = .next ((s.setCore (strandCore id) { c with
            tlb := tlbInsert 64 (c.tlb.filter fun z => !(z.part == y.part && overlap z.base (2 ^ z.bits) y.base (2 ^ y.bits))) y
            }).setStrand id (if t.halted then t else { t with run := .ready, fillNone := none })))
        ∧ (walk s (s.strandPart id) m = .none → t.halted = false →
          exec (.tlbFill (.strand id)) s = .next (s.setStrand id { t with run := .ready, fillNone := some (m / 65536) }))

/-- A near/far swap (R398, R399), posted through the partition's SWAPPOST register (R411), by the device itself or as the host's
CFGW: a record that names a near and a far page is taken, and its pages' translations go; a move exchanges the next line of
the two frames, poison with it; with the last line both leaves name the other frame and DONE gets OK (the exchange, the leaf
and the answer are the model's `exchangeLines`, `finishSwap`).

Host-shared pages (the device's request goes on the stream of log 22; R402 to R404, R436): a request of the device for a page
that the host holds starts a move to the device with OP 3; once every part and OP 5 have come the leaf names the new frame,
and HOLD is set against the host; a move to the host is complete once OP 5 is acknowledged, and HOLD is set against the
device; a hold that has passed ends, and remote translations of the page go. -/
def Obligations.Pages : Prop :=
  (∀ (s : State) (p va k : Nat) (m : HostMsg),
    (m.part = p → m.addr = 0x200000030 + 0x1000 * p → numAt m.payload 0 8 = va → exec (.swappost (.host m) p va) s = exec (.cfgw m) s)
    ∧ (∀ a b ne nl fe fl,
        let near := leafAddr ne
        let far := leafAddr fe
        let bs := s.hbm.bytes a 32 ++ s.hbm.bytes b 32
        va % 64 = 0 → PlainMemory s → Still s →
        treeAddr s p va permR = .ok (.mem a) → treeAddr s p (va + 32) permR = .ok (.mem b) →
        (∀ i, 24 ≤ i → i < 64 → bs.getD i 0 = 0) →
        pageLeaf s p (numAt bs 0 8) 0 = some (ne, nl) → pageLeaf s p (numAt bs 8 8) 1 = some (fe, fl) →
        (∀ w ∈ s.swaps, w.2.near ≠ near ∧ w.2.far ≠ near ∧ w.2.near ≠ far ∧ w.2.far ≠ far) →
        (s.swaps.filter fun w => w.2.part == p).length < 16 →
        ∃ t, exec (.swappost .direct p va) s = .next t ∧ t.swapNext = s.swapNext + 1 ∧ t.hbm = s.hbm
          ∧ t.swaps = Tbl.put s.swaps s.swapNext ⟨p, numAt bs 0 8, numAt bs 8 8, near, far, numAt bs 16 8, 0⟩
          ∧ ∀ n, ∀ e ∈ (t.core n).tlb, e.part = p → entryHits p (numAt bs 0 8) e = false ∧ entryHits p (numAt bs 8 8) e = false)
    ∧ ∀ w, s.swaps.find k = some w →
        let near := w.near + 64 * w.next
        let far := w.far + 64 * w.next
        (w.next < 1023 → ∃ t, exec (.swapLineMove k) s = .next t ∧ t.swaps = Tbl.put s.swaps k { w with next := w.next + 1 }
          ∧ (PlainMemory s → Memory.wf s.hbm = true → near + 64 ≤ far ∨ far + 64 ≤ near →
              t.hbm.bytes near 64 = s.hbm.bytes far 64 ∧ t.hbm.bytes far 64 = s.hbm.bytes near 64
              ∧ ∀ x, ¬(near ≤ x ∧ x < near + 64) → ¬(far ≤ x ∧ x < far + 64) → t.hbm.get x = s.hbm.get x))
        ∧ (w.next = 1023 → exec (.swapLineMove k) s = .next (finishSwap (exchangeLines s near far) k { w with next := 1024 })))
  ∧ (∀ (s : State) (p va e pa : Nat), sharedLeaf s p va = some (e, pa) → s.mgmt.up = true → PlainMemory s →
    let x := s.page p va
    let q := s.stream (streamKey p x.stream)
    (∀ frame, x.moving = none → x.device = false → heldOff s x true = false → x.waiting = true → nearFrame s p va = some frame →
      ∃ t o, exec (.migrationRequest p va false) s = .next t
        ∧ t.page p va = { x with moving := some true, waiting := false, frame := frame, parts := [] }
        ∧ t.hostOut = s.hostOut ++ [o] ∧ o.typ = 13 ∧ o.msg.part = p ∧ o.msg.seq = q.send ∧ o.msg.addr = va / 65536 * 65536
        ∧ numAt o.msg.payload 0 2 = 3)
    ∧ (x.moving = none → x.device = false → heldOff s x true = false → x.waiting = true → nearFrame s p va = none →
        ∃ t, exec (.migrationRequest p va false) s = .next t ∧ t.page p va = x ∧ t.hostOut = s.hostOut ∧ t.strands = s.strands)
    ∧ (∀ frame, nearFrame s p va = some frame → frame % 65536 = 0 ∧ frameFree s p frame = true)
    ∧ (x.moving = some true → NSet.has x.parts 99 = true → (∀ i < 16, NSet.has x.parts i = true) →
      ∃ t, exec (.pageMove p va) s = .next t
        ∧ t.page p va = { x with device := true, moving := none, parts := [],
                                 hold := some (false, s.cycle + (s.part p).holdoff * 1800) }
        ∧ t.hbm = s.hbm.putBytes pa (leBytes 8 (retarget e 2 x.frame)))
    ∧ (x.moving = some false → NSet.has x.parts 99 = true → exec (.pageMove p va) s = .next (s.setPage p va
        { x with device := false, moving := none, parts := [], hold := some (true, s.cycle + (s.part p).holdoff * 1800) }))
    ∧ ∀ side c, x.hold = some (side, c) → c ≤ s.cycle →
      ∃ t, exec (.holdEnd p va) s = .next t ∧ t.page p va = { x with hold := none } ∧ t.hbm = s.hbm
        ∧ ∀ n, ∀ y ∈ (t.core n).tlb, y.part = p → y.until_.isSome = true → entryHits p va y = false)

/-- VBSEAL and VBOPEN (R109, R204 to R206): a SEALED buffer opens at the next version once no device has a line of it, one with
fillers sends them notices and waits, for 64 us at most; the wait of R111 holds the notices back; an OPEN buffer seals, and a
state that does not allow the change is REFUSED with nothing changed; while such a wait or an earlier VBOPEN is at work the instruction
issues again. -/
def Obligations.VersionedBuffers : Prop :=
  ∀ (s : State) (d a : GReg) (l : BitVec 4) (e : Nat), NoStall s [d, a] → Calm s →
    let va := vaOf (s.cur.read a)
    let v := s.vbuf e
    let next := (v.version + 1) % 2 ^ 24
    (vbufBase s s.curPart va = none → exec (.vbopen d a l) s = reports s d l .invalid 0 ∧ exec (.vbseal d a l) s = reports s d l .invalid 0)
    ∧ (vbufBase s s.curPart va = some e → exPart s e ≠ s.curPart →
        exec (.vbopen d a l) s = reports s d l .refused 0 ∧ exec (.vbseal d a l) s = reports s d l .refused 0)
    ∧ (vbufBase s s.curPart va = some e → exPart s e = s.curPart →
        let again : Out := became s { s.cur with run := .stall (.turn (s.cycle + 1)) }
        (v.opening.isSome = true → exec (.vbopen d a l) s = again) ∧ (v.reuseAt.isSome = true → exec (.vbseal d a l) s = again))
    ∧ (vbufBase s s.curPart va = some e → exPart s e = s.curPart → v.opening = none →
        (v.isSealed = false → exec (.vbopen d a l) s = reports s d l .refused 0)
        ∧ (v.isSealed = true → v.reuseAt = none → exec (.vbseal d a l) s = reports s d l .refused 0)
        ∧ (v.isSealed = true → v.lastFill.find next = none → v.fillers = [] → s.cur.pend = [] →
            exec (.vbopen d a l) s =
              reports (s.setVbuf e { v with isSealed := false, version := next, fillers := [], reuseAt := none, opening := none })
                d l .ok next)
        ∧ (v.isSealed = true → v.lastFill.find next = none → v.fillers ≠ [] →
            ∃ t, exec (.vbopen d a l) s = .next t ∧ (t.vbuf e).version = next ∧ (t.vbuf e).isSealed = false ∧ (t.vbuf e).fillers = []
              ∧ (t.vbuf e).opening = some (s.strandId, s.cur.pendNext, s.cycle, v.fillers)
              ∧ t.rtagNext = s.rtagNext + v.fillers.length)
        ∧ (v.isSealed = false → v.reuseAt = none → v.heldFills = [] → Still s →
            (∀ c ∈ s.cores, c.2.red = []) → corePuts s s.curCore = false → s.cur.lostPut = none →
            exec (.vbseal d a l) s =
              reports (s.setVbuf e { v with isSealed := true, everSealed := true, heldFills := [] }) d l .ok v.version))
    ∧ (∀ id k c ps, v.opening = some (id, k, c, ps) → v.reuseAt = none → v.change = none → c + 64 * 1800 ≤ s.cycle →
        ∃ t, exec (.vbopenTimeout e) s = .next t ∧ (t.vbuf e).opening = none
          ∧ ∀ p ∈ (s.strand id).pend, p.id = k → p.act = .awaiting d →
              { p with act := .ready { regs := [(d, BitVec.ofNat 64 (2 ^ 16 * v.version))],
                                       status := some (BitVec.ofNat 64 (2 ^ 16 * v.version)) } } ∈ (t.strand id).pend)
    ∧ ∀ c, v.reuseAt = some c → v.fillers = [] →
        (s.cycle < c → exec (.vbopenReuseWait e) s = .next s)
        ∧ (c ≤ s.cycle → ∃ t, exec (.vbopenReuseWait e) s = .next t ∧ (t.vbuf e).version = next ∧ (t.vbuf e).isSealed = false
            ∧ (t.vbuf e).reuseAt = none)

/-! ## Engines -/

/-- XCOPY, XFILL, XGATHER, XSCATTER, XNEAR and XCOLL (R101, R226, R227, R232, R234 to R236, R238, R239): operands that the form
does not allow give INVALID, a copy of nothing gives OK, a destination or a table that does not take the operation gives its
code, all through the token register at once, which completes the token (log 26); else the operation is formed: its ranges
are registered at issue (log 83), of an indexed table only the base (log 27), each range within one window (log 82), its
token is pending, and the strand goes on. XNEAR also joins its unit's queue, XCOLL a chain instance of its group. -/
def Obligations.EngineIssue : Prop :=
  ∀ (s : State) (tok : Fin 16) (a b c : GReg) (sz : ElemSize) (v : CollOp), NoStall s [.g tok, a, b, c] → Calm s →
    let x := vaOf (s.cur.read a)
    let y := vaOf (s.cur.read b)
    let z := vaOf (s.cur.read c)
    let n := (s.cur.read c).toNat
    let settled (k : Code) : Out := became s { s.cur.complete tok.val (BitVec.ofNat 64 k.num) with pc := s.cur.pc + 4 }
    let cl := s.cluster s.curCluster
    let lock (dest : Bool) (va n : Nat) : Lock := ⟨s.opNext, dest, va / 32 * 32, (va + n + 31) / 32 * 32⟩
    let op (kind : EngKind) (a b c size count : Nat) : EngOp :=
      { kind := kind, strand := s.strandId, task := s.cur.task, part := s.curPart, sink := s.cur.taskSink.toNat % 2 ^ 32,
        launch := strandLaunch s s.strandId, tok := tok.val, a := a, b := b, c := c, size := size, count := count }
    let formed (o : EngOp) (ls : List Lock) : State :=
      { (s.setCluster s.curCluster { cl with locks := cl.locks ++ ls }).setCur
          { s.cur with pendTok := NSet.ins s.cur.pendTok tok.val, pc := s.cur.pc + 4 } with
        ops := Tbl.put s.ops s.opNext o, opNext := s.opNext + 1 }
    let form (i : Instr) (o : EngOp) (dests : List (Nat × Nat)) (ls : List Lock) (full : Bool) (t : State → State) : Prop :=
      (∀ k, (dests.findSome? fun d => destCheck s d.1 d.2) = some k → exec i s = settled k)
      ∧ ((dests.findSome? fun d => destCheck s d.1 d.2) = none →
          (full = true ∨ lockRoom s ls = false → exec i s = settled .refused)
          ∧ (full = false → lockRoom s ls = true → exec i s = .next (t (formed o ls))))
    let badCopy : Prop := x % 32 ≠ 0 ∨ y % 32 ≠ 0 ∨ n % 32 ≠ 0 ∨ 2 ^ 30 < n ∨ (x < y + n ∧ y < x + n) ∨ rangeOk s .copy true x n = false
      ∨ rangeOk s .copy false y n = false
    let badFill : Prop := x % 32 ≠ 0 ∨ n % 32 ≠ 0 ∨ 2 ^ 30 < n ∨ rangeOk s .fill true x n = false
    let size := ElemSize.bytes sz
    let m := if (s.cur.read b).toNat / 2 ^ 52 = 0 then 4096 else (s.cur.read b).toNat / 2 ^ 52
    let odd : Prop := x % min size 32 ≠ 0 ∨ z % min size 32 ≠ 0 ∨ y % 4 ≠ 0
    let badGather : Prop := odd ∨ rangeOk s .gather false y (4 * m) = false ∨ rangeOk s .gather true x (size * m) = false
      ∨ rangeOk s .gather false z 1 = false
    let badScatter : Prop := odd ∨ rangeOk s .scatter false y (4 * m) = false ∨ rangeOk s .scatter true x 1 = false
      ∨ rangeOk s .scatter false z (size * m) = false
    let unit := if s.remapped.has s.curCore then s.curCore ^^^ 1 else s.curCore
    let q := s.trowels.getD unit []
    let queued (t : State) : State := { t with trowels := Tbl.put s.trowels unit (q ++ [s.opNext]) }
    let rows := n / 2 ^ 32 % 2 ^ 16
    let badScale : Prop := x % 256 ≠ 0 ∨ y % 256 ≠ 0 ∨ n / 2 ^ 48 ≠ 0 ∨ rows = 0
    let cands := n % 2 ^ 20
    let k := n / 2 ^ 32 % 2 ^ 7
    let badTopk : Prop := x % 8 ≠ 0 ∨ y % 256 ≠ 0 ∨ n / 2 ^ 39 ≠ 0 ∨ n / 2 ^ 20 % 2 ^ 12 ≠ 0 ∨ cands = 0 ∨ k = 0 ∨ 64 < k
    let gid := (s.cur.read b).toNat
    let w := CollOp.width v
    let badColl : Prop := window x ≠ 8 ∨ x % 32 ≠ 0 ∨ 65536 ≤ gid ∨ n = 0 ∨ 4096 < n ∨ rangeOk s (.coll v) true x (w * n) = false
    (badCopy → exec (.xcopy tok a b c) s = settled .invalid) ∧ (¬badCopy → n = 0 → exec (.xcopy tok a b c) s = settled .ok)
    ∧ (¬badCopy → n ≠ 0 →
        form (.xcopy tok a b c) (op .copy x y n 32 (n / 32)) [(x, n)] [lock false y n, lock true x n] false fun t => t)
    ∧ (badFill → exec (.xfill tok a b c) s = settled .invalid) ∧ (¬badFill → n = 0 → exec (.xfill tok a b c) s = settled .ok)
    ∧ (¬badFill → n ≠ 0 →
        form (.xfill tok a b c) (op .fill x (s.cur.read b).toNat n 32 (n / 32)) [(x, n)] [lock true x n] false fun t => t)
    ∧ (badGather → exec (.xgather tok a b c sz) s = settled .invalid)
    ∧ (¬badGather →
        form (.xgather tok a b c sz) (op .gather x y z size m) [(x, size * m)] [lock false y (4 * m), lock true x (size * m)] false
          fun t => t)
    ∧ (badScatter → exec (.xscatter tok a b c sz) s = settled .invalid)
    ∧ (¬badScatter →
        form (.xscatter tok a b c sz) (op .scatter x y z size m) [] [lock false y (4 * m), lock false z (size * m)] false fun t => t)
    ∧ (badScale → exec (.xnearScaleadd tok a b c) s = settled .invalid)
    ∧ (¬badScale → form (.xnearScaleadd tok a b c) (op .scaleadd x y (n % 2 ^ 32) 256 rows) [(x, 256)]
        [lock false y (256 * rows), lock true x 256] (decide (8 ≤ q.length)) queued)
    ∧ (badTopk → exec (.xnearTopk tok a b c) s = settled .invalid)
    ∧ (¬badTopk → form (.xnearTopk tok a b c) (op .topk x y cands k cands) [(x, 8 * k)]
        [lock false y (4 * cands), lock true x (8 * k)] (decide (8 ≤ q.length)) queued)
    ∧ (badColl → exec (.xcoll tok a b c v) s = settled .invalid)
    ∧ (¬badColl → (∀ g, s.groups.find gid = some g → NSet.has g.members s.strandId = false) →
        exec (.xcoll tok a b c v) s = settled .refused)
    ∧ ∀ g, ¬badColl → s.groups.find gid = some g → NSet.has g.members s.strandId = true → openChain s gid s.strandId = none →
        openCount s gid < 2 → destCheck s x (w * n) = none → lockRoom s [lock true x (w * n)] = true →
        ∃ t, exec (.xcoll tok a b c v) s = .next t ∧ t.opNext = s.opNext + 1 ∧ t.chainNext = s.chainNext + 1
          ∧ t.cur = { s.cur with pendTok := NSet.ins s.cur.pendTok tok.val, pc := s.cur.pc + 4 }
          ∧ t.ops.find s.opNext = some { op (.coll v) x gid 0 w n with inst := s.chainNext }
          ∧ t.chains.find s.chainNext =
              some ⟨gid, s.curPart, [(chainKey s s.strandId, s.opNext)], decide (g.members.length ≤ 1), 0, false, [], [], []⟩

/-- FTEST, FWAIT and FCANCEL, and what happens to operations (R103, R226, R231, R234, R237, R239, R240): the token's status, or
TIMEOUT while it is pending, which no pending token holds up, a completion that comes later writing the register again (log
40); the wait for it, which an ENGINE report of the strand's own keeps from completing (log 90); the request to stop; the
completion, which releases the ranges and writes the token; a Trowel unit takes the oldest operation of its queue; a chain
instance carries its partial result to the next member.

Elements of engine operations in the device (R133, R228, R229, R233): the granule of a fill is written, and no other byte; a
copy carries its granule and its poison; then the operation is at its next element, one by one in rising order (log 41).
Collectives combine element by element. -/
def Obligations.EngineProgress : Prop :=
  (∀ (s : State) (tok : Fin 16) (a : GReg) (e : BitVec 5) (k u i : Nat) (o : EngOp), s.cur.region = none → s.cur.halted = false →
    let pending := NSet.has s.cur.pendTok tok.val
    let w : Word := if pending then 1 else s.cur.read (.g tok)
    let q := s.trowels.getD u []
    let t := s.strand o.strand
    exec (.ftest tok a) s = became s { s.cur.write a w with status := w, pc := s.cur.pc + 4 }
    ∧ exec (.fwait tok e) s = (if pending ∨ (s.cur.reports ≠ [] ∧ s.cur.intrap = false) then waiting s (.fwait tok.val) e
        else became s { s.cur with status := s.cur.read (.g tok), run := .ready, pc := s.cur.pc + 4 })
    ∧ (tokOp s s.strandId tok = some (k, o) →
        exec (.fcancel tok) s = became { s with ops := Tbl.put s.ops k { o with cancelled := true } } { s.cur with pc := s.cur.pc + 4 })
    ∧ (tokOp s s.strandId tok = none → exec (.fcancel tok) s = became s { s.cur with pc := s.cur.pc + 4 })
    ∧ (s.ops.find k = some o → o.kind = .copy ∨ o.kind = .fill ∨ o.kind = .gather ∨ o.kind = .scatter →
        (o.away = true ∨ o.next ≠ o.count → exec (.engineCompletion k) s = .next s)
        ∧ (o.away = false → o.next = o.count → t.task = o.task → t.run = .ready ∨ t.run = .stall (.token o.tok) →
            ∃ s', exec (.engineCompletion k) s = .next s' ∧ s'.ops = Tbl.del s.ops k
              ∧ (s'.cluster (strandCluster o.strand)).locks = (s.cluster (strandCluster o.strand)).locks.filter (fun l => l.op != k)
              ∧ s'.strand o.strand = t.complete o.tok (if o.cancelled then 3 else 0)))
    ∧ (∀ rest, q = k :: rest → s.ops.find k = some o → s.stopping o.part = false →
        (∀ j ∈ q, ∀ p, s.ops.find j = some p → p.running = false) →
        exec (.xnearStart u) s =
          .next { s with ops := Tbl.put s.ops k { o with running := true }, trowels := Tbl.put s.trowels u (k :: q.filter (· != k)) })
    ∧ (∀ rest, q = k :: rest → s.ops.find k = some o → o.running = true →
        exec (.trowelResume u) s = .next { s with ops := Tbl.put s.ops k { o with yielded := false } })
    ∧ ∀ (c : Chain) (v : CollOp) (key : Nat), s.chains.find i = some c →
        (∀ m ∈ c.members, NSet.has c.done m.2 = false →
          ∃ x, s.ops.find m.2 = some x ∧ x.cancelled = false ∧ x.kind = .coll v ∧ x.count = o.count) →
        (c.closed = false → exec (.xcollChainStep i) s = .next s)
        ∧ (c.closed = true → c.back = false → v ≠ .bcast → c.members[c.pos]? = some (key, k) → NSet.has c.done k = false →
            s.ops.find k = some o → c.pos + 1 < c.members.length →
            let at_ := (padDecode o.a).getD 0
            let bs := s.spad.bytes at_ (o.size * o.count)
            let bad := (List.range ((o.size * o.count + 31) / 32)).filter fun g => isPoisoned s (.spad (at_ + 32 * g))
            exec (.xcollChainStep i) s = .next { s with
              chains := Tbl.put s.chains i { c with pos := c.pos + 1, value := if c.pos = 0 then bs else collBytes v o.count c.value bs,
                                                    poison := bad.foldl NSet.ins c.poison } }))
  ∧ (∀ (s s1 s2 : State) (k pa src : Nat) (o : EngOp) (rest : List Turn), s.agenda = .engine k :: rest →
    let s0 := { s with agenda := rest }
    s.ops.find k = some o → o.away = false → o.suspended = false → o.miss = none → o.cancelled = false → o.next < o.count → o.stride = 1 →
    PlainMemory s2 → Memory.wf s2.hbm = true → s2.hbm = s.hbm → s2.ops = s.ops → s2.poison.Nodup →
    (o.kind = .fill → engPlace s0 o (o.a + 32 * o.next) true = .go s2 (.mem pa) →
      ∃ t, step s = .next t ∧ (t.ops.find k).map (·.next) = some (o.next + 1)
        ∧ ∀ x, t.hbm.get x = if pa ≤ x ∧ x < pa + 32 then (leBytes 8 o.b).getD ((x - pa) % 8) 0 else s.hbm.get x)
    ∧ (o.kind = .copy → engPlace s0 o (o.b + 32 * o.next) false = .go s1 (.mem src) → PlainMemory s1 → s1.hbm = s.hbm →
        engPlace s1 o (o.a + 32 * o.next) true = .go s2 (.mem pa) →
        ∃ t, step s = .next t ∧ (t.ops.find k).map (·.next) = some (o.next + 1)
          ∧ (∀ x, t.hbm.get x = if pa ≤ x ∧ x < pa + 32 then s.hbm.get (src + (x - pa)) else s.hbm.get x)
          ∧ isPoisoned t (.mem pa) = isPoisoned s1 (.mem src))
    ∧ (∀ n xs ys j, j < n → numAt (collBytes .addI64 n xs ys) (8 * j) 8 = (numAt xs (8 * j) 8 + numAt ys (8 * j) 8) % 2 ^ 64)
    ∧ ∀ n xs ys j, j < n → numAt (collBytes .addF32 n xs ys) (4 * j) 4
        = (fpAdd fp32 0 (fpDecode fp32 (numAt xs (4 * j) 4)) (fpDecode fp32 (numAt ys (4 * j) 4))).1 % 2 ^ 32)

/-- Elements of XGATHER and XSCATTER in the device (R84, R229, R232, R233): the index is read from its list, the element moves
from base + size·index to its place in the row of elements, or the other way, and no other byte changes; a whole granule is
poisoned where its index or its source was.

Rows of the near-memory microprograms (R228, R229, R234 to R236): SCALEADD reads its row into 64 lanes, adds to each the scaled element
of a source row, rounded once, and at the end writes them back; a row that fails writes what stands and ends the operation with
FAULT. TOPK keeps of the candidates of a row the greatest valid ones, in falling order, and of equal ones the lower index;
at the end it writes its list, OK if it is full and else PARTIAL with its length.

The sequence and the Compaction aperture (R79, R82, R280, R281, R407): an address of a sequence leads to the block its entry
names, for a strand and for an engine alike; a write to a block of count 1 goes there, and one to a shared block first copies
it into the head of the free list, which the entry then names; with none free it traps PAGE. The Compaction aperture reads
what its page holds, or a granule of a compressed surface: zeros where the bitmap has a 0, else the granule's data; any write
traps PERM. -/
def Obligations.ElementsAndApertures : Prop :=
  (∀ (s s1 s2 s3 : State) (k list src dst : Nat) (o : EngOp) (rest : List Turn), s.agenda = .engine k :: rest →
    let s0 := { s with agenda := rest }
    let i := o.next
    let x := ofLeBytes (s.hbm.bytes list 4)
    let still (u : State) : Prop := PlainMemory u ∧ u.hbm = s.hbm ∧ u.ops = s.ops ∧ u.poison = s.poison
    let moved : Prop := ∃ t, step s = .next t ∧ (t.ops.find k).map (·.next) = some (i + 1)
      ∧ (∀ z, t.hbm.get z = if dst ≤ z ∧ z < dst + o.size then s.hbm.get (src + (z - dst)) else s.hbm.get z)
      ∧ (o.size = 32 → isPoisoned t (.mem dst) = (isPoisoned s (.mem src) || isPoisoned s (.mem list)))
    s.ops.find k = some o → o.away = false → o.suspended = false → o.miss = none → o.cancelled = false → i < o.count → o.stride = 1 →
    s.poison.Nodup → still s1 → still s2 → still s3 → Memory.wf s.hbm = true →
    engPlace s0 o (o.b + 4 * i) false = .go s1 (.mem list) →
    (o.kind = .gather → o.size = 32 ∨ (i + 1 = o.count ∧ o.size < 32) →
      engPlace s1 o ((o.c + o.size * x) % 2 ^ 52) false = .go s2 (.mem src) →
      engPlace s2 o ((o.a + o.size * i) % 2 ^ 52) true = .go s3 (.mem dst) → moved)
    ∧ (o.kind = .scatter → o.size ≤ 32 → engPlace s1 o ((o.c + o.size * i) % 2 ^ 52) false = .go s2 (.mem src) →
        engPlace s2 o ((o.a + o.size * x) % 2 ^ 52) true = .go s3 (.mem dst) → moved))
  ∧ (∀ (s u v : State) (k pa va : Nat) (o : EngOp) (c : Cause) (rest : List Turn), s.agenda = .engine k :: rest →
    let s0 := { s with agenda := rest }
    let granules : List (Loc × Nat) := (List.range 8).map fun j => (Loc.mem (pa + 32 * j), 32)
    let row := s.hbm.bytes pa 256
    let lane (bs : List Byte) (j : Nat) : Nat := numAt bs (4 * j) 4
    let still : Prop := PlainMemory u ∧ u.hbm = s.hbm ∧ u.ops = s.ops ∧ u.poison = [] ∧ u.atoms = []
    let dst (n : Nat) : List (Nat × Nat) := cutRange (n / 32 + 2) o.a n
    let token (t : State) (w : Nat) : Prop := t.ops.find k = none ∧ (t.strand o.strand).read (.g (Fin.ofNat 16 o.tok)) = BitVec.ofNat 64 w
    let mine : Prop := (s.strand o.strand).run = .ready ∧ (s.strand o.strand).task = o.task ∧ o.tok % 16 ≠ 0 ∧ Tbl.sorted s.ops = true
    s.ops.find k = some o → o.away = false → o.suspended = false → o.miss = none → o.cancelled = false → o.running = true →
    o.yielded = false → still → o.poison = [] → Memory.wf s.hbm = true →
    (o.kind = .scaleadd → o.stride = 1 →
      (o.lanes = [] → nearPlaces s0 o false (dst 256) [] = .ok (u, granules) → nearPlaces s0 o true (dst 256) [] = .ok (u, granules) →
        ∃ t, step s = .next t ∧ t.hbm = s.hbm ∧ (t.ops.find k).map (·.lanes) = some ((List.range 64).map (lane row)))
      ∧ (o.lanes.length = 64 → o.next < o.count → nearPlaces s0 o false (cutRange 8 (o.b + 256 * o.next) 256) [] = .ok (u, granules) →
          ∃ t q, step s = .next t ∧ t.hbm = s.hbm ∧ t.ops.find k = some q ∧ q.next = o.next + 1
            ∧ ∀ j < 64, q.lanes.getD j 0
                = (fpFma fp32 0 (fpDecode fp32 o.c) (fpDecode fp32 (lane row j)) (fpDecode fp32 (o.lanes.getD j 0))).1)
      ∧ (o.lanes.length = 64 → mine →
          let written (t : State) : Prop := ∀ z, t.hbm.get z =
            if pa ≤ z ∧ z < pa + 256 then (leBytes 4 (o.lanes.getD ((z - pa) / 4) 0)).getD ((z - pa) % 4) 0 else s.hbm.get z
          (o.next = o.count → nearPlaces s0 o true (dst 256) [] = .ok (u, granules) → ∃ t, step s = .next t ∧ written t ∧ token t 0)
          ∧ (o.next < o.count → nearPlaces s0 o false (cutRange 8 (o.b + 256 * o.next) 256) [] = .error (va, .fault v c) →
              nearPlaces v o true (dst 256) [] = .ok (u, granules) → u.strands = s.strands → (s.strand o.strand).reports = [] →
              ∃ t, step s = .next t ∧ written t ∧ token t (4 + 2 ^ 8 * c.num + 2 ^ 16 * o.next)
                ∧ (t.strand o.strand).reports = [⟨o.tok, c.num, va, o.next, o.sink⟩])))
    ∧ (o.kind = .topk → o.next = 0 → o.best = [] → o.count = 64 →
        nearPlaces s0 o false (cutRange 8 o.b 256) [] = .ok (u, granules) →
            (∃ w ls, nearPlaces s0 o true (cutRange 18 o.a (8 * o.size)) [] = .ok (w, ls)) →
        ∃ t q, step s = .next t ∧ t.hbm = s.hbm ∧ t.ops.find k = some q ∧ q.next = 64
          ∧ q.best.length = min o.size ((List.range 64).filter fun j => topkValid (lane row j)).length
          ∧ (∀ p ∈ q.best, p.2 < 64 ∧ p.1 = lane row p.2 ∧ topkValid p.1 = true) ∧ (q.best.map (·.2)).Nodup
          ∧ (∀ j, j + 1 < q.best.length → let a := q.best.getD j (0, 0)
              let b := q.best.getD (j + 1) (0, 0)
              fpLess (fpDecode fp32 a.1) (fpDecode fp32 b.1) = false
                ∧ (fpLess (fpDecode fp32 b.1) (fpDecode fp32 a.1) = false → a.2 < b.2))
          ∧ ∀ j < 64, topkValid (lane row j) = true → j ∉ q.best.map (·.2) → ∀ p ∈ q.best,
              fpLess (fpDecode fp32 p.1) (fpDecode fp32 (lane row j)) = false)
    ∧ (o.kind = .topk → o.count ≤ o.next → o.size = 4 → o.best.length ≤ 4 → mine → pa % 32 = 0 →
        nearPlaces s0 o true (cutRange 18 o.a 32) [] = .ok (u, [(Loc.mem pa, 32)]) →
        ∃ t, step s = .next t ∧ token t ((if o.best.length = 4 then 0 else 14) + 2 ^ 16 * o.best.length)
          ∧ (∀ j < 4, let p := o.best.getD j (0, 0)
              t.hbm.bytes (pa + 8 * j) 8 = if j < o.best.length then leBytes 4 p.2 ++ leBytes 4 p.1
                  else leBytes 4 0xFFFFFFFF ++ leBytes 4 0)
          ∧ ∀ z, z < pa ∨ pa + 32 ≤ z → t.hbm.get z = s.hbm.get z))
  ∧ (∀ (s s' : State) (o : EngOp) (va n : Nat) (k : AKind) (p : Pool) (q : Seq) (blk fresh : Nat) (rest : List Nat) (e : Entry)
    (frame bm data cnt : Nat),
    let id := bitsOf va 47 28
    let b := bitsOf va 27 16
    let off := va % 65536
    let size := blockBytes p.size
    let src := blockBase s p blk
    let dst := blockBase s p fresh
    let copied (u : State) : Prop := u.pools.find q.pool = some { p with
        free := rest, refs := (p.refs.put fresh 1).put blk (p.refs.getD blk 0 - 1) }
      ∧ u.sequences.find id = some { q with blocks := q.blocks.set b fresh } ∧ u.strands = s.strands
      ∧ ∀ z, u.hbm.get z = if dst ≤ z ∧ z < dst + size then s.hbm.get (src + (z - dst)) else s.hbm.get z
    (window va = 14 → o.part = s.curPart → s.ownsQuarry s.curPart (id / 2 ^ 17) = false →
      accessCheck s va n k = .trap s .perm ∧ ∀ wr, engPlace s o va wr = .fault s .perm)
    ∧ (window va = 14 → o.part = s.curPart → s.ownsQuarry s.curPart (id / 2 ^ 17) = true → s.sequences.find id = none →
        accessCheck s va n k = .trap s .page ∧ ∀ wr, engPlace s o va wr = .fault s .page)
    ∧ (window va = 14 → o.part = s.curPart → s.ownsQuarry s.curPart (id / 2 ^ 17) = true → s.sequences.find id = some q →
        q.blocks[b]? = some blk →
        s.pools.find q.pool = some p → off < size → (s.cluster s.curCluster).locks = [] → vbufAt s s.curPart va = none →
            s.cur.region = none →
        engPlace s o va false = .go s (.mem (src + off))
        ∧ (meetsPoison s s.curCore s.curPart (.mem (src + off)) n = false → accessCheck s va n .load = .go s (.mem (src + off)))
        ∧ (p.refs.getD blk 0 ≤ 1 → engPlace s o va true = .go s (.mem (src + off)) ∧ accessCheck s va n .store = .go s (.mem (src + off)))
        ∧ (1 < p.refs.getD blk 0 → p.free = [] → engPlace s o va true = .fault s .page ∧ accessCheck s va n .store = .trap s .page)
        ∧ (1 < p.refs.getD blk 0 → p.free = fresh :: rest → stillThrough s p.part (inEntry id b) (fun _ => true) = true →
            accessCheck s va n .store = .stall s (.turn (s.cycle + 1)))
        ∧ (1 < p.refs.getD blk 0 → p.free = fresh :: rest → stillThrough s p.part (inEntry id b) (fun _ => true) = false → Still s →
            PlainMemory s → s.poison = [] → Memory.wf s.hbm = true → src + size ≤ dst ∨ dst + size ≤ src → b < q.blocks.length →
            (∃ u, accessCheck s va n .store = .go u (.mem (dst + off)) ∧ copied u)
            ∧ ∃ u, engPlace s o va true = .go u (.mem (dst + off)) ∧ copied u))
    ∧ (let at_ := va % 2 ^ 48
       let g := at_ % 65536 / 32
       let bit (i : Nat) : Bool := (s.hbm.get (bm + i / 8)).getLsbD (i % 8)
       let j := ((List.range g).filter bit).length
       window va = 10 → (k ≠ .load → accessCheck s va n k = .trap s .perm)
        ∧ (coreLook s at_ = (s', some e) → e.until_ = none → PlainMemory s' → s'.hbm = s.hbm → s'.poison = [] →
            (s'.core s'.curCore).stores = [] → (s'.cluster s'.curCluster).locks = [] → vbufAt s' s'.curPart at_ = none →
            ((leafCmp e.word && e.surface.isNone) = true → accessCheck s va n .load = .trap s' .page)
            ∧ ((leafCmp e.word && e.surface.isNone) = false → grants e.word (permR + if s'.cur.priv then 0 else permU) = false →
                accessCheck s va n .load = .trap s' .perm)
            ∧ (grants e.word (permR + if s'.cur.priv then 0 else permU) = true →
                (∀ pa, e.surface = none → leafCmp e.word = false → entryPa s' e at_ = some pa → accessCheck s va n .load = .go s' (.mem pa))
                ∧ (e.surface = some (true, frame, bm, data, cnt) → n ≤ 32 → va % 32 + n ≤ 32 →
                    (bit g = false → ∃ u l, accessCheck s va n .load = .backed u (List.replicate n 0) l ∧ u.hbm = s.hbm ∧ u.cur = s'.cur)
                    ∧ (bit g = true → j < cnt → (data + 32 * j) % 32 = 0 →
                        ∃ u l, accessCheck s va n .load = .backed u (s.hbm.bytes (data + 32 * j + va % 32) n) l ∧ u.hbm = s.hbm
                            ∧ u.cur = s'.cur)
                    ∧ (bit g = true → cnt ≤ j → accessCheck s va n .load = .trap s' .page))))))

/-! ## Chisels -/

/-- The scalar slots (R303): the value, from the registers as the bundle reads them, is in flight to its register with
latency 1; nothing else changes.

A chisel's turn (R50 to R52, R292 to R296): of its one READY context it fetches the next bundle, word by word through its
instruction TLB (only the paged window has bundles; a miss holds the context); as the bundle issues, every result in flight comes one
bundle nearer and one whose count runs out reaches its register, the latest one standing; every syllable reads the registers
as they then stand, and its result is in flight for the next bundle; the pc goes to the following bundle, or after the last delay
slot to a taken branch's target. A bundle that traps ends its task. -/
def Obligations.ChiselScalars : Prop :=
  (∀ (s : State) (u : SSlot) (d a b : SReg) (p : PReg) (m : MpReg) (c : Cond) (i : BitVec 13) (j : BitVec 18),
    let x := s.curCtx.s[a]
    let y := s.curCtx.s[b]
    let n := y.toNat % 64
    let go (v : Word) : Out := inFlight s 1 (.s d.val v)
    let meets : Prop := match c with
      | .eq => x = y
      | .ne => x ≠ y
      | .lt => x.toInt < y.toInt
      | .ge => y.toInt ≤ x.toInt
      | .ltn => x.toNat < y.toNat
      | .gen => y.toNat ≤ x.toNat
    exec (.sAdd u d a b) s = go (x + y) ∧ exec (.sSub u d a b) s = go (x - y) ∧ exec (.sMul u d a b) s = go (x * y)
    ∧ exec (.sAddi u d a i) s = go (x + i.signExtend 64)
    ∧ exec (.sAnd u d a b) s = go (x &&& y) ∧ exec (.sOr u d a b) s = go (x ||| y) ∧ exec (.sXor u d a b) s = go (x ^^^ y)
    ∧ exec (.sShl u d a b) s = go (x <<< n) ∧ exec (.sShr u d a b) s = go (x >>> n) ∧ exec (.sSha u d a b) s = go (x.sshiftRight n)
    ∧ exec (.sMin u d a b) s = go (BitVec.ofInt 64 (min x.toInt y.toInt))
    ∧ exec (.sMax u d a b) s = go (BitVec.ofInt 64 (max x.toInt y.toInt))
    ∧ (meets → exec (.sCmp u c p a b) s = inFlight s 1 (.p p.val true))
    ∧ (¬meets → exec (.sCmp u c p a b) s = inFlight s 1 (.p p.val false))
    ∧ exec (.sSel u d a b p) s = go (if s.curCtx.p[p] then x else y)
    ∧ exec (.li u d j) s = go (j.signExtend 64)
    ∧ exec (.hget u d a .kind) s = go ((x >>> 60) &&& 1) ∧ exec (.hget u d a .gen) s = go ((x >>> 52) &&& 0xFF)
    ∧ exec (.hget u d a .tag) s = go ((x >>> 49) &&& 7) ∧ exec (.hget u d a .buf) s = go ((x >>> 42) &&& 0x7F)
    ∧ exec (.hget u d a .core) s = go ((x >>> 37) &&& 0x1F) ∧ exec (.hget u d a .cluster) s = go ((x >>> 32) &&& 0x1F)
    ∧ exec (.hget u d a .mask) s = go (x &&& 0xFFFFFFFF)
    ∧ exec (.mpset u m a) s = inFlight s 1 (.mp m.val x))
  ∧ (∀ (s : State) (ch k n pa va addr : Nat) (w : W32) (e : Entry) (i : Instr) (u v : SSlot) (d a b d' a' b' : SReg) (x : Cause)
    (l : List Nat),
    let id := 8 * ch + k
    let c := s.ctx id
    let at_ := vaOf c.pc
    let due : List CDest := (c.flight.filter fun f => f.left ≤ 1).map fun f => f.dest
    let later : List InFlight := (c.flight.filter fun f => 1 < f.left).map fun f => { f with left := f.left - 1 }
    let sNow (r : SReg) : Word :=
      ((due.filterMap fun y => match y with
        | .s m z => if m = r.val then some z else none
        | _ => none).getLast?).getD c.s[r]
    let pNow (r : PReg) : Bool :=
      ((due.filterMap fun y => match y with
        | .p m z => if m = r.val then some z else none
        | _ => none).getLast?).getD c.p[r]
    let vNow (r : Nat) : List Byte :=
      ((due.filterMap fun y => match y with
        | .v m z => if m = r then some (bytesAt z 0 64) else none
        | _ => none).getLast?).getD (c.vreg r)
    let next : Word := c.pc + BitVec.ofNat 64 (4 * n)
    let goes : Word × Option (Nat × Option Nat) := match c.delay with
      | none => (next, none)
      | some (m, t) => if m ≤ 1 then ((t.map (BitVec.ofNat 64)).getD next, none) else (next, some (m - 1, t))
    let issues (is : List Instr) (news : List InFlight) : Prop := peekBundle s id = .bundle is n → ∃ t, turn (.chisel ch) s = .next t
      ∧ (∀ r : SReg, (t.ctx id).s[r] = sNow r) ∧ (∀ r : PReg, (t.ctx id).p[r] = pNow r) ∧ (∀ r < 16, (t.ctx id).vreg r = vNow r)
      ∧ (t.ctx id).flight = later ++ news ∧ (t.ctx id).pc = goes.1 ∧ (t.ctx id).delay = goes.2 ∧ (t.ctx id).run = .ready
      ∧ (t.ctx id).bundles = c.bundles + 1 ∧ (t.chisel ch).primary = k ∧ t.strands = s.strands ∧ t.hbm = s.hbm ∧ t.spad = s.spad
      ∧ ∀ j < 8, j ≠ k → t.ctx (8 * ch + j) = s.ctx (8 * ch + j)
    k < 8 →
    (8 ≤ window at_ → peekBundle s id = .trap .perm at_ [])
    ∧ (window at_ < 8 → (s.chisel ch).tlb.find? (entryHits c.part at_) = none → peekBundle s id = .miss at_)
    ∧ (PlainMemory s → window at_ < 8 → (s.chisel ch).tlb.find? (entryHits c.part at_) = some e → e.until_ = none →
        (leafCmp e.word && e.surface.isNone) = false → grants e.word (permX + permU) = true → entryPa s e at_ = some pa →
        isPoisoned s (.mem pa) = false → s.hbm.bytes pa 4 = leBytes 4 w.toNat → sylStop w = true →
        decodeBundle c.delay.isSome [w] = .ok [i] → fmtTrap { tickFlight s id with ctxId := id } i = false →
        peekBundle s id = .bundle [i] 1)
    ∧ (c.run = .ready → c.frozenBy = false → s.stopping ((s.clusterPart (chiselCluster ch)).getD 0) = false →
        (s.chisel ch).routine = none → (∀ j < 8, j ≠ k → (s.ctx (8 * ch + j)).run ≠ .ready) →
        issues [.nop] []
        ∧ issues [.sAdd u d a b, .sSub v d' a' b'] [⟨1, .s d.val (sNow a + sNow b)⟩, ⟨1, .s d'.val (sNow a' - sNow b')⟩]
        ∧ (peekBundle s id = .miss va → ∃ t, turn (.chisel ch) s = .next t ∧ t.ctx id = { c with run := .held (some va) }
            ∧ t.strands = s.strands ∧ t.hbm = s.hbm ∧ t.spad = s.spad)
        ∧ (peekBundle s id = .trap x addr l → ∃ t, turn (.chisel ch) s = .next t ∧ (t.ctx id).run = .free)))

/-- The C slot (R296 to R300, R302, R123): a branch resolves to two delay bundles and its target; LOOP counts down; FMT is written with
latency 4; TPOP takes the next handle or freezes the context; TPOST hands the tile to the outbound list; MWAIT holds and DONE
drains the context.

What tile tasks lead to (R297, R301, R378): an outbound handle reaches its receiver and leaves the list, or waits while the
mailbox is full, for 64 g-cycles before it tries again; a context after DONE is FREE once its results have landed, and not
while it is SUSPENDED; a halt freezes the contexts of a chisel whose units are idle. -/
def Obligations.ChiselControl : Prop :=
  (∀ (s : State) (r m : SReg) (p : PReg) (neg : Bool) (off : BitVec 16) (i : BitVec 11) (rm : BitVec 2),
    let c := s.curCtx
    let x := c.s[r]
    let ctx (c : Ctx) : State := s.setCtx s.ctxId c
    let branch (taken : Bool) : Ctx := { c with delay := some (2, if taken then some (c.pc + 4 * off.signExtend 64).toNat else none) }
    exec .nop s = .next s
    ∧ exec (.cbr off) s = .next (ctx (branch true))
    ∧ exec (.brp neg p off) s = .next (ctx (branch (if neg then !c.p[p] else c.p[p])))
    ∧ exec (.loop r off) s = .next (ctx (if x = 0 then branch false
        else { branch (decide (1 < x.toNat)) with flight := c.flight ++ [⟨1, .s r.val (x - 1)⟩] }))
    ∧ exec .done s = .next (ctx { c with run := .draining, ending := .done })
    ∧ exec .mwait s = .next (ctx { c with run := .held none })
    ∧ (i.toNat % 16 ≤ 6 → i.toNat / 16 % 16 ≤ 6 → exec (.setfmt i) s = inFlight s 4 (.fmt 0x7FF i.toNat))
    ∧ (s.checked = false → 6 < i.toNat % 16 ∨ 6 < i.toNat / 16 % 16 → exec (.setfmt i) s = .next (chiselTrap s s.ctxId .fmt 0))
    ∧ exec (.setrm rm) s = inFlight s 4 (.fmt 0x600 (512 * rm.toNat))
    ∧ (c.queue = [] → exec (.tpop r) s = .next (ctx { c with run := .frozen }))
    ∧ (∀ h rest pos, c.queue = h :: rest → handlePos h = some pos →
        exec (.tpop r) s = .next ((s.setDesc pos { s.desc pos with st := .held }).setCtx s.ctxId
          { c with queue := rest, flight := c.flight ++ [⟨1, .s r.val h⟩] }))
    ∧ ∀ pos, Passes s (.tpost r m) → resultPos s x = some pos →
        let q := s.desc pos
        let ch := s.chisel s.curChisel
        exec (.tpost r m) s = .next ((s.setDesc pos { q with st := .resultPosted }).setChisel s.curChisel
          { ch with outbound := ch.outbound ++ [⟨pos, posHandle q pos (s.ctxId % 8), c.s[m], c.task, c.part, 0⟩] }))
  ∧ (∀ (s : State) (ch k id p : Nat) (e : Outbound),
    (∀ s', (s.chisel ch).outbound[k]? = some e → e.retryAt ≤ s.cycle → (∀ x ∈ (s.chisel ch).outbound.take k, x.addr ≠ e.addr) →
      deliverMessage s e.part e.addr ⟨1, e.task, [e.handle, 0, 0, 0]⟩ = (s', .ok) →
      exec (.outboundDelivery ch k) s =
        .next (s'.setChisel ch { s'.chisel ch with outbound := (s'.chisel ch).outbound.eraseIdx k }))
    ∧ (∀ r, (s.chisel ch).outbound[k]? = some e → e.retryAt ≤ s.cycle → (∀ x ∈ (s.chisel ch).outbound.take k, x.addr ≠ e.addr) →
        mbReceiver e.addr = some r → s.strandPart r = e.part → taskStrand s e.part (mbTask e.addr) = some r →
        16 ≤ (s.strand r).mailbox.length → exec (.outboundDelivery ch k) s =
          .next (s.setChisel ch { s.chisel ch with outbound := (s.chisel ch).outbound.set k { e with retryAt := s.cycle + 64 } }))
    ∧ ((s.chisel ch).outbound[k]? = some e → s.cycle < e.retryAt ∨ (∃ x ∈ (s.chisel ch).outbound.take k, x.addr = e.addr) →
        exec (.outboundDelivery ch k) s = .next s)
    ∧ ((s.ctx id).run = .draining → (s.ctx id).ending = .done → routineRuns s id = false → (s.ctx id).frozenBy = false →
        ∃ t, exec (.tileTaskEnd id) s = .next t ∧ (t.ctx id).run = .free ∧ (t.ctx id).task = 0 ∧ (t.ctx id).queue = []
          ∧ (t.ctx id).flight = [] ∧ ∀ q ∈ (t.chisel (ctxChisel id)).claims, q.2 ≠ id)
    ∧ ((s.ctx id).run ≠ .draining ∨ routineRuns s id = true ∨ (s.ctx id).frozenBy = true → exec (.tileTaskEnd id) s = .next s)
    ∧ (s.clusterPart (chiselCluster ch) = some p → s.halting p = true →
        (s.cycle < (s.chisel ch).mBusy ∨ s.cycle < (s.chisel ch).loadBusy → exec (.chiselFreeze ch) s = .next s)
        ∧ ((s.chisel ch).mBusy ≤ s.cycle → (s.chisel ch).loadBusy ≤ s.cycle →
            ∃ t, exec (.chiselFreeze ch) s = .next t ∧ ∀ n < 8, let c := s.ctx (8 * ch + n)
              t.ctx (8 * ch + n) = if c.run = .free then c else { c with frozenBy := true })))

/-- The arithmetic of the V slot (R304 to R308): lane by lane under FMT.RM, without flags, in flight with latency 3; VFMA adds its old
destination; VRMAX and VRSUM give one value to every lane; VCVT converts as many lanes as both types have and clears the rest; a
format code above BF16 traps FMT.

The movement of the V slot (R308 to R311): broadcast, select, shuffle; VLD reads a row of a tile that the context holds, zeros where
MASK has no row; VST writes a row of a result tile, which becomes WRITING by the context, and no other byte. -/
def Obligations.Vectors : Prop :=
  (∀ (s : State) (f g : FmtCode) (d a b : VReg) (x : Fmt),
    let c := s.curCtx
    let w := x.width / 8
    let rm := c.fmt / 512 % 4
    let at_ (r : VReg) (i : Nat) : Nat := numAt (c.vreg r.val) (w * i) w
    let val (r : VReg) (i : Nat) : Fp := fpDecode x (at_ r i)
    let lanes (i : Instr) (l : Nat → Nat) : Prop := ∃ bs : List Byte, bs.length = 64 ∧ exec i s = inFlight s 3 (.v d.val bs)
      ∧ ∀ j < 64 / w, numAt bs (w * j) w = l j % 2 ^ x.width
    (fmtOf f.toNat = some x → f.toNat ≤ 2 →
      lanes (.vadd f d a b) (fun j => (fpAdd x rm (val a j) (val b j)).1)
      ∧ lanes (.vsub f d a b) (fun j => (fpAdd x rm (val a j) (val b j).neg).1)
      ∧ lanes (.vmul f d a b) (fun j => (fpMul x rm (val a j) (val b j)).1)
      ∧ lanes (.vfma f d a b) (fun j => (fpFma x rm (val a j) (val b j) (val d j)).1)
      ∧ lanes (.vmax f d a b) (fun j => (fpMinMax x true (at_ a j) (at_ b j)).1)
      ∧ lanes (.vmin f d a b) (fun j => (fpMinMax x false (at_ a j) (at_ b j)).1)
      ∧ lanes (.vexp2 f d a) (fun j => vexp2Lane x rm (at_ a j))
      ∧ lanes (.vrcp f d a) (fun j => (fpRcp x rm (val a j)).1)
      ∧ lanes (.vrsq f d a) (fun j => fpRsq x rm (val a j))
      ∧ lanes (.vrmax f d a) (fun _ => maxLanes x ((List.range (64 / w)).map (at_ a)))
      ∧ lanes (.vrsum f d a) (fun _ => sumLanes x rm ((List.range (64 / w)).map (at_ a))))
    ∧ (2 < f.toNat → s.checked = false → ∀ i ∈ [Instr.vadd f d a b, .vsub f d a b, .vmul f d a b, .vfma f d a b, .vmax f d a b,
        .vmin f d a b, .vexp2 f d a, .vrcp f d a, .vrsq f d a, .vrmax f d a, .vrsum f d a],
        exec i s = .next (chiselTrap s s.ctxId .fmt 0))
    ∧ (fmtOf f.toNat = some x → g.toNat ≤ 6 →
        let n := 64 / max w (((fmtOf g.toNat).map fun y => y.width / 8).getD 1)
        ∃ bs : List Byte, bs.length = 64 ∧ exec (.vcvt f g d a b) s = inFlight s 3 (.v d.val bs)
          ∧ (∀ j < n, numAt bs (w * j) w =
              (fpConvert x rm (c.fmt.testBit 8) (sourceLane g.toNat (c.vreg a.val) (c.vreg b.val) j)).1 % 2 ^ x.width)
          ∧ ∀ k, n * w ≤ k → k < 64 → bs.getD k 0 = 0))
  ∧ (∀ (s : State) (f : FmtCode) (x : Fmt) (d a b : VReg) (r : SReg) (p : PReg) (row : BitVec 5) (pos : Nat),
    let c := s.curCtx
    let w := x.width / 8
    let h := c.s[r]
    (fmtOf f.toNat = some x → ∃ bs : List Byte, bs.length = 64 ∧ exec (.vbc f d r) s = inFlight s 3 (.v d.val bs)
      ∧ ∀ j < 64 / w, numAt bs (w * j) w = h.toNat % 2 ^ x.width)
    ∧ exec (.vsel d a b p) s = inFlight s 3 (.v d.val (c.vreg (if c.p[p] then a.val else b.val)))
    ∧ exec (.vshuf d a b) s = inFlight s 3 (.v d.val ((c.vreg b.val).map fun y =>
        if 128 ≤ y.toNat then 0 else (c.vreg a.val).getD (y.toNat % 64) 0))
    ∧ (heldPos s h = some pos → rowPoisoned s pos row.toNat = false →
        exec (.vld d r row) s = inFlight s 3 (.v d.val (if h.getLsbD row.toNat then s.spad.bytes (posBase pos + 64 * row.toNat) 64
          else List.replicate 64 0)))
    ∧ (heldPos s h = none → s.checked = false → exec (.vld d r row) s = .next (chiselTrap s s.ctxId .perm 0))
    ∧ (resultPos s h = none → s.checked = false → exec (.vst d r row) s = .next (chiselTrap s s.ctxId .perm 0))
    ∧ (resultPos s h = some pos → tileTrap s h = none → Memory.wf s.spad = true → ((s.desc pos).st = .free → TileStill s pos) →
        let q := s.desc pos
        ∃ t, exec (.vst d r row) s = .next t ∧ t.hbm = s.hbm ∧ t.ctxs = s.ctxs
          ∧ t.desc pos = (if q.st = .free then
              { q with gen := (q.gen + 1) % 256, mask := 2 ^ row.toNat, st := .writing, ctx := s.ctxId }
              else { q with mask := q.mask ||| 2 ^ row.toNat })
          ∧ ∀ y, t.spad.get y = if posBase pos + 64 * row.toNat ≤ y ∧ y < posBase pos + 64 * row.toNat + 64
              then (c.vreg d.val).getD (y - (posBase pos + 64 * row.toNat)) 0 else s.spad.get y))

/-- MCALL of a vendor routine (R131, R315, R320 to R324, R326): the M unit is taken for one a-cycle, and the accumulator becomes
the sums of R131 over the operand lines, as they stood for its bundle (R302), masked for MMATM, or the elements of the unary
routine; AROWMAX's pair is in flight with latency 6; with operands that change while it runs the claims and busy times decide
(log 45). A routine of a number that is not stored traps ILLEGAL.

The M and T slots beside MCALL (R313, R314, R317 to R319, R325): MSTORE stores a routine, at once (log 42); OCLAIM, OREL and
OLOAD claim, give back and fill an operand slot, which is free once no write of it is in flight and no routine uses it (log
36), each load being four a-cycles of the load path (log 49); ACLR clears an accumulator; AST writes half of it to a result
tile; HREL gives a buffer back. -/
def Obligations.Matrices : Prop :=
  (∀ (s : State) (n : BitVec 6) (acc : Acc) (oA oB : OSlot), s.checked = true →
    let ch := s.curChisel
    let c := s.curCtx
    let img := accImage s ch acc.val
    let at_ (bs : List Byte) (i j : Nat) : Nat := numAt bs (4 * (32 * i + j)) 4
    let af := c.fmt % 16
    let bf := c.fmt / 16 % 16
    let past := (c.flight.filterMap fun f =>
      match f.dest with
      | .past o off bs => some (slotBase ch o + off, bs)
      | _ => none).reverse
    let mem := past.foldl (fun m p => m.putBytes p.1 p.2) s.opmem
    let seg (f : Nat) (mp : Word) : List Byte := if fmtBits f = 4 then scaleSegment mem ch mp 0 else []
    let A (i : Nat) : List Fp := lineValues af (slotBytes mem ch oA.val af) (seg af c.mp[6]) false i
    let B (byColumn : Bool) (j : Nat) : List Fp := lineValues bf (slotBytes mem ch oB.val bf) (seg bf c.mp[7]) byColumn j
    let total (as bs : List Fp) : Sum := (as.zip bs).foldl (fun x p => x.add p.1 p.2) {}
    let masked (i j : Nat) : Bool :=
      (numAt (mem.bytes (slotBase ch (mpMslot c.mp[0]) + 128 * mpMseg c.mp[0]) 128) (4 * i) 4).testBit j
    let pair := c.vreg (mpVr c.mp[0]) ++ c.vreg ((mpVr c.mp[0] + 1) % 16)
    Memory.wf s.accMem = true →
    (n.toNat < 7 → ∃ t, exec (.mcall n acc oA oB) s = .next t ∧ (t.chisel ch).mBusy = s.cycle + 3 ∧ (t.chisel ch).routine = none
      ∧ (n.toNat = 0 → ∀ i < 32, ∀ j < 32,
          at_ (accImage t ch acc.val) i j = (total (A i) (B true j)).onto (at_ img i j) % 2 ^ 32)
      ∧ (n.toNat = 1 → ∀ i < 32, ∀ j < 32,
          at_ (accImage t ch acc.val) i j = (total (A i) (B false j)).onto (at_ img i j) % 2 ^ 32)
      ∧ (n.toNat = 2 → ∀ i < 32, ∀ j < 32, at_ (accImage t ch acc.val) i j =
          if masked i j then (total (A i) (B false j)).onto (at_ img i j) % 2 ^ 32 else 0xFF800000)
      ∧ (n.toNat = 3 → ∀ i < 32, ∀ j < 32, at_ (accImage t ch acc.val) i j =
          (fpMul fp32 0 (fpDecode fp32 (at_ img i j)) (fpDecode fp32 (numAt pair (4 * i) 4))).1 % 2 ^ 32)
      ∧ (n.toNat = 4 → t.accMem = s.accMem ∧ (t.ctx s.ctxId).flight = c.flight
          ++ [⟨6, .v (mpVr c.mp[0]) ((rowMax img).take 64)⟩, ⟨6, .v ((mpVr c.mp[0] + 1) % 16) ((rowMax img).drop 64)⟩])
      ∧ (n.toNat = 5 → ∀ i < 32, ∀ j < 32, at_ (accImage t ch acc.val) i j =
          expSub (at_ img i j) (c.mp[1].toNat % 2 ^ 32) (numAt pair (4 * i) 4) % 2 ^ 32)
      ∧ (n.toNat = 6 → t.accMem = s.accMem ∧ t.opmem = (aconvPieces c.mp[0] c.fmt img).foldl
          (fun m p => m.putBytes (slotBase ch oA.val + p.1) p.2) s.opmem))
    ∧ ∀ u : State, u.checked = false → 16 ≤ n.toNat → NSet.has (u.chisel u.curChisel).routines n.toNat = false →
        exec (.mcall n acc oA oB) u = .next (chiselTrap u u.ctxId .illegal 0))
  ∧ (∀ (s : State) (n : BitVec 6) (acc : Acc) (o : OSlot) (h : SReg) (half : Bool) (pos : Nat),
    let c := s.curCtx
    let x := c.s[h]
    let ch := s.chisel s.curChisel
    let put (y : Chisel) : State := s.setChisel s.curChisel y
    (Passes s (.mstore n h) → exec (.mstore n h) s = .next { put
        { ch with routines := NSet.ins ch.routines n.toNat, loadBusy := max ch.loadBusy s.cycle + 12,
                  storeBusy := Tbl.put ch.storeBusy n.toNat (s.cycle + 12) } with
      routineMem := s.routineMem.putBytes (s.curChisel * 2 ^ 17 + 2048 * n.toNat) (tileBytes s x) })
    ∧ (claimer s o.val = none ∨ claimer s o.val = some s.ctxId ∨ claimer s o.val = some (2048 + s.ctxId) →
        exec (.oclaim o) s = .next (put { ch with claims := Tbl.put ch.claims o.val s.ctxId }))
    ∧ (∀ k, s.checked = false → claimer s o.val = some k → k % 2048 ≠ s.ctxId →
        exec (.oclaim o) s = .next (chiselTrap s s.ctxId .rangeLocked 0))
    ∧ (claimed s o.val = true →
        let t := put { ch with claims := Tbl.put ch.claims o.val (2048 + s.ctxId) }
        exec (.orel o) s = .next t
        ∧ (Tbl.sorted ch.claims = true → (∀ f ∈ c.flight, f.isFor o.val = false) → routineUses s s.curChisel o.val = false →
            claimer (releaseSlots t s.curChisel) o.val = none))
    ∧ (s.checked = false → claimed s o.val = false →
        exec (.orel o) s = .next (chiselTrap s s.ctxId .perm 0) ∧ exec (.oload o h) s = .next (chiselTrap s s.ctxId .perm 0))
    ∧ (claimed s o.val = true → heldPos s x = some pos → (∀ r < 32, rowPoisoned s pos r = false) →
        exec (.oload o h) s = .next ((s.setCtx s.ctxId { c with flight := c.flight ++ [⟨4, .slot o.val 0 (tileBytes s x)⟩] }).setChisel
          s.curChisel { ch with loadBusy := max ch.loadBusy s.cycle + 12 }))
    ∧ (Memory.wf s.accMem = true → ∃ t, exec (.aclr acc) s = .next t ∧ (∀ i < 4096, (accImage t s.curChisel acc.val).getD i 0 = 0)
        ∧ (∀ b, b % 8 ≠ acc.val → accImage t s.curChisel b = accImage s s.curChisel b)
        ∧ (t.chisel s.curChisel).accPoison = NSet.rem ch.accPoison acc.val)
    ∧ (Passes s (.ast acc h half) → resultPos s x = some pos → Memory.wf s.spad = true → ((s.desc pos).st = .free → TileStill s pos) →
        NSet.has ch.accPoison acc.val = false → (astImage s s.curChisel acc.val s.ctxId).length = 4096 →
        ∃ t, exec (.ast acc h half) s = .next t ∧ t.accMem = s.accMem ∧ (t.desc pos).st = (if (s.desc pos).st = .free then .writing
            else (s.desc pos).st)
          ∧ ∀ y, t.spad.get y = if posBase pos ≤ y ∧ y < posBase pos + 2048
              then (astImage s s.curChisel acc.val s.ctxId).getD ((if half then 2048 else 0) + (y - posBase pos)) 0 else s.spad.get y)
    ∧ (heldPos s x = some pos → exec (.hrel h) s = .next (s.setDesc pos { s.desc pos with st := .free }))
    ∧ (s.checked = false → heldPos s x = none → exec (.hrel h) s = .next (chiselTrap s s.ctxId .perm 0)))

/-- MCALL of a stored routine (R320, R321, R325, R326): its microwords stand in the chisel's store up to the first END, and take an
a-cycle each; a STEP acts as MMA, MMAT or MMATM and a UNARY as the vendor routine of its sel, on the accumulator and slots that
its offsets reach; CLR clears; the first runs at issue and each further one at a turn of the chisel. A slot that is not claimed traps
PERM, and an ACONV whose target format is none traps FMT, before any of it runs. -/
def Obligations.UserRoutines : Prop :=
  ∀ (s : State) (n v : BitVec 6) (acc acc' : Acc) (oA oB oA' oB' : OSlot) (sel k x y z : Nat) (ws : List Nat) (w6 w7 : Word),
    16 ≤ n.toNat → k < 8 → x < 128 → y < 128 → z < 8 →
    let ch := s.curChisel
    let c := s.curCtx
    let words := routineWords s ch n.toNat
    let call := exec (.mcall n acc oA oB) s
    let vendor (s : State) : Out := exec (.mcall v acc' oA' oB') s
    let step (tb mk : Nat) : Nat := 2 ^ 28 + 2 ^ 27 * tb + 2 ^ 26 * mk + 2 ^ 23 * k + 2 ^ 16 * x + 2 ^ 9 * y + 2 ^ 6 * z
    let unary : Nat := 2 * 2 ^ 28 + 2 ^ 26 * sel + 2 ^ 23 * k + 2 ^ 16 * x
    let clr : Nat := 3 * 2 ^ 28 + 2 ^ 23 * k
    let cleared (s t : State) (a : Nat) : Prop := (∀ i < 4096, (accImage t ch (a % 8)).getD i 0 = 0)
      ∧ ∀ b, b % 8 ≠ a % 8 → accImage t ch b = accImage s ch b
    let left (t : State) : Option (List Nat) := (t.chisel ch).routine.map fun r => r.words
    let rest : Option (List Nat) := if ws = [] then none else some ws
    words = (((List.range 512).map fun i => numAt (s.routineMem.bytes (2 ^ 17 * ch + 2048 * n.toNat) 2048) (4 * i) 4).takeWhile fun w =>
      w / 2 ^ 28 != 0)
    ∧ (s.checked = true → acc'.val = (acc.val + k) % 8 → oA'.val = (oA.val + x) % 128 → oB'.val = (oB.val + y) % 128 →
        (∀ tb mk, (tb, mk, v.toNat) ∈ [(0, 0, 0), (1, 0, 1), (1, 1, 2)] → words = [step tb mk] →
          (z = 0 → call = vendor s)
          ∧ (mpSeg w6 = (mpSeg c.mp[6] + z) % 8 → mpSslot w6 = mpSslot c.mp[6] → mpSeg w7 = (mpSeg c.mp[7] + z) % 8 →
              mpSslot w7 = mpSslot c.mp[7] →
              ∃ t t', call = .next t ∧ vendor (s.setCtx s.ctxId { c with mp := (c.mp.set 6 w6).set 7 w7 }) = .next t'
                  ∧ t.accMem = t'.accMem))
        ∧ (sel < 4 → v.toNat = 3 + sel → words = [unary] → call = vendor s))
    ∧ (s.checked = true → Memory.wf s.accMem = true → words = clr :: ws →
        ∃ t, call = .next t ∧ cleared s t (acc.val + k) ∧ (t.chisel ch).mBusy = s.cycle + 3 * words.length ∧ left t = rest)
    ∧ (∀ r, (s.chisel ch).routine = some r → r.words = clr :: ws → (∀ j < 8, (s.ctx (8 * ch + j)).run ≠ .ready) →
        Memory.wf s.accMem = true →
        ∃ t, turn (.chisel ch) s = .next t ∧ cleared s t (r.acc + k) ∧ left t = rest ∧ t.ctxs = s.ctxs ∧ t.strands = s.strands)
    ∧ (s.checked = false → NSet.has (s.chisel ch).routines n.toNat = true →
        (words = [step 1 0] → pairOk (c.fmt % 16) (c.fmt / 16 % 16) = true → claimed s ((oA.val + x) % 128) = false →
          call = .next (chiselTrap s s.ctxId .perm 0))
        ∧ (words = [2 * 2 ^ 28 + 3 * 2 ^ 26 + 2 ^ 23 * k + 2 ^ 16 * x] → claimed s ((oA.val + x) % 128) = true →
            mpCf c.mp[0] = 0 ∨ 4 < mpCf c.mp[0] → call = .next (chiselTrap s s.ctxId .fmt 0)))

/-- The Armature operations (R327 to R329): TTCLR, TTNODE with its deletion and its trap, TTMASK, TTPOS, TTPATH and TTPRUNE; a node is an
ancestor of another when it lies on its path to the root. -/
def Obligations.Armature : Prop :=
  ∀ (s : State) (o : OSlot) (a b : SReg) (d : VReg) (pos : Nat),
    let c := s.curCtx
    let x := c.s[a]
    let y := c.s[b]
    let nodes (t : Tbl Node) : State := s.setCtx s.ctxId { c with nodes := t }
    let parent := x.toNat / 2 ^ 8 % 2 ^ 8
    let node := x.toNat % 2 ^ 8
    let start := x.toNat / 2 ^ 8 % 2 ^ 8
    let path := ((nodePath c node).getD []).reverse
    exec .ttclr s = .next (nodes [])
    ∧ (x.getLsbD 16 = true → exec (.ttnode a b) s = .next (nodes (Tbl.del c.nodes node)))
    ∧ (x.getLsbD 16 = false → parent = 0xFF ∨ (nodeLive c parent = true ∧ parent < node) →
        exec (.ttnode a b) s = .next (nodes (Tbl.put c.nodes node ⟨parent, y.toNat % 2 ^ 32⟩)))
    ∧ (s.checked = false → x.getLsbD 16 = false → parent ≠ 0xFF → nodeLive c parent = false ∨ node ≤ parent →
        exec (.ttnode a b) s = .next (chiselTrap s s.ctxId .perm 0))
    ∧ (claimed s o.val = true → ∃ bs : List Byte, bs.length = 128
        ∧ exec (.ttmask o a b) s = inFlight s 4 (.slot o.val (128 * (y.toNat % 2 ^ 4)) bs)
        ∧ ∀ i < 32, ∀ j < 32, (numAt bs (4 * i) 4).testBit j
            = ((nodePath c (32 * (x.toNat % 8) + i)).getD []).contains (32 * (x.toNat / 2 ^ 8 % 8) + j))
    ∧ (∃ bs : List Byte, bs.length = 64 ∧ exec (.ttpos d a) s = inFlight s 3 (.v d.val bs)
        ∧ ∀ i < 16, numAt bs (4 * i) 4 = if node + i ≤ 255 ∧ nodeLive c (node + i) = true
            then (x.toNat / 2 ^ 32 + ((nodePath c (node + i)).getD []).length) % 2 ^ 32 else 0xFFFFFFFF)
    ∧ exec (.ttpath d a) s = inFlight s 3 (.v d.val ((List.range 64).map fun i => BitVec.ofNat 8 (path.getD (start + i) 0xFF)))
    ∧ (s.checked = false → nodeLive c node = false → exec (.ttprune a b) s = .next (chiselTrap s s.ctxId .perm 0))
    ∧ (Passes s (.ttprune a b) → resultPos s y = some pos → Memory.wf s.spad = true → ((s.desc pos).st = .free → TileStill s pos) →
        ∃ t, exec (.ttprune a b) s = .next t
          ∧ (t.ctx s.ctxId).nodes = path.mapIdx (fun i k =>
              (i, (⟨if i = 0 then 0xFF else i - 1, ((c.nodes.find k).map fun n => n.token).getD 0⟩ : Node)))
          ∧ ∀ z, t.spad.get z = if posBase pos ≤ z ∧ z < posBase pos + 256
              then BitVec.ofNat 8 (path.getD (z - posBase pos) 0xFF) else s.spad.get z)

/-! ## Tasks, launches and partitions -/

/-- A task finds its strand (R28 to R31, R35, R36, R361): a queued task walks from its start; where it stands it takes the FREE strand
that the contention at the core gives it (`strandFor`: PRIO, then arrival, then id, lowest strands first; logs 48 and 101), else goes
on towards its hint, a hop of 4 g-cycles; at its hint it parks, or with 64 tasks parked there is held in the cluster's queue, or
with 1024 tasks in that waits where it is; a parked task takes the strand that it is given; with its footprint copied, what is
buffered or outstanding for the area being settled first, a bound strand runs from the entry, its arguments, footprint base and
task id in its window and every other register zero; a copy that faults ends the task, and one that meets a page at the host
waits (logs 34 and 43). -/
def Obligations.TasksStart : Prop :=
  ∀ (s : State) (tid id h core : Nat) (x : Task), s.tasks.find tid = some x →
    let bound (t : State) : Prop := (t.strand id).run = .bound ∧ (t.strand id).task = tid ∧ (t.strand id).mailbox = []
      ∧ (t.tasks.find tid).map (·.st) = some (.staging id)
    let at_ (xy : Nat) (t : State) : Prop := (t.tasks.find tid).map (·.st) = some (.walking xy)
      ∧ (t.tasks.find tid).map (·.nextAt) = some (s.cycle + 4)
    let xy := coreXY core
    let start := coreXY x.start
    (strandFor s core (tid, x) = some id → (s.strand id).run = .free ∧ (s.strand id).halted = false ∧ offered s core x = true)
    ∧ (hintCore s x = some h → s.stopping x.part = false →
      (∀ c, x.st = .queued c → x.logical = false → x.held = false → x.start ≠ h → coreAt (start % 256) (start / 256) = some x.start →
        freeStrands s x.start = [] →
        ∃ t, exec (.taskWalkHop tid) s = .next t ∧ at_ (nextHop start (coreXY h)) t
          ∧ (t.cluster c).queue = (s.cluster c).queue.filter (· != tid))
      ∧ (∀ c, x.st = .queued c → x.logical = true → strandFor s h (tid, x) = some id →
          ∃ t, exec (.taskWalkHop tid) s = .next t ∧ bound t ∧ (t.cluster c).queue = (s.cluster c).queue.filter (· != tid))
      ∧ (x.st = .walking xy → s.cycle < x.nextAt → exec (.taskWalkHop tid) s = .next s)
      ∧ (x.st = .walking xy → x.nextAt ≤ s.cycle → coreAt (xy % 256) (xy / 256) = some core →
          (strandFor s core (tid, x) = some id → ∃ t, exec (.taskWalkHop tid) s = .next t ∧ bound t)
          ∧ (core ≠ h → strandFor s core (tid, x) = none →
              ∃ t, exec (.taskWalkHop tid) s = .next t ∧ t.strands = s.strands ∧ at_ (nextHop xy (coreXY h)) t)
          ∧ (core = h → strandFor s core (tid, x) = none → (∀ y ∈ s.tasks, y ≠ (tid, x) → wantsPlace s core y = false) →
              let parked := (s.core core).parked
              let queue := (s.cluster (core / 16)).queue
              (parked.length < 64 → ∃ t, exec (.taskWalkHop tid) s = .next t ∧ t.strands = s.strands
                ∧ (t.core core).parked = parked ++ [tid] ∧ (t.tasks.find tid).map (·.st) = some (.parked core))
              ∧ (64 ≤ parked.length → queue.length < 1024 → (∀ y ∈ s.tasks, y ≠ (tid, x) → wantsEntry s (core / 16) y = false) →
                  ∃ t, exec (.taskWalkHop tid) s = .next t ∧ t.strands = s.strands ∧ (t.core core).parked = parked
                    ∧ (t.cluster (core / 16)).queue = queue ++ [tid] ∧ (t.tasks.find tid).map (·.st) = some (.queued (core / 16))
                    ∧ (t.tasks.find tid).map (·.held) = some true)
              ∧ (64 ≤ parked.length → 1024 ≤ queue.length → exec (.taskWalkHop tid) s = .next s))))
    ∧ (∀ rest, (s.core core).parked = tid :: rest → strandFor s core (tid, x) = some id →
        s.stopping ((s.clusterPart (core / 16)).getD 0) = false →
        ∃ t, exec (.parkedTaskRelease core) s = .next t ∧ bound t ∧ (t.core core).parked = rest.filter (· != tid))
    ∧ ((s.strand id).run = .bound → (s.strand id).halted = false → (s.strand id).task = tid → s.stopping x.part = false →
        let copied := copyFootprint x.part (footprintBase id) 0 (footprintGranules x.desc) (settleArea { s with strandId := id } id)
        (∀ s', copied = .done s' → s'.tasks = s.tasks →
          ∃ t, exec (.footprintCopy id) s = .next t ∧ (t.tasks.find tid).map (·.st) = some (.running id) ∧ t.spad = s'.spad
            ∧ let u := t.strand id
              u.run = .ready ∧ u.pc = BitVec.ofNat 64 x.desc.entry ∧ u.task = tid ∧ u.depth = 1 ∧ u.priv = false ∧ u.intrap = false
              ∧ u.fstat = 0 ∧ u.frmode = 0 ∧ u.stimer = 0 ∧ u.status = 0 ∧ u.tvec = (s'.part x.part).tvec0 ∧ u.pend = []
              ∧ u.taskSink = BitVec.ofNat 64 x.desc.sink ∧ (∀ i : Fin 16, u.read (.g i) = 0)
              ∧ u.preemptDue = (s'.strand id).preemptDue
              ∧ ∀ i : Fin 16, u.read (.w i)
                  = (x.desc.args ++ [BitVec.ofNat 64 (padAddr (footprintBase id)), BitVec.ofNat 64 tid]).getD i.val 0)
        ∧ (∀ s' c va i, copied = .fault s' c va i → exec (.footprintCopy id) s = .next (footprintFault s' id x c va i))
        ∧ ∀ s', copied = .wait s' → exec (.footprintCopy id) s = .next s')

/-- Launches at their front end (R33, R416 to R418): a ready head is granted in the order of the round; a launch whose checks fail ends
with outcome 3 where its rectangle finds no place and 4 where a target or a context is not to be had, and its notice goes to the
host; one whose work has ended is completed, its counter raised and its notice sent to the host; reports that wait
reach their sink's mailbox when it has room, or the launch fault mailbox once its pages are here (R47, R421); a context that
MWAIT holds goes on once its results are there (R302). -/
def Obligations.LaunchesRun : Prop :=
  ∀ (s : State) (p lid q n pr k : Nat) (l : Launch) (r : Report),
    let key := launchKey p lid
    let x := s.part p
    let ended (o : Sent) (code : Nat) : Prop := o.typ = 6 ∧ o.msg.part = p ∧ o.msg.stream = l.stream
      ∧ numAt o.msg.payload 0 4 = lid % 2 ^ 32 ∧ numAt o.msg.payload 4 4 = code
    (x.st = .running → s.stopping p = false → x.granting = none → roundNext s p x.roundPrio x.roundCount = some (pr, n, q) →
      readyHead s p q = some lid →
      ∃ t, exec (.launchGrant p) s = .next t ∧ (t.part p).granting = some key ∧ (t.part p).roundPrio = pr ∧ (t.part p).roundCount = n + 1
        ∧ Tbl.getD (t.part p).queues q [] = (x.queues.getD q []).drop 1
        ∧ ∀ l, s.launches.find key = some l → t.launches.find key = some { l with st := .releasing })
    ∧ (x.st ≠ .running ∨ s.stopping p = true ∨ x.granting.isSome = true → exec (.launchGrant p) s = .next s)
    ∧ (∀ code, x.granting = some key → s.launches.find key = some l → l.checked = false → l.cancelling = false →
        s.stopping p = false → releaseChecks s l = .error code →
        (code = if l.logical = true ∧ findTranslation s l.part l.w l.h = none then 3 else 4)
        ∧ (s.mgmt.up = true → l.part = p → l.lid = lid → Tbl.sorted s.launches = true →
          ∃ t o, exec (.launchRelease p) s = .next t ∧ (t.part p).granting = none ∧ t.launches.find key = none
            ∧ t.hostOut = s.hostOut ++ [o] ∧ ended o code ∧ (t.part p).ctrs = x.ctrs))
    ∧ (∀ m tr, x.granting = some key → s.launches.find key = some l → l.checked = false → l.cancelling = false → l.part = p →
        s.stopping p = false → releaseChecks s l = .ok m →
        (∀ c, l.tiles = [tr] → l.tasks = [] → tileCtx s p m tr = some c →
          ∃ t, exec (.launchRelease p) s = .next t ∧ (t.part p).granting = none ∧ (t.ctx c).run = .ready
            ∧ (t.ctx c).pc = BitVec.ofNat 64 tr.entry ∧ (∀ i : Fin 32, (t.ctx c).s[i] = tr.args.getD i.val 0)
            ∧ t.launches.find key = some { l with checked := true, x0 := m.x0, y0 := m.y0, tiles := [], tasks := [],
                                                  live := l.live + 1, st := .running })
        ∧ ∀ r core, l.tiles = [] → l.tasks = [r] → targetCore m r = some core → (s.cluster (core / 16)).queue.length < 1024 →
          ∃ t tid, exec (.launchRelease p) s = .next t ∧ (t.part p).granting = none
            ∧ (t.cluster (core / 16)).queue = (s.cluster (core / 16)).queue ++ [tid]
            ∧ t.tasks.find tid = some { part := p, launch := key, parent := 0, desc := r, logical := m.logical,
                                        start := if m.logical then core else core / 16 * 16, st := .queued (core / 16),
                                        arrival := s.cycle })
    ∧ (s.launches.find key = some l → launchDone s key l = true → l.cancelling = false → l.nfault + l.nkill = 0 → s.mgmt.up = true →
        l.part = p → l.lid = lid → Tbl.sorted s.launches = true →
        ∃ t o, exec (.launchComplete p lid) s = .next t ∧ t.launches.find key = none ∧ t.hostOut = s.hostOut ++ [o] ∧ ended o 0
          ∧ (l.sigen = true → (t.part p).ctrs.getD l.sigc 0 = x.ctrs.getD l.sigc 0 + 1))
    ∧ (s.launches.find key = some l → launchDone s key l = false → exec (.launchComplete p lid) s = .next s)
    ∧ ((s.ctx k).run = .held none → (s.ctx k).frozenBy = false → resultsReached s k = true →
        (∃ t, exec (.awaitedResultArrival (.context k)) s = .next t ∧ (t.ctx k).run = .ready
          ∧ ∀ f ∈ (t.ctx k).flight, ∀ o off bs, f.dest ≠ .slot o off bs)
        ∧ ((∀ f ∈ (s.ctx k).flight, ∀ o off bs, f.dest ≠ .slot o off bs) →
          exec (.awaitedResultArrival (.context k)) s = .next (s.setCtx k { s.ctx k with run := .ready })))
    ∧ (∀ c, (s.cluster c).reports.find? (reportReady s) = some r → r.box = true →
        exec (.faultReportDelivery c) s =
          .next (launchReport (s.setCluster c { s.cluster c with reports := (s.cluster c).reports.erase r }) c r))
    ∧ ∀ c id, (s.cluster c).reports.find? (reportReady s) = some r → r.box = false → sinkReady s r = some id →
        (s.strand id).run = .ready →
        exec (.faultReportDelivery c) s = .next ((s.setCluster c { s.cluster c with reports := (s.cluster c).reports.erase r }).setStrand id
          { s.strand id with mailbox := (s.strand id).mailbox ++ [⟨2, r.task,
              [BitVec.ofNat 64 (4 + 2 ^ 8 * r.cause), BitVec.ofNat 64 (r.task + 2 ^ 32 * r.kind), BitVec.ofNat 64 r.addr,
                BitVec.ofNat 64 r.last]⟩] })

/-- ENABLE, START, STOP and DISABLE (R411, R412), from the device itself or as the host's CFGW: each in its state only, with the
error code otherwise; ENABLE checks the rectangle, with ERR 1 for one that takes in a failed cluster (R452), START the pools,
whose blocks are then all free, and begins a round of grants; DISABLE leaves no translation of the partition in any TLB
(R392). -/
def Obligations.PartitionCommands : Prop :=
  ∀ (s : State) (p : Nat) (m : HostMsg),
    let x := s.part p
    let err (e : Nat) : Out := .next (s.setPart p { x with err := e })
    let shape := prectShape x.prect
    let dead : Prop := ∃ c < 32, prectHas x.prect c = true ∧ c ∈ s.deadClusters
    let clash : Prop := ∃ c < 32, prectHas x.prect c = true ∧ (s.clusterPart c).isSome = true
    let usable : Prop := ∀ n ∈ enabledPools s p, poolOk s p (x.pools.getD n 0).toNat (x.poolBases.getD n 0).toNat = true
    let active : Prop := ∃ l ∈ s.launches, l.2.part = p ∧ l.2.st ≠ .queued
    (x.st ≠ .off → exec (.enable .direct p) s = err 3)
    ∧ (x.st = .off → shape = false ∨ dead → exec (.enable .direct p) s = err 1)
    ∧ (x.st = .off → shape = true → ¬dead → clash → exec (.enable .direct p) s = err 2)
    ∧ (x.st = .off → shape = true → ¬dead → ¬clash →
        exec (.enable .direct p) s = .next (s.setPart p { x with st := .stopped, err := 0, ctrs := [] }))
    ∧ (x.st ≠ .stopped → exec (.start .direct p) s = err 3 ∧ exec (.disable .direct p) s = err 3)
    ∧ (x.st = .stopped → ¬usable → exec (.start .direct p) s = err 1)
    ∧ (x.st = .stopped → usable → ∃ t, exec (.start .direct p) s = .next t
        ∧ t.part p = { x with st := .running, err := 0, roundPrio := 7, roundCount := 0 }
        ∧ (∀ n ∈ enabledPools s p, let w := (x.pools.getD n 0).toNat
            t.pools.find n = some ⟨p, w % 8, w / 2 ^ 32 % 2 ^ 25, (x.poolBases.getD n 0).toNat, List.range (w / 2 ^ 32 % 2 ^ 25), [], []⟩)
        ∧ (∀ q ∈ t.sequences, s.ownsQuarry p (q.1 / 2 ^ 17) = false) ∧ ∀ q ∈ t.prefixes, s.ownsQuarry p q.1 = false)
    ∧ (x.st ≠ .running ∨ active → exec (.stop .direct p) s = err 3)
    ∧ (x.st = .running → ¬active → exec (.stop .direct p) s = .next (s.setPart p { x with st := .stopped, err := 0 }))
    ∧ (x.st = .stopped → ∃ t, exec (.disable .direct p) s = .next t ∧ t.part p = { x with st := .off, err := 0 }
        ∧ t.strands = s.strands ∧ t.hbm = s.hbm ∧ t.spad = s.spad
        ∧ ∀ n e, e ∈ (t.core n).tlb ∨ e ∈ (t.cluster n).tlb ∨ e ∈ (t.chisel n).tlb → e.part ≠ p)
    ∧ (m.part = p → m.addr = 0x200000000 + 0x1000 * p → ∀ k i, numAt m.payload 0 8 % 8 = k →
        (k, i) ∈ [(1, Instr.enable (.host m) p), (2, .start (.host m) p), (3, .stop (.host m) p), (4, .disable (.host m) p)] →
        exec i s = exec (.cfgw m) s)
    ∧ (m.part = p → m.addr = 0x100000000 + 0x1000 * p → ∀ k i, numAt m.payload 0 8 % 8 = k →
        (k, i) ∈ [(1, Instr.halt (.host m) p), (5, .haltSave (.host m) p), (2, .notify (.host m) p), (3, .resume (.host m) p)] →
        exec i s = exec (.cfgw m) s)

/-- HALT, NOTIFY, RESUME and what a halt does (R367, R375, R376, R379, R381, R383): a running partition that is not busy is BUSY
until every strand, context and Trowel unit of it stands still, then HALTED; a strand with nothing outstanding is suspended;
a unit sets its microprogram aside; HALTED comes with the last of them; a save ends with SAVED, and the model's tables keep
what it saved (log 20); NOTIFY makes PREEMPT due in every strand; RESUME lets all of it go on. -/
def Obligations.Preemption : Prop :=
  ∀ (s : State) (p id u k : Nat) (o : EngOp),
    let x := s.part p
    let t := s.strand id
    let idle : Prop := x.st = .running ∧ x.busy = false ∧ x.haltedBit = false
    let standing : Prop := (∀ i ∈ partStrands s p, (s.strand i).halted = true) ∧ (∀ i ∈ partCtxs s p, (s.ctx i).frozenBy = true)
      ∧ ∀ o ∈ s.ops, o.2.part = p → o.2.running = false
    let saves := x.savebase != 0 && x.savebase % 2 ^ 24 == 0
    let halting (save : Bool) : Partition := { x with busy := true, saveWanted := save, haltAt := s.cycle }
    let halted : Partition := { x with haltedBit := true, haltTime := (s.cycle - x.haltAt) % 2 ^ 32, busy := x.saveWanted }
    (idle → ¬standing → exec (.halt .direct p) s = .next (s.setPart p (halting false))
      ∧ exec (.haltSave .direct p) s = .next (s.setPart p (halting saves)))
    ∧ (idle → standing →
        exec (.halt .direct p) s = .next (s.setPart p { halting false with haltedBit := true, haltTime := 0, busy := false })
        ∧ exec (.haltSave .direct p) s = .next (s.setPart p { halting saves with haltedBit := true, haltTime := 0, busy := saves }))
    ∧ (¬idle → exec (.halt .direct p) s = .next s ∧ exec (.haltSave .direct p) s = .next s ∧ exec (.notify .direct p) s = .next s)
    ∧ (idle → ∃ s', exec (.notify .direct p) s = .next s' ∧ ∀ i, s'.strand i =
        if i ∈ partStrands s p then { s.strand i with preemptDue := true } else s.strand i)
    ∧ (x.st = .running → x.busy = false → x.haltedBit = true → (∀ i ∈ partStrands s p, (s.strand i).run = .ready) →
        ∃ s', exec (.resume .direct p) s = .next s'
          ∧ s'.part p = { x with haltedBit := false, savedBit := false, saving := false, saveWanted := false }
          ∧ (∀ i ∈ partStrands s p, s'.strand i = { s.strand i with halted := false, withdrawn := none })
          ∧ ∀ i ∈ partCtxs s p, s'.ctx i = { s.ctx i with frozenBy := false })
    ∧ (x.st ≠ .running ∨ x.busy = true ∨ x.haltedBit = false → exec (.resume .direct p) s = .next s)
    ∧ (s.strandPart id = p → s.halting p = true → t.run = .ready → t.halted = false → t.pend = [] → t.region = none →
        t.owed = false → t.winMove = none →
        let last : Prop := (∀ i ∈ partStrands s p, i ≠ id → (s.strand i).halted = true)
          ∧ (∀ i ∈ partCtxs s p, (s.ctx i).frozenBy = true) ∧ ∀ o ∈ s.ops, o.2.part = p → o.2.running = false
        ∃ s', exec (.strandHalt id) s = .next s' ∧ s'.strand id = { t with halted := true, fillNone := none, got := [] }
          ∧ (last → s'.part p = halted) ∧ (¬last → s'.part p = x))
    ∧ (s.halting p = true → s.strandPart id = p → t.halted = false → t.winMove.isSome = true → exec (.strandHalt id) s = .next s)
    ∧ (∀ rest, s.trowels.getD u [] = k :: rest → s.ops.find k = some o → o.running = true → s.halting o.part = true →
        ∃ s', exec (.trowelSuspend u) s = .next s' ∧ s'.trowels.getD u [] = rest
          ∧ s'.ops.find k = some { o with running := false, suspended := true, inst := u }
          ∧ (o.part = p → (∀ i ∈ partStrands s p, (s.strand i).halted = true) → (∀ i ∈ partCtxs s p, (s.ctx i).frozenBy = true) →
              ((∀ y ∈ s'.ops, y.2.part = p → y.2.running = false) → s'.part p = halted)
              ∧ (¬(∀ y ∈ s'.ops, y.2.part = p → y.2.running = false) → s'.part p = x)))
    ∧ (x.haltedBit = true → x.saveWanted = true → (∀ o ∈ s.ops, o.2.part = p →
          (o.2.kind = .scaleadd ∨ o.2.kind = .topk) ∧ o.2.running = false) → (∀ w ∈ s.swaps, w.2.part ≠ p) →
        ∃ s', exec (.partitionSave p) s = .next s'
          ∧ s'.part p = { x with savedBit := true, busy := false, saving := true, saveWanted := false })
    ∧ (x.haltedBit = false ∨ x.saveWanted = false → exec (.partitionSave p) s = .next s)

/-! ## The host -/

/-- What a message of the host does once its turn on its stream has come (R416, R422, R428, R431 to R433): the effect, then the
answer. A partition that is OFF answers INVALID; the answers that no rule spells out are those of log 56. A malformed entry
that the walk of an access meets is recorded (R390), as of the I/O die and of no cluster where none has asked for it (log
87). -/
def Obligations.HostCommands : Prop :=
  ∀ (s u : State) (m : HostMsg) (c : Code) (pa : Nat), Takes s m → NextOn (takeAck s m) m → NextOn u m →
    let s1 := takeAck s m
    let p := m.part
    let va := m.addr % 2 ^ 52
    let word (c : Code) : List Byte := leBytes 8 c.num
    let on : Prop := p < 8 ∧ (s1.part p).st ≠ .off
    let key := launchKey p m.addr
    exec (.ack m) s = .next s1
    ∧ (¬on → exec (.launch m) s = .next (replied s1 m 7 (word .invalid)) ∧ exec (.cancel m) s = .next (replied s1 m 7 (word .invalid))
        ∧ exec (.write m) s = .next (replied s1 m 7 (word .invalid)) ∧ exec (.read m) s = .next (replied s1 m 7 (word .invalid)))
    ∧ (on → takeLaunch s1 p m.stream m.payload = (u, c) → exec (.launch m) s = .next (replied u m 7 (word c))
        ∧ (c = .ok → let l := parseLaunch m.payload p m.stream
            u.launches = Tbl.put s1.launches (launchKey p l.lid) l
            ∧ (u.part p).queues.getD l.queue [] = (s1.part p).queues.getD l.queue [] ++ [l.lid]))
    ∧ (on → m.addr < 2 ^ 32 → cancelLaunch s1 p m.addr = (u, c) → exec (.cancel m) s = .next (replied u m 7 (word c))
        ∧ (s1.launches.find key = none → c = .invalid ∧ u = s1)
        ∧ (∀ l, s1.launches.find key = some l → c = .ok ∧ (l.st = .releasing →
            u.launches.find key = some { l with cancelling := true })))
    ∧ (on → m.addr % 32 = 0 → m.payload.length = 32 →
        (hostPlace s1 p va permW true = .ok (.mem pa) → PlainMemory s1 →
          exec (.write m) s = .next (replied (rawWrite s1 (.mem pa) m.payload) m 7 (word .ok)))
        ∧ ∀ f, hostPlace s1 p va permW true = .error f →
            exec (.write m) s = .next (replied (noteWalk s1 p ioDie 0xFF va f) m 7 (leBytes 8 (4 + 2 ^ 8 * f.num))))
    ∧ (on → m.addr % 32 = 0 → m.payload = leBytes 4 32 →
        (hostPlace s1 p va permR false = .ok (.mem pa) → PlainMemory s1 →
          exec (.read m) s = .next (replied s1 m 5 (s.hbm.bytes pa 32)))
        ∧ ∀ f, hostPlace s1 p va permR false = .error f →
            exec (.read m) s = .next (replied (noteWalk s1 p ioDie 0xFF va f) m 7 (leBytes 8 (4 + 2 ^ 8 * f.num))))
    ∧ (m.payload.length = 8 → p < 8 → 0x100000000 ≤ m.addr → enables s1 m = false →
        sysWrite s1 p m.addr (numAt m.payload 0 8) true = .ok u → exec (.cfgw m) s = .next (replied u m 7 (word .ok)))
    ∧ (m.payload.length = 8 → 8 ≤ p → sp1Write s1 m.addr (numAt m.payload 0 8) false = .done u →
        exec (.cfgw m) s = .next (replied u m 7 (word .ok)))
    ∧ (m.payload.length = 8 → p < 8 → m.addr = 0x200000000 + 0x1000 * p → numAt m.payload 0 8 % 8 = 1 → enables s1 m = true →
        ∃ t, exec (.cfgw m) s = .next t ∧ (t.part p).st = .stopped
          ∧ (t.part p).enabling = some (m.stream, m.seq, (s.stream (msgKey m)).send))
    ∧ (∀ v, p < 8 → 0x100000000 ≤ m.addr → sysRead s1 p m.addr = .ok v → exec (.cfgr m) s = .next (replied s1 m 5 (leBytes 8 v)))
    ∧ (∀ v, 8 ≤ p → sp1Read s1 m.addr = some v → exec (.cfgr m) s = .next (replied s1 m 5 (leBytes 8 v)))
    ∧ (let len := numAt m.payload 0 8
       let dir := numAt m.payload 15 1
       let mine := s1.regs.filter fun r => r.part == p
       on → m.payload.length = 16 → m.addr % 65536 = 0 → len % 65536 = 0 → 0 < len → len ≤ 2 ^ 40 → m.addr + len ≤ 2 ^ 48 → dir < 4 →
        (mine.length < 1024 → (∀ r ∈ mine, m.addr + len ≤ r.off ∨ r.off + r.len ≤ m.addr) →
          exec (.reg m) s = .next (replied { s1 with regs := s1.regs
            ++ [⟨p, m.addr, len, bytesAt m.payload 8 7, dir.testBit 0, dir.testBit 1⟩] } m 7 (word .ok)))
        ∧ (1024 ≤ mine.length ∨ (∃ r ∈ mine, m.addr < r.off + r.len ∧ r.off < m.addr + len) →
          exec (.reg m) s = .next (replied s1 m 7 (word .refused))))
    ∧ ∀ r, on → s1.regs.find? (fun r => r.part == p && r.off == m.addr) = some r →
        (regBusy s1 r = false → exec (.unreg m) s = .next (replied { s1 with regs := s1.regs.erase r } m 7 (word .ok)))
        ∧ (regBusy s1 r = true → ∃ t, exec (.unreg m) s = .next t ∧ (t.stream (msgKey m)).next = m.seq ∧ t.hostOut = s.hostOut
            ∧ t.regs = s1.regs.map fun q => if q = r then { q with read := false, write := false } else q)

/-- Answers of the host and page moves (R402, R403, R434 to R436): the bytes or the status of an HMEM go to who asked, and the
message itself is not answered, a store to part of a granule writing back what it has read (log 76); a host request, page
data and OP 5 are answered with OK once they have had their effect, REFUSED or INVALID as log 57 says.

The streams (R430): an answer takes the stream's next number and the acknowledgement of now and is kept; a number that has been applied
is answered again from what was kept; a number ahead is held until the gap closes; RESET restarts the stream; an HMEM is lost
after 1 ms; unacknowledged messages go out again after 100 us, an idle acknowledgement after 20 us. -/
def Obligations.HostAnswers : Prop :=
  (∀ (s : State) (m : HostMsg) (q : HostReq) (x : Page), Takes s m → NextOn (takeAck s m) m →
    let s1 := takeAck s m
    let p := m.part
    let va := m.addr % 2 ^ 52
    let taken : State := { s1 with hostReqs := s1.hostReqs.erase q }
    let word (c : Code) : List Byte := leBytes 8 c.num
    let shared : Prop := p < 8 ∧ (s1.part p).st ≠ .off ∧ (sharedLeaf s1 p va).isSome = true ∧ window va < 8 ∧ numAt m.payload 4 4 = 0
      ∧ s1.page p va = x
    (s1.hostReqs.find? (fun r => r.tag == m.tag && r.part == p) = some q →
      (q.write = false → m.payload.length = q.len → NextOn (answerHmem taken q (some m.payload)) m →
        exec (.rdata m) s = .next (passed (answerHmem taken q (some m.payload)) m))
      ∧ (∀ u, q.write = true ∨ m.payload.length ≠ q.len → answerHmem taken q none = u → NextOn u m →
          exec (.rdata m) s = .next (passed u m))
      ∧ ∀ u, q.write = true → m.payload = word .ok → answerHmem taken q (some []) = u → NextOn u m →
          exec (.status m) s = .next (passed u m))
    ∧ (s1.hostReqs.find? (fun r => r.tag == m.tag && r.part == p) = none →
        exec (.rdata m) s = .next (passed s1 m) ∧ exec (.status m) s = .next (passed s1 m))
    ∧ (∀ id k t d l pend, q.who = .strand id k → (s.strand id).pend = [pend] → pend.id = k → pend.act = .load t d l →
        (s.strand id).run = .stall .atomic →
        answerHmem s q (some m.payload) = s.setStrand id { (s.strand id).write d
          (LdType.extend t (ofLeBytes (bytesAt m.payload (pend.va % 32) (LdType.size t)))) with
            pend := [], run := .ready, pc := (s.strand id).pc + 4 })
    ∧ (∀ id k old a, q.who = .strand id k → (s.strand id).pend = [⟨k, 0, .hostStore a old true, va⟩] → (s.strand id).run = .stall .atomic →
        answerHmem s q (some []) = s.setStrand id { s.strand id with pend := [], run := .ready, pc := (s.strand id).pc + 4 })
    ∧ (∀ id k (new : List Byte) a, q.who = .strand id k → (s.strand id).pend = [⟨k, 0, .hostStore a new false, va⟩] → s.mgmt.up = true →
        ∃ r, (answerHmem s q (some m.payload)).hostReqs = s.hostReqs ++ [r] ∧ r.write = true ∧ r.va = a / 32 * 32 ∧ r.len = 32
          ∧ ∃ o, (answerHmem s q (some m.payload)).hostOut = s.hostOut ++ [o]
            ∧ o.msg.payload.drop 32 = m.payload.take (a % 32) ++ new ++ m.payload.drop (a % 32 + new.length))
    ∧ (shared → m.payload = leBytes 8 1 → x.moving = some false → ∃ t, exec (.migrRequest m) s = .next t
        ∧ (t.stream (msgKey m)).next = m.seq ∧ t.hostOut = s.hostOut ∧ t.pages = s1.pages)
    ∧ (shared → m.payload = leBytes 8 1 → x.moving = none → (x.device = true → heldOff s x false = false) →
        ∀ u, requestPage (s1.setPage p va { x with stream := m.stream }) p va true = u → NextOn u m →
          exec (.migrRequest m) s = .next (replied u m 7 (word .ok)))
    ∧ (shared → m.payload = leBytes 8 1 → x.moving = some true → exec (.migrRequest m) s = .next (replied s1 m 7 (word .refused)))
    ∧ (shared → m.payload.length = 4120 → numAt m.payload 0 2 = 4 → numAt m.payload 2 2 < 16 → numAt m.payload 8 16 = 0 →
        (x.moving = some true → NextOn (takePart s1 p va (numAt m.payload 2 2) 0 (m.payload.drop 24)) m →
          exec (.migrData m) s = .next (replied (takePart s1 p va (numAt m.payload 2 2) 0 (m.payload.drop 24)) m 7 (word .ok)))
        ∧ (x.moving ≠ some true → exec (.migrData m) s = .next (replied s1 m 7 (word .invalid))))
    ∧ (shared → m.payload = leBytes 8 5 →
        (x.moving = some true → exec (.migrComplete m) s =
          .next (replied (s1.setPage p va { x with parts := NSet.ins x.parts 99 }) m 7 (word .ok)))
        ∧ (x.moving ≠ some true → exec (.migrComplete m) s = .next (replied s1 m 7 (word .invalid)))))
  ∧ (∀ (s : State) (m : HostMsg) (typ part st : Nat) (bs : List Byte) (q : HostReq) (x : Sent),
    let k := msgKey m
    let b := s.stream k
    let j := streamKey part st
    let y := s.stream j
    (s.mgmt.up = true → ∃ o, (replied s m typ bs).hostOut = s.hostOut ++ [o] ∧ o.typ = typ ∧ o.msg.part = m.part ∧ o.msg.stream = m.stream
      ∧ o.msg.seq = b.send ∧ o.msg.ackn = b.next ∧ o.msg.tag = m.tag ∧ o.msg.payload = bs
      ∧ ((replied s m typ bs).stream k).next = b.next + 1 ∧ ((replied s m typ bs).stream k).send = b.send + 1
      ∧ ((replied s m typ bs).stream k).unacked = b.unacked ++ [o]
      ∧ (((replied s m typ bs).stream k).answers.find m.seq).map (·.msg.payload) = some bs)
    ∧ (Takes s m → m.seq < b.next → (b.answers.find m.seq = some x →
          ∃ t, exec (.write m) s = .next t ∧ t.hbm = s.hbm ∧ t.hostOut = s.hostOut ++ [{ x with msg := { x.msg with ackn := b.next - 1 } }])
        ∧ (b.answers.find m.seq = none → ∃ t, exec (.write m) s = .next t ∧ t.hbm = s.hbm ∧ t.hostOut = s.hostOut
            ∧ (t.stream k).owing = some s.cycle))
    ∧ (Takes s m → b.next < m.seq → m.seq ≤ b.next + 64 → b.held = [] → ∃ t, exec (.write m) s = .next t ∧ t.hbm = s.hbm
        ∧ (t.stream k).held = [⟨3, m, s.cycle⟩] ∧ (t.stream k).next = b.next)
    ∧ (Takes s m → ∃ t o, exec (.reset m) s = .next t ∧ (t.stream k).next = 1 ∧ (t.stream k).send = 2 ∧ t.hostOut = s.hostOut ++ [o]
        ∧ o.typ = 7 ∧ o.msg.seq = 1 ∧ o.msg.payload = leBytes 8 0)
    ∧ (s.mgmt.up = false ∨ m.wf = false → ∀ i ∈ [Instr.ack m, .launch m, .cancel m, .write m, .read m, .rdata m, .status m, .cfgw m,
        .cfgr m, .reg m, .unreg m, .migrRequest m, .migrData m, .migrComplete m, .reset m], exec i s = .next s)
    ∧ (s.hostReqs.find? (fun r => r.tag == q.tag) = some q →
        (q.time + 1800000 ≤ s.cycle → exec (.hmemTimeout q.tag) s =
          .next (loseAsker { s with hostReqs := s.hostReqs.erase q } q.who (2 ^ 32 + q.tag) q.write))
        ∧ (s.cycle < q.time + 1800000 → exec (.hmemTimeout q.tag) s = .next s))
    ∧ (s.mgmt.up = true → y.unacked = [x] → x.time + 180000 ≤ s.cycle →
        exec (.hostRetransmit part st) s = .next { s.setStream j { y with unacked := [{ x with time := s.cycle }], owing := none } with
          hostOut := s.hostOut ++ [{ x with msg := { x.msg with ackn := y.next - 1 } }] })
    ∧ ∀ c, s.mgmt.up = true → y.owing = some c → c + 36000 ≤ s.cycle →
        ∃ o, exec (.ackTimer part st) s = .next { s.setStream j { y with owing := none } with hostOut := s.hostOut ++ [o] }
          ∧ o.typ = 0 ∧ o.msg.seq = 0 ∧ o.msg.ackn = y.next - 1 ∧ o.msg.stream = st)

/-! ## Dune -/

/-- The link layer (R437 to R439): a link comes up through INIT; a data flit in order joins its packet, which arrives with its
last flit and is acknowledged, one out of order draws a single NAK; control flits carry acknowledgements and credits; a NAK
replays what is not acknowledged; a lane that fails leaves seven from the sixteenth flit after the LANE flit on; a second
lane, a worn flit or a silent link takes the port down, which is recorded. The microsecond that a packet ages here is log
52's, the moment at which a link has failed log 53's, the sixteenth flit log 54's. -/
def Obligations.Links : Prop :=
  ∀ (s : State) (n lane : Nat) (flit : List Byte) (bufs : List Nat),
    let p := s.port n
    let f := decodeFlit flit
    let good (kind : Nat) : Prop := p.st ≠ .down ∧ f.crcGood = true ∧ f.ctrl = true ∧ numAt f.body 0 1 = kind
    let q := p.passed false 1
    let linked : Port := { ackReplay q f with credits := p.credits.zipWith (· + ·) f.cred, lastGood := s.cycle }
    let running : Prop := p.st = .up8 ∨ p.st = .up7
    let downState : State := strataEvent (s.setPort n { bufs := p.bufs }) 4 6 0xFF n 0 0
    let sent (t : State) : Prop := ∃ bytes, t.dunOut = s.dunOut ++ [(n, bytes)]
    (∀ mine k left, p.narrow = some (mine, left) → p.passed (!mine) k = p
      ∧ (k < left → p.passed mine k = { p with narrow := some (mine, left - k) })
      ∧ (left ≤ k → p.st = .up8 → p.passed mine k = { p with narrow := none, st := .up7 })) ∧
    (p.narrow = none → q = p) ∧ (
    p.queue = [] →
    (p.st = .down → fabricOn s = true →
      exec (.linkUp n bufs) s = .next (sendInit (s.setPort n { st := .init, bufs := bufs, lastGood := s.cycle }) n))
    ∧ (p.st ≠ .down ∨ fabricOn s = false → exec (.linkUp n bufs) s = .next s)
    ∧ (running → f.ctrl = false → f.crcGood = true → f.lseq = p.rxSeq →
        ∃ t, exec (.dataFlit n flit) s = .next t ∧ (t.port n).rxSeq = (p.rxSeq + 1) % 4096 ∧ (t.port n).nakAt = none
          ∧ (t.port n).ackOwed = false ∧ sent t
          ∧ (f.eop = false → t.agenda = s.agenda)
          ∧ ∀ typ q, f.sop = true → f.eop = true → decodePacket f.body = .ok (typ, q) → q.age < 64 →
              t.agenda = s.agenda ++ [.packet typ { q with age := q.age + 1 }])
    ∧ (running → f.ctrl = false → f.crcGood = false ∨ f.lseq ≠ p.rxSeq →
        ∃ t, exec (.dataFlit n flit) s = .next t ∧ (t.port n).rxSeq = p.rxSeq ∧ t.agenda = s.agenda
          ∧ (p.nakAt.isSome = true → t.dunOut = s.dunOut) ∧ (p.nakAt = none → sent t ∧ (t.port n).nakAt = some s.cycle))
    ∧ (good 0 → exec (.idle n flit) s = .next (s.setPort n linked))
    ∧ (good 1 → p.st = .init → exec (.init n flit) s = .next (s.setPort n { q with
        st := .up8, gotInit := true, txSeq := 0, lastGood := s.cycle, credits := (List.range 4).map fun v => numAt f.body (1 + v) 1 }))
    ∧ (good 2 → (∀ r ∈ linked.replay, r.2.1 < 8) → ∃ t, exec (.nak n flit) s = .next t ∧ t.dunOut = s.dunOut
        ++ (linked.replay.dropWhile fun r => r.1 != numAt f.body 1 2 % 4096).map fun r => (n, r.2.2))
    ∧ (good 2 → (∃ r ∈ linked.replay, 8 ≤ r.2.1) → ∃ t, exec (.nak n flit) s = .next t ∧ (t.port n).st = .down)
    ∧ (good 3 → running → (p.deadLane = none → ∃ t, exec (.lane n flit) s = .next t
          ∧ t.port n = { linked with deadLane := some (numAt f.body 1 1), narrow := some (false, 15) })
        ∧ (p.deadLane = some (numAt f.body 1 1) → ∃ t, exec (.lane n flit) s = .next t ∧ t.port n = linked)
        ∧ (∀ k, p.deadLane = some k → k ≠ numAt f.body 1 1 → ∃ t, exec (.lane n flit) s = .next t ∧ (t.port n).st = .down))
    ∧ (good 4 → exec (.down n flit) s = .next downState)
    ∧ (running → p.deadLane = none → ∃ t, exec (.laneFailure n lane) s = .next t ∧ (t.port n).deadLane = some lane
        ∧ (p.replay = [] → sent t ∧ (t.port n).narrow = some (true, 15)))
    ∧ (∀ k, running → p.deadLane = some k → k ≠ lane → exec (.laneFailure n lane) s = .next downState)
    ∧ (p.st = .init → (p.lastSend + 1800 ≤ s.cycle → exec (.initRetry n) s = .next (sendInit s n))
        ∧ (s.cycle < p.lastSend + 1800 → exec (.initRetry n) s = .next s))
    ∧ (∀ c, p.nakAt = some c → running → (c + 3600 ≤ s.cycle → exec (.nakRetry n) s = .next (sendNak s n))
        ∧ (s.cycle < c + 3600 → exec (.nakRetry n) s = .next s))
    ∧ (p.st ≠ .down → (p.lastGood + 180000 ≤ s.cycle ∨ (∃ r ∈ p.replay, 8 ≤ r.2.1) → exec (.portFailure n) s = .next downState)
        ∧ (s.cycle < p.lastGood + 180000 → (∀ r ∈ p.replay, r.2.1 < 8) → exec (.portFailure n) s = .next s)))

/-- Requests of a peer at their owner (R110, R209, R442, R444, R445, R449): each is performed through the entry that serves it
and answered: a put of a granule, a fill of a SEALED buffer or its hold, an atomic once its turn at the home slice has come,
a row, a message, a copy read, a version notice, a shadow; what no entry admits is refused, with PERM where the answer
carries a cause. That a put of a whole granule which no entry admits is answered with FAULT and PERM is the model's choice
(log 35), since R442 has PUTACK give OK; which lines a version notice takes is that of log 75.

Responses at the device that asked, and requests that are lost (R110, R209, R213, R229, R244, R442, R447 to R449): each ends
the request it names, one that is lost ending its instruction in MACHINE with INNER 2 after 65 us, counted for a held fill
from the notice of the hold (log 92); what it brings reaches the strand or the element that waits (of fills, logs 23 and 75). -/
def Obligations.Peers : Prop :=
  (∀ (s : State) (p : Packet) (e pa part came : Nat), PlainMemory s → (∀ u ∈ s.strands, ∀ q ∈ u.2.pend, loadOf q = none) →
    let n := p.payload.length
    let o := p.addr
    let fault (typ : Nat) (c : Cause) : Out := .next (respond s typ p 4 c.num 0 0 [])
    let sealed_ (va : Nat) : Bool := ((vbufAt s (exPart s e) va).map fun v => (s.vbuf v).isSealed).getD false
    let line := o / 64 * 64
    let v := s.vbuf e
    let granule (u : State) : State :=
      let w := rawWrite u (.mem pa) p.payload
      if p.pmask.testBit 0 then setPoison (.mem pa) true w else w
    (n = 32 → p.addr % 32 = 0 → p.aux.testBit 32 = false →
      (servingEntry s p.dst o 32 = some e → exBit s e bitW = true → exBit s e bitMIR = false →
        sealed_ (exVa s e + (o - exOff s e)) = false → ownerPlace s e o permW = .ok (.mem pa) →
        exec (.put p) s = .next (respond (granule s) 2 p 0 0 0 0 []))
      ∧ (servingEntry s p.dst o 32 = none → exec (.put p) s = .next (respond (count s 3) 2 p 4 4 0 0 [])))
    ∧ (servingEntry s p.dst line 64 = none → exec (.fill p) s = fault 4 .perm)
    ∧ (servingEntry s p.dst line 64 = some e → exBit s e bitR = true → exBit s e bitVB = true → v.everSealed = true →
        (v.isSealed = true → v.change = none → ownerPlace s e line permR = .ok (.mem pa) →
          exec (.fill p) s = .next (respond (s.setVbuf e { v with
            fillers := NSet.ins v.fillers p.src, lastFill := Tbl.put v.lastFill v.version s.cycle }) 4 p
            0 0 v.version ((if isPoisoned s (.mem pa) then 1 else 0) + (if isPoisoned s (.mem (pa + 32)) then 2 else 0))
            (s.hbm.bytes pa 64)))
        ∧ (v.isSealed = false → v.change = none → exec (.fill p) s =
            .next (respond (s.setVbuf e { v with heldFills := v.heldFills ++ [p] }) 5 p 0 0 0 0 []))
        ∧ (v.change.isSome = true → exec (.fill p) s = .next (s.setVbuf e { v with lateFills := v.lateFills ++ [(s.cycle, p)] })))
    ∧ (∀ act, packetAtom p .zero = some act → o % atomBytes act = 0 →
        (servingEntry s p.dst o (atomBytes act) = none → exec (.atom p) s = fault 7 .perm)
        ∧ (servingEntry s p.dst o (atomBytes act) = some e → exBit s e bitA = true → exBit s e bitMIR = false →
            ownerPlace s e o (permR + permW) = .ok (.mem pa) → sealed_ (exVa s e + (o - exOff s e)) = false →
            isPoisoned s (.mem pa) = false →
            let old := s.hbm.bytes pa (atomBytes act)
            let entry (limit : Nat) (admitted : Bool) (at_ : Nat) : Atom := ⟨homeSlice pa, exPart s e, 0, 0, admitted, limit, some p, at_⟩
            exec (.atom p) s = .next { s with atoms := s.atoms ++ [entry (s.part (exPart s e)).atomq false s.cycle] }
            ∧ ∀ limit admitted, s.atoms = [entry limit admitted came] → admitted = true ∨ 0 < limit →
              exec (.atomicAdmit (homeSlice pa)) s = .next (respondFrom (performAtom { s with atoms := [] } 0 (.mem pa) act).1 came 7 p
                (if atomWrites act old then 0 else 15) 0 0 0 (bytesAt old 0 (if old.length = 16 then 16 else 8)))))
    ∧ (n = 64 → s.clusterPart (hCluster (BitVec.ofNat 64 p.addr)) = some part →
        (admitsPart s p.dst bitT part = false → exec (.trow p) s = .next (respond s 9 p 2 0 0 0 []))
        ∧ ∀ t c, admitsPart s p.dst bitT part = true →
            remoteRow s part (BitVec.ofNat 64 p.addr) (p.aux % 32) p.payload (p.pmask % 4 != 0) = (t, c) →
            exec (.trow p) s = .next (respond t 9 p c.num 0 0 0 []))
    ∧ (∀ r, n = 32 → mbReceiver (BitVec.ofNat 64 p.addr) = some r → s.clusterPart (strandCluster r) = some part →
        (admitsPart s p.dst bitMB part = false → exec (.msg p) s = .next (respond s 11 p 2 0 0 0 []))
        ∧ ∀ t c, admitsPart s p.dst bitMB part = true →
            deliverMessage s part (BitVec.ofNat 64 p.addr) ⟨0, p.aux % 2 ^ 32, wordsOf p.payload 4⟩ = (t, c) →
            exec (.msg p) s = .next (respond t 11 p c.num 0 0 0 []))
    ∧ (p.aux % 4096 = 32 → p.addr % 32 = 0 →
        (servingEntry s p.dst o 32 = none → exec (.xread p) s = fault 13 .perm)
        ∧ (servingEntry s p.dst o 32 = some e → exBit s e bitR = true → ownerPlace s e o permR = .ok (.mem pa) →
            exec (.xread p) s = .next (respond s 13 p 0 0 0 (if isPoisoned s (.mem pa) then 1 else 0) (s.hbm.bytes pa 32))))
    ∧ (let version := p.aux % 2 ^ 24
       let unit := peerUnit p.src (p.addr % 2 ^ 38)
       ∃ t, exec (.vnote p) s = .next (respond t 15 p 0 0 p.aux 0 []) ∧ t.hbm = s.hbm ∧ t.spad = s.spad ∧ t.strands = s.strands
           ∧ t.reqs = s.reqs
         ∧ (∀ q off, heldVersion t q off = if peerUnit q off = unit then some version else heldVersion s q off)
         ∧ ∀ x, x ∈ t.peerLines ↔ x ∈ s.peerLines ∧ (peerUnit (x.1 / 2 ^ 38) (x.1 % 2 ^ 38) = unit → x.2.version = version))
    ∧ (n = 32 → p.addr % 32 = 0 → s.lost.has p.src = false → s.shadowHeld = [] →
        let k := s.shadowNext.getD p.src 0
        let s' := { s with shadowNext := Tbl.put s.shadowNext p.src (k + 1) }
        p.aux % 2 ^ 32 = k % 2 ^ 32 →
        ((exportIds s).find? fun e => exBit s e bitSH && exAlt s e == p.src && decide (exOff s e ≤ p.addr)
          && decide (p.addr + 32 ≤ exOff s e + exLen s e)) = some e → ownerPlace s' e o permW = .ok (.mem pa) →
        exec (.shadow p) s = .next (respond (granule s') 17 p 0 0 p.aux 0 [])))
  ∧ (∀ (s : State) (p : Packet) (r : Request) (id k e : Nat) (d : GReg) (pend : Pending),
    let t := s.strand id
    let found (typ : Nat) : Prop := s.reqs.find? (fun x => x.rtag == p.rtag && x.typ == typ) = some r
    let taken : State := { s with reqs := s.reqs.erase r }
    let waits (act : PendAct) : Prop := r.who = .strand id k ∧ t.pend = [pend] ∧ pend.id = k ∧ pend.act = act ∧ t.run = .stall .atomic
    let served (u : State) (w : Word) : Out := .next (u.setStrand id { t.write d w with pend := [], run := .ready, pc := t.pc + 4 })
    let told (w : Word) : Out := .next (taken.setStrand id { t.write d w with status := w, pend := [], run := .ready, pc := t.pc + 4 })
    let tag := p.aux % 2 ^ 24
    (found 1 → r.who = .put id → ∃ u, exec (.putack p) s = .next u ∧ u.reqs = taken.reqs ∧ u.hbm = s.hbm ∧ u.spad = s.spad
      ∧ (∀ y ∈ u.peerLines, y ∈ s.peerLines)
      ∧ ∀ n, let v := if n = id then { t with puts := t.puts.filter fun q => q.rtag != p.rtag } else s.strand n
        u.strand n = if v.run = .stall .puts then { v with run := .ready } else v)
    ∧ (∀ ty q off, found 3 → waits (.load ty d (.peer q off)) → p.stat = 0 → p.pmask = 0 → staleFill s r tag = false →
        ∃ u, exec (.fillr p) s = served u (LdType.extend ty (ofLeBytes (bytesAt p.payload (pend.va % 64) (LdType.size ty))))
          ∧ u.peerLines = Tbl.put s.peerLines (peerKey r.pkt.dst r.pkt.addr) ⟨tag, p.payload⟩ ∧ u.reqs = taken.reqs
          ∧ heldVersion u r.pkt.dst r.pkt.addr = some tag ∧ u.hbm = s.hbm ∧ u.spad = s.spad)
    ∧ (∀ ty l, found 3 → waits (.load ty d l) → p.stat = 0 → staleFill s r tag = true →
        ∃ u, exec (.fillr p) s = .next u ∧ u.peerLines = s.peerLines ∧ u.strand id = t ∧ u.rtagNext = s.rtagNext + 1)
    ∧ (∃ due, s.cycle ≤ due ∧ exec (.held p) s = .next { s with
        freeCount := s.freeCount + 1,
        reqs := s.reqs.map fun x => if x.rtag = p.rtag ∧ x.typ = 3 then { x with held := some due } else x })
    ∧ (∀ op n ord x l, found 6 → waits (.amo op n ord d x l) → p.stat = 0 →
        exec (.atomr p) s = .next (completeAway taken id k (atomEval (.amo op n ord d x l) (p.payload.take n)).2))
    ∧ (found 8 → waits (.awaiting d) → exec (.trowr p) s = told (BitVec.ofNat 64 (codeOf p.stat).num))
    ∧ (found 10 → waits (.awaiting d) → exec (.msgr p) s = told (BitVec.ofNat 64 (codeOf p.stat).num))
    ∧ (found 12 → r.who = .engine k e →
        (p.stat = 0 → exec (.xreadr p) s = .next (elemBytes taken k e p.payload (p.pmask != 0)))
        ∧ (p.stat ≠ 0 → exec (.xreadr p) s = .next (elemLost taken k e false (Cause.ofCode p.detail))))
    ∧ (∀ c, ((exportIds s).find? fun e => exBit s e bitVB && exOff s e == p.addr) = some e → (s.vbuf e).change = none →
        (s.vbuf e).reuseAt = none → (s.vbuf e).opening = some (id, k, c, [p.src]) → t.pend = [pend] → pend.id = k →
        pend.act = .awaiting d →
        let w : Word := BitVec.ofNat 64 (2 ^ 16 * (s.vbuf e).version)
        ∃ u, exec (.vnack p) s = .next u ∧ (u.vbuf e).opening = none
          ∧ u.strand id = { t with pend := [{ pend with act := .ready { regs := [(d, w)], status := some w } }] })
    ∧ (∀ q typ bs came, found 16 → r.who = .mirror q typ bs came →
        exec (.shack p) s = .next (settleChanges (respondFrom taken came typ q q.stat 0 0 0 bs)))
    ∧ ((∀ x ∈ s.reqs, x.rtag ≠ p.rtag) → exec (.putack p) s = .next s ∧ exec (.fillr p) s = .next s
        ∧ exec (.atomr p) s = .next s ∧ exec (.trowr p) s = .next s ∧ exec (.msgr p) s = .next s ∧ exec (.xreadr p) s = .next s)
    ∧ (s.reqs.find? (fun x => x.rtag == r.rtag) = some r →
        (r.held.getD r.sent + 117000 ≤ s.cycle → r.who = .strand id k → t.pend = [pend] → pend.id = k → t.region = none →
          t.intrap = false → t.run ≠ .bound →
          ∃ u, exec (.requestLost r.rtag) s = .next u ∧ u.reqs = s.reqs.erase r ∧ (u.strand id).intrap = true
            ∧ (u.strand id).epc = t.pc ∧ (u.strand id).ecause = BitVec.ofNat 64 (13 + 2 ^ 8 * 2)
            ∧ (u.strand id).eaddr = BitVec.ofNat 64 pend.va ∧ (u.strand id).pc = t.tvec)
        ∧ (s.cycle < r.held.getD r.sent + 117000 → exec (.requestLost r.rtag) s = .next s)))

/-- Routes, exports and lost peers (R109, R440, R443, R444, R450), from the device itself or as the host's CFGW: a malformed
value changes nothing, with the cases of logs 55 and 78; a route is kept with its reserved bits clear; an entry that is not
live, or a write of its own value, is written at once, a change of a live one begins its wait; a lost peer, whichever it is
(log 68), is no member any more, which is recorded. -/
def Obligations.SpaceOne : Prop :=
  ∀ (s : State) (p off : Nat) (v : Word) (m : HostMsg),
    let x := v.toNat
    let hops := x / 2 ^ 16 % 8
    let ports := x % 2 ^ 16
    let e := off / 32
    let w := off % 32 / 8
    let bad := exMalformed s e ((List.range 4).map fun i => if i = w then x else exportWord s e i)
    let put : State := { s with exports := Tbl.put s.exports (4 * e + w) x }
    (4 < hops ∨ (hops ≠ 0 ∧ ports = 0) → exec (.routeWrite .direct p v) s = .next s)
    ∧ (hops ≤ 4 → hops = 0 ∨ ports ≠ 0 → exec (.routeWrite .direct p v) s = .next { s with
        routes := Tbl.put s.routes p (x / 2 ^ 32 % 2 ^ 10 * 2 ^ 32 + hops * 2 ^ 16 + if hops = 0 then 0 else ports) })
    ∧ (off < 0x2000 → off % 8 = 0 →
        (bad = true → exec (.exportWrite .direct off v) s = .next s)
        ∧ (bad = false → exBit s e 63 = false ∨ exportWord s e w = x → exec (.exportWrite .direct off v) s = .next put)
        ∧ (bad = false → exBit s e 63 = true → exportWord s e w ≠ x → exBit s e bitVB = false → admittedThrough s e = false →
            (s.vbuf e).change = none → (s.vbuf e).opening = none → (s.vbuf e).heldFills = [] →
            ∃ t, exec (.exportWrite .direct off v) s = .next t ∧ t.exports = put.exports
              ∧ t.vbuf e = { version := (s.vbuf e).version, lastFill := (s.vbuf e).lastFill })
        ∧ (bad = false → exBit s e 63 = true → exportWord s e w ≠ x → exBit s e bitVB = true → (s.vbuf e).fillers ≠ [] →
            (s.vbuf e).change = none →
            ∃ t, exec (.exportWrite .direct off v) s = .next t ∧ t.exports = s.exports
              ∧ (t.vbuf e).change = some (s.cycle, (s.vbuf e).fillers, some (w, x))))
    ∧ (let q := x % 1024
       let r := s.members.getD (q / 64) 0
       (∀ y ∈ s.reqs, y.pkt.dst ≠ q) → ∃ t, exec (.losscmd .direct v) s = .next t ∧ t.lost = NSet.ins s.lost q
         ∧ (t.members.getD (q / 64) 0) = (if r.testBit (q % 64) then r - 2 ^ (q % 64) else r)
         ∧ ∃ a, t.strata.getD 4 [] = a ++ [⟨s.cycle, s.strataSeq.getD 4 0 + 1, 7, 0xFF, q, 0, 0, false⟩])
    ∧ (m.part = 0xFF → numAt m.payload 0 8 = x →
        (m.addr = 0x10000 + 32 * p → exec (.routeWrite (.host m) p v) s = exec (.cfgw m) s)
        ∧ (m.addr = 0x20000 + off → exec (.exportWrite (.host m) off v) s = exec (.cfgw m) s)
        ∧ (m.addr = 0x31000 → exec (.losscmd (.host m) v) s = exec (.cfgw m) s))

/-! ## Management -/

/-- The I3C registers, the host port and the firmware store (R460, R462, R463): a register takes what is written, the network
registers only while the port is down; UP comes with an address, a UDP port and running firmware (its phases are log 60);
STRDATA is latched with STRSEL (log 98); the store is erased to ones and programmed 32 bytes at a time where they are ones; a
nonce starts a report.

Bring-up, reset and power (R75, R452, R455, R457, R458, R460): the boot ROM's checks decide between READY and RECOVERY; a warm reset
keeps the record, the repair list and the network registers, a loss of power the store and the fuse; neither clears an accumulator.
That memory reads 0 after a warm reset is the model's choice (log 67), and so is what it keeps at a loss of power (log 61).

Heat and failures (R452, R453, R454, R464): a junction that reaches 105 degrees is recorded and interrupts the management
controller, one that reaches 115 stops every partition and asks for the removal of power; an error that its code corrects is
recorded and counted, another poisons or marks what it lies in, or traps the strand it is met in with MACHINE and INNER 3; a
failed cluster stops its partition; a channel with errors in 16 rows is remapped to its sibling, and what could not be read
is poisoned. A partition that is stopped halts, its launches end, without notice after a trip, with outcome 1 after a failed
cluster, and a strand that ran one of their tasks is free. When such a thing happens is an input of the machine (log 44);
that the temperatures themselves are, log 100; the row of an address is free (log 99). -/
def Obligations.Management : Prop :=
  (∀ (s : State) (off : Nat) (v : Word),
    let m := s.mgmt
    let x := v.toNat
    let set (n : Mgmt) : Out := .next { s with mgmt := n }
    let ones (a n : Nat) : Prop := ∀ i < n, m.store.get (a + i) = 0
    let word (i : Fin 4) : Word := BitVec.ofNat 64 (ofLeBytes ((m.store.bytes (m.fwAddr + 8 * i.val) 8).map (~~~ ·)))
    let data := m.fwData.set 3 v
    let bytes := (data.toList.map fun w => leBytes 8 w.toNat).flatten
    let netcfg : Mgmt := { m with lanes := x.testBit 16, udpPort := x % 2 ^ 16 }
    let reachable : Prop := (m.netip4 ≠ 0 ∨ m.netip6l ≠ 0 ∨ m.netip6h ≠ 0) ∧ x % 2 ^ 16 ≠ 0 ∧ (m.phase = .ready ∨ m.phase = .tripped)
    (m.up = false → exec (.i3cRegisterWrite 0x40 v) s = set { m with netmac := x % 2 ^ 48 }
      ∧ exec (.i3cRegisterWrite 0x48 v) s = set { m with netip4 := x % 2 ^ 32 }
      ∧ exec (.i3cRegisterWrite 0x50 v) s = set { m with netip6l := x } ∧ exec (.i3cRegisterWrite 0x58 v) s = set { m with netip6h := x })
    ∧ (m.up = true → ∀ o ∈ [0x40, 0x48, 0x50, 0x58], exec (.i3cRegisterWrite o v) s = .next s)
    ∧ exec (.i3cRegisterWrite 0x80 v) s = set { m with sp1off := x % 2 ^ 20 }
    ∧ (let e := (s.strata.getD (x % 2 ^ 15 / 2 ^ 12) []).find? fun e => (e.seq - 1) % 4096 == x % 4096
       exec (.i3cRegisterWrite 0x100 v) s = set { m with strsel := x % 2 ^ 15, strLatch := (e.map strataBytes).getD [] })
    ∧ (∀ i < 4, i3cRead s (0x110 + 8 * i) = numAt m.strLatch (8 * i) 8)
    ∧ (∃ y ∈ m.temps.toList, i3cRead s 0x10 = y.toNat ∧ ∀ z ∈ m.temps.toList, z.toInt ≤ y.toInt)
    ∧ exec (.i3cRegisterWrite 0x608 v) s = set { m with fwAddr := x % 2 ^ 27 / 32 * 32 }
    ∧ (0x3000 ≤ off → exec (.i3cRegisterWrite off v) s = .next s)
    ∧ (x.testBit 17 = true → m.up = false →
        (reachable → exec (.hostPortUp v) s = .next { s with mgmt := { netcfg with up := true }, streams := [] })
        ∧ (¬reachable → exec (.hostPortUp v) s = set netcfg))
    ∧ (x.testBit 17 = false → m.up = true → ∃ t, exec (.hostPortDown v) s = .next t ∧ t.mgmt = { netcfg with up := false }
        ∧ t.streams = [] ∧ ∀ p, (t.part p).enabling = none)
    ∧ (∀ y, sp1Read s m.sp1off = some y → exec .sp1dataRead s = set { m with sp1err := false })
    ∧ (sp1Read s m.sp1off = none → exec .sp1dataRead s = set { m with sp1err := true }
        ∧ exec (.sp1dataWrite v) s = set { m with sp1err := true })
    ∧ (m.sp1off = 0 → exec (.sp1dataWrite v) s = .next { s with devid := x % 2 ^ 10, mgmt := { m with sp1err := false } })
    ∧ (m.fwBusy = false → exec .fwErase s = set { m with fwBusy := true, fwErasing := true }
        ∧ (ones m.fwAddr 32 → exec (.fwProgram v) s = set { m with
            fwData := data, fwBusy := true, fwErasing := false, fwPend := some (m.fwAddr, bytes), fwAddr := (m.fwAddr + 32) % 2 ^ 27 })
        ∧ (¬ones m.fwAddr 32 → exec (.fwProgram v) s = set { m with fwData := data, fwResult := 4 }))
    ∧ (m.fwBusy = true → exec .fwErase s = .next s ∧ exec (.fwProgram v) s = .next s
        ∧ (m.fwErasing = true → exec (.fwOpComplete 0) s = set { m with store := [], fwResult := 0, fwBusy := false, fwErasing := false })
        ∧ ∀ a bs, m.fwErasing = false → m.fwPend = some (a, bs) → exec (.fwOpComplete 0) s =
            set { m with store := m.store.putBytes a (bs.map (~~~ ·)), fwResult := 0, fwBusy := false, fwPend := none })
    ∧ exec .fwLoad s = set { m with fwData := Vector.ofFn word }
    ∧ exec .fwAdvance s = set { m with fwAddr := (m.fwAddr + 32) % 2 ^ 27 }
    ∧ exec (.attestationStart v) s = set { m with
        nonce := m.nonce.set 3 v, attNonce := m.nonce.set 3 v, attReady := false, attBusy := true }
    ∧ (m.attBusy = true → m.phase = .ready ∨ m.phase = .tripped →
        exec .attestationReady s = set { m with report := attestation s, attReady := true, attBusy := false }))
  ∧ (∀ (s : State),
    let m := s.mgmt
    let r := checkImage m
    let event (t : State) (die code cluster unit addr detail : Nat) : Prop := ∃ k a, t.strata.getD die [] =
      a ++ [⟨s.cycle, k, code, cluster, unit, addr, detail, false⟩]
    let cleared (n : Mgmt) : State := { State.reset with
      freeCount := s.freeCount, hostOut := s.hostOut, dunOut := s.dunOut, i3cOut := s.i3cOut, accMem := s.accMem,
      chisels := (s.chisels.filter fun c => c.2.accPoison != []).map fun c => (c.1, { accPoison := c.2.accPoison }),
      mgmt := { n with store := m.store, level := m.level } }
    (m.powered = true → m.phase = .boot →
      (r ≠ 0 → ∃ t, exec .boot s = .next t ∧ t.mgmt = { m with phase := .recovery, bootres := r } ∧ event t 4 13 0xFF 0 0 r)
      ∧ (r = 0 → ∃ t, exec .boot s = .next t ∧ t.mgmt = { m with
          phase := .ready, bootres := 0, digest := imageDigest m, runLevel := imageLevel m, level := max m.level (imageLevel m) }
          ∧ event t 4 13 0xFF 0 0 0))
    ∧ (m.phase ≠ .boot → exec .boot s = .next s)
    ∧ (m.powered = true →
        let kept : Mgmt := { repair := m.repair, netmac := m.netmac, netip4 := m.netip4, netip6l := m.netip6l, netip6h := m.netip6h,
                             lanes := m.lanes, udpPort := m.udpPort }
        exec .warm s = .next { cleared kept with strata := s.strata, strataSeq := s.strataSeq })
    ∧ exec .powerOff s = .next (cleared { powered := false })
    ∧ (m.powered = false → exec .powerUp s = .next (cleared {}))
    ∧ (m.powered = true → exec .powerUp s = .next s))
  ∧ (∀ (s : State) (die temp pa c n p key : Nat) (bad : List Nat) (l : Launch),
    let m := s.mgmt
    let g := pa / 32 * 32
    let slice := homeSlice g
    let plain : Prop := ∀ c ∈ s.cores, c.2.red = []
    let memory : Prop := isNear g = true ∨ isFar g = true
    let event (t : State) (die code cluster unit addr detail : Nat) : Prop := ∃ k a, t.strata.getD die [] =
      a ++ [⟨s.cycle, k, code, cluster, unit, addr, detail, false⟩]
    let temps := m.temps.set! die (BitVec.ofNat 16 temp)
    let reaches (d : Int) : Prop := ((m.temps[die]?).getD 0).toInt < 16 * d ∧ 16 * d ≤ (BitVec.ofNat 16 temp).toInt
    let idle : Prop := s.tasks = [] ∧ s.ctxs = [] ∧ s.ops = [] ∧ s.launches = [(key, l)] ∧ l.part = p ∧ l.st = .running
        ∧ partStrands s p = []
    let fresh : Prop := (s.part p).st = .running ∧ (s.part p).busy = false ∧ (s.part p).haltedBit = false
    let stopped (t : State) : Prop := t.launches = [] ∧ (t.part p).granting = none ∧ (t.part p).haltedBit = true ∧ (t.part p).busy = false
    (¬reaches 105 → exec (.temperatureAlert die temp) s = .next { s with mgmt := { m with temps := temps } })
    ∧ (reaches 105 → ∃ t, exec (.temperatureAlert die temp) s = .next t ∧ t.mgmt = { m with temps := temps }
        ∧ event t die 11 0xFF 0 0 temp ∧ t.i3cOut = s.i3cOut ++ [.interrupt] ∧ t.strands = s.strands ∧ t.hbm = s.hbm)
    ∧ (¬reaches 115 → exec (.thermalTrip die temp) s = .next s)
    ∧ (reaches 115 → (∀ q, q ≠ p → (s.part q).st ≠ .running) →
        ((s.part p).st ≠ .running → ∃ t, exec (.thermalTrip die temp) s = .next t
          ∧ t.mgmt = { m with temps := temps, phase := if m.phase = .ready then .tripped else m.phase } ∧ event t die 12 0xFF 0 0 temp
          ∧ t.i3cOut = s.i3cOut ++ [.removePower])
        ∧ (p < 8 → fresh → idle → ∃ t, exec (.thermalTrip die temp) s = .next t ∧ stopped t ∧ t.hostOut = s.hostOut))
    ∧ (∀ id tid x o, fresh → s.tasks = [(tid, x)] → x.st = .running id → x.launch = key → s.ctxs = [] → s.ops = [] →
        s.launches = [(key, l)] →
        l.part = p → l.st = .running → ((stopPartition s p o).strand id).run = .free)
    ∧ (∀ x : EccSite, (∀ a, x = .granule a ∨ x = .line a → isNear a = true ∨ isFar a = true) →
        let (d, cl, u, a) := eccPlace x
        exec (.patrolScrub x true) s = .next (strataEvent { s with corrected := s.corrected + 1 } d 1 cl u a 0))
    ∧ (memory → (isPoisoned s (.mem g) = true → ∃ t, exec (.patrolScrub (.granule g) false) s = .next t ∧ t.poison = s.poison
            ∧ t.strata = s.strata ∧ t.hbm = s.hbm)
        ∧ (isPoisoned s (.mem g) = false → plain → ∃ t, exec (.patrolScrub (.granule g) false) s = .next t ∧ isPoisoned t (.mem g) = true
            ∧ t.hbm = s.hbm ∧ event t (dieOf (slice / 16)) 2 (slice / 16) slice g 0))
    ∧ (isPoisoned s (.spad pa) = false → ∃ t, exec (.patrolScrub (.pad pa) false) s = .next t ∧ isPoisoned t (.spad pa) = true
        ∧ t.spad = s.spad ∧ event t (dieOf (pa / 2 ^ 18 / 24)) 2 (pa / 2 ^ 18 / 24) (pa / 2 ^ 18 % 24) 0 0)
    ∧ (∃ t, exec (.patrolScrub (.acc c n) false) s = .next t ∧ NSet.has (t.chisel c).accPoison n = true ∧ t.accMem = s.accMem)
    ∧ (∃ t, exec (.patrolScrub (.slot c n) false) s = .next t ∧ NSet.has (t.chisel c).slotPoison n = true ∧ t.opmem = s.opmem)
    ∧ (let t := s.strand n
       t.run = .ready → t.halted = false → t.intrap = false → t.pend = [] → t.region = none →
        ∃ u, exec (.patrolScrub (.strand n) false) s = .next u ∧ (u.strand n).intrap = true ∧ (u.strand n).pc = t.tvec
          ∧ (u.strand n).epc = t.pc ∧ (u.strand n).ecause = BitVec.ofNat 64 (13 + 2 ^ 8 * 3))
    ∧ (∃ t, exec (.patrolScrub (.strata die n) false) s = .next t ∧ ∀ e ∈ t.strata.getD die [], (e.seq - 1) % 4096 = n → e.bad = true)
    ∧ (∀ q, s.clusterPart c = some q → (s.part q).st ≠ .running → ∃ t, exec (.clusterFailure c) s = .next t
        ∧ (t.part q).st = .stopped ∧ event t (dieOf c) 4 c 0 0 0)
    ∧ (s.clusterPart c = some p → fresh → idle → m.up = true → ∃ t o, exec (.clusterFailure c) s = .next t ∧ stopped t
        ∧ (t.part p).st = .stopped ∧ t.hostOut = s.hostOut ++ [o] ∧ o.typ = 6 ∧ o.msg.stream = l.stream ∧ numAt o.msg.payload 4 4 = 1)
    ∧ (s.clusterPart c = none → ∃ t, exec (.clusterFailure c) s = .next t ∧ t.parts = s.parts ∧ event t (dieOf c) 4 c 0 0 0)
    ∧ (s.remapped.has n = false → 16 ≤ (s.badRows.getD n []).length → plain →
        ∃ t, exec (.pseudoChannelRemap n bad) s = .next t ∧ t.remapped.has n = true ∧ t.hbm = s.hbm
        ∧ (∀ a ∈ bad, homeSlice a = n → isPoisoned t (.mem a) = true) ∧ event t (dieOf (n / 16)) 3 (n / 16) n 0 0
        ∧ t.trowels.getD (n ^^^ 1) [] = s.trowels.getD (n ^^^ 1) [] ++ s.trowels.getD n [])
    ∧ (s.remapped.has n = true ∨ (s.badRows.getD n []).length < 16 → exec (.pseudoChannelRemap n bad) s = .next s))
end

