-- ==== Sys2Proof/Laws/Table.lean ====
section
/-! SUPPORT. Tables and byte stores: what a read finds after a write, and that every operation keeps the canonical form. -/

namespace Sys2Proof.Machine

/-! ## Tables -/

theorem Tbl.find_put_self {α : Type} (t : Tbl α) (n : Nat) (x : α) : (t.put n x).find n = some x := by
  induction t with
  | nil => simp [Tbl.put, Tbl.find]
  | cons h t ih =>
    obtain ⟨k, v⟩ := h
    by_cases h1 : k = n
    · simp [Tbl.put, Tbl.find, h1]
    · by_cases h2 : n < k
      · simp [Tbl.put, Tbl.find, h1, h2]
      · simp [Tbl.put, Tbl.find, h1, h2, ih]

theorem Tbl.find_put_ne {α : Type} (t : Tbl α) {n m : Nat} (x : α) (h : m ≠ n) : (t.put n x).find m = t.find m := by
  induction t with
  | nil => simp [Tbl.put, Tbl.find, Ne.symm h]
  | cons p t ih =>
    obtain ⟨k, v⟩ := p
    by_cases h1 : k = n
    · subst h1; simp [Tbl.put, Tbl.find, Ne.symm h]
    · by_cases h2 : n < k
      · simp only [Tbl.put, h1, if_false, h2, if_true, Tbl.find, Ne.symm h]
        by_cases h3 : m < n
        · have h4 : k ≠ m := by omega
          have h5 : m < k := by omega
          simp [h3, h4, h5]
        · simp [h3]
      · simp only [Tbl.put, h1, if_false, h2, Tbl.find, ih]

/-- Reading a table after one write. -/
theorem Tbl.find_put {α : Type} (t : Tbl α) (n m : Nat) (x : α) :
    (t.put n x).find m = if m = n then some x else t.find m := by
  by_cases h : m = n
  · subst h; simp [Tbl.find_put_self]
  · simp [h, Tbl.find_put_ne]

@[simp] theorem Tbl.getD_put_self {α : Type} (t : Tbl α) (n : Nat) (x d : α) : Tbl.getD (t.put n x) n d = x := by
  simp [Tbl.getD, Tbl.find_put_self]

theorem Tbl.getD_put_ne {α : Type} (t : Tbl α) {n m : Nat} (x d : α) (h : m ≠ n) :
    Tbl.getD (t.put n x) m d = Tbl.getD t m d := by
  simp [Tbl.getD, Tbl.find_put_ne, h]

theorem Tbl.getD_put {α : Type} (t : Tbl α) (n m : Nat) (x d : α) :
    Tbl.getD (t.put n x) m d = if m = n then x else Tbl.getD t m d := by
  by_cases h : m = n
  · subst h; simp
  · simp [h, Tbl.getD_put_ne]

/-- The second of two writes of a key stands. -/
@[simp] theorem Tbl.put_put {α : Type} (t : Tbl α) (n : Nat) (x y : α) : (t.put n x).put n y = t.put n y := by
  induction t with
  | nil => simp [Tbl.put]
  | cons p t ih =>
    obtain ⟨k, v⟩ := p
    by_cases h1 : k = n
    · simp [Tbl.put, h1]
    · by_cases h2 : n < k
      · simp [Tbl.put, h1, h2]
      · simp [Tbl.put, h1, h2, ih]

/-- Keys strictly rise, as a relation between neighbours. -/
theorem Tbl.sorted_iff {α : Type} (t : Tbl α) : t.sorted = true ↔ List.Pairwise (fun p q : Nat × α => p.1 < q.1) t := by
  induction t with
  | nil => simp [Tbl.sorted]
  | cons p t ih =>
    obtain ⟨a, x⟩ := p
    cases t with
    | nil => simp [Tbl.sorted]
    | cons q t =>
      obtain ⟨b, y⟩ := q
      simp only [Tbl.sorted, Bool.and_eq_true, decide_eq_true_eq, ih]
      constructor
      · rintro ⟨h, hp⟩
        refine List.pairwise_cons.2 ⟨?_, hp⟩
        intro r hr
        rcases List.mem_cons.1 hr with rfl | hr
        · exact h
        · have := (List.pairwise_cons.1 hp).1 r hr; simp at this; exact lt_trans h this
      · intro hp
        have h := List.pairwise_cons.1 hp
        exact ⟨h.1 (b, y) (by simp), h.2⟩

theorem Tbl.mem_put {α : Type} (t : Tbl α) (n : Nat) (x : α) (p : Nat × α) (h : p ∈ t.put n x) : p = (n, x) ∨ p ∈ t := by
  induction t with
  | nil => simpa [Tbl.put] using h
  | cons q t ih =>
    obtain ⟨k, v⟩ := q
    simp only [Tbl.put] at h
    split at h
    · rcases List.mem_cons.1 h with h | h <;> simp [h]
    · split at h
      · rcases List.mem_cons.1 h with h | h
        · exact .inl h
        · exact .inr h
      · rcases List.mem_cons.1 h with h | h
        · simp [h]
        · rcases ih h with h | h <;> simp [h]

theorem Tbl.mem_del {α : Type} (t : Tbl α) (n : Nat) (p : Nat × α) (h : p ∈ t.del n) : p ∈ t := by
  induction t with
  | nil => simp [Tbl.del] at h
  | cons q t ih =>
    obtain ⟨k, v⟩ := q
    simp only [Tbl.del] at h
    split at h
    · exact List.mem_cons_of_mem _ h
    · split at h
      · exact h
      · rcases List.mem_cons.1 h with h | h
        · simp [h]
        · exact List.mem_cons_of_mem _ (ih h)

theorem Tbl.sorted_put {α : Type} (t : Tbl α) (n : Nat) (x : α) (h : t.sorted = true) : (t.put n x).sorted = true := by
  rw [Tbl.sorted_iff] at h ⊢
  induction t with
  | nil => simp [Tbl.put]
  | cons q t ih =>
    obtain ⟨k, v⟩ := q
    have hc := List.pairwise_cons.1 h
    simp only [Tbl.put]
    split
    · next e => subst e; exact List.pairwise_cons.2 ⟨hc.1, hc.2⟩
    · split
      · next hlt =>
        refine List.pairwise_cons.2 ⟨?_, h⟩
        intro r hr
        rcases List.mem_cons.1 hr with rfl | hr
        · exact hlt
        · exact lt_trans hlt (hc.1 r hr)
      · next h1 h2 =>
        refine List.pairwise_cons.2 ⟨?_, ih hc.2⟩
        intro r hr
        rcases Tbl.mem_put t n x r hr with rfl | hr
        · show k < n; omega
        · exact hc.1 r hr

theorem Tbl.sorted_del {α : Type} (t : Tbl α) (n : Nat) (h : t.sorted = true) : (t.del n).sorted = true := by
  rw [Tbl.sorted_iff] at h ⊢
  induction t with
  | nil => simp [Tbl.del]
  | cons q t ih =>
    obtain ⟨k, v⟩ := q
    have hc := List.pairwise_cons.1 h
    simp only [Tbl.del]
    split
    · exact hc.2
    · split
      · exact h
      · exact List.pairwise_cons.2 ⟨fun r hr => hc.1 r (Tbl.mem_del t n r hr), ih hc.2⟩

/-! ## Byte stores -/

theorem Mem.wf_iff (m : Mem) : Memory.wf m = true ↔ Tbl.sorted m = true ∧ ∀ c ∈ m, c.2 ≠ 0 := by
  simp [Memory.wf, List.all_eq_true]

/-- Writing a byte keeps the canonical form. -/
theorem Mem.wf_put (m : Mem) (a : Nat) (b : Byte) (h : Memory.wf m = true) : Memory.wf (m.put a b) = true := by
  rw [Mem.wf_iff] at h ⊢
  unfold Mem.put
  split
  · exact ⟨Tbl.sorted_del m a h.1, fun c hc => h.2 c (Tbl.mem_del m a c hc)⟩
  · next hb =>
    refine ⟨Tbl.sorted_put m a b h.1, fun c hc => ?_⟩
    rcases Tbl.mem_put m a b c hc with rfl | hc
    · exact hb
    · exact h.2 c hc

/-- Writing bytes keeps the canonical form. -/
theorem Mem.wf_putBytes (bs : List Byte) : ∀ (m : Mem) (a : Nat), Memory.wf m = true → Memory.wf (m.putBytes a bs) = true := by
  induction bs with
  | nil => intro m a h; exact h
  | cons b bs ih => intro m a h; exact ih _ _ (Mem.wf_put m a b h)

theorem Tbl.find_del_self {α : Type} (t : Tbl α) (n : Nat) (h : t.sorted = true) : (t.del n).find n = none := by
  rw [Tbl.sorted_iff] at h
  induction t with
  | nil => simp [Tbl.del, Tbl.find]
  | cons q t ih =>
    obtain ⟨k, v⟩ := q
    have hc := List.pairwise_cons.1 h
    simp only [Tbl.del]
    split
    · next e =>
      subst e
      cases t with
      | nil => simp [Tbl.find]
      | cons r t =>
        have := hc.1 r (by simp)
        simp only at this
        simp [Tbl.find, this, Nat.ne_of_gt this]
    · split
      · next h1 h2 => simp [Tbl.find, h1, h2]
      · next h1 h2 => simp [Tbl.find, h1, h2, ih hc.2]

theorem Tbl.find_del_ne {α : Type} (t : Tbl α) {n m : Nat} (hn : m ≠ n) (h : t.sorted = true) : (t.del n).find m = t.find m := by
  rw [Tbl.sorted_iff] at h
  induction t with
  | nil => simp [Tbl.del]
  | cons q t ih =>
    obtain ⟨k, v⟩ := q
    have hc := List.pairwise_cons.1 h
    simp only [Tbl.del]
    split
    · next e =>
      subst e
      simp only [Tbl.find, Ne.symm hn, if_false]
      split
      · next hm =>
        cases t with
        | nil => simp [Tbl.find]
        | cons r t =>
          have := hc.1 r (by simp)
          simp only at this
          have h1 : r.1 ≠ m := by omega
          have h2 : m < r.1 := by omega
          obtain ⟨r1, r2⟩ := r
          simp only at h1 h2
          simp [Tbl.find, h1, h2]
      · rfl
    · split
      · rfl
      · simp only [Tbl.find, ih hc.2]

/-- Reading a byte store in canonical form after one write. -/
theorem Mem.get_put (m : Mem) (a x : Nat) (b : Byte) (h : Memory.wf m = true) :
    (m.put a b).get x = if x = a then b else m.get x := by
  have hs := ((Mem.wf_iff m).1 h).1
  unfold Mem.put Mem.get Tbl.getD
  by_cases hb : b = 0
  · simp only [hb, if_true]
    by_cases hx : x = a
    · subst hx; simp [Tbl.find_del_self m x hs]
    · simp [hx, Tbl.find_del_ne m hx hs]
  · simp only [hb, if_false, Tbl.find_put]
    by_cases hx : x = a <;> simp [hx]

/-- Reading a byte store after writing bytes: inside them the byte written, outside them what was there. -/
theorem Mem.get_putBytes (bs : List Byte) : ∀ (m : Mem) (a x : Nat), Memory.wf m = true →
    (m.putBytes a bs).get x = if a ≤ x ∧ x < a + bs.length then bs.getD (x - a) 0 else m.get x := by
  induction bs with
  | nil => intro m a x _; simp only [Mem.putBytes, List.length_nil]; rw [if_neg (by omega)]
  | cons b bs ih =>
    intro m a x h
    rw [Mem.putBytes, ih _ _ _ (Mem.wf_put m a b h), Mem.get_put m a x b h]
    simp only [List.length_cons]
    by_cases h1 : x = a
    · subst h1
      rw [if_neg (by omega), if_pos rfl, if_pos (by omega)]
      simp
    · by_cases h2 : a + 1 ≤ x ∧ x < a + 1 + bs.length
      · rw [if_pos h2, if_pos (by omega)]
        have : x - a = (x - (a + 1)) + 1 := by omega
        rw [this]; simp
      · rw [if_neg h2, if_neg h1, if_neg (by omega)]

theorem Mem.bytes_length (m : Mem) (n : Nat) : ∀ a, (m.bytes a n).length = n := by
  induction n with
  | zero => intro a; rfl
  | succ n ih => intro a; simp [Mem.bytes, ih]

/-! ## Sets -/

theorem NSet.mem_ins (s : NSet) (n x : Nat) : x ∈ NSet.ins s n ↔ x = n ∨ x ∈ s := by
  induction s with
  | nil => simp [NSet.ins]
  | cons k t ih =>
    simp only [NSet.ins]
    split
    · next e => subst e; simp
    · split
      · simp
      · simp only [List.mem_cons, ih]; tauto

@[simp] theorem NSet.has_ins_self (s : NSet) (n : Nat) : NSet.has (NSet.ins s n) n = true := by
  simp [NSet.has, NSet.mem_ins]

end Sys2Proof.Machine
end

