-- ==== Sys2Proof/Laws/State.lean ====
section
/-! SUPPORT. Updates of the state, one lemma per field per update: a setter changes its own table and nothing else, what was
set is read back, and other entries stay. -/

namespace Sys2Proof.Machine

variable (s : State) (n m : Nat)

/-! ## setStrand -/

@[simp] theorem State.setStrand_cycle (t : Strand) : (s.setStrand n t).cycle = s.cycle := rfl
@[simp] theorem State.setStrand_agenda (t : Strand) : (s.setStrand n t).agenda = s.agenda := rfl
@[simp] theorem State.setStrand_freeCount (t : Strand) : (s.setStrand n t).freeCount = s.freeCount := rfl
@[simp] theorem State.setStrand_strandId (t : Strand) : (s.setStrand n t).strandId = s.strandId := rfl
@[simp] theorem State.setStrand_ctxId (t : Strand) : (s.setStrand n t).ctxId = s.ctxId := rfl
@[simp] theorem State.setStrand_checked (t : Strand) : (s.setStrand n t).checked = s.checked := rfl
@[simp] theorem State.setStrand_hbm (t : Strand) : (s.setStrand n t).hbm = s.hbm := rfl
@[simp] theorem State.setStrand_spad (t : Strand) : (s.setStrand n t).spad = s.spad := rfl
@[simp] theorem State.setStrand_opmem (t : Strand) : (s.setStrand n t).opmem = s.opmem := rfl
@[simp] theorem State.setStrand_accMem (t : Strand) : (s.setStrand n t).accMem = s.accMem := rfl
@[simp] theorem State.setStrand_routineMem (t : Strand) : (s.setStrand n t).routineMem = s.routineMem := rfl
@[simp] theorem State.setStrand_poison (t : Strand) : (s.setStrand n t).poison = s.poison := rfl
@[simp] theorem State.setStrand_spadPoison (t : Strand) : (s.setStrand n t).spadPoison = s.spadPoison := rfl
@[simp] theorem State.setStrand_strands (t : Strand) : (s.setStrand n t).strands = Tbl.put s.strands n t := rfl
@[simp] theorem State.setStrand_cores (t : Strand) : (s.setStrand n t).cores = s.cores := rfl
@[simp] theorem State.setStrand_chisels (t : Strand) : (s.setStrand n t).chisels = s.chisels := rfl
@[simp] theorem State.setStrand_ctxs (t : Strand) : (s.setStrand n t).ctxs = s.ctxs := rfl
@[simp] theorem State.setStrand_descs (t : Strand) : (s.setStrand n t).descs = s.descs := rfl
@[simp] theorem State.setStrand_clusters (t : Strand) : (s.setStrand n t).clusters = s.clusters := rfl
@[simp] theorem State.setStrand_barriers (t : Strand) : (s.setStrand n t).barriers = s.barriers := rfl
@[simp] theorem State.setStrand_groups (t : Strand) : (s.setStrand n t).groups = s.groups := rfl
@[simp] theorem State.setStrand_regions (t : Strand) : (s.setStrand n t).regions = s.regions := rfl
@[simp] theorem State.setStrand_seqs (t : Strand) : (s.setStrand n t).seqs = s.seqs := rfl
@[simp] theorem State.setStrand_ops (t : Strand) : (s.setStrand n t).ops = s.ops := rfl
@[simp] theorem State.setStrand_opNext (t : Strand) : (s.setStrand n t).opNext = s.opNext := rfl
@[simp] theorem State.setStrand_chains (t : Strand) : (s.setStrand n t).chains = s.chains := rfl
@[simp] theorem State.setStrand_chainNext (t : Strand) : (s.setStrand n t).chainNext = s.chainNext := rfl
@[simp] theorem State.setStrand_trowels (t : Strand) : (s.setStrand n t).trowels = s.trowels := rfl
@[simp] theorem State.setStrand_pools (t : Strand) : (s.setStrand n t).pools = s.pools := rfl
@[simp] theorem State.setStrand_sequences (t : Strand) : (s.setStrand n t).sequences = s.sequences := rfl
@[simp] theorem State.setStrand_prefixes (t : Strand) : (s.setStrand n t).prefixes = s.prefixes := rfl
@[simp] theorem State.setStrand_swaps (t : Strand) : (s.setStrand n t).swaps = s.swaps := rfl
@[simp] theorem State.setStrand_swapTodo (t : Strand) : (s.setStrand n t).swapTodo = s.swapTodo := rfl
@[simp] theorem State.setStrand_swapNext (t : Strand) : (s.setStrand n t).swapNext = s.swapNext := rfl
@[simp] theorem State.setStrand_pages (t : Strand) : (s.setStrand n t).pages = s.pages := rfl
@[simp] theorem State.setStrand_tasks (t : Strand) : (s.setStrand n t).tasks = s.tasks := rfl
@[simp] theorem State.setStrand_launches (t : Strand) : (s.setStrand n t).launches = s.launches := rfl
@[simp] theorem State.setStrand_parts (t : Strand) : (s.setStrand n t).parts = s.parts := rfl
@[simp] theorem State.setStrand_flying (t : Strand) : (s.setStrand n t).flying = s.flying := rfl
@[simp] theorem State.setStrand_rows (t : Strand) : (s.setStrand n t).rows = s.rows := rfl
@[simp] theorem State.setStrand_notes (t : Strand) : (s.setStrand n t).notes = s.notes := rfl
@[simp] theorem State.setStrand_atoms (t : Strand) : (s.setStrand n t).atoms = s.atoms := rfl
@[simp] theorem State.setStrand_streams (t : Strand) : (s.setStrand n t).streams = s.streams := rfl
@[simp] theorem State.setStrand_regs (t : Strand) : (s.setStrand n t).regs = s.regs := rfl
@[simp] theorem State.setStrand_hostReqs (t : Strand) : (s.setStrand n t).hostReqs = s.hostReqs := rfl
@[simp] theorem State.setStrand_hostTag (t : Strand) : (s.setStrand n t).hostTag = s.hostTag := rfl
@[simp] theorem State.setStrand_hostOut (t : Strand) : (s.setStrand n t).hostOut = s.hostOut := rfl
@[simp] theorem State.setStrand_devid (t : Strand) : (s.setStrand n t).devid = s.devid := rfl
@[simp] theorem State.setStrand_members (t : Strand) : (s.setStrand n t).members = s.members := rfl
@[simp] theorem State.setStrand_routes (t : Strand) : (s.setStrand n t).routes = s.routes := rfl
@[simp] theorem State.setStrand_lost (t : Strand) : (s.setStrand n t).lost = s.lost := rfl
@[simp] theorem State.setStrand_exts (t : Strand) : (s.setStrand n t).exts = s.exts := rfl
@[simp] theorem State.setStrand_mirlens (t : Strand) : (s.setStrand n t).mirlens = s.mirlens := rfl
@[simp] theorem State.setStrand_exports (t : Strand) : (s.setStrand n t).exports = s.exports := rfl
@[simp] theorem State.setStrand_cnts (t : Strand) : (s.setStrand n t).cnts = s.cnts := rfl
@[simp] theorem State.setStrand_ports (t : Strand) : (s.setStrand n t).ports = s.ports := rfl
@[simp] theorem State.setStrand_reqs (t : Strand) : (s.setStrand n t).reqs = s.reqs := rfl
@[simp] theorem State.setStrand_rtagNext (t : Strand) : (s.setStrand n t).rtagNext = s.rtagNext := rfl
@[simp] theorem State.setStrand_vbufs (t : Strand) : (s.setStrand n t).vbufs = s.vbufs := rfl
@[simp] theorem State.setStrand_peerVers (t : Strand) : (s.setStrand n t).peerVers = s.peerVers := rfl
@[simp] theorem State.setStrand_peerLines (t : Strand) : (s.setStrand n t).peerLines = s.peerLines := rfl
@[simp] theorem State.setStrand_shadowSent (t : Strand) : (s.setStrand n t).shadowSent = s.shadowSent := rfl
@[simp] theorem State.setStrand_shadowNext (t : Strand) : (s.setStrand n t).shadowNext = s.shadowNext := rfl
@[simp] theorem State.setStrand_shadowHeld (t : Strand) : (s.setStrand n t).shadowHeld = s.shadowHeld := rfl
@[simp] theorem State.setStrand_dunOut (t : Strand) : (s.setStrand n t).dunOut = s.dunOut := rfl
@[simp] theorem State.setStrand_i3cOut (t : Strand) : (s.setStrand n t).i3cOut = s.i3cOut := rfl
@[simp] theorem State.setStrand_corrected (t : Strand) : (s.setStrand n t).corrected = s.corrected := rfl
@[simp] theorem State.setStrand_badRows (t : Strand) : (s.setStrand n t).badRows = s.badRows := rfl
@[simp] theorem State.setStrand_mgmt (t : Strand) : (s.setStrand n t).mgmt = s.mgmt := rfl
@[simp] theorem State.setStrand_strata (t : Strand) : (s.setStrand n t).strata = s.strata := rfl
@[simp] theorem State.setStrand_strataSeq (t : Strand) : (s.setStrand n t).strataSeq = s.strataSeq := rfl
@[simp] theorem State.setStrand_remapped (t : Strand) : (s.setStrand n t).remapped = s.remapped := rfl
@[simp] theorem State.setStrand_deadClusters (t : Strand) : (s.setStrand n t).deadClusters = s.deadClusters := rfl
@[simp] theorem State.setStrand_substituted (t : Strand) : (s.setStrand n t).substituted = s.substituted := rfl
@[simp] theorem State.strand_setStrand_self (t : Strand) : (s.setStrand n t).strand n = t := by simp [State.strand]
@[simp] theorem State.setStrand_setStrand (t u : Strand) : (s.setStrand n t).setStrand n u = s.setStrand n u := by simp [State.setStrand]
theorem State.strand_setStrand (t : Strand) : (s.setStrand n t).strand m = if m = n then t else s.strand m := by simp [State.strand, Tbl.getD_put]
theorem State.strand_setStrand_ne (t : Strand) (h : m ≠ n) : (s.setStrand n t).strand m = s.strand m := by simp [State.strand, Tbl.getD_put, h]
@[simp] theorem State.core_setStrand (t : Strand) : (s.setStrand n t).core m = s.core m := rfl
@[simp] theorem State.chisel_setStrand (t : Strand) : (s.setStrand n t).chisel m = s.chisel m := rfl
@[simp] theorem State.ctx_setStrand (t : Strand) : (s.setStrand n t).ctx m = s.ctx m := rfl
@[simp] theorem State.desc_setStrand (t : Strand) : (s.setStrand n t).desc m = s.desc m := rfl
@[simp] theorem State.cluster_setStrand (t : Strand) : (s.setStrand n t).cluster m = s.cluster m := rfl
@[simp] theorem State.barrier_setStrand (t : Strand) : (s.setStrand n t).barrier m = s.barrier m := rfl
@[simp] theorem State.region_setStrand (t : Strand) : (s.setStrand n t).region m = s.region m := rfl
@[simp] theorem State.part_setStrand (t : Strand) : (s.setStrand n t).part m = s.part m := rfl
@[simp] theorem State.stream_setStrand (t : Strand) : (s.setStrand n t).stream m = s.stream m := rfl
@[simp] theorem State.port_setStrand (t : Strand) : (s.setStrand n t).port m = s.port m := rfl
@[simp] theorem State.vbuf_setStrand (t : Strand) : (s.setStrand n t).vbuf m = s.vbuf m := rfl
@[simp] theorem State.modStrand_eq (f : Strand → Strand) : s.modStrand n f = s.setStrand n (f (s.strand n)) := rfl

/-! ## setCore -/

@[simp] theorem State.setCore_cycle (t : Core) : (s.setCore n t).cycle = s.cycle := rfl
@[simp] theorem State.setCore_agenda (t : Core) : (s.setCore n t).agenda = s.agenda := rfl
@[simp] theorem State.setCore_freeCount (t : Core) : (s.setCore n t).freeCount = s.freeCount := rfl
@[simp] theorem State.setCore_strandId (t : Core) : (s.setCore n t).strandId = s.strandId := rfl
@[simp] theorem State.setCore_ctxId (t : Core) : (s.setCore n t).ctxId = s.ctxId := rfl
@[simp] theorem State.setCore_checked (t : Core) : (s.setCore n t).checked = s.checked := rfl
@[simp] theorem State.setCore_hbm (t : Core) : (s.setCore n t).hbm = s.hbm := rfl
@[simp] theorem State.setCore_spad (t : Core) : (s.setCore n t).spad = s.spad := rfl
@[simp] theorem State.setCore_opmem (t : Core) : (s.setCore n t).opmem = s.opmem := rfl
@[simp] theorem State.setCore_accMem (t : Core) : (s.setCore n t).accMem = s.accMem := rfl
@[simp] theorem State.setCore_routineMem (t : Core) : (s.setCore n t).routineMem = s.routineMem := rfl
@[simp] theorem State.setCore_poison (t : Core) : (s.setCore n t).poison = s.poison := rfl
@[simp] theorem State.setCore_spadPoison (t : Core) : (s.setCore n t).spadPoison = s.spadPoison := rfl
@[simp] theorem State.setCore_strands (t : Core) : (s.setCore n t).strands = s.strands := rfl
@[simp] theorem State.setCore_cores (t : Core) : (s.setCore n t).cores = Tbl.put s.cores n t := rfl
@[simp] theorem State.setCore_chisels (t : Core) : (s.setCore n t).chisels = s.chisels := rfl
@[simp] theorem State.setCore_ctxs (t : Core) : (s.setCore n t).ctxs = s.ctxs := rfl
@[simp] theorem State.setCore_descs (t : Core) : (s.setCore n t).descs = s.descs := rfl
@[simp] theorem State.setCore_clusters (t : Core) : (s.setCore n t).clusters = s.clusters := rfl
@[simp] theorem State.setCore_barriers (t : Core) : (s.setCore n t).barriers = s.barriers := rfl
@[simp] theorem State.setCore_groups (t : Core) : (s.setCore n t).groups = s.groups := rfl
@[simp] theorem State.setCore_regions (t : Core) : (s.setCore n t).regions = s.regions := rfl
@[simp] theorem State.setCore_seqs (t : Core) : (s.setCore n t).seqs = s.seqs := rfl
@[simp] theorem State.setCore_ops (t : Core) : (s.setCore n t).ops = s.ops := rfl
@[simp] theorem State.setCore_opNext (t : Core) : (s.setCore n t).opNext = s.opNext := rfl
@[simp] theorem State.setCore_chains (t : Core) : (s.setCore n t).chains = s.chains := rfl
@[simp] theorem State.setCore_chainNext (t : Core) : (s.setCore n t).chainNext = s.chainNext := rfl
@[simp] theorem State.setCore_trowels (t : Core) : (s.setCore n t).trowels = s.trowels := rfl
@[simp] theorem State.setCore_pools (t : Core) : (s.setCore n t).pools = s.pools := rfl
@[simp] theorem State.setCore_sequences (t : Core) : (s.setCore n t).sequences = s.sequences := rfl
@[simp] theorem State.setCore_prefixes (t : Core) : (s.setCore n t).prefixes = s.prefixes := rfl
@[simp] theorem State.setCore_swaps (t : Core) : (s.setCore n t).swaps = s.swaps := rfl
@[simp] theorem State.setCore_swapTodo (t : Core) : (s.setCore n t).swapTodo = s.swapTodo := rfl
@[simp] theorem State.setCore_swapNext (t : Core) : (s.setCore n t).swapNext = s.swapNext := rfl
@[simp] theorem State.setCore_pages (t : Core) : (s.setCore n t).pages = s.pages := rfl
@[simp] theorem State.setCore_tasks (t : Core) : (s.setCore n t).tasks = s.tasks := rfl
@[simp] theorem State.setCore_launches (t : Core) : (s.setCore n t).launches = s.launches := rfl
@[simp] theorem State.setCore_parts (t : Core) : (s.setCore n t).parts = s.parts := rfl
@[simp] theorem State.setCore_flying (t : Core) : (s.setCore n t).flying = s.flying := rfl
@[simp] theorem State.setCore_rows (t : Core) : (s.setCore n t).rows = s.rows := rfl
@[simp] theorem State.setCore_notes (t : Core) : (s.setCore n t).notes = s.notes := rfl
@[simp] theorem State.setCore_atoms (t : Core) : (s.setCore n t).atoms = s.atoms := rfl
@[simp] theorem State.setCore_streams (t : Core) : (s.setCore n t).streams = s.streams := rfl
@[simp] theorem State.setCore_regs (t : Core) : (s.setCore n t).regs = s.regs := rfl
@[simp] theorem State.setCore_hostReqs (t : Core) : (s.setCore n t).hostReqs = s.hostReqs := rfl
@[simp] theorem State.setCore_hostTag (t : Core) : (s.setCore n t).hostTag = s.hostTag := rfl
@[simp] theorem State.setCore_hostOut (t : Core) : (s.setCore n t).hostOut = s.hostOut := rfl
@[simp] theorem State.setCore_devid (t : Core) : (s.setCore n t).devid = s.devid := rfl
@[simp] theorem State.setCore_members (t : Core) : (s.setCore n t).members = s.members := rfl
@[simp] theorem State.setCore_routes (t : Core) : (s.setCore n t).routes = s.routes := rfl
@[simp] theorem State.setCore_lost (t : Core) : (s.setCore n t).lost = s.lost := rfl
@[simp] theorem State.setCore_exts (t : Core) : (s.setCore n t).exts = s.exts := rfl
@[simp] theorem State.setCore_mirlens (t : Core) : (s.setCore n t).mirlens = s.mirlens := rfl
@[simp] theorem State.setCore_exports (t : Core) : (s.setCore n t).exports = s.exports := rfl
@[simp] theorem State.setCore_cnts (t : Core) : (s.setCore n t).cnts = s.cnts := rfl
@[simp] theorem State.setCore_ports (t : Core) : (s.setCore n t).ports = s.ports := rfl
@[simp] theorem State.setCore_reqs (t : Core) : (s.setCore n t).reqs = s.reqs := rfl
@[simp] theorem State.setCore_rtagNext (t : Core) : (s.setCore n t).rtagNext = s.rtagNext := rfl
@[simp] theorem State.setCore_vbufs (t : Core) : (s.setCore n t).vbufs = s.vbufs := rfl
@[simp] theorem State.setCore_peerVers (t : Core) : (s.setCore n t).peerVers = s.peerVers := rfl
@[simp] theorem State.setCore_peerLines (t : Core) : (s.setCore n t).peerLines = s.peerLines := rfl
@[simp] theorem State.setCore_shadowSent (t : Core) : (s.setCore n t).shadowSent = s.shadowSent := rfl
@[simp] theorem State.setCore_shadowNext (t : Core) : (s.setCore n t).shadowNext = s.shadowNext := rfl
@[simp] theorem State.setCore_shadowHeld (t : Core) : (s.setCore n t).shadowHeld = s.shadowHeld := rfl
@[simp] theorem State.setCore_dunOut (t : Core) : (s.setCore n t).dunOut = s.dunOut := rfl
@[simp] theorem State.setCore_i3cOut (t : Core) : (s.setCore n t).i3cOut = s.i3cOut := rfl
@[simp] theorem State.setCore_corrected (t : Core) : (s.setCore n t).corrected = s.corrected := rfl
@[simp] theorem State.setCore_badRows (t : Core) : (s.setCore n t).badRows = s.badRows := rfl
@[simp] theorem State.setCore_mgmt (t : Core) : (s.setCore n t).mgmt = s.mgmt := rfl
@[simp] theorem State.setCore_strata (t : Core) : (s.setCore n t).strata = s.strata := rfl
@[simp] theorem State.setCore_strataSeq (t : Core) : (s.setCore n t).strataSeq = s.strataSeq := rfl
@[simp] theorem State.setCore_remapped (t : Core) : (s.setCore n t).remapped = s.remapped := rfl
@[simp] theorem State.setCore_deadClusters (t : Core) : (s.setCore n t).deadClusters = s.deadClusters := rfl
@[simp] theorem State.setCore_substituted (t : Core) : (s.setCore n t).substituted = s.substituted := rfl
@[simp] theorem State.core_setCore_self (t : Core) : (s.setCore n t).core n = t := by simp [State.core]
@[simp] theorem State.setCore_setCore (t u : Core) : (s.setCore n t).setCore n u = s.setCore n u := by simp [State.setCore]
theorem State.core_setCore (t : Core) : (s.setCore n t).core m = if m = n then t else s.core m := by simp [State.core, Tbl.getD_put]
theorem State.core_setCore_ne (t : Core) (h : m ≠ n) : (s.setCore n t).core m = s.core m := by simp [State.core, Tbl.getD_put, h]
@[simp] theorem State.strand_setCore (t : Core) : (s.setCore n t).strand m = s.strand m := rfl
@[simp] theorem State.chisel_setCore (t : Core) : (s.setCore n t).chisel m = s.chisel m := rfl
@[simp] theorem State.ctx_setCore (t : Core) : (s.setCore n t).ctx m = s.ctx m := rfl
@[simp] theorem State.desc_setCore (t : Core) : (s.setCore n t).desc m = s.desc m := rfl
@[simp] theorem State.cluster_setCore (t : Core) : (s.setCore n t).cluster m = s.cluster m := rfl
@[simp] theorem State.barrier_setCore (t : Core) : (s.setCore n t).barrier m = s.barrier m := rfl
@[simp] theorem State.region_setCore (t : Core) : (s.setCore n t).region m = s.region m := rfl
@[simp] theorem State.part_setCore (t : Core) : (s.setCore n t).part m = s.part m := rfl
@[simp] theorem State.stream_setCore (t : Core) : (s.setCore n t).stream m = s.stream m := rfl
@[simp] theorem State.port_setCore (t : Core) : (s.setCore n t).port m = s.port m := rfl
@[simp] theorem State.vbuf_setCore (t : Core) : (s.setCore n t).vbuf m = s.vbuf m := rfl
@[simp] theorem State.modCore_eq (f : Core → Core) : s.modCore n f = s.setCore n (f (s.core n)) := rfl

/-! ## setChisel -/

@[simp] theorem State.setChisel_cycle (t : Chisel) : (s.setChisel n t).cycle = s.cycle := rfl
@[simp] theorem State.setChisel_agenda (t : Chisel) : (s.setChisel n t).agenda = s.agenda := rfl
@[simp] theorem State.setChisel_freeCount (t : Chisel) : (s.setChisel n t).freeCount = s.freeCount := rfl
@[simp] theorem State.setChisel_strandId (t : Chisel) : (s.setChisel n t).strandId = s.strandId := rfl
@[simp] theorem State.setChisel_ctxId (t : Chisel) : (s.setChisel n t).ctxId = s.ctxId := rfl
@[simp] theorem State.setChisel_checked (t : Chisel) : (s.setChisel n t).checked = s.checked := rfl
@[simp] theorem State.setChisel_hbm (t : Chisel) : (s.setChisel n t).hbm = s.hbm := rfl
@[simp] theorem State.setChisel_spad (t : Chisel) : (s.setChisel n t).spad = s.spad := rfl
@[simp] theorem State.setChisel_opmem (t : Chisel) : (s.setChisel n t).opmem = s.opmem := rfl
@[simp] theorem State.setChisel_accMem (t : Chisel) : (s.setChisel n t).accMem = s.accMem := rfl
@[simp] theorem State.setChisel_routineMem (t : Chisel) : (s.setChisel n t).routineMem = s.routineMem := rfl
@[simp] theorem State.setChisel_poison (t : Chisel) : (s.setChisel n t).poison = s.poison := rfl
@[simp] theorem State.setChisel_spadPoison (t : Chisel) : (s.setChisel n t).spadPoison = s.spadPoison := rfl
@[simp] theorem State.setChisel_strands (t : Chisel) : (s.setChisel n t).strands = s.strands := rfl
@[simp] theorem State.setChisel_cores (t : Chisel) : (s.setChisel n t).cores = s.cores := rfl
@[simp] theorem State.setChisel_chisels (t : Chisel) : (s.setChisel n t).chisels = Tbl.put s.chisels n t := rfl
@[simp] theorem State.setChisel_ctxs (t : Chisel) : (s.setChisel n t).ctxs = s.ctxs := rfl
@[simp] theorem State.setChisel_descs (t : Chisel) : (s.setChisel n t).descs = s.descs := rfl
@[simp] theorem State.setChisel_clusters (t : Chisel) : (s.setChisel n t).clusters = s.clusters := rfl
@[simp] theorem State.setChisel_barriers (t : Chisel) : (s.setChisel n t).barriers = s.barriers := rfl
@[simp] theorem State.setChisel_groups (t : Chisel) : (s.setChisel n t).groups = s.groups := rfl
@[simp] theorem State.setChisel_regions (t : Chisel) : (s.setChisel n t).regions = s.regions := rfl
@[simp] theorem State.setChisel_seqs (t : Chisel) : (s.setChisel n t).seqs = s.seqs := rfl
@[simp] theorem State.setChisel_ops (t : Chisel) : (s.setChisel n t).ops = s.ops := rfl
@[simp] theorem State.setChisel_opNext (t : Chisel) : (s.setChisel n t).opNext = s.opNext := rfl
@[simp] theorem State.setChisel_chains (t : Chisel) : (s.setChisel n t).chains = s.chains := rfl
@[simp] theorem State.setChisel_chainNext (t : Chisel) : (s.setChisel n t).chainNext = s.chainNext := rfl
@[simp] theorem State.setChisel_trowels (t : Chisel) : (s.setChisel n t).trowels = s.trowels := rfl
@[simp] theorem State.setChisel_pools (t : Chisel) : (s.setChisel n t).pools = s.pools := rfl
@[simp] theorem State.setChisel_sequences (t : Chisel) : (s.setChisel n t).sequences = s.sequences := rfl
@[simp] theorem State.setChisel_prefixes (t : Chisel) : (s.setChisel n t).prefixes = s.prefixes := rfl
@[simp] theorem State.setChisel_swaps (t : Chisel) : (s.setChisel n t).swaps = s.swaps := rfl
@[simp] theorem State.setChisel_swapTodo (t : Chisel) : (s.setChisel n t).swapTodo = s.swapTodo := rfl
@[simp] theorem State.setChisel_swapNext (t : Chisel) : (s.setChisel n t).swapNext = s.swapNext := rfl
@[simp] theorem State.setChisel_pages (t : Chisel) : (s.setChisel n t).pages = s.pages := rfl
@[simp] theorem State.setChisel_tasks (t : Chisel) : (s.setChisel n t).tasks = s.tasks := rfl
@[simp] theorem State.setChisel_launches (t : Chisel) : (s.setChisel n t).launches = s.launches := rfl
@[simp] theorem State.setChisel_parts (t : Chisel) : (s.setChisel n t).parts = s.parts := rfl
@[simp] theorem State.setChisel_flying (t : Chisel) : (s.setChisel n t).flying = s.flying := rfl
@[simp] theorem State.setChisel_rows (t : Chisel) : (s.setChisel n t).rows = s.rows := rfl
@[simp] theorem State.setChisel_notes (t : Chisel) : (s.setChisel n t).notes = s.notes := rfl
@[simp] theorem State.setChisel_atoms (t : Chisel) : (s.setChisel n t).atoms = s.atoms := rfl
@[simp] theorem State.setChisel_streams (t : Chisel) : (s.setChisel n t).streams = s.streams := rfl
@[simp] theorem State.setChisel_regs (t : Chisel) : (s.setChisel n t).regs = s.regs := rfl
@[simp] theorem State.setChisel_hostReqs (t : Chisel) : (s.setChisel n t).hostReqs = s.hostReqs := rfl
@[simp] theorem State.setChisel_hostTag (t : Chisel) : (s.setChisel n t).hostTag = s.hostTag := rfl
@[simp] theorem State.setChisel_hostOut (t : Chisel) : (s.setChisel n t).hostOut = s.hostOut := rfl
@[simp] theorem State.setChisel_devid (t : Chisel) : (s.setChisel n t).devid = s.devid := rfl
@[simp] theorem State.setChisel_members (t : Chisel) : (s.setChisel n t).members = s.members := rfl
@[simp] theorem State.setChisel_routes (t : Chisel) : (s.setChisel n t).routes = s.routes := rfl
@[simp] theorem State.setChisel_lost (t : Chisel) : (s.setChisel n t).lost = s.lost := rfl
@[simp] theorem State.setChisel_exts (t : Chisel) : (s.setChisel n t).exts = s.exts := rfl
@[simp] theorem State.setChisel_mirlens (t : Chisel) : (s.setChisel n t).mirlens = s.mirlens := rfl
@[simp] theorem State.setChisel_exports (t : Chisel) : (s.setChisel n t).exports = s.exports := rfl
@[simp] theorem State.setChisel_cnts (t : Chisel) : (s.setChisel n t).cnts = s.cnts := rfl
@[simp] theorem State.setChisel_ports (t : Chisel) : (s.setChisel n t).ports = s.ports := rfl
@[simp] theorem State.setChisel_reqs (t : Chisel) : (s.setChisel n t).reqs = s.reqs := rfl
@[simp] theorem State.setChisel_rtagNext (t : Chisel) : (s.setChisel n t).rtagNext = s.rtagNext := rfl
@[simp] theorem State.setChisel_vbufs (t : Chisel) : (s.setChisel n t).vbufs = s.vbufs := rfl
@[simp] theorem State.setChisel_peerVers (t : Chisel) : (s.setChisel n t).peerVers = s.peerVers := rfl
@[simp] theorem State.setChisel_peerLines (t : Chisel) : (s.setChisel n t).peerLines = s.peerLines := rfl
@[simp] theorem State.setChisel_shadowSent (t : Chisel) : (s.setChisel n t).shadowSent = s.shadowSent := rfl
@[simp] theorem State.setChisel_shadowNext (t : Chisel) : (s.setChisel n t).shadowNext = s.shadowNext := rfl
@[simp] theorem State.setChisel_shadowHeld (t : Chisel) : (s.setChisel n t).shadowHeld = s.shadowHeld := rfl
@[simp] theorem State.setChisel_dunOut (t : Chisel) : (s.setChisel n t).dunOut = s.dunOut := rfl
@[simp] theorem State.setChisel_i3cOut (t : Chisel) : (s.setChisel n t).i3cOut = s.i3cOut := rfl
@[simp] theorem State.setChisel_corrected (t : Chisel) : (s.setChisel n t).corrected = s.corrected := rfl
@[simp] theorem State.setChisel_badRows (t : Chisel) : (s.setChisel n t).badRows = s.badRows := rfl
@[simp] theorem State.setChisel_mgmt (t : Chisel) : (s.setChisel n t).mgmt = s.mgmt := rfl
@[simp] theorem State.setChisel_strata (t : Chisel) : (s.setChisel n t).strata = s.strata := rfl
@[simp] theorem State.setChisel_strataSeq (t : Chisel) : (s.setChisel n t).strataSeq = s.strataSeq := rfl
@[simp] theorem State.setChisel_remapped (t : Chisel) : (s.setChisel n t).remapped = s.remapped := rfl
@[simp] theorem State.setChisel_deadClusters (t : Chisel) : (s.setChisel n t).deadClusters = s.deadClusters := rfl
@[simp] theorem State.setChisel_substituted (t : Chisel) : (s.setChisel n t).substituted = s.substituted := rfl
@[simp] theorem State.chisel_setChisel_self (t : Chisel) : (s.setChisel n t).chisel n = t := by simp [State.chisel]
@[simp] theorem State.setChisel_setChisel (t u : Chisel) : (s.setChisel n t).setChisel n u = s.setChisel n u := by simp [State.setChisel]
theorem State.chisel_setChisel (t : Chisel) : (s.setChisel n t).chisel m = if m = n then t else s.chisel m := by simp [State.chisel, Tbl.getD_put]
theorem State.chisel_setChisel_ne (t : Chisel) (h : m ≠ n) : (s.setChisel n t).chisel m = s.chisel m := by simp [State.chisel, Tbl.getD_put, h]
@[simp] theorem State.strand_setChisel (t : Chisel) : (s.setChisel n t).strand m = s.strand m := rfl
@[simp] theorem State.core_setChisel (t : Chisel) : (s.setChisel n t).core m = s.core m := rfl
@[simp] theorem State.ctx_setChisel (t : Chisel) : (s.setChisel n t).ctx m = s.ctx m := rfl
@[simp] theorem State.desc_setChisel (t : Chisel) : (s.setChisel n t).desc m = s.desc m := rfl
@[simp] theorem State.cluster_setChisel (t : Chisel) : (s.setChisel n t).cluster m = s.cluster m := rfl
@[simp] theorem State.barrier_setChisel (t : Chisel) : (s.setChisel n t).barrier m = s.barrier m := rfl
@[simp] theorem State.region_setChisel (t : Chisel) : (s.setChisel n t).region m = s.region m := rfl
@[simp] theorem State.part_setChisel (t : Chisel) : (s.setChisel n t).part m = s.part m := rfl
@[simp] theorem State.stream_setChisel (t : Chisel) : (s.setChisel n t).stream m = s.stream m := rfl
@[simp] theorem State.port_setChisel (t : Chisel) : (s.setChisel n t).port m = s.port m := rfl
@[simp] theorem State.vbuf_setChisel (t : Chisel) : (s.setChisel n t).vbuf m = s.vbuf m := rfl
@[simp] theorem State.modChisel_eq (f : Chisel → Chisel) : s.modChisel n f = s.setChisel n (f (s.chisel n)) := rfl

/-! ## setCtx -/

@[simp] theorem State.setCtx_cycle (t : Ctx) : (s.setCtx n t).cycle = s.cycle := rfl
@[simp] theorem State.setCtx_agenda (t : Ctx) : (s.setCtx n t).agenda = s.agenda := rfl
@[simp] theorem State.setCtx_freeCount (t : Ctx) : (s.setCtx n t).freeCount = s.freeCount := rfl
@[simp] theorem State.setCtx_strandId (t : Ctx) : (s.setCtx n t).strandId = s.strandId := rfl
@[simp] theorem State.setCtx_ctxId (t : Ctx) : (s.setCtx n t).ctxId = s.ctxId := rfl
@[simp] theorem State.setCtx_checked (t : Ctx) : (s.setCtx n t).checked = s.checked := rfl
@[simp] theorem State.setCtx_hbm (t : Ctx) : (s.setCtx n t).hbm = s.hbm := rfl
@[simp] theorem State.setCtx_spad (t : Ctx) : (s.setCtx n t).spad = s.spad := rfl
@[simp] theorem State.setCtx_opmem (t : Ctx) : (s.setCtx n t).opmem = s.opmem := rfl
@[simp] theorem State.setCtx_accMem (t : Ctx) : (s.setCtx n t).accMem = s.accMem := rfl
@[simp] theorem State.setCtx_routineMem (t : Ctx) : (s.setCtx n t).routineMem = s.routineMem := rfl
@[simp] theorem State.setCtx_poison (t : Ctx) : (s.setCtx n t).poison = s.poison := rfl
@[simp] theorem State.setCtx_spadPoison (t : Ctx) : (s.setCtx n t).spadPoison = s.spadPoison := rfl
@[simp] theorem State.setCtx_strands (t : Ctx) : (s.setCtx n t).strands = s.strands := rfl
@[simp] theorem State.setCtx_cores (t : Ctx) : (s.setCtx n t).cores = s.cores := rfl
@[simp] theorem State.setCtx_chisels (t : Ctx) : (s.setCtx n t).chisels = s.chisels := rfl
@[simp] theorem State.setCtx_ctxs (t : Ctx) : (s.setCtx n t).ctxs = Tbl.put s.ctxs n t := rfl
@[simp] theorem State.setCtx_descs (t : Ctx) : (s.setCtx n t).descs = s.descs := rfl
@[simp] theorem State.setCtx_clusters (t : Ctx) : (s.setCtx n t).clusters = s.clusters := rfl
@[simp] theorem State.setCtx_barriers (t : Ctx) : (s.setCtx n t).barriers = s.barriers := rfl
@[simp] theorem State.setCtx_groups (t : Ctx) : (s.setCtx n t).groups = s.groups := rfl
@[simp] theorem State.setCtx_regions (t : Ctx) : (s.setCtx n t).regions = s.regions := rfl
@[simp] theorem State.setCtx_seqs (t : Ctx) : (s.setCtx n t).seqs = s.seqs := rfl
@[simp] theorem State.setCtx_ops (t : Ctx) : (s.setCtx n t).ops = s.ops := rfl
@[simp] theorem State.setCtx_opNext (t : Ctx) : (s.setCtx n t).opNext = s.opNext := rfl
@[simp] theorem State.setCtx_chains (t : Ctx) : (s.setCtx n t).chains = s.chains := rfl
@[simp] theorem State.setCtx_chainNext (t : Ctx) : (s.setCtx n t).chainNext = s.chainNext := rfl
@[simp] theorem State.setCtx_trowels (t : Ctx) : (s.setCtx n t).trowels = s.trowels := rfl
@[simp] theorem State.setCtx_pools (t : Ctx) : (s.setCtx n t).pools = s.pools := rfl
@[simp] theorem State.setCtx_sequences (t : Ctx) : (s.setCtx n t).sequences = s.sequences := rfl
@[simp] theorem State.setCtx_prefixes (t : Ctx) : (s.setCtx n t).prefixes = s.prefixes := rfl
@[simp] theorem State.setCtx_swaps (t : Ctx) : (s.setCtx n t).swaps = s.swaps := rfl
@[simp] theorem State.setCtx_swapTodo (t : Ctx) : (s.setCtx n t).swapTodo = s.swapTodo := rfl
@[simp] theorem State.setCtx_swapNext (t : Ctx) : (s.setCtx n t).swapNext = s.swapNext := rfl
@[simp] theorem State.setCtx_pages (t : Ctx) : (s.setCtx n t).pages = s.pages := rfl
@[simp] theorem State.setCtx_tasks (t : Ctx) : (s.setCtx n t).tasks = s.tasks := rfl
@[simp] theorem State.setCtx_launches (t : Ctx) : (s.setCtx n t).launches = s.launches := rfl
@[simp] theorem State.setCtx_parts (t : Ctx) : (s.setCtx n t).parts = s.parts := rfl
@[simp] theorem State.setCtx_flying (t : Ctx) : (s.setCtx n t).flying = s.flying := rfl
@[simp] theorem State.setCtx_rows (t : Ctx) : (s.setCtx n t).rows = s.rows := rfl
@[simp] theorem State.setCtx_notes (t : Ctx) : (s.setCtx n t).notes = s.notes := rfl
@[simp] theorem State.setCtx_atoms (t : Ctx) : (s.setCtx n t).atoms = s.atoms := rfl
@[simp] theorem State.setCtx_streams (t : Ctx) : (s.setCtx n t).streams = s.streams := rfl
@[simp] theorem State.setCtx_regs (t : Ctx) : (s.setCtx n t).regs = s.regs := rfl
@[simp] theorem State.setCtx_hostReqs (t : Ctx) : (s.setCtx n t).hostReqs = s.hostReqs := rfl
@[simp] theorem State.setCtx_hostTag (t : Ctx) : (s.setCtx n t).hostTag = s.hostTag := rfl
@[simp] theorem State.setCtx_hostOut (t : Ctx) : (s.setCtx n t).hostOut = s.hostOut := rfl
@[simp] theorem State.setCtx_devid (t : Ctx) : (s.setCtx n t).devid = s.devid := rfl
@[simp] theorem State.setCtx_members (t : Ctx) : (s.setCtx n t).members = s.members := rfl
@[simp] theorem State.setCtx_routes (t : Ctx) : (s.setCtx n t).routes = s.routes := rfl
@[simp] theorem State.setCtx_lost (t : Ctx) : (s.setCtx n t).lost = s.lost := rfl
@[simp] theorem State.setCtx_exts (t : Ctx) : (s.setCtx n t).exts = s.exts := rfl
@[simp] theorem State.setCtx_mirlens (t : Ctx) : (s.setCtx n t).mirlens = s.mirlens := rfl
@[simp] theorem State.setCtx_exports (t : Ctx) : (s.setCtx n t).exports = s.exports := rfl
@[simp] theorem State.setCtx_cnts (t : Ctx) : (s.setCtx n t).cnts = s.cnts := rfl
@[simp] theorem State.setCtx_ports (t : Ctx) : (s.setCtx n t).ports = s.ports := rfl
@[simp] theorem State.setCtx_reqs (t : Ctx) : (s.setCtx n t).reqs = s.reqs := rfl
@[simp] theorem State.setCtx_rtagNext (t : Ctx) : (s.setCtx n t).rtagNext = s.rtagNext := rfl
@[simp] theorem State.setCtx_vbufs (t : Ctx) : (s.setCtx n t).vbufs = s.vbufs := rfl
@[simp] theorem State.setCtx_peerVers (t : Ctx) : (s.setCtx n t).peerVers = s.peerVers := rfl
@[simp] theorem State.setCtx_peerLines (t : Ctx) : (s.setCtx n t).peerLines = s.peerLines := rfl
@[simp] theorem State.setCtx_shadowSent (t : Ctx) : (s.setCtx n t).shadowSent = s.shadowSent := rfl
@[simp] theorem State.setCtx_shadowNext (t : Ctx) : (s.setCtx n t).shadowNext = s.shadowNext := rfl
@[simp] theorem State.setCtx_shadowHeld (t : Ctx) : (s.setCtx n t).shadowHeld = s.shadowHeld := rfl
@[simp] theorem State.setCtx_dunOut (t : Ctx) : (s.setCtx n t).dunOut = s.dunOut := rfl
@[simp] theorem State.setCtx_i3cOut (t : Ctx) : (s.setCtx n t).i3cOut = s.i3cOut := rfl
@[simp] theorem State.setCtx_corrected (t : Ctx) : (s.setCtx n t).corrected = s.corrected := rfl
@[simp] theorem State.setCtx_badRows (t : Ctx) : (s.setCtx n t).badRows = s.badRows := rfl
@[simp] theorem State.setCtx_mgmt (t : Ctx) : (s.setCtx n t).mgmt = s.mgmt := rfl
@[simp] theorem State.setCtx_strata (t : Ctx) : (s.setCtx n t).strata = s.strata := rfl
@[simp] theorem State.setCtx_strataSeq (t : Ctx) : (s.setCtx n t).strataSeq = s.strataSeq := rfl
@[simp] theorem State.setCtx_remapped (t : Ctx) : (s.setCtx n t).remapped = s.remapped := rfl
@[simp] theorem State.setCtx_deadClusters (t : Ctx) : (s.setCtx n t).deadClusters = s.deadClusters := rfl
@[simp] theorem State.setCtx_substituted (t : Ctx) : (s.setCtx n t).substituted = s.substituted := rfl
@[simp] theorem State.ctx_setCtx_self (t : Ctx) : (s.setCtx n t).ctx n = t := by simp [State.ctx]
@[simp] theorem State.setCtx_setCtx (t u : Ctx) : (s.setCtx n t).setCtx n u = s.setCtx n u := by simp [State.setCtx]
theorem State.ctx_setCtx (t : Ctx) : (s.setCtx n t).ctx m = if m = n then t else s.ctx m := by simp [State.ctx, Tbl.getD_put]
theorem State.ctx_setCtx_ne (t : Ctx) (h : m ≠ n) : (s.setCtx n t).ctx m = s.ctx m := by simp [State.ctx, Tbl.getD_put, h]
@[simp] theorem State.strand_setCtx (t : Ctx) : (s.setCtx n t).strand m = s.strand m := rfl
@[simp] theorem State.core_setCtx (t : Ctx) : (s.setCtx n t).core m = s.core m := rfl
@[simp] theorem State.chisel_setCtx (t : Ctx) : (s.setCtx n t).chisel m = s.chisel m := rfl
@[simp] theorem State.desc_setCtx (t : Ctx) : (s.setCtx n t).desc m = s.desc m := rfl
@[simp] theorem State.cluster_setCtx (t : Ctx) : (s.setCtx n t).cluster m = s.cluster m := rfl
@[simp] theorem State.barrier_setCtx (t : Ctx) : (s.setCtx n t).barrier m = s.barrier m := rfl
@[simp] theorem State.region_setCtx (t : Ctx) : (s.setCtx n t).region m = s.region m := rfl
@[simp] theorem State.part_setCtx (t : Ctx) : (s.setCtx n t).part m = s.part m := rfl
@[simp] theorem State.stream_setCtx (t : Ctx) : (s.setCtx n t).stream m = s.stream m := rfl
@[simp] theorem State.port_setCtx (t : Ctx) : (s.setCtx n t).port m = s.port m := rfl
@[simp] theorem State.vbuf_setCtx (t : Ctx) : (s.setCtx n t).vbuf m = s.vbuf m := rfl
@[simp] theorem State.modCtx_eq (f : Ctx → Ctx) : s.modCtx n f = s.setCtx n (f (s.ctx n)) := rfl

/-! ## setDesc -/

@[simp] theorem State.setDesc_cycle (t : Desc) : (s.setDesc n t).cycle = s.cycle := rfl
@[simp] theorem State.setDesc_agenda (t : Desc) : (s.setDesc n t).agenda = s.agenda := rfl
@[simp] theorem State.setDesc_freeCount (t : Desc) : (s.setDesc n t).freeCount = s.freeCount := rfl
@[simp] theorem State.setDesc_strandId (t : Desc) : (s.setDesc n t).strandId = s.strandId := rfl
@[simp] theorem State.setDesc_ctxId (t : Desc) : (s.setDesc n t).ctxId = s.ctxId := rfl
@[simp] theorem State.setDesc_checked (t : Desc) : (s.setDesc n t).checked = s.checked := rfl
@[simp] theorem State.setDesc_hbm (t : Desc) : (s.setDesc n t).hbm = s.hbm := rfl
@[simp] theorem State.setDesc_spad (t : Desc) : (s.setDesc n t).spad = s.spad := rfl
@[simp] theorem State.setDesc_opmem (t : Desc) : (s.setDesc n t).opmem = s.opmem := rfl
@[simp] theorem State.setDesc_accMem (t : Desc) : (s.setDesc n t).accMem = s.accMem := rfl
@[simp] theorem State.setDesc_routineMem (t : Desc) : (s.setDesc n t).routineMem = s.routineMem := rfl
@[simp] theorem State.setDesc_poison (t : Desc) : (s.setDesc n t).poison = s.poison := rfl
@[simp] theorem State.setDesc_spadPoison (t : Desc) : (s.setDesc n t).spadPoison = s.spadPoison := rfl
@[simp] theorem State.setDesc_strands (t : Desc) : (s.setDesc n t).strands = s.strands := rfl
@[simp] theorem State.setDesc_cores (t : Desc) : (s.setDesc n t).cores = s.cores := rfl
@[simp] theorem State.setDesc_chisels (t : Desc) : (s.setDesc n t).chisels = s.chisels := rfl
@[simp] theorem State.setDesc_ctxs (t : Desc) : (s.setDesc n t).ctxs = s.ctxs := rfl
@[simp] theorem State.setDesc_descs (t : Desc) : (s.setDesc n t).descs = Tbl.put s.descs n t := rfl
@[simp] theorem State.setDesc_clusters (t : Desc) : (s.setDesc n t).clusters = s.clusters := rfl
@[simp] theorem State.setDesc_barriers (t : Desc) : (s.setDesc n t).barriers = s.barriers := rfl
@[simp] theorem State.setDesc_groups (t : Desc) : (s.setDesc n t).groups = s.groups := rfl
@[simp] theorem State.setDesc_regions (t : Desc) : (s.setDesc n t).regions = s.regions := rfl
@[simp] theorem State.setDesc_seqs (t : Desc) : (s.setDesc n t).seqs = s.seqs := rfl
@[simp] theorem State.setDesc_ops (t : Desc) : (s.setDesc n t).ops = s.ops := rfl
@[simp] theorem State.setDesc_opNext (t : Desc) : (s.setDesc n t).opNext = s.opNext := rfl
@[simp] theorem State.setDesc_chains (t : Desc) : (s.setDesc n t).chains = s.chains := rfl
@[simp] theorem State.setDesc_chainNext (t : Desc) : (s.setDesc n t).chainNext = s.chainNext := rfl
@[simp] theorem State.setDesc_trowels (t : Desc) : (s.setDesc n t).trowels = s.trowels := rfl
@[simp] theorem State.setDesc_pools (t : Desc) : (s.setDesc n t).pools = s.pools := rfl
@[simp] theorem State.setDesc_sequences (t : Desc) : (s.setDesc n t).sequences = s.sequences := rfl
@[simp] theorem State.setDesc_prefixes (t : Desc) : (s.setDesc n t).prefixes = s.prefixes := rfl
@[simp] theorem State.setDesc_swaps (t : Desc) : (s.setDesc n t).swaps = s.swaps := rfl
@[simp] theorem State.setDesc_swapTodo (t : Desc) : (s.setDesc n t).swapTodo = s.swapTodo := rfl
@[simp] theorem State.setDesc_swapNext (t : Desc) : (s.setDesc n t).swapNext = s.swapNext := rfl
@[simp] theorem State.setDesc_pages (t : Desc) : (s.setDesc n t).pages = s.pages := rfl
@[simp] theorem State.setDesc_tasks (t : Desc) : (s.setDesc n t).tasks = s.tasks := rfl
@[simp] theorem State.setDesc_launches (t : Desc) : (s.setDesc n t).launches = s.launches := rfl
@[simp] theorem State.setDesc_parts (t : Desc) : (s.setDesc n t).parts = s.parts := rfl
@[simp] theorem State.setDesc_flying (t : Desc) : (s.setDesc n t).flying = s.flying := rfl
@[simp] theorem State.setDesc_rows (t : Desc) : (s.setDesc n t).rows = s.rows := rfl
@[simp] theorem State.setDesc_notes (t : Desc) : (s.setDesc n t).notes = s.notes := rfl
@[simp] theorem State.setDesc_atoms (t : Desc) : (s.setDesc n t).atoms = s.atoms := rfl
@[simp] theorem State.setDesc_streams (t : Desc) : (s.setDesc n t).streams = s.streams := rfl
@[simp] theorem State.setDesc_regs (t : Desc) : (s.setDesc n t).regs = s.regs := rfl
@[simp] theorem State.setDesc_hostReqs (t : Desc) : (s.setDesc n t).hostReqs = s.hostReqs := rfl
@[simp] theorem State.setDesc_hostTag (t : Desc) : (s.setDesc n t).hostTag = s.hostTag := rfl
@[simp] theorem State.setDesc_hostOut (t : Desc) : (s.setDesc n t).hostOut = s.hostOut := rfl
@[simp] theorem State.setDesc_devid (t : Desc) : (s.setDesc n t).devid = s.devid := rfl
@[simp] theorem State.setDesc_members (t : Desc) : (s.setDesc n t).members = s.members := rfl
@[simp] theorem State.setDesc_routes (t : Desc) : (s.setDesc n t).routes = s.routes := rfl
@[simp] theorem State.setDesc_lost (t : Desc) : (s.setDesc n t).lost = s.lost := rfl
@[simp] theorem State.setDesc_exts (t : Desc) : (s.setDesc n t).exts = s.exts := rfl
@[simp] theorem State.setDesc_mirlens (t : Desc) : (s.setDesc n t).mirlens = s.mirlens := rfl
@[simp] theorem State.setDesc_exports (t : Desc) : (s.setDesc n t).exports = s.exports := rfl
@[simp] theorem State.setDesc_cnts (t : Desc) : (s.setDesc n t).cnts = s.cnts := rfl
@[simp] theorem State.setDesc_ports (t : Desc) : (s.setDesc n t).ports = s.ports := rfl
@[simp] theorem State.setDesc_reqs (t : Desc) : (s.setDesc n t).reqs = s.reqs := rfl
@[simp] theorem State.setDesc_rtagNext (t : Desc) : (s.setDesc n t).rtagNext = s.rtagNext := rfl
@[simp] theorem State.setDesc_vbufs (t : Desc) : (s.setDesc n t).vbufs = s.vbufs := rfl
@[simp] theorem State.setDesc_peerVers (t : Desc) : (s.setDesc n t).peerVers = s.peerVers := rfl
@[simp] theorem State.setDesc_peerLines (t : Desc) : (s.setDesc n t).peerLines = s.peerLines := rfl
@[simp] theorem State.setDesc_shadowSent (t : Desc) : (s.setDesc n t).shadowSent = s.shadowSent := rfl
@[simp] theorem State.setDesc_shadowNext (t : Desc) : (s.setDesc n t).shadowNext = s.shadowNext := rfl
@[simp] theorem State.setDesc_shadowHeld (t : Desc) : (s.setDesc n t).shadowHeld = s.shadowHeld := rfl
@[simp] theorem State.setDesc_dunOut (t : Desc) : (s.setDesc n t).dunOut = s.dunOut := rfl
@[simp] theorem State.setDesc_i3cOut (t : Desc) : (s.setDesc n t).i3cOut = s.i3cOut := rfl
@[simp] theorem State.setDesc_corrected (t : Desc) : (s.setDesc n t).corrected = s.corrected := rfl
@[simp] theorem State.setDesc_badRows (t : Desc) : (s.setDesc n t).badRows = s.badRows := rfl
@[simp] theorem State.setDesc_mgmt (t : Desc) : (s.setDesc n t).mgmt = s.mgmt := rfl
@[simp] theorem State.setDesc_strata (t : Desc) : (s.setDesc n t).strata = s.strata := rfl
@[simp] theorem State.setDesc_strataSeq (t : Desc) : (s.setDesc n t).strataSeq = s.strataSeq := rfl
@[simp] theorem State.setDesc_remapped (t : Desc) : (s.setDesc n t).remapped = s.remapped := rfl
@[simp] theorem State.setDesc_deadClusters (t : Desc) : (s.setDesc n t).deadClusters = s.deadClusters := rfl
@[simp] theorem State.setDesc_substituted (t : Desc) : (s.setDesc n t).substituted = s.substituted := rfl
@[simp] theorem State.desc_setDesc_self (t : Desc) : (s.setDesc n t).desc n = t := by simp [State.desc]
@[simp] theorem State.setDesc_setDesc (t u : Desc) : (s.setDesc n t).setDesc n u = s.setDesc n u := by simp [State.setDesc]
theorem State.desc_setDesc (t : Desc) : (s.setDesc n t).desc m = if m = n then t else s.desc m := by simp [State.desc, Tbl.getD_put]
theorem State.desc_setDesc_ne (t : Desc) (h : m ≠ n) : (s.setDesc n t).desc m = s.desc m := by simp [State.desc, Tbl.getD_put, h]
@[simp] theorem State.strand_setDesc (t : Desc) : (s.setDesc n t).strand m = s.strand m := rfl
@[simp] theorem State.core_setDesc (t : Desc) : (s.setDesc n t).core m = s.core m := rfl
@[simp] theorem State.chisel_setDesc (t : Desc) : (s.setDesc n t).chisel m = s.chisel m := rfl
@[simp] theorem State.ctx_setDesc (t : Desc) : (s.setDesc n t).ctx m = s.ctx m := rfl
@[simp] theorem State.cluster_setDesc (t : Desc) : (s.setDesc n t).cluster m = s.cluster m := rfl
@[simp] theorem State.barrier_setDesc (t : Desc) : (s.setDesc n t).barrier m = s.barrier m := rfl
@[simp] theorem State.region_setDesc (t : Desc) : (s.setDesc n t).region m = s.region m := rfl
@[simp] theorem State.part_setDesc (t : Desc) : (s.setDesc n t).part m = s.part m := rfl
@[simp] theorem State.stream_setDesc (t : Desc) : (s.setDesc n t).stream m = s.stream m := rfl
@[simp] theorem State.port_setDesc (t : Desc) : (s.setDesc n t).port m = s.port m := rfl
@[simp] theorem State.vbuf_setDesc (t : Desc) : (s.setDesc n t).vbuf m = s.vbuf m := rfl
@[simp] theorem State.modDesc_eq (f : Desc → Desc) : s.modDesc n f = s.setDesc n (f (s.desc n)) := rfl

/-! ## setCluster -/

@[simp] theorem State.setCluster_cycle (t : Cluster) : (s.setCluster n t).cycle = s.cycle := rfl
@[simp] theorem State.setCluster_agenda (t : Cluster) : (s.setCluster n t).agenda = s.agenda := rfl
@[simp] theorem State.setCluster_freeCount (t : Cluster) : (s.setCluster n t).freeCount = s.freeCount := rfl
@[simp] theorem State.setCluster_strandId (t : Cluster) : (s.setCluster n t).strandId = s.strandId := rfl
@[simp] theorem State.setCluster_ctxId (t : Cluster) : (s.setCluster n t).ctxId = s.ctxId := rfl
@[simp] theorem State.setCluster_checked (t : Cluster) : (s.setCluster n t).checked = s.checked := rfl
@[simp] theorem State.setCluster_hbm (t : Cluster) : (s.setCluster n t).hbm = s.hbm := rfl
@[simp] theorem State.setCluster_spad (t : Cluster) : (s.setCluster n t).spad = s.spad := rfl
@[simp] theorem State.setCluster_opmem (t : Cluster) : (s.setCluster n t).opmem = s.opmem := rfl
@[simp] theorem State.setCluster_accMem (t : Cluster) : (s.setCluster n t).accMem = s.accMem := rfl
@[simp] theorem State.setCluster_routineMem (t : Cluster) : (s.setCluster n t).routineMem = s.routineMem := rfl
@[simp] theorem State.setCluster_poison (t : Cluster) : (s.setCluster n t).poison = s.poison := rfl
@[simp] theorem State.setCluster_spadPoison (t : Cluster) : (s.setCluster n t).spadPoison = s.spadPoison := rfl
@[simp] theorem State.setCluster_strands (t : Cluster) : (s.setCluster n t).strands = s.strands := rfl
@[simp] theorem State.setCluster_cores (t : Cluster) : (s.setCluster n t).cores = s.cores := rfl
@[simp] theorem State.setCluster_chisels (t : Cluster) : (s.setCluster n t).chisels = s.chisels := rfl
@[simp] theorem State.setCluster_ctxs (t : Cluster) : (s.setCluster n t).ctxs = s.ctxs := rfl
@[simp] theorem State.setCluster_descs (t : Cluster) : (s.setCluster n t).descs = s.descs := rfl
@[simp] theorem State.setCluster_clusters (t : Cluster) : (s.setCluster n t).clusters = Tbl.put s.clusters n t := rfl
@[simp] theorem State.setCluster_barriers (t : Cluster) : (s.setCluster n t).barriers = s.barriers := rfl
@[simp] theorem State.setCluster_groups (t : Cluster) : (s.setCluster n t).groups = s.groups := rfl
@[simp] theorem State.setCluster_regions (t : Cluster) : (s.setCluster n t).regions = s.regions := rfl
@[simp] theorem State.setCluster_seqs (t : Cluster) : (s.setCluster n t).seqs = s.seqs := rfl
@[simp] theorem State.setCluster_ops (t : Cluster) : (s.setCluster n t).ops = s.ops := rfl
@[simp] theorem State.setCluster_opNext (t : Cluster) : (s.setCluster n t).opNext = s.opNext := rfl
@[simp] theorem State.setCluster_chains (t : Cluster) : (s.setCluster n t).chains = s.chains := rfl
@[simp] theorem State.setCluster_chainNext (t : Cluster) : (s.setCluster n t).chainNext = s.chainNext := rfl
@[simp] theorem State.setCluster_trowels (t : Cluster) : (s.setCluster n t).trowels = s.trowels := rfl
@[simp] theorem State.setCluster_pools (t : Cluster) : (s.setCluster n t).pools = s.pools := rfl
@[simp] theorem State.setCluster_sequences (t : Cluster) : (s.setCluster n t).sequences = s.sequences := rfl
@[simp] theorem State.setCluster_prefixes (t : Cluster) : (s.setCluster n t).prefixes = s.prefixes := rfl
@[simp] theorem State.setCluster_swaps (t : Cluster) : (s.setCluster n t).swaps = s.swaps := rfl
@[simp] theorem State.setCluster_swapTodo (t : Cluster) : (s.setCluster n t).swapTodo = s.swapTodo := rfl
@[simp] theorem State.setCluster_swapNext (t : Cluster) : (s.setCluster n t).swapNext = s.swapNext := rfl
@[simp] theorem State.setCluster_pages (t : Cluster) : (s.setCluster n t).pages = s.pages := rfl
@[simp] theorem State.setCluster_tasks (t : Cluster) : (s.setCluster n t).tasks = s.tasks := rfl
@[simp] theorem State.setCluster_launches (t : Cluster) : (s.setCluster n t).launches = s.launches := rfl
@[simp] theorem State.setCluster_parts (t : Cluster) : (s.setCluster n t).parts = s.parts := rfl
@[simp] theorem State.setCluster_flying (t : Cluster) : (s.setCluster n t).flying = s.flying := rfl
@[simp] theorem State.setCluster_rows (t : Cluster) : (s.setCluster n t).rows = s.rows := rfl
@[simp] theorem State.setCluster_notes (t : Cluster) : (s.setCluster n t).notes = s.notes := rfl
@[simp] theorem State.setCluster_atoms (t : Cluster) : (s.setCluster n t).atoms = s.atoms := rfl
@[simp] theorem State.setCluster_streams (t : Cluster) : (s.setCluster n t).streams = s.streams := rfl
@[simp] theorem State.setCluster_regs (t : Cluster) : (s.setCluster n t).regs = s.regs := rfl
@[simp] theorem State.setCluster_hostReqs (t : Cluster) : (s.setCluster n t).hostReqs = s.hostReqs := rfl
@[simp] theorem State.setCluster_hostTag (t : Cluster) : (s.setCluster n t).hostTag = s.hostTag := rfl
@[simp] theorem State.setCluster_hostOut (t : Cluster) : (s.setCluster n t).hostOut = s.hostOut := rfl
@[simp] theorem State.setCluster_devid (t : Cluster) : (s.setCluster n t).devid = s.devid := rfl
@[simp] theorem State.setCluster_members (t : Cluster) : (s.setCluster n t).members = s.members := rfl
@[simp] theorem State.setCluster_routes (t : Cluster) : (s.setCluster n t).routes = s.routes := rfl
@[simp] theorem State.setCluster_lost (t : Cluster) : (s.setCluster n t).lost = s.lost := rfl
@[simp] theorem State.setCluster_exts (t : Cluster) : (s.setCluster n t).exts = s.exts := rfl
@[simp] theorem State.setCluster_mirlens (t : Cluster) : (s.setCluster n t).mirlens = s.mirlens := rfl
@[simp] theorem State.setCluster_exports (t : Cluster) : (s.setCluster n t).exports = s.exports := rfl
@[simp] theorem State.setCluster_cnts (t : Cluster) : (s.setCluster n t).cnts = s.cnts := rfl
@[simp] theorem State.setCluster_ports (t : Cluster) : (s.setCluster n t).ports = s.ports := rfl
@[simp] theorem State.setCluster_reqs (t : Cluster) : (s.setCluster n t).reqs = s.reqs := rfl
@[simp] theorem State.setCluster_rtagNext (t : Cluster) : (s.setCluster n t).rtagNext = s.rtagNext := rfl
@[simp] theorem State.setCluster_vbufs (t : Cluster) : (s.setCluster n t).vbufs = s.vbufs := rfl
@[simp] theorem State.setCluster_peerVers (t : Cluster) : (s.setCluster n t).peerVers = s.peerVers := rfl
@[simp] theorem State.setCluster_peerLines (t : Cluster) : (s.setCluster n t).peerLines = s.peerLines := rfl
@[simp] theorem State.setCluster_shadowSent (t : Cluster) : (s.setCluster n t).shadowSent = s.shadowSent := rfl
@[simp] theorem State.setCluster_shadowNext (t : Cluster) : (s.setCluster n t).shadowNext = s.shadowNext := rfl
@[simp] theorem State.setCluster_shadowHeld (t : Cluster) : (s.setCluster n t).shadowHeld = s.shadowHeld := rfl
@[simp] theorem State.setCluster_dunOut (t : Cluster) : (s.setCluster n t).dunOut = s.dunOut := rfl
@[simp] theorem State.setCluster_i3cOut (t : Cluster) : (s.setCluster n t).i3cOut = s.i3cOut := rfl
@[simp] theorem State.setCluster_corrected (t : Cluster) : (s.setCluster n t).corrected = s.corrected := rfl
@[simp] theorem State.setCluster_badRows (t : Cluster) : (s.setCluster n t).badRows = s.badRows := rfl
@[simp] theorem State.setCluster_mgmt (t : Cluster) : (s.setCluster n t).mgmt = s.mgmt := rfl
@[simp] theorem State.setCluster_strata (t : Cluster) : (s.setCluster n t).strata = s.strata := rfl
@[simp] theorem State.setCluster_strataSeq (t : Cluster) : (s.setCluster n t).strataSeq = s.strataSeq := rfl
@[simp] theorem State.setCluster_remapped (t : Cluster) : (s.setCluster n t).remapped = s.remapped := rfl
@[simp] theorem State.setCluster_deadClusters (t : Cluster) : (s.setCluster n t).deadClusters = s.deadClusters := rfl
@[simp] theorem State.setCluster_substituted (t : Cluster) : (s.setCluster n t).substituted = s.substituted := rfl
@[simp] theorem State.cluster_setCluster_self (t : Cluster) : (s.setCluster n t).cluster n = t := by simp [State.cluster]
@[simp] theorem State.setCluster_setCluster (t u : Cluster) : (s.setCluster n t).setCluster n u = s.setCluster n u := by simp [State.setCluster]
theorem State.cluster_setCluster (t : Cluster) : (s.setCluster n t).cluster m = if m = n then t else s.cluster m := by simp [State.cluster, Tbl.getD_put]
theorem State.cluster_setCluster_ne (t : Cluster) (h : m ≠ n) : (s.setCluster n t).cluster m = s.cluster m := by simp [State.cluster, Tbl.getD_put, h]
@[simp] theorem State.strand_setCluster (t : Cluster) : (s.setCluster n t).strand m = s.strand m := rfl
@[simp] theorem State.core_setCluster (t : Cluster) : (s.setCluster n t).core m = s.core m := rfl
@[simp] theorem State.chisel_setCluster (t : Cluster) : (s.setCluster n t).chisel m = s.chisel m := rfl
@[simp] theorem State.ctx_setCluster (t : Cluster) : (s.setCluster n t).ctx m = s.ctx m := rfl
@[simp] theorem State.desc_setCluster (t : Cluster) : (s.setCluster n t).desc m = s.desc m := rfl
@[simp] theorem State.barrier_setCluster (t : Cluster) : (s.setCluster n t).barrier m = s.barrier m := rfl
@[simp] theorem State.region_setCluster (t : Cluster) : (s.setCluster n t).region m = s.region m := rfl
@[simp] theorem State.part_setCluster (t : Cluster) : (s.setCluster n t).part m = s.part m := rfl
@[simp] theorem State.stream_setCluster (t : Cluster) : (s.setCluster n t).stream m = s.stream m := rfl
@[simp] theorem State.port_setCluster (t : Cluster) : (s.setCluster n t).port m = s.port m := rfl
@[simp] theorem State.vbuf_setCluster (t : Cluster) : (s.setCluster n t).vbuf m = s.vbuf m := rfl
@[simp] theorem State.modCluster_eq (f : Cluster → Cluster) : s.modCluster n f = s.setCluster n (f (s.cluster n)) := rfl

/-! ## setBarrier -/

@[simp] theorem State.setBarrier_cycle (t : Barrier) : (s.setBarrier n t).cycle = s.cycle := rfl
@[simp] theorem State.setBarrier_agenda (t : Barrier) : (s.setBarrier n t).agenda = s.agenda := rfl
@[simp] theorem State.setBarrier_freeCount (t : Barrier) : (s.setBarrier n t).freeCount = s.freeCount := rfl
@[simp] theorem State.setBarrier_strandId (t : Barrier) : (s.setBarrier n t).strandId = s.strandId := rfl
@[simp] theorem State.setBarrier_ctxId (t : Barrier) : (s.setBarrier n t).ctxId = s.ctxId := rfl
@[simp] theorem State.setBarrier_checked (t : Barrier) : (s.setBarrier n t).checked = s.checked := rfl
@[simp] theorem State.setBarrier_hbm (t : Barrier) : (s.setBarrier n t).hbm = s.hbm := rfl
@[simp] theorem State.setBarrier_spad (t : Barrier) : (s.setBarrier n t).spad = s.spad := rfl
@[simp] theorem State.setBarrier_opmem (t : Barrier) : (s.setBarrier n t).opmem = s.opmem := rfl
@[simp] theorem State.setBarrier_accMem (t : Barrier) : (s.setBarrier n t).accMem = s.accMem := rfl
@[simp] theorem State.setBarrier_routineMem (t : Barrier) : (s.setBarrier n t).routineMem = s.routineMem := rfl
@[simp] theorem State.setBarrier_poison (t : Barrier) : (s.setBarrier n t).poison = s.poison := rfl
@[simp] theorem State.setBarrier_spadPoison (t : Barrier) : (s.setBarrier n t).spadPoison = s.spadPoison := rfl
@[simp] theorem State.setBarrier_strands (t : Barrier) : (s.setBarrier n t).strands = s.strands := rfl
@[simp] theorem State.setBarrier_cores (t : Barrier) : (s.setBarrier n t).cores = s.cores := rfl
@[simp] theorem State.setBarrier_chisels (t : Barrier) : (s.setBarrier n t).chisels = s.chisels := rfl
@[simp] theorem State.setBarrier_ctxs (t : Barrier) : (s.setBarrier n t).ctxs = s.ctxs := rfl
@[simp] theorem State.setBarrier_descs (t : Barrier) : (s.setBarrier n t).descs = s.descs := rfl
@[simp] theorem State.setBarrier_clusters (t : Barrier) : (s.setBarrier n t).clusters = s.clusters := rfl
@[simp] theorem State.setBarrier_barriers (t : Barrier) : (s.setBarrier n t).barriers = Tbl.put s.barriers n t := rfl
@[simp] theorem State.setBarrier_groups (t : Barrier) : (s.setBarrier n t).groups = s.groups := rfl
@[simp] theorem State.setBarrier_regions (t : Barrier) : (s.setBarrier n t).regions = s.regions := rfl
@[simp] theorem State.setBarrier_seqs (t : Barrier) : (s.setBarrier n t).seqs = s.seqs := rfl
@[simp] theorem State.setBarrier_ops (t : Barrier) : (s.setBarrier n t).ops = s.ops := rfl
@[simp] theorem State.setBarrier_opNext (t : Barrier) : (s.setBarrier n t).opNext = s.opNext := rfl
@[simp] theorem State.setBarrier_chains (t : Barrier) : (s.setBarrier n t).chains = s.chains := rfl
@[simp] theorem State.setBarrier_chainNext (t : Barrier) : (s.setBarrier n t).chainNext = s.chainNext := rfl
@[simp] theorem State.setBarrier_trowels (t : Barrier) : (s.setBarrier n t).trowels = s.trowels := rfl
@[simp] theorem State.setBarrier_pools (t : Barrier) : (s.setBarrier n t).pools = s.pools := rfl
@[simp] theorem State.setBarrier_sequences (t : Barrier) : (s.setBarrier n t).sequences = s.sequences := rfl
@[simp] theorem State.setBarrier_prefixes (t : Barrier) : (s.setBarrier n t).prefixes = s.prefixes := rfl
@[simp] theorem State.setBarrier_swaps (t : Barrier) : (s.setBarrier n t).swaps = s.swaps := rfl
@[simp] theorem State.setBarrier_swapTodo (t : Barrier) : (s.setBarrier n t).swapTodo = s.swapTodo := rfl
@[simp] theorem State.setBarrier_swapNext (t : Barrier) : (s.setBarrier n t).swapNext = s.swapNext := rfl
@[simp] theorem State.setBarrier_pages (t : Barrier) : (s.setBarrier n t).pages = s.pages := rfl
@[simp] theorem State.setBarrier_tasks (t : Barrier) : (s.setBarrier n t).tasks = s.tasks := rfl
@[simp] theorem State.setBarrier_launches (t : Barrier) : (s.setBarrier n t).launches = s.launches := rfl
@[simp] theorem State.setBarrier_parts (t : Barrier) : (s.setBarrier n t).parts = s.parts := rfl
@[simp] theorem State.setBarrier_flying (t : Barrier) : (s.setBarrier n t).flying = s.flying := rfl
@[simp] theorem State.setBarrier_rows (t : Barrier) : (s.setBarrier n t).rows = s.rows := rfl
@[simp] theorem State.setBarrier_notes (t : Barrier) : (s.setBarrier n t).notes = s.notes := rfl
@[simp] theorem State.setBarrier_atoms (t : Barrier) : (s.setBarrier n t).atoms = s.atoms := rfl
@[simp] theorem State.setBarrier_streams (t : Barrier) : (s.setBarrier n t).streams = s.streams := rfl
@[simp] theorem State.setBarrier_regs (t : Barrier) : (s.setBarrier n t).regs = s.regs := rfl
@[simp] theorem State.setBarrier_hostReqs (t : Barrier) : (s.setBarrier n t).hostReqs = s.hostReqs := rfl
@[simp] theorem State.setBarrier_hostTag (t : Barrier) : (s.setBarrier n t).hostTag = s.hostTag := rfl
@[simp] theorem State.setBarrier_hostOut (t : Barrier) : (s.setBarrier n t).hostOut = s.hostOut := rfl
@[simp] theorem State.setBarrier_devid (t : Barrier) : (s.setBarrier n t).devid = s.devid := rfl
@[simp] theorem State.setBarrier_members (t : Barrier) : (s.setBarrier n t).members = s.members := rfl
@[simp] theorem State.setBarrier_routes (t : Barrier) : (s.setBarrier n t).routes = s.routes := rfl
@[simp] theorem State.setBarrier_lost (t : Barrier) : (s.setBarrier n t).lost = s.lost := rfl
@[simp] theorem State.setBarrier_exts (t : Barrier) : (s.setBarrier n t).exts = s.exts := rfl
@[simp] theorem State.setBarrier_mirlens (t : Barrier) : (s.setBarrier n t).mirlens = s.mirlens := rfl
@[simp] theorem State.setBarrier_exports (t : Barrier) : (s.setBarrier n t).exports = s.exports := rfl
@[simp] theorem State.setBarrier_cnts (t : Barrier) : (s.setBarrier n t).cnts = s.cnts := rfl
@[simp] theorem State.setBarrier_ports (t : Barrier) : (s.setBarrier n t).ports = s.ports := rfl
@[simp] theorem State.setBarrier_reqs (t : Barrier) : (s.setBarrier n t).reqs = s.reqs := rfl
@[simp] theorem State.setBarrier_rtagNext (t : Barrier) : (s.setBarrier n t).rtagNext = s.rtagNext := rfl
@[simp] theorem State.setBarrier_vbufs (t : Barrier) : (s.setBarrier n t).vbufs = s.vbufs := rfl
@[simp] theorem State.setBarrier_peerVers (t : Barrier) : (s.setBarrier n t).peerVers = s.peerVers := rfl
@[simp] theorem State.setBarrier_peerLines (t : Barrier) : (s.setBarrier n t).peerLines = s.peerLines := rfl
@[simp] theorem State.setBarrier_shadowSent (t : Barrier) : (s.setBarrier n t).shadowSent = s.shadowSent := rfl
@[simp] theorem State.setBarrier_shadowNext (t : Barrier) : (s.setBarrier n t).shadowNext = s.shadowNext := rfl
@[simp] theorem State.setBarrier_shadowHeld (t : Barrier) : (s.setBarrier n t).shadowHeld = s.shadowHeld := rfl
@[simp] theorem State.setBarrier_dunOut (t : Barrier) : (s.setBarrier n t).dunOut = s.dunOut := rfl
@[simp] theorem State.setBarrier_i3cOut (t : Barrier) : (s.setBarrier n t).i3cOut = s.i3cOut := rfl
@[simp] theorem State.setBarrier_corrected (t : Barrier) : (s.setBarrier n t).corrected = s.corrected := rfl
@[simp] theorem State.setBarrier_badRows (t : Barrier) : (s.setBarrier n t).badRows = s.badRows := rfl
@[simp] theorem State.setBarrier_mgmt (t : Barrier) : (s.setBarrier n t).mgmt = s.mgmt := rfl
@[simp] theorem State.setBarrier_strata (t : Barrier) : (s.setBarrier n t).strata = s.strata := rfl
@[simp] theorem State.setBarrier_strataSeq (t : Barrier) : (s.setBarrier n t).strataSeq = s.strataSeq := rfl
@[simp] theorem State.setBarrier_remapped (t : Barrier) : (s.setBarrier n t).remapped = s.remapped := rfl
@[simp] theorem State.setBarrier_deadClusters (t : Barrier) : (s.setBarrier n t).deadClusters = s.deadClusters := rfl
@[simp] theorem State.setBarrier_substituted (t : Barrier) : (s.setBarrier n t).substituted = s.substituted := rfl
@[simp] theorem State.barrier_setBarrier_self (t : Barrier) : (s.setBarrier n t).barrier n = t := by simp [State.barrier]
@[simp] theorem State.setBarrier_setBarrier (t u : Barrier) : (s.setBarrier n t).setBarrier n u = s.setBarrier n u := by simp [State.setBarrier]
theorem State.barrier_setBarrier (t : Barrier) : (s.setBarrier n t).barrier m = if m = n then t else s.barrier m := by simp [State.barrier, Tbl.getD_put]
theorem State.barrier_setBarrier_ne (t : Barrier) (h : m ≠ n) : (s.setBarrier n t).barrier m = s.barrier m := by simp [State.barrier, Tbl.getD_put, h]
@[simp] theorem State.strand_setBarrier (t : Barrier) : (s.setBarrier n t).strand m = s.strand m := rfl
@[simp] theorem State.core_setBarrier (t : Barrier) : (s.setBarrier n t).core m = s.core m := rfl
@[simp] theorem State.chisel_setBarrier (t : Barrier) : (s.setBarrier n t).chisel m = s.chisel m := rfl
@[simp] theorem State.ctx_setBarrier (t : Barrier) : (s.setBarrier n t).ctx m = s.ctx m := rfl
@[simp] theorem State.desc_setBarrier (t : Barrier) : (s.setBarrier n t).desc m = s.desc m := rfl
@[simp] theorem State.cluster_setBarrier (t : Barrier) : (s.setBarrier n t).cluster m = s.cluster m := rfl
@[simp] theorem State.region_setBarrier (t : Barrier) : (s.setBarrier n t).region m = s.region m := rfl
@[simp] theorem State.part_setBarrier (t : Barrier) : (s.setBarrier n t).part m = s.part m := rfl
@[simp] theorem State.stream_setBarrier (t : Barrier) : (s.setBarrier n t).stream m = s.stream m := rfl
@[simp] theorem State.port_setBarrier (t : Barrier) : (s.setBarrier n t).port m = s.port m := rfl
@[simp] theorem State.vbuf_setBarrier (t : Barrier) : (s.setBarrier n t).vbuf m = s.vbuf m := rfl

/-! ## setRegion -/

@[simp] theorem State.setRegion_cycle (t : Region) : (s.setRegion n t).cycle = s.cycle := rfl
@[simp] theorem State.setRegion_agenda (t : Region) : (s.setRegion n t).agenda = s.agenda := rfl
@[simp] theorem State.setRegion_freeCount (t : Region) : (s.setRegion n t).freeCount = s.freeCount := rfl
@[simp] theorem State.setRegion_strandId (t : Region) : (s.setRegion n t).strandId = s.strandId := rfl
@[simp] theorem State.setRegion_ctxId (t : Region) : (s.setRegion n t).ctxId = s.ctxId := rfl
@[simp] theorem State.setRegion_checked (t : Region) : (s.setRegion n t).checked = s.checked := rfl
@[simp] theorem State.setRegion_hbm (t : Region) : (s.setRegion n t).hbm = s.hbm := rfl
@[simp] theorem State.setRegion_spad (t : Region) : (s.setRegion n t).spad = s.spad := rfl
@[simp] theorem State.setRegion_opmem (t : Region) : (s.setRegion n t).opmem = s.opmem := rfl
@[simp] theorem State.setRegion_accMem (t : Region) : (s.setRegion n t).accMem = s.accMem := rfl
@[simp] theorem State.setRegion_routineMem (t : Region) : (s.setRegion n t).routineMem = s.routineMem := rfl
@[simp] theorem State.setRegion_poison (t : Region) : (s.setRegion n t).poison = s.poison := rfl
@[simp] theorem State.setRegion_spadPoison (t : Region) : (s.setRegion n t).spadPoison = s.spadPoison := rfl
@[simp] theorem State.setRegion_strands (t : Region) : (s.setRegion n t).strands = s.strands := rfl
@[simp] theorem State.setRegion_cores (t : Region) : (s.setRegion n t).cores = s.cores := rfl
@[simp] theorem State.setRegion_chisels (t : Region) : (s.setRegion n t).chisels = s.chisels := rfl
@[simp] theorem State.setRegion_ctxs (t : Region) : (s.setRegion n t).ctxs = s.ctxs := rfl
@[simp] theorem State.setRegion_descs (t : Region) : (s.setRegion n t).descs = s.descs := rfl
@[simp] theorem State.setRegion_clusters (t : Region) : (s.setRegion n t).clusters = s.clusters := rfl
@[simp] theorem State.setRegion_barriers (t : Region) : (s.setRegion n t).barriers = s.barriers := rfl
@[simp] theorem State.setRegion_groups (t : Region) : (s.setRegion n t).groups = s.groups := rfl
@[simp] theorem State.setRegion_regions (t : Region) : (s.setRegion n t).regions = Tbl.put s.regions n t := rfl
@[simp] theorem State.setRegion_seqs (t : Region) : (s.setRegion n t).seqs = s.seqs := rfl
@[simp] theorem State.setRegion_ops (t : Region) : (s.setRegion n t).ops = s.ops := rfl
@[simp] theorem State.setRegion_opNext (t : Region) : (s.setRegion n t).opNext = s.opNext := rfl
@[simp] theorem State.setRegion_chains (t : Region) : (s.setRegion n t).chains = s.chains := rfl
@[simp] theorem State.setRegion_chainNext (t : Region) : (s.setRegion n t).chainNext = s.chainNext := rfl
@[simp] theorem State.setRegion_trowels (t : Region) : (s.setRegion n t).trowels = s.trowels := rfl
@[simp] theorem State.setRegion_pools (t : Region) : (s.setRegion n t).pools = s.pools := rfl
@[simp] theorem State.setRegion_sequences (t : Region) : (s.setRegion n t).sequences = s.sequences := rfl
@[simp] theorem State.setRegion_prefixes (t : Region) : (s.setRegion n t).prefixes = s.prefixes := rfl
@[simp] theorem State.setRegion_swaps (t : Region) : (s.setRegion n t).swaps = s.swaps := rfl
@[simp] theorem State.setRegion_swapTodo (t : Region) : (s.setRegion n t).swapTodo = s.swapTodo := rfl
@[simp] theorem State.setRegion_swapNext (t : Region) : (s.setRegion n t).swapNext = s.swapNext := rfl
@[simp] theorem State.setRegion_pages (t : Region) : (s.setRegion n t).pages = s.pages := rfl
@[simp] theorem State.setRegion_tasks (t : Region) : (s.setRegion n t).tasks = s.tasks := rfl
@[simp] theorem State.setRegion_launches (t : Region) : (s.setRegion n t).launches = s.launches := rfl
@[simp] theorem State.setRegion_parts (t : Region) : (s.setRegion n t).parts = s.parts := rfl
@[simp] theorem State.setRegion_flying (t : Region) : (s.setRegion n t).flying = s.flying := rfl
@[simp] theorem State.setRegion_rows (t : Region) : (s.setRegion n t).rows = s.rows := rfl
@[simp] theorem State.setRegion_notes (t : Region) : (s.setRegion n t).notes = s.notes := rfl
@[simp] theorem State.setRegion_atoms (t : Region) : (s.setRegion n t).atoms = s.atoms := rfl
@[simp] theorem State.setRegion_streams (t : Region) : (s.setRegion n t).streams = s.streams := rfl
@[simp] theorem State.setRegion_regs (t : Region) : (s.setRegion n t).regs = s.regs := rfl
@[simp] theorem State.setRegion_hostReqs (t : Region) : (s.setRegion n t).hostReqs = s.hostReqs := rfl
@[simp] theorem State.setRegion_hostTag (t : Region) : (s.setRegion n t).hostTag = s.hostTag := rfl
@[simp] theorem State.setRegion_hostOut (t : Region) : (s.setRegion n t).hostOut = s.hostOut := rfl
@[simp] theorem State.setRegion_devid (t : Region) : (s.setRegion n t).devid = s.devid := rfl
@[simp] theorem State.setRegion_members (t : Region) : (s.setRegion n t).members = s.members := rfl
@[simp] theorem State.setRegion_routes (t : Region) : (s.setRegion n t).routes = s.routes := rfl
@[simp] theorem State.setRegion_lost (t : Region) : (s.setRegion n t).lost = s.lost := rfl
@[simp] theorem State.setRegion_exts (t : Region) : (s.setRegion n t).exts = s.exts := rfl
@[simp] theorem State.setRegion_mirlens (t : Region) : (s.setRegion n t).mirlens = s.mirlens := rfl
@[simp] theorem State.setRegion_exports (t : Region) : (s.setRegion n t).exports = s.exports := rfl
@[simp] theorem State.setRegion_cnts (t : Region) : (s.setRegion n t).cnts = s.cnts := rfl
@[simp] theorem State.setRegion_ports (t : Region) : (s.setRegion n t).ports = s.ports := rfl
@[simp] theorem State.setRegion_reqs (t : Region) : (s.setRegion n t).reqs = s.reqs := rfl
@[simp] theorem State.setRegion_rtagNext (t : Region) : (s.setRegion n t).rtagNext = s.rtagNext := rfl
@[simp] theorem State.setRegion_vbufs (t : Region) : (s.setRegion n t).vbufs = s.vbufs := rfl
@[simp] theorem State.setRegion_peerVers (t : Region) : (s.setRegion n t).peerVers = s.peerVers := rfl
@[simp] theorem State.setRegion_peerLines (t : Region) : (s.setRegion n t).peerLines = s.peerLines := rfl
@[simp] theorem State.setRegion_shadowSent (t : Region) : (s.setRegion n t).shadowSent = s.shadowSent := rfl
@[simp] theorem State.setRegion_shadowNext (t : Region) : (s.setRegion n t).shadowNext = s.shadowNext := rfl
@[simp] theorem State.setRegion_shadowHeld (t : Region) : (s.setRegion n t).shadowHeld = s.shadowHeld := rfl
@[simp] theorem State.setRegion_dunOut (t : Region) : (s.setRegion n t).dunOut = s.dunOut := rfl
@[simp] theorem State.setRegion_i3cOut (t : Region) : (s.setRegion n t).i3cOut = s.i3cOut := rfl
@[simp] theorem State.setRegion_corrected (t : Region) : (s.setRegion n t).corrected = s.corrected := rfl
@[simp] theorem State.setRegion_badRows (t : Region) : (s.setRegion n t).badRows = s.badRows := rfl
@[simp] theorem State.setRegion_mgmt (t : Region) : (s.setRegion n t).mgmt = s.mgmt := rfl
@[simp] theorem State.setRegion_strata (t : Region) : (s.setRegion n t).strata = s.strata := rfl
@[simp] theorem State.setRegion_strataSeq (t : Region) : (s.setRegion n t).strataSeq = s.strataSeq := rfl
@[simp] theorem State.setRegion_remapped (t : Region) : (s.setRegion n t).remapped = s.remapped := rfl
@[simp] theorem State.setRegion_deadClusters (t : Region) : (s.setRegion n t).deadClusters = s.deadClusters := rfl
@[simp] theorem State.setRegion_substituted (t : Region) : (s.setRegion n t).substituted = s.substituted := rfl
@[simp] theorem State.region_setRegion_self (t : Region) : (s.setRegion n t).region n = t := by simp [State.region]
@[simp] theorem State.setRegion_setRegion (t u : Region) : (s.setRegion n t).setRegion n u = s.setRegion n u := by simp [State.setRegion]
theorem State.region_setRegion (t : Region) : (s.setRegion n t).region m = if m = n then t else s.region m := by simp [State.region, Tbl.getD_put]
theorem State.region_setRegion_ne (t : Region) (h : m ≠ n) : (s.setRegion n t).region m = s.region m := by simp [State.region, Tbl.getD_put, h]
@[simp] theorem State.strand_setRegion (t : Region) : (s.setRegion n t).strand m = s.strand m := rfl
@[simp] theorem State.core_setRegion (t : Region) : (s.setRegion n t).core m = s.core m := rfl
@[simp] theorem State.chisel_setRegion (t : Region) : (s.setRegion n t).chisel m = s.chisel m := rfl
@[simp] theorem State.ctx_setRegion (t : Region) : (s.setRegion n t).ctx m = s.ctx m := rfl
@[simp] theorem State.desc_setRegion (t : Region) : (s.setRegion n t).desc m = s.desc m := rfl
@[simp] theorem State.cluster_setRegion (t : Region) : (s.setRegion n t).cluster m = s.cluster m := rfl
@[simp] theorem State.barrier_setRegion (t : Region) : (s.setRegion n t).barrier m = s.barrier m := rfl
@[simp] theorem State.part_setRegion (t : Region) : (s.setRegion n t).part m = s.part m := rfl
@[simp] theorem State.stream_setRegion (t : Region) : (s.setRegion n t).stream m = s.stream m := rfl
@[simp] theorem State.port_setRegion (t : Region) : (s.setRegion n t).port m = s.port m := rfl
@[simp] theorem State.vbuf_setRegion (t : Region) : (s.setRegion n t).vbuf m = s.vbuf m := rfl
@[simp] theorem State.modRegion_eq (f : Region → Region) : s.modRegion n f = s.setRegion n (f (s.region n)) := rfl

/-! ## setPart -/

@[simp] theorem State.setPart_cycle (t : Partition) : (s.setPart n t).cycle = s.cycle := rfl
@[simp] theorem State.setPart_agenda (t : Partition) : (s.setPart n t).agenda = s.agenda := rfl
@[simp] theorem State.setPart_freeCount (t : Partition) : (s.setPart n t).freeCount = s.freeCount := rfl
@[simp] theorem State.setPart_strandId (t : Partition) : (s.setPart n t).strandId = s.strandId := rfl
@[simp] theorem State.setPart_ctxId (t : Partition) : (s.setPart n t).ctxId = s.ctxId := rfl
@[simp] theorem State.setPart_checked (t : Partition) : (s.setPart n t).checked = s.checked := rfl
@[simp] theorem State.setPart_hbm (t : Partition) : (s.setPart n t).hbm = s.hbm := rfl
@[simp] theorem State.setPart_spad (t : Partition) : (s.setPart n t).spad = s.spad := rfl
@[simp] theorem State.setPart_opmem (t : Partition) : (s.setPart n t).opmem = s.opmem := rfl
@[simp] theorem State.setPart_accMem (t : Partition) : (s.setPart n t).accMem = s.accMem := rfl
@[simp] theorem State.setPart_routineMem (t : Partition) : (s.setPart n t).routineMem = s.routineMem := rfl
@[simp] theorem State.setPart_poison (t : Partition) : (s.setPart n t).poison = s.poison := rfl
@[simp] theorem State.setPart_spadPoison (t : Partition) : (s.setPart n t).spadPoison = s.spadPoison := rfl
@[simp] theorem State.setPart_strands (t : Partition) : (s.setPart n t).strands = s.strands := rfl
@[simp] theorem State.setPart_cores (t : Partition) : (s.setPart n t).cores = s.cores := rfl
@[simp] theorem State.setPart_chisels (t : Partition) : (s.setPart n t).chisels = s.chisels := rfl
@[simp] theorem State.setPart_ctxs (t : Partition) : (s.setPart n t).ctxs = s.ctxs := rfl
@[simp] theorem State.setPart_descs (t : Partition) : (s.setPart n t).descs = s.descs := rfl
@[simp] theorem State.setPart_clusters (t : Partition) : (s.setPart n t).clusters = s.clusters := rfl
@[simp] theorem State.setPart_barriers (t : Partition) : (s.setPart n t).barriers = s.barriers := rfl
@[simp] theorem State.setPart_groups (t : Partition) : (s.setPart n t).groups = s.groups := rfl
@[simp] theorem State.setPart_regions (t : Partition) : (s.setPart n t).regions = s.regions := rfl
@[simp] theorem State.setPart_seqs (t : Partition) : (s.setPart n t).seqs = s.seqs := rfl
@[simp] theorem State.setPart_ops (t : Partition) : (s.setPart n t).ops = s.ops := rfl
@[simp] theorem State.setPart_opNext (t : Partition) : (s.setPart n t).opNext = s.opNext := rfl
@[simp] theorem State.setPart_chains (t : Partition) : (s.setPart n t).chains = s.chains := rfl
@[simp] theorem State.setPart_chainNext (t : Partition) : (s.setPart n t).chainNext = s.chainNext := rfl
@[simp] theorem State.setPart_trowels (t : Partition) : (s.setPart n t).trowels = s.trowels := rfl
@[simp] theorem State.setPart_pools (t : Partition) : (s.setPart n t).pools = s.pools := rfl
@[simp] theorem State.setPart_sequences (t : Partition) : (s.setPart n t).sequences = s.sequences := rfl
@[simp] theorem State.setPart_prefixes (t : Partition) : (s.setPart n t).prefixes = s.prefixes := rfl
@[simp] theorem State.setPart_swaps (t : Partition) : (s.setPart n t).swaps = s.swaps := rfl
@[simp] theorem State.setPart_swapTodo (t : Partition) : (s.setPart n t).swapTodo = s.swapTodo := rfl
@[simp] theorem State.setPart_swapNext (t : Partition) : (s.setPart n t).swapNext = s.swapNext := rfl
@[simp] theorem State.setPart_pages (t : Partition) : (s.setPart n t).pages = s.pages := rfl
@[simp] theorem State.setPart_tasks (t : Partition) : (s.setPart n t).tasks = s.tasks := rfl
@[simp] theorem State.setPart_launches (t : Partition) : (s.setPart n t).launches = s.launches := rfl
@[simp] theorem State.setPart_parts (t : Partition) : (s.setPart n t).parts = Tbl.put s.parts n t := rfl
@[simp] theorem State.setPart_flying (t : Partition) : (s.setPart n t).flying = s.flying := rfl
@[simp] theorem State.setPart_rows (t : Partition) : (s.setPart n t).rows = s.rows := rfl
@[simp] theorem State.setPart_notes (t : Partition) : (s.setPart n t).notes = s.notes := rfl
@[simp] theorem State.setPart_atoms (t : Partition) : (s.setPart n t).atoms = s.atoms := rfl
@[simp] theorem State.setPart_streams (t : Partition) : (s.setPart n t).streams = s.streams := rfl
@[simp] theorem State.setPart_regs (t : Partition) : (s.setPart n t).regs = s.regs := rfl
@[simp] theorem State.setPart_hostReqs (t : Partition) : (s.setPart n t).hostReqs = s.hostReqs := rfl
@[simp] theorem State.setPart_hostTag (t : Partition) : (s.setPart n t).hostTag = s.hostTag := rfl
@[simp] theorem State.setPart_hostOut (t : Partition) : (s.setPart n t).hostOut = s.hostOut := rfl
@[simp] theorem State.setPart_devid (t : Partition) : (s.setPart n t).devid = s.devid := rfl
@[simp] theorem State.setPart_members (t : Partition) : (s.setPart n t).members = s.members := rfl
@[simp] theorem State.setPart_routes (t : Partition) : (s.setPart n t).routes = s.routes := rfl
@[simp] theorem State.setPart_lost (t : Partition) : (s.setPart n t).lost = s.lost := rfl
@[simp] theorem State.setPart_exts (t : Partition) : (s.setPart n t).exts = s.exts := rfl
@[simp] theorem State.setPart_mirlens (t : Partition) : (s.setPart n t).mirlens = s.mirlens := rfl
@[simp] theorem State.setPart_exports (t : Partition) : (s.setPart n t).exports = s.exports := rfl
@[simp] theorem State.setPart_cnts (t : Partition) : (s.setPart n t).cnts = s.cnts := rfl
@[simp] theorem State.setPart_ports (t : Partition) : (s.setPart n t).ports = s.ports := rfl
@[simp] theorem State.setPart_reqs (t : Partition) : (s.setPart n t).reqs = s.reqs := rfl
@[simp] theorem State.setPart_rtagNext (t : Partition) : (s.setPart n t).rtagNext = s.rtagNext := rfl
@[simp] theorem State.setPart_vbufs (t : Partition) : (s.setPart n t).vbufs = s.vbufs := rfl
@[simp] theorem State.setPart_peerVers (t : Partition) : (s.setPart n t).peerVers = s.peerVers := rfl
@[simp] theorem State.setPart_peerLines (t : Partition) : (s.setPart n t).peerLines = s.peerLines := rfl
@[simp] theorem State.setPart_shadowSent (t : Partition) : (s.setPart n t).shadowSent = s.shadowSent := rfl
@[simp] theorem State.setPart_shadowNext (t : Partition) : (s.setPart n t).shadowNext = s.shadowNext := rfl
@[simp] theorem State.setPart_shadowHeld (t : Partition) : (s.setPart n t).shadowHeld = s.shadowHeld := rfl
@[simp] theorem State.setPart_dunOut (t : Partition) : (s.setPart n t).dunOut = s.dunOut := rfl
@[simp] theorem State.setPart_i3cOut (t : Partition) : (s.setPart n t).i3cOut = s.i3cOut := rfl
@[simp] theorem State.setPart_corrected (t : Partition) : (s.setPart n t).corrected = s.corrected := rfl
@[simp] theorem State.setPart_badRows (t : Partition) : (s.setPart n t).badRows = s.badRows := rfl
@[simp] theorem State.setPart_mgmt (t : Partition) : (s.setPart n t).mgmt = s.mgmt := rfl
@[simp] theorem State.setPart_strata (t : Partition) : (s.setPart n t).strata = s.strata := rfl
@[simp] theorem State.setPart_strataSeq (t : Partition) : (s.setPart n t).strataSeq = s.strataSeq := rfl
@[simp] theorem State.setPart_remapped (t : Partition) : (s.setPart n t).remapped = s.remapped := rfl
@[simp] theorem State.setPart_deadClusters (t : Partition) : (s.setPart n t).deadClusters = s.deadClusters := rfl
@[simp] theorem State.setPart_substituted (t : Partition) : (s.setPart n t).substituted = s.substituted := rfl
@[simp] theorem State.part_setPart_self (t : Partition) : (s.setPart n t).part n = t := by simp [State.part]
@[simp] theorem State.setPart_setPart (t u : Partition) : (s.setPart n t).setPart n u = s.setPart n u := by simp [State.setPart]
theorem State.part_setPart (t : Partition) : (s.setPart n t).part m = if m = n then t else s.part m := by simp [State.part, Tbl.getD_put]
theorem State.part_setPart_ne (t : Partition) (h : m ≠ n) : (s.setPart n t).part m = s.part m := by simp [State.part, Tbl.getD_put, h]
@[simp] theorem State.strand_setPart (t : Partition) : (s.setPart n t).strand m = s.strand m := rfl
@[simp] theorem State.core_setPart (t : Partition) : (s.setPart n t).core m = s.core m := rfl
@[simp] theorem State.chisel_setPart (t : Partition) : (s.setPart n t).chisel m = s.chisel m := rfl
@[simp] theorem State.ctx_setPart (t : Partition) : (s.setPart n t).ctx m = s.ctx m := rfl
@[simp] theorem State.desc_setPart (t : Partition) : (s.setPart n t).desc m = s.desc m := rfl
@[simp] theorem State.cluster_setPart (t : Partition) : (s.setPart n t).cluster m = s.cluster m := rfl
@[simp] theorem State.barrier_setPart (t : Partition) : (s.setPart n t).barrier m = s.barrier m := rfl
@[simp] theorem State.region_setPart (t : Partition) : (s.setPart n t).region m = s.region m := rfl
@[simp] theorem State.stream_setPart (t : Partition) : (s.setPart n t).stream m = s.stream m := rfl
@[simp] theorem State.port_setPart (t : Partition) : (s.setPart n t).port m = s.port m := rfl
@[simp] theorem State.vbuf_setPart (t : Partition) : (s.setPart n t).vbuf m = s.vbuf m := rfl
@[simp] theorem State.modPart_eq (f : Partition → Partition) : s.modPart n f = s.setPart n (f (s.part n)) := rfl

/-! ## setStream -/

@[simp] theorem State.setStream_cycle (t : Stream) : (s.setStream n t).cycle = s.cycle := rfl
@[simp] theorem State.setStream_agenda (t : Stream) : (s.setStream n t).agenda = s.agenda := rfl
@[simp] theorem State.setStream_freeCount (t : Stream) : (s.setStream n t).freeCount = s.freeCount := rfl
@[simp] theorem State.setStream_strandId (t : Stream) : (s.setStream n t).strandId = s.strandId := rfl
@[simp] theorem State.setStream_ctxId (t : Stream) : (s.setStream n t).ctxId = s.ctxId := rfl
@[simp] theorem State.setStream_checked (t : Stream) : (s.setStream n t).checked = s.checked := rfl
@[simp] theorem State.setStream_hbm (t : Stream) : (s.setStream n t).hbm = s.hbm := rfl
@[simp] theorem State.setStream_spad (t : Stream) : (s.setStream n t).spad = s.spad := rfl
@[simp] theorem State.setStream_opmem (t : Stream) : (s.setStream n t).opmem = s.opmem := rfl
@[simp] theorem State.setStream_accMem (t : Stream) : (s.setStream n t).accMem = s.accMem := rfl
@[simp] theorem State.setStream_routineMem (t : Stream) : (s.setStream n t).routineMem = s.routineMem := rfl
@[simp] theorem State.setStream_poison (t : Stream) : (s.setStream n t).poison = s.poison := rfl
@[simp] theorem State.setStream_spadPoison (t : Stream) : (s.setStream n t).spadPoison = s.spadPoison := rfl
@[simp] theorem State.setStream_strands (t : Stream) : (s.setStream n t).strands = s.strands := rfl
@[simp] theorem State.setStream_cores (t : Stream) : (s.setStream n t).cores = s.cores := rfl
@[simp] theorem State.setStream_chisels (t : Stream) : (s.setStream n t).chisels = s.chisels := rfl
@[simp] theorem State.setStream_ctxs (t : Stream) : (s.setStream n t).ctxs = s.ctxs := rfl
@[simp] theorem State.setStream_descs (t : Stream) : (s.setStream n t).descs = s.descs := rfl
@[simp] theorem State.setStream_clusters (t : Stream) : (s.setStream n t).clusters = s.clusters := rfl
@[simp] theorem State.setStream_barriers (t : Stream) : (s.setStream n t).barriers = s.barriers := rfl
@[simp] theorem State.setStream_groups (t : Stream) : (s.setStream n t).groups = s.groups := rfl
@[simp] theorem State.setStream_regions (t : Stream) : (s.setStream n t).regions = s.regions := rfl
@[simp] theorem State.setStream_seqs (t : Stream) : (s.setStream n t).seqs = s.seqs := rfl
@[simp] theorem State.setStream_ops (t : Stream) : (s.setStream n t).ops = s.ops := rfl
@[simp] theorem State.setStream_opNext (t : Stream) : (s.setStream n t).opNext = s.opNext := rfl
@[simp] theorem State.setStream_chains (t : Stream) : (s.setStream n t).chains = s.chains := rfl
@[simp] theorem State.setStream_chainNext (t : Stream) : (s.setStream n t).chainNext = s.chainNext := rfl
@[simp] theorem State.setStream_trowels (t : Stream) : (s.setStream n t).trowels = s.trowels := rfl
@[simp] theorem State.setStream_pools (t : Stream) : (s.setStream n t).pools = s.pools := rfl
@[simp] theorem State.setStream_sequences (t : Stream) : (s.setStream n t).sequences = s.sequences := rfl
@[simp] theorem State.setStream_prefixes (t : Stream) : (s.setStream n t).prefixes = s.prefixes := rfl
@[simp] theorem State.setStream_swaps (t : Stream) : (s.setStream n t).swaps = s.swaps := rfl
@[simp] theorem State.setStream_swapTodo (t : Stream) : (s.setStream n t).swapTodo = s.swapTodo := rfl
@[simp] theorem State.setStream_swapNext (t : Stream) : (s.setStream n t).swapNext = s.swapNext := rfl
@[simp] theorem State.setStream_pages (t : Stream) : (s.setStream n t).pages = s.pages := rfl
@[simp] theorem State.setStream_tasks (t : Stream) : (s.setStream n t).tasks = s.tasks := rfl
@[simp] theorem State.setStream_launches (t : Stream) : (s.setStream n t).launches = s.launches := rfl
@[simp] theorem State.setStream_parts (t : Stream) : (s.setStream n t).parts = s.parts := rfl
@[simp] theorem State.setStream_flying (t : Stream) : (s.setStream n t).flying = s.flying := rfl
@[simp] theorem State.setStream_rows (t : Stream) : (s.setStream n t).rows = s.rows := rfl
@[simp] theorem State.setStream_notes (t : Stream) : (s.setStream n t).notes = s.notes := rfl
@[simp] theorem State.setStream_atoms (t : Stream) : (s.setStream n t).atoms = s.atoms := rfl
@[simp] theorem State.setStream_streams (t : Stream) : (s.setStream n t).streams = Tbl.put s.streams n t := rfl
@[simp] theorem State.setStream_regs (t : Stream) : (s.setStream n t).regs = s.regs := rfl
@[simp] theorem State.setStream_hostReqs (t : Stream) : (s.setStream n t).hostReqs = s.hostReqs := rfl
@[simp] theorem State.setStream_hostTag (t : Stream) : (s.setStream n t).hostTag = s.hostTag := rfl
@[simp] theorem State.setStream_hostOut (t : Stream) : (s.setStream n t).hostOut = s.hostOut := rfl
@[simp] theorem State.setStream_devid (t : Stream) : (s.setStream n t).devid = s.devid := rfl
@[simp] theorem State.setStream_members (t : Stream) : (s.setStream n t).members = s.members := rfl
@[simp] theorem State.setStream_routes (t : Stream) : (s.setStream n t).routes = s.routes := rfl
@[simp] theorem State.setStream_lost (t : Stream) : (s.setStream n t).lost = s.lost := rfl
@[simp] theorem State.setStream_exts (t : Stream) : (s.setStream n t).exts = s.exts := rfl
@[simp] theorem State.setStream_mirlens (t : Stream) : (s.setStream n t).mirlens = s.mirlens := rfl
@[simp] theorem State.setStream_exports (t : Stream) : (s.setStream n t).exports = s.exports := rfl
@[simp] theorem State.setStream_cnts (t : Stream) : (s.setStream n t).cnts = s.cnts := rfl
@[simp] theorem State.setStream_ports (t : Stream) : (s.setStream n t).ports = s.ports := rfl
@[simp] theorem State.setStream_reqs (t : Stream) : (s.setStream n t).reqs = s.reqs := rfl
@[simp] theorem State.setStream_rtagNext (t : Stream) : (s.setStream n t).rtagNext = s.rtagNext := rfl
@[simp] theorem State.setStream_vbufs (t : Stream) : (s.setStream n t).vbufs = s.vbufs := rfl
@[simp] theorem State.setStream_peerVers (t : Stream) : (s.setStream n t).peerVers = s.peerVers := rfl
@[simp] theorem State.setStream_peerLines (t : Stream) : (s.setStream n t).peerLines = s.peerLines := rfl
@[simp] theorem State.setStream_shadowSent (t : Stream) : (s.setStream n t).shadowSent = s.shadowSent := rfl
@[simp] theorem State.setStream_shadowNext (t : Stream) : (s.setStream n t).shadowNext = s.shadowNext := rfl
@[simp] theorem State.setStream_shadowHeld (t : Stream) : (s.setStream n t).shadowHeld = s.shadowHeld := rfl
@[simp] theorem State.setStream_dunOut (t : Stream) : (s.setStream n t).dunOut = s.dunOut := rfl
@[simp] theorem State.setStream_i3cOut (t : Stream) : (s.setStream n t).i3cOut = s.i3cOut := rfl
@[simp] theorem State.setStream_corrected (t : Stream) : (s.setStream n t).corrected = s.corrected := rfl
@[simp] theorem State.setStream_badRows (t : Stream) : (s.setStream n t).badRows = s.badRows := rfl
@[simp] theorem State.setStream_mgmt (t : Stream) : (s.setStream n t).mgmt = s.mgmt := rfl
@[simp] theorem State.setStream_strata (t : Stream) : (s.setStream n t).strata = s.strata := rfl
@[simp] theorem State.setStream_strataSeq (t : Stream) : (s.setStream n t).strataSeq = s.strataSeq := rfl
@[simp] theorem State.setStream_remapped (t : Stream) : (s.setStream n t).remapped = s.remapped := rfl
@[simp] theorem State.setStream_deadClusters (t : Stream) : (s.setStream n t).deadClusters = s.deadClusters := rfl
@[simp] theorem State.setStream_substituted (t : Stream) : (s.setStream n t).substituted = s.substituted := rfl
@[simp] theorem State.stream_setStream_self (t : Stream) : (s.setStream n t).stream n = t := by simp [State.stream]
@[simp] theorem State.setStream_setStream (t u : Stream) : (s.setStream n t).setStream n u = s.setStream n u := by simp [State.setStream]
theorem State.stream_setStream (t : Stream) : (s.setStream n t).stream m = if m = n then t else s.stream m := by simp [State.stream, Tbl.getD_put]
theorem State.stream_setStream_ne (t : Stream) (h : m ≠ n) : (s.setStream n t).stream m = s.stream m := by simp [State.stream, Tbl.getD_put, h]
@[simp] theorem State.strand_setStream (t : Stream) : (s.setStream n t).strand m = s.strand m := rfl
@[simp] theorem State.core_setStream (t : Stream) : (s.setStream n t).core m = s.core m := rfl
@[simp] theorem State.chisel_setStream (t : Stream) : (s.setStream n t).chisel m = s.chisel m := rfl
@[simp] theorem State.ctx_setStream (t : Stream) : (s.setStream n t).ctx m = s.ctx m := rfl
@[simp] theorem State.desc_setStream (t : Stream) : (s.setStream n t).desc m = s.desc m := rfl
@[simp] theorem State.cluster_setStream (t : Stream) : (s.setStream n t).cluster m = s.cluster m := rfl
@[simp] theorem State.barrier_setStream (t : Stream) : (s.setStream n t).barrier m = s.barrier m := rfl
@[simp] theorem State.region_setStream (t : Stream) : (s.setStream n t).region m = s.region m := rfl
@[simp] theorem State.part_setStream (t : Stream) : (s.setStream n t).part m = s.part m := rfl
@[simp] theorem State.port_setStream (t : Stream) : (s.setStream n t).port m = s.port m := rfl
@[simp] theorem State.vbuf_setStream (t : Stream) : (s.setStream n t).vbuf m = s.vbuf m := rfl
@[simp] theorem State.modStream_eq (f : Stream → Stream) : s.modStream n f = s.setStream n (f (s.stream n)) := rfl

/-! ## setPort -/

@[simp] theorem State.setPort_cycle (t : Port) : (s.setPort n t).cycle = s.cycle := rfl
@[simp] theorem State.setPort_agenda (t : Port) : (s.setPort n t).agenda = s.agenda := rfl
@[simp] theorem State.setPort_freeCount (t : Port) : (s.setPort n t).freeCount = s.freeCount := rfl
@[simp] theorem State.setPort_strandId (t : Port) : (s.setPort n t).strandId = s.strandId := rfl
@[simp] theorem State.setPort_ctxId (t : Port) : (s.setPort n t).ctxId = s.ctxId := rfl
@[simp] theorem State.setPort_checked (t : Port) : (s.setPort n t).checked = s.checked := rfl
@[simp] theorem State.setPort_hbm (t : Port) : (s.setPort n t).hbm = s.hbm := rfl
@[simp] theorem State.setPort_spad (t : Port) : (s.setPort n t).spad = s.spad := rfl
@[simp] theorem State.setPort_opmem (t : Port) : (s.setPort n t).opmem = s.opmem := rfl
@[simp] theorem State.setPort_accMem (t : Port) : (s.setPort n t).accMem = s.accMem := rfl
@[simp] theorem State.setPort_routineMem (t : Port) : (s.setPort n t).routineMem = s.routineMem := rfl
@[simp] theorem State.setPort_poison (t : Port) : (s.setPort n t).poison = s.poison := rfl
@[simp] theorem State.setPort_spadPoison (t : Port) : (s.setPort n t).spadPoison = s.spadPoison := rfl
@[simp] theorem State.setPort_strands (t : Port) : (s.setPort n t).strands = s.strands := rfl
@[simp] theorem State.setPort_cores (t : Port) : (s.setPort n t).cores = s.cores := rfl
@[simp] theorem State.setPort_chisels (t : Port) : (s.setPort n t).chisels = s.chisels := rfl
@[simp] theorem State.setPort_ctxs (t : Port) : (s.setPort n t).ctxs = s.ctxs := rfl
@[simp] theorem State.setPort_descs (t : Port) : (s.setPort n t).descs = s.descs := rfl
@[simp] theorem State.setPort_clusters (t : Port) : (s.setPort n t).clusters = s.clusters := rfl
@[simp] theorem State.setPort_barriers (t : Port) : (s.setPort n t).barriers = s.barriers := rfl
@[simp] theorem State.setPort_groups (t : Port) : (s.setPort n t).groups = s.groups := rfl
@[simp] theorem State.setPort_regions (t : Port) : (s.setPort n t).regions = s.regions := rfl
@[simp] theorem State.setPort_seqs (t : Port) : (s.setPort n t).seqs = s.seqs := rfl
@[simp] theorem State.setPort_ops (t : Port) : (s.setPort n t).ops = s.ops := rfl
@[simp] theorem State.setPort_opNext (t : Port) : (s.setPort n t).opNext = s.opNext := rfl
@[simp] theorem State.setPort_chains (t : Port) : (s.setPort n t).chains = s.chains := rfl
@[simp] theorem State.setPort_chainNext (t : Port) : (s.setPort n t).chainNext = s.chainNext := rfl
@[simp] theorem State.setPort_trowels (t : Port) : (s.setPort n t).trowels = s.trowels := rfl
@[simp] theorem State.setPort_pools (t : Port) : (s.setPort n t).pools = s.pools := rfl
@[simp] theorem State.setPort_sequences (t : Port) : (s.setPort n t).sequences = s.sequences := rfl
@[simp] theorem State.setPort_prefixes (t : Port) : (s.setPort n t).prefixes = s.prefixes := rfl
@[simp] theorem State.setPort_swaps (t : Port) : (s.setPort n t).swaps = s.swaps := rfl
@[simp] theorem State.setPort_swapTodo (t : Port) : (s.setPort n t).swapTodo = s.swapTodo := rfl
@[simp] theorem State.setPort_swapNext (t : Port) : (s.setPort n t).swapNext = s.swapNext := rfl
@[simp] theorem State.setPort_pages (t : Port) : (s.setPort n t).pages = s.pages := rfl
@[simp] theorem State.setPort_tasks (t : Port) : (s.setPort n t).tasks = s.tasks := rfl
@[simp] theorem State.setPort_launches (t : Port) : (s.setPort n t).launches = s.launches := rfl
@[simp] theorem State.setPort_parts (t : Port) : (s.setPort n t).parts = s.parts := rfl
@[simp] theorem State.setPort_flying (t : Port) : (s.setPort n t).flying = s.flying := rfl
@[simp] theorem State.setPort_rows (t : Port) : (s.setPort n t).rows = s.rows := rfl
@[simp] theorem State.setPort_notes (t : Port) : (s.setPort n t).notes = s.notes := rfl
@[simp] theorem State.setPort_atoms (t : Port) : (s.setPort n t).atoms = s.atoms := rfl
@[simp] theorem State.setPort_streams (t : Port) : (s.setPort n t).streams = s.streams := rfl
@[simp] theorem State.setPort_regs (t : Port) : (s.setPort n t).regs = s.regs := rfl
@[simp] theorem State.setPort_hostReqs (t : Port) : (s.setPort n t).hostReqs = s.hostReqs := rfl
@[simp] theorem State.setPort_hostTag (t : Port) : (s.setPort n t).hostTag = s.hostTag := rfl
@[simp] theorem State.setPort_hostOut (t : Port) : (s.setPort n t).hostOut = s.hostOut := rfl
@[simp] theorem State.setPort_devid (t : Port) : (s.setPort n t).devid = s.devid := rfl
@[simp] theorem State.setPort_members (t : Port) : (s.setPort n t).members = s.members := rfl
@[simp] theorem State.setPort_routes (t : Port) : (s.setPort n t).routes = s.routes := rfl
@[simp] theorem State.setPort_lost (t : Port) : (s.setPort n t).lost = s.lost := rfl
@[simp] theorem State.setPort_exts (t : Port) : (s.setPort n t).exts = s.exts := rfl
@[simp] theorem State.setPort_mirlens (t : Port) : (s.setPort n t).mirlens = s.mirlens := rfl
@[simp] theorem State.setPort_exports (t : Port) : (s.setPort n t).exports = s.exports := rfl
@[simp] theorem State.setPort_cnts (t : Port) : (s.setPort n t).cnts = s.cnts := rfl
@[simp] theorem State.setPort_ports (t : Port) : (s.setPort n t).ports = Tbl.put s.ports n t := rfl
@[simp] theorem State.setPort_reqs (t : Port) : (s.setPort n t).reqs = s.reqs := rfl
@[simp] theorem State.setPort_rtagNext (t : Port) : (s.setPort n t).rtagNext = s.rtagNext := rfl
@[simp] theorem State.setPort_vbufs (t : Port) : (s.setPort n t).vbufs = s.vbufs := rfl
@[simp] theorem State.setPort_peerVers (t : Port) : (s.setPort n t).peerVers = s.peerVers := rfl
@[simp] theorem State.setPort_peerLines (t : Port) : (s.setPort n t).peerLines = s.peerLines := rfl
@[simp] theorem State.setPort_shadowSent (t : Port) : (s.setPort n t).shadowSent = s.shadowSent := rfl
@[simp] theorem State.setPort_shadowNext (t : Port) : (s.setPort n t).shadowNext = s.shadowNext := rfl
@[simp] theorem State.setPort_shadowHeld (t : Port) : (s.setPort n t).shadowHeld = s.shadowHeld := rfl
@[simp] theorem State.setPort_dunOut (t : Port) : (s.setPort n t).dunOut = s.dunOut := rfl
@[simp] theorem State.setPort_i3cOut (t : Port) : (s.setPort n t).i3cOut = s.i3cOut := rfl
@[simp] theorem State.setPort_corrected (t : Port) : (s.setPort n t).corrected = s.corrected := rfl
@[simp] theorem State.setPort_badRows (t : Port) : (s.setPort n t).badRows = s.badRows := rfl
@[simp] theorem State.setPort_mgmt (t : Port) : (s.setPort n t).mgmt = s.mgmt := rfl
@[simp] theorem State.setPort_strata (t : Port) : (s.setPort n t).strata = s.strata := rfl
@[simp] theorem State.setPort_strataSeq (t : Port) : (s.setPort n t).strataSeq = s.strataSeq := rfl
@[simp] theorem State.setPort_remapped (t : Port) : (s.setPort n t).remapped = s.remapped := rfl
@[simp] theorem State.setPort_deadClusters (t : Port) : (s.setPort n t).deadClusters = s.deadClusters := rfl
@[simp] theorem State.setPort_substituted (t : Port) : (s.setPort n t).substituted = s.substituted := rfl
@[simp] theorem State.port_setPort_self (t : Port) : (s.setPort n t).port n = t := by simp [State.port]
@[simp] theorem State.setPort_setPort (t u : Port) : (s.setPort n t).setPort n u = s.setPort n u := by simp [State.setPort]
theorem State.port_setPort (t : Port) : (s.setPort n t).port m = if m = n then t else s.port m := by simp [State.port, Tbl.getD_put]
theorem State.port_setPort_ne (t : Port) (h : m ≠ n) : (s.setPort n t).port m = s.port m := by simp [State.port, Tbl.getD_put, h]
@[simp] theorem State.strand_setPort (t : Port) : (s.setPort n t).strand m = s.strand m := rfl
@[simp] theorem State.core_setPort (t : Port) : (s.setPort n t).core m = s.core m := rfl
@[simp] theorem State.chisel_setPort (t : Port) : (s.setPort n t).chisel m = s.chisel m := rfl
@[simp] theorem State.ctx_setPort (t : Port) : (s.setPort n t).ctx m = s.ctx m := rfl
@[simp] theorem State.desc_setPort (t : Port) : (s.setPort n t).desc m = s.desc m := rfl
@[simp] theorem State.cluster_setPort (t : Port) : (s.setPort n t).cluster m = s.cluster m := rfl
@[simp] theorem State.barrier_setPort (t : Port) : (s.setPort n t).barrier m = s.barrier m := rfl
@[simp] theorem State.region_setPort (t : Port) : (s.setPort n t).region m = s.region m := rfl
@[simp] theorem State.part_setPort (t : Port) : (s.setPort n t).part m = s.part m := rfl
@[simp] theorem State.stream_setPort (t : Port) : (s.setPort n t).stream m = s.stream m := rfl
@[simp] theorem State.vbuf_setPort (t : Port) : (s.setPort n t).vbuf m = s.vbuf m := rfl
@[simp] theorem State.modPort_eq (f : Port → Port) : s.modPort n f = s.setPort n (f (s.port n)) := rfl

/-! ## setVbuf -/

@[simp] theorem State.setVbuf_cycle (t : VBuf) : (s.setVbuf n t).cycle = s.cycle := rfl
@[simp] theorem State.setVbuf_agenda (t : VBuf) : (s.setVbuf n t).agenda = s.agenda := rfl
@[simp] theorem State.setVbuf_freeCount (t : VBuf) : (s.setVbuf n t).freeCount = s.freeCount := rfl
@[simp] theorem State.setVbuf_strandId (t : VBuf) : (s.setVbuf n t).strandId = s.strandId := rfl
@[simp] theorem State.setVbuf_ctxId (t : VBuf) : (s.setVbuf n t).ctxId = s.ctxId := rfl
@[simp] theorem State.setVbuf_checked (t : VBuf) : (s.setVbuf n t).checked = s.checked := rfl
@[simp] theorem State.setVbuf_hbm (t : VBuf) : (s.setVbuf n t).hbm = s.hbm := rfl
@[simp] theorem State.setVbuf_spad (t : VBuf) : (s.setVbuf n t).spad = s.spad := rfl
@[simp] theorem State.setVbuf_opmem (t : VBuf) : (s.setVbuf n t).opmem = s.opmem := rfl
@[simp] theorem State.setVbuf_accMem (t : VBuf) : (s.setVbuf n t).accMem = s.accMem := rfl
@[simp] theorem State.setVbuf_routineMem (t : VBuf) : (s.setVbuf n t).routineMem = s.routineMem := rfl
@[simp] theorem State.setVbuf_poison (t : VBuf) : (s.setVbuf n t).poison = s.poison := rfl
@[simp] theorem State.setVbuf_spadPoison (t : VBuf) : (s.setVbuf n t).spadPoison = s.spadPoison := rfl
@[simp] theorem State.setVbuf_strands (t : VBuf) : (s.setVbuf n t).strands = s.strands := rfl
@[simp] theorem State.setVbuf_cores (t : VBuf) : (s.setVbuf n t).cores = s.cores := rfl
@[simp] theorem State.setVbuf_chisels (t : VBuf) : (s.setVbuf n t).chisels = s.chisels := rfl
@[simp] theorem State.setVbuf_ctxs (t : VBuf) : (s.setVbuf n t).ctxs = s.ctxs := rfl
@[simp] theorem State.setVbuf_descs (t : VBuf) : (s.setVbuf n t).descs = s.descs := rfl
@[simp] theorem State.setVbuf_clusters (t : VBuf) : (s.setVbuf n t).clusters = s.clusters := rfl
@[simp] theorem State.setVbuf_barriers (t : VBuf) : (s.setVbuf n t).barriers = s.barriers := rfl
@[simp] theorem State.setVbuf_groups (t : VBuf) : (s.setVbuf n t).groups = s.groups := rfl
@[simp] theorem State.setVbuf_regions (t : VBuf) : (s.setVbuf n t).regions = s.regions := rfl
@[simp] theorem State.setVbuf_seqs (t : VBuf) : (s.setVbuf n t).seqs = s.seqs := rfl
@[simp] theorem State.setVbuf_ops (t : VBuf) : (s.setVbuf n t).ops = s.ops := rfl
@[simp] theorem State.setVbuf_opNext (t : VBuf) : (s.setVbuf n t).opNext = s.opNext := rfl
@[simp] theorem State.setVbuf_chains (t : VBuf) : (s.setVbuf n t).chains = s.chains := rfl
@[simp] theorem State.setVbuf_chainNext (t : VBuf) : (s.setVbuf n t).chainNext = s.chainNext := rfl
@[simp] theorem State.setVbuf_trowels (t : VBuf) : (s.setVbuf n t).trowels = s.trowels := rfl
@[simp] theorem State.setVbuf_pools (t : VBuf) : (s.setVbuf n t).pools = s.pools := rfl
@[simp] theorem State.setVbuf_sequences (t : VBuf) : (s.setVbuf n t).sequences = s.sequences := rfl
@[simp] theorem State.setVbuf_prefixes (t : VBuf) : (s.setVbuf n t).prefixes = s.prefixes := rfl
@[simp] theorem State.setVbuf_swaps (t : VBuf) : (s.setVbuf n t).swaps = s.swaps := rfl
@[simp] theorem State.setVbuf_swapTodo (t : VBuf) : (s.setVbuf n t).swapTodo = s.swapTodo := rfl
@[simp] theorem State.setVbuf_swapNext (t : VBuf) : (s.setVbuf n t).swapNext = s.swapNext := rfl
@[simp] theorem State.setVbuf_pages (t : VBuf) : (s.setVbuf n t).pages = s.pages := rfl
@[simp] theorem State.setVbuf_tasks (t : VBuf) : (s.setVbuf n t).tasks = s.tasks := rfl
@[simp] theorem State.setVbuf_launches (t : VBuf) : (s.setVbuf n t).launches = s.launches := rfl
@[simp] theorem State.setVbuf_parts (t : VBuf) : (s.setVbuf n t).parts = s.parts := rfl
@[simp] theorem State.setVbuf_flying (t : VBuf) : (s.setVbuf n t).flying = s.flying := rfl
@[simp] theorem State.setVbuf_rows (t : VBuf) : (s.setVbuf n t).rows = s.rows := rfl
@[simp] theorem State.setVbuf_notes (t : VBuf) : (s.setVbuf n t).notes = s.notes := rfl
@[simp] theorem State.setVbuf_atoms (t : VBuf) : (s.setVbuf n t).atoms = s.atoms := rfl
@[simp] theorem State.setVbuf_streams (t : VBuf) : (s.setVbuf n t).streams = s.streams := rfl
@[simp] theorem State.setVbuf_regs (t : VBuf) : (s.setVbuf n t).regs = s.regs := rfl
@[simp] theorem State.setVbuf_hostReqs (t : VBuf) : (s.setVbuf n t).hostReqs = s.hostReqs := rfl
@[simp] theorem State.setVbuf_hostTag (t : VBuf) : (s.setVbuf n t).hostTag = s.hostTag := rfl
@[simp] theorem State.setVbuf_hostOut (t : VBuf) : (s.setVbuf n t).hostOut = s.hostOut := rfl
@[simp] theorem State.setVbuf_devid (t : VBuf) : (s.setVbuf n t).devid = s.devid := rfl
@[simp] theorem State.setVbuf_members (t : VBuf) : (s.setVbuf n t).members = s.members := rfl
@[simp] theorem State.setVbuf_routes (t : VBuf) : (s.setVbuf n t).routes = s.routes := rfl
@[simp] theorem State.setVbuf_lost (t : VBuf) : (s.setVbuf n t).lost = s.lost := rfl
@[simp] theorem State.setVbuf_exts (t : VBuf) : (s.setVbuf n t).exts = s.exts := rfl
@[simp] theorem State.setVbuf_mirlens (t : VBuf) : (s.setVbuf n t).mirlens = s.mirlens := rfl
@[simp] theorem State.setVbuf_exports (t : VBuf) : (s.setVbuf n t).exports = s.exports := rfl
@[simp] theorem State.setVbuf_cnts (t : VBuf) : (s.setVbuf n t).cnts = s.cnts := rfl
@[simp] theorem State.setVbuf_ports (t : VBuf) : (s.setVbuf n t).ports = s.ports := rfl
@[simp] theorem State.setVbuf_reqs (t : VBuf) : (s.setVbuf n t).reqs = s.reqs := rfl
@[simp] theorem State.setVbuf_rtagNext (t : VBuf) : (s.setVbuf n t).rtagNext = s.rtagNext := rfl
@[simp] theorem State.setVbuf_vbufs (t : VBuf) : (s.setVbuf n t).vbufs = Tbl.put s.vbufs n t := rfl
@[simp] theorem State.setVbuf_peerVers (t : VBuf) : (s.setVbuf n t).peerVers = s.peerVers := rfl
@[simp] theorem State.setVbuf_peerLines (t : VBuf) : (s.setVbuf n t).peerLines = s.peerLines := rfl
@[simp] theorem State.setVbuf_shadowSent (t : VBuf) : (s.setVbuf n t).shadowSent = s.shadowSent := rfl
@[simp] theorem State.setVbuf_shadowNext (t : VBuf) : (s.setVbuf n t).shadowNext = s.shadowNext := rfl
@[simp] theorem State.setVbuf_shadowHeld (t : VBuf) : (s.setVbuf n t).shadowHeld = s.shadowHeld := rfl
@[simp] theorem State.setVbuf_dunOut (t : VBuf) : (s.setVbuf n t).dunOut = s.dunOut := rfl
@[simp] theorem State.setVbuf_i3cOut (t : VBuf) : (s.setVbuf n t).i3cOut = s.i3cOut := rfl
@[simp] theorem State.setVbuf_corrected (t : VBuf) : (s.setVbuf n t).corrected = s.corrected := rfl
@[simp] theorem State.setVbuf_badRows (t : VBuf) : (s.setVbuf n t).badRows = s.badRows := rfl
@[simp] theorem State.setVbuf_mgmt (t : VBuf) : (s.setVbuf n t).mgmt = s.mgmt := rfl
@[simp] theorem State.setVbuf_strata (t : VBuf) : (s.setVbuf n t).strata = s.strata := rfl
@[simp] theorem State.setVbuf_strataSeq (t : VBuf) : (s.setVbuf n t).strataSeq = s.strataSeq := rfl
@[simp] theorem State.setVbuf_remapped (t : VBuf) : (s.setVbuf n t).remapped = s.remapped := rfl
@[simp] theorem State.setVbuf_deadClusters (t : VBuf) : (s.setVbuf n t).deadClusters = s.deadClusters := rfl
@[simp] theorem State.setVbuf_substituted (t : VBuf) : (s.setVbuf n t).substituted = s.substituted := rfl
@[simp] theorem State.vbuf_setVbuf_self (t : VBuf) : (s.setVbuf n t).vbuf n = t := by simp [State.vbuf]
@[simp] theorem State.setVbuf_setVbuf (t u : VBuf) : (s.setVbuf n t).setVbuf n u = s.setVbuf n u := by simp [State.setVbuf]
theorem State.vbuf_setVbuf (t : VBuf) : (s.setVbuf n t).vbuf m = if m = n then t else s.vbuf m := by simp [State.vbuf, Tbl.getD_put]
theorem State.vbuf_setVbuf_ne (t : VBuf) (h : m ≠ n) : (s.setVbuf n t).vbuf m = s.vbuf m := by simp [State.vbuf, Tbl.getD_put, h]
@[simp] theorem State.strand_setVbuf (t : VBuf) : (s.setVbuf n t).strand m = s.strand m := rfl
@[simp] theorem State.core_setVbuf (t : VBuf) : (s.setVbuf n t).core m = s.core m := rfl
@[simp] theorem State.chisel_setVbuf (t : VBuf) : (s.setVbuf n t).chisel m = s.chisel m := rfl
@[simp] theorem State.ctx_setVbuf (t : VBuf) : (s.setVbuf n t).ctx m = s.ctx m := rfl
@[simp] theorem State.desc_setVbuf (t : VBuf) : (s.setVbuf n t).desc m = s.desc m := rfl
@[simp] theorem State.cluster_setVbuf (t : VBuf) : (s.setVbuf n t).cluster m = s.cluster m := rfl
@[simp] theorem State.barrier_setVbuf (t : VBuf) : (s.setVbuf n t).barrier m = s.barrier m := rfl
@[simp] theorem State.region_setVbuf (t : VBuf) : (s.setVbuf n t).region m = s.region m := rfl
@[simp] theorem State.part_setVbuf (t : VBuf) : (s.setVbuf n t).part m = s.part m := rfl
@[simp] theorem State.stream_setVbuf (t : VBuf) : (s.setVbuf n t).stream m = s.stream m := rfl
@[simp] theorem State.port_setVbuf (t : VBuf) : (s.setVbuf n t).port m = s.port m := rfl
@[simp] theorem State.modVbuf_eq (f : VBuf → VBuf) : s.modVbuf n f = s.setVbuf n (f (s.vbuf n)) := rfl

/-! ## The acting strand -/

theorem State.setCur_eq (t : Strand) : s.setCur t = s.setStrand s.strandId t := rfl
theorem State.cur_eq : s.cur = s.strand s.strandId := rfl
@[simp] theorem State.setCur_cycle (t : Strand) : (s.setCur t).cycle = s.cycle := rfl
@[simp] theorem State.setCur_agenda (t : Strand) : (s.setCur t).agenda = s.agenda := rfl
@[simp] theorem State.setCur_freeCount (t : Strand) : (s.setCur t).freeCount = s.freeCount := rfl
@[simp] theorem State.setCur_strandId (t : Strand) : (s.setCur t).strandId = s.strandId := rfl
@[simp] theorem State.setCur_ctxId (t : Strand) : (s.setCur t).ctxId = s.ctxId := rfl
@[simp] theorem State.setCur_checked (t : Strand) : (s.setCur t).checked = s.checked := rfl
@[simp] theorem State.setCur_hbm (t : Strand) : (s.setCur t).hbm = s.hbm := rfl
@[simp] theorem State.setCur_spad (t : Strand) : (s.setCur t).spad = s.spad := rfl
@[simp] theorem State.setCur_opmem (t : Strand) : (s.setCur t).opmem = s.opmem := rfl
@[simp] theorem State.setCur_accMem (t : Strand) : (s.setCur t).accMem = s.accMem := rfl
@[simp] theorem State.setCur_routineMem (t : Strand) : (s.setCur t).routineMem = s.routineMem := rfl
@[simp] theorem State.setCur_poison (t : Strand) : (s.setCur t).poison = s.poison := rfl
@[simp] theorem State.setCur_spadPoison (t : Strand) : (s.setCur t).spadPoison = s.spadPoison := rfl
@[simp] theorem State.setCur_cores (t : Strand) : (s.setCur t).cores = s.cores := rfl
@[simp] theorem State.setCur_chisels (t : Strand) : (s.setCur t).chisels = s.chisels := rfl
@[simp] theorem State.setCur_ctxs (t : Strand) : (s.setCur t).ctxs = s.ctxs := rfl
@[simp] theorem State.setCur_descs (t : Strand) : (s.setCur t).descs = s.descs := rfl
@[simp] theorem State.setCur_clusters (t : Strand) : (s.setCur t).clusters = s.clusters := rfl
@[simp] theorem State.setCur_barriers (t : Strand) : (s.setCur t).barriers = s.barriers := rfl
@[simp] theorem State.setCur_groups (t : Strand) : (s.setCur t).groups = s.groups := rfl
@[simp] theorem State.setCur_regions (t : Strand) : (s.setCur t).regions = s.regions := rfl
@[simp] theorem State.setCur_seqs (t : Strand) : (s.setCur t).seqs = s.seqs := rfl
@[simp] theorem State.setCur_ops (t : Strand) : (s.setCur t).ops = s.ops := rfl
@[simp] theorem State.setCur_opNext (t : Strand) : (s.setCur t).opNext = s.opNext := rfl
@[simp] theorem State.setCur_chains (t : Strand) : (s.setCur t).chains = s.chains := rfl
@[simp] theorem State.setCur_chainNext (t : Strand) : (s.setCur t).chainNext = s.chainNext := rfl
@[simp] theorem State.setCur_trowels (t : Strand) : (s.setCur t).trowels = s.trowels := rfl
@[simp] theorem State.setCur_pools (t : Strand) : (s.setCur t).pools = s.pools := rfl
@[simp] theorem State.setCur_sequences (t : Strand) : (s.setCur t).sequences = s.sequences := rfl
@[simp] theorem State.setCur_prefixes (t : Strand) : (s.setCur t).prefixes = s.prefixes := rfl
@[simp] theorem State.setCur_swaps (t : Strand) : (s.setCur t).swaps = s.swaps := rfl
@[simp] theorem State.setCur_swapTodo (t : Strand) : (s.setCur t).swapTodo = s.swapTodo := rfl
@[simp] theorem State.setCur_swapNext (t : Strand) : (s.setCur t).swapNext = s.swapNext := rfl
@[simp] theorem State.setCur_pages (t : Strand) : (s.setCur t).pages = s.pages := rfl
@[simp] theorem State.setCur_tasks (t : Strand) : (s.setCur t).tasks = s.tasks := rfl
@[simp] theorem State.setCur_launches (t : Strand) : (s.setCur t).launches = s.launches := rfl
@[simp] theorem State.setCur_parts (t : Strand) : (s.setCur t).parts = s.parts := rfl
@[simp] theorem State.setCur_flying (t : Strand) : (s.setCur t).flying = s.flying := rfl
@[simp] theorem State.setCur_rows (t : Strand) : (s.setCur t).rows = s.rows := rfl
@[simp] theorem State.setCur_notes (t : Strand) : (s.setCur t).notes = s.notes := rfl
@[simp] theorem State.setCur_atoms (t : Strand) : (s.setCur t).atoms = s.atoms := rfl
@[simp] theorem State.setCur_streams (t : Strand) : (s.setCur t).streams = s.streams := rfl
@[simp] theorem State.setCur_regs (t : Strand) : (s.setCur t).regs = s.regs := rfl
@[simp] theorem State.setCur_hostReqs (t : Strand) : (s.setCur t).hostReqs = s.hostReqs := rfl
@[simp] theorem State.setCur_hostTag (t : Strand) : (s.setCur t).hostTag = s.hostTag := rfl
@[simp] theorem State.setCur_hostOut (t : Strand) : (s.setCur t).hostOut = s.hostOut := rfl
@[simp] theorem State.setCur_devid (t : Strand) : (s.setCur t).devid = s.devid := rfl
@[simp] theorem State.setCur_members (t : Strand) : (s.setCur t).members = s.members := rfl
@[simp] theorem State.setCur_routes (t : Strand) : (s.setCur t).routes = s.routes := rfl
@[simp] theorem State.setCur_lost (t : Strand) : (s.setCur t).lost = s.lost := rfl
@[simp] theorem State.setCur_exts (t : Strand) : (s.setCur t).exts = s.exts := rfl
@[simp] theorem State.setCur_mirlens (t : Strand) : (s.setCur t).mirlens = s.mirlens := rfl
@[simp] theorem State.setCur_exports (t : Strand) : (s.setCur t).exports = s.exports := rfl
@[simp] theorem State.setCur_cnts (t : Strand) : (s.setCur t).cnts = s.cnts := rfl
@[simp] theorem State.setCur_ports (t : Strand) : (s.setCur t).ports = s.ports := rfl
@[simp] theorem State.setCur_reqs (t : Strand) : (s.setCur t).reqs = s.reqs := rfl
@[simp] theorem State.setCur_rtagNext (t : Strand) : (s.setCur t).rtagNext = s.rtagNext := rfl
@[simp] theorem State.setCur_vbufs (t : Strand) : (s.setCur t).vbufs = s.vbufs := rfl
@[simp] theorem State.setCur_peerVers (t : Strand) : (s.setCur t).peerVers = s.peerVers := rfl
@[simp] theorem State.setCur_peerLines (t : Strand) : (s.setCur t).peerLines = s.peerLines := rfl
@[simp] theorem State.setCur_shadowSent (t : Strand) : (s.setCur t).shadowSent = s.shadowSent := rfl
@[simp] theorem State.setCur_shadowNext (t : Strand) : (s.setCur t).shadowNext = s.shadowNext := rfl
@[simp] theorem State.setCur_shadowHeld (t : Strand) : (s.setCur t).shadowHeld = s.shadowHeld := rfl
@[simp] theorem State.setCur_dunOut (t : Strand) : (s.setCur t).dunOut = s.dunOut := rfl
@[simp] theorem State.setCur_i3cOut (t : Strand) : (s.setCur t).i3cOut = s.i3cOut := rfl
@[simp] theorem State.setCur_corrected (t : Strand) : (s.setCur t).corrected = s.corrected := rfl
@[simp] theorem State.setCur_badRows (t : Strand) : (s.setCur t).badRows = s.badRows := rfl
@[simp] theorem State.setCur_mgmt (t : Strand) : (s.setCur t).mgmt = s.mgmt := rfl
@[simp] theorem State.setCur_strata (t : Strand) : (s.setCur t).strata = s.strata := rfl
@[simp] theorem State.setCur_strataSeq (t : Strand) : (s.setCur t).strataSeq = s.strataSeq := rfl
@[simp] theorem State.setCur_remapped (t : Strand) : (s.setCur t).remapped = s.remapped := rfl
@[simp] theorem State.setCur_deadClusters (t : Strand) : (s.setCur t).deadClusters = s.deadClusters := rfl
@[simp] theorem State.setCur_substituted (t : Strand) : (s.setCur t).substituted = s.substituted := rfl
@[simp] theorem State.setCur_cur (t : Strand) : (s.setCur t).cur = t := by simp [State.cur, State.setCur]
@[simp] theorem State.setCur_setCur (t u : Strand) : (s.setCur t).setCur u = s.setCur u := by simp [State.setCur]
theorem State.setCur_strand_ne (t : Strand) (h : m ≠ s.strandId) : (s.setCur t).strand m = s.strand m := State.strand_setStrand_ne s _ _ _ h
@[simp] theorem State.core_setCur (t : Strand) : (s.setCur t).core m = s.core m := rfl
@[simp] theorem State.chisel_setCur (t : Strand) : (s.setCur t).chisel m = s.chisel m := rfl
@[simp] theorem State.ctx_setCur (t : Strand) : (s.setCur t).ctx m = s.ctx m := rfl
@[simp] theorem State.desc_setCur (t : Strand) : (s.setCur t).desc m = s.desc m := rfl
@[simp] theorem State.cluster_setCur (t : Strand) : (s.setCur t).cluster m = s.cluster m := rfl
@[simp] theorem State.barrier_setCur (t : Strand) : (s.setCur t).barrier m = s.barrier m := rfl
@[simp] theorem State.region_setCur (t : Strand) : (s.setCur t).region m = s.region m := rfl
@[simp] theorem State.part_setCur (t : Strand) : (s.setCur t).part m = s.part m := rfl
@[simp] theorem State.stream_setCur (t : Strand) : (s.setCur t).stream m = s.stream m := rfl
@[simp] theorem State.port_setCur (t : Strand) : (s.setCur t).port m = s.port m := rfl
@[simp] theorem State.vbuf_setCur (t : Strand) : (s.setCur t).vbuf m = s.vbuf m := rfl

end Sys2Proof.Machine
end

