-- ==== Sys2Proof/Laws/Ops.lean ====
section
/-! SUPPORT. Lemmas of the shared operations of grain instructions: what each can answer, stated once, so that a proof about
an instruction cites them instead of unfolding. -/

namespace Sys2Proof.Machine

/-! ## Registers -/

@[simp] theorem Strand.write_depth (t : Strand) (r : GReg) (w : Word) : (t.write r w).depth = t.depth := by
  cases r <;> simp only [Strand.write] <;> split <;> rfl
@[simp] theorem Strand.write_pc (t : Strand) (r : GReg) (w : Word) : (t.write r w).pc = t.pc := by
  cases r <;> simp only [Strand.write] <;> split <;> rfl
@[simp] theorem Strand.write_run (t : Strand) (r : GReg) (w : Word) : (t.write r w).run = t.run := by
  cases r <;> simp only [Strand.write] <;> split <;> rfl
@[simp] theorem Strand.write_halted (t : Strand) (r : GReg) (w : Word) : (t.write r w).halted = t.halted := by
  cases r <;> simp only [Strand.write] <;> split <;> rfl
@[simp] theorem Strand.write_task (t : Strand) (r : GReg) (w : Word) : (t.write r w).task = t.task := by
  cases r <;> simp only [Strand.write] <;> split <;> rfl
@[simp] theorem Strand.write_status (t : Strand) (r : GReg) (w : Word) : (t.write r w).status = t.status := by
  cases r <;> simp only [Strand.write] <;> split <;> rfl
@[simp] theorem Strand.write_fstat (t : Strand) (r : GReg) (w : Word) : (t.write r w).fstat = t.fstat := by
  cases r <;> simp only [Strand.write] <;> split <;> rfl
@[simp] theorem Strand.write_frmode (t : Strand) (r : GReg) (w : Word) : (t.write r w).frmode = t.frmode := by
  cases r <;> simp only [Strand.write] <;> split <;> rfl
@[simp] theorem Strand.write_taskSink (t : Strand) (r : GReg) (w : Word) : (t.write r w).taskSink = t.taskSink := by
  cases r <;> simp only [Strand.write] <;> split <;> rfl
@[simp] theorem Strand.write_scopeRect (t : Strand) (r : GReg) (w : Word) : (t.write r w).scopeRect = t.scopeRect := by
  cases r <;> simp only [Strand.write] <;> split <;> rfl
@[simp] theorem Strand.write_skip (t : Strand) (r : GReg) (w : Word) : (t.write r w).skip = t.skip := by
  cases r <;> simp only [Strand.write] <;> split <;> rfl
@[simp] theorem Strand.write_intrap (t : Strand) (r : GReg) (w : Word) : (t.write r w).intrap = t.intrap := by
  cases r <;> simp only [Strand.write] <;> split <;> rfl
@[simp] theorem Strand.write_priv (t : Strand) (r : GReg) (w : Word) : (t.write r w).priv = t.priv := by
  cases r <;> simp only [Strand.write] <;> split <;> rfl
@[simp] theorem Strand.write_epc (t : Strand) (r : GReg) (w : Word) : (t.write r w).epc = t.epc := by
  cases r <;> simp only [Strand.write] <;> split <;> rfl
@[simp] theorem Strand.write_ecause (t : Strand) (r : GReg) (w : Word) : (t.write r w).ecause = t.ecause := by
  cases r <;> simp only [Strand.write] <;> split <;> rfl
@[simp] theorem Strand.write_eaddr (t : Strand) (r : GReg) (w : Word) : (t.write r w).eaddr = t.eaddr := by
  cases r <;> simp only [Strand.write] <;> split <;> rfl
@[simp] theorem Strand.write_einfo (t : Strand) (r : GReg) (w : Word) : (t.write r w).einfo = t.einfo := by
  cases r <;> simp only [Strand.write] <;> split <;> rfl
@[simp] theorem Strand.write_tvec (t : Strand) (r : GReg) (w : Word) : (t.write r w).tvec = t.tvec := by
  cases r <;> simp only [Strand.write] <;> split <;> rfl
@[simp] theorem Strand.write_sscratch0 (t : Strand) (r : GReg) (w : Word) : (t.write r w).sscratch0 = t.sscratch0 := by
  cases r <;> simp only [Strand.write] <;> split <;> rfl
@[simp] theorem Strand.write_sscratch1 (t : Strand) (r : GReg) (w : Word) : (t.write r w).sscratch1 = t.sscratch1 := by
  cases r <;> simp only [Strand.write] <;> split <;> rfl
@[simp] theorem Strand.write_stimer (t : Strand) (r : GReg) (w : Word) : (t.write r w).stimer = t.stimer := by
  cases r <;> simp only [Strand.write] <;> split <;> rfl
@[simp] theorem Strand.write_frame (t : Strand) (r : GReg) (w : Word) : (t.write r w).frame = t.frame := by
  cases r <;> simp only [Strand.write] <;> split <;> rfl
@[simp] theorem Strand.write_trapFrame (t : Strand) (r : GReg) (w : Word) : (t.write r w).trapFrame = t.trapFrame := by
  cases r <;> simp only [Strand.write] <;> split <;> rfl
@[simp] theorem Strand.write_arrival (t : Strand) (r : GReg) (w : Word) : (t.write r w).arrival = t.arrival := by
  cases r <;> simp only [Strand.write] <;> split <;> rfl
@[simp] theorem Strand.write_cands (t : Strand) (r : GReg) (w : Word) : (t.write r w).cands = t.cands := by
  cases r <;> simp only [Strand.write] <;> split <;> rfl
@[simp] theorem Strand.write_candCap (t : Strand) (r : GReg) (w : Word) : (t.write r w).candCap = t.candCap := by
  cases r <;> simp only [Strand.write] <;> split <;> rfl
@[simp] theorem Strand.write_candSigned (t : Strand) (r : GReg) (w : Word) : (t.write r w).candSigned = t.candSigned := by
  cases r <;> simp only [Strand.write] <;> split <;> rfl
@[simp] theorem Strand.write_candLargest (t : Strand) (r : GReg) (w : Word) : (t.write r w).candLargest = t.candLargest := by
  cases r <;> simp only [Strand.write] <;> split <;> rfl
@[simp] theorem Strand.write_candNext (t : Strand) (r : GReg) (w : Word) : (t.write r w).candNext = t.candNext := by
  cases r <;> simp only [Strand.write] <;> split <;> rfl
@[simp] theorem Strand.write_pend (t : Strand) (r : GReg) (w : Word) : (t.write r w).pend = t.pend := by
  cases r <;> simp only [Strand.write] <;> split <;> rfl
@[simp] theorem Strand.write_pendNext (t : Strand) (r : GReg) (w : Word) : (t.write r w).pendNext = t.pendNext := by
  cases r <;> simp only [Strand.write] <;> split <;> rfl
@[simp] theorem Strand.write_pendTok (t : Strand) (r : GReg) (w : Word) : (t.write r w).pendTok = t.pendTok := by
  cases r <;> simp only [Strand.write] <;> split <;> rfl
@[simp] theorem Strand.write_tokLatch (t : Strand) (r : GReg) (w : Word) : (t.write r w).tokLatch = t.tokLatch := by
  cases r <;> simp only [Strand.write] <;> split <;> rfl
@[simp] theorem Strand.write_reports (t : Strand) (r : GReg) (w : Word) : (t.write r w).reports = t.reports := by
  cases r <;> simp only [Strand.write] <;> split <;> rfl
@[simp] theorem Strand.write_timerDue (t : Strand) (r : GReg) (w : Word) : (t.write r w).timerDue = t.timerDue := by
  cases r <;> simp only [Strand.write] <;> split <;> rfl
@[simp] theorem Strand.write_preemptDue (t : Strand) (r : GReg) (w : Word) : (t.write r w).preemptDue = t.preemptDue := by
  cases r <;> simp only [Strand.write] <;> split <;> rfl
@[simp] theorem Strand.write_mailbox (t : Strand) (r : GReg) (w : Word) : (t.write r w).mailbox = t.mailbox := by
  cases r <;> simp only [Strand.write] <;> split <;> rfl
@[simp] theorem Strand.write_groups (t : Strand) (r : GReg) (w : Word) : (t.write r w).groups = t.groups := by
  cases r <;> simp only [Strand.write] <;> split <;> rfl
@[simp] theorem Strand.write_region (t : Strand) (r : GReg) (w : Word) : (t.write r w).region = t.region := by
  cases r <;> simp only [Strand.write] <;> split <;> rfl
@[simp] theorem Strand.write_yieldUntil (t : Strand) (r : GReg) (w : Word) : (t.write r w).yieldUntil = t.yieldUntil := by
  cases r <;> simp only [Strand.write] <;> split <;> rfl
@[simp] theorem Strand.write_lastIssue (t : Strand) (r : GReg) (w : Word) : (t.write r w).lastIssue = t.lastIssue := by
  cases r <;> simp only [Strand.write] <;> split <;> rfl
@[simp] theorem Strand.write_killDue (t : Strand) (r : GReg) (w : Word) : (t.write r w).killDue = t.killDue := by
  cases r <;> simp only [Strand.write] <;> split <;> rfl
@[simp] theorem Strand.write_lostPut (t : Strand) (r : GReg) (w : Word) : (t.write r w).lostPut = t.lostPut := by
  cases r <;> simp only [Strand.write] <;> split <;> rfl
@[simp] theorem Strand.write_puts (t : Strand) (r : GReg) (w : Word) : (t.write r w).puts = t.puts := by
  cases r <;> simp only [Strand.write] <;> split <;> rfl
@[simp] theorem Strand.write_fillNone (t : Strand) (r : GReg) (w : Word) : (t.write r w).fillNone = t.fillNone := by
  cases r <;> simp only [Strand.write] <;> split <;> rfl
@[simp] theorem Strand.write_notices (t : Strand) (r : GReg) (w : Word) : (t.write r w).notices = t.notices := by
  cases r <;> simp only [Strand.write] <;> split <;> rfl
@[simp] theorem Strand.write_children (t : Strand) (r : GReg) (w : Word) : (t.write r w).children = t.children := by
  cases r <;> simp only [Strand.write] <;> split <;> rfl
@[simp] theorem Strand.write_owed (t : Strand) (r : GReg) (w : Word) : (t.write r w).owed = t.owed := by
  cases r <;> simp only [Strand.write] <;> split <;> rfl
@[simp] theorem Strand.write_got (t : Strand) (r : GReg) (w : Word) : (t.write r w).got = t.got := by
  cases r <;> simp only [Strand.write] <;> split <;> rfl
@[simp] theorem Strand.write_winMove (t : Strand) (r : GReg) (w : Word) : (t.write r w).winMove = t.winMove := by
  cases r <;> simp only [Strand.write] <;> split <;> rfl
@[simp] theorem Strand.next_gregs (t : Strand) : t.next.gregs = t.gregs := rfl
@[simp] theorem Strand.next_windows (t : Strand) : t.next.windows = t.windows := rfl
@[simp] theorem Strand.next_depth (t : Strand) : t.next.depth = t.depth := rfl
@[simp] theorem Strand.next_trapWin (t : Strand) : t.next.trapWin = t.trapWin := rfl
@[simp] theorem Strand.next_run (t : Strand) : t.next.run = t.run := rfl
@[simp] theorem Strand.next_halted (t : Strand) : t.next.halted = t.halted := rfl
@[simp] theorem Strand.next_task (t : Strand) : t.next.task = t.task := rfl
@[simp] theorem Strand.next_status (t : Strand) : t.next.status = t.status := rfl
@[simp] theorem Strand.next_fstat (t : Strand) : t.next.fstat = t.fstat := rfl
@[simp] theorem Strand.next_frmode (t : Strand) : t.next.frmode = t.frmode := rfl
@[simp] theorem Strand.next_taskSink (t : Strand) : t.next.taskSink = t.taskSink := rfl
@[simp] theorem Strand.next_scopeRect (t : Strand) : t.next.scopeRect = t.scopeRect := rfl
@[simp] theorem Strand.next_skip (t : Strand) : t.next.skip = t.skip := rfl
@[simp] theorem Strand.next_intrap (t : Strand) : t.next.intrap = t.intrap := rfl
@[simp] theorem Strand.next_priv (t : Strand) : t.next.priv = t.priv := rfl
@[simp] theorem Strand.next_epc (t : Strand) : t.next.epc = t.epc := rfl
@[simp] theorem Strand.next_ecause (t : Strand) : t.next.ecause = t.ecause := rfl
@[simp] theorem Strand.next_eaddr (t : Strand) : t.next.eaddr = t.eaddr := rfl
@[simp] theorem Strand.next_einfo (t : Strand) : t.next.einfo = t.einfo := rfl
@[simp] theorem Strand.next_tvec (t : Strand) : t.next.tvec = t.tvec := rfl
@[simp] theorem Strand.next_sscratch0 (t : Strand) : t.next.sscratch0 = t.sscratch0 := rfl
@[simp] theorem Strand.next_sscratch1 (t : Strand) : t.next.sscratch1 = t.sscratch1 := rfl
@[simp] theorem Strand.next_stimer (t : Strand) : t.next.stimer = t.stimer := rfl
@[simp] theorem Strand.next_frame (t : Strand) : t.next.frame = t.frame := rfl
@[simp] theorem Strand.next_trapFrame (t : Strand) : t.next.trapFrame = t.trapFrame := rfl
@[simp] theorem Strand.next_arrival (t : Strand) : t.next.arrival = t.arrival := rfl
@[simp] theorem Strand.next_cands (t : Strand) : t.next.cands = t.cands := rfl
@[simp] theorem Strand.next_candCap (t : Strand) : t.next.candCap = t.candCap := rfl
@[simp] theorem Strand.next_candSigned (t : Strand) : t.next.candSigned = t.candSigned := rfl
@[simp] theorem Strand.next_candLargest (t : Strand) : t.next.candLargest = t.candLargest := rfl
@[simp] theorem Strand.next_candNext (t : Strand) : t.next.candNext = t.candNext := rfl
@[simp] theorem Strand.next_pend (t : Strand) : t.next.pend = t.pend := rfl
@[simp] theorem Strand.next_pendNext (t : Strand) : t.next.pendNext = t.pendNext := rfl
@[simp] theorem Strand.next_pendTok (t : Strand) : t.next.pendTok = t.pendTok := rfl
@[simp] theorem Strand.next_tokLatch (t : Strand) : t.next.tokLatch = t.tokLatch := rfl
@[simp] theorem Strand.next_reports (t : Strand) : t.next.reports = t.reports := rfl
@[simp] theorem Strand.next_timerDue (t : Strand) : t.next.timerDue = t.timerDue := rfl
@[simp] theorem Strand.next_preemptDue (t : Strand) : t.next.preemptDue = t.preemptDue := rfl
@[simp] theorem Strand.next_mailbox (t : Strand) : t.next.mailbox = t.mailbox := rfl
@[simp] theorem Strand.next_groups (t : Strand) : t.next.groups = t.groups := rfl
@[simp] theorem Strand.next_region (t : Strand) : t.next.region = t.region := rfl
@[simp] theorem Strand.next_yieldUntil (t : Strand) : t.next.yieldUntil = t.yieldUntil := rfl
@[simp] theorem Strand.next_lastIssue (t : Strand) : t.next.lastIssue = t.lastIssue := rfl
@[simp] theorem Strand.next_killDue (t : Strand) : t.next.killDue = t.killDue := rfl
@[simp] theorem Strand.next_lostPut (t : Strand) : t.next.lostPut = t.lostPut := rfl
@[simp] theorem Strand.next_puts (t : Strand) : t.next.puts = t.puts := rfl
@[simp] theorem Strand.next_fillNone (t : Strand) : t.next.fillNone = t.fillNone := rfl
@[simp] theorem Strand.next_notices (t : Strand) : t.next.notices = t.notices := rfl
@[simp] theorem Strand.next_children (t : Strand) : t.next.children = t.children := rfl
@[simp] theorem Strand.next_owed (t : Strand) : t.next.owed = t.owed := rfl
@[simp] theorem Strand.next_got (t : Strand) : t.next.got = t.got := rfl
@[simp] theorem Strand.next_winMove (t : Strand) : t.next.winMove = t.winMove := rfl
@[simp] theorem Strand.next_pc (t : Strand) : t.next.pc = t.pc + 4 := rfl

/-- A register reads what was written to it; g0 reads zero. -/
theorem Strand.read_write (t : Strand) (r q : GReg) (w : Word) :
    (t.write r w).read q = if q = r then (if r = .g 0 then 0 else w) else t.read q := by
  cases r with
  | g n =>
    by_cases hn : n = 0
    · subst hn
      cases q with
      | g m => by_cases hm : m = 0 <;> simp [Strand.write, Strand.read, hm]
      | w m => simp [Strand.write, Strand.read]
    · cases q with
      | g m =>
        by_cases hm : m = 0
        · subst hm; simp [Strand.read, Ne.symm hn]
        · by_cases e : m = n
          · subst e; simp [Strand.write, Strand.read, hn]
          · have e' : (n : Nat) ≠ m := fun h => e (Fin.ext h.symm)
            simp [Strand.write, Strand.read, hn, hm, e, e']
      | w m => simp [Strand.write, Strand.read, hn, Strand.win]
  | w n =>
    cases q with
    | g m => by_cases hm : m = 0 <;> by_cases ht : t.intrap <;> simp [Strand.write, Strand.read, hm, ht]
    | w m =>
      by_cases e : m = n
      · subst e; by_cases ht : t.intrap <;> simp [Strand.write, Strand.read, Strand.win, ht]
      · have e' : (n : Nat) ≠ m := fun h => e (Fin.ext h.symm)
        by_cases ht : t.intrap <;> simp [Strand.write, Strand.read, Strand.win, ht, e, e']

/-! ## Registers an instruction names -/

/-- An instruction goes on when no register that it names is a pending token register. -/
theorem withRegs_go {s : State} {rs : List GReg} (h : NoStall s rs) (k : Strand → State) :
    withRegs s rs k = .next (k s.cur) := by unfold NoStall at h; simp [withRegs, h]

/-- It stalls on the first that is. -/
theorem withRegs_stall {s : State} {rs : List GReg} {n : Nat} (h : pendingTok s.cur rs = some n) (k : Strand → State) :
    withRegs s rs k = .next (stallOn s (.token n)) := by simp [withRegs, h]

/-- What it can answer. -/
theorem withRegs_cases {s t : State} {rs : List GReg} {k : Strand → State} (h : withRegs s rs k = .next t) :
    (NoStall s rs ∧ t = k s.cur) ∨ ∃ n, pendingTok s.cur rs = some n ∧ t = stallOn s (.token n) := by
  unfold withRegs at h
  cases e : pendingTok s.cur rs with
  | none => rw [e] at h; exact .inl ⟨e, by injection h with h; exact h.symm⟩
  | some n => rw [e] at h; exact .inr ⟨n, rfl, by injection h with h; exact h.symm⟩

theorem stallOn_eq (s : State) {c : Stall} (h : c ≠ .puts) : stallOn s c = s.setCur { s.cur with run := .stall c } := by
  simp [stallOn, h]

/-! ## Results -/

theorem alu_go {s : State} {d a b : GReg} (h : NoStall s [d, a, b]) (f : Word → Word → Word) :
    alu d a b f s = wrote s d (f (s.cur.read a) (s.cur.read b)) := by
  simp [alu, withRegs_go h, wrote, became, Strand.next]

theorem alu1_go {s : State} {d a : GReg} (h : NoStall s [d, a]) (f : Word → Word) :
    alu1 d a f s = wrote s d (f (s.cur.read a)) := by simp [alu1, withRegs_go h, wrote, became, Strand.next]

/-- A long-latency instruction leaves its result outstanding (R142). -/
theorem issueLong_eq (s : State) (l : BitVec 4) (act : PendAct) (va : Nat) :
    Host.Outcome.next (issueLong s l act va) = (outstanding s l act va : Out) := rfl

theorem issueStatus_eq (s : State) (d : GReg) (l : BitVec 4) (w : Word) :
    Host.Outcome.next (issueStatus s d l w) = (reported s d l w : Out) := rfl

theorem longAlu_go {s : State} {d a b : GReg} (h : NoStall s [d, a, b]) (l : BitVec 4) (f : Word → Word → Word) :
    longAlu d a b l f s = outstanding s l (.ready { regs := [(d, f (s.cur.read a) (s.cur.read b))] }) 0 := by
  simp only [longAlu, withRegs_go h, issueLong_eq]

theorem fpu_go {s : State} {d a b : GReg} (h : NoStall s [d, a, b]) (f : Rm → Word → Word → Nat × Nat) :
    fpu d a b f s = (let r := f s.cur.frmode (s.cur.read a) (s.cur.read b)
      became s { s.cur.write d (BitVec.ofNat 64 r.1) with pc := s.cur.pc + 4, fstat := s.cur.fstat ||| r.2 }) := by
  simp [fpu, withRegs_go h, fpWrite, became, Strand.next, Strand.raise]

/-! ## Regions -/

/-- An irrevocable instruction of a strand without a region aborts nothing. -/
theorem abortHeld_none {s : State} {id : Nat} (h : (s.strand id).region = none) (c : Code) (d : Nat) : abortHeld s id c d = s := by
  simp [abortHeld, h]

@[simp] theorem irrevocable_none {s : State} (h : s.cur.region = none) : irrevocable s = s := abortHeld_none h _ _

/-! ## Exceptions -/

/-- What trap entry can do (R370, R371): end the task at a double trap, wait for answers that are away, or enter the handler with
the saved registers written. -/
theorem trapEntry_cases (s : State) (id : Nat) (c : Cause) (inner code addr info tok : Nat) (epc : Word) :
    ((s.strand id).intrap = true ∧ trapEntry s id c inner code addr info tok epc = faultTask s id c.num addr epc.toNat)
    ∨ ((s.strand id).intrap = false ∧ answersAway (s.strand id) = true
        ∧ trapEntry s id c inner code addr info tok epc = s.modStrand id fun t => { t with run := .stall .results, owed := true })
    ∨ ((s.strand id).intrap = false ∧ answersAway (s.strand id) = false
        ∧ trapEntry s id c inner code addr info tok epc =
            (abortHeld ((deliverAll s id).modStrand id fun t => { t with run := .ready }) id .abortExplicit c.num).modStrand id
              fun t => t.enter c inner code addr info tok epc) := by
  unfold trapEntry
  cases h1 : (s.strand id).intrap <;> cases h2 : answersAway (s.strand id) <;> simp

/-- A strand with nothing outstanding and no region enters its handler at once. -/
theorem trapEntry_enter {s : State} {id : Nat} (h1 : (s.strand id).intrap = false) (h2 : (s.strand id).pend = [])
    (h3 : (s.strand id).region = none) (c : Cause) (inner code addr info tok : Nat) (epc : Word) :
    trapEntry s id c inner code addr info tok epc =
      s.setStrand id ({ s.strand id with run := .ready }.enter c inner code addr info tok epc) := by
  have ha : answersAway (s.strand id) = false := by simp [answersAway, h2]
  have hd : deliverAll s id = s := by simp [deliverAll, h2]
  rcases trapEntry_cases s id c inner code addr info tok epc with ⟨h, _⟩ | ⟨_, h, _⟩ | ⟨_, _, h⟩
  · simp [h1] at h
  · simp [ha] at h
  · rw [h, hd, abortHeld_none (by simp [h3])]
    simp [Strand.enter]

end Sys2Proof.Machine
end

