-- ==== Sys2Proof/Laws/Memory.lean ====
section
/-! SUPPORT. Memory: what a write at a home or a bank does where nothing else is under way, and that reads find what was
written. -/

namespace Sys2Proof.Machine

theorem abortLoop_nil (n : Nat) (s : State) : abortLoop n [] s = s := by cases n <;> rfl

theorem plainAbort_none {s : State} (h : ∀ r ∈ s.regions, r.2.st ≠ .live ∧ r.2.st ≠ .waiting ∧ justAborted s r.2 = false) (sector : Nat) :
    plainAbort s sector = s := by
  have e : (s.regions.filter fun (_, r) =>
      (r.st == .live || r.st == .waiting || justAborted s r) && (r.reads.contains sector || r.writes.contains sector)) = [] := by
    rw [List.filter_eq_nil_iff]
    rintro ⟨k, r⟩ hr
    have := h _ hr
    simp [this.1, this.2.1, this.2.2]
  simp only [plainAbort, e, List.filter_nil, List.map_nil, abortLoop_nil]

theorem recallLine_none {s : State} (h : ∀ c ∈ s.cores, c.2.red = []) (line : Nat) : recallLine s line = s := by
  have e : (s.cores.filter fun (_, c) => (c.red.find line).isSome) = [] := by
    rw [List.filter_eq_nil_iff]
    rintro ⟨k, c⟩ hc
    have h' : c.red = [] := h _ hc
    simp [h', Tbl.find]
  simp only [recallLine, e, List.foldl_nil]

theorem recallLoc_none {s : State} (h : PlainMemory s) (l : Loc) : recallLoc s l = s := by
  cases l <;> simp [recallLoc, recallLine_none h.noPartials]

/-- Where no store meets the condition, none leaves a buffer. -/
theorem leaving_none {f : BufStore → Bool} : ∀ {l : List BufStore}, (∀ b ∈ l, f b = false) → leaving f l = ([], l)
  | [], _ => rfl
  | b :: l, h => by
    have ih : leaving f l = ([], l) := leaving_none fun c hc => h c (by simp [hc])
    rw [leaving, List.foldr_cons, ← leaving, ih]
    simp [h b (by simp)]

theorem Tbl.find_mem {α : Type} {t : Tbl α} {n : Nat} {x : α} (h : t.find n = some x) : (n, x) ∈ t := by
  induction t with
  | nil => simp [Tbl.find] at h
  | cons p t ih =>
    obtain ⟨k, v⟩ := p
    simp only [Tbl.find] at h
    split at h
    · next e => subst e; injection h with h; subst h; simp
    · split at h
      · cases h
      · exact List.mem_cons_of_mem _ (ih h)

/-- Every core of a plain memory, listed or not, has no early store and no partial. -/
theorem PlainMemory.core {s : State} (h : PlainMemory s) (n : Nat) :
    (∀ b ∈ (s.core n).stores, b.early = []) ∧ (s.core n).red = [] := by
  unfold State.core Tbl.getD
  cases e : Tbl.find s.cores n with
  | none => simp
  | some c => exact ⟨h.noEarly _ (Tbl.find_mem e), h.noPartials _ (Tbl.find_mem e)⟩

theorem foldl_same {α β : Type} (f : β → α → β) (s : β) (h : ∀ a, f s a = s) : ∀ l : List α, l.foldl f s = s
  | [] => rfl
  | a :: l => by rw [List.foldl_cons, h a, foldl_same f s h l]

theorem commitEarlyN_none {s : State} (h : PlainMemory s) (n : Nat) (l : Loc) (m : Nat) : commitEarlyN n s l m = s := by
  cases n with
  | zero => rfl
  | succ n =>
    refine foldl_same _ s (fun a => ?_) _
    have e : leaving (fun b => !b.early.isEmpty && locOverlap l m b.loc b.bytes.length) (s.core a.1).stores
        = ([], (s.core a.1).stores) := leaving_none fun b hb => by simp [(h.core a.1).1 b hb]
    simp [e]

theorem commitEarly_none {s : State} (h : PlainMemory s) (l : Loc) (n : Nat) : commitEarly s l n = s := commitEarlyN_none h _ l n

/-- Where no store of a buffer meets the condition, nothing happens. -/
theorem flushWhere_none {s : State} {core : Nat} {f : BufStore → Bool} (h : ∀ b ∈ (s.core core).stores, f b = false) :
    flushWhere s core f = s := by simp [flushWhere, leaving_none h]

theorem fixLoads_none {s : State} {id : Nat} (h : ∀ p ∈ (s.strand id).pend, loadOf p = none) (f : Loc → Nat → Bool) :
    fixLoads s id f = s := by
  have k : ∀ l : List Pending, (∀ p ∈ l, loadOf p = none) →
      l.foldl (fun s p => if ((loadOf p).map fun (l, n, _) => f l n).getD false then fixLoad s id p else s) s = s := by
    intro l
    induction l with
    | nil => exact fun _ => rfl
    | cons p l ih =>
      intro hl
      rw [List.foldl_cons, hl p (by simp)]
      exact ih fun q hq => hl q (by simp [hq])
  exact k _ h

theorem noEarly_core {s : State} (h : ∀ c ∈ s.cores, ∀ b ∈ c.2.stores, b.early = []) (n : Nat) :
    ∀ b ∈ (s.core n).stores, b.early = [] := by
  unfold State.core Tbl.getD
  cases e : Tbl.find s.cores n with
  | none => simp
  | some c => exact h _ (Tbl.find_mem e)

theorem commitSeen_none {s : State} (h : ∀ c ∈ s.cores, ∀ b ∈ c.2.stores, b.early = []) (part core : Nat) :
    commitSeen s part core = s := by
  refine foldl_same _ s (fun a => ?_) _
  simp only
  split
  · rfl
  · exact flushWhere_none fun b hb => by simp [seenEarly, noEarly_core h a.1 b hb]

theorem showStores_none {s : State} {core : Nat} {f : BufStore → Bool} (h : ∀ b ∈ (s.core core).stores, f b = false) (rect : Nat) :
    showStores s core rect f = s := by
  have e : (s.core core).stores.filter f = [] := List.filter_eq_nil_iff.2 fun b hb => by simp [h b hb]
  simp [showStores, flushWhere_none (s := s) (core := core) (f := fun b => f b && b.loc.isAway) fun b hb => by simp [h b hb], e]

theorem landRows_none {s : State} {id : Nat} (h : ∀ f ∈ s.rows, f.strand ≠ id) : landRows s id = s := by
  have e : (s.rows.filter fun f => f.strand == id) = [] := List.filter_eq_nil_iff.2 fun f hf => by simp [h f hf]
  simp [landRows, e]

/-- A release finds nothing to do where the strand has no load to perform and no row under way, its core's store buffer is empty and no store is
visible early (R92, R95). -/
theorem release_idle {s : State} {id : Nat} (hl : ∀ p ∈ (s.strand id).pend, loadOf p = none) (hs : (s.core (strandCore id)).stores = [])
    (he : ∀ c ∈ s.cores, ∀ b ∈ c.2.stores, b.early = []) (hr : ∀ f ∈ s.rows, f.strand ≠ id) (sc : Scope) (rect : Nat) :
    release s id sc rect = s := by
  have all : flushCore (commitSeen s (s.strandPart id) (strandCore id)) (strandCore id) = s := by
    rw [commitSeen_none he]
    simp [flushCore, hs, flushLoop]
  have shown (a : Nat × Core) : showStores s a.1 rect (if a.1 = strandCore id then fun _ => true
      else seenEarly s (s.strandPart id) (strandCore id)) = s := by
    refine showStores_none (fun b hb => ?_) rect
    split
    · next e => rw [e, hs] at hb; cases hb
    · simp [seenEarly, noEarly_core he a.1 b hb]
  simp only [release, fixLoads_none hl, landRows_none hr]
  cases sc with
  | strand => rfl
  | core => rfl
  | rect =>
    simp only
    split
    · exact foldl_same _ s shown _
    · exact all
  | device => exact all
  | system => exact all

/-- So it is at device scope where all is calm. -/
theorem release_calm {s : State} (h : Calm s) : release s s.strandId .device 0 = s := release_idle h.noLoads h.noStores h.noEarly h.noRows _ _

theorem homeWrite_eq {s : State} (h : PlainMemory s) (l : Loc) (bs : List Byte) : homeWrite s l bs = rawWrite s l bs := by
  unfold homeWrite
  rw [recallLoc_none h]
  cases l <;> simp [plainAbort_none h.noRegions]

theorem plainWrite_eq {s : State} (h : PlainMemory s) (l : Loc) (bs : List Byte) : plainWrite s l bs = rawWrite s l bs := by
  unfold plainWrite
  rw [commitEarly_none h, homeWrite_eq h]

@[simp] theorem setPoison_cores (l : Loc) (b : Bool) (s : State) : (setPoison l b s).cores = s.cores := by cases l <;> rfl
@[simp] theorem setPoison_regions (l : Loc) (b : Bool) (s : State) : (setPoison l b s).regions = s.regions := by cases l <;> rfl
@[simp] theorem setPoison_cycle (l : Loc) (b : Bool) (s : State) : (setPoison l b s).cycle = s.cycle := by cases l <;> rfl
@[simp] theorem setPoison_hbm (l : Loc) (b : Bool) (s : State) : (setPoison l b s).hbm = s.hbm := by cases l <;> rfl
@[simp] theorem setPoison_spad (l : Loc) (b : Bool) (s : State) : (setPoison l b s).spad = s.spad := by cases l <;> rfl
@[simp] theorem setPoison_strands (l : Loc) (b : Bool) (s : State) : (setPoison l b s).strands = s.strands := by cases l <;> rfl

@[simp] theorem rawWrite_cores (s : State) (l : Loc) (bs : List Byte) : (rawWrite s l bs).cores = s.cores := by
  unfold rawWrite; split <;> cases l <;> simp
@[simp] theorem rawWrite_regions (s : State) (l : Loc) (bs : List Byte) : (rawWrite s l bs).regions = s.regions := by
  unfold rawWrite; split <;> cases l <;> simp
@[simp] theorem rawWrite_cycle (s : State) (l : Loc) (bs : List Byte) : (rawWrite s l bs).cycle = s.cycle := by
  unfold rawWrite; split <;> cases l <;> simp
@[simp] theorem rawWrite_strands (s : State) (l : Loc) (bs : List Byte) : (rawWrite s l bs).strands = s.strands := by
  unfold rawWrite; split <;> cases l <;> simp

/-- A raw write puts its bytes into the store of its place and leaves the others. -/
theorem rawWrite_mem (s : State) (pa : Nat) (bs : List Byte) : (rawWrite s (.mem pa) bs).hbm = s.hbm.putBytes pa bs := by
  unfold rawWrite; split <;> simp
theorem rawWrite_spad (s : State) (a : Nat) (bs : List Byte) : (rawWrite s (.spad a) bs).spad = s.spad.putBytes a bs := by
  unfold rawWrite; split <;> simp
@[simp] theorem rawWrite_mem_spad (s : State) (pa : Nat) (bs : List Byte) : (rawWrite s (.mem pa) bs).spad = s.spad := by
  unfold rawWrite; split <;> simp
@[simp] theorem rawWrite_spad_hbm (s : State) (a : Nat) (bs : List Byte) : (rawWrite s (.spad a) bs).hbm = s.hbm := by
  unfold rawWrite; split <;> simp

theorem rawWrite_plain {s : State} (h : PlainMemory s) (l : Loc) (bs : List Byte) : PlainMemory (rawWrite s l bs) :=
  ⟨by simpa using h.noEarly, by simpa using h.noPartials, by simpa [justAborted] using h.noRegions⟩

/-- Reading back bytes written to a store in canonical form. -/
theorem Mem.bytes_putBytes (bs : List Byte) (m : Mem) (a : Nat) (h : Memory.wf m = true) :
    (m.putBytes a bs).bytes a bs.length = bs := by
  have : ∀ n k, k + n ≤ bs.length → (m.putBytes a bs).bytes (a + k) n = (bs.drop k).take n := by
    intro n
    induction n with
    | zero => intro k _; simp [Mem.bytes]
    | succ n ih =>
      intro k hk
      have hk' : k < bs.length := by omega
      rw [Mem.bytes, Mem.get_putBytes _ _ _ _ h, if_pos (by omega)]
      rw [show a + k + 1 = a + (k + 1) by omega, ih (k + 1) (by omega)]
      rw [List.drop_eq_getElem_cons hk', List.take_succ_cons]
      simp [List.getD, hk']
  simpa using this bs.length 0 (by omega)

end Sys2Proof.Machine
end

