-- ==== Sys2Proof/Laws/Access.lean ====
section
/-! SUPPORT. Accesses: what a load, a store and an atomic come to once their checks have passed, for a strand without a
forwarding region. -/

namespace Sys2Proof.Machine

theorem sysAllowed_ordinary {s : State} {va : Nat} (h : window va ≠ 15) (word : Bool) : sysAllowed s va word = false := by
  simp [sysAllowed, h]

theorem tracked_none {s : State} (h : s.cur.region = none) (va : Nat) : tracked s va = none := by simp [tracked, h]

/-- A load is outstanding at its place (R89). -/
theorem loadAt_go {s s' : State} {n va : Nat} {loc : Loc} (c : Checked s s' va n .load loc) (hr : s.cur.region = none)
    (hl : loc.isAway = false) (l : BitVec 4) (act : Loc → PendAct) (regs : List Byte → Deliver) (word : Bool) :
    loadAt s l act regs n va word = issueLong (orderLoads s' s'.strandId loc n) l (act loc) va := by
  have hr' : s'.cur.region = none := by rw [c.sameCur]; exact hr
  simp [loadAt, aligned, c.aligned, sysAllowed_ordinary c.ordinary, c.passes, withAccess, doLoad, hl, tracked_none hr']

/-- A store enters the store buffer (R90). -/
theorem storeAt_go {s s' : State} {va : Nat} {bs : List Byte} {loc : Loc} (c : Checked s s' va bs.length .store loc)
    (hr : s.cur.region = none) (word : Bool) : storeAt s va bs word = enterStore s' loc va bs := by
  have hr' : s'.cur.region = none := by rw [c.sameCur]; exact hr
  have hi : writeIssues s va = s := by unfold writeIssues; rw [irrevocable_none hr, ite_self]
  have ht : trackedWrite s s' va = none := by
    unfold trackedWrite
    rw [tracked_none hr', ite_self]
  simp only [storeAt, aligned, c.aligned, if_true, sysAllowed_ordinary c.ordinary, Bool.false_eq_true, if_false, hi, c.passes,
    withAccess, doStore, ht]

/-- An atomic that releases nothing sets out (R97, R209). -/
theorem atomAt_go {s s' : State} {va : Nat} {loc : Loc} {o : Order} {act : Option (Scope × Nat) → Loc → PendAct}
    (c : Checked s s' va (atomBytes (act none .zero)) .atom loc) (hr : s.cur.region = none) (ho : Order.releases o = false) (sc : Scope) :
    atomAt s va o sc act = sendAtom s' va loc (act none loc) := by
  have hr' : s'.cur.region = none := by rw [c.sameCur]; exact hr
  have hi : writeIssues s va = s := by unfold writeIssues; rw [irrevocable_none hr, ite_self]
  have ht : trackedWrite s s' va = none := by
    unfold trackedWrite
    rw [tracked_none hr', ite_self]
  simp [atomAt, aligned, c.aligned, hi, c.passes, withAccess, ht, orderedAtom, ho]

/-- A core whose buffer is empty has no store to let go first. -/
theorem flushWhere_empty {s : State} {core : Nat} (h : (s.core core).stores = []) (f : BufStore → Bool) :
    flushWhere s core f = s := flushWhere_none (by simp [h])

theorem atomOld_plain {s : State} (h : PlainMemory s) (loc : Loc) (n : Nat) : atomOld s loc n = (s, rawRead s loc n) := by
  simp [atomOld, commitEarly_none h, recallLoc_none h]

/-- An atomic at a bank that releases nothing is performed at once: its bytes, and its values (R97, R208). -/
theorem sendAtom_spad {s : State} (h : PlainMemory s) (hs : (s.core s.curCore).stores = []) (va a : Nat) {act : PendAct}
    (hr : act.release = none) :
    sendAtom s va (.spad a) act =
      (let r := atomEval act (s.spad.bytes a (atomBytes act))
       deliverNext (match r.1 with
        | some bs => rawWrite s (.spad a) bs
        | none => s) r.2) := by
  simp only [sendAtom, flushWhere_empty hs, performAtom, atomOld_plain h, hr, rawRead]
  have k : ∀ r : Option (List Byte) × Deliver, (r.1.map (homeWrite s (.spad a))).getD s = match r.1 with
        | some bs => rawWrite s (.spad a) bs
        | none => s := by
    rintro ⟨_ | bs, v⟩ <;> simp [homeWrite_eq h]
  have first : systemFirst s (.spad a) act = false := by simp [systemFirst, hr]
  simp only [← k, first, Bool.false_eq_true, if_false]
  split
  · contradiction
  · rfl

end Sys2Proof.Machine
end

