-- ==== Sys2Proof/Laws/Canonical.lean ====
section
/-! SUPPORT. Every operation that writes a store of bytes keeps its canonical form (`State.storesOk`), and reset has it. -/

namespace Sys2Proof.Machine

/-- The six stores of bytes of a state. -/
def State.stores (s : State) : List Mem := [s.hbm, s.spad, s.opmem, s.accMem, s.routineMem, s.mgmt.store]

theorem storesOk_congr {s t : State} (h : t.stores = s.stores) : t.storesOk = s.storesOk := by
  simp only [State.stores, List.cons.injEq, and_true] at h
  obtain ⟨h1, h2, h3, h4, h5, h6⟩ := h
  simp only [State.storesOk, h1, h2, h3, h4, h5, h6]

theorem storesOk_iff (s : State) : s.storesOk = true ↔ ∀ m ∈ s.stores, Memory.wf m = true := by
  simp [State.storesOk, State.stores, and_assoc]

/-- Reset's stores list nothing. -/
theorem reset_storesOk : State.reset.storesOk = true := by decide +kernel

@[simp] theorem dropSeqs_stores (s : State) (r : Nat) : (dropSeqs s r).stores = s.stores := rfl
@[simp] theorem dropEdges_stores (s : State) (r : Nat) : (dropEdges s r).stores = s.stores := rfl
@[simp] theorem setRegion_stores (s : State) (n : Nat) (r : Region) : (s.setRegion n r).stores = s.stores := rfl
@[simp] theorem setStrand_stores (s : State) (n : Nat) (t : Strand) : (s.setStrand n t).stores = s.stores := rfl
@[simp] theorem setCore_stores (s : State) (n : Nat) (c : Core) : (s.setCore n c).stores = s.stores := rfl
@[simp] theorem endRegion_stores (s : State) (r c d : Nat) : (endRegion s r c d).stores = s.stores := by
  simp [endRegion]
@[simp] theorem finishFre_stores (s : State) (r : Nat) : (finishFre s r).stores = s.stores := by
  simp only [finishFre]
  split <;> simp
theorem abortLoop_stores (n : Nat) : ∀ (w : List (Nat × Nat × Nat)) (s : State), (abortLoop n w s).stores = s.stores := by
  induction n with
  | zero => intro w s; rfl
  | succ n ih =>
    intro w s
    match w with
    | [] => rfl
    | (r, c, d) :: w =>
      unfold abortLoop
      simp only
      split
      · simp [ih]
      · split
        · exact (ih w _).trans (setRegion_stores ..)
        · exact ih w s
@[simp] theorem abortRegion_stores (s : State) (r : Nat) (c : Code) (d : Nat) : (abortRegion s r c d).stores = s.stores :=
  abortLoop_stores ..
@[simp] theorem plainAbort_stores (s : State) (sector : Nat) : (plainAbort s sector).stores = s.stores := abortLoop_stores ..
@[simp] theorem setPoison_stores (l : Loc) (b : Bool) (s : State) : (setPoison l b s).stores = s.stores := by cases l <;> rfl

/-- A fold keeps what each of its steps keeps. -/
theorem foldl_keeps {α : Type} {P : State → Prop} {f : State → α → State} (h : ∀ s a, P s → P (f s a)) (l : List α) :
    ∀ s, P s → P (l.foldl f s) := by
  induction l with
  | nil => exact fun _ hs => hs
  | cons a l ih => exact fun s hs => ih _ (h s a hs)

theorem rawWrite_storesOk {s : State} (h : s.storesOk = true) (l : Loc) (bs : List Byte) : (rawWrite s l bs).storesOk = true := by
  rw [storesOk_iff] at *
  have k : ∀ (u : State), u.stores = s.stores → ∀ m ∈ (match l with
      | .mem pa => { u with hbm := u.hbm.putBytes pa bs }
      | .spad a => { u with spad := u.spad.putBytes a bs }
      | _ => u : State).stores, Memory.wf m = true := by
    intro u e
    rw [← e] at h
    simp only [State.stores, List.forall_mem_cons] at h
    obtain ⟨h1, h2, h⟩ := h
    cases l <;> simp only [State.stores, List.forall_mem_cons]
    · exact ⟨Mem.wf_putBytes _ _ _ h1, h2, h⟩
    · exact ⟨h1, Mem.wf_putBytes _ _ _ h2, h⟩
    all_goals exact ⟨h1, h2, h⟩
  unfold rawWrite
  split
  · exact k _ (setPoison_stores ..)
  · exact k _ rfl

theorem recallCore_storesOk {s : State} (h : s.storesOk = true) (line core : Nat) : (recallCore s line core).storesOk = true := by
  unfold recallCore
  simp only
  split
  · exact h
  · refine foldl_keeps (P := fun s => s.storesOk = true) ?_ _ _ ((storesOk_congr (setCore_stores ..)).trans h)
    intro s a hs
    exact rawWrite_storesOk ((storesOk_congr (plainAbort_stores ..)).trans hs) _ _

theorem recallLine_storesOk {s : State} (h : s.storesOk = true) (line : Nat) : (recallLine s line).storesOk = true :=
  foldl_keeps (P := fun s => s.storesOk = true) (fun _ _ hs => recallCore_storesOk hs _ _) _ _ h

theorem recallLoc_storesOk {s : State} (h : s.storesOk = true) (l : Loc) : (recallLoc s l).storesOk = true := by
  unfold recallLoc
  split
  · exact recallLine_storesOk h _
  · exact h

theorem homeWrite_storesOk {s : State} (h : s.storesOk = true) (l : Loc) (bs : List Byte) : (homeWrite s l bs).storesOk = true := by
  have k := recallLoc_storesOk h l
  simp only [homeWrite]
  refine rawWrite_storesOk ?_ _ _
  generalize recallLoc s l = u at k
  split
  · exact (storesOk_congr (plainAbort_stores ..)).trans k
  · exact k

/-! ## What is sent -/

@[simp] theorem setStream_stores (s : State) (n : Nat) (x : Stream) : (s.setStream n x).stores = s.stores := rfl
@[simp] theorem setPort_stores (s : State) (n : Nat) (x : Port) : (s.setPort n x).stores = s.stores := rfl
theorem hostSend_stores (s : State) (part stream typ tag addr : Nat) (bs : List Byte) :
    (hostSend s part stream typ tag addr bs).stores = s.stores := by
  simp only [hostSend]
  split
  · rfl
  · rfl
theorem pumpOne_stores {s t : State} {n vc : Nat} (h : pumpOne s n vc = some t) : t.stores = s.stores := by
  simp only [pumpOne] at h
  split at h
  · simp at h
  · split at h
    · simp at h
    · split at h
      all_goals
        obtain rfl := Option.some.inj h
        rfl
theorem pump_stores (n : Nat) : ∀ (k : Nat) (s : State), (pump n k s).stores = s.stores := by
  intro k
  induction k with
  | zero => exact fun _ => rfl
  | succ k ih =>
    intro s
    simp only [pump]
    split
    · split
      · rename_i t ht
        obtain ⟨_, _, ht⟩ := List.exists_of_findSome?_eq_some ht
        exact (ih t).trans (pumpOne_stores ht)
      · rfl
    · rfl
theorem sendPacket_stores (s : State) (typ : Nat) (p : Packet) (c : Option Nat) :
    (sendPacket s typ p c).stores = s.stores := by
  unfold sendPacket
  split
  · simp only [present]
    split <;> rfl
  · unfold emit
    split
    · rfl
    · exact (pump_stores ..).trans (setPort_stores ..)
theorem sendRequest_stores (s : State) (typ : Nat) (who : Asker) (p : Packet) :
    (sendRequest s typ who p).stores = s.stores := (sendPacket_stores ..).trans rfl
theorem sendPut_stores (s : State) (b : BufStore) (p off : Nat) : (sendPut s b p off).stores = s.stores := by
  unfold sendPut
  exact (sendRequest_stores ..).trans rfl
theorem sendHmem_stores (s : State) (part : Nat) (who : Asker) (w r : Bool) (addr va len dest : Nat) (key data : List Byte) (m : Nat) :
    (sendHmem s part who w r addr va len dest key data m).stores = s.stores := (hostSend_stores ..).trans rfl

/-- A store takes effect at its place. -/
theorem leaveStore_storesOk {s : State} (h : s.storesOk = true) (b : BufStore) : (leaveStore s b).storesOk = true := by
  unfold leaveStore
  split
  · exact (storesOk_congr (sendPut_stores ..)).trans h
  · exact homeWrite_storesOk h _ _

theorem commitEarlyN_storesOk (n : Nat) : ∀ {s : State}, s.storesOk = true → ∀ (l : Loc) (m : Nat),
    (commitEarlyN n s l m).storesOk = true := by
  induction n with
  | zero => exact fun h _ _ => h
  | succ n ih =>
    intro s h l m
    refine foldl_keeps (P := fun s => s.storesOk = true) ?_ _ _ h
    rintro s ⟨k, c⟩ hs
    simp only
    split
    · exact hs
    · exact foldl_keeps (P := fun s => s.storesOk = true) (fun _ _ h => leaveStore_storesOk (ih h _ _) _) _ _
        ((storesOk_congr (setCore_stores ..)).trans hs)

theorem commitEarly_storesOk {s : State} (h : s.storesOk = true) (l : Loc) (n : Nat) : (commitEarly s l n).storesOk = true :=
  commitEarlyN_storesOk _ h _ _

theorem plainWrite_storesOk {s : State} (h : s.storesOk = true) (l : Loc) (bs : List Byte) : (plainWrite s l bs).storesOk = true :=
  homeWrite_storesOk (commitEarly_storesOk h _ _) _ _

theorem sendRemotePut_stores (id : Nat) (s : State) (sector : Nat) (bs : List Byte) :
    (sendRemotePut id s sector bs).stores = s.stores := by
  unfold sendRemotePut
  exact (sendHmem_stores ..).trans rfl

/-- The commit of a region puts its last write of each byte (R266). -/
theorem commitRegion_storesOk {s : State} (h : s.storesOk = true) (r : Nat) : (commitRegion s r).storesOk = true := by
  unfold commitRegion
  refine foldl_keeps (P := fun s => s.storesOk = true) (fun _ _ hs => (storesOk_congr (sendRemotePut_stores ..)).trans hs) _ _
    ((storesOk_congr (endRegion_stores ..)).trans ?_)
  refine foldl_keeps (P := fun s => s.storesOk = true) ?_ _ _ h
  intro s sector hs
  have put : ∀ (w : Tbl Byte) (m : Mem), Memory.wf m = true →
      Memory.wf (w.foldl (fun m (k, v) => m.put (32 * sector + k) v) m) = true := by
    intro w
    induction w with
    | nil => exact fun _ hm => hm
    | cons c w ih => exact fun m hm => ih _ (Mem.wf_put _ _ _ hm)
  have all : ∀ (u : State) (w : Tbl Byte), u.storesOk = true →
      ({ u with hbm := w.foldl (fun m (k, v) => m.put (32 * sector + k) v) u.hbm } : State).storesOk = true := by
    intro u w hu
    rw [storesOk_iff] at *
    simp only [State.stores, List.forall_mem_cons] at *
    exact ⟨put _ _ hu.1, hu.2⟩
  simp only
  split
  · exact all _ _ ((storesOk_congr (setPoison_stores ..)).trans hs)
  · exact all _ _ hs

/-- The exchange of two lines (R399). -/
theorem exchangeLines_storesOk {s : State} (h : s.storesOk = true) (a b : Nat) : (exchangeLines s a b).storesOk = true := by
  have k := foldl_keeps (P := fun s => s.storesOk = true) (f := plainAbort)
    (fun s x hs => (storesOk_congr (plainAbort_stores s x)).trans hs) [a / 32, a / 32 + 1, b / 32, b / 32 + 1] _
    (recallLine_storesOk (recallLine_storesOk (commitEarly_storesOk (commitEarly_storesOk h (.mem a) 64) (.mem b) 64) (a / 64)) (b / 64))
  unfold exchangeLines
  simp only
  generalize List.foldl plainAbort _ _ = u at k
  have e : ∀ t : State, t.stores = ({ u with hbm := (u.hbm.putBytes a (u.hbm.bytes b 64)).putBytes b (u.hbm.bytes a 64) } : State).stores →
      t.storesOk = true := by
    intro t ht
    rw [storesOk_congr ht, storesOk_iff]
    rw [storesOk_iff] at k
    simp only [State.stores, List.forall_mem_cons] at *
    exact ⟨Mem.wf_putBytes _ _ _ (Mem.wf_putBytes _ _ _ k.1), k.2⟩
  refine e _ ?_
  exact (setPoison_stores ..).trans ((setPoison_stores ..).trans ((setPoison_stores ..).trans (setPoison_stores ..)))

/-! ## Stores that leave a core's buffer -/

/-- A store leaves the buffer (R91). -/
theorem commitOne_storesOk {s : State} (h : s.storesOk = true) (b : BufStore) : (commitOne s b).storesOk = true :=
  leaveStore_storesOk (commitEarly_storesOk h _ _) _
theorem flushCore_storesOk {s : State} (h : s.storesOk = true) (core : Nat) : (flushCore s core).storesOk = true := by
  have loop : ∀ (n : Nat) (s : State), s.storesOk = true → (flushLoop n core s).storesOk = true := by
    intro n
    induction n with
    | zero => exact fun _ hs => hs
    | succ n ih =>
      intro s hs
      simp only [flushLoop]
      split
      · exact hs
      · exact ih _ (commitOne_storesOk ((storesOk_congr (setCore_stores ..)).trans hs) _)
  exact loop _ _ h
theorem flushWhere_storesOk {s : State} (h : s.storesOk = true) (core : Nat) (f : BufStore → Bool) :
    (flushWhere s core f).storesOk = true := by
  unfold flushWhere
  simp only
  split
  · exact h
  · exact foldl_keeps (P := fun s => s.storesOk = true) (fun _ _ hs => commitOne_storesOk hs _) _ _
      ((storesOk_congr (setCore_stores ..)).trans h)
theorem flushPart_storesOk {s : State} (h : s.storesOk = true) (part : Nat) (f : BufStore → Bool) :
    (flushPart s part f).storesOk = true := by
  refine foldl_keeps (P := fun s => s.storesOk = true) ?_ _ _ h
  intro s c hs
  simp only
  split
  · exact flushWhere_storesOk hs _ _
  · exact hs

/-! ## The stores of a Chisel -/

theorem setAcc_storesOk {s : State} (h : s.storesOk = true) (ch a : Nat) (bs : List Byte) : (setAcc s ch a bs).storesOk = true := by
  rw [storesOk_iff] at *
  simp only [setAcc, State.stores, List.forall_mem_cons] at *
  exact ⟨h.1, h.2.1, h.2.2.1, Mem.wf_putBytes _ _ _ h.2.2.2.1, h.2.2.2.2⟩

/-- A result reaches a register or a slot (R52, R292). -/
theorem landOne_storesOk {s : State} (h : s.storesOk = true) (id : Nat) (d : CDest) : (landOne s id d).storesOk = true := by
  have put : ∀ (u : State) (a : Nat) (bs : List Byte), u.stores = s.stores →
      ({ u with opmem := u.opmem.putBytes a bs } : State).storesOk = true := by
    intro u a bs e
    rw [storesOk_iff, ← e] at h
    rw [storesOk_iff]
    simp only [State.stores, List.forall_mem_cons] at *
    exact ⟨h.1, h.2.1, Mem.wf_putBytes _ _ _ h.2.2.1, h.2.2.2⟩
  cases d with
  | slot o off bs =>
    simp only [landOne]
    split
    · exact put _ _ _ rfl
    · exact put _ _ _ rfl
  | _ => exact (storesOk_congr rfl).trans h

theorem writeSlot_storesOk {s : State} (h : s.storesOk = true) (ch id o : Nat) (ps : List (Nat × List Byte)) :
    (writeSlot s ch id o ps).storesOk = true := by
  have put : ∀ (ps : List (Nat × List Byte)) (m : Mem), Memory.wf m = true →
      Memory.wf (ps.foldl (fun m (p, bs) => m.putBytes (slotBase ch o + p) bs) m) = true := by
    intro ps
    induction ps with
    | nil => exact fun _ hm => hm
    | cons c ps ih => exact fun m hm => ih _ (Mem.wf_putBytes _ _ _ hm)
  rw [storesOk_iff] at *
  simp only [State.stores, List.forall_mem_cons] at h
  unfold writeSlot
  simp only [State.stores, List.forall_mem_cons]
  exact ⟨h.1, h.2.1, put _ _ h.2.2.1, h.2.2.2⟩

end Sys2Proof.Machine
end

