-- ==== Sys2Proof/Laws/Ends.lean ====
section
/-! SUPPORT. The end of a task: once it has ended, its strand is FREE with one empty window and no group, candidate or result,
and the reports, writes of memory and aborts of regions that follow leave it so. -/

namespace Sys2Proof.Machine

/-- A strand that holds no task. -/
structure Freed (t : Strand) : Prop where
  run : t.run = .free
  depth : t.depth = 1
  groups : t.groups = []
  cands : t.cands = []
  pend : t.pend = []

theorem strand_setStrand (s : State) (n m : Nat) (t : Strand) :
    (s.setStrand n t).strand m = if m = n then t else s.strand m := by
  simp [State.strand, Tbl.getD_put]

theorem strand_congr {s u : State} (h : u.strands = s.strands) (n : Nat) : u.strand n = s.strand n := by
  simp [State.strand, h]

/-! ## Regions and memory -/

variable {id : Nat}

theorem Freed.modStrand {s : State} (n : Nat) (f : Strand → Strand) (hf : ∀ t, Freed t → Freed (f t))
    (h : Freed (s.strand id)) : Freed ((s.modStrand n f).strand id) := by
  simp only [State.modStrand, strand_setStrand]
  split
  · next e => subst e; exact hf _ h
  · exact h

theorem Freed.endRegion {s : State} (h : Freed (s.strand id)) (rid code detail : Nat) :
    Freed ((endRegion s rid code detail).strand id) := by
  exact Freed.modStrand (s := (dropEdges (dropSeqs s rid) rid).setRegion rid _) _
    (fun t => if t.region = some rid then { t with region := none } else t) (fun t ht => by
      split
      · exact ⟨ht.run, ht.depth, ht.groups, ht.cands, ht.pend⟩
      · exact ht) h

theorem Freed.finishFre {s : State} (h : Freed (s.strand id)) (rid : Nat) : Freed ((finishFre s rid).strand id) := by
  unfold Machine.finishFre
  dsimp only
  split
  · next d _ hr _ =>
    refine Freed.endRegion ?_ rid _ _
    simp only [State.modStrand, strand_setStrand]
    split
    · next e => subst e; rw [h.run] at hr; cases hr
    · exact h
  · exact h

theorem Freed.abortLoop (n : Nat) : ∀ (w : List (Nat × Nat × Nat)) {s : State}, Freed (s.strand id) →
    Freed ((abortLoop n w s).strand id) := by
  induction n with
  | zero => intro w s h; exact h
  | succ n ih =>
    intro w s h
    cases w with
    | nil => exact h
    | cons x w =>
      obtain ⟨rid, code, detail⟩ := x
      simp only [Machine.abortLoop]
      split
      · exact ih _ (s := dropEdges (dropSeqs (s.setRegion rid _) rid) rid) h
      · split
        · exact ih _ (s := s.setRegion rid _) h
        · exact ih _ h

theorem Freed.abortHeld {s : State} (h : Freed (s.strand id)) (k : Nat) (c : Code) (d : Nat) :
    Freed ((abortHeld s k c d).strand id) := by
  unfold Machine.abortHeld
  split
  · exact Freed.abortLoop _ _ h
  · exact h

theorem Freed.plainAbort {s : State} (h : Freed (s.strand id)) (sector : Nat) : Freed ((plainAbort s sector).strand id) :=
  Freed.abortLoop _ _ h

theorem Freed.rawWrite {s : State} (h : Freed (s.strand id)) (l : Loc) (bs : List Byte) :
    Freed ((rawWrite s l bs).strand id) := by
  rw [strand_congr (rawWrite_strands s l bs)]; exact h

theorem Freed.foldl {α : Type} (f : State → α → State) (hf : ∀ s a, Freed (s.strand id) → Freed ((f s a).strand id)) :
    ∀ (l : List α) {s : State}, Freed (s.strand id) → Freed ((l.foldl f s).strand id) := by
  intro l
  induction l with
  | nil => intro s h; exact h
  | cons a l ih => intro s h; exact ih (hf s a h)

theorem Freed.recallCore {s : State} (h : Freed (s.strand id)) (line core : Nat) : Freed ((recallCore s line core).strand id) := by
  unfold Machine.recallCore
  simp only
  split
  · exact h
  · exact Freed.foldl _ (fun s p h => Freed.rawWrite (Freed.plainAbort h _) _ _) _ h

theorem Freed.recallLoc {s : State} (h : Freed (s.strand id)) (l : Loc) : Freed ((recallLoc s l).strand id) := by
  cases l
  · exact Freed.foldl _ (fun s p h => Freed.recallCore h _ _) _ h
  all_goals exact h

theorem Freed.homeWrite {s : State} (h : Freed (s.strand id)) (l : Loc) (bs : List Byte) :
    Freed ((homeWrite s l bs).strand id) := by
  unfold Machine.homeWrite
  refine Freed.rawWrite ?_ _ _
  cases l
  · exact Freed.plainAbort (Freed.recallLoc h _) _
  all_goals exact Freed.recallLoc h _

/-! ## What is sent -/

theorem hostSend_strands (s : State) (part stream typ tag addr : Nat) (bs : List Byte) :
    (hostSend s part stream typ tag addr bs).strands = s.strands := by
  simp only [hostSend]
  split <;> rfl

theorem pumpOne_strands {s t : State} {n vc : Nat} (h : pumpOne s n vc = some t) : t.strands = s.strands := by
  simp only [pumpOne] at h
  split at h
  · simp at h
  · split at h
    · simp at h
    · split at h
      all_goals
        obtain rfl := Option.some.inj h
        rfl

theorem pump_strands (n k : Nat) : ∀ s : State, (pump n k s).strands = s.strands := by
  induction k with
  | zero => exact fun _ => rfl
  | succ k ih =>
    intro s
    simp only [pump]
    split
    · split
      · rename_i t ht
        obtain ⟨_, _, ht⟩ := List.exists_of_findSome?_eq_some ht
        exact (ih t).trans (pumpOne_strands ht)
      · rfl
    · rfl

theorem sendPacket_strands (s : State) (typ : Nat) (p : Packet) (c : Option Nat) :
    (sendPacket s typ p c).strands = s.strands := by
  unfold sendPacket
  split
  · simp only [present]
    split <;> rfl
  · unfold emit
    split
    · rfl
    · exact (pump_strands ..).trans rfl

theorem sendRequest_strands (s : State) (typ : Nat) (who : Asker) (p : Packet) :
    (sendRequest s typ who p).strands = s.strands := (sendPacket_strands ..).trans rfl

theorem Freed.sendPut {s : State} (h : Freed (s.strand id)) (b : BufStore) (p off : Nat) : Freed ((sendPut s b p off).strand id) := by
  unfold Machine.sendPut
  rw [strand_congr (sendRequest_strands ..)]
  exact Freed.modStrand (s := s) _ (fun t => { t with puts := t.puts ++ [⟨s.rtagNext % 2 ^ 32, b.va⟩] })
    (fun t ht => ⟨ht.run, ht.depth, ht.groups, ht.cands, ht.pend⟩) h

theorem Freed.leaveStore {s : State} (h : Freed (s.strand id)) (b : BufStore) : Freed ((leaveStore s b).strand id) := by
  unfold Machine.leaveStore
  split
  · exact Freed.sendPut h _ _ _
  · exact Freed.homeWrite h _ _

theorem Freed.commitEarlyN (n : Nat) : ∀ {s : State}, Freed (s.strand id) → ∀ (l : Loc) (m : Nat),
    Freed ((commitEarlyN n s l m).strand id) := by
  induction n with
  | zero => exact fun h _ _ => h
  | succ n ih =>
    intro s h l m
    refine Freed.foldl _ ?_ _ h
    rintro s ⟨k, c⟩ h
    simp only
    split
    · exact h
    · exact Freed.foldl _ (fun s b h => Freed.leaveStore (ih h _ _) _) _ (s := s.modCore k _) h

theorem Freed.commitEarly {s : State} (h : Freed (s.strand id)) (l : Loc) (n : Nat) : Freed ((commitEarly s l n).strand id) :=
  Freed.commitEarlyN _ h _ _

theorem Freed.plainWrite {s : State} (h : Freed (s.strand id)) (l : Loc) (bs : List Byte) :
    Freed ((plainWrite s l bs).strand id) := Freed.homeWrite (Freed.commitEarly h l _) l bs

/-! ## Reports -/

theorem Freed.userWrite {s s' : State} (h : Freed (s.strand id)) {part va : Nat} {bs : List Byte}
    (e : userWrite s part va bs = some s') : Freed (s'.strand id) := by
  unfold Machine.userWrite at e
  split at e
  · injection e with e; subst e; exact Freed.plainWrite h _ _
  · cases e

theorem Freed.modLaunch {s : State} (h : Freed (s.strand id)) (k : Nat) (f : Launch → Launch) :
    Freed ((modLaunch s k f).strand id) := by
  unfold Machine.modLaunch
  split <;> exact h

theorem Freed.noteWalk {s : State} (h : Freed (s.strand id)) (part die cluster va : Nat) (c : Cause) :
    Freed ((noteWalk s part die cluster va c).strand id) := by
  unfold Machine.noteWalk
  repeat' split
  all_goals exact h

theorem Freed.askPage {s : State} (h : Freed (s.strand id)) (part va : Nat) : Freed ((askPage s part va).strand id) := h

theorem Freed.modCluster {s : State} (h : Freed (s.strand id)) (k : Nat) (f : Cluster → Cluster) :
    Freed ((s.modCluster k f).strand id) := h

theorem Freed.launchReport {s : State} (h : Freed (s.strand id)) (cluster : Nat) (r : Report) :
    Freed ((launchReport s cluster r).strand id) := by
  unfold Machine.launchReport
  split
  · exact h
  · next l _ =>
    have lose (va : Nat) : Freed ((Machine.noteWalk (Machine.modLaunch s r.launch fun l => { l with nlost := l.nlost + 1 }) r.part
        (dieOf cluster) cluster va .page).strand id) := Freed.noteWalk (Freed.modLaunch h _ _) ..
    simp only
    split
    · exact Freed.modCluster (Freed.askPage h _ _) _ _
    · split
      · exact Freed.modLaunch h _ _
      · split
        · exact lose _
        · split
          · split
            · next e =>
              obtain ⟨d, -, e⟩ := Option.bind_eq_some_iff.1 e
              exact Freed.userWrite h e
            · exact lose _
          · split
            · next e =>
              obtain ⟨d, e1, e⟩ := Option.bind_eq_some_iff.1 e
              exact Freed.userWrite (Freed.userWrite h e1) e
            · exact lose _

theorem Freed.settleWait {s : State} (h : Freed (s.strand id)) (k : Nat) : Freed ((settleWait s k).strand id) := by
  by_cases e : k = id
  · subst e
    unfold Machine.settleWait
    simp only [h.run]
    split <;> exact h
  · unfold Machine.settleWait
    have e' : id ≠ k := fun x => e x.symm
    simp only
    repeat' split
    all_goals first
      | exact h
      | exact Freed.finishFre h _
      | (rw [strand_setStrand, if_neg e']; exact h)

theorem Freed.enqueue {s s' : State} (h : Freed (s.strand id)) {k : Nat} {m : Message} (e : enqueue s k m = some s') :
    Freed (s'.strand id) := by
  unfold Machine.enqueue at e
  simp only at e
  split at e
  · cases e
  · injection e with e
    subst e
    refine Freed.settleWait ?_ k
    rw [strand_setStrand]
    split
    · next x => subst x; exact ⟨h.run, h.depth, h.groups, h.cands, h.pend⟩
    · exact h

theorem Freed.sinkReport {s : State} (h : Freed (s.strand id)) (cluster : Nat) (r : Report) :
    Freed ((sinkReport s cluster r).strand id) := by
  have hw : Freed ((if 256 ≤ (s.cluster cluster).reports.length then Machine.launchReport s cluster r
      else s.modCluster cluster fun c => { c with reports := c.reports ++ [r] }).strand id) := by
    split
    · exact Freed.launchReport h _ r
    · exact h
  unfold Machine.sinkReport
  split
  · exact Freed.launchReport h _ r
  · simp only
    split
    · exact Freed.launchReport h _ r
    · split
      · exact hw
      · next k _ =>
        split
        · exact hw
        · cases e : Machine.enqueue s k ⟨2, r.task, reportWords r⟩ with
          | none => exact hw
          | some s' => exact Freed.enqueue h e

theorem Freed.flushReports {s : State} (h : Freed (s.strand id)) (sink : Nat) : Freed ((flushReports s sink).strand id) := by
  refine Freed.foldl _ (fun s p h => ?_) _ h
  exact Freed.foldl _ (fun s r h => Freed.launchReport h _ r) _ (s := s.setCluster p.1 _) h

theorem Freed.retireTask {s : State} (h : Freed (s.strand id)) (tid : Nat) (how : Ended) :
    Freed ((retireTask s tid how).strand id) := by
  unfold Machine.retireTask
  split
  · exact h
  · refine Freed.flushReports (Freed.modLaunch ?_ _ _) _
    split <;> exact h

/-! ## Ends -/

/-- The strand of a task that ends holds no task any more. -/
theorem endTask_freed (s : State) (id : Nat) (how : Ended) (detail : Nat) : Freed ((endTask s id how detail).strand id) := by
  unfold endTask
  lift_lets
  intro s1 s2 s3 s4 t part launch cl s5 s6 s7 s8
  clear_value s4
  refine Freed.retireTask ?_ _ _
  have h5 : Freed (s5.strand id) := by
    simp only [s5, strand_setStrand, if_pos]
    exact ⟨rfl, rfl, rfl, rfl, rfl⟩
  clear_value s5
  have h6 : Freed (s6.strand id) := h5
  clear_value s6 
  have h7 : Freed (s7.strand id) := by
    refine Freed.foldl _ (fun s r h => ?_) _ h6
    split
    · exact Freed.launchReport h _ _
    · exact Freed.sinkReport h _ _
  exact Freed.foldl _ (fun s m h => Freed.launchReport h _ _) _ h7

theorem faultTask_freed (s : State) (id cause addr pc : Nat) : Freed ((faultTask s id cause addr pc).strand id) := by
  unfold faultTask
  exact Freed.sinkReport (endTask_freed s id _ _) _ _

theorem killNow_freed (s : State) (id : Nat) : Freed ((killNow s id).strand id) := by
  unfold killNow
  exact endTask_freed _ _ _ _

end Sys2Proof.Machine
end

