-- ==== Sys2Proof/Tests/Slice0.lean ====
section
/-! SUPPORT. Tests: the checks of well-formedness, words written out from the encodings, single steps, and witnesses that the
hypotheses of each statement of Certificates/Slice0/Obligations.lean can be met. -/

open Sys2Proof Sys2Proof.Machine

namespace Sys2Proof.Tests

set_option maxRecDepth 4000
set_option Elab.async false
set_option linter.unusedVariables false
set_option linter.unreachableTactic false
set_option linter.unusedTactic false

/-- A host message and a packet of the least fields. -/
def hmsg : HostMsg :=
  { magic := 0x4F5A, ver := 1, part := 0, stream := 0, seq := 1, ackn := 0, tag := 0, addr := 0, payload := [] }
def pkt : Packet :=
  { dst := 0, src := 0, age := 0, rtag := 0, part := 0, stat := 0, detail := 0, addr := 0, aux := 0, pmask := 0, payload := [] }

/-- A group is named by a multiple of 4, a pair by an even value (R138). -/
theorem test_wf_groups_and_pairs :
    [(.hamd (.w 1) (.w 2) (.w 4) : Instr),
      .hamd (.w 1) (.w 4) (.w 2),
      .send (.w 1) (.w 2) (.w 3) 0,
      .recv (.g 2) (.w 1) 0,
      .ldv (.w 14) (.w 1) 0 0,
      .stv (.w 5) (.w 1) 0,
      .cqpop (.w 1),
      .cas2 .rlx .device (.w 1) (.w 2) (.w 4),
      .cas2 .rlx .device (.w 2) (.w 2) (.g 15)].all (fun i => i.wf == false) = true := by
  decide +kernel

/-- The first and the last group and pair of a bank. -/
theorem test_wf_groups_at_their_bounds :
    [(.hamd (.w 1) (.g 0) (.w 12) : Instr),
      .ldv (.g 12) (.w 1) 0 0,
      .stv (.w 12) (.w 1) 0,
      .cqpop (.w 14),
      .cas2 .rlx .device (.g 14) (.w 2) (.w 0)].all Instr.wf = true := by
  decide +kernel

/-- A tok of 0 is no instruction (R155). -/
theorem test_wf_token_zero :
    [(.xcopy 0 (.w 1) (.w 2) (.w 3) : Instr),
      .xgather 0 (.w 1) (.w 2) (.w 3) .e4,
      .xscatter 0 (.w 1) (.w 2) (.w 3) .e64,
      .xfill 0 (.w 1) (.w 2) (.w 3),
      .xnearScaleadd 0 (.w 1) (.w 2) (.w 3),
      .xnearTopk 0 (.w 1) (.w 2) (.w 3),
      .xcoll 0 (.w 1) (.w 2) (.w 3) .addF32,
      .ftest 0 (.w 1),
      .fwait 0 0,
      .fcancel 0].all (fun i => i.wf == false) = true := by
  decide +kernel

/-- RED of an f32 other than add, a fence that names a rectangle register it does not use, a write of a read-only number with a row of its own, a second source of a VCVT that takes one, routines 7 to 15 (R154, R161, R162). -/
theorem test_wf_kinds_and_fields :
    [(.red .min .f32 (.w 1) (.w 2) : Instr),
      .fence .rel .device (.w 1),
      .ctlwr (.w 1) 0x010D,
      .vcvt 0 1 2 3 4,
      .mcall 7 0 0 0,
      .mcall 15 0 0 0,
      .mstore 15 0,
      .mstore 6 0].all (fun i => i.wf == false) = true := by
  decide +kernel

/-- The nearest terms that stand for an instruction. -/
theorem test_wf_kinds_at_their_bounds :
    [(.red .add .f32 (.w 1) (.w 2) : Instr),
      .fence .rel .rect (.w 1),
      .fence .rel .device (.g 0),
      .ctlwr (.w 1) 0x010C,
      .vcvt 0 5 2 3 4,
      .vcvt 0 6 2 3 4,
      .vcvt 0 1 2 3 0,
      .mcall 6 0 0 0,
      .mcall 16 7 127 127,
      .mstore 16 31,
      .fcancel 15].all Instr.wf = true := by
  decide +kernel

/-- Each field of a host message has its range (R427). -/
theorem test_wf_host_messages :
    [(.launch { hmsg with magic := 0x4F5B } : Instr),
      .cancel { hmsg with ver := 2 },
      .write { hmsg with part := 8 },
      .read { hmsg with stream := 64 },
      .rdata { hmsg with seq := 2 ^ 32 },
      .status { hmsg with ackn := 2 ^ 32 },
      .cfgw { hmsg with tag := 2 ^ 32 },
      .cfgr { hmsg with addr := 2 ^ 64 },
      .reg { hmsg with payload := List.replicate 8193 0 },
      .ack { hmsg with part := 0xFE },
      .unreg { hmsg with part := 0x100 },
      .migrRequest { hmsg with ver := 0 },
      .migrData { hmsg with stream := 99 },
      .migrComplete { hmsg with magic := 0 },
      .reset { hmsg with part := 9 }].all (fun i => i.wf == false) = true := by
  decide +kernel

/-- The bounds themselves are in range. -/
theorem test_wf_host_messages_at_their_bounds :
    [(.launch { hmsg with part := 7, stream := 63 } : Instr),
      .reset { hmsg with part := 0xFF, seq := 2 ^ 32 - 1 },
      .write { hmsg with payload := List.replicate 8192 0 }].all Instr.wf = true := by
  decide +kernel

/-- Each field of a packet has its range (R441). -/
theorem test_wf_packets :
    [(.put { pkt with dst := 1024 } : Instr),
      .putack { pkt with src := 1024 },
      .fill { pkt with age := 128 },
      .fillr { pkt with rtag := 2 ^ 32 },
      .held { pkt with part := 8 },
      .atom { pkt with stat := 256 },
      .atomr { pkt with detail := 256 },
      .trow { pkt with addr := 2 ^ 64 },
      .trowr { pkt with aux := 2 ^ 64 },
      .msg { pkt with pmask := 2 ^ 64 },
      .msgr { pkt with payload := List.replicate 2049 0 },
      .xread { pkt with dst := 1024 },
      .xreadr { pkt with dst := 1024 },
      .vnote { pkt with dst := 1024 },
      .vnack { pkt with dst := 1024 },
      .shadow { pkt with dst := 1024 },
      .shack { pkt with dst := 1024 }].all (fun i => i.wf == false) = true := by
  decide +kernel

/-- A happening names a strand, core, chisel, context, slice, channel or region of the device (R17, R252). -/
theorem test_wf_strands_cores_chisels :
    [(.asyncTrapEntry 8192 : Instr),
      .stimerExpiry 8192,
      .waitTimeout 8192,
      .windowSpill 8192,
      .windowFill 8192,
      .parkedTaskRelease 512,
      .footprintCopy 8192,
      .killEffect 8192,
      .faultReportDelivery 32,
      .storeCommit 512 0,
      .redRecall 0 512,
      .atomicAdmit 512,
      .xnearStart 512,
      .trowelResume 512,
      .trowelSuspend 512,
      .postListEntry 256 0,
      .postListEntry 0 8,
      .outboundDelivery 256 0,
      .tileTaskEnd 2048,
      .regionCommit 1024,
      .heldAccessRejudge 8192,
      .tlbFill (.strand 8192),
      .tlbFill (.context 2048),
      .strandHalt 8192,
      .chiselFreeze 256,
      .awaitedResultArrival (.strand 8192 0),
      .awaitedResultArrival (.context 2048),
      .vbopenTimeout 256,
      .vbopenReuseWait 256].all (fun i => i.wf == false) = true := by
  decide +kernel

/-- A happening names a partition, a port, a lane, a peer, an offset or a die of the device (R437 to R444, R464). -/
theorem test_wf_partitions_and_ports :
    [(.swappost .direct 8 0 : Instr),
      .migrationRequest 8 0 true,
      .pageMove 8 0,
      .holdEnd 8 0,
      .halt .direct 8,
      .haltSave .direct 8,
      .notify .direct 8,
      .resume .direct 8,
      .enable .direct 8,
      .start .direct 8,
      .stop .direct 8,
      .disable .direct 8,
      .partitionSave 8,
      .launchGrant 8,
      .launchRelease 8,
      .launchComplete 8 0,
      .linkUp 16 [32, 32, 32, 32],
      .linkUp 0 [32, 32, 32],
      .linkUp 0 [32, 31, 32, 32],
      .initRetry 16,
      .dataFlit 0 [],
      .idle 16 (List.replicate 256 0),
      .init 0 (List.replicate 255 0),
      .nak 0 [],
      .lane 0 [],
      .down 0 [],
      .nakRetry 16,
      .portFailure 16,
      .laneFailure 16 0,
      .laneFailure 0 8,
      .routeWrite .direct 1024 0,
      .exportWrite .direct 0x2000 0,
      .exportWrite .direct 4 0,
      .i3cRegisterWrite 65536 0,
      .temperatureAlert 5 0,
      .thermalTrip 5 0,
      .clusterFailure 32,
      .pseudoChannelRemap 512 []].all (fun i => i.wf == false) = true := by
  decide +kernel

/-- A command that a CFGW message brings is judged with its message. -/
theorem test_wf_commands_of_a_message :
    [(.swappost (.host { hmsg with ver := 0 }) 0 0 : Instr),
      .halt (.host { hmsg with ver := 0 }) 0,
      .haltSave (.host { hmsg with ver := 0 }) 0,
      .notify (.host { hmsg with ver := 0 }) 0,
      .resume (.host { hmsg with ver := 0 }) 0,
      .enable (.host { hmsg with ver := 0 }) 0,
      .start (.host { hmsg with ver := 0 }) 0,
      .stop (.host { hmsg with ver := 0 }) 0,
      .disable (.host { hmsg with ver := 0 }) 0,
      .routeWrite (.host { hmsg with ver := 0 }) 0 0,
      .exportWrite (.host { hmsg with ver := 0 }) 0 0,
      .losscmd (.host { hmsg with ver := 0 }) 0].all (fun i => i.wf == false) = true := by
  decide +kernel

/-- The last strand, core, context, region, port and peer are in range. -/
theorem test_wf_happenings_at_their_bounds :
    [(.asyncTrapEntry 8191 : Instr),
      .storeCommit 511 9,
      .tileTaskEnd 2047,
      .regionCommit 1023,
      .tlbFill (.engine 99),
      .linkUp 15 [32, 64, 32, 32],
      .routeWrite .direct 1023 5,
      .exportWrite .direct 0x1FF8 0,
      .i3cRegisterWrite 65535 0,
      .temperatureAlert 4 0,
      .laneFailure 15 7,
      .postListEntry 255 7,
      .put pkt,
      .launch hmsg].all Instr.wf = true := by
  decide +kernel

/-- The decoder answers exactly this instruction. -/
def reads (x : Except Reject Instr) (i : Instr) : Bool :=
  match x with
  | .ok j => j == i
  | .error _ => false
/-- The decoder refuses. -/
def refuses (x : Except Reject Instr) : Bool :=
  match x with
  | .ok _ => false
  | .error _ => true

/-- INT (R149): function code in bits 6..0, d 25..21, a 20..16, b 15..11, the lookahead or the shift in bits 10..7. -/
theorem test_words_integer :
    [(0x0688C000#32, Instr.add (.w 4) (.g 8) (.w 8)),
      (0x0688C001#32, .sub (.w 4) (.g 8) (.w 8)),
      (0x0688C002#32, .mul (.w 4) (.g 8) (.w 8)),
      (0x0688C003#32, .mulh (.w 4) (.g 8) (.w 8)),
      (0x0688C004#32, .mulhn (.w 4) (.g 8) (.w 8)),
      (0x0688C485#32, .div (.w 4) (.g 8) (.w 8) 9),
      (0x0688C486#32, .divn (.w 4) (.g 8) (.w 8) 9),
      (0x0688C487#32, .rem (.w 4) (.g 8) (.w 8) 9),
      (0x0688C488#32, .remn (.w 4) (.g 8) (.w 8) 9),
      (0x0688C010#32, .andG (.w 4) (.g 8) (.w 8)),
      (0x0688C011#32, .orG (.w 4) (.g 8) (.w 8)),
      (0x0688C012#32, .xorG (.w 4) (.g 8) (.w 8)),
      (0x0688C013#32, .andn (.w 4) (.g 8) (.w 8)),
      (0x0688C014#32, .shl (.w 4) (.g 8) (.w 8)),
      (0x0688C015#32, .shr (.w 4) (.g 8) (.w 8)),
      (0x0688C016#32, .sha (.w 4) (.g 8) (.w 8)),
      (0x0688C017#32, .rol (.w 4) (.g 8) (.w 8)),
      (0x0688C018#32, .minG (.w 4) (.g 8) (.w 8)),
      (0x0688C019#32, .maxG (.w 4) (.g 8) (.w 8)),
      (0x0688C01A#32, .minn (.w 4) (.g 8) (.w 8)),
      (0x0688C01B#32, .maxn (.w 4) (.g 8) (.w 8)),
      (0x0688001C#32, .clz (.w 4) (.g 8)),
      (0x0688001D#32, .ctz (.w 4) (.g 8)),
      (0x0688001E#32, .popc (.w 4) (.g 8)),
      (0x0688C01F#32, .sel (.w 4) (.g 8) (.w 8)),
      (0x0688C024#32, .cmp .ltn (.w 4) (.g 8) (.w 8)),
      (0x0688C5A8#32, .lea (.w 4) (.g 8) (.w 8) 11),
      (0x0688C029#32, .bext (.w 4) (.g 8) (.w 8)),
      (0x0688C02A#32, .bdep (.w 4) (.g 8) (.w 8)),
      (0x0688C02B#32, .crc32c (.w 4) (.g 8) (.w 8)),
      (0x0688C02C#32, .hash64 (.w 4) (.g 8) (.w 8)),
      (0x0688C02D#32, .hamd (.w 4) (.g 8) (.w 8)),
      (0x0688C02E#32, .meshxy (.w 4) (.g 8) (.w 8)),
      (0x0688C02F#32, .rect (.w 4) (.g 8) (.w 8))].all (fun r => reads (decodeGrain r.1) r.2) = true := by
  decide +kernel

/-- FPU and CTL (R150, R151): FCVT holds its target in 15..12, its source in 11..8, SAT in bit 7. -/
theorem test_words_float_and_control :
    [(0x0A88C000#32, Instr.fadd (.w 4) (.g 8) (.w 8)),
      (0x0A88C001#32, .fsub (.w 4) (.g 8) (.w 8)),
      (0x0A88C002#32, .fmul (.w 4) (.g 8) (.w 8)),
      (0x0A88C003#32, .ffma (.w 4) (.g 8) (.w 8)),
      (0x0A88C004#32, .fmin (.w 4) (.g 8) (.w 8)),
      (0x0A88C005#32, .fmax (.w 4) (.g 8) (.w 8)),
      (0x0A880488#32, .fsqrt (.w 4) (.g 8) 9),
      (0x0A880489#32, .frcp (.w 4) (.g 8) 9),
      (0x0A88C013#32, .fcmp .un (.w 4) (.g 8) (.w 8)),
      (0x0A882998#32, .fcvtFloat (.w 4) (.g 8) 2 9 true),
      (0x0A882919#32, .fcvtToInt (.w 4) (.g 8) 2 9),
      (0x0A88291A#32, .fcvtFromInt (.w 4) (.g 8) 2 9),
      (0x0C080000#32, .jr (.g 8)),
      (0x0C080001#32, .callr (.g 8)),
      (0x0C000002#32, .ret),
      (0x0C000003#32, .yield),
      (0x0C000004#32, .exit)].all (fun r => reads (decodeGrain r.1) r.2) = true := by
  decide +kernel

/-- SYNC, TILE, SRCH and REGN (R151): a timeout exponent stands in the b field. -/
theorem test_words_sync_and_tiles :
    [(0x1288C480#32, Instr.send (.w 4) (.g 8) (.w 8) 9),
      (0x12886801#32, .recv (.w 4) (.g 8) 13),
      (0x12880482#32, .gjoin (.w 4) (.g 8) 9),
      (0x12880483#32, .gleave (.w 4) (.g 8) 9),
      (0x12880484#32, .gsize (.w 4) (.g 8) 9),
      (0x1288C488#32, .binit (.w 4) (.g 8) (.w 8) 9),
      (0x12880489#32, .barrive (.w 4) (.g 8) 9),
      (0x1288680A#32, .bwait (.w 4) (.g 8) 13),
      (0x1288048B#32, .binval (.w 4) (.g 8) 9),
      (0x12880490#32, .spawn (.w 4) (.g 8) 9),
      (0x12806811#32, .join (.w 4) 13),
      (0x12800012#32, .taskid (.w 4)),
      (0x12880493#32, .kill (.w 4) (.g 8) 9),
      (0x1688C480#32, .topen (.w 4) (.g 8) (.w 8) 9),
      (0x1688C001#32, .twr (.w 4) (.g 8) (.w 8)),
      (0x1688C482#32, .twrr (.w 4) (.g 8) (.w 8) 9),
      (0x16880483#32, .seal (.w 4) (.g 8) 9),
      (0x16880484#32, .tstat (.w 4) (.g 8) 9),
      (0x16880485#32, .tdrop (.w 4) (.g 8) 9),
      (0x18080000#32, .cqinit (.g 8)),
      (0x1808C001#32, .cqpush (.g 8) (.w 8)),
      (0x1A800002#32, .cqpop (.w 4)),
      (0x1E800480#32, .frb (.w 4) 9),
      (0x1E806801#32, .fre (.w 4) 13),
      (0x1C000002#32, .frabort),
      (0x1E880483#32, .frstat (.w 4) (.g 8) 9)].all (fun r => reads (decodeGrain r.1) r.2) = true := by
  decide +kernel

/-- QRY, SYS, MEMX and ENG (R151, R155): tok 25..21, c 10..6, the operation in 5..3 and its variant in 2..0. -/
theorem test_words_quarry_system_engines :
    [(0x22880480#32, Instr.balloc (.w 4) (.g 8) 9),
      (0x22880481#32, .bfree (.w 4) (.g 8) 9),
      (0x2288C482#32, .sqappend (.w 4) (.g 8) (.w 8) 9),
      (0x2288C483#32, .sqlook (.w 4) (.g 8) (.w 8) 9),
      (0x22880484#32, .sqfork (.w 4) (.g 8) 9),
      (0x22880485#32, .sqdrop (.w 4) (.g 8) 9),
      (0x2288C486#32, .pfxput (.w 4) (.g 8) (.w 8) 9),
      (0x2288C487#32, .pfxfind (.w 4) (.g 8) (.w 8) 9),
      (0x2288C488#32, .pfxfindV (.w 4) (.g 8) (.w 8) 9),
      (0x24000000#32, .eret),
      (0x2688C001#32, .tlbwr (.w 4) (.g 8) (.w 8)),
      (0x26880002#32, .tlbinv (.w 4) (.g 8)),
      (0x24000003#32, .waiti),
      (0x2A880480#32, .vbopen (.w 4) (.g 8) 9),
      (0x2A880481#32, .vbseal (.w 4) (.g 8) 9),
      (0x2CC8C440#32, .xcopy 6 (.g 8) (.w 8) (.w 1)),
      (0x2CC8C44B#32, .xgather 6 (.g 8) (.w 8) (.w 1) .e32),
      (0x2CC8C453#32, .xscatter 6 (.g 8) (.w 8) (.w 1) .e32),
      (0x2CC8C458#32, .xfill 6 (.g 8) (.w 8) (.w 1)),
      (0x2CC8C460#32, .xnearScaleadd 6 (.g 8) (.w 8) (.w 1)),
      (0x2CC8C461#32, .xnearTopk 6 (.g 8) (.w 8) (.w 1)),
      (0x2CC8C46D#32, .xcoll 6 (.g 8) (.w 8) (.w 1) .maxI64),
      (0x2CC80030#32, .ftest 6 (.g 8)),
      (0x2CC00371#32, .fwait 6 13),
      (0x2CC00032#32, .fcancel 6)].all (fun r => reads (decodeGrain r.1) r.2) = true := by
  decide +kernel

/-- The immediate majors and the atomic layout (R152, R154): sc 10..8, ord 7..6, k 5..2, w 1..0. -/
theorem test_words_immediates_and_atomics :
    [(0x42888005#32, Instr.addi (.w 4) (.g 8) 0x8005),
      (0x46888005#32, .muli (.w 4) (.g 8) 0x8005),
      (0x4A888005#32, .andi (.w 4) (.g 8) 0x8005),
      (0x4E888005#32, .ori (.w 4) (.g 8) 0x8005),
      (0x52888005#32, .xori (.w 4) (.g 8) 0x8005),
      (0x56880025#32, .shli (.w 4) (.g 8) 37),
      (0x5A880025#32, .shri (.w 4) (.g 8) 37),
      (0x5E880025#32, .shai (.w 4) (.g 8) 37),
      (0x62880025#32, .roli (.w 4) (.g 8) 37),
      (0x66885234#32, .cmpi .lt (.w 4) (.g 8) 0x1234),
      (0x6A808005#32, .lui (.w 4) 0x8005),
      (0x7288C361#32, .amo .maxn .w64 .acq .device (.w 4) (.g 8) (.w 8)),
      (0x7688C481#32, .cas .w64 .rel .system (.w 4) (.g 8) (.w 8)),
      (0x7688C1C4#32, .cas2 .ar .core (.w 4) (.g 8) (.w 8)),
      (0x7808C308#32, .red .max .n64 (.g 8) (.w 8)),
      (0x7C0802C0#32, .fence .ar .rect (.g 8))].all (fun r => reads (decodeGrain r.1) r.2) = true := by
  decide +kernel

/-- The M, B and J formats and the last majors (R145, R148, R153): the lookahead of a load in 15..12, off12 in 11..0. -/
theorem test_words_memory_branches_rest :
    [(0x96989805#32, Instr.ld .n16 (.w 4) (.w 8) 9 0x805),
      (0x9E989805#32, .ldv (.w 4) (.w 8) 9 0x805),
      (0xAA980805#32, .st .b4 (.w 4) (.w 8) 0x805),
      (0xB2980805#32, .stv (.w 4) (.w 8) 0x805),
      (0xB4180805#32, .pref (.w 8) 0x805),
      (0xD5188421#32, .br .gen (.g 8) (.w 8) 0x8421),
      (0xD9000805#32, .bz (.g 8) 0x805),
      (0xDD000805#32, .bnz (.g 8) 0x805),
      (0xE2345678#32, .j 0x2345678),
      (0xE6345678#32, .call 0x2345678),
      (0xE9656A40#32, .rpt 11 5 6 41),
      (0xEC008005#32, .trap 0x8005),
      (0xF0008005#32, .sysc 0x8005),
      (0xF6800123#32, .ctlrd (.w 4) 0x123),
      (0xF8080123#32, .ctlwr (.g 8) 0x123)].all (fun r => reads (decodeGrain r.1) r.2) = true := by
  decide +kernel

/-- C, S0 and S1 syllables (R156, R159, R160): slot 31..29, stop 28, op 27..24 or 27..23. -/
theorem test_syllables_control_and_scalar :
    [(0x00000000#32, Instr.nop),
      (0x11008421#32, .cbr 0x8421),
      (0x02D01234#32, .brp true 5 0x1234),
      (0x12501234#32, .brp false 5 0x1234),
      (0x0313FFFE#32, .loop 19 0xFFFE),
      (0x14000000#32, .done),
      (0x050005A6#32, .setfmt 0x5A6),
      (0x06000002#32, .setrm 2),
      (0x07150000#32, .tpop 21),
      (0x08155000#32, .tpost 21 10),
      (0x19000000#32, .mwait),
      (0x20453A00#32, .sAdd .s0 17 9 26),
      (0x21453A00#32, .sSub .s0 17 9 26),
      (0x41C53A00#32, .sMul .s1 17 9 26),
      (0x22453A00#32, .sAnd .s0 17 9 26),
      (0x42C53A00#32, .sOr .s1 17 9 26),
      (0x23453A00#32, .sXor .s0 17 9 26),
      (0x43C53A00#32, .sShl .s1 17 9 26),
      (0x24453A00#32, .sShr .s0 17 9 26),
      (0x44C53A00#32, .sSha .s1 17 9 26),
      (0x25453A00#32, .sMin .s0 17 9 26),
      (0x45C53A00#32, .sMax .s1 17 9 26),
      (0x20C53ABC#32, .sAddi .s0 17 9 0x1ABC),
      (0x46153A80#32, .sCmp .s1 .ltn 5 9 26),
      (0x26C53AC0#32, .sSel .s0 17 9 26 6),
      (0x4746ABCD#32, .li .s1 17 0x2ABCD),
      (0x27C520C0#32, .hget .s0 17 9 .mask),
      (0x57C52020#32, .hget .s1 17 9 .gen),
      (0x28152000#32, .mpset .s0 5 9)].all (fun r => reads (decodeSyllable r.1) r.2) = true := by
  decide +kernel

/-- V, M and T syllables (R161 to R163). -/
theorem test_syllables_vector_matrix_tile :
    [(0x604CF600#32, Instr.vld 9 19 27),
      (0x60CCF600#32, .vst 9 19 27),
      (0x614B6900#32, .vadd 2 9 6 13),
      (0x61CB6900#32, .vsub 2 9 6 13),
      (0x624B6900#32, .vmul 2 9 6 13),
      (0x62CB6900#32, .vfma 2 9 6 13),
      (0x634B6900#32, .vmax 2 9 6 13),
      (0x63CB6900#32, .vmin 2 9 6 13),
      (0x644B0080#32, .vexp2 1 9 6),
      (0x64CB0080#32, .vrcp 1 9 6),
      (0x654B0080#32, .vrsq 1 9 6),
      (0x664B0080#32, .vrmax 1 9 6),
      (0x66CB0080#32, .vrsum 1 9 6),
      (0x65CB6828#32, .vcvt 0 5 9 6 13),
      (0x65CB0108#32, .vcvt 2 1 9 6 0),
      (0x674CC100#32, .vbc 2 9 19),
      (0x67CB6805#32, .vsel 9 6 13 5),
      (0x784B6800#32, .vshuf 9 6 13),
      (0x825B8E30#32, .mcall 37 5 99 70),
      (0x96598000#32, .mstore 37 19),
      (0xA0630000#32, .oclaim 99),
      (0xA0E30000#32, .orel 99),
      (0xA1639800#32, .oload 99 19),
      (0xA1850000#32, .aclr 5),
      (0xA2059801#32, .ast 5 19 true),
      (0xA2809800#32, .hrel 19),
      (0xA3000000#32, .ttclr),
      (0xA3809E80#32, .ttnode 19 26),
      (0xA4639E80#32, .ttmask 99 19 26),
      (0xA4899800#32, .ttpos 9 19),
      (0xA5009E80#32, .ttprune 19 26),
      (0xB5899800#32, .ttpath 9 19)].all (fun r => reads (decodeSyllable r.1) r.2) = true := by
  decide +kernel

/-- What is no grain instruction (R164): reserved majors, function codes, kinds and variants, set reserved bits, a misnamed group, a tok of 0. -/
theorem test_words_reserved :
    [0x00000000#32, 0xFFFFFFFF, 0x30000000, 0x6C000000, 0xB8000000, 0xFC000000, 0x04000009, 0x04000026, 0x04000030, 0x04000080, 0x0400081C, 0x08000006, 0x08000014, 0x0C000005, 0x0C200000, 0x10000005, 0x14000006, 0x18000003, 0x1C000004, 0x20000009, 0x24000004, 0x28000002, 0x0411A02D, 0x2C010000, 0x2C200001, 0x2C200038, 0x70000024, 0x70000002, 0x70000500, 0x74000008, 0x78000010, 0x78000500, 0x78000404, 0x7C000300, 0x7C010340, 0x54000040, 0x6400C000, 0x68010000, 0x9E200000, 0xA0001000, 0xB4200000, 0xD8010000, 0xEA000000, 0xE8000001, 0xEC010000, 0xF4010000, 0xF8200000].all (fun w => refuses (decodeGrain w)) = true := by
  decide +kernel

/-- What is no syllable (R157, R159 to R163): unknown slots, reserved operations, set reserved bits, routines 7 to 15. -/
theorem test_syllables_reserved :
    [0xC0000000#32, 0xE0000000, 0x0A000000, 0x0F000000, 0x00000001, 0x04000001, 0x01010000, 0x03200000, 0x05000800, 0x06000004, 0x07000001, 0x08000001, 0x28800000, 0x20000020, 0x20000001, 0x26200000, 0x260000C0, 0x278000E0, 0x27800100, 0x28000100, 0x68800000, 0x61000008, 0x61000001, 0x64000800, 0x65800808, 0x67800080, 0x60000001, 0x88000000, 0x8C000000, 0x80700000, 0x80F00000, 0x80000001, 0x84F00000, 0x85000001, 0xA6000000, 0xA0000800, 0xA1000040, 0xA1880000, 0xA2000002, 0xA2810000, 0xA3000001, 0xA4900000].all (fun w => refuses (decodeSyllable w)) = true := by
  decide +kernel

/-! ### Steps: expected values are the worked cases of the chapters or computed by hand from the rule named -/

/-- Partition 0 runs; strand 0 of core 0 executes user code at 0x1000. -/
def base : State :=
  let s := State.reset
  { s with parts := [(0, { st := .running, prect := 0, ptroot := 0x100000 })],
           mgmt := { s.mgmt with phase := .ready, level := 0 },
           strands := [(0, { run := .ready, pc := 0x1000, task := 7 })] }
/-- The same with the acting strand changed. -/
def st (f : Strand → Strand) (s : State := base) : State := s.setCur (f s.cur)
/-- Four registers of the window set. -/
def r4 (a b c d : Word) (t : Strand) : Strand := (((t.write (.w 1) a).write (.w 2) b).write (.w 4) c).write (.w 8) d
/-- The page of address 0 is mapped; 64 bytes of memory count up from 200, 32 of the core's own scratchpad from 100. -/
def pg : State :=
  let s := base
  { (s.setCore 0 { tlb := [openEntry 0 0x1000] }) with
     hbm := (Mem.putBytes [] 0x2000 ((List.range 64).map fun i => BitVec.ofNat 8 (i + 200))),
     spad := (Mem.putBytes [] 0x100 ((List.range 32).map fun i => BitVec.ofNat 8 (i + 100))) }
/-- The scratchpad address window of core 0. -/
def P : Word := 0x8000000000000
/-- The state after an instruction. -/
def after (i : Instr) (s : State) : State :=
  match exec i s with
  | .next t => t
  | _ => s
/-- The strand after an instruction that starts with x, y, z in w1, w2 and w4. -/
def ran (i : Instr) (x y : Word) (z : Word := 0) : Strand := (after i (st (r4 x y z 0))).cur
/-- The word that a result outstanding is to deliver to its first register. -/
def owed (t : Strand) : Option Word :=
  match t.pend with
  | [⟨_, _, .ready v, _⟩] => v.regs.head?.map Prod.snd
  | _ => none
/-- The code in the low byte of a status that an outstanding result is to deliver (R45). -/
def owedCode (t : Strand) : Option Nat := (owed t).map fun w => w.toNat % 256

/-- ADD wraps; ANDN, SHL by 64 (amount 0), SHA of a negative, ROL by 1 (R172). -/
theorem test_integer_results :
    (ran (.add (.w 3) (.w 1) (.w 2)) 0xFFFFFFFFFFFFFFFF 2).read (.w 3) = 1
    ∧ (ran (.andn (.w 3) (.w 1) (.w 2)) 0xFF 0x0F).read (.w 3) = 0xF0
    ∧ (ran (.shl (.w 3) (.w 1) (.w 2)) 5 64).read (.w 3) = 5
    ∧ (ran (.sha (.w 3) (.w 1) (.w 2)) 0x8000000000000000 63).read (.w 3) = 0xFFFFFFFFFFFFFFFF
    ∧ (ran (.rol (.w 3) (.w 1) (.w 2)) 0x8000000000000001 1).read (.w 3) = 3
    ∧ (ran (.sub (.w 1) (.w 1) (.w 1)) 77 2).read (.w 1) = 0
    ∧ (ran (.sub (.g 0) (.w 1) (.w 2)) 77 2).read (.g 0) = 0 := by
  decide +kernel

/-- The high products, MIN and MINN across the sign, the counts of zero (R172). -/
theorem test_products_and_counts :
    (ran (.mulh (.w 3) (.w 1) (.w 2)) 0xFFFFFFFFFFFFFFFF 2).read (.w 3) = 0xFFFFFFFFFFFFFFFF
    ∧ (ran (.mulhn (.w 3) (.w 1) (.w 2)) 0xFFFFFFFFFFFFFFFF 2).read (.w 3) = 1
    ∧ (ran (.minG (.w 3) (.w 1) (.w 2)) 0xFFFFFFFFFFFFFFFF 2).read (.w 3) = 0xFFFFFFFFFFFFFFFF
    ∧ (ran (.minn (.w 3) (.w 1) (.w 2)) 0xFFFFFFFFFFFFFFFF 2).read (.w 3) = 2
    ∧ (ran (.clz (.w 3) (.w 1)) 0 2).read (.w 3) = 64 ∧ (ran (.ctz (.w 3) (.w 1)) 0 2).read (.w 3) = 64
    ∧ (ran (.clz (.w 3) (.w 1)) 1 2).read (.w 3) = 63 ∧ (ran (.ctz (.w 3) (.w 1)) 0x50 2).read (.w 3) = 4
    ∧ (ran (.popc (.w 3) (.w 1)) 0xB4 2).read (.w 3) = 4 := by
  decide +kernel

/-- The corners of division (R174): by zero, and the quotient that no word holds. -/
theorem test_division_corners :
    owed (ran (.div (.w 3) (.w 1) (.w 2) 0) 77 0) = some 0xFFFFFFFFFFFFFFFF
    ∧ owed (ran (.rem (.w 3) (.w 1) (.w 2) 0) 77 0) = some 77
    ∧ owed (ran (.div (.w 3) (.w 1) (.w 2) 0) 0x8000000000000000 0xFFFFFFFFFFFFFFFF) = some 0x8000000000000000
    ∧ owed (ran (.rem (.w 3) (.w 1) (.w 2) 0) 0x8000000000000000 0xFFFFFFFFFFFFFFFF) = some 0
    ∧ owed (ran (.div (.w 3) (.w 1) (.w 2) 0) 0xFFFFFFFFFFFFFFF9 2) = some 0xFFFFFFFFFFFFFFFD
    ∧ owed (ran (.rem (.w 3) (.w 1) (.w 2) 0) 0xFFFFFFFFFFFFFFF9 2) = some 0xFFFFFFFFFFFFFFFF
    ∧ owed (ran (.divn (.w 3) (.w 1) (.w 2) 0) 0xFFFFFFFFFFFFFFF9 2) = some 0x7FFFFFFFFFFFFFFC
    ∧ owed (ran (.remn (.w 3) (.w 1) (.w 2) 0) 0xFFFFFFFFFFFFFFF9 2) = some 1 := by
  decide +kernel

/-- The worked cases of BEXT and BDEP (R176), of MESHXY and RECT (R180, R181). -/
theorem test_fields_and_mesh :
    (ran (.bext (.w 3) (.w 1) (.w 2)) 0xB4 0xF0).read (.w 3) = 0xB
    ∧ (ran (.bdep (.w 3) (.w 1) (.w 2)) 0xB 0xF0).read (.w 3) = 0xB0
    ∧ (ran (.meshxy (.w 3) (.w 1) (.w 2)) 0x8000005342800 0).read (.w 3) = 0x060D
    ∧ (ran (.meshxy (.w 3) (.w 1) (.w 2)) 0x8000005342800 0xFF02).read (.w 3) = 0x050F
    ∧ (ran (.meshxy (.w 3) (.w 1) (.w 2)) 0x8000005342800 0x0A00).read (.w 3) = 0xFFFF
    ∧ (ran (.rect (.w 3) (.w 1) (.w 2)) 0x060D 0x050F).read (.w 3) = 0x050F060D := by
  decide +kernel

/-- The comparand of CMPI is sign-extended for lt and zero-extended for ltn (R152); LUI and a load address are as R172, R175 say. -/
theorem test_immediates :
    (ran (.cmpi .lt (.w 3) (.w 1) 0x1FFB) 0xFFFFFFFFFFFFFFFA 0).read (.w 3) = 1
    ∧ (ran (.cmpi .ltn (.w 3) (.w 1) 0x1FFB) 0x1FFA 0).read (.w 3) = 1
    ∧ (ran (.cmpi .ltn (.w 3) (.w 1) 0x1FFB) 0xFFFFFFFFFFFFFFFA 0).read (.w 3) = 0
    ∧ (ran (.lui (.w 3) 0xFFFF) 0 0).read (.w 3) = 0xFFFFFFFFFFFF0000
    ∧ (ran (.ori (.w 3) (.w 1) 0x8000) 1 0).read (.w 3) = 0x8001
    ∧ (ran (.addi (.w 3) (.w 1) 0x8000) 1 0).read (.w 3) = 0xFFFFFFFFFFFF8001
    ∧ (ran (.lea (.w 3) (.w 1) (.w 2) 3) 1 2).read (.w 3) = 17 := by
  decide +kernel

/-- The worked case of R124: 500.0 to E4M3 is 448 saturating and NaN otherwise, with OF and NX; to E5M2 it is 512. -/
theorem test_narrow_conversions :
    (ran (.fcvtFloat (.w 3) (.w 1) 3 0 true) 0x43FA0000 0).read (.w 3) = 0x7E
    ∧ (ran (.fcvtFloat (.w 3) (.w 1) 3 0 false) 0x43FA0000 0).read (.w 3) = 0x7F
    ∧ (ran (.fcvtFloat (.w 3) (.w 1) 3 0 false) 0x43FA0000 0).fstat = 0b00101
    ∧ (ran (.fcvtFloat (.w 3) (.w 1) 3 0 false) 0x43E60000 0).read (.w 3) = 0x7E
    ∧ (ran (.fcvtFloat (.w 3) (.w 1) 4 0 false) 0x43FA0000 0).read (.w 3) = 0x60 := by
  decide +kernel

/-- 1 + 2^-24 is halfway and rounds to the even 1; 1 + 3 × 2^-24 rounds up; a sum of opposite values is +0 (R117, R182). -/
theorem test_single_sums :
    (ran (.fadd (.w 3) (.w 1) (.w 2)) 0x3F800000 0x33800000).read (.w 3) = 0x3F800000
    ∧ (ran (.fadd (.w 3) (.w 1) (.w 2)) 0x3F800000 0x34400000).read (.w 3) = 0x3F800002
    ∧ (ran (.fsub (.w 3) (.w 1) (.w 1)) 0x3F800000 0).read (.w 3) = 0
    ∧ (ran (.fmul (.w 3) (.w 1) (.w 2)) 0x40000000 0xC0400000).read (.w 3) = 0xC0C00000
    ∧ (ran (.fcmp .un (.w 3) (.w 1) (.w 2)) 0x7FC00000 0).read (.w 3) = 1
    ∧ (ran (.fcmp .eq (.w 3) (.w 1) (.w 2)) 0x80000000 0).read (.w 3) = 1
    ∧ owed (ran (.fsqrt (.w 3) (.w 1) 0) 0x40800000 0) = some 0x40000000
    ∧ owed (ran (.frcp (.w 3) (.w 1) 0) 0x40800000 0) = some 0x3E800000 := by
  decide +kernel

/-- Branches go from their own address (R139, R186); J and CALL likewise, and CALL leaves the address of the next word in w15 of a
new window whose other registers are zero (R187, R190). -/
theorem test_branches_and_calls :
    (ran (.br .ltn (.w 1) (.w 2) 0xFFFD) 1 2).pc = 0xFF4 ∧ (ran (.br .ltn (.w 1) (.w 2) 0xFFFD) 2 2).pc = 0x1004
    ∧ (ran (.bz (.w 1) 2) 0 0).pc = 0x1008 ∧ (ran (.bnz (.w 1) 2) 0 0).pc = 0x1004
    ∧ (ran (.j 0x3FFFFFF) 0 0).pc = 0xFFC ∧ (ran (.jr (.w 1)) 0x2000 0).pc = 0x2000
    ∧ (let t := ran (.call 4) 5 6
       t.pc = 0x1010 ∧ t.depth = 2 ∧ t.read (.w 15) = 0x1004 ∧ t.read (.w 1) = 0)
    ∧ (let t := (after .ret { base with strands := [(0, { run := .ready, pc := 0x1000, task := 7, depth := 2, windows :=
          [(Vector.replicate 16 0).set 15 0x3000, Vector.replicate 16 9] })] }).cur
       t.pc = 0x3000 ∧ t.depth = 1 ∧ t.read (.w 1) = 9) := by
  decide +kernel

/-- TRAP and SYSC record their code and go to the handler at TVEC; a privileged instruction traps PERM at user privilege; ERET
returns past a SYSC (R195, R363, R370, R373). -/
theorem test_traps :
    (let t := (after (.trap 0x1234) (st fun t => { t with tvec := 0x8000 })).cur
     t.pc = 0x8000 ∧ t.epc = 0x1000 ∧ t.intrap = true ∧ t.priv = true ∧ t.ecause.toNat / 65536 = 0x1234)
    ∧ (let t := (after (.tlbinv (.w 1) (.w 2)) (st fun t => { t with tvec := 0x8000 })).cur
       t.pc = 0x8000 ∧ t.ecause = 4)
    ∧ (let t := (after .eret (st fun t => { t with intrap := true, priv := true, epc := 0x2000, skip := true })).cur
       t.pc = 0x2004 ∧ t.intrap = false) := by
  decide +kernel

/-- The user control registers (R153): the strand's number and its core's coordinate, (34, 1) for ordinal 86 as worked in R60; a number that is none traps. -/
theorem test_control_registers :
    (ran (.ctlrd (.w 3) 3) 5 6).read (.w 3) = 0
    ∧ (after (.ctlrd (.w 3) 4) { base with strandId := 16 * 86, strands := [(16 * 86, { run := .ready })] }).cur.read (.w 3) = 0x0122
    ∧ (ran (.ctlwr (.w 1) 5) 99 6).taskSink = 99
    ∧ (ran (.ctlrd (.w 3) 7) 5 6).ecause = 1 := by
  decide +kernel

/-- A load is sign-extended as its type says when its result arrives (R200); a store enters the buffer of its core and memory
stands (R90, R201). -/
theorem test_loads_and_stores :
    (let s := after (.ld .i16 (.w 3) (.w 1) 0 0x801) (st (r4 0x3008 0 0 0) pg)
     s.cur.pc = 0x1004
       ∧ (after (.awaitedResultArrival (.strand 0 0)) s).cur.read (.w 3) = 0xFFFFFFFFFFFFD3D2)
    ∧ (let s := after (.ld .n16 (.w 3) (.w 1) 0 1) (st (r4 0x2008 0 0 0) pg)
       (after (.awaitedResultArrival (.strand 0 0)) s).cur.read (.w 3) = 0xD3D2)
    ∧ (let s := after (.st .b4 (.w 2) (.w 1) 0xFFF) (st (r4 0x2008 0x1122334455667788 0 0) pg)
       ((s.core 0).stores.map fun b => b.bytes) = [[0x88, 0x77, 0x66, 0x55]] ∧ s.hbm = pg.hbm)
    ∧ (after (.ld .i32 (.w 3) (.w 1) 0 0) (st (r4 0x2002 0 0 0) pg)).cur.ecause = 2
    ∧ (after (.ld .i32 (.w 3) (.w 1) 0 0) (st (r4 0x30000 0 0 0) pg)).cur.run = .stall (.tlb 0x30000 false) := by
  decide +kernel

/-- A bank performs an atomic as one step (R97, R207, R208): MAX on a signed byte pattern, a CAS that does not match. -/
theorem test_atomics_at_a_bank :
    (let s := after (.amo .add .w32 .rlx .device (.w 3) (.w 1) (.w 2)) (st (r4 (P + 0x100) 1 0 0) pg)
     s.cur.read (.w 3) = 0x67666564 ∧ s.spad.bytes 0x100 4 = [0x65, 0x65, 0x66, 0x67])
    ∧ (let s := after (.cas .w32 .rlx .device (.w 4) (.w 1) (.w 2)) (st (r4 (P + 0x100) 1 7 0) pg)
       s.cur.read (.w 4) = 0x67666564 ∧ s.cur.status = 15 ∧ s.spad = pg.spad) := by
  decide +kernel

/-- The worked case of the candidate queue (R249 to R251): capacity 3, smallest first, keys 9, 4 and 7, then 5 and 7. -/
theorem test_candidate_queue :
    (let c (k : Word) : Cand := ⟨k, 0, 0⟩
     let s := st (fun t => { r4 5 0 0 0 t with cands := [⟨4, 0, 1⟩, ⟨7, 0, 2⟩, ⟨9, 0, 0⟩], candCap := 3, candNext := 3 })
     ((after (.cqpush (.w 1) (.w 2)) s).cur.cands.map fun x => x.key) = [(c 4).key, 5, 7]
       ∧ (after (.cqpush (.w 1) (.w 2)) s).cur.status.toNat % 2 ^ 16 = 0x100
       ∧ (after (.cqpop (.w 4)) s).cur.read (.w 4) = 4) := by
  decide +kernel

/-- A tick adds one to the clock; a turn that has been taken leaves the agenda. -/
theorem test_clock_and_agenda :
    (match step { base with agenda := [.tick] } with
     | .next t => t.cycle
     | _ => 0) = 1
    ∧ (match step { base with agenda := [.event (.clusterFailure 3)] } with
       | .next t => t.agenda
       | _ => [.tick]) = [] := by
  decide +kernel

/-- State.reset: the reset values that the rules give (R361, R411, R430, R443) and byte stores in canonical form. -/
theorem test_reset :
    State.reset.storesOk = true ∧ (State.reset.part 3).holdoff = 200 ∧ (State.reset.part 7).lqweight = 0x87654321
    ∧ (State.reset.part 0).atomq = 64 ∧ (State.reset.stream 5).next = 1 ∧ State.reset.hbm = [] ∧ State.reset.cycle = 0 := by
  decide +kernel

/-- The word that the host places is the word that the next step runs (withFetchWord), an ADD of two registers here. -/
theorem test_fetch_word :
    (match step (State.reset.withFetchWord 32 0x40210005) with
     | .next t => (t.strand 0).read (.g 1)
     | _ => 0) = 5 := by
  decide +kernel

/-- The datagram of a LAUNCH (R427, R428): MAGIC, VER 1, TYPE 1, PART 2, STREAM 3, SEQ 4, LEN 2, TAG 5. -/
theorem test_datagram :
    (match decodeDatagram ([0x5A, 0x4F, 1, 1, 2, 0, 3, 0, 4, 0, 0, 0, 0, 0, 0, 0, 2, 0, 0, 0, 5, 0, 0, 0] ++ List.replicate 8 0 ++ [7, 8]) with
     | .ok t => t == .host 1 { hmsg with part := 2, stream := 3, seq := 4, tag := 5, payload := [7, 8] }
     | .error _ => false) = true
    ∧ (match decodeDatagram ([0x5A, 0x4F, 2, 1] ++ List.replicate 28 0) with
       | .ok _ => false
       | .error _ => true) = true := by
  decide +kernel

/-- The header of a FILL (R441, R442): DST 0x102, SRC 3, TYPE 3, AGE 4, no payload, RTAG 5, PART 6, ADDR 0x40. -/
theorem test_packet :
    (match decodePacket ([2, 1, 3, 0, 3, 4, 0, 0, 5, 0, 0, 0, 6, 0, 0, 0, 0x40] ++ List.replicate 31 0) with
     | .ok x => x == (3, { pkt with dst := 0x102, src := 3, age := 4, rtag := 5, part := 6, addr := 0x40 })
     | .error _ => false) = true := by
  decide +kernel

/-- The fields of a flit (R438): LSEQ 0x123, channel 2 with SOP, ACKV and ACKSEQ 0x45, credits; the CRC of the digits 1 to 9
is the check value that every description of CRC-32C gives. -/
theorem test_flit :
    (let f := decodeFlit ([0x23, 1, 6, 0, 0x45, 0x80, 0, 0, 1, 2, 3, 4, 9] ++ List.replicate 243 0)
     f.lseq = 0x123 ∧ f.vc = 2 ∧ f.sop = true ∧ f.eop = false ∧ f.ctrl = false ∧ f.ackv = true ∧ f.ackseq = 0x45
       ∧ f.cred = [1, 2, 3, 4] ∧ f.body.head? = some 9)
    ∧ flitCrc [0x31, 0x32, 0x33, 0x34, 0x35, 0x36, 0x37, 0x38, 0x39] = 0xE3069283 := by
  decide +kernel

/-- A bundle in which two syllables write one register, or stand out of order, traps (R157). -/
theorem test_bundles :
    refuses ((decodeBundle false [0x20440000#32 + 0x00022000, 0x50440000#32 + 0x00022000]).map fun _ => .nop) = true
    ∧ refuses ((decodeBundle false [0x40440000#32, 0x30480000#32]).map fun _ => .nop) = true
    ∧ refuses ((decodeBundle false [0x20440000#32, 0x50480000#32]).map fun _ => .nop) = false := by
  decide +kernel

/-! ### Witnesses: states and operands that meet the hypotheses of the statements -/

/-- An access check passed with this state and place. -/
def goes (a : Access) (t : State) (l : Loc) : Bool :=
  match a with
  | .go u m => decide (u = t) && decide (m = l)
  | _ => false
theorem goes_eq {a : Access} {t : State} {l : Loc} (h : goes a t l = true) : a = .go t l := by
  cases a <;> simp_all [goes]
/-- An outcome is this next state. -/
def nexts (o : Out) (t : State) : Bool :=
  match o with
  | .next u => decide (u = t)
  | _ => false
theorem nexts_eq {o : Out} {t : State} (h : nexts o t = true) : o = .next t := by
  cases o <;> simp_all [nexts]

/-- The next state of an outcome. -/
def nextOf (o : Out) : State :=
  match o with
  | .next u => u
  | _ => State.reset

/-- The state of an answered read. -/
def valueState (x : Nat × Access) : State :=
  match x.2 with
  | .value t _ => t
  | _ => State.reset
/-- A read answered with this address, state and bytes. -/
def gives (x : Nat × Access) (n : Nat) (t : State) (bs : List Byte) : Bool :=
  match x with
  | (m, .value u cs) => decide (m = n) && decide (u = t) && decide (cs = bs)
  | _ => false
theorem gives_eq {x : Nat × Access} {n : Nat} {t : State} {bs : List Byte} (h : gives x n t bs = true) : x = (n, .value t bs) := by
  obtain ⟨m, a⟩ := x
  cases a <;> simp_all [gives]

/-- The state a copy ends in. -/
def doneOf (c : CopyEnd) : State :=
  match c with
  | .done s => s
  | .fault s _ _ _ => s
  | .wait s => s
/-- The cause, address and index of a copy that faults. -/
def faultOf (c : CopyEnd) : Cause × Nat × Nat :=
  match c with
  | .fault _ c va i => (c, va, i)
  | _ => (.page, 0, 0)
/-- How a copy ends. -/
def endKind (c : CopyEnd) : Nat :=
  match c with
  | .done _ => 0
  | .fault .. => 1
  | .wait _ => 2
theorem done_eq {c : CopyEnd} (h : endKind c = 0) : c = .done (doneOf c) := by
  cases c <;> simp_all [endKind, doneOf]
theorem fault_eq {c : CopyEnd} (h : endKind c = 1) : c = .fault (doneOf c) (faultOf c).1 (faultOf c).2.1 (faultOf c).2.2 := by
  cases c <;> simp_all [endKind, doneOf, faultOf]
theorem wait_eq {c : CopyEnd} (h : endKind c = 2) : c = .wait (doneOf c) := by
  cases c <;> simp_all [endKind, doneOf]
theorem tileStill_of {s : State} {pos : Nat}
    (a : ∀ c ∈ s.cores, ∀ b ∈ c.2.stores, locOverlap (.spad (posBase pos)) 0x800 b.loc b.bytes.length = false)
    (b : ∀ u ∈ s.strands, ∀ p ∈ u.2.pend, ((loadOf p).all fun x => !locOverlap (.spad (posBase pos)) 0x800 x.1 x.2.1) = true) :
    TileStill s pos := by
  refine ⟨a, fun u hu p hp x hx => ?_⟩
  simpa [hx] using b u hu p hp

theorem stale_of {s : State} {r : Request} {tag v : Nat} (h : s.peerVers = [(peerUnit r.pkt.dst r.pkt.addr, v)]) (hv : v ≠ tag) :
    staleFill s r tag = true := by
  simp [staleFill, heldVersion, Tbl.find, h, hv]
theorem near_some {s : State} {part va k : Nat} (hk : k < nearLimit / 65536) (h : frameFree s part (65536 * k) = true) :
    (nearFrame s part va).isSome = true := by
  simp only [nearFrame, List.find?_isSome]
  exact ⟨65536 * k, List.mem_map.2 ⟨k, List.mem_cons_of_mem _ (List.mem_range.2 hk), rfl⟩, h⟩
theorem noStall_all {s : State} (h : s.cur.pendTok = []) (rs : List GReg) : NoStall s rs := by
  unfold NoStall pendingTok
  rw [List.findSome?_eq_none_iff]
  intro r _
  cases r <;> simp [h, NSet.has]

/-! ### Witnesses written out by hand -/

/-- The first instruction word of the page of address 0 is ADDI g1, g1, 5; core 0 has its issue slot. -/
def fetchS : State :=
  { pg with agenda := [.core 0], hbm := Mem.putBytes [] 0x1000 (leBytes 4 0x40210005) }
/-- The same once the translation is the most recently used. -/
def fetchS' : State := (coreLook { fetchS with agenda := [], strandId := 0 } 0x1000).1

/-- Witness of `StepRunsDecoded`: an ADDI at the program counter. -/
theorem witness_StepRunsDecoded :
    fetchS.agenda = .core 0 :: [] ∧ TakesStrand { fetchS with agenda := [] } 0 0
    ∧ coreLook { fetchS with agenda := [], strandId := 0 } (vaOf (fetchS.strand 0).pc) = (fetchS', some (openEntry 0 0x1000))
    ∧ FetchesWord fetchS' (openEntry 0 0x1000) 0x1000 (.addi (.g 1) (.g 1) 5)
    ∧ ∃ t, exec (.addi (.g 1) (.g 1) 5) (recallLoc fetchS' (.mem 0x1000)) = .next t := by
  exact ⟨by decide +kernel, by constructor <;> decide +kernel, by decide +kernel, by constructor <;> decide +kernel,
    nextOf (exec (.addi (.g 1) (.g 1) 5) (recallLoc fetchS' (.mem 0x1000))), nexts_eq (by decide +kernel)⟩

/-- Witnesses of `StepRunsHappening`: a happening, a message of each TYPE named, packets for this device, an empty agenda, a tick. -/
theorem witness_StepRunsHappening :
    (∃ (s : State) (i : Instr), s.agenda = .event i :: [] ∧ s.mgmt.powered = true)
    ∧ (∃ (s : State) (m : HostMsg), s.agenda = .host 1 m :: [.tick])
    ∧ (∃ (s : State) (m : HostMsg), s.agenda = .host 3 m :: []) ∧ (∃ (s : State) (m : HostMsg), s.agenda = .host 8 m :: [])
    ∧ (∃ (s : State) (p : Packet), s.agenda = .packet 1 p :: [] ∧ (s.mgmt.phase = .ready ∨ s.mgmt.phase = .tripped) ∧ p.dst = s.devid)
    ∧ (∃ (s : State) (p : Packet), s.agenda = .packet 6 p :: [] ∧ (s.mgmt.phase = .ready ∨ s.mgmt.phase = .tripped) ∧ p.dst = s.devid)
    ∧ (∃ s : State, s.agenda = [] ∧ s.mgmt.powered = true) ∧ ∃ s : State, s.agenda = .tick :: [] := by
  exact ⟨⟨{ base with agenda := [.event .boot] }, .boot, by decide +kernel, by decide +kernel⟩,
    ⟨{ base with agenda := [.host 1 hmsg, .tick] }, hmsg, by decide +kernel⟩, ⟨{ base with agenda := [.host 3 hmsg] }, hmsg, by decide +kernel⟩,
    ⟨{ base with agenda := [.host 8 hmsg] }, hmsg, by decide +kernel⟩,
    ⟨{ base with agenda := [.packet 1 pkt] }, pkt, by decide +kernel, by decide +kernel, by decide +kernel⟩,
    ⟨{ base with agenda := [.packet 6 { pkt with dst := 7 }], devid := 7, mgmt := { base.mgmt with phase := .tripped } }, { pkt with dst := 7 },
      by decide +kernel, by decide +kernel, by decide +kernel⟩,
    ⟨{ base with agenda := [] }, by decide +kernel, by decide +kernel⟩, ⟨{ base with agenda := [.tick] }, by decide +kernel⟩⟩

/-- Witness of `StepKeepsStoresCanonical`. -/
theorem witness_StepKeepsStoresCanonical : ∃ s t : State, s.storesOk = true ∧ step s = .next t := by
  exact ⟨fetchS, nextOf (step fetchS), by decide +kernel, nexts_eq (by decide +kernel)⟩

/-- Witnesses of `GrainRoundTrip` and `GrainWordIsEncoding`: the least and the greatest operands of an I-format word. -/
theorem witness_GrainRoundTrip :
    (∃ (i : Instr) (w : W32), i.wf = true ∧ encodeGrain i = some w ∧ decodeGrain w = .ok i)
    ∧ ∃ (i : Instr) (w : W32), i.wf = true ∧ encodeGrain i = some w ∧ decodeGrain w = .ok i := by
  exact ⟨⟨.addi (.g 0) (.g 0) 0, 0x40000000, by decide +kernel, by decide +kernel, by decide +kernel⟩,
    ⟨.ldv (.w 12) (.w 15) 15 0xFFF, 0x9F9FFFFF, by decide +kernel, by decide +kernel, by decide +kernel⟩⟩
theorem witness_GrainWordIsEncoding : ∃ (i : Instr) (w : W32), decodeGrain w = .ok i := by
  exact ⟨.sysc 0xFFFF, 0xF000FFFF, by decide +kernel⟩
/-- Witnesses of `SyllableRoundTrip`, with and without the stop bit. -/
theorem witness_SyllableRoundTrip :
    (∃ (i : Instr) (w : W32), i.wf = true ∧ encodeSyllable true i = some w) ∧ ∃ (i : Instr) (w : W32), i.wf = true ∧ encodeSyllable false i = some w := by
  exact ⟨⟨.mcall 63 7 127 127, 0x93FFFFF8, by decide +kernel, by decide +kernel⟩, ⟨.mstore 16 0, 0x85000000, by decide +kernel, by decide +kernel⟩⟩

/-- Operation 5 is to fill or copy to 0x2040 from 0x2000; its turn comes. -/
def elemOp (k : EngKind) : EngOp :=
  { kind := k, strand := 0, task := 7, part := 0, sink := 0, launch := 0, tok := 3, a := 0x2040, b := 0x2000, c := 0, size := 32, count := 2 }
def elemS (k : EngKind) : State :=
  { pg with ops := [(5, elemOp k)], agenda := [.engine 5], clusters := [(0, { tlb := [openEntry 0 0x1000] })] }
def placed (x : EngAcc) : State :=
  match x with
  | .go t _ => t
  | _ => State.reset
def lands (x : EngAcc) (t : State) (l : Loc) : Bool :=
  match x with
  | .go u m => decide (u = t) && decide (m = l)
  | _ => false
theorem lands_eq {x : EngAcc} {t : State} {l : Loc} (h : lands x t l = true) : x = .go t l := by
  cases x <;> simp_all [lands]
/-- Witnesses of `EngineProgress` on elements: one of a fill, one of a copy, and the last word of a vector. -/
theorem witness_EngineProgress_elements :
    (∃ (s s2 : State) (k pa : Nat) (o : EngOp) (rest : List Turn), s.agenda = .engine k :: rest ∧ s.ops.find k = some o ∧ o.away = false
      ∧ o.suspended = false ∧ o.miss = none ∧ o.cancelled = false ∧ o.next < o.count ∧ o.stride = 1 ∧ PlainMemory s2
      ∧ Memory.wf s2.hbm = true ∧ s2.hbm = s.hbm ∧ s2.ops = s.ops ∧ s2.poison.Nodup ∧ o.kind = .fill
      ∧ engPlace { s with agenda := rest } o (o.a + 32 * o.next) true = .go s2 (.mem pa))
    ∧ (∃ (s s1 s2 : State) (k pa src : Nat) (o : EngOp) (rest : List Turn), s.agenda = .engine k :: rest ∧ s.ops.find k = some o
      ∧ o.away = false ∧ o.suspended = false ∧ o.miss = none ∧ o.cancelled = false ∧ o.next < o.count ∧ o.stride = 1 ∧ PlainMemory s2
      ∧ Memory.wf s2.hbm = true ∧ s2.hbm = s.hbm ∧ s2.ops = s.ops ∧ s2.poison.Nodup ∧ o.kind = .copy
      ∧ engPlace { s with agenda := rest } o (o.b + 32 * o.next) false = .go s1 (.mem src) ∧ PlainMemory s1 ∧ s1.hbm = s.hbm
      ∧ engPlace s1 o (o.a + 32 * o.next) true = .go s2 (.mem pa))
    ∧ ∃ n j : Nat, j < n ∧ j + 1 = n := by
  let f := placed (engPlace { elemS .fill with agenda := [] } (elemOp .fill) 0x2040 true)
  let c := placed (engPlace { elemS .copy with agenda := [] } (elemOp .copy) 0x2000 false)
  let c' := placed (engPlace c (elemOp .copy) 0x2040 true)
  refine ⟨⟨elemS .fill, f, 5, 0x2040, elemOp .fill, [], ?_⟩, ⟨elemS .copy, c, c', 5, 0x2040, 0x2000, elemOp .copy, [], ?_⟩, 4, 3, ?_⟩ <;>
    and_intros <;> first
    | decide +kernel
    | (constructor <;> decide +kernel)
    | exact lands_eq (by decide +kernel)

/-- Pages 4 (near, all permissions), 5 (host-shared), 6 (near) and 7 (far) of partition 0. -/
def ptrTo (a : Nat) : List Byte := leBytes 8 (a / 256 * 65536 + 1)
def leafTo (a flags : Nat) : Nat := a / 256 * 65536 + flags
def treed (s : State) : State :=
  { s with hbm := Mem.putBytes (Mem.putBytes (Mem.putBytes (Mem.putBytes (Mem.putBytes (Mem.putBytes s.hbm 0x100000 (ptrTo 0x110000)) 0x110000 (ptrTo 0x120000)) 0x120000 (ptrTo 0x130000))
      0x130020 (leBytes 8 (leafTo 0x200000 0x3F))) 0x130028 (leBytes 8 (leafTo 0x210000 0xBF))) 0x130030 (leBytes 8 (leafTo 0x220000 0x3F)) }
/-- A swap record at page 4 that names pages 6 and 7, of which 7 lies in the far tier. -/
def swapS : State :=
  let t := treed base
  { t with hbm := Mem.putBytes (Mem.putBytes t.hbm 0x130038 (leBytes 8 (leafTo 0x10000230000 0x7F))) 0x200000 (leBytes 8 0x60000 ++ leBytes 8 0x70000) }

/-- The walk goes down by a pointer. -/
theorem walk_down {s : State} {va t e lv : Nat} (h : readPhys s (t + 8 * levelIndex va (lv + 1)) = e) (h0 : (!e.testBit 0) = false)
    (h1 : e.testBit 1 = false) (h2 : ptrMalformed s 0 e (lv + 1) = false) : walkFrom s 0 va t (lv + 1) = walkFrom s 0 va (leafAddr e) lv := by
  simp only [walkFrom, h, h0, h1, h2, Bool.false_eq_true, if_false]
/-- The far page is there on an OZ4-M, which has the far tier (R1, log 6). -/
theorem far_page (h : Config.isM = true) : pageLeaf swapS 0 0x70000 1 = some (leafTo 0x10000230000 0x7F, 0x130038) := by
  have step3 : walkFrom swapS 0 0x70000 0x100000 3 = walkFrom swapS 0 0x70000 0x110000 2 :=
    (walk_down (e := 0x1100 * 65536 + 1) (by decide +kernel) (by decide +kernel) (by decide +kernel) (by decide +kernel)).trans
      (congrArg (walkFrom swapS 0 0x70000 · 2) (by decide +kernel))
  have step2 : walkFrom swapS 0 0x70000 0x110000 2 = walkFrom swapS 0 0x70000 0x120000 1 :=
    (walk_down (e := 0x1200 * 65536 + 1) (by decide +kernel) (by decide +kernel) (by decide +kernel) (by decide +kernel)).trans
      (congrArg (walkFrom swapS 0 0x70000 · 1) (by decide +kernel))
  have step1 : walkFrom swapS 0 0x70000 0x120000 1 = walkFrom swapS 0 0x70000 0x130000 0 :=
    (walk_down (e := 0x1300 * 65536 + 1) (by decide +kernel) (by decide +kernel) (by decide +kernel) (by decide +kernel)).trans
      (congrArg (walkFrom swapS 0 0x70000 · 0) (by decide +kernel))
  have start : walk swapS 0 0x70000 = walkFrom swapS 0 0x70000 0x100000 3 := by
    unfold walk
    rw [show (swapS.part 0).ptroot = 0x100000 by decide +kernel]
    exact if_pos (by decide +kernel)
  have far : ∀ x, farBase ≤ x → x < farLimit → isFar x = true := by
    intro x a b
    simp [isFar, h, a, b]
  have e : readPhys swapS (0x130000 + 8 * levelIndex 0x70000 0) = leafTo 0x10000230000 0x7F := by decide +kernel
  have ok : leafMalformed swapS 0 0x70000 (leafTo 0x10000230000 0x7F) 0 = false := by
    have f : frameOk swapS 0 1 (leafAddr (leafTo 0x10000230000 0x7F)) (szBits (leafSz (leafTo 0x10000230000 0x7F))) = true := by
      unfold frameOk
      simp only [far _ (show farBase ≤ leafAddr (leafTo 0x10000230000 0x7F) by decide +kernel) (by decide +kernel),
        far _ (show farBase ≤ leafAddr (leafTo 0x10000230000 0x7F) + 2 ^ szBits (leafSz (leafTo 0x10000230000 0x7F)) - 1 by decide +kernel)
          (by decide +kernel), Bool.true_and]
      decide +kernel
    unfold leafMalformed
    rw [show leafKind (leafTo 0x10000230000 0x7F) = 1 by decide +kernel]
    simp only [f]
    decide +kernel
  have last : walkFrom swapS 0 0x70000 0x130000 0 = .leaf (leafTo 0x10000230000 0x7F) 0 0x130038 := by
    have k0 : (!(leafTo 0x10000230000 0x7F).testBit 0) = false := by decide +kernel
    have k1 : (leafTo 0x10000230000 0x7F).testBit 1 = true := by decide +kernel
    simp only [walkFrom, e, ok, k0, k1, Bool.false_eq_true, if_false, if_true]
    rfl
  unfold pageLeaf
  rw [if_neg (by decide +kernel), start, step3, step2, step1, last]
  exact if_pos (by decide +kernel)

/-- Witness of `Pages`: a swap that is posted, where there is a far tier. -/
theorem witness_Pages : ∃ (s : State) (p va a b ne nl : Nat), va % 64 = 0 ∧ PlainMemory s ∧ Still s
      ∧ treeAddr s p va permR = .ok (.mem a) ∧ treeAddr s p (va + 32) permR = .ok (.mem b)
      ∧ (∀ i < 64, 24 ≤ i → (s.hbm.bytes a 32 ++ s.hbm.bytes b 32).getD i 0 = 0)
      ∧ pageLeaf s p (numAt (s.hbm.bytes a 32 ++ s.hbm.bytes b 32) 0 8) 0 = some (ne, nl) ∧ s.swaps = []
      ∧ (Config.isM = true → ∃ fe fl, pageLeaf s p (numAt (s.hbm.bytes a 32 ++ s.hbm.bytes b 32) 8 8) 1 = some (fe, fl)) := by
  refine ⟨swapS, 0, 0x40000, 0x200000, 0x200020, leafTo 0x220000 0x3F, 0x130030, ?_, ?_, ?_, ?_, ?_, ?_, ?_, ?_,
    fun h => ⟨leafTo 0x10000230000 0x7F, 0x130038, ?_⟩⟩
  case refine_9 => exact (congrArg (pageLeaf swapS 0 · 1)
    (by decide +kernel : numAt (swapS.hbm.bytes 0x200000 32 ++ swapS.hbm.bytes 0x200020 32) 8 8 = 0x70000)).trans (far_page h)
  all_goals first | decide +kernel | (constructor <;> decide +kernel)

/-! ### Witnesses of floating point, windows, regions, elements and apertures -/

theorem went_eq {x : EngAcc} {t : State} {l : Loc} (h : (match x with
    | .go u m => decide (u = t) && decide (m = l)
    | _ => false) = true) : x = .go t l := by
  cases x <;> simp_all
theorem refused_eq {x : EngAcc} {t : State} {c : Cause} (h : (match x with
    | .fault u k => decide (u = t) && decide (k = c)
    | _ => false) = true) : x = .fault t c := by
  cases x <;> simp_all
theorem places_eq {x : Except (Nat × EngAcc) (State × List (Loc × Nat))} {y : State × List (Loc × Nat)} (h : (match x with
    | .ok z => decide (z = y)
    | _ => false) = true) : x = .ok y := by
  cases x <;> simp_all
theorem misplaced_eq {x : Except (Nat × EngAcc) (State × List (Loc × Nat))} {va : Nat} {t : State} {c : Cause} (h : (match x with
    | .error (n, .fault u k) => decide (n = va) && decide (u = t) && decide (k = c)
    | _ => false) = true) : x = .error (va, .fault t c) := by
  split at h <;> simp_all
theorem judgedGo_eq {x : Judged} {t : State} (h : (match x with
    | .go u => decide (u = t)
    | _ => false) = true) : x = .go t := by
  cases x <;> simp_all
theorem judgedAborted_eq {x : Judged} {t : State} (h : (match x with
    | .aborted u => decide (u = t)
    | _ => false) = true) : x = .aborted t := by
  cases x <;> simp_all
theorem judgedHeld_eq {x : Judged} (h : (match x with
    | .held => true
    | _ => false) = true) : x = .held := by
  cases x <;> simp_all

/-- Binary32 operands of FADD to FFMA under a rounding mode. -/
def floats (rm : Nat) (x y z : Word) : State :=
  st fun t => { ((t.write (.w 1) x).write (.w 2) y).write (.w 3) z with frmode := rm }

theorem noStall_in {l : List State} (h : (l.all fun s => s.cur.pendTok == []) = true) : ∀ s ∈ l, ∀ rs, NoStall s rs :=
  fun s hs rs => noStall_all (by simpa using List.all_eq_true.1 h s hs) rs

/-- Witnesses of `FloatResults`: one and its neighbour, of either sign, in each rounding mode; a sum that lies halfway between two numbers;
the greatest number doubled; minus one, zero and NaN. -/
theorem witness_FloatResults :
    (∀ s ∈ [floats 0 0x3F800001 0x33000001 0x3F800000, floats 1 0xBF800001 0x33000001 0x3F800000, floats 2 0x3F800001 0x33000001 0x3F800000,
        floats 3 0x3F800001 0x33000001 0x3F800000], ∀ rs, NoStall s rs)
    ∧ (∀ rm ∈ [0, 1, 2, 3], (floats rm 0x3F800001 0x33000001 0x3F800000).cur.frmode = rm)
    ∧ (∀ r ∈ [GReg.w 1, .w 2, .w 3], ((floats 1 0x3F800001 0x33000001 0x3F800000).cur.read r).toNat % 2 ^ 31 ≤ 0x7F7FFFFF)
    ∧ (let v (p : Nat) : ℚ := fpVal (fpDecode fp32 p)
       v 0x3F800001 ≠ 0 ∧ 0 ≤ v 0x3F800001 + v 0x33000001 ∧ v 0xBF800001 + v 0x33000001 ≤ 0 ∧ v 0xBF800001 < 0 ∧ 0 ≤ v 0
       ∧ v 0x3F800001 ≠ v 0x3F800000 ∧ v 0x3F800001 + v 0x3F800000 = 2 * (v 0x3F800000 + v 0x33800000))
    ∧ (fpAdd fp32 0 (fpDecode fp32 0x3F800000) (fpDecode fp32 0x33800000)).1 = 0x3F800000
    ∧ ¬(fpAdd fp32 0 (fpDecode fp32 0x7F7FFFFF) (fpDecode fp32 0x7F7FFFFF)).1 % 2 ^ 31 ≤ 0x7F7FFFFF
    ∧ (fpDecode fp32 0x7FC00001).isNan = true := by
  refine ⟨noStall_in (by decide +kernel), by decide +kernel, by decide +kernel, ?_, by decide +kernel, by decide +kernel, by decide +kernel⟩
  simp only [show fpDecode fp32 0x3F800001 = .fin false 8388609 (-23) by decide +kernel, show fpDecode fp32 0xBF800001 = .fin true 8388609 (-23) by decide +kernel,
    show fpDecode fp32 0x33000001 = .fin false 8388609 (-48) by decide +kernel, show fpDecode fp32 0x3F800000 = .fin false 8388608 (-23) by decide +kernel,
    show fpDecode fp32 0x33800000 = .fin false 8388608 (-47) by decide +kernel, show fpDecode fp32 0 = .fin false 0 (-149) by decide +kernel, fpVal]
  norm_num

/-- Resident windows of strand 0, which waits for a move since g-cycle 0; a move may be under way. -/
def winS (n depth : Nat) (m : Option WinMove) : State :=
  { st (fun t => { t with windows := .replicate n (.replicate 16 5), depth := depth, run := .stall (.windows 0), winMove := m }) with cycle := 20 }

/-- Witnesses of `JumpsAndWindows` (windows): the first and the last of four slots of a spill and of a fill, and a core whose slot is taken. -/
theorem witness_JumpsAndWindows_WindowMoves :
    (∀ s ∈ [winS 7 9 none, winS 8 23 (some ⟨true, 1, .replicate 96 7⟩), winS 1 9 none, winS 0 1 (some ⟨false, 1, .replicate 96 7⟩)],
      (pickStrand s 0).isNone = true ∧ (s.strand 0).halted = false ∧ (s.core 0).issuedAt ≠ some s.cycle ∧ Memory.wf s.spad = true
      ∧ (7 ≤ (s.strand 0).windows.length ∧ (s.strand 0).depth ≤ 15 + (s.strand 0).windows.length
        ∨ (s.strand 0).windows.length < 2 ∧ (s.strand 0).windows.length < (s.strand 0).depth))
    ∧ PlainMemory (winS 7 9 none) ∧ ((winS 7 9 none).setCore 0 { issuedAt := some 20 }).cycle = 20 := by
  exact ⟨by decide +kernel, by constructor <;> decide +kernel, by decide +kernel⟩

/-- A device with these regions and sequences, of which strand 0 holds region 3. -/
def regS (l : List (Nat × Region)) (q : List (Nat × List SeqEntry) := []) (a b c : Word := 0x2000) : State :=
  { st (fun t => { r4 a b 0x55 c t with region := some 3 }) pg with regions := l, seqs := q, cycle := 50 }
/-- A live region. -/
def liveR (stamp : Nat) (preds : List Nat := []) (holder : Nat := 0) : Region := { st := .live, stamp := stamp, preds := preds, holder := holder }
/-- The last access of sector 256: a write of region 4. -/
def lastW : List (Nat × List SeqEntry) := [(0x100, [⟨3, none, 0x2000⟩, ⟨4, some [(0, 7)], 0x2000⟩])]

/-- Witnesses of `RegionAccesses` (judging): an aborted region; full read and write sets; the first access of a sector; a first, a fourth
and a fifth predecessor; a chain of five; a cycle with an older and with a younger region; a region with and without a successor. -/
theorem witness_RegionAccesses_RegionJudgement :
    (∃ s : State, (s.region 3).st = .aborted ∧ (∀ c ∈ s.cores, ∀ b ∈ c.2.stores, b.early = []) ∧ ∀ c ∈ s.cores, c.2.red = [])
    ∧ (let s := regS [(3, { liveR 5 with reads := .range 256, writes := .range 64 })]
       NSet.has (s.region 3).reads 0x100 = false ∧ 256 ≤ (s.region 3).reads.length ∧ NSet.has (s.region 3).writes 0x100 = false
         ∧ 64 ≤ (s.region 3).writes.length ∧ NSet.has (s.region 3).writes 63 = true)
    ∧ (let s := regS [(3, liveR 5)]
       (s.region 3).st = .live ∧ (∀ y ∈ s.regions, justAborted s y.2 = false) ∧ (∀ e ∈ s.seqs.getD 0x100 [], e.rid = 3)
         ∧ (∀ y ∈ s.regions, regDepth s 8 y.1 ≤ 4) ∧ ∀ y ∈ s.regions, y.2.preds.contains 3 = false)
    ∧ (∀ preds ∈ [[], [10, 11, 12], [10, 11, 12, 13]], let s := regS [(3, liveR 5 preds), (4, liveR 7)] lastW
       s.seqs.getD 0x100 [] = [⟨3, none, 0x2000⟩] ++ [⟨4, some [(0, 7)], 0x2000⟩] ∧ (s.region 4).st = .live ∧ precedes s 3 8 4 = false
         ∧ (∀ y ∈ s.regions, justAborted s y.2 = false) ∧ (s.region 3).preds.contains 4 = false ∧ (s.region 3).preds.length = preds.length
         ∧ ∀ y ∈ (s.setRegion 3 { s.region 3 with preds := (s.region 3).preds ++ [4] }).regions,
             regDepth (s.setRegion 3 { s.region 3 with preds := (s.region 3).preds ++ [4] }) 8 y.1 ≤ 4)
    ∧ (let s := regS [(3, liveR 9), (4, liveR 7 [5]), (5, liveR 1 [6]), (6, liveR 1 [7]), (7, liveR 1 [8]), (8, liveR 1)] lastW
       precedes s 3 8 4 = false ∧ (s.region 3).preds.length < 4
         ∧ 4 < regDepth (s.setRegion 3 { s.region 3 with preds := (s.region 3).preds ++ [4] }) 8 3)
    ∧ (let s := regS [(3, liveR 9), (4, liveR 7 [3])] lastW
       precedes s 3 8 4 = true ∧ (s.region 4).stamp < (s.region 3).stamp)
    ∧ (let s := regS [(3, liveR 5), (4, liveR 7 [3])] lastW
       precedes s 3 8 4 = true ∧ (s.region 3).stamp ≤ (s.region 4).stamp ∧ (∃ u, judge s 3 0x100 true = .go u)
         ∧ (∀ y ∈ s.regions, y.2.preds.contains 3 = decide (y.1 = 4)) ∧ (∀ y ∈ s.regions, y.2.preds.contains 4 = false)
         ∧ (4, liveR 7 [3]) ∈ s.regions ∧ Tbl.sorted s.regions = true) := by
  refine ⟨⟨regS [(3, { st := .aborted, code := 3 })], by decide +kernel, by decide +kernel, by decide +kernel⟩, by decide +kernel, by decide +kernel,
    by decide +kernel, by decide +kernel, by decide +kernel, by decide +kernel, by decide +kernel, ?_, by decide +kernel, by decide +kernel,
    by decide +kernel, by decide +kernel⟩
  exact ⟨(match judge (regS [(3, liveR 5), (4, liveR 7 [3])] lastW) 3 0x100 true with
    | .go u => u
    | _ => base), judgedGo_eq (by decide +kernel)⟩

/-- The state after an access of region 3 that is judged possible. -/
def judgedS (s : State) (n : Nat) (wr : Bool) : State :=
  match judge s 3 n wr with
  | .go u => u
  | .aborted u => u
  | .held => s
/-- The region's read of sector 256 at this address joins the sequence. -/
def readS (s : State) : State :=
  { judgedS s 0x100 false with seqs := Tbl.put (judgedS s 0x100 false).seqs 0x100 ((judgedS s 0x100 false).seqs.getD 0x100 [] ++ [⟨3, none, 0x2000⟩]) }
/-- A chain of four older regions stands before the last writer of the sector. -/
def deepR : State := regS [(3, liveR 9), (4, liveR 7 [5]), (5, liveR 1 [6]), (6, liveR 1 [7]), (7, liveR 1 [8]), (8, liveR 1)]
  [(0x100, [⟨4, some [(0, 7)], 0x2000⟩])]
/-- A plain store to a sector that the region has read waits in the store buffer. -/
def plainR : State :=
  { regS [(3, { liveR 5 with reads := [0x100] })] with cores := [(0, { tlb := [openEntry 0 0x1000], stores := [⟨1, 0x2004, .mem 0x2004, [5, 6], []⟩] })] }

/-- Witnesses of `RegionAccesses` (accesses): a load, a store and an atomic at 0x2000 that go on, are held, and meet an aborted region; a CAS
that does and one that does not find its comparand; a plain store of another strand to a sector of the region. -/
theorem witness_RegionAccesses :
    (∀ s ∈ [regS [(3, liveR 5)], deepR, regS [(3, { st := .aborted, code := 3 })]], ∀ rs, NoStall s rs)
    ∧ (∀ s ∈ [regS [(3, liveR 5)], deepR, regS [(3, { st := .aborted, code := 3 })]], s.cur.region = some 3 ∧ memAddr s.cur (.w 2) 0 8 = 0x2000 ∧ window 0x2000 < 8)
    ∧ (∀ k, Checked (regS [(3, liveR 5)]) (regS [(3, liveR 5)]) 0x2000 8 k (.mem 0x2000))
    ∧ Checked deepR deepR 0x2000 8 .load (.mem 0x2000)
    ∧ Checked (regS [(3, { st := .aborted, code := 3 })]) (regS [(3, { st := .aborted, code := 3 })]) 0x2000 8 .load (.mem 0x2000)
    ∧ (∀ wr, judge (regS [(3, liveR 5)]) 3 0x100 wr = .go (judgedS (regS [(3, liveR 5)]) 0x100 wr))
    ∧ (∀ wr, judge deepR 3 0x100 wr = .held)
    ∧ (∀ wr, judge (regS [(3, { st := .aborted, code := 3 })]) 3 0x100 wr = .aborted (regS [(3, { st := .aborted, code := 3 })]))
    ∧ (let u := regS [(3, { st := .aborted, code := 3 })]
       meetsPoison u u.curCore u.curPart (.mem 0x2000) 8 = false)
    ∧ judge (readS (regS [(3, liveR 5)])) 3 0x100 true = .go (judgedS (readS (regS [(3, liveR 5)])) 0x100 true)
    ∧ ofLeBytes ((regS [(3, liveR 5)]).hbm.bytes 0x2000 8) = (0xCFCECDCCCBCAC9C8 : Word).toNat
    ∧ ofLeBytes ((regS [(3, liveR 5)]).hbm.bytes 0x2000 8) ≠ (0x2000 : Word).toNat
    ∧ (plainR.regions = [(3, plainR.region 3)] ∧ (plainR.region 3).st = .live ∧ (plainR.region 3).preds.contains 3 = false
      ∧ (plainR.core 0).stores = [⟨1, 0x2004, .mem 0x2004, [5, 6], []⟩] ∧ (∀ c ∈ plainR.cores, ∀ b ∈ c.2.stores, b.early = [])
      ∧ (∀ c ∈ plainR.cores, c.2.red = []) ∧ NSet.has (plainR.region 3).reads (0x2004 / 32) = true) := by
  refine ⟨noStall_in (by decide +kernel), by decide +kernel, fun k => ?_, ?_, ?_, fun wr => ?_, fun wr => ?_, fun wr => ?_, by decide +kernel, judgedGo_eq (by decide +kernel),
    by decide +kernel, by decide +kernel, by and_intros <;> decide +kernel⟩
  · cases k <;> exact ⟨by decide +kernel, by decide +kernel, goes_eq (by decide +kernel), rfl, rfl⟩
  · exact ⟨by decide +kernel, by decide +kernel, goes_eq (by decide +kernel), rfl, rfl⟩
  · exact ⟨by decide +kernel, by decide +kernel, goes_eq (by decide +kernel), rfl, rfl⟩
  · cases wr <;> exact judgedGo_eq (by decide +kernel)
  · cases wr <;> exact judgedHeld_eq (by decide +kernel)
  · cases wr <;> exact judgedAborted_eq (by decide +kernel)

/-- An engine operation of strand 0. -/
def opE (kind : EngKind) (c : Nat := 0x3000) (size : Nat := 32) (next : Nat := 0) : EngOp :=
  { kind := kind, strand := 0, task := 7, part := 0, sink := 0, launch := 0, tok := 3, a := 0x4000, b := 0x2000, c := c, size := size, count := 3,
    next := next }
/-- It has its turn; the index list at 0x2000 is 3, 0, 2 and the data at 0x3000 counts up from 7. -/
def engS (o : EngOp) : State :=
  { (st (fun t => { t with pendTok := [3] }) pg) with
    ops := [(5, o)], agenda := [.engine 5], clusters := [(0, { tlb := [openEntry 0 0x1000] })],
    hbm := Mem.putBytes (Mem.putBytes [] 0x2000 (leBytes 4 3 ++ leBytes 4 0 ++ leBytes 4 2)) 0x3000 ((List.range 128).map fun i => BitVec.ofNat 8 (i + 7)) }
/-- The same once its turn has been taken from the agenda. -/
def engS0 (o : EngOp) : State := { engS o with agenda := [] }

/-- Witnesses of `EngineElements` (indexed): a first element of 32 bytes and a last one of 8, gathered and scattered. -/
theorem witness_EngineElements_IndexedElements :
    (∀ o ∈ [opE .gather, opE .gather 0x3000 8 2, opE .scatter, opE .scatter 0x3000 8 2], (engS o).agenda = .engine 5 :: [] ∧ (engS o).ops.find 5 = some o
      ∧ o.away = false ∧ o.suspended = false ∧ o.miss = none ∧ o.cancelled = false ∧ o.next < o.count ∧ o.stride = 1 ∧ (engS o).poison.Nodup
      ∧ Memory.wf (engS o).hbm = true ∧ (o.size = 32 ∨ o.next + 1 = o.count ∧ o.size < 32))
    ∧ PlainMemory (engS0 (opE .gather)) ∧ PlainMemory (engS0 (opE .scatter))
    ∧ engPlace (engS0 (opE .gather)) (opE .gather) 0x2000 false = .go (engS0 (opE .gather)) (.mem 0x2000)
    ∧ engPlace (engS0 (opE .gather)) (opE .gather) (0x3000 + 32 * 3) false = .go (engS0 (opE .gather)) (.mem 0x3060)
    ∧ engPlace (engS0 (opE .gather)) (opE .gather) 0x4000 true = .go (engS0 (opE .gather)) (.mem 0x4000)
    ∧ engPlace (engS0 (opE .scatter)) (opE .scatter) 0x2000 false = .go (engS0 (opE .scatter)) (.mem 0x2000)
    ∧ engPlace (engS0 (opE .scatter)) (opE .scatter) 0x3000 false = .go (engS0 (opE .scatter)) (.mem 0x3000)
    ∧ engPlace (engS0 (opE .scatter)) (opE .scatter) (0x4000 + 32 * 3) true = .go (engS0 (opE .scatter)) (.mem 0x4060) := by
  and_intros <;> first
    | decide +kernel
    | exact went_eq (by decide +kernel)
    | (constructor <;> decide +kernel)

/-- A microprogram at its next row; the rows of 64 words lie at 0x2000, the destination at 0x4000; the page of 0x50000 may not be read. -/
def nearS (o : EngOp) : State :=
  { engS { o with running := true } with
    clusters := [(0, { tlb := [openEntry 0 0x1000, { openEntry 0 0x50000 with word := 3 }] })], trowels := [(2, [5])],
    hbm := Mem.putBytes [] 0x2000 ((List.range 256).map fun i => BitVec.ofNat 8 (3 * i)) }
/-- The same once its turn has been taken from the agenda. -/
def nearS0 (o : EngOp) : State := { nearS o with agenda := [] }
/-- Sixty-four lanes. -/
def laneL : List Nat := (List.range 64).map fun i => 0x3F800000 + 70000 * i
/-- The eight granules of a row. -/
def rowAt (pa : Nat) : List (Loc × Nat) := (List.range 8).map fun j => (Loc.mem (pa + 32 * j), 32)
/-- SCALEADD of three rows and TOPK of 64 candidates. -/
def scaleO (lanes : List Nat) (next : Nat := 0) (b : Nat := 0x2000) : EngOp :=
  { opE .scaleadd 0x40000000 256 next with lanes := lanes, b := b, running := true }
def topO (best : List (Nat × Nat)) (next : Nat := 0) : EngOp := { opE .topk 64 4 next with count := 64, best := best, running := true }
/-- The same state with the translation used last at the front. -/
def nearU (o : EngOp) : State :=
  { nearS0 o with clusters := [(0, { tlb := [{ openEntry 0 0x50000 with word := 3 }, openEntry 0 0x1000] })] }

/-- Witnesses of `EngineElements` (microprograms): SCALEADD at its destination, a row, its end, and a row that faults; TOPK at its candidates
and at its end with three and with four found. -/
theorem witness_EngineElements_NearMicroprograms :
    (∀ o ∈ [scaleO [], scaleO laneL, scaleO laneL 3, scaleO laneL 1 0x50000, topO [], topO [(9, 1), (5, 6), (3, 4)] 64, topO [(9, 1), (5, 6), (3, 4), (2, 0)] 64],
      (nearS o).agenda = .engine 5 :: [] ∧ (nearS o).ops.find 5 = some o ∧ o.away = false ∧ o.suspended = false ∧ o.miss = none ∧ o.cancelled = false
      ∧ o.running = true ∧ o.yielded = false ∧ o.poison = [] ∧ Memory.wf (nearS o).hbm = true ∧ ((nearS o).strand 0).run = .ready
      ∧ ((nearS o).strand 0).task = o.task ∧ ((nearS o).strand 0).reports = [] ∧ Tbl.sorted (nearS o).ops = true ∧ o.stride = 1
      ∧ (nearU o).poison = [] ∧ (nearU o).atoms = []) := by
  decide +kernel

/-- Witnesses of `EngineElements` (microprograms): where the rows of SCALEADD lie. -/
theorem witness_EngineElements_ScaleaddPlaces :
    laneL.length = 64 ∧ PlainMemory (nearU (scaleO [])) ∧ PlainMemory (nearU (scaleO laneL))
    ∧ nearPlaces (nearS0 (scaleO [])) (scaleO []) false (cutRange 10 0x4000 256) [] = .ok (nearU (scaleO []), rowAt 0x4000)
    ∧ nearPlaces (nearS0 (scaleO [])) (scaleO []) true (cutRange 10 0x4000 256) [] = .ok (nearU (scaleO []), rowAt 0x4000)
    ∧ nearPlaces (nearS0 (scaleO laneL)) (scaleO laneL) false (cutRange 8 0x2000 256) [] = .ok (nearU (scaleO laneL), rowAt 0x2000)
    ∧ nearPlaces (nearS0 (scaleO laneL 3)) (scaleO laneL 3) true (cutRange 10 0x4000 256) [] = .ok (nearU (scaleO laneL 3), rowAt 0x4000)
    ∧ nearPlaces (nearS0 (scaleO laneL 1 0x50000)) (scaleO laneL 1 0x50000) false (cutRange 8 0x50100 256) []
        = .error (0x50100, .fault (nearS0 (scaleO laneL 1 0x50000)) .perm)
    ∧ nearPlaces (nearS0 (scaleO laneL 1 0x50000)) (scaleO laneL 1 0x50000) true (cutRange 10 0x4000 256) []
        = .ok (nearU (scaleO laneL 1 0x50000), rowAt 0x4000) := by
  exact ⟨by decide +kernel, by constructor <;> decide +kernel, by constructor <;> decide +kernel, places_eq (by decide +kernel),
    places_eq (by decide +kernel), places_eq (by decide +kernel), places_eq (by decide +kernel), misplaced_eq (by decide +kernel),
    places_eq (by decide +kernel)⟩

/-- Witnesses of `EngineElements` (microprograms): where the candidates and the list of TOPK lie. -/
theorem witness_EngineElements_TopkPlaces :
    nearPlaces (nearS0 (topO [])) (topO []) false (cutRange 8 0x2000 256) [] = .ok (nearU (topO []), rowAt 0x2000)
    ∧ nearPlaces (nearS0 (topO [])) (topO []) true (cutRange 18 0x4000 32) [] = .ok (nearU (topO []), [(.mem 0x4000, 32)]) := by
  exact ⟨places_eq (by decide +kernel), places_eq (by decide +kernel)⟩

/-- Pool 2 of 4 KiB blocks, of which block 5 belongs to sequence 3. -/
def seqS (free : List Nat) (refs : Nat) : State :=
  { pg with pools := [(2, { part := 0, size := 0, count := 8, base := 0x100000, free := free, refs := [(5, refs)], held := [] })],
            sequences := [(3, ⟨2, [5]⟩)], clusters := [(0, { tlb := [openEntry 0 0x1000] })],
            hbm := Mem.putBytes [] 0x105000 ((List.range 64).map fun i => BitVec.ofNat 8 (i + 9)) }
/-- The address of byte off of block b of sequence 3. -/
def seqVa (b off : Nat) : Nat := 14 * 2 ^ 48 + 3 * 2 ^ 28 + b * 2 ^ 16 + off
/-- An element of XCOPY that reads through the sequence is away. -/
def seqAway : State := { seqS [6] 2 with ops := [(4, { opE .copy with b := seqVa 0 64, away := true })] }
/-- A page translated at the compaction aperture, with its surface record. -/
def surfS (word : Nat) (su : Option (Bool × Nat × Nat × Nat × Nat)) : State :=
  { (pg.setCore 0 { tlb := [{ openEntry 0 0x30000 with word := word, surface := su }] }) with
    hbm := Mem.putBytes (Mem.putBytes [] 0x2000 [0x0D, 0xFF]) 0x3000 ((List.range 96).map fun i => BitVec.ofNat 8 (i + 9)) }

/-- Witnesses of `EngineElements` (apertures): a Quarry of another partition, no sequence, a block of one and of two holders, with and without
a free block, and with an element away; at the compaction aperture a store, no record, no permission, a plain page, and a granule that is
not held, held, and past the count. -/
theorem witness_EngineElements_Apertures :
    window (seqVa 0 64) = 14 ∧ bitsOf (seqVa 0 64) 47 28 = 3 ∧ (opE .copy).part = (seqS [6] 1).curPart
    ∧ (seqS [6] 1).ownsQuarry 0 ((2 ^ 19 + 3) / 2 ^ 17) = false ∧ (seqS [6] 1).ownsQuarry 0 (3 / 2 ^ 17) = true
    ∧ { seqS [6] 1 with sequences := [] }.sequences.find 3 = none
    ∧ (∀ s ∈ [seqS [6] 1, seqS [6, 7] 2, seqS [] 2, seqAway], s.sequences.find 3 = some ⟨2, [5]⟩ ∧ (s.pools.find 2).isSome = true
      ∧ (s.cluster s.curCluster).locks = [] ∧ vbufAt s s.curPart (seqVa 0 64) = none ∧ s.cur.region = none ∧ s.poison = []
      ∧ Memory.wf s.hbm = true ∧ meetsPoison s s.curCore s.curPart (.mem 0x105040) 32 = false)
    ∧ 64 < blockBytes 0 ∧ stillThrough (seqS [6, 7] 2) 0 (inEntry 3 0) (fun _ => true) = false ∧ stillThrough seqAway 0 (inEntry 3 0) (fun _ => true) = true
    ∧ Still (seqS [6, 7] 2) ∧ PlainMemory (seqS [6, 7] 2)
    ∧ window (10 * 2 ^ 48 + 0x30000) = 10 ∧ AKind.store ≠ .load
    ∧ (∀ x ∈ [(0x13F, none), (0x103, none), (0x3, none), (0x3F, none), (0x13F, some (true, 0x30000, 0x2000, 0x3000, 3))], let s := surfS x.1 x.2
      ∃ e, (coreLook s 0x30000).2 = some e ∧ e.until_ = none ∧ e.surface = x.2)
    ∧ (leafCmp 0x13F = true ∧ grants 0x3 (permR + permU) = false ∧ grants 0x3F (permR + permU) = true ∧ leafCmp 0x3F = false)
    ∧ (entryPa (surfS 0x3F none) { openEntry 0 0x30000 with word := 0x3F } 0x30000).isSome = true
    ∧ (let s := (coreLook (surfS 0x13F (some (true, 0x30000, 0x2000, 0x3000, 3))) 0x30000).1
       PlainMemory s ∧ s.poison = [] ∧ (s.core s.curCore).stores = [] ∧ (s.cluster s.curCluster).locks = [] ∧ vbufAt s s.curPart 0x30000 = none
       ∧ ∀ g ∈ [(0, true, 0), (1, false, 1), (3, true, 2), (8, true, 3)], ((s.hbm.get (0x2000 + g.1 / 8)).getLsbD (g.1 % 8)) = g.2.1
         ∧ ((List.range g.1).filter fun i => (s.hbm.get (0x2000 + i / 8)).getLsbD (i % 8)).length = g.2.2) := by
  and_intros <;> first
    | decide +kernel
    | (constructor <;> decide +kernel)

/-- A state of the witnesses. -/
def pages_SharedPages_0 : State :=
  { treed base with pages := [(5, { device := true, hold := some (false, 100) })], cycle := 100, mgmt := { base.mgmt with up := true } , cores := [(0, { tlb := [{ openEntry 0 0x50000 with until_ := some 5 }, openEntry 0 0x50000, { openEntry 0 0x40000 with until_ := some 5 }] })] }
/-- A state of the witnesses. -/
def pages_SharedPages_1 : State :=
  { treed base with pages := [(5, { device := false, waiting := true })], cycle := 100, mgmt := { base.mgmt with up := true }  }
/-- A state of the witnesses. -/
def pages_SharedPages_2 : State :=
  { treed base with pages := [(5, { device := false, moving := some true, frame := 0x230000, parts := [0, 1, 2, 3, 4, 5, 6, 7, 8, 9, 10, 11, 12, 13, 14, 15, 99] })], cycle := 100, mgmt := { base.mgmt with up := true }  }
/-- A state of the witnesses. -/
def pages_SharedPages_3 : State :=
  { treed base with pages := [(5, { device := true, moving := some false, parts := [99] })], cycle := 100, mgmt := { base.mgmt with up := true }  }
/-- Witness of `Pages`: a hold that is over. -/
theorem witness_Pages_HoldEnds :
    ∃ (s : State) (p : Nat) (va : Nat) (e : Nat) (pa : Nat) (side : Bool) (c : Nat), sharedLeaf s p va = some (e, pa)
      ∧ s.mgmt.up = true
      ∧ PlainMemory s
      ∧ (s.page p va).hold = some (side, c)
      ∧ c ≤ s.cycle := by
  exact ⟨pages_SharedPages_0, 0, 0x50000, leafTo 0x210000 0xBF, 0x130028, false, 100, by and_intros <;> first
        | exact (Option.some_get _).symm
        | decide +kernel
        | (constructor <;> decide +kernel)⟩
theorem find_none {α : Type} {t : Tbl α} {a : Nat} (h : ∀ c ∈ t, c.1 ≠ a) : t.find a = none := by
  induction t with
  | nil => rfl
  | cons c t ih =>
    obtain ⟨h1, h2⟩ := List.forall_mem_cons.1 h
    simp [Tbl.find, h1, ih h2]
theorem readPhys_zero {s : State} {t i : Nat} (h : ∀ c ∈ s.cores, c.2.red = []) (k : t % 8 = 0) (m : ∀ c ∈ s.hbm, c.1 / 8 ≠ t / 8 + i) :
    readPhys s (t + 8 * i) = 0 := by
  have g (j : Nat) (hj : j < 8) : s.hbm.get (t + 8 * i + j) = 0 := by
    rw [Mem.get, Tbl.getD, find_none fun c hc => ?_]
    · rfl
    · have := m c hc
      omega
  have b : s.hbm.bytes (t + 8 * i) 8 = List.replicate 8 0 := by
    generalize t + 8 * i = x at g
    simp only [Mem.bytes, Nat.add_assoc, Nat.reduceAdd, g 1 (by decide), g 2 (by decide), g 3 (by decide), g 4 (by decide),
      g 5 (by decide), g 6 (by decide), g 7 (by decide), show s.hbm.get x = 0 from g 0 (by decide)]
    rfl
  rw [readPhys, recallLine_none h, Mem.num, b]
  rfl
/-- One table of the tree of `treed`: its first entry alone points further down. -/
theorem treeUses_down {s : State} {f t u lv : Nat} (h : ∀ c ∈ s.cores, c.2.red = []) (k : t % 8 = 0) (o : overlap t (tableSize (lv + 1)) f 65536 = false)
    (m : ∀ c ∈ s.hbm, c.1 / 8 ≤ t / 8 ∨ t / 8 + tableSize (lv + 1) / 8 ≤ c.1 / 8) (e : (readPhys s t).testBit 1 = false)
    (p : leafAddr (readPhys s t) = u) (w : treeUses s 0 f u lv = false) : treeUses s 0 f t (lv + 1) = false := by
  simp only [treeUses, o, Bool.false_or, List.any_eq_false, List.mem_range]
  intro i hi
  by_cases z : i = 0
  · subst z
    simp [e, p, w]
  · have : readPhys s (t + 8 * i) = 0 := readPhys_zero h k fun c hc => by
      have := m c hc
      omega
    simp [this]
theorem frameFree_one : frameFree pages_SharedPages_1 0 (65536 * 0x23) = true := by
  have h : ∀ c ∈ pages_SharedPages_1.cores, c.2.red = [] := by decide +kernel
  have w0 : treeUses pages_SharedPages_1 0 (65536 * 0x23) 0x130000 0 = false := by decide +kernel
  have w1 : treeUses pages_SharedPages_1 0 (65536 * 0x23) 0x120000 1 = false :=
    treeUses_down h (by decide +kernel) (by decide +kernel) (by decide +kernel) (by decide +kernel) (by decide +kernel) w0
  have w2 : treeUses pages_SharedPages_1 0 (65536 * 0x23) 0x110000 2 = false :=
    treeUses_down h (by decide +kernel) (by decide +kernel) (by decide +kernel) (by decide +kernel) (by decide +kernel) w1
  have w3 : treeUses pages_SharedPages_1 0 (65536 * 0x23) 0x100000 3 = false :=
    treeUses_down h (by decide +kernel) (by decide +kernel) (by decide +kernel) (by decide +kernel) (by decide +kernel) w2
  have r : (pages_SharedPages_1.part 0).ptroot = 0x100000 := by decide +kernel
  have o : ownNear pages_SharedPages_1 0 (65536 * 0x23) = true := by decide +kernel
  have q : pageUses pages_SharedPages_1 (65536 * 0x23) = false := by decide +kernel
  have x : poolUses pages_SharedPages_1 0 (65536 * 0x23) = false := by decide +kernel
  have y : (pages_SharedPages_1.part 0).savebase = 0 := by decide +kernel
  simp only [frameFree, r, w3, o, q, x, y]
  rfl
/-- Witness of `Pages`: a page that is to come. -/
theorem witness_Pages_ComesHere :
    ∃(s : State) (p : Nat) (va : Nat) (e : Nat) (pa : Nat) (frame : Nat), sharedLeaf s p va = some (e, pa)
      ∧ s.mgmt.up = true
      ∧ PlainMemory s
      ∧ nearFrame s p va = some frame
      ∧ (s.page p va).moving = none
      ∧ (s.page p va).device = false
      ∧ heldOff s (s.page p va) true = false
      ∧ (s.page p va).waiting = true := by
  have d : 0x23 < nearLimit / 65536 := by decide +kernel
  have h : (nearFrame pages_SharedPages_1 0 0x50000).isSome = true := near_some d frameFree_one
  obtain ⟨f, hf⟩ := Option.isSome_iff_exists.1 h
  refine ⟨pages_SharedPages_1, 0, 0x50000, leafTo 0x210000 0xBF, 0x130028, f, ?_, ?_, ?_, hf, ?_, ?_, ?_, ?_⟩
  · decide +kernel
  · decide +kernel
  · constructor <;> decide +kernel
  · decide +kernel
  · decide +kernel
  · decide +kernel
  · decide +kernel
/-- Witness of `Pages`: a page that has come. -/
theorem witness_Pages_Moved :
    ∃(s : State) (p : Nat) (va : Nat) (e : Nat) (pa : Nat), sharedLeaf s p va = some (e, pa)
      ∧ s.mgmt.up = true
      ∧ PlainMemory s
      ∧ (s.page p va).moving = some true
      ∧ (s.page p va).parts.has 99 = true
      ∧ (∀ i < 16, (s.page p va).parts.has i = true) := by
  exact ⟨pages_SharedPages_2, 0, 0x50000, leafTo 0x210000 0xBF, 0x130028, by and_intros <;> first
        | exact (Option.some_get _).symm
        | decide +kernel
        | (constructor <;> decide +kernel)⟩
/-- Witness of `Pages`: a page that has gone. -/
theorem witness_Pages_GoesBack :
    ∃(s : State) (p : Nat) (va : Nat) (e : Nat) (pa : Nat), sharedLeaf s p va = some (e, pa)
      ∧ s.mgmt.up = true
      ∧ PlainMemory s
      ∧ (s.page p va).moving = some false
      ∧ (s.page p va).parts.has 99 = true := by
  exact ⟨pages_SharedPages_3, 0, 0x50000, leafTo 0x210000 0xBF, 0x130028, by and_intros <;> first
        | exact (Option.some_get _).symm
        | decide +kernel
        | (constructor <;> decide +kernel)⟩
/-- Every near frame lies in a block of one pool. -/
def fullS : State :=
  { treed base with pages := [(5, { device := false, waiting := true })], mgmt := { base.mgmt with up := true },
                    pools := [(0, { part := 0, size := 35, count := 1, base := 0, free := [] })] }
theorem frameFree_full (f : Nat) (h : f < nearLimit) : frameFree fullS 0 f = false := by
  have b : blockBase fullS { part := 0, size := 35, count := 1, base := 0, free := [] } 0 = 0 := by decide +kernel
  have c : blockBytes 35 = 256 * nearLimit := by decide +kernel
  have o : overlap 0 (blockBytes 35) f 65536 = true := by
    rw [c]
    generalize nearLimit = m at *
    simp only [overlap, Bool.and_eq_true, decide_eq_true_eq]
    omega
  have u : poolUses fullS 0 f = true :=
    List.any_eq_true.2 ⟨_, List.mem_singleton.2 rfl, Bool.and_eq_true_iff.2 ⟨rfl, List.any_eq_true.2 ⟨0, by decide, b.symm ▸ o⟩⟩⟩
  simp [frameFree, u]
/-- Witness of `Pages`: no near frame is free. -/
theorem witness_Pages_NoFrame :
    ∃ (s : State) (p va e pa : Nat), sharedLeaf s p va = some (e, pa) ∧ s.mgmt.up = true ∧ PlainMemory s ∧ nearFrame s p va = none
      ∧ (s.page p va).moving = none ∧ (s.page p va).device = false ∧ heldOff s (s.page p va) true = false ∧ (s.page p va).waiting = true := by
  refine ⟨fullS, 0, 0x50000, leafTo 0x210000 0xBF, 0x130028, by decide +kernel, by decide +kernel, by constructor <;> decide +kernel, ?_,
    by decide +kernel, by decide +kernel, by decide +kernel, by decide +kernel⟩
  rw [nearFrame, List.find?_eq_none]
  intro f hf
  by_cases hn : f < nearLimit
  · simp [frameFree_full f hn]
  · simp [frameFree, ownNear, isNear, hn]

/-- A helper of the witnesses. -/
def hm (part addr : Nat) (payload : List Byte) (tag : Nat := 0) (seq : Nat := 1) : HostMsg := { magic := 0x4F5A, ver := 1, part := part, stream := 3, seq := seq, ackn := 2, tag := tag, addr := addr, payload := payload }
/-- A helper of the witnesses. -/
def hS (m : HostMsg) (f : State → State := id) : State := f { treed base with mgmt := { base.mgmt with up := true }, hbm := Mem.putBytes (treed base).hbm 0x200000 ((List.range 64).map fun i => BitVec.ofNat 8 (i + 7)), cycle := 9 }
/-- A state of the witnesses. -/
def stepRunsHappening_Answers_0 : ℕ × HostMsg × State :=
  (6, hm 0 0 [], hS (hm 0 0 []) fun s => { s with agenda := [.host 6 (hm 0 0 [])] })
/-- Witnesses of `StepRunsHappening`. -/
theorem witness_StepRunsHappening_Answers :
    (∃ (s : State) (k : Nat) (m : HostMsg), s.agenda = [Turn.host k m]
      ∧ (k = 6 ∨ k = 12 ∨ 15 ≤ k ∨ k = 13 ∧ numAt m.payload 0 2 ∉ [1, 4, 5])
      ∧ Takes { s with agenda := [] } m
      ∧ NextOn (takeAck { s with agenda := [] } m) m) := by
  exact ⟨stepRunsHappening_Answers_0.2.2, stepRunsHappening_Answers_0.1, stepRunsHappening_Answers_0.2.1, by and_intros <;> first
        | decide +kernel
        | (constructor <;> decide +kernel)⟩

/-- Witnesses of `RegistersAndTokens` (part RegisterFile). -/
theorem witness_RegistersAndTokens_RegisterFile :
    (∃ (r : GReg) (q : GReg), q ≠ r)
    ∧ (∃ (t : Strand), t.intrap = true)
    ∧ (∃ (t : Strand), t.intrap = false)
    ∧ (∃ (r : GReg), r ≠ GReg.g 0) := by
  exact ⟨⟨.g 0, .g 3, by decide +kernel⟩,
    ⟨{intrap := true}, by decide +kernel⟩,
    ⟨{}, by decide +kernel⟩,
    ⟨.g 3, by decide +kernel⟩⟩

/-- Witnesses of `RegistersAndTokens` (part PendingTokenStalls). -/
theorem witness_RegistersAndTokens_PendingTokenStalls :
    (∃ (s : State) (d : GReg) (a : GReg) (b : GReg) (t : Fin 16), pendingTok s.cur [d, a, b] = some ↑t) := by
  exact ⟨st fun t => {t with pendTok := [3]}, .g 0, .g 0, .g 3, 3, by decide +kernel⟩

/-- A helper of the witnesses. -/
def words : List Word := [0, 1, 2, 63, 64, 0xFFFFFFFFFFFFFFFF, 0x8000000000000000, 0x123456789ABCDEF0, 0x7FC00000, 0x3F800000, 0x7F800001, 0x80000000, 0x050D, 0x800005342800, 0x8000005342800]
/-- A helper of the witnesses. -/
def sRegs (f : Strand → Strand := id) : List State :=
  (words.flatMap fun x => words.map fun y => st fun t => f (((t.write (.w 1) x).write (.w 2) y).write (.w 4) 0x55))
/-- Witnesses of `IntegerResults`. -/
theorem witness_IntegerResults :
    (∃ (s : State) (d : GReg) (a : GReg) (b : GReg), NoStall s [d, a, b]) := by
  exact ⟨(sRegs).getD 0 State.reset, .w 1, .w 1, .w 1, by unfold NoStall; decide +kernel⟩

/-- Witnesses of `IntegerResults` (part ImmediateResults). -/
theorem witness_IntegerResults_ImmediateResults :
    (∃ (s : State) (d : GReg) (a : GReg), NoStall s [d, a]
      ∧ NoStall s [d]) := by
  exact ⟨(sRegs).getD 0 State.reset, .w 1, .w 1, by and_intros <;> first
        | decide +kernel
        | unfold NoStall; decide +kernel⟩

/-- Witnesses of `IntegerResults` (part HighProductsAndExtremes). -/
theorem witness_IntegerResults_HighProductsAndExtremes :
    (∃ (s : State) (d : GReg) (a : GReg) (b : GReg), NoStall s [d, a, b]) := by
  exact ⟨(sRegs).getD 0 State.reset, .w 1, .w 1, .w 1, by unfold NoStall; decide +kernel⟩

/-- Witnesses of `IntegerResults` (part BitCounts). -/
theorem witness_IntegerResults_BitCounts :
    (∃ (s : State) (d : GReg) (a : GReg), NoStall s [d, a]) := by
  exact ⟨(sRegs).getD 0 State.reset, .w 1, .w 1, by unfold NoStall; decide +kernel⟩

/-- Witnesses of `CompareAndBranch`. -/
theorem witness_CompareAndBranch :
    (∃ (s : State) (c : Cond) (d : GReg) (a : GReg) (b : GReg) (i : BitVec 13), NoStall s [d, a, b]
      ∧ NoStall s [a, b]
      ∧ NoStall s [d, a]
      ∧ NoStall s [a]
      ∧ (holds c (s.cur.read a) (if c = Cond.ltn ∨ c = Cond.gen then BitVec.zeroExtend 64 i else BitVec.signExtend 64 i) = true)
      ∧ holds c (s.cur.read a) (s.cur.read b) = true)
    ∧ (∃ (s : State) (c : Cond) (d : GReg) (a : GReg) (b : GReg) (i : BitVec 13), NoStall s [d, a, b]
      ∧ NoStall s [a, b]
      ∧ NoStall s [d, a]
      ∧ NoStall s [a]
      ∧ (¬holds c (s.cur.read a) (if c = Cond.ltn ∨ c = Cond.gen then BitVec.zeroExtend 64 i else BitVec.signExtend 64 i) = true))
    ∧ (∃ (s : State) (c : Cond) (d : GReg) (a : GReg) (b : GReg), NoStall s [d, a, b]
      ∧ NoStall s [a, b]
      ∧ NoStall s [d, a]
      ∧ NoStall s [a]
      ∧ (¬holds c (s.cur.read a) (s.cur.read b) = true)) := by
  exact ⟨⟨(sRegs).getD 0 State.reset, .eq, .w 1, .w 1, .w 1, 0, by and_intros <;> first
        | decide +kernel
        | unfold NoStall; decide +kernel⟩,
    ⟨(sRegs).getD 0 State.reset, .eq, .w 1, .w 1, .w 1, 5, by and_intros <;> first
        | decide +kernel
        | unfold NoStall; decide +kernel⟩,
    ⟨(sRegs).getD 0 State.reset, .ne, .w 1, .w 1, .w 1, by and_intros <;> first
        | decide +kernel
        | unfold NoStall; decide +kernel⟩⟩

/-- Witnesses of `FieldsAndDigests` (part BitFields). -/
theorem witness_FieldsAndDigests_BitFields :
    (∃ (s : State) (d : GReg) (a : GReg) (b : GReg) (i : Nat), NoStall s [d, a, b]
      ∧ i < 64
      ∧ BitVec.getLsbD (s.cur.read b) i = true)
    ∧ (∃ (s : State) (d : GReg) (a : GReg) (b : GReg) (j : Nat), NoStall s [d, a, b]
      ∧ {j ∈ Finset.range 64 | BitVec.getLsbD (s.cur.read b) j = true}.card ≤ j) := by
  exact ⟨⟨((sRegs).drop 60 |>.take 60).getD 0 State.reset, .w 1, .w 1, .w 1, 6, by and_intros <;> first
        | decide +kernel
        | unfold NoStall; decide +kernel⟩,
    ⟨((sRegs).drop 60 |>.take 60).getD 0 State.reset, .w 1, .w 1, .w 1, (List.range 66).getD 1 default, by and_intros <;> first
        | decide +kernel
        | unfold NoStall; decide +kernel⟩⟩

/-- Witnesses of `FieldsAndDigests` (part CrcHamdMesh). -/
theorem witness_FieldsAndDigests_CrcHamdMesh :
    (∃ (s : State) (d : GReg) (a : GReg) (b : GReg), NoStall s [d, a, b]
      ∧ NoStall s (d :: groupRegs a ++ groupRegs b)
      ∧ ((if (BitVec.toNat (s.cur.read a) / 2 ^ 48 % 16 == 8) = true then BitVec.toNat (s.cur.read a) / 2 ^ 18 % 32 ≤ 23 else BitVec.toNat (s.cur.read a) < 65536 ∧ BitVec.toNat (s.cur.read a) % 256 ≤ 47 ∧ BitVec.toNat (s.cur.read a) / 256 ≤ 15) ∧ 0 ≤ ↑(if (BitVec.toNat (s.cur.read a) / 2 ^ 48 % 16 == 8) = true then 6 * (BitVec.toNat (s.cur.read a) / 2 ^ 23 % 32 % 8) + BitVec.toNat (s.cur.read a) / 2 ^ 18 % 32 % 6 else BitVec.toNat (s.cur.read a) % 256) + (BitVec.extractLsb' 0 8 (s.cur.read b)).toInt ∧ ↑(if (BitVec.toNat (s.cur.read a) / 2 ^ 48 % 16 == 8) = true then 6 * (BitVec.toNat (s.cur.read a) / 2 ^ 23 % 32 % 8) + BitVec.toNat (s.cur.read a) / 2 ^ 18 % 32 % 6 else BitVec.toNat (s.cur.read a) % 256) + (BitVec.extractLsb' 0 8 (s.cur.read b)).toInt ≤ 47 ∧ 0 ≤ ↑(if (BitVec.toNat (s.cur.read a) / 2 ^ 48 % 16 == 8) = true then 4 * (BitVec.toNat (s.cur.read a) / 2 ^ 23 % 32 / 8) + BitVec.toNat (s.cur.read a) / 2 ^ 18 % 32 / 6 else BitVec.toNat (s.cur.read a) / 256) + (BitVec.extractLsb' 8 8 (s.cur.read b)).toInt ∧ ↑(if (BitVec.toNat (s.cur.read a) / 2 ^ 48 % 16 == 8) = true then 4 * (BitVec.toNat (s.cur.read a) / 2 ^ 23 % 32 / 8) + BitVec.toNat (s.cur.read a) / 2 ^ 18 % 32 / 6 else BitVec.toNat (s.cur.read a) / 256) + (BitVec.extractLsb' 8 8 (s.cur.read b)).toInt ≤ 15))
    ∧ (∃ (s : State) (d : GReg) (a : GReg) (b : GReg), NoStall s [d, a, b]
      ∧ (¬((if (BitVec.toNat (s.cur.read a) / 2 ^ 48 % 16 == 8) = true then BitVec.toNat (s.cur.read a) / 2 ^ 18 % 32 ≤ 23 else BitVec.toNat (s.cur.read a) < 65536 ∧ BitVec.toNat (s.cur.read a) % 256 ≤ 47 ∧ BitVec.toNat (s.cur.read a) / 256 ≤ 15) ∧ 0 ≤ ↑(if (BitVec.toNat (s.cur.read a) / 2 ^ 48 % 16 == 8) = true then 6 * (BitVec.toNat (s.cur.read a) / 2 ^ 23 % 32 % 8) + BitVec.toNat (s.cur.read a) / 2 ^ 18 % 32 % 6 else BitVec.toNat (s.cur.read a) % 256) + (BitVec.extractLsb' 0 8 (s.cur.read b)).toInt ∧ ↑(if (BitVec.toNat (s.cur.read a) / 2 ^ 48 % 16 == 8) = true then 6 * (BitVec.toNat (s.cur.read a) / 2 ^ 23 % 32 % 8) + BitVec.toNat (s.cur.read a) / 2 ^ 18 % 32 % 6 else BitVec.toNat (s.cur.read a) % 256) + (BitVec.extractLsb' 0 8 (s.cur.read b)).toInt ≤ 47 ∧ 0 ≤ ↑(if (BitVec.toNat (s.cur.read a) / 2 ^ 48 % 16 == 8) = true then 4 * (BitVec.toNat (s.cur.read a) / 2 ^ 23 % 32 / 8) + BitVec.toNat (s.cur.read a) / 2 ^ 18 % 32 / 6 else BitVec.toNat (s.cur.read a) / 256) + (BitVec.extractLsb' 8 8 (s.cur.read b)).toInt ∧ ↑(if (BitVec.toNat (s.cur.read a) / 2 ^ 48 % 16 == 8) = true then 4 * (BitVec.toNat (s.cur.read a) / 2 ^ 23 % 32 / 8) + BitVec.toNat (s.cur.read a) / 2 ^ 18 % 32 / 6 else BitVec.toNat (s.cur.read a) / 256) + (BitVec.extractLsb' 8 8 (s.cur.read b)).toInt ≤ 15))) := by
  exact ⟨⟨(sRegs).getD 0 State.reset, .w 1, .w 1, .w 1, by and_intros <;> first
        | decide +kernel
        | unfold NoStall; decide +kernel⟩,
    ⟨(sRegs).getD 0 State.reset, .w 1, .w 1, .w 4, by and_intros <;> first
        | decide +kernel
        | unfold NoStall; decide +kernel⟩⟩

/-- Witnesses of `Division`. -/
theorem witness_Division :
    (∃ (s : State) (d : GReg) (a : GReg) (b : GReg), NoStall s [d, a, b]) := by
  exact ⟨(sRegs).getD 0 State.reset, .w 1, .w 1, .w 1, by unfold NoStall; decide +kernel⟩

/-- A state of the witnesses. -/
def division_ResultsArrive_0 : State :=
  st (fun t => { t with run := .stall .results, pend := [⟨3, 1, .ready {}, 0⟩], fstat := 4 })
/-- Witnesses of `Division` (part ResultsArrive). -/
theorem witness_Division_ResultsArrive :
    (∃ (s : State) (id : Nat) (k : Nat), List.find? (fun p => p.id == k) (s.strand id).pend = none)
    ∧ (∃ (s : State) (id : Nat) (k : Nat) (left : Nat) (va : Nat) (v : Deliver), List.find? (fun p => p.id == k) (s.strand id).pend = some { id := k, left := left, act := PendAct.ready v, va := va }) := by
  exact ⟨⟨division_ResultsArrive_0, 0, 0, by decide +kernel⟩,
    ⟨division_ResultsArrive_0, 0, 3, 1, 0, {}, by decide +kernel⟩⟩

/-- Witnesses of `ComparesAndConversions` (part MinMaxAndCompare). -/
theorem witness_ComparesAndConversions_MinMaxAndCompare :
    (∃ (s : State) (d : GReg) (a : GReg) (b : GReg), NoStall s [d, a, b]) := by
  exact ⟨((sRegs)).getD 0 State.reset, .w 1, .w 1, .w 1, by unfold NoStall; decide +kernel⟩

/-- A state of the witnesses. -/
def comparesAndConversions_Conversions_0 : State :=
  ((sRegs (fun t => {t with frmode := 2})).drop 50 |>.take 60).getD 0 State.reset
/-- Witnesses of `ComparesAndConversions` (part Conversions). -/
theorem witness_ComparesAndConversions_Conversions :
    (∃ (s : State) (d : GReg) (a : GReg) (t : BitVec 4) (u : BitVec 4) (f : Fmt) (n : Nat) (sg : Bool), NoStall s [d, a]
      ∧ fmtOf t.toNat = some f
      ∧ intType u.toNat = some (n, sg))
    ∧ (∃ (s : State) (d : GReg) (a : GReg) (t : BitVec 4) (u : BitVec 4) (n : Nat) (sg : Bool) (g : Fmt), NoStall s [d, a]
      ∧ intType t.toNat = some (n, sg)
      ∧ fmtOf u.toNat = some g)
    ∧ (∃ (s : State) (d : GReg) (a : GReg) (t : BitVec 4) (u : BitVec 4) (f : Fmt) (g : Fmt), NoStall s [d, a]
      ∧ fmtOf t.toNat = some f
      ∧ fmtOf u.toNat = some g)
    ∧ (∃ (s : State) (d : GReg) (a : GReg) (t : BitVec 4) (u : BitVec 4), NoStall s [d, a]
      ∧ (8 ≤ t.toNat ∨ 5 ≤ u.toNat)
      ∧ (5 ≤ t.toNat ∨ 5 ≤ u.toNat))
    ∧ (∃ (s : State) (d : GReg) (a : GReg) (t : BitVec 4) (u : BitVec 4), NoStall s [d, a]
      ∧ (5 ≤ t.toNat ∨ 8 ≤ u.toNat))
    ∧ (∃ (k : Nat) (f : Fmt) (x : Nat), fmtOf k = some f
      ∧ x < 2 ^ f.width
      ∧ (fpDecode f x).isNan = false) := by
  exact ⟨⟨comparesAndConversions_Conversions_0, .w 1, .w 1, 0, 0, fp32, 8, true, by and_intros <;> first
        | decide +kernel
        | unfold NoStall; decide +kernel⟩,
    ⟨comparesAndConversions_Conversions_0, .w 1, .w 1, 0, 0, 8, true, fp32, by and_intros <;> first
        | decide +kernel
        | unfold NoStall; decide +kernel⟩,
    ⟨comparesAndConversions_Conversions_0, .w 1, .w 1, 0, 0, fp32, fp32, by and_intros <;> first
        | decide +kernel
        | unfold NoStall; decide +kernel⟩,
    ⟨comparesAndConversions_Conversions_0, .w 1, .w 1, 0, 5, by and_intros <;> first
        | decide +kernel
        | unfold NoStall; decide +kernel⟩,
    ⟨comparesAndConversions_Conversions_0, .w 1, .w 1, 0, 8, by and_intros <;> first
        | decide +kernel
        | unfold NoStall; decide +kernel⟩,
    ⟨0, fp32, 0, by decide +kernel⟩⟩

/-- A helper of the witnesses. -/
def ctlStates : List State :=
  let w : Nat → Vector Word 16 := fun n => (Vector.replicate 16 (BitVec.ofNat 64 (0x1000 * n))).set 15 (BitVec.ofNat 64 (0x2000 + n * 4))
  let wins (k : Nat) : List (Vector Word 16) := (List.range k).map w
  [base, st (fun t => {t with intrap := true, priv := true, epc := 0x2000, skip := true, ecause := 5}),
   st (fun t => {t with intrap := true, priv := true, epc := 0x2002, skip := true}),
   st (fun t => {t with priv := true, intrap := false, epc := 0x2002, sscratch0 := 9, stimer := 77, pendTok := [3, 5]}),
   st (fun t => {t with priv := true, frame := some ⟨1,2,3,4,5,6,[7]⟩, trapFrame := some ⟨0,0,0,0,0,0,[]⟩}),
   st (fun t => {t with windows := wins 8, depth := 8}), st (fun t => {t with windows := wins 7, depth := 23}),
   st (fun t => {t with windows := wins 7, depth := 7}),
   st (fun t => {t with windows := wins 3, depth := 24}), st (fun t => {t with windows := wins 1, depth := 4}),
   st (fun t => {t with windows := wins 2, depth := 2, run := .stall (.windows 5)}), st (fun t => {t with windows := wins 1, depth := 1, run := .ready}),
   st (fun t => {t with windows := [(w 1).set 15 0x2001, w 2], depth := 2}),
   st (fun t => {t with windows := wins 1, depth := 3, run := .stall (.windows 5)}),
   st (fun t => t.write (.w 1) 0x2001), st (fun t => {(t.write (.w 1) 0xABC0000000002004) with pend := [⟨0, 1, .awaiting (.w 3), 0⟩]}),
   st (fun t => {t with pend := [⟨0, 1, .ready {}, 0⟩]}),
   { st (fun t => {t with region := some 3}) with regions := [(3, {st := .live, stamp := 5, holder := 0})] },
   { st (fun t => {t with region := some 3, priv := true}) with regions := [(3, {st := .waiting, stamp := 5, holder := 0})] },
   st (fun t => {t with tvec := 0x4000, reports := [⟨3, 4, 0x1234, 9, 6⟩], timerDue := true, preemptDue := true}),
   st (fun t => {t with tvec := 0x4000, timerDue := true, preemptDue := true}), st (fun t => {t with tvec := 0x4000, preemptDue := true}),
   st (fun t => {t with stimer := 1}), st (fun t => {t with stimer := 1, halted := true}), st (fun t => {t with stimer := 2, intrap := true}),
   st (fun t => {t with killDue := true}), st (fun t => {t with killDue := true, halted := true}),
   st (fun t => {t with priv := true, tokLatch := true}), st (fun t => {t with priv := true, mailbox := [⟨0, 1, [1,2,3,4]⟩]}),
   { st (fun t => {t with windows := wins 8, depth := 9, run := .stall (.windows 0)}) with cycle := 20 },
   { st (fun t => {t with windows := wins 8, depth := 9, run := .stall (.windows 0), winMove := some ⟨true, 3, List.replicate (if true then 0 else 32 * (4 - 3)) 7⟩}) with cycle := 20 },
   { st (fun t => {t with windows := wins 7, depth := 9, run := .stall (.windows 0), winMove := some ⟨true, 1, List.replicate (if true then 0 else 32 * (4 - 1)) 7⟩}) with cycle := 20 },
   { st (fun t => {t with windows := wins 7, depth := 22, run := .wait (.fwait 3) none, winMove := some ⟨true, 1, List.replicate (if true then 0 else 32 * (4 - 1)) 7⟩}) with cycle := 20 },
   { st (fun t => {t with windows := wins 1, depth := 9, run := .stall (.windows 0)}) with cycle := 20 },
   { st (fun t => {t with windows := wins 1, depth := 3, run := .stall (.windows 0), winMove := some ⟨false, 1, List.replicate (if false then 0 else 32 * (4 - 1)) 7⟩}) with
       cycle := 20, spad := Mem.put [] (spillBase 0 + 256) 5 },
   { st (fun t => {t with windows := wins 1, depth := 2, run := .wait (.fwait 3) none, winMove := some ⟨false, 2, List.replicate (if false then 0 else 32 * (4 - 2)) 7⟩}) with cycle := 20 },
   { st (fun t => {t with windows := wins 1, depth := 2, run := .wait (.fwait 3) none, winMove := some ⟨false, 2, List.replicate (if false then 0 else 32 * (4 - 2)) 7⟩, halted := true}) with cycle := 20 },
   st (fun t => (t.write (.w 1) 0xF000200000000).write (.w 2) 0x0008000000001008), st (fun t => (t.write (.w 1) 0xF000200000000).write (.w 2) 0x000F000000001008)]
/-- Witnesses of `TrapsAndReturns` (part TrapEntry). -/
theorem witness_TrapsAndReturns_TrapEntry :
    (∃ (s : State), Quiet s) := by
  exact ⟨(ctlStates).getD 0 State.reset, by constructor <;> decide +kernel⟩

/-- Witnesses of `TrapsAndReturns` (part TrapEntryCases). -/
theorem witness_TrapsAndReturns_TrapEntryCases :
    (∃ (s : State) (r : Nat), s.cur.intrap = false
      ∧ answersAway s.cur = false
      ∧ s.cur.pend = []
      ∧ s.cur.region = some r
      ∧ ((s.region r).st = RegSt.live ∨ (s.region r).st = RegSt.waiting)
      ∧ (∀ x ∈ s.regions, r ∉ x.2.preds))
    ∧ (∃ (s : State), s.cur.intrap = true)
    ∧ (∃ (s : State), s.cur.intrap = false
      ∧ answersAway s.cur = true) := by
  exact ⟨⟨(ctlStates).getD 17 State.reset, Option.get (((ctlStates).getD 17 State.reset).cur.region) (by decide +kernel), by decide +kernel⟩,
    ⟨(ctlStates).getD 1 State.reset, by decide +kernel⟩,
    ⟨(ctlStates).getD 15 State.reset, by decide +kernel⟩⟩

/-- Witnesses of `TrapsAndReturns` (part ReturnFromTrap). -/
theorem witness_TrapsAndReturns_ReturnFromTrap :
    (∃ (s : State), s.cur.priv = true
      ∧ BitVec.toNat (s.cur.epc + if s.cur.skip = true then 4 else 0) % 4 ≠ 0
      ∧ s.cur.intrap = true)
    ∧ (∃ (s : State), s.cur.priv = true
      ∧ BitVec.toNat (s.cur.epc + if s.cur.skip = true then 4 else 0) % 4 = 0) := by
  exact ⟨⟨(ctlStates).getD 2 State.reset, by decide +kernel⟩,
    ⟨(ctlStates).getD 1 State.reset, by decide +kernel⟩⟩

/-- Witnesses of `AsynchronousTrapsAndPrivilege` (part AsynchronousTraps). -/
theorem witness_AsynchronousTrapsAndPrivilege_AsynchronousTraps :
    (∃ (s : State) (id : Nat) (r : _) (rest : _), asyncDue (s.strand id) = true
      ∧ (s.strand id).pend = []
      ∧ (s.strand id).region = none
      ∧ (s.strand id).reports = r :: rest)
    ∧ (∃ (s : State) (id : Nat), ((s.strand id).stimer ≠ 1 ∨ (s.strand id).intrap = true ∨ (s.strand id).halted = true)
      ∧ asyncDue (s.strand id) = false)
    ∧ (∃ (s : State) (id : Nat), (s.strand id).stimer = 1
      ∧ (s.strand id).intrap = false
      ∧ (s.strand id).halted = false)
    ∧ (∃ (s : State) (id : Nat), asyncDue (s.strand id) = true
      ∧ (s.strand id).pend = []
      ∧ (s.strand id).region = none
      ∧ (s.strand id).reports = []
      ∧ (s.strand id).timerDue = true)
    ∧ (∃ (s : State) (id : Nat), asyncDue (s.strand id) = true
      ∧ (s.strand id).pend = []
      ∧ (s.strand id).region = none
      ∧ (s.strand id).reports = []
      ∧ (s.strand id).timerDue = false) := by
  exact ⟨⟨(ctlStates).getD 19 State.reset, 0, ((((ctlStates).getD 19 State.reset).strand (0)).reports).head (by decide +kernel), ((((ctlStates).getD 19 State.reset).strand (0)).reports).tail, by decide +kernel⟩,
    ⟨(ctlStates).getD 0 State.reset, 0, by decide +kernel⟩,
    ⟨(ctlStates).getD 22 State.reset, 0, by decide +kernel⟩,
    ⟨(ctlStates).getD 20 State.reset, 0, by decide +kernel⟩,
    ⟨(ctlStates).getD 21 State.reset, 0, by decide +kernel⟩⟩

/-- Witnesses of `AsynchronousTrapsAndPrivilege` (part UserPrivilege). -/
theorem witness_AsynchronousTrapsAndPrivilege_UserPrivilege :
    (∃ (s : State) (d : GReg) (b : GReg) (off : BitVec 12), Quiet s
      ∧ s.cur.priv = false
      ∧ NoStall s [d]
      ∧ NoStall s [d, b]
      ∧ vaOf (s.cur.read b + BitVec.signExtend 64 off * 8) % 8 = 0)
    ∧ (∃ (s : State) (d : GReg) (n : BitVec 16), Quiet s
      ∧ s.cur.priv = false
      ∧ NoStall s [d]
      ∧ 256 ≤ n.toNat)
    ∧ (∃ (s : State) (d : GReg) (b : GReg) (off : BitVec 12), Quiet s
      ∧ s.cur.priv = false
      ∧ NoStall s [d, b]
      ∧ vaOf (s.cur.read b + BitVec.signExtend 64 off * 8) % 8 = 0
      ∧ window (vaOf (s.cur.read b + BitVec.signExtend 64 off * 8)) = 15) := by
  exact ⟨⟨(ctlStates).getD 0 State.reset, .w 1, .w 1, 0, by and_intros <;> first
        | decide +kernel
        | (constructor <;> decide +kernel)
        | unfold NoStall; decide +kernel⟩,
    ⟨(ctlStates).getD 0 State.reset, .w 1, 0xFFFF, by and_intros <;> first
        | decide +kernel
        | (constructor <;> decide +kernel)
        | unfold NoStall; decide +kernel⟩,
    ⟨(ctlStates).getD 0 State.reset, .w 1, .w 1, 0xFFF, by and_intros <;> first
        | decide +kernel
        | (constructor <;> decide +kernel)
        | unfold NoStall; decide +kernel⟩⟩

/-- Witnesses of `JumpsAndWindows`. -/
theorem witness_JumpsAndWindows :
    (∃ (s : State) (a : GReg), NoStall s [a]
      ∧ Quiet s
      ∧ 24 ≤ s.cur.depth
      ∧ BitVec.toNat (s.cur.read a) % 4 = 0)
    ∧ (∃ (s : State) (a : GReg), NoStall s [a]
      ∧ Quiet s
      ∧ BitVec.toNat (s.cur.read a) % 4 = 0
      ∧ s.cur.depth < 24
      ∧ s.cur.depth ≤ 1
      ∧ s.cur.windows.length < 8)
    ∧ (∃ (s : State) (a : GReg), NoStall s [a]
      ∧ Quiet s
      ∧ 1 < s.cur.depth
      ∧ BitVec.toNat (s.cur.read (GReg.w 15)) % 4 = 0
      ∧ s.cur.depth < 24
      ∧ 8 ≤ s.cur.windows.length
      ∧ 2 ≤ s.cur.windows.length
      ∧ BitVec.toNat (s.cur.read a) % 4 = 0)
    ∧ (∃ (s : State) (a : GReg), NoStall s [a]
      ∧ Quiet s
      ∧ BitVec.toNat (s.cur.read a) % 4 ≠ 0)
    ∧ (∃ (s : State) (a : GReg), NoStall s [a]
      ∧ Quiet s
      ∧ 1 < s.cur.depth
      ∧ BitVec.toNat (s.cur.read (GReg.w 15)) % 4 ≠ 0)
    ∧ (∃ (s : State) (a : GReg), NoStall s [a]
      ∧ Quiet s
      ∧ 1 < s.cur.depth
      ∧ BitVec.toNat (s.cur.read (GReg.w 15)) % 4 = 0
      ∧ s.cur.windows.length < 2) := by
  exact ⟨⟨(ctlStates).getD 8 State.reset, .w 1, by and_intros <;> first
        | decide +kernel
        | unfold NoStall; decide +kernel
        | (constructor <;> decide +kernel)⟩,
    ⟨(ctlStates).getD 0 State.reset, .w 1, by and_intros <;> first
        | decide +kernel
        | unfold NoStall; decide +kernel
        | (constructor <;> decide +kernel)⟩,
    ⟨(ctlStates).getD 5 State.reset, .w 1, by and_intros <;> first
        | decide +kernel
        | unfold NoStall; decide +kernel
        | (constructor <;> decide +kernel)⟩,
    ⟨(ctlStates).getD 14 State.reset, .w 1, by and_intros <;> first
        | decide +kernel
        | unfold NoStall; decide +kernel
        | (constructor <;> decide +kernel)⟩,
    ⟨(ctlStates).getD 12 State.reset, .w 1, by and_intros <;> first
        | decide +kernel
        | unfold NoStall; decide +kernel
        | (constructor <;> decide +kernel)⟩,
    ⟨(ctlStates).getD 9 State.reset, .w 1, by and_intros <;> first
        | decide +kernel
        | unfold NoStall; decide +kernel
        | (constructor <;> decide +kernel)⟩⟩

/-- Witnesses of `JumpsAndWindows` (part CallsInAHandler). -/
theorem witness_JumpsAndWindows_CallsInAHandler :
    (∃ (s : State) (a : GReg), NoStall s [a]
      ∧ s.cur.intrap = true) := by
  exact ⟨(ctlStates).getD 1 State.reset, .w 1, by and_intros <;> first
        | decide +kernel
        | unfold NoStall; decide +kernel⟩

/-- Witnesses of `ControlRegisters` (part ControlRegisterReads). -/
theorem witness_ControlRegisters_ControlRegisterReads :
    (∃ (s : State) (d : GReg) (f : Frame), NoStall s [d]
      ∧ s.cur.priv = true
      ∧ s.cur.frame = some f)
    ∧ (∃ (s : State) (d : GReg), NoStall s [d]
      ∧ s.cur.priv = true
      ∧ s.cur.frame = none)
    ∧ (∃ (s : State) (d : GReg) (n : BitVec 16), NoStall s [d]
      ∧ s.cur.priv = true
      ∧ 271 ≤ n.toNat)
    ∧ (∃ (s : State) (d : GReg) (n : BitVec 16), NoStall s [d]
      ∧ 7 ≤ n.toNat
      ∧ n.toNat ≤ 255) := by
  exact ⟨⟨(ctlStates).getD 4 State.reset, .w 1, Option.get (((ctlStates).getD 4 State.reset).cur.frame) (by decide +kernel), by and_intros <;> first
        | decide +kernel
        | unfold NoStall; decide +kernel⟩,
    ⟨(ctlStates).getD 1 State.reset, .w 1, by and_intros <;> first
        | decide +kernel
        | unfold NoStall; decide +kernel⟩,
    ⟨(ctlStates).getD 1 State.reset, .w 1, 0xFFFF, by and_intros <;> first
        | decide +kernel
        | unfold NoStall; decide +kernel⟩,
    ⟨(ctlStates).getD 0 State.reset, .w 1, 0x0080, by and_intros <;> first
        | decide +kernel
        | unfold NoStall; decide +kernel⟩⟩

/-- Witnesses of `ControlRegisters` (part ControlRegisterWrites). -/
theorem witness_ControlRegisters_ControlRegisterWrites :
    (∃ (s : State) (a : GReg) (n : BitVec 16), NoStall s [a]
      ∧ s.cur.priv = true
      ∧ 271 ≤ n.toNat)
    ∧ (∃ (s : State) (a : GReg) (n : BitVec 16), NoStall s [a]
      ∧ 7 ≤ n.toNat
      ∧ n.toNat ≤ 255) := by
  exact ⟨⟨(ctlStates).getD 1 State.reset, .w 1, 0xFFFF, by and_intros <;> first
        | decide +kernel
        | unfold NoStall; decide +kernel⟩,
    ⟨(ctlStates).getD 0 State.reset, .w 1, 0x0080, by and_intros <;> first
        | decide +kernel
        | unfold NoStall; decide +kernel⟩⟩

/-- Witnesses of `FramesYieldsEnds`. -/
theorem witness_FramesYieldsEnds :
    (∃ (s : State) (id : Nat), (s.strand id).killDue = true
      ∧ (s.strand id).halted = false
      ∧ (s.strand id).run ≠ Run.free
      ∧ (s.strand id).run ≠ Run.bound)
    ∧ (∃ (s : State), s.cur.priv = true
      ∧ s.cur.region = none
      ∧ (!s.cur.mailbox.isEmpty || s.cur.tokLatch || !s.cur.reports.isEmpty || s.cur.timerDue || s.cur.preemptDue) = false
      ∧ s.cur.intrap = true)
    ∧ (∃ (s : State), s.cur.priv = true
      ∧ s.cur.region = none
      ∧ (!s.cur.mailbox.isEmpty || s.cur.tokLatch || !s.cur.reports.isEmpty || s.cur.timerDue || s.cur.preemptDue) = true)
    ∧ (∃ (s : State), s.cur.intrap = false) := by
  exact ⟨⟨(ctlStates).getD 25 State.reset, 0, by decide +kernel⟩,
    ⟨(ctlStates).getD 1 State.reset, by decide +kernel⟩,
    ⟨(ctlStates).getD 27 State.reset, by decide +kernel⟩,
    ⟨(ctlStates).getD 0 State.reset, by decide +kernel⟩⟩

/-- Witnesses of `AccessChecks` (part MisalignedAccessTraps). -/
theorem witness_AccessChecks_MisalignedAccessTraps :
    (∃ (s : State) (d : GReg) (a : GReg) (b : GReg) (wd : AWidth) (rk : RedKind) (rt : RedType), Quiet s
      ∧ NoStall s [d, b]
      ∧ NoStall s (b :: groupRegs d)
      ∧ NoStall s [d, a, b]
      ∧ NoStall s (a :: pairRegs d ++ pairRegs b)
      ∧ NoStall s [a, b]
      ∧ vaOf (s.cur.read a) % AWidth.bytes wd ≠ 0
      ∧ (¬(rt = RedType.f32 ∧ rk ≠ RedKind.add))
      ∧ vaOf (s.cur.read a) % redSize rt ≠ 0
      ∧ vaOf (s.cur.read a) % 16 ≠ 0)
    ∧ (∃ (s : State) (d : GReg) (a : GReg) (b : GReg) (off : BitVec 12) (sz : StSize), Quiet s
      ∧ NoStall s [d, b]
      ∧ NoStall s (b :: groupRegs d)
      ∧ NoStall s [d, a, b]
      ∧ NoStall s (a :: pairRegs d ++ pairRegs b)
      ∧ NoStall s [a, b]
      ∧ memAddr s.cur b off (StSize.bytes sz) % StSize.bytes sz ≠ 0
      ∧ memAddr s.cur b off 32 % 32 ≠ 0)
    ∧ (∃ (s : State) (d : GReg) (a : GReg) (b : GReg) (off : BitVec 12) (ty : LdType), Quiet s
      ∧ NoStall s [d, b]
      ∧ NoStall s (b :: groupRegs d)
      ∧ NoStall s [d, a, b]
      ∧ NoStall s (a :: pairRegs d ++ pairRegs b)
      ∧ NoStall s [a, b]
      ∧ memAddr s.cur b off (LdType.size ty) % LdType.size ty ≠ 0)
    ∧ (∃ (s : State) (d : GReg) (a : GReg) (b : GReg) (rk : RedKind) (rt : RedType), Quiet s
      ∧ NoStall s [d, b]
      ∧ NoStall s (b :: groupRegs d)
      ∧ NoStall s [d, a, b]
      ∧ NoStall s (a :: pairRegs d ++ pairRegs b)
      ∧ NoStall s [a, b]
      ∧ rt = RedType.f32
      ∧ rk ≠ RedKind.add) := by
  exact ⟨⟨st (r4 0x2000 0x2010 0x55 0x2000) pg, .w 1, .w 4, .w 1, .w32, .add, .n32, by and_intros <;> first
        | decide +kernel
        | (constructor <;> decide +kernel)
        | unfold NoStall; decide +kernel⟩,
    ⟨st (r4 0x2000 0x2010 0x55 0x2000) pg, .w 1, .w 1, .w 4, 0, .b8, by and_intros <;> first
        | decide +kernel
        | (constructor <;> decide +kernel)
        | unfold NoStall; decide +kernel⟩,
    ⟨st (r4 0x2000 0x2010 0x55 0x2000) pg, .w 1, .w 1, .w 4, 0, .i32, by and_intros <;> first
        | decide +kernel
        | (constructor <;> decide +kernel)
        | unfold NoStall; decide +kernel⟩,
    ⟨st (r4 0x2000 0x2010 0x55 0x2000) pg, .w 1, .w 1, .w 1, .max, .f32, by and_intros <;> first
        | decide +kernel
        | (constructor <;> decide +kernel)
        | unfold NoStall; decide +kernel⟩⟩

/-- A state of the witnesses. -/
def accessChecks_PagedAccessChecks_0 : State :=
  (st (r4 0x2000 0x2010 0x55 0x2000) pg).setCore 0 { tlb := [{ openEntry 0 0x1000 with word := 3 }] }
/-- A state of the witnesses. -/
def accessChecks_PagedAccessChecks_1 : State :=
  (st (r4 0x2000 0x2010 0x55 0x2000) pg).setCluster 0 { locks := [⟨3,true,0x2000,0x2020⟩] }
/-- A state of the witnesses. -/
def accessChecks_PagedAccessChecks_2 : State :=
  { st (r4 0x2000 0x2010 0x55 0x2000) pg with poison := [0x2000/32] }
/-- A state of the witnesses. -/
def accessChecks_PagedAccessChecks_3 : State :=
  { st (r4 0x2000 0x2010 0x55 0x2000) pg with exports := [(0, 2^63 + 2^52), (1, 1), (2, 0)], vbufs := [(0,{ isSealed := true, everSealed := true })] }
/-- Witnesses of `AccessChecks` (part PagedAccessChecks). -/
theorem witness_AccessChecks_PagedAccessChecks :
    (∃ (s : State) (s' : State) (va : Nat) (n : Nat) (k : AKind) (e : Entry) (pa : Nat), window va < 8
      ∧ coreLook s va = (s', some e)
      ∧ e.until_ = none
      ∧ (leafCmp e.word = false ∨ e.surface.isSome = true)
      ∧ grants e.word ((match k with | AKind.load => permR | AKind.atom => permR + permW | x => permW) + if s'.cur.priv = true then 0 else permU) = true
      ∧ entryPa s' e va = some pa
      ∧ lockHit s' s'.curCluster va n (k != AKind.load) = false
      ∧ (k != AKind.load && (Option.map (fun x => (s'.vbuf x).isSealed) (vbufAt s' s'.curPart va)).getD false) = false
      ∧ ((k == AKind.load || k == AKind.atom) && readsPoison s' va n (Loc.mem pa)) = false)
    ∧ (∃ (s : State) (s' : State) (va : Nat) (k : AKind) (e : Entry), window va < 8
      ∧ coreLook s va = (s', some e)
      ∧ e.until_ = none
      ∧ (leafCmp e.word = false ∨ e.surface.isSome = true)
      ∧ grants e.word ((match k with | AKind.load => permR | AKind.atom => permR + permW | x => permW) + if s'.cur.priv = true then 0 else permU) = false)
    ∧ (∃ (s : State) (s' : State) (va : Nat) (n : Nat) (k : AKind) (e : Entry) (pa : Nat), window va < 8
      ∧ coreLook s va = (s', some e)
      ∧ e.until_ = none
      ∧ (leafCmp e.word = false ∨ e.surface.isSome = true)
      ∧ grants e.word ((match k with | AKind.load => permR | AKind.atom => permR + permW | x => permW) + if s'.cur.priv = true then 0 else permU) = true
      ∧ entryPa s' e va = some pa
      ∧ lockHit s' s'.curCluster va n (k != AKind.load) = true)
    ∧ (∃ (s : State) (s' : State) (va : Nat) (n : Nat) (k : AKind) (e : Entry) (pa : Nat), window va < 8
      ∧ coreLook s va = (s', some e)
      ∧ e.until_ = none
      ∧ (leafCmp e.word = false ∨ e.surface.isSome = true)
      ∧ grants e.word ((match k with | AKind.load => permR | AKind.atom => permR + permW | x => permW) + if s'.cur.priv = true then 0 else permU) = true
      ∧ entryPa s' e va = some pa
      ∧ lockHit s' s'.curCluster va n (k != AKind.load) = false
      ∧ (k != AKind.load && (Option.map (fun x => (s'.vbuf x).isSealed) (vbufAt s' s'.curPart va)).getD false) = false
      ∧ ((k == AKind.load || k == AKind.atom) && readsPoison s' va n (Loc.mem pa)) = true)
    ∧ (∃ (s : State) (s' : State) (va : Nat) (n : Nat) (k : AKind) (e : Entry) (pa : Nat), window va < 8
      ∧ coreLook s va = (s', some e)
      ∧ e.until_ = none
      ∧ (leafCmp e.word = false ∨ e.surface.isSome = true)
      ∧ grants e.word ((match k with | AKind.load => permR | AKind.atom => permR + permW | x => permW) + if s'.cur.priv = true then 0 else permU) = true
      ∧ entryPa s' e va = some pa
      ∧ lockHit s' s'.curCluster va n (k != AKind.load) = false
      ∧ (k != AKind.load && (Option.map (fun x => (s'.vbuf x).isSealed) (vbufAt s' s'.curPart va)).getD false) = true)
    ∧ (∃ (s : State) (s' : State) (va : Nat), window va < 8
      ∧ coreLook s va = (s', none)
      ∧ s'.cur.fillNone ≠ some (va / 65536)) := by
  exact ⟨⟨st (r4 0x2000 0x2010 0x55 0x2000) pg, st (r4 0x2000 0x2010 0x55 0x2000) pg, 0x2000, 0x2000, .load, openEntry 0 0x1000, 0x2000, by decide +kernel⟩,
    ⟨accessChecks_PagedAccessChecks_0, accessChecks_PagedAccessChecks_0, 0x2000, .load, { openEntry 0 0x1000 with word := 3 }, by decide +kernel⟩,
    ⟨accessChecks_PagedAccessChecks_1, accessChecks_PagedAccessChecks_1, 0x2000, 0x2000, .load, openEntry 0 0x1000, 0x2000, by decide +kernel⟩,
    ⟨accessChecks_PagedAccessChecks_2, accessChecks_PagedAccessChecks_2, 0x2000, 0x2000, .load, openEntry 0 0x1000, 0x2000, by decide +kernel⟩,
    ⟨accessChecks_PagedAccessChecks_3, accessChecks_PagedAccessChecks_3, 0x2000, 0x2000, .store, openEntry 0 0x1000, 0x2000, by decide +kernel⟩,
    ⟨base, base, 0x2000, by decide +kernel⟩⟩

/-- A helper of the witnesses. -/
def memStates : List State :=
  [st (r4 0x2000 0x2010 0x55 0x2000) pg, st (r4 (P + 0x100) (P+0x108) (P+0x110) (P+0x100)) pg,
   st (r4 0xFFFFFFFF 0x2004 0x2020 0x2004) pg, st (r4 0x12345 0xFFEEDDCC 0x2001 0x2001) pg,
   st (r4 0x30000 0x30000 0x30000 0x30000) pg,
   (st (r4 0x2000 0x2010 0x55 0x2000) pg).setCore 0 { tlb := [{ openEntry 0 0x1000 with until_ := some 100 }] },
   (st (r4 0x2000 0x2010 0x55 0x2000) pg).setCore 0 { tlb := [openEntry 0 0x1000], stores := [⟨3, 0x2000, .mem 0x2000, [1,2,3,4], []⟩, ⟨4, 0x2002, .mem 0x2002, [9,9,9,9], []⟩, ⟨4, P.toNat, .spad 0x100, [9,9,9,9], []⟩] },
   st (fun t => { r4 0x2000 0x2010 0x55 0x2000 t with puts := [⟨1, 0x2000⟩] }) pg,
   st (fun t => { r4 0x2000 0x2010 0x55 0x2000 t with lostPut := some 0x2000 }) pg,
   st (fun t => { r4 0x2000 0x2010 0x55 0x2000 t with run := .stall .results, pend := [⟨3, 1, .load .i16 (.w 1) (.mem 0x2001), 0x2001⟩, ⟨4, 1, .loadV (.w 4) (.spad 0x100), 0⟩] }) pg]
/-- Witnesses of `Loads`. -/
theorem witness_Loads :
    (∃ (s : State) (d : GReg) (b : GReg) (loc : Loc) (id : Nat) (k : Nat) (left : Nat) (va : Nat), NoStall s [b]
      ∧ NoStall s [d, b]
      ∧ NoStall s (b :: groupRegs d)
      ∧ s.cur.region = none
      ∧ loc.isAway = false
      ∧ PlainMemory s
      ∧ List.find? (fun p => p.id == k) (s.strand id).pend = some { id := k, left := left, act := PendAct.loadV d loc, va := va }
      ∧ onTheMove s loc = false)
    ∧ (∃ (s : State) (ty : LdType) (d : GReg) (b : GReg) (loc : Loc) (id : Nat) (k : Nat) (left : Nat) (va : Nat), NoStall s [b]
      ∧ NoStall s [d, b]
      ∧ NoStall s (b :: groupRegs d)
      ∧ s.cur.region = none
      ∧ loc.isAway = false
      ∧ PlainMemory s
      ∧ List.find? (fun p => p.id == k) (s.strand id).pend = some { id := k, left := left, act := PendAct.load ty d loc, va := va }
      ∧ onTheMove s loc = false)
    ∧ (∃ (s : State) (s' : State) (ty : LdType) (d : GReg) (b : GReg) (off : BitVec 12) (loc : Loc), NoStall s [b]
      ∧ NoStall s [d, b]
      ∧ NoStall s (b :: groupRegs d)
      ∧ s.cur.region = none
      ∧ loc.isAway = false
      ∧ PlainMemory s
      ∧ Checked s s' (memAddr s.cur b off 32) 32 AKind.load loc
      ∧ Checked s s' (memAddr s.cur b off (LdType.size ty)) (LdType.size ty) AKind.load loc) := by
  exact ⟨⟨(memStates.getD 9 State.reset), .w 4, .w 1, .spad 0x100, 0, 4, 1, 0, by and_intros <;> first
        | decide +kernel
        | unfold NoStall; decide +kernel
        | (constructor <;> decide +kernel)⟩,
    ⟨(memStates.getD 9 State.reset), .i16, .w 1, .w 1, .mem 0x2001, 0, 3, 1, 0x2001, by and_intros <;> first
        | decide +kernel
        | unfold NoStall; decide +kernel
        | (constructor <;> decide +kernel)⟩,
    ⟨st (r4 0x2000 0x2010 0x55 0x2000) pg, st (r4 0x2000 0x2010 0x55 0x2000) pg, .i16, .w 1, .w 1, 0, .mem 0x2000, by and_intros <;> first
        | decide +kernel
        | unfold NoStall; decide +kernel
        | (constructor <;> decide +kernel)
        | (constructor <;> first | decide +kernel | exact goes_eq (by decide +kernel))⟩⟩

/-- Witnesses of `Stores`. -/
theorem witness_Stores :
    (∃ (s : State) (s' : State) (sz : StSize) (d : GReg) (b : GReg) (off : BitVec 12) (loc : Loc) (h : Nat), NoStall s [d, b]
      ∧ NoStall s (b :: groupRegs d)
      ∧ s.cur.region = none
      ∧ loc = Loc.host h
      ∧ h = memAddr s.cur b off 32
      ∧ s.cur.pend = []
      ∧ Checked s s' (memAddr s.cur b off 32) 32 AKind.store loc
      ∧ h = memAddr s.cur b off (StSize.bytes sz)
      ∧ Checked s s' (memAddr s.cur b off (StSize.bytes sz)) (StSize.bytes sz) AKind.store loc)
    ∧ (∃ (s : State) (s' : State) (sz : StSize) (d : GReg) (b : GReg) (off : BitVec 12) (loc : Loc), NoStall s [d, b]
      ∧ NoStall s (b :: groupRegs d)
      ∧ s.cur.region = none
      ∧ (∀ (h : Nat), loc ≠ Loc.host h)
      ∧ Checked s s' (memAddr s.cur b off (StSize.bytes sz)) (StSize.bytes sz) AKind.store loc
      ∧ orderLoads s' s.strandId loc (StSize.bytes sz) = s'
      ∧ loc.isAway = false
      ∧ loc ≠ Loc.zero
      ∧ Checked s s' (memAddr s.cur b off 32) 32 AKind.store loc
      ∧ orderLoads s' s.strandId loc 32 = s') := by
  exact ⟨⟨(memStates).getD 5 State.reset, (memStates).getD 5 State.reset, .b1, .w 1, .w 1, 0, .host 0x2000, 0x2000, by and_intros <;> first
        | decide +kernel
        | unfold NoStall; decide +kernel
        | (constructor <;> first | decide +kernel | exact goes_eq (by decide +kernel))⟩,
    ⟨(memStates).getD 0 State.reset, (memStates).getD 0 State.reset, .b1, .w 1, .w 1, 0, .mem 0x2000, by and_intros <;> first
        | decide +kernel
        | unfold NoStall; decide +kernel
        | exact fun _ => nofun
        | (constructor <;> first | decide +kernel | exact goes_eq (by decide +kernel))⟩⟩

/-- A state of the witnesses. -/
def stores_StoreCommits_0 : State :=
  st (r4 0x2000 0x2010 0x55 0x2000) pg |>.setCore 0 { tlb := [openEntry 0 0x1000], stores := [⟨3, 0x2000, .mem 0x2000, [1,2,3,4], []⟩, ⟨4, 0x2002, .mem 0x2002, [9,9,9,9], []⟩, ⟨4, P.toNat, .spad 0x100, [9,9,9,9], []⟩] }
/-- Witnesses of `Stores` (part StoreCommits). -/
theorem witness_Stores_StoreCommits :
    (∃ (s : State) (core : Nat) (k : Nat) (b : BufStore) (a : Nat), PlainMemory s
      ∧ (s.core core).stores[k]? = some b
      ∧ ((List.take k (s.core core).stores).any fun x => locOverlap x.loc x.bytes.length b.loc b.bytes.length) = false
      ∧ b.loc = Loc.spad a
      ∧ Memory.wf s.spad = true)
    ∧ (∃ (s : State) (core : Nat) (k : Nat) (b : BufStore) (a : Nat), PlainMemory s
      ∧ (s.core core).stores[k]? = some b
      ∧ ((List.take k (s.core core).stores).any fun x => locOverlap x.loc x.bytes.length b.loc b.bytes.length) = false
      ∧ b.loc = Loc.mem a
      ∧ Memory.wf s.hbm = true)
    ∧ (∃ (s : State) (core : Nat) (k : Nat) (b : BufStore), PlainMemory s
      ∧ (s.core core).stores[k]? = some b
      ∧ ((List.take k (s.core core).stores).any fun x => locOverlap x.loc x.bytes.length b.loc b.bytes.length) = true) := by
  exact ⟨⟨stores_StoreCommits_0, 0, 2, ⟨4, P.toNat, .spad 0x100, [9,9,9,9], []⟩, 0x100, by and_intros <;> first
        | decide +kernel
        | (constructor <;> decide +kernel)⟩,
    ⟨stores_StoreCommits_0, 0, 0, ⟨3, 0x2000, .mem 0x2000, [1,2,3,4], []⟩, 0x2000, by and_intros <;> first
        | decide +kernel
        | (constructor <;> decide +kernel)⟩,
    ⟨stores_StoreCommits_0, 0, 1, ⟨4, 0x2002, .mem 0x2002, [9,9,9,9], []⟩, by and_intros <;> first
        | decide +kernel
        | (constructor <;> decide +kernel)⟩⟩

/-- A state of the witnesses. -/
def atomics_AtomicsAtABank_0 : State :=
  st (fun t => ((r4 (P + 0x100) 0x67666564 0x6B6A696867666564 (P+0x100) t).write (.w 5) 0x737271706F6E6D6C)) pg
/-- Witnesses of `Atomics` (part AtomicsAtABank). -/
theorem witness_Atomics_AtomicsAtABank :
    (∃ (s : State) (s' : State) (wd : AWidth) (o : Order) (d : GReg) (a : GReg) (b : GReg) (at_ : Nat), NoStall s [d, a, b]
      ∧ NoStall s (a :: pairRegs d ++ pairRegs b)
      ∧ s.cur.region = none
      ∧ window (vaOf (s.cur.read a)) = 8
      ∧ PlainMemory s'
      ∧ (s'.core s.curCore).stores = []
      ∧ Memory.wf s'.spad = true
      ∧ (Order.releases o = true → (∀ p ∈ s'.cur.pend, loadOf p = none) ∧ (∀ f ∈ s'.rows, f.strand ≠ s.strandId) ∧ corePuts s' s.curCore = false ∧ s'.cur.lostPut = none)
      ∧ Checked s s' (vaOf (s.cur.read a)) (AWidth.bytes wd) AKind.atom (Loc.spad at_)
      ∧ ofLeBytes (s'.spad.bytes at_ (AWidth.bytes wd)) ≠ BitVec.toNat (s.cur.read d) % 2 ^ (8 * AWidth.bytes wd)
      ∧ Checked s s' (vaOf (s.cur.read a)) 16 AKind.atom (Loc.spad at_)
      ∧ (¬(ofLeBytes (s'.spad.bytes at_ 8) = BitVec.toNat (s.cur.read d) ∧ ofLeBytes (s'.spad.bytes (at_ + 8) 8) = BitVec.toNat (s.cur.read (GReg.plus d 1)))))
    ∧ (∃ (s : State) (s' : State) (o : Order) (d : GReg) (a : GReg) (b : GReg) (at_ : Nat), NoStall s [d, a, b]
      ∧ NoStall s (a :: pairRegs d ++ pairRegs b)
      ∧ s.cur.region = none
      ∧ window (vaOf (s.cur.read a)) = 8
      ∧ PlainMemory s'
      ∧ (s'.core s.curCore).stores = []
      ∧ Memory.wf s'.spad = true
      ∧ (Order.releases o = true → (∀ p ∈ s'.cur.pend, loadOf p = none) ∧ (∀ f ∈ s'.rows, f.strand ≠ s.strandId) ∧ corePuts s' s.curCore = false ∧ s'.cur.lostPut = none)
      ∧ Checked s s' (vaOf (s.cur.read a)) 16 AKind.atom (Loc.spad at_)
      ∧ (ofLeBytes (s'.spad.bytes at_ 8) = BitVec.toNat (s.cur.read d) ∧ ofLeBytes (s'.spad.bytes (at_ + 8) 8) = BitVec.toNat (s.cur.read (GReg.plus d 1))))
    ∧ (∃ (s : State) (s' : State) (wd : AWidth) (o : Order) (d : GReg) (a : GReg) (b : GReg) (at_ : Nat), NoStall s [d, a, b]
      ∧ NoStall s (a :: pairRegs d ++ pairRegs b)
      ∧ s.cur.region = none
      ∧ window (vaOf (s.cur.read a)) = 8
      ∧ PlainMemory s'
      ∧ (s'.core s.curCore).stores = []
      ∧ Memory.wf s'.spad = true
      ∧ (Order.releases o = true → (∀ p ∈ s'.cur.pend, loadOf p = none) ∧ (∀ f ∈ s'.rows, f.strand ≠ s.strandId) ∧ corePuts s' s.curCore = false ∧ s'.cur.lostPut = none)
      ∧ Checked s s' (vaOf (s.cur.read a)) (AWidth.bytes wd) AKind.atom (Loc.spad at_)
      ∧ ofLeBytes (s'.spad.bytes at_ (AWidth.bytes wd)) = BitVec.toNat (s.cur.read d) % 2 ^ (8 * AWidth.bytes wd)) := by
  exact ⟨⟨st (r4 (P + 0x100) (P+0x108) (P+0x110) (P+0x100)) pg, st (r4 (P + 0x100) (P+0x108) (P+0x110) (P+0x100)) pg, .w32, .rlx, .w 1, .w 1, .w 1, 0x100, by and_intros <;> first
        | decide +kernel
        | unfold NoStall; decide +kernel
        | (constructor <;> decide +kernel)
        | (constructor <;> first | decide +kernel | exact goes_eq (by decide +kernel))⟩,
    ⟨atomics_AtomicsAtABank_0, atomics_AtomicsAtABank_0, .rlx, .w 4, .w 1, .w 1, 0x100, by and_intros <;> first
        | decide +kernel
        | unfold NoStall; decide +kernel
        | (constructor <;> decide +kernel)
        | (constructor <;> first | decide +kernel | exact goes_eq (by decide +kernel))⟩,
    ⟨st (r4 (P + 0x100) 0x67666564 0x55 (P+0x100)) pg, st (r4 (P + 0x100) 0x67666564 0x55 (P+0x100)) pg, .w32, .rlx, .w 2, .w 1, .w 1, 0x100, by and_intros <;> first
        | decide +kernel
        | unfold NoStall; decide +kernel
        | (constructor <;> decide +kernel)
        | (constructor <;> first | decide +kernel | exact goes_eq (by decide +kernel))⟩⟩

/-- A state of the witnesses. -/
def atomics_AtomicsAtTheirHome_0 : State :=
  { (st (r4 0x2000 0x2010 0x55 0x2000) pg).setCur { (st (r4 0x2000 0x2010 0x55 0x2000) pg).cur with pend := [⟨0, 0, .amo .add 4 .rlx (.w 1) 5 (.mem 0x2000), 0⟩], run := .stall .atomic } with atoms := [⟨homeSlice 0x2000, 0, 0, 0, true, 64, none, 0⟩] }
/-- A state of the witnesses. -/
def atomics_AtomicsAtTheirHome_1 : State :=
  { { (st (r4 0x2000 0x2010 0x55 0x2000) pg).setCur { (st (r4 0x2000 0x2010 0x55 0x2000) pg).cur with pend := [⟨0, 0, .amo .add 4 .rlx (.w 1) 5 (.mem 0x2000), 0⟩], run := .stall .atomic } with atoms := [⟨homeSlice 0x2000, 0, 0, 0, true, 64, none, 0⟩] } with poison := [0x2000 / 32] }
/-- A state of the witnesses. -/
def atomics_AtomicsAtTheirHome_2 : State :=
  { st (r4 0x2000 0x2010 0x55 0x2000) pg with atoms := [⟨homeSlice 0x2000, 0, 0, 0, false, 64, none, 0⟩, ⟨homeSlice 0x2000, 0, 1, 0, false, 64, none, 0⟩] }
/-- A state of the witnesses. -/
def atomics_AtomicsAtTheirHome_3 : State :=
  { st (r4 0x2000 0x2010 0x55 0x2000) pg with atoms := [⟨homeSlice 0x2000, 0, 0, 0, true, 1, none, 0⟩, ⟨homeSlice 0x2000, 0, 1, 0, false, 1, none, 0⟩] }
/-- Witnesses of `Atomics` (part AtomicsAtTheirHome). -/
theorem witness_Atomics_AtomicsAtTheirHome :
    (∃ (s : State) (k : AmoKind) (wd : AWidth) (o : Order) (d : GReg) (a : GReg) (b : GReg) (pa : Nat) (id : Nat) (m : Nat) (left : Nat) (v : Nat) (y : Word) (x : Atom), NoStall s [d, a, b]
      ∧ s.cur.region = none
      ∧ PlainMemory s
      ∧ Memory.wf s.hbm = true
      ∧ (s.strand id).pend = [{ id := m, left := left, act := PendAct.amo k (AWidth.bytes wd) o d y (Loc.mem pa), va := v }]
      ∧ (s.strand id).run = Run.stall Stall.atomic
      ∧ atomTurn s id m = some x
      ∧ isPoisoned s (Loc.mem pa) = false)
    ∧ (∃ (s : State) (k : AmoKind) (wd : AWidth) (o : Order) (d : GReg) (a : GReg) (b : GReg) (pa : Nat) (id : Nat) (m : Nat) (left : Nat) (v : Nat) (y : Word) (x : Atom), NoStall s [d, a, b]
      ∧ s.cur.region = none
      ∧ PlainMemory s
      ∧ Memory.wf s.hbm = true
      ∧ (s.strand id).pend = [{ id := m, left := left, act := PendAct.amo k (AWidth.bytes wd) o d y (Loc.mem pa), va := v }]
      ∧ (s.strand id).run = Run.stall Stall.atomic
      ∧ atomTurn s id m = some x
      ∧ isPoisoned s (Loc.mem pa) = true
      ∧ (s.strand id).intrap = false
      ∧ (s.strand id).region = none)
    ∧ (∃ (s : State) (d : GReg) (a : GReg) (b : GReg), NoStall s [d, a, b]
      ∧ s.cur.region = none
      ∧ PlainMemory s
      ∧ Memory.wf s.hbm = true
      ∧ window (vaOf (s.cur.read a)) < 8)
    ∧ (∃ (s : State) (d : GReg) (a : GReg) (b : GReg) (slice : Nat) (x : Atom), NoStall s [d, a, b]
      ∧ s.cur.region = none
      ∧ (∀ y ∈ s.atoms, y.pkt = none)
      ∧ List.find? (fun y => !y.admitted) (List.filter (fun y => y.slice == slice) s.atoms) = some x
      ∧ (List.filter (fun y => y.admitted) (List.filter (fun y => y.slice == slice) s.atoms)).length < x.limit)
    ∧ (∃ (s : State) (d : GReg) (a : GReg) (b : GReg) (slice : Nat) (x : Atom), NoStall s [d, a, b]
      ∧ s.cur.region = none
      ∧ (∀ y ∈ s.atoms, y.pkt = none)
      ∧ List.find? (fun y => !y.admitted) (List.filter (fun y => y.slice == slice) s.atoms) = some x
      ∧ x.limit ≤ (List.filter (fun y => y.admitted) (List.filter (fun y => y.slice == slice) s.atoms)).length)
    ∧ (∃ (s : State) (s' : State) (wd : AWidth) (o : Order) (d : GReg) (a : GReg) (b : GReg) (pa : Nat), NoStall s [d, a, b]
      ∧ s.cur.region = none
      ∧ window (vaOf (s.cur.read a)) < 8
      ∧ Checked s s' (vaOf (s.cur.read a)) (AWidth.bytes wd) AKind.atom (Loc.mem pa)
      ∧ (s'.core s.curCore).stores = []
      ∧ (Order.releases o = true → (∀ p ∈ s'.cur.pend, loadOf p = none) ∧ (∀ c ∈ s'.cores, ∀ b ∈ c.2.stores, b.early = []) ∧ (∀ f ∈ s'.rows, f.strand ≠ s.strandId) ∧ corePuts s' s.curCore = false ∧ s'.cur.lostPut = none)) := by
  exact ⟨⟨atomics_AtomicsAtTheirHome_0, .add, .w32, .rlx, .w 1, .w 1, .w 1, 0x2000, 0, 0, 0, 0, 5, ⟨homeSlice 0x2000, 0, 0, 0, true, 64, none, 0⟩, by and_intros <;> first
        | decide +kernel
        | unfold NoStall; decide +kernel
        | (constructor <;> decide +kernel)⟩,
    ⟨atomics_AtomicsAtTheirHome_1, .add, .w32, .rlx, .w 1, .w 1, .w 1, 0x2000, 0, 0, 0, 0, 5, ⟨homeSlice 0x2000, 0, 0, 0, true, 64, none, 0⟩, by and_intros <;> first
        | decide +kernel
        | unfold NoStall; decide +kernel
        | (constructor <;> decide +kernel)⟩,
    ⟨st (r4 0x2000 0x2010 0x55 0x2000) pg, .w 1, .w 1, .w 1, by and_intros <;> first
        | decide +kernel
        | unfold NoStall; decide +kernel
        | (constructor <;> decide +kernel)⟩,
    ⟨atomics_AtomicsAtTheirHome_2, .w 1, .w 1, .w 1, 0, ⟨homeSlice 0x2000, 0, 0, 0, false, 64, none, 0⟩, by and_intros <;> first
        | decide +kernel
        | unfold NoStall; decide +kernel⟩,
    ⟨atomics_AtomicsAtTheirHome_3, .w 1, .w 1, .w 1, 0, ⟨homeSlice 0x2000, 0, 1, 0, false, 1, none, 0⟩, by and_intros <;> first
        | decide +kernel
        | unfold NoStall; decide +kernel⟩,
    ⟨st (r4 0x2000 0x2010 0x55 0x2000) pg, st (r4 0x2000 0x2010 0x55 0x2000) pg, .w32, .rlx, .w 1, .w 1, .w 1, 0x2000, by and_intros <;> first
        | decide +kernel
        | unfold NoStall; decide +kernel
        | (constructor <;> first | decide +kernel | exact goes_eq (by decide +kernel))⟩⟩

/-- A state of the witnesses. -/
def atomicsElsewhere_ComparesAtTheirHome_0 : State :=
  { (st (r4 0x2000 0x2010 0x55 0x2000) pg).setCur { (st (r4 0x2000 0x2010 0x55 0x2000) pg).cur with pend := [⟨3, 0, .cas 4 .rlx (.w 1) 0xCBCAC9C8 0x11223344 (.mem 0x2000) none, 0x2000⟩], run := .stall .atomic } with atoms := [⟨homeSlice 0x2000, 0, 0, 3, true, 64, none, 0⟩] }
/-- A state of the witnesses. -/
def atomicsElsewhere_ComparesAtTheirHome_1 : PendAct × Word × Word × Word × Word × Option (Scope × ℕ) × AWidth × GReg × Order :=
  (.cas 4 .rlx (.w 1) 0xCBCAC9C8 0x11223344 (.mem 0x2000) none, 0xCBCAC9C8, 0, 0x11223344, 0, none, .w32, .w 1, .rlx)
/-- A state of the witnesses. -/
def atomicsElsewhere_ComparesAtTheirHome_2 : State :=
  { (st (r4 0x2000 0x2010 0x55 0x2000) pg).setCur { (st (r4 0x2000 0x2010 0x55 0x2000) pg).cur with pend := [⟨3, 0, .cas2 .ar (.w 4) 0xCFCECDCCCBCAC9C8 0xD7D6D5D4D3D2D1D0 6 7 (.mem 0x2000) (some (.core, 0)), 0x2000⟩], run := .stall .atomic } with atoms := [⟨homeSlice 0x2000, 0, 0, 3, true, 64, none, 0⟩] }
/-- A state of the witnesses. -/
def atomicsElsewhere_ComparesAtTheirHome_3 : PendAct × Word × Word × Word × Word × Option (Scope × ℕ) × AWidth × GReg × Order :=
  (.cas2 .ar (.w 4) 0xCFCECDCCCBCAC9C8 0xD7D6D5D4D3D2D1D0 6 7 (.mem 0x2000) (some (.core, 0)), 0xCFCECDCCCBCAC9C8, 0xD7D6D5D4D3D2D1D0, 6, 7, some (.core, 0), .w64, .w 4, .ar)
/-- A state of the witnesses. -/
def atomicsElsewhere_ComparesAtTheirHome_4 : State :=
  { (st (r4 0x2000 0x2010 0x55 0x2000) pg).setCur { (st (r4 0x2000 0x2010 0x55 0x2000) pg).cur with pend := [⟨3, 0, .cas2 .rlx (.w 4) 0xCFCECDCCCBCAC9C8 9 6 7 (.mem 0x2000) none, 0x2000⟩], run := .stall .atomic } with atoms := [⟨homeSlice 0x2000, 0, 0, 3, true, 64, none, 0⟩] }
/-- A state of the witnesses. -/
def atomicsElsewhere_ComparesAtTheirHome_5 : PendAct × Word × Word × Word × Word × Option (Scope × ℕ) × AWidth × GReg × Order :=
  (.cas2 .rlx (.w 4) 0xCFCECDCCCBCAC9C8 9 6 7 (.mem 0x2000) none, 0xCFCECDCCCBCAC9C8, 9, 6, 7, none, .w64, .w 4, .rlx)
/-- A state of the witnesses. -/
def atomicsElsewhere_ComparesAtTheirHome_6 : State :=
  { (st (r4 0x2000 0x2010 0x55 0x2000) pg).setCur { (st (r4 0x2000 0x2010 0x55 0x2000) pg).cur with pend := [⟨3, 0, .cas 4 .ar (.w 1) 5 0x11223344 (.mem 0x2000) (some (.device, 0)), 0x2000⟩], run := .stall .atomic } with atoms := [⟨homeSlice 0x2000, 0, 0, 3, true, 64, none, 0⟩] }
/-- A state of the witnesses. -/
def atomicsElsewhere_ComparesAtTheirHome_7 : PendAct × Word × Word × Word × Word × Option (Scope × ℕ) × AWidth × GReg × Order :=
  (.cas 4 .ar (.w 1) 5 0x11223344 (.mem 0x2000) (some (.device, 0)), 5, 0, 0x11223344, 0, some (.device, 0), .w32, .w 1, .ar)
/-- Witnesses of `AtomicsElsewhere` (part ComparesAtTheirHome). -/
theorem witness_AtomicsElsewhere_ComparesAtTheirHome :
    (∃ (s : State) (wd : AWidth) (o : Order) (d : GReg) (a : GReg) (b : GReg) (pa : Nat) (act : PendAct) (e : Word) (y : Word) (r : Option (Scope × Nat)) (wd : AWidth) (d : GReg) (o : Order) (x : Atom), NoStall s [d, a, b]
      ∧ NoStall s (a :: pairRegs d ++ pairRegs b)
      ∧ s.cur.region = none
      ∧ PlainMemory s
      ∧ Memory.wf s.hbm = true
      ∧ (s.strand 0).pend = [{ id := 3, left := 0, act := act, va := 8192 }]
      ∧ (s.strand 0).run = Run.stall Stall.atomic
      ∧ atomTurn s 0 3 = some x
      ∧ isPoisoned s (Loc.mem pa) = false
      ∧ (s.core (strandCore 0)).stores = []
      ∧ Option.map (fun q => q.1) r ≠ some Scope.system
      ∧ (∀ f ∈ s.rows, f.strand ≠ 0)
      ∧ act = PendAct.cas (AWidth.bytes wd) o d e y (Loc.mem pa) r
      ∧ ofLeBytes (s.hbm.bytes pa (AWidth.bytes wd)) = BitVec.toNat e % 2 ^ (8 * AWidth.bytes wd))
    ∧ (∃ (s : State) (wd : AWidth) (d : GReg) (a : GReg) (b : GReg) (pa : Nat) (wd : AWidth) (d : GReg), NoStall s [d, a, b]
      ∧ NoStall s (a :: pairRegs d ++ pairRegs b)
      ∧ s.cur.region = none
      ∧ PlainMemory s
      ∧ Memory.wf s.hbm = true
      ∧ window (vaOf (s.cur.read a)) < 8
      ∧ (s.core s.curCore).stores = []
      ∧ Checked s s (vaOf (s.cur.read a)) (AWidth.bytes wd) AKind.atom (Loc.mem pa)
      ∧ Checked s s (vaOf (s.cur.read a)) 16 AKind.atom (Loc.mem pa))
    ∧ (∃ (s : State) (o : Order) (d : GReg) (a : GReg) (b : GReg) (pa : Nat) (act : PendAct) (e : Word) (e' : Word) (y : Word) (y' : Word) (r : Option (Scope × Nat)) (d : GReg) (o : Order) (x : Atom), NoStall s [d, a, b]
      ∧ NoStall s (a :: pairRegs d ++ pairRegs b)
      ∧ s.cur.region = none
      ∧ PlainMemory s
      ∧ Memory.wf s.hbm = true
      ∧ (s.strand 0).pend = [{ id := 3, left := 0, act := act, va := 8192 }]
      ∧ (s.strand 0).run = Run.stall Stall.atomic
      ∧ atomTurn s 0 3 = some x
      ∧ isPoisoned s (Loc.mem pa) = false
      ∧ (s.core (strandCore 0)).stores = []
      ∧ Option.map (fun q => q.1) r ≠ some Scope.system
      ∧ (∀ f ∈ s.rows, f.strand ≠ 0)
      ∧ act = PendAct.cas2 o d e e' y y' (Loc.mem pa) r
      ∧ (ofLeBytes (s.hbm.bytes pa 8) = BitVec.toNat e ∧ ofLeBytes (s.hbm.bytes (pa + 8) 8) = BitVec.toNat e'))
    ∧ (∃ (s : State) (o : Order) (d : GReg) (a : GReg) (b : GReg) (pa : Nat) (act : PendAct) (e : Word) (e' : Word) (y : Word) (y' : Word) (r : Option (Scope × Nat)) (d : GReg) (o : Order) (x : Atom), NoStall s [d, a, b]
      ∧ NoStall s (a :: pairRegs d ++ pairRegs b)
      ∧ s.cur.region = none
      ∧ PlainMemory s
      ∧ Memory.wf s.hbm = true
      ∧ (s.strand 0).pend = [{ id := 3, left := 0, act := act, va := 8192 }]
      ∧ (s.strand 0).run = Run.stall Stall.atomic
      ∧ atomTurn s 0 3 = some x
      ∧ isPoisoned s (Loc.mem pa) = false
      ∧ (s.core (strandCore 0)).stores = []
      ∧ Option.map (fun q => q.1) r ≠ some Scope.system
      ∧ (∀ f ∈ s.rows, f.strand ≠ 0)
      ∧ act = PendAct.cas2 o d e e' y y' (Loc.mem pa) r
      ∧ (¬(ofLeBytes (s.hbm.bytes pa 8) = BitVec.toNat e ∧ ofLeBytes (s.hbm.bytes (pa + 8) 8) = BitVec.toNat e')))
    ∧ (∃ (s : State) (wd : AWidth) (o : Order) (d : GReg) (a : GReg) (b : GReg) (pa : Nat) (act : PendAct) (e : Word) (y : Word) (r : Option (Scope × Nat)) (wd : AWidth) (d : GReg) (o : Order) (x : Atom), NoStall s [d, a, b]
      ∧ NoStall s (a :: pairRegs d ++ pairRegs b)
      ∧ s.cur.region = none
      ∧ PlainMemory s
      ∧ Memory.wf s.hbm = true
      ∧ (s.strand 0).pend = [{ id := 3, left := 0, act := act, va := 8192 }]
      ∧ (s.strand 0).run = Run.stall Stall.atomic
      ∧ atomTurn s 0 3 = some x
      ∧ isPoisoned s (Loc.mem pa) = false
      ∧ (s.core (strandCore 0)).stores = []
      ∧ Option.map (fun q => q.1) r ≠ some Scope.system
      ∧ (∀ f ∈ s.rows, f.strand ≠ 0)
      ∧ act = PendAct.cas (AWidth.bytes wd) o d e y (Loc.mem pa) r
      ∧ ofLeBytes (s.hbm.bytes pa (AWidth.bytes wd)) ≠ BitVec.toNat e % 2 ^ (8 * AWidth.bytes wd)) := by
  exact ⟨⟨atomicsElsewhere_ComparesAtTheirHome_0, .w32, .rlx, .w 1, .w 1, .w 1, 0x2000, atomicsElsewhere_ComparesAtTheirHome_1.1, atomicsElsewhere_ComparesAtTheirHome_1.2.1, atomicsElsewhere_ComparesAtTheirHome_1.2.2.2.1, atomicsElsewhere_ComparesAtTheirHome_1.2.2.2.2.2.1, atomicsElsewhere_ComparesAtTheirHome_1.2.2.2.2.2.2.1, atomicsElsewhere_ComparesAtTheirHome_1.2.2.2.2.2.2.2.1, atomicsElsewhere_ComparesAtTheirHome_1.2.2.2.2.2.2.2.2, ⟨homeSlice 0x2000, 0, 0, 3, true, 64, none, 0⟩, by and_intros <;> first
        | decide +kernel
        | unfold NoStall; decide +kernel
        | (constructor <;> decide +kernel)⟩,
    ⟨st (r4 0x2000 0x2010 0x55 0x2000) pg, .w32, .w 1, .w 1, .w 1, 0x2000, atomicsElsewhere_ComparesAtTheirHome_1.2.2.2.2.2.2.1, atomicsElsewhere_ComparesAtTheirHome_1.2.2.2.2.2.2.2.1, by and_intros <;> first
        | decide +kernel
        | unfold NoStall; decide +kernel
        | (constructor <;> decide +kernel)
        | (constructor <;> first | decide +kernel | exact goes_eq (by decide +kernel))⟩,
    ⟨atomicsElsewhere_ComparesAtTheirHome_2, .rlx, .w 1, .w 1, .w 1, 0x2000, atomicsElsewhere_ComparesAtTheirHome_3.1, atomicsElsewhere_ComparesAtTheirHome_3.2.1, atomicsElsewhere_ComparesAtTheirHome_3.2.2.1, atomicsElsewhere_ComparesAtTheirHome_3.2.2.2.1, atomicsElsewhere_ComparesAtTheirHome_3.2.2.2.2.1, atomicsElsewhere_ComparesAtTheirHome_3.2.2.2.2.2.1, atomicsElsewhere_ComparesAtTheirHome_3.2.2.2.2.2.2.2.1, atomicsElsewhere_ComparesAtTheirHome_3.2.2.2.2.2.2.2.2, ⟨homeSlice 0x2000, 0, 0, 3, true, 64, none, 0⟩, by and_intros <;> first
        | decide +kernel
        | unfold NoStall; decide +kernel
        | (constructor <;> decide +kernel)⟩,
    ⟨atomicsElsewhere_ComparesAtTheirHome_4, .rlx, .w 1, .w 1, .w 1, 0x2000, atomicsElsewhere_ComparesAtTheirHome_5.1, atomicsElsewhere_ComparesAtTheirHome_5.2.1, atomicsElsewhere_ComparesAtTheirHome_5.2.2.1, atomicsElsewhere_ComparesAtTheirHome_5.2.2.2.1, atomicsElsewhere_ComparesAtTheirHome_5.2.2.2.2.1, atomicsElsewhere_ComparesAtTheirHome_5.2.2.2.2.2.1, atomicsElsewhere_ComparesAtTheirHome_5.2.2.2.2.2.2.2.1, atomicsElsewhere_ComparesAtTheirHome_5.2.2.2.2.2.2.2.2, ⟨homeSlice 0x2000, 0, 0, 3, true, 64, none, 0⟩, by and_intros <;> first
        | decide +kernel
        | unfold NoStall; decide +kernel
        | (constructor <;> decide +kernel)⟩,
    ⟨atomicsElsewhere_ComparesAtTheirHome_6, .w32, .rlx, .w 1, .w 1, .w 1, 0x2000, atomicsElsewhere_ComparesAtTheirHome_7.1, atomicsElsewhere_ComparesAtTheirHome_7.2.1, atomicsElsewhere_ComparesAtTheirHome_7.2.2.2.1, atomicsElsewhere_ComparesAtTheirHome_7.2.2.2.2.2.1, atomicsElsewhere_ComparesAtTheirHome_7.2.2.2.2.2.2.1, atomicsElsewhere_ComparesAtTheirHome_7.2.2.2.2.2.2.2.1, atomicsElsewhere_ComparesAtTheirHome_7.2.2.2.2.2.2.2.2, ⟨homeSlice 0x2000, 0, 0, 3, true, 64, none, 0⟩, by and_intros <;> first
        | decide +kernel
        | unfold NoStall; decide +kernel
        | (constructor <;> decide +kernel)⟩⟩

/-- Witnesses of `AtomicsElsewhere` (part ReductionsAtABank). -/
theorem witness_AtomicsElsewhere_ReductionsAtABank :
    (∃ (s : State) (k : RedKind) (ty : RedType) (a : GReg) (b : GReg) (at_ : Nat), NoStall s [a, b]
      ∧ s.cur.region = none
      ∧ (¬(ty = RedType.f32 ∧ k ≠ RedKind.add))
      ∧ PlainMemory s
      ∧ (s.core s.curCore).stores = []
      ∧ Memory.wf s.spad = true
      ∧ Checked s s (vaOf (s.cur.read a)) (redSize ty) AKind.red (Loc.spad at_)) := by
  exact ⟨st (r4 (P + 0x100) (P+0x108) (P+0x110) (P+0x100)) pg, .add, .n32, .w 1, .w 1, 0x100, by and_intros <;> first
        | decide +kernel
        | unfold NoStall; decide +kernel
        | (constructor <;> decide +kernel)
        | (constructor <;> first | decide +kernel | exact goes_eq (by decide +kernel))⟩

/-- A state of the witnesses. -/
def atomicsElsewhere_SystemWindow_0 : State :=
  { st (fun t => { r4 (0xF000000000000+0) (5) 0 0 t with priv := true }) with parts := [(0, { st := .running, prect := 0, ptroot := 0x100000 }), (1, { st := .running, prect := 2 + 48 })]  }
/-- A state of the witnesses. -/
def atomicsElsewhere_SystemWindow_1 : State :=
  { st (fun t => { r4 (0xF000000000000+0x10008) (1) 0 0 t with priv := true }) with parts := [(0, { st := .running, prect := 0, ptroot := 0x100000 }), (1, { st := .running, prect := 2 + 48 })]  }
/-- Witnesses of `AtomicsElsewhere` (part SystemWindow). -/
theorem witness_AtomicsElsewhere_SystemWindow :
    (∃ (s : State) (d : GReg) (b : GReg) (off : BitVec 12) (ty : LdType) (sz : StSize) (c : Nat), NoStall s [d, b]
      ∧ Calm s
      ∧ Quiet s
      ∧ window (memAddr s.cur b off (StSize.bytes sz)) = 15
      ∧ c < 32
      ∧ window (memAddr s.cur b off 8) = 15
      ∧ memAddr s.cur b off 8 % 8 = 0
      ∧ s.cur.priv = true
      ∧ memAddr s.cur b off 8 % 2 ^ 48 < 4294967296
      ∧ memAddr s.cur b off (StSize.bytes sz) % StSize.bytes sz = 0
      ∧ window (memAddr s.cur b off (LdType.size ty)) = 15
      ∧ memAddr s.cur b off (LdType.size ty) % LdType.size ty = 0
      ∧ sysWrite s s.curPart (memAddr s.cur b off 8 % 2 ^ 48) (BitVec.toNat (s.cur.read d)) false = Except.ok ((sysWrite s s.curPart (memAddr s.cur b off 8 % 2 ^ 48) (BitVec.toNat (s.cur.read d)) false).toOption.getD s)
      ∧ sysRead s s.curPart (memAddr s.cur b off 8 % 2 ^ 48) = Except.ok ((sysRead s s.curPart (memAddr s.cur b off 8 % 2 ^ 48)).toOption.getD 0)
      ∧ s.partHas s.curPart c = true)
    ∧ (∃ (s : State) (d : GReg) (b : GReg) (c : Nat), NoStall s [d, b]
      ∧ Calm s
      ∧ Quiet s
      ∧ c < 32
      ∧ s.partHas s.curPart c = false
      ∧ s.curPart < 8)
    ∧ (∃ (s : State) (d : GReg) (b : GReg) (off : BitVec 12) (sz : StSize), NoStall s [d, b]
      ∧ Calm s
      ∧ Quiet s
      ∧ window (memAddr s.cur b off (StSize.bytes sz)) = 15
      ∧ memAddr s.cur b off (StSize.bytes sz) % StSize.bytes sz = 0
      ∧ (s.cur.priv = false ∨ sz ≠ StSize.b8))
    ∧ (∃ (s : State) (d : GReg) (b : GReg) (off : BitVec 12), NoStall s [d, b]
      ∧ Calm s
      ∧ Quiet s
      ∧ memAddr s.cur b off 8 % 2 ^ 48 < 4294967296
      ∧ (memAddr s.cur b off 8 % 2 ^ 48 % 65536 ≠ 0 ∨ 32 ≤ memAddr s.cur b off 8 % 2 ^ 48 / 65536))
    ∧ (∃ (s : State) (d : GReg) (b : GReg) (off : BitVec 12) (ty : LdType), NoStall s [d, b]
      ∧ Calm s
      ∧ Quiet s
      ∧ window (memAddr s.cur b off (LdType.size ty)) = 15
      ∧ memAddr s.cur b off (LdType.size ty) % LdType.size ty = 0
      ∧ (s.cur.priv = false ∨ ty ≠ LdType.i64))
    ∧ (∃ (s : State) (d : GReg) (b : GReg) (off : BitVec 12), NoStall s [d, b]
      ∧ Calm s
      ∧ Quiet s
      ∧ window (memAddr s.cur b off 8) = 15
      ∧ memAddr s.cur b off 8 % 8 = 0
      ∧ s.cur.priv = true
      ∧ sysRead s s.curPart (memAddr s.cur b off 8 % 2 ^ 48) = Except.error (match sysRead s s.curPart (memAddr s.cur b off 8 % 2 ^ 48) with | Except.error e => e | x => Cause.perm)) := by
  exact ⟨⟨atomicsElsewhere_SystemWindow_0, .w 1, .w 1, 0, .i64, .b8, 0, by and_intros <;> first
        | decide +kernel
        | unfold NoStall; decide +kernel
        | (constructor <;> decide +kernel)⟩,
    ⟨atomicsElsewhere_SystemWindow_0, .w 1, .w 1, 31, by and_intros <;> first
        | decide +kernel
        | unfold NoStall; decide +kernel
        | (constructor <;> decide +kernel)⟩,
    ⟨atomicsElsewhere_SystemWindow_0, .w 1, .w 1, 0, .b4, by and_intros <;> first
        | decide +kernel
        | unfold NoStall; decide +kernel
        | (constructor <;> decide +kernel)⟩,
    ⟨atomicsElsewhere_SystemWindow_0, .w 1, .w 2, 0, by and_intros <;> first
        | decide +kernel
        | unfold NoStall; decide +kernel
        | (constructor <;> decide +kernel)⟩,
    ⟨atomicsElsewhere_SystemWindow_0, .w 1, .w 1, 0, .i32, by and_intros <;> first
        | decide +kernel
        | unfold NoStall; decide +kernel
        | (constructor <;> decide +kernel)⟩,
    ⟨atomicsElsewhere_SystemWindow_1, .w 1, .w 1, 0, by and_intros <;> first
        | decide +kernel
        | unfold NoStall; decide +kernel
        | (constructor <;> decide +kernel)⟩⟩

/-- A state of the witnesses. -/
def reductions_0 : State :=
  { st (r4 0x2000 0x2010 0x55 0x2000) pg with cores := [(0, { tlb := [openEntry 0 0x1000], red := [(0x80, ⟨.add, .n32, [(0, 7)]⟩)] })] }
/-- Witnesses of `Reductions`. -/
theorem witness_Reductions :
    (∃ (s : State) (k : RedKind) (ty : RedType) (a : GReg) (b : GReg) (pa : Nat) (c : Nat) (off : Nat) (y : Nat), NoStall s [a, b]
      ∧ s.cur.region = none
      ∧ (¬(ty = RedType.f32 ∧ k ≠ RedKind.add))
      ∧ (∀ r ∈ s.regions, r.2.st ≠ RegSt.live ∧ r.2.st ≠ RegSt.waiting ∧ justAborted s r.2 = false)
      ∧ Memory.wf s.hbm = true
      ∧ (s.core c).red = [(pa / 64, { kind := k, type := ty, parts := [(off, y)] })])
    ∧ (∃ (s : State) (s' : State) (k : RedKind) (ty : RedType) (a : GReg) (b : GReg) (pa : Nat) (parts : Tbl Nat) (y : Nat), NoStall s [a, b]
      ∧ s.cur.region = none
      ∧ (¬(ty = RedType.f32 ∧ k ≠ RedKind.add))
      ∧ Checked s s' (vaOf (s.cur.read a)) (redSize ty) AKind.red (Loc.mem pa)
      ∧ (s'.core s.curCore).stores = []
      ∧ (∀ c ∈ s'.cores, ∀ b ∈ c.2.stores, b.early = [])
      ∧ (∀ r ∈ s'.regions, r.2.st ≠ RegSt.live ∧ r.2.st ≠ RegSt.waiting ∧ justAborted s' r.2 = false)
      ∧ (s'.core s.curCore).red.find (pa / 64) = some { kind := k, type := ty, parts := parts }
      ∧ parts.find (pa % 64) = some y)
    ∧ (∃ (s : State) (s' : State) (k : RedKind) (ty : RedType) (a : GReg) (b : GReg) (pa : Nat), NoStall s [a, b]
      ∧ s.cur.region = none
      ∧ (¬(ty = RedType.f32 ∧ k ≠ RedKind.add))
      ∧ Checked s s' (vaOf (s.cur.read a)) (redSize ty) AKind.red (Loc.mem pa)
      ∧ (s'.core s.curCore).stores = []
      ∧ (∀ c ∈ s'.cores, ∀ b ∈ c.2.stores, b.early = [])
      ∧ (∀ r ∈ s'.regions, r.2.st ≠ RegSt.live ∧ r.2.st ≠ RegSt.waiting ∧ justAborted s' r.2 = false)
      ∧ (s'.core s.curCore).red.find (pa / 64) = none) := by
  exact ⟨⟨reductions_0, .add, .n32, .w 1, .w 1, 0x2000, 0, 0, 7, by and_intros <;> first
        | decide +kernel
        | unfold NoStall; decide +kernel⟩,
    ⟨reductions_0, reductions_0, .add, .n32, .w 1, .w 1, 0x2000, [(0,7)], 7, by and_intros <;> first
        | decide +kernel
        | unfold NoStall; decide +kernel
        | (constructor <;> first | decide +kernel | exact goes_eq (by decide +kernel))⟩,
    ⟨st (r4 0x2000 0x2010 0x55 0x2000) pg, st (r4 0x2000 0x2010 0x55 0x2000) pg, .add, .n32, .w 1, .w 1, 0x2000, by and_intros <;> first
        | decide +kernel
        | unfold NoStall; decide +kernel
        | (constructor <;> first | decide +kernel | exact goes_eq (by decide +kernel))⟩⟩

/-- Witnesses of `Fences`. -/
theorem witness_Fences :
    (∃ (s : State) (k : FenceKind) (a : GReg) (c : Scope), NoStall s [a]
      ∧ k ≠ FenceKind.acq
      ∧ (∀ f ∈ s.rows, f.strand ≠ s.strandId)
      ∧ c ∈ [Scope.strand, Scope.core]
      ∧ (∀ p ∈ s.cur.pend, loadOf p = none)
      ∧ PlainMemory s
      ∧ (∀ b ∈ (s.core s.curCore).stores, b.loc.isAway = false)
      ∧ s.cur.pend = []
      ∧ corePuts s s.curCore = false
      ∧ s.cur.lostPut = none)
    ∧ (∃ (s : State) (k : FenceKind) (a : GReg) (va : Nat), NoStall s [a]
      ∧ k ≠ FenceKind.acq
      ∧ PlainMemory s
      ∧ (∀ b ∈ (s.core s.curCore).stores, b.loc.isAway = false)
      ∧ s.cur.pend = []
      ∧ (∀ f ∈ s.rows, f.strand ≠ s.strandId)
      ∧ Quiet s
      ∧ corePuts s s.curCore = false
      ∧ s.cur.lostPut = some va
      ∧ (s.core s.curCore).stores = [])
    ∧ (∃ (s : State) (k : FenceKind) (a : GReg), NoStall s [a]
      ∧ k ≠ FenceKind.acq
      ∧ PlainMemory s
      ∧ (∀ b ∈ (s.core s.curCore).stores, b.loc.isAway = false)
      ∧ s.cur.pend = []
      ∧ (∀ f ∈ s.rows, f.strand ≠ s.strandId)
      ∧ corePuts s s.curCore = true)
    ∧ (∃ (s : State) (a : GReg), NoStall s [a]
      ∧ rectHas s s.curPart (BitVec.toNat (s.cur.read a) % 2 ^ 32) s.curCore = false)
    ∧ (∃ (s : State) (k : FenceKind) (a : GReg), NoStall s [a]
      ∧ k ≠ FenceKind.acq
      ∧ PlainMemory s
      ∧ (∀ b ∈ (s.core s.curCore).stores, b.loc.isAway = false)
      ∧ s.cur.pend = []
      ∧ (∀ f ∈ s.rows, f.strand ≠ s.strandId)
      ∧ rectHas s s.curPart (BitVec.toNat (s.cur.read a) % 2 ^ 32) s.curCore = true) := by
  exact ⟨⟨(memStates).getD 0 State.reset, .rel, .w 1, ([Scope.strand, Scope.core])[0], by and_intros <;> first
        | decide +kernel
        | unfold NoStall; decide +kernel
        | (constructor <;> decide +kernel)⟩,
    ⟨(memStates).getD 8 State.reset, .rel, .w 1, 0x2000, by and_intros <;> first
        | decide +kernel
        | unfold NoStall; decide +kernel
        | (constructor <;> decide +kernel)⟩,
    ⟨(memStates).getD 7 State.reset, .rel, .w 1, by and_intros <;> first
        | decide +kernel
        | unfold NoStall; decide +kernel
        | (constructor <;> decide +kernel)⟩,
    ⟨(memStates).getD 0 State.reset, .w 1, by and_intros <;> first
        | decide +kernel
        | unfold NoStall; decide +kernel⟩,
    ⟨(memStates).getD 1 State.reset, .rel, .w 1, by and_intros <;> first
        | decide +kernel
        | unfold NoStall; decide +kernel
        | (constructor <;> decide +kernel)⟩⟩

/-- A helper of the witnesses. -/
def mb1 : Word := ownMailbox 1 9
/-- A helper of the witnesses. -/
def two (f g : Strand → Strand) (s : State := base) : State :=
  let s := s.setCur (f s.cur)
  s.setStrand 1 (g { run := .ready, pc := 0x3000, task := 9 })
/-- A helper of the witnesses. -/
def mb0 : Word := ownMailbox 0 7
/-- A helper of the witnesses. -/
def tk (id : Nat) (st : TaskSt) : Task := { part := 0, launch := 5, parent := 3, desc := ⟨0x4000, [1,2,3,4], 0, 0, []⟩, logical := false, start := 0, st := st, arrival := 4 }
/-- A helper of the witnesses. -/
def withTasks (s : State) : State := { s with tasks := [(7, tk 7 (.running 0)), (9, tk 9 (.running 1))] }
/-- A state of the witnesses. -/
def messages_MessagesAreSent_0 : State :=
  ([two (r4 mb1 mb0 1 1) id, two (r4 0 0xFFFFFFFFFFFFFFFF 1 1) id, { two (fun t => { r4 mb1 mb0 1 1 t with pend := [⟨5, 3, .awaiting (.w 1), 0⟩] }) id with flying := [⟨0, 5, 7, 0, mb1, [10,11,12,13]⟩] }, { two (fun t => { r4 mb1 mb0 1 1 t with pend := [⟨5, 3, .awaiting (.w 1), 0⟩] }) (fun t => {t with mailbox := List.replicate 16 ⟨0,1,[]⟩}) with flying := [⟨0, 5, 7, 0, mb1, [10,11,12,13]⟩] }, { two (fun t => { r4 mb1 mb0 1 1 t with pend := [⟨5, 3, .awaiting (.w 1), 0⟩] }) (fun t => {t with run := .wait (.recv (.w 4)) none}) with flying := [⟨0, 5, 7, 0, mb1, [10,11,12,13]⟩] }, { two (fun t => { r4 mb1 mb0 1 1 t with pend := [⟨5, 3, .awaiting (.w 1), 0⟩] }) (fun t => {t with task := 8}) with flying := [⟨0, 5, 7, 0, mb1, [10,11,12,13]⟩] }, two (fun t => { r4 0 mb0 1 1 t with mailbox := [⟨1, 3, [1,2,3,4]⟩, ⟨0,5,[]⟩] }) id, { two (r4 (BitVec.ofNat 64 (mb1 + 2^21).toNat) mb0 1 1) id with members := [(0, 0xFFFF)] }].map withTasks).getD 2 State.reset
/-- A state of the witnesses. -/
def messages_MessagesAreSent_1 : State :=
  ([two (r4 mb1 mb0 1 1) id, two (r4 0 0xFFFFFFFFFFFFFFFF 1 1) id, { two (fun t => { r4 mb1 mb0 1 1 t with pend := [⟨5, 3, .awaiting (.w 1), 0⟩] }) id with flying := [⟨0, 5, 7, 0, mb1, [10,11,12,13]⟩] }, { two (fun t => { r4 mb1 mb0 1 1 t with pend := [⟨5, 3, .awaiting (.w 1), 0⟩] }) (fun t => {t with mailbox := List.replicate 16 ⟨0,1,[]⟩}) with flying := [⟨0, 5, 7, 0, mb1, [10,11,12,13]⟩] }, { two (fun t => { r4 mb1 mb0 1 1 t with pend := [⟨5, 3, .awaiting (.w 1), 0⟩] }) (fun t => {t with run := .wait (.recv (.w 4)) none}) with flying := [⟨0, 5, 7, 0, mb1, [10,11,12,13]⟩] }, { two (fun t => { r4 mb1 mb0 1 1 t with pend := [⟨5, 3, .awaiting (.w 1), 0⟩] }) (fun t => {t with task := 8}) with flying := [⟨0, 5, 7, 0, mb1, [10,11,12,13]⟩] }, two (fun t => { r4 0 mb0 1 1 t with mailbox := [⟨1, 3, [1,2,3,4]⟩, ⟨0,5,[]⟩] }) id, { two (r4 (BitVec.ofNat 64 (mb1 + 2^21).toNat) mb0 1 1) id with members := [(0, 0xFFFF)] }].map withTasks).getD 3 State.reset
/-- A state of the witnesses. -/
def messages_MessagesAreSent_2 : State :=
  ([two (r4 mb1 mb0 1 1) id, two (r4 0 0xFFFFFFFFFFFFFFFF 1 1) id, { two (fun t => { r4 mb1 mb0 1 1 t with pend := [⟨5, 3, .awaiting (.w 1), 0⟩] }) id with flying := [⟨0, 5, 7, 0, mb1, [10,11,12,13]⟩] }, { two (fun t => { r4 mb1 mb0 1 1 t with pend := [⟨5, 3, .awaiting (.w 1), 0⟩] }) (fun t => {t with mailbox := List.replicate 16 ⟨0,1,[]⟩}) with flying := [⟨0, 5, 7, 0, mb1, [10,11,12,13]⟩] }, { two (fun t => { r4 mb1 mb0 1 1 t with pend := [⟨5, 3, .awaiting (.w 1), 0⟩] }) (fun t => {t with run := .wait (.recv (.w 4)) none}) with flying := [⟨0, 5, 7, 0, mb1, [10,11,12,13]⟩] }, { two (fun t => { r4 mb1 mb0 1 1 t with pend := [⟨5, 3, .awaiting (.w 1), 0⟩] }) (fun t => {t with task := 8}) with flying := [⟨0, 5, 7, 0, mb1, [10,11,12,13]⟩] }, two (fun t => { r4 0 mb0 1 1 t with mailbox := [⟨1, 3, [1,2,3,4]⟩, ⟨0,5,[]⟩] }) id, { two (r4 (BitVec.ofNat 64 (mb1 + 2^21).toNat) mb0 1 1) id with members := [(0, 0xFFFF)] }].map withTasks).getD 0 State.reset
/-- A state of the witnesses. -/
def messages_MessagesAreSent_3 : State :=
  ([two (r4 mb1 mb0 1 1) id, two (r4 0 0xFFFFFFFFFFFFFFFF 1 1) id, { two (fun t => { r4 mb1 mb0 1 1 t with pend := [⟨5, 3, .awaiting (.w 1), 0⟩] }) id with flying := [⟨0, 5, 7, 0, mb1, [10,11,12,13]⟩] }, { two (fun t => { r4 mb1 mb0 1 1 t with pend := [⟨5, 3, .awaiting (.w 1), 0⟩] }) (fun t => {t with mailbox := List.replicate 16 ⟨0,1,[]⟩}) with flying := [⟨0, 5, 7, 0, mb1, [10,11,12,13]⟩] }, { two (fun t => { r4 mb1 mb0 1 1 t with pend := [⟨5, 3, .awaiting (.w 1), 0⟩] }) (fun t => {t with run := .wait (.recv (.w 4)) none}) with flying := [⟨0, 5, 7, 0, mb1, [10,11,12,13]⟩] }, { two (fun t => { r4 mb1 mb0 1 1 t with pend := [⟨5, 3, .awaiting (.w 1), 0⟩] }) (fun t => {t with task := 8}) with flying := [⟨0, 5, 7, 0, mb1, [10,11,12,13]⟩] }, two (fun t => { r4 0 mb0 1 1 t with mailbox := [⟨1, 3, [1,2,3,4]⟩, ⟨0,5,[]⟩] }) id, { two (r4 (BitVec.ofNat 64 (mb1 + 2^21).toNat) mb0 1 1) id with members := [(0, 0xFFFF)] }].map withTasks).getD 1 State.reset
/-- A state of the witnesses. -/
def messages_MessagesAreSent_4 : State :=
  ([two (r4 mb1 mb0 1 1) id, two (r4 0 0xFFFFFFFFFFFFFFFF 1 1) id, { two (fun t => { r4 mb1 mb0 1 1 t with pend := [⟨5, 3, .awaiting (.w 1), 0⟩] }) id with flying := [⟨0, 5, 7, 0, mb1, [10,11,12,13]⟩] }, { two (fun t => { r4 mb1 mb0 1 1 t with pend := [⟨5, 3, .awaiting (.w 1), 0⟩] }) (fun t => {t with mailbox := List.replicate 16 ⟨0,1,[]⟩}) with flying := [⟨0, 5, 7, 0, mb1, [10,11,12,13]⟩] }, { two (fun t => { r4 mb1 mb0 1 1 t with pend := [⟨5, 3, .awaiting (.w 1), 0⟩] }) (fun t => {t with run := .wait (.recv (.w 4)) none}) with flying := [⟨0, 5, 7, 0, mb1, [10,11,12,13]⟩] }, { two (fun t => { r4 mb1 mb0 1 1 t with pend := [⟨5, 3, .awaiting (.w 1), 0⟩] }) (fun t => {t with task := 8}) with flying := [⟨0, 5, 7, 0, mb1, [10,11,12,13]⟩] }, two (fun t => { r4 0 mb0 1 1 t with mailbox := [⟨1, 3, [1,2,3,4]⟩, ⟨0,5,[]⟩] }) id, { two (r4 (BitVec.ofNat 64 (mb1 + 2^21).toNat) mb0 1 1) id with members := [(0, 0xFFFF)] }].map withTasks).getD 7 State.reset
/-- Witnesses of `Messages` (part MessagesAreSent). -/
theorem witness_Messages_MessagesAreSent :
    (∃ (s : State) (d : GReg) (a : GReg) (b : GReg) (f : Flying) (rest : List Flying) (r : Nat) (left : Nat), NoStall s (d :: a :: groupRegs b)
      ∧ Calm s
      ∧ s.flying = f :: rest
      ∧ mbReceiver f.addr = some r
      ∧ r ≠ f.strand
      ∧ (s.strand f.strand).pend = [{ id := f.k, left := left, act := PendAct.awaiting d }]
      ∧ s.strandPart r = f.part
      ∧ taskStrand s f.part (mbTask f.addr) = some r
      ∧ (s.strand r).mailbox.length < 16
      ∧ (s.strand r).run = Run.ready)
    ∧ (∃ (s : State) (d : GReg) (a : GReg) (b : GReg) (f : Flying) (rest : List Flying) (r : Nat) (left : Nat), NoStall s (d :: a :: groupRegs b)
      ∧ Calm s
      ∧ s.flying = f :: rest
      ∧ mbReceiver f.addr = some r
      ∧ r ≠ f.strand
      ∧ (s.strand f.strand).pend = [{ id := f.k, left := left, act := PendAct.awaiting d }]
      ∧ (s.strandPart r ≠ f.part ∨ taskStrand s f.part (mbTask f.addr) ≠ some r ∨ 16 ≤ (s.strand r).mailbox.length))
    ∧ (∃ (s : State) (d : GReg) (a : GReg) (b : GReg) (r : Nat), NoStall s (d :: a :: groupRegs b)
      ∧ Calm s
      ∧ mbReceiver (s.cur.read a) = some r
      ∧ mbRemote (s.cur.read a) = false
      ∧ mbReceiver (s.cur.read a) ≠ none)
    ∧ (∃ (s : State) (d : GReg) (a : GReg) (b : GReg), NoStall s (d :: a :: groupRegs b)
      ∧ Calm s
      ∧ (mbReceiver (s.cur.read a) = none ∨ mbRemote (s.cur.read a) = true ∧ s.isMember (mbPeer (s.cur.read a)) = false))
    ∧ (∃ (s : State) (d : GReg) (a : GReg) (b : GReg), NoStall s (d :: a :: groupRegs b)
      ∧ Calm s
      ∧ mbReceiver (s.cur.read a) ≠ none
      ∧ mbRemote (s.cur.read a) = true
      ∧ s.isMember (mbPeer (s.cur.read a)) = true
      ∧ s.cur.pend = []
      ∧ corePuts s s.curCore = false
      ∧ s.cur.lostPut = none) := by
  exact ⟨⟨messages_MessagesAreSent_0, .w 1, .w 1, .w 1, ⟨0, 5, 7, 0, mb1, [10,11,12,13]⟩, [], 1, 3, by and_intros <;> first
        | decide +kernel
        | unfold NoStall; decide +kernel
        | (constructor <;> decide +kernel)⟩,
    ⟨messages_MessagesAreSent_1, .w 1, .w 1, .w 1, ⟨0, 5, 7, 0, mb1, [10,11,12,13]⟩, [], 1, 3, by and_intros <;> first
        | decide +kernel
        | unfold NoStall; decide +kernel
        | (constructor <;> decide +kernel)⟩,
    ⟨messages_MessagesAreSent_2, .w 1, .w 1, .w 1, Option.get (mbReceiver ((messages_MessagesAreSent_2).cur.read (.w 1))) (by decide +kernel), by and_intros <;> first
        | decide +kernel
        | unfold NoStall; decide +kernel
        | (constructor <;> decide +kernel)⟩,
    ⟨messages_MessagesAreSent_3, .w 1, .w 2, .w 1, by and_intros <;> first
        | decide +kernel
        | unfold NoStall; decide +kernel
        | (constructor <;> decide +kernel)⟩,
    ⟨messages_MessagesAreSent_4, .w 1, .w 1, .w 1, by and_intros <;> first
        | decide +kernel
        | unfold NoStall; decide +kernel
        | (constructor <;> decide +kernel)⟩⟩

/-- A state of the witnesses. -/
def messages_MessagesAreReceived_0 : State :=
  ([two (r4 mb1 mb0 1 1) id, two (r4 0 0xFFFFFFFFFFFFFFFF 1 1) id, { two (fun t => { r4 mb1 mb0 1 1 t with pend := [⟨5, 3, .awaiting (.w 1), 0⟩] }) id with flying := [⟨0, 5, 7, 0, mb1, [10,11,12,13]⟩] }, { two (fun t => { r4 mb1 mb0 1 1 t with pend := [⟨5, 3, .awaiting (.w 1), 0⟩] }) (fun t => {t with mailbox := List.replicate 16 ⟨0,1,[]⟩}) with flying := [⟨0, 5, 7, 0, mb1, [10,11,12,13]⟩] }, { two (fun t => { r4 mb1 mb0 1 1 t with pend := [⟨5, 3, .awaiting (.w 1), 0⟩] }) (fun t => {t with run := .wait (.recv (.w 4)) none}) with flying := [⟨0, 5, 7, 0, mb1, [10,11,12,13]⟩] }, { two (fun t => { r4 mb1 mb0 1 1 t with pend := [⟨5, 3, .awaiting (.w 1), 0⟩] }) (fun t => {t with task := 8}) with flying := [⟨0, 5, 7, 0, mb1, [10,11,12,13]⟩] }, two (fun t => { r4 0 mb0 1 1 t with mailbox := [⟨1, 3, [1,2,3,4]⟩, ⟨0,5,[]⟩] }) id, { two (r4 (BitVec.ofNat 64 0xDEAD) mb0 1 1) id with members := [(0, 0xFFFF)] }].map withTasks).getD 4 State.reset
/-- A state of the witnesses. -/
def messages_MessagesAreReceived_1 : State :=
  ([two (r4 mb1 mb0 1 1) id, two (r4 0 0xFFFFFFFFFFFFFFFF 1 1) id, { two (fun t => { r4 mb1 mb0 1 1 t with pend := [⟨5, 3, .awaiting (.w 1), 0⟩] }) id with flying := [⟨0, 5, 7, 0, mb1, [10,11,12,13]⟩] }, { two (fun t => { r4 mb1 mb0 1 1 t with pend := [⟨5, 3, .awaiting (.w 1), 0⟩] }) (fun t => {t with mailbox := List.replicate 16 ⟨0,1,[]⟩}) with flying := [⟨0, 5, 7, 0, mb1, [10,11,12,13]⟩] }, { two (fun t => { r4 mb1 mb0 1 1 t with pend := [⟨5, 3, .awaiting (.w 1), 0⟩] }) (fun t => {t with run := .wait (.recv (.w 4)) none}) with flying := [⟨0, 5, 7, 0, mb1, [10,11,12,13]⟩] }, { two (fun t => { r4 mb1 mb0 1 1 t with pend := [⟨5, 3, .awaiting (.w 1), 0⟩] }) (fun t => {t with task := 8}) with flying := [⟨0, 5, 7, 0, mb1, [10,11,12,13]⟩] }, two (fun t => { r4 0 mb0 1 1 t with mailbox := [⟨1, 3, [1,2,3,4]⟩, ⟨0,5,[]⟩] }) id, { two (r4 (BitVec.ofNat 64 0xDEAD) mb0 1 1) id with members := [(0, 0xFFFF)] }].map withTasks).getD 0 State.reset
/-- A state of the witnesses. -/
def messages_MessagesAreReceived_2 : State :=
  ([two (r4 mb1 mb0 1 1) id, two (r4 0 0xFFFFFFFFFFFFFFFF 1 1) id, { two (fun t => { r4 mb1 mb0 1 1 t with pend := [⟨5, 3, .awaiting (.w 1), 0⟩] }) id with flying := [⟨0, 5, 7, 0, mb1, [10,11,12,13]⟩] }, { two (fun t => { r4 mb1 mb0 1 1 t with pend := [⟨5, 3, .awaiting (.w 1), 0⟩] }) (fun t => {t with mailbox := List.replicate 16 ⟨0,1,[]⟩}) with flying := [⟨0, 5, 7, 0, mb1, [10,11,12,13]⟩] }, { two (fun t => { r4 mb1 mb0 1 1 t with pend := [⟨5, 3, .awaiting (.w 1), 0⟩] }) (fun t => {t with run := .wait (.recv (.w 4)) none}) with flying := [⟨0, 5, 7, 0, mb1, [10,11,12,13]⟩] }, { two (fun t => { r4 mb1 mb0 1 1 t with pend := [⟨5, 3, .awaiting (.w 1), 0⟩] }) (fun t => {t with task := 8}) with flying := [⟨0, 5, 7, 0, mb1, [10,11,12,13]⟩] }, two (fun t => { r4 0 mb0 1 1 t with mailbox := [⟨1, 3, [1,2,3,4]⟩, ⟨0,5,[]⟩] }) id, { two (r4 (BitVec.ofNat 64 0xDEAD) mb0 1 1) id with members := [(0, 0xFFFF)] }].map withTasks).getD 6 State.reset
/-- Witnesses of `Messages` (part MessagesAreReceived). -/
theorem witness_Messages_MessagesAreReceived :
    (∃ (s : State) (d : GReg) (a : GReg) (f : Flying) (rest : List Flying) (r : Nat) (deadline : Option Nat), NoStall s (a :: groupRegs d)
      ∧ Calm s
      ∧ s.flying = f :: rest
      ∧ mbReceiver f.addr = some r
      ∧ r ≠ f.strand
      ∧ s.strandPart r = f.part
      ∧ taskStrand s f.part (mbTask f.addr) = some r
      ∧ (s.strand r).mailbox = []
      ∧ (s.strand r).run = Run.wait (Wait.recv d) deadline
      ∧ (s.strand r).halted = false)
    ∧ (∃ (s : State) (d : GReg) (a : GReg), NoStall s (a :: groupRegs d)
      ∧ Calm s
      ∧ (s.cur.read a = 0 ∨ s.cur.read a = ownMailbox s.strandId s.cur.task)
      ∧ s.cur.mailbox = [])
    ∧ (∃ (s : State) (d : GReg) (a : GReg) (m : Message) (rest : List Message), NoStall s (a :: groupRegs d)
      ∧ Calm s
      ∧ (s.cur.read a = 0 ∨ s.cur.read a = ownMailbox s.strandId s.cur.task)
      ∧ s.cur.mailbox = m :: rest)
    ∧ (∃ (s : State) (d : GReg) (a : GReg), NoStall s (a :: groupRegs d)
      ∧ Calm s
      ∧ (¬(s.cur.read a = 0 ∨ s.cur.read a = ownMailbox s.strandId s.cur.task))) := by
  exact ⟨⟨messages_MessagesAreReceived_0, .w 4, .w 1, ⟨0, 5, 7, 0, mb1, [10,11,12,13]⟩, [], 1, none, by and_intros <;> first
        | decide +kernel
        | unfold NoStall; decide +kernel
        | (constructor <;> decide +kernel)⟩,
    ⟨messages_MessagesAreReceived_1, .w 1, .w 2, by and_intros <;> first
        | decide +kernel
        | unfold NoStall; decide +kernel
        | (constructor <;> decide +kernel)⟩,
    ⟨messages_MessagesAreReceived_2, .w 1, .w 1, ⟨1, 3, [1,2,3,4]⟩, [⟨0,5,[]⟩], by and_intros <;> first
        | decide +kernel
        | unfold NoStall; decide +kernel
        | (constructor <;> decide +kernel)⟩,
    ⟨messages_MessagesAreReceived_1, .w 1, .w 1, by and_intros <;> first
        | decide +kernel
        | unfold NoStall; decide +kernel
        | (constructor <;> decide +kernel)⟩⟩

/-- A state of the witnesses. -/
def groups_0 : State :=
  { st (fun t => { r4 5 70000 5 5 t with groups := [1,2,3,4] }) with groups := [(5, ⟨0, [1, 2]⟩)] }
/-- Witnesses of `Groups`. -/
theorem witness_Groups :
    (∃ (s : State) (d : GReg) (a : GReg) (g : Machine.Group), NoStall s [d, a]
      ∧ Calm s
      ∧ BitVec.toNat (s.cur.read a) < 65536
      ∧ s.groups.find (BitVec.toNat (s.cur.read a)) = some g
      ∧ g.part = s.curPart
      ∧ s.strandId ∉ g.members
      ∧ List.length s.cur.groups < 4)
    ∧ (∃ (s : State) (d : GReg) (a : GReg) (g : Machine.Group), NoStall s [d, a]
      ∧ Calm s
      ∧ BitVec.toNat (s.cur.read a) < 65536
      ∧ s.groups.find (BitVec.toNat (s.cur.read a)) = some g
      ∧ g.part ≠ s.curPart)
    ∧ (∃ (s : State) (d : GReg) (a : GReg) (g : Machine.Group), NoStall s [d, a]
      ∧ Calm s
      ∧ BitVec.toNat (s.cur.read a) < 65536
      ∧ s.groups.find (BitVec.toNat (s.cur.read a)) = some g
      ∧ g.part = s.curPart
      ∧ s.strandId ∈ g.members
      ∧ (∀ b ∈ s.barriers, b.2.gid ≠ some (BitVec.toNat (s.cur.read a)))
      ∧ s.chains = []
      ∧ s.groups.sorted = true)
    ∧ (∃ (s : State) (d : GReg) (a : GReg) (g : Machine.Group), NoStall s [d, a]
      ∧ Calm s
      ∧ BitVec.toNat (s.cur.read a) < 65536
      ∧ s.groups.find (BitVec.toNat (s.cur.read a)) = some g
      ∧ g.part = s.curPart
      ∧ s.strandId ∉ g.members
      ∧ 4 ≤ List.length s.cur.groups)
    ∧ (∃ (s : State) (d : GReg) (a : GReg), NoStall s [d, a]
      ∧ Calm s
      ∧ BitVec.toNat (s.cur.read a) < 65536
      ∧ s.groups.find (BitVec.toNat (s.cur.read a)) = none
      ∧ List.length s.cur.groups < 4
      ∧ List.length s.groups < 4096)
    ∧ (∃ (s : State) (d : GReg) (a : GReg), NoStall s [d, a]
      ∧ Calm s
      ∧ 65536 ≤ BitVec.toNat (s.cur.read a))
    ∧ (∃ (s : State) (d : GReg) (a : GReg), NoStall s [d, a]
      ∧ Calm s
      ∧ BitVec.toNat (s.cur.read a) < 65536
      ∧ s.groups.find (BitVec.toNat (s.cur.read a)) = none
      ∧ 4 ≤ List.length s.cur.groups) := by
  exact ⟨⟨{ st (r4 5 70000 5 5) with groups := [(5, ⟨0, [1, 2]⟩)] }, .w 1, .w 1, ⟨0,[1,2]⟩, by and_intros <;> first
        | decide +kernel
        | unfold NoStall; decide +kernel
        | (constructor <;> decide +kernel)⟩,
    ⟨{ st (r4 5 70000 5 5) with groups := [(5, ⟨1, [1, 2]⟩)] }, .w 1, .w 1, ⟨1,[1,2]⟩, by and_intros <;> first
        | decide +kernel
        | unfold NoStall; decide +kernel
        | (constructor <;> decide +kernel)⟩,
    ⟨{ st (r4 5 70000 5 5) with groups := [(5, ⟨0, [0, 1]⟩)] }, .w 1, .w 1, ⟨0,[0,1]⟩, by and_intros <;> first
        | decide +kernel
        | unfold NoStall; decide +kernel
        | (constructor <;> decide +kernel)⟩,
    ⟨groups_0, .w 1, .w 1, ⟨0,[1,2]⟩, by and_intros <;> first
        | decide +kernel
        | unfold NoStall; decide +kernel
        | (constructor <;> decide +kernel)⟩,
    ⟨st (r4 5 70000 5 5), .w 1, .w 1, by and_intros <;> first
        | decide +kernel
        | unfold NoStall; decide +kernel
        | (constructor <;> decide +kernel)⟩,
    ⟨st (r4 5 70000 5 5), .w 1, .w 2, by and_intros <;> first
        | decide +kernel
        | unfold NoStall; decide +kernel
        | (constructor <;> decide +kernel)⟩,
    ⟨st (fun t => { r4 5 70000 5 5 t with groups := [1,2,3,4] }), .w 1, .w 1, by and_intros <;> first
        | decide +kernel
        | unfold NoStall; decide +kernel
        | (constructor <;> decide +kernel)⟩⟩

/-- A state of the witnesses. -/
def groups_LeaveCompletesPhase_0 : State :=
  { (two (r4 5 5 5 5) (fun t => { t with run := .wait (.bwait (.w 2) 3) none, arrival := some (3, 6, 8) })) with groups := [(5, ⟨0, [0, 1]⟩)], barriers := [(3, { live := true, inc := 6, phase := 8, gid := some 5, arrivals := 1 })] }
/-- Witnesses of `Groups` (part LeaveCompletesPhase). -/
theorem witness_Groups_LeaveCompletesPhase :
    (∃ (s : State) (d : GReg) (a : GReg) (dw : GReg) (g : Machine.Group) (bid : Nat) (w : Nat) (b : Barrier) (deadline : Option Nat), NoStall s [d, a]
      ∧ Calm s
      ∧ BitVec.toNat (s.cur.read a) < 65536
      ∧ s.groups.find (BitVec.toNat (s.cur.read a)) = some g
      ∧ s.strandId ∈ g.members
      ∧ w ≠ s.strandId
      ∧ List.length (g.members.rem s.strandId) = b.arrivals
      ∧ g.members.rem s.strandId ≠ []
      ∧ s.barriers = [(bid, b)]
      ∧ b.live = true
      ∧ b.gid = some (BitVec.toNat (s.cur.read a))
      ∧ s.chains = []
      ∧ s.cur.run = Run.ready
      ∧ s.strands = [(min w s.strandId, s.strand (min w s.strandId)), (max w s.strandId, s.strand (max w s.strandId))]
      ∧ (s.strand w).run = Run.wait (Wait.bwait dw bid) deadline
      ∧ (s.strand w).halted = false
      ∧ (s.strand w).arrival = some (bid, b.inc, b.phase)
      ∧ b.phase < 2 ^ 32) := by
  exact ⟨groups_LeaveCompletesPhase_0, .w 1, .w 1, .w 2, ⟨0,[0,1]⟩, 3, 1, { live := true, inc := 6, phase := 8, gid := some 5, arrivals := 1 }, none, by and_intros <;> first
        | decide +kernel
        | unfold NoStall; decide +kernel
        | (constructor <;> decide +kernel)⟩

/-- A state of the witnesses. -/
def barriers_0 : State :=
  { (st (fun t => (fun t => { t with arrival := some (5,6,8) }) (r4 5 3 0x80000 5 t))) with barriers := [(5, { live := true, inc := 6, phase := 8, count := 3, arrivals := 1 })] }
/-- A state of the witnesses. -/
def barriers_1 : State :=
  { (st (fun t => (fun t => { t with arrival := some (5,6,7) }) (r4 5 3 0x80000 5 t))) with barriers := [(5, { live := true, inc := 6, phase := 8, count := 3, arrivals := 1 })] }
/-- A state of the witnesses. -/
def barriers_2 : State :=
  { (st (fun t => (fun t => { t with arrival := some (5,5,8) }) (r4 5 3 0x80000 5 t))) with barriers := [(5, { live := true, inc := 6, phase := 8, count := 3, arrivals := 1 })] }
/-- A state of the witnesses. -/
def barriers_3 : State :=
  { (st (fun t => id (r4 5 3 0x80000 5 t))) with barriers := [(5, { live := true, inc := 6, phase := 8, count := 3, arrivals := 1 })] }
/-- A state of the witnesses. -/
def barriers_4 : State :=
  { (st (fun t => id (r4 5 3 0x80000 5 t))) with barriers := [(5, { live := true, inc := 6, phase := 8, count := 3, arrivals := 2 })] }
/-- Witnesses of `Barriers`. -/
theorem witness_Barriers :
    (∃ (s : State) (d : GReg) (a : GReg) (b : GReg) (id : Nat) (inc : Nat) (ph : Nat), NoStall s [d, a, b]
      ∧ NoStall s [d, a]
      ∧ Calm s
      ∧ BitVec.toNat (s.cur.read a) < 65536
      ∧ s.partHas s.curPart (BitVec.toNat (s.cur.read a) / 2048) = true
      ∧ barrierWaiters s (BitVec.toNat (s.cur.read a)) = []
      ∧ s.cur.run = Run.ready
      ∧ s.cur.arrival = some (id, inc, ph)
      ∧ id = BitVec.toNat (s.cur.read a)
      ∧ (s.barrier (BitVec.toNat (s.cur.read a))).live = true
      ∧ inc = (s.barrier (BitVec.toNat (s.cur.read a))).inc
      ∧ (s.barrier (BitVec.toNat (s.cur.read a))).phase = ph)
    ∧ (∃ (s : State) (d : GReg) (a : GReg) (b : GReg) (id : Nat) (inc : Nat) (ph : Nat), NoStall s [d, a, b]
      ∧ NoStall s [d, a]
      ∧ Calm s
      ∧ BitVec.toNat (s.cur.read a) < 65536
      ∧ s.partHas s.curPart (BitVec.toNat (s.cur.read a) / 2048) = true
      ∧ barrierWaiters s (BitVec.toNat (s.cur.read a)) = []
      ∧ s.cur.run = Run.ready
      ∧ s.cur.arrival = some (id, inc, ph)
      ∧ id = BitVec.toNat (s.cur.read a)
      ∧ (s.barrier (BitVec.toNat (s.cur.read a))).live = true
      ∧ inc = (s.barrier (BitVec.toNat (s.cur.read a))).inc
      ∧ (s.barrier (BitVec.toNat (s.cur.read a))).phase ≠ ph)
    ∧ (∃ (s : State) (d : GReg) (a : GReg) (b : GReg) (id : Nat) (inc : Nat) (ph : Nat), NoStall s [d, a, b]
      ∧ NoStall s [d, a]
      ∧ Calm s
      ∧ BitVec.toNat (s.cur.read a) < 65536
      ∧ s.partHas s.curPart (BitVec.toNat (s.cur.read a) / 2048) = true
      ∧ barrierWaiters s (BitVec.toNat (s.cur.read a)) = []
      ∧ s.cur.run = Run.ready
      ∧ s.cur.arrival = some (id, inc, ph)
      ∧ id = BitVec.toNat (s.cur.read a)
      ∧ (s.barrier (BitVec.toNat (s.cur.read a))).live = true
      ∧ inc ≠ (s.barrier (BitVec.toNat (s.cur.read a))).inc)
    ∧ (∃ (s : State) (d : GReg) (a : GReg) (b : GReg) (id : Nat) (inc : Nat) (ph : Nat), NoStall s [d, a, b]
      ∧ NoStall s [d, a]
      ∧ Calm s
      ∧ BitVec.toNat (s.cur.read a) < 65536
      ∧ s.partHas s.curPart (BitVec.toNat (s.cur.read a) / 2048) = true
      ∧ barrierWaiters s (BitVec.toNat (s.cur.read a)) = []
      ∧ s.cur.run = Run.ready
      ∧ s.cur.arrival = some (id, inc, ph)
      ∧ (id ≠ BitVec.toNat (s.cur.read a) ∨ (s.barrier (BitVec.toNat (s.cur.read a))).live = false))
    ∧ (∃ (s : State) (d : GReg) (a : GReg) (b : GReg), NoStall s [d, a, b]
      ∧ NoStall s [d, a]
      ∧ Calm s
      ∧ BitVec.toNat (s.cur.read a) < 65536
      ∧ s.partHas s.curPart (BitVec.toNat (s.cur.read a) / 2048) = true
      ∧ barrierWaiters s (BitVec.toNat (s.cur.read a)) = []
      ∧ s.cur.run = Run.ready
      ∧ (s.barrier (BitVec.toNat (s.cur.read a))).live = true
      ∧ (s.barrier (BitVec.toNat (s.cur.read a))).gid = none
      ∧ (s.barrier (BitVec.toNat (s.cur.read a))).arrivals + 1 < (s.barrier (BitVec.toNat (s.cur.read a))).count)
    ∧ (∃ (s : State) (d : GReg) (a : GReg) (b : GReg), NoStall s [d, a, b]
      ∧ NoStall s [d, a]
      ∧ Calm s
      ∧ BitVec.toNat (s.cur.read a) < 65536
      ∧ s.partHas s.curPart (BitVec.toNat (s.cur.read a) / 2048) = true
      ∧ barrierWaiters s (BitVec.toNat (s.cur.read a)) = []
      ∧ s.cur.run = Run.ready
      ∧ s.cur.arrival = none
      ∧ s.cur.read b ≠ 0
      ∧ BitVec.toNat (s.cur.read b) < 2 ^ 32
      ∧ (s.barrier (BitVec.toNat (s.cur.read a))).live = false)
    ∧ (∃ (s : State) (d : GReg) (a : GReg) (b : GReg), NoStall s [d, a, b]
      ∧ NoStall s [d, a]
      ∧ Calm s
      ∧ BitVec.toNat (s.cur.read a) < 65536
      ∧ s.partHas s.curPart (BitVec.toNat (s.cur.read a) / 2048) = false)
    ∧ (∃ (s : State) (d : GReg) (a : GReg) (b : GReg), NoStall s [d, a, b]
      ∧ NoStall s [d, a]
      ∧ Calm s
      ∧ 65536 ≤ BitVec.toNat (s.cur.read a))
    ∧ (∃ (s : State) (d : GReg) (a : GReg) (b : GReg), NoStall s [d, a, b]
      ∧ NoStall s [d, a]
      ∧ Calm s
      ∧ BitVec.toNat (s.cur.read a) < 65536
      ∧ s.partHas s.curPart (BitVec.toNat (s.cur.read a) / 2048) = true
      ∧ barrierWaiters s (BitVec.toNat (s.cur.read a)) = []
      ∧ s.cur.run = Run.ready
      ∧ s.cur.read b = 0)
    ∧ (∃ (s : State) (d : GReg) (a : GReg) (b : GReg), NoStall s [d, a, b]
      ∧ NoStall s [d, a]
      ∧ Calm s
      ∧ BitVec.toNat (s.cur.read a) < 65536
      ∧ s.partHas s.curPart (BitVec.toNat (s.cur.read a) / 2048) = true
      ∧ barrierWaiters s (BitVec.toNat (s.cur.read a)) = []
      ∧ s.cur.run = Run.ready
      ∧ (s.barrier (BitVec.toNat (s.cur.read a))).live = true
      ∧ (s.barrier (BitVec.toNat (s.cur.read a))).gid = none
      ∧ (s.barrier (BitVec.toNat (s.cur.read a))).count ≤ (s.barrier (BitVec.toNat (s.cur.read a))).arrivals + 1) := by
  exact ⟨⟨barriers_0, .w 1, .w 1, .w 1, 5, 6, 8, by and_intros <;> first
        | decide +kernel
        | unfold NoStall; decide +kernel
        | (constructor <;> decide +kernel)⟩,
    ⟨barriers_1, .w 1, .w 1, .w 1, 5, 6, 7, by and_intros <;> first
        | decide +kernel
        | unfold NoStall; decide +kernel
        | (constructor <;> decide +kernel)⟩,
    ⟨barriers_2, .w 1, .w 1, .w 1, 5, 5, 8, by and_intros <;> first
        | decide +kernel
        | unfold NoStall; decide +kernel
        | (constructor <;> decide +kernel)⟩,
    ⟨barriers_0, .w 1, .w 2, .w 1, 5, 6, 8, by and_intros <;> first
        | decide +kernel
        | unfold NoStall; decide +kernel
        | (constructor <;> decide +kernel)⟩,
    ⟨barriers_3, .w 1, .w 1, .w 1, by and_intros <;> first
        | decide +kernel
        | unfold NoStall; decide +kernel
        | (constructor <;> decide +kernel)⟩,
    ⟨st (r4 5 3 0x80000 5), .w 1, .w 1, .w 1, by and_intros <;> first
        | decide +kernel
        | unfold NoStall; decide +kernel
        | (constructor <;> decide +kernel)⟩,
    ⟨st (r4 0xF800 0 70000 0xF800), .w 1, .w 1, .w 1, by and_intros <;> first
        | decide +kernel
        | unfold NoStall; decide +kernel
        | (constructor <;> decide +kernel)⟩,
    ⟨st (r4 5 3 0x80000 5), .w 1, .w 4, .w 1, by and_intros <;> first
        | decide +kernel
        | unfold NoStall; decide +kernel
        | (constructor <;> decide +kernel)⟩,
    ⟨st (r4 0xF800 0 70000 0xF800), .w 1, .w 2, .w 2, by and_intros <;> first
        | decide +kernel
        | unfold NoStall; decide +kernel
        | (constructor <;> decide +kernel)⟩,
    ⟨barriers_4, .w 1, .w 1, .w 1, by and_intros <;> first
        | decide +kernel
        | unfold NoStall; decide +kernel
        | (constructor <;> decide +kernel)⟩⟩

/-- A state of the witnesses. -/
def barriers_WaitsExpire_0 : State :=
  { (st (fun t => id { (r4 5 3 0x80000 5 t) with run := .wait (.recv (.w 4)) (some 100) })) with cycle := 100, barriers := [(5, { live := true, inc := 6, phase := 8, count := 3, arrivals := 1 })] }
/-- A state of the witnesses. -/
def barriers_WaitsExpire_1 : State :=
  { (st (fun t => (fun t => {t with mailbox := [⟨1, 3, [1,2,3,4]⟩, ⟨0,5,[]⟩]}) { (r4 5 3 0x80000 5 t) with run := .wait (.recv (.w 4)) (some 100) })) with cycle := 100, barriers := [(5, { live := true, inc := 6, phase := 8, count := 3, arrivals := 1 })] }
/-- A state of the witnesses. -/
def barriers_WaitsExpire_2 : State :=
  { (st (fun t => id { (r4 5 3 0x80000 5 t) with run := .wait (.recv (.w 4)) (some 100) })) with cycle := 99, barriers := [(5, { live := true, inc := 6, phase := 8, count := 3, arrivals := 1 })] }
/-- A state of the witnesses. -/
def barriers_WaitsExpire_3 : State :=
  { (st (fun t => (fun t => {t with children := 1}) { (r4 5 3 0x80000 5 t) with run := .wait (.join (.w 1)) (some 100) })) with cycle := 100, barriers := [(5, { live := true, inc := 6, phase := 8, count := 3, arrivals := 1 })] }
/-- A state of the witnesses. -/
def barriers_WaitsExpire_4 : State :=
  { (st (fun t => (fun t => { t with arrival := some (5,6,8) }) { (r4 5 3 0x80000 5 t) with run := .wait (.bwait (.w 1) 5) (some 100) })) with cycle := 100, barriers := [(5, { live := true, inc := 6, phase := 8, count := 3, arrivals := 1 })] }
/-- A state of the witnesses. -/
def barriers_WaitsExpire_5 : State :=
  { (st (fun t => (fun t => {t with pendTok := [3]}) { (r4 5 3 0x80000 5 t) with run := .wait (.fwait 3) (some 100) })) with cycle := 100, barriers := [(5, { live := true, inc := 6, phase := 8, count := 3, arrivals := 1 })] }
/-- A state of the witnesses. -/
def barriers_WaitsExpire_6 : State :=
  { (st (fun t => (fun t => {t with timerDue := true}) { (r4 5 3 0x80000 5 t) with run := .wait (.fwait 3) (some 100) })) with cycle := 100, barriers := [(5, { live := true, inc := 6, phase := 8, count := 3, arrivals := 1 })] }
/-- Witnesses of `Barriers` (part WaitsExpire). -/
theorem witness_Barriers_WaitsExpire :
    (∃ (s : State) (id : Nat) (deadline : Nat) (d : GReg), (s.strand id).halted = false
      ∧ deadline ≤ s.cycle
      ∧ asyncDue (s.strand id) = false
      ∧ (s.strand id).run = Run.wait (Wait.recv d) (some deadline)
      ∧ (s.strand id).mailbox = [])
    ∧ (∃ (s : State) (id : Nat) (deadline : Nat) (d : GReg) (m : Message) (rest : List Message), (s.strand id).halted = false
      ∧ deadline ≤ s.cycle
      ∧ asyncDue (s.strand id) = false
      ∧ (s.strand id).run = Run.wait (Wait.recv d) (some deadline)
      ∧ (s.strand id).mailbox = m :: rest)
    ∧ (∃ (s : State) (id : Nat) (deadline : Nat) (d : GReg), (s.strand id).halted = false
      ∧ s.cycle < deadline
      ∧ (s.strand id).run = Run.wait (Wait.recv d) (some deadline))
    ∧ (∃ (s : State) (id : Nat) (deadline : Nat) (d : GReg), (s.strand id).halted = false
      ∧ deadline ≤ s.cycle
      ∧ asyncDue (s.strand id) = false
      ∧ (s.strand id).run = Run.wait (Wait.join d) (some deadline)
      ∧ (s.strand id).children ≠ 0)
    ∧ (∃ (s : State) (id : Nat) (deadline : Nat) (d : GReg) (bid : Nat), (s.strand id).halted = false
      ∧ deadline ≤ s.cycle
      ∧ asyncDue (s.strand id) = false
      ∧ (s.strand id).run = Run.wait (Wait.bwait d bid) (some deadline)
      ∧ bwaitResult s (s.strand id) bid = none)
    ∧ (∃ (s : State) (id : Nat) (deadline : Nat) (k : Fin 16), (s.strand id).halted = false
      ∧ deadline ≤ s.cycle
      ∧ asyncDue (s.strand id) = false
      ∧ (s.strand id).run = Run.wait (Wait.fwait ↑k) (some deadline)
      ∧ ↑k ∈ (s.strand id).pendTok)
    ∧ (∃ (s : State) (id : Nat), (s.strand id).halted = false
      ∧ asyncDue (s.strand id) = true) := by
  exact ⟨⟨barriers_WaitsExpire_0, 0, 100, .w 4, by decide +kernel⟩,
    ⟨barriers_WaitsExpire_1, 0, 100, .w 4, ⟨1, 3, [1,2,3,4]⟩, [⟨0,5,[]⟩], by decide +kernel⟩,
    ⟨barriers_WaitsExpire_2, 0, 100, .w 4, by decide +kernel⟩,
    ⟨barriers_WaitsExpire_3, 0, 100, .w 1, by decide +kernel⟩,
    ⟨barriers_WaitsExpire_4, 0, 100, .w 1, 5, by decide +kernel⟩,
    ⟨barriers_WaitsExpire_5, 0, 100, 3, by decide +kernel⟩,
    ⟨barriers_WaitsExpire_6, 0, by decide +kernel⟩⟩

/-- A helper of the witnesses. -/
def GBS : State := base
/-- A state of the witnesses. -/
def groupedBarriers_0 : State :=
  { st (fun t => id (r4 5 (2^48+5*2^32) 0 0 t)) with barriers := [(5, { live := true, inc := 6, phase := 8, gid := some 5, arrivals := 1 })], groups := [(5, ⟨0, [0, 1, 2]⟩)] }
/-- A state of the witnesses. -/
def groupedBarriers_1 : State :=
  { st (fun t => id (r4 5 (2^48+5*2^32) 0 0 t)) with barriers := [(5, { live := true, inc := 6, phase := 8, gid := some 5, arrivals := 1 })], groups := [] }
/-- A state of the witnesses. -/
def groupedBarriers_2 : State :=
  { st (fun t => id (r4 5 (2^48+5*2^32) 0 0 t)) with barriers := [(5, { live := true, inc := 6, phase := 8, gid := some 5, arrivals := 1 })], groups := [(5, ⟨1, [1, 2]⟩)] }
/-- A state of the witnesses. -/
def groupedBarriers_3 : State :=
  { st (fun t => id (r4 5 (2^49) 0 0 t)) with barriers := [(5, { live := true, inc := 6, phase := 8, gid := some 5, arrivals := 1 })], groups := [(5, ⟨0, [0, 1, 2]⟩)] }
/-- A state of the witnesses. -/
def groupedBarriers_4 : State :=
  { GBS with strands := [(0, (r4 5 (3) 0 0 GBS.cur)), (1, { run := .wait (.bwait (.w 2) 5) (some 100), pc := 0x2000, task := 8, arrival := some (5, 6, 8) })], barriers := [(5, { live := true, inc := 6, phase := 8, count := 3, arrivals := 1 })] }
/-- A state of the witnesses. -/
def groupedBarriers_5 : State :=
  { st (fun t => id (r4 5 (2^48+5*2^32) 0 0 t)) with barriers := [(5, { live := true, inc := 6, phase := 8, gid := some 5, arrivals := 2 })], groups := [(5, ⟨0, [0, 1, 2]⟩)] }
/-- A state of the witnesses. -/
def groupedBarriers_6 : State :=
  { GBS with strands := [(0, (r4 5 (3) 0 0 GBS.cur)), (1, { run := .wait (.bwait (.w 2) 5) (some 100), pc := 0x2000, task := 8, arrival := some (5, 6, 8) })], barriers := [(5, { live := true, inc := 6, phase := 8, count := 3, arrivals := 2 })] }
/-- Witnesses of `GroupedBarriers`. -/
theorem witness_GroupedBarriers :
    (∃ (s : State) (d : GReg) (a : GReg) (b : GReg) (g : Machine.Group) (gid : Nat) (w : Nat), NoStall s [d, a, b]
      ∧ NoStall s [d, a]
      ∧ Calm s
      ∧ BitVec.toNat (s.cur.read a) < 65536
      ∧ s.partHas s.curPart (BitVec.toNat (s.cur.read a) / 2048) = true
      ∧ barrierWaiters s (BitVec.toNat (s.cur.read a)) = []
      ∧ gid < 65536
      ∧ (s.barrier (BitVec.toNat (s.cur.read a))).live = true
      ∧ (s.barrier (BitVec.toNat (s.cur.read a))).gid = some gid
      ∧ s.groups.find gid = some g
      ∧ s.strandId ∈ g.members
      ∧ w ≠ s.strandId
      ∧ s.cur.run = Run.ready
      ∧ (s.barrier (BitVec.toNat (s.cur.read a))).phase < 2 ^ 32
      ∧ (s.barrier (BitVec.toNat (s.cur.read a))).inc < 2 ^ 16
      ∧ (s.barrier (BitVec.toNat (s.cur.read a))).arrivals + 1 < List.length g.members)
    ∧ (∃ (s : State) (d : GReg) (a : GReg) (b : GReg) (g : Machine.Group) (gid : Nat), NoStall s [d, a, b]
      ∧ NoStall s [d, a]
      ∧ Calm s
      ∧ BitVec.toNat (s.cur.read a) < 65536
      ∧ s.partHas s.curPart (BitVec.toNat (s.cur.read a) / 2048) = true
      ∧ barrierWaiters s (BitVec.toNat (s.cur.read a)) = []
      ∧ gid < 65536
      ∧ BitVec.toNat (s.cur.read b) = 2 ^ 48 + 2 ^ 32 * gid
      ∧ s.groups.find gid = some g
      ∧ g.part = s.curPart)
    ∧ (∃ (s : State) (d : GReg) (a : GReg) (b : GReg) (gid : Nat), NoStall s [d, a, b]
      ∧ NoStall s [d, a]
      ∧ Calm s
      ∧ BitVec.toNat (s.cur.read a) < 65536
      ∧ s.partHas s.curPart (BitVec.toNat (s.cur.read a) / 2048) = true
      ∧ barrierWaiters s (BitVec.toNat (s.cur.read a)) = []
      ∧ gid < 65536
      ∧ (s.barrier (BitVec.toNat (s.cur.read a))).live = true
      ∧ (s.barrier (BitVec.toNat (s.cur.read a))).gid = some gid
      ∧ s.groups.find gid = none)
    ∧ (∃ (s : State) (d : GReg) (a : GReg) (b : GReg) (gid : Nat), NoStall s [d, a, b]
      ∧ NoStall s [d, a]
      ∧ Calm s
      ∧ BitVec.toNat (s.cur.read a) < 65536
      ∧ s.partHas s.curPart (BitVec.toNat (s.cur.read a) / 2048) = true
      ∧ barrierWaiters s (BitVec.toNat (s.cur.read a)) = []
      ∧ gid < 65536
      ∧ BitVec.toNat (s.cur.read b) = 2 ^ 48 + 2 ^ 32 * gid
      ∧ s.groups.find gid = none)
    ∧ (∃ (s : State) (d : GReg) (a : GReg) (b : GReg) (g : Machine.Group) (gid : Nat), NoStall s [d, a, b]
      ∧ NoStall s [d, a]
      ∧ Calm s
      ∧ BitVec.toNat (s.cur.read a) < 65536
      ∧ s.partHas s.curPart (BitVec.toNat (s.cur.read a) / 2048) = true
      ∧ barrierWaiters s (BitVec.toNat (s.cur.read a)) = []
      ∧ gid < 65536
      ∧ BitVec.toNat (s.cur.read b) = 2 ^ 48 + 2 ^ 32 * gid
      ∧ s.groups.find gid = some g
      ∧ g.part ≠ s.curPart)
    ∧ (∃ (s : State) (d : GReg) (a : GReg) (b : GReg) (gid : Nat), NoStall s [d, a, b]
      ∧ NoStall s [d, a]
      ∧ Calm s
      ∧ BitVec.toNat (s.cur.read a) < 65536
      ∧ s.partHas s.curPart (BitVec.toNat (s.cur.read a) / 2048) = true
      ∧ barrierWaiters s (BitVec.toNat (s.cur.read a)) = []
      ∧ gid < 65536
      ∧ (2 ^ 49 ≤ BitVec.toNat (s.cur.read b) ∨ BitVec.toNat (s.cur.read b) / 2 ^ 48 = 1 ∧ BitVec.toNat (s.cur.read b) % 2 ^ 32 ≠ 0 ∨ BitVec.toNat (s.cur.read b) < 2 ^ 48 ∧ 2 ^ 32 ≤ BitVec.toNat (s.cur.read b)))
    ∧ (∃ (s : State) (d : GReg) (a : GReg) (b : GReg) (dw : GReg) (gid : Nat) (w : Nat) (deadline : Option Nat), NoStall s [d, a, b]
      ∧ NoStall s [d, a]
      ∧ Calm s
      ∧ BitVec.toNat (s.cur.read a) < 65536
      ∧ s.partHas s.curPart (BitVec.toNat (s.cur.read a) / 2048) = true
      ∧ w ≠ s.strandId
      ∧ s.cur.run = Run.ready
      ∧ (s.barrier (BitVec.toNat (s.cur.read a))).live = true
      ∧ (s.barrier (BitVec.toNat (s.cur.read a))).phase < 2 ^ 32
      ∧ (s.barrier (BitVec.toNat (s.cur.read a))).inc < 2 ^ 16
      ∧ s.strands = [(min w s.strandId, s.strand (min w s.strandId)), (max w s.strandId, s.strand (max w s.strandId))]
      ∧ (s.strand w).run = Run.wait (Wait.bwait dw (BitVec.toNat (s.cur.read a))) deadline
      ∧ (s.strand w).halted = false
      ∧ (s.strand w).arrival = some (BitVec.toNat (s.cur.read a), (s.barrier (BitVec.toNat (s.cur.read a))).inc, (s.barrier (BitVec.toNat (s.cur.read a))).phase)
      ∧ (s.barrier (BitVec.toNat (s.cur.read a))).gid = none
      ∧ 0 < BitVec.toNat (s.cur.read b)
      ∧ BitVec.toNat (s.cur.read b) < 2 ^ 32
      ∧ (s.barrier (BitVec.toNat (s.cur.read a))).arrivals + 1 < (s.barrier (BitVec.toNat (s.cur.read a))).count)
    ∧ (∃ (s : State) (d : GReg) (a : GReg) (b : GReg) (g : Machine.Group) (gid : Nat), NoStall s [d, a, b]
      ∧ NoStall s [d, a]
      ∧ Calm s
      ∧ BitVec.toNat (s.cur.read a) < 65536
      ∧ s.partHas s.curPart (BitVec.toNat (s.cur.read a) / 2048) = true
      ∧ barrierWaiters s (BitVec.toNat (s.cur.read a)) = []
      ∧ gid < 65536
      ∧ (s.barrier (BitVec.toNat (s.cur.read a))).live = true
      ∧ (s.barrier (BitVec.toNat (s.cur.read a))).gid = some gid
      ∧ s.groups.find gid = some g
      ∧ s.strandId ∉ g.members)
    ∧ (∃ (s : State) (d : GReg) (a : GReg) (b : GReg) (g : Machine.Group) (gid : Nat), NoStall s [d, a, b]
      ∧ NoStall s [d, a]
      ∧ Calm s
      ∧ BitVec.toNat (s.cur.read a) < 65536
      ∧ s.partHas s.curPart (BitVec.toNat (s.cur.read a) / 2048) = true
      ∧ barrierWaiters s (BitVec.toNat (s.cur.read a)) = []
      ∧ gid < 65536
      ∧ (s.barrier (BitVec.toNat (s.cur.read a))).live = true
      ∧ (s.barrier (BitVec.toNat (s.cur.read a))).gid = some gid
      ∧ s.groups.find gid = some g
      ∧ s.strandId ∈ g.members
      ∧ List.length g.members ≤ (s.barrier (BitVec.toNat (s.cur.read a))).arrivals + 1)
    ∧ (∃ (s : State) (d : GReg) (a : GReg) (b : GReg) (dw : GReg) (gid : Nat) (w : Nat) (deadline : Option Nat), NoStall s [d, a, b]
      ∧ NoStall s [d, a]
      ∧ Calm s
      ∧ BitVec.toNat (s.cur.read a) < 65536
      ∧ s.partHas s.curPart (BitVec.toNat (s.cur.read a) / 2048) = true
      ∧ w ≠ s.strandId
      ∧ s.cur.run = Run.ready
      ∧ (s.barrier (BitVec.toNat (s.cur.read a))).live = true
      ∧ (s.barrier (BitVec.toNat (s.cur.read a))).phase < 2 ^ 32
      ∧ (s.barrier (BitVec.toNat (s.cur.read a))).inc < 2 ^ 16
      ∧ s.strands = [(min w s.strandId, s.strand (min w s.strandId)), (max w s.strandId, s.strand (max w s.strandId))]
      ∧ (s.strand w).run = Run.wait (Wait.bwait dw (BitVec.toNat (s.cur.read a))) deadline
      ∧ (s.strand w).halted = false
      ∧ (s.strand w).arrival = some (BitVec.toNat (s.cur.read a), (s.barrier (BitVec.toNat (s.cur.read a))).inc, (s.barrier (BitVec.toNat (s.cur.read a))).phase)
      ∧ (s.barrier (BitVec.toNat (s.cur.read a))).gid = none
      ∧ (s.barrier (BitVec.toNat (s.cur.read a))).count ≤ (s.barrier (BitVec.toNat (s.cur.read a))).arrivals + 1) := by
  exact ⟨⟨groupedBarriers_0, .w 1, .w 1, .w 1, ⟨0, [0, 1, 2]⟩, 5, 5, by and_intros <;> first
        | decide +kernel
        | unfold NoStall; decide +kernel
        | (constructor <;> decide +kernel)⟩,
    ⟨groupedBarriers_0, .w 1, .w 1, .w 2, ⟨0, [0, 1, 2]⟩, 5, by and_intros <;> first
        | decide +kernel
        | unfold NoStall; decide +kernel
        | (constructor <;> decide +kernel)⟩,
    ⟨groupedBarriers_1, .w 1, .w 1, .w 1, 5, by and_intros <;> first
        | decide +kernel
        | unfold NoStall; decide +kernel
        | (constructor <;> decide +kernel)⟩,
    ⟨groupedBarriers_1, .w 1, .w 1, .w 2, 5, by and_intros <;> first
        | decide +kernel
        | unfold NoStall; decide +kernel
        | (constructor <;> decide +kernel)⟩,
    ⟨groupedBarriers_2, .w 1, .w 1, .w 2, ⟨1, [1, 2]⟩, 5, by and_intros <;> first
        | decide +kernel
        | unfold NoStall; decide +kernel
        | (constructor <;> decide +kernel)⟩,
    ⟨groupedBarriers_3, .w 1, .w 1, .w 2, 5, by and_intros <;> first
        | decide +kernel
        | unfold NoStall; decide +kernel
        | (constructor <;> decide +kernel)⟩,
    ⟨groupedBarriers_4, .w 1, .w 1, .w 1, .w 2, 5, 1, some 100, by and_intros <;> first
        | decide +kernel
        | unfold NoStall; decide +kernel
        | (constructor <;> decide +kernel)⟩,
    ⟨groupedBarriers_2, .w 1, .w 1, .w 1, ⟨1, [1, 2]⟩, 5, by and_intros <;> first
        | decide +kernel
        | unfold NoStall; decide +kernel
        | (constructor <;> decide +kernel)⟩,
    ⟨groupedBarriers_5, .w 1, .w 1, .w 1, ⟨0, [0, 1, 2]⟩, 5, by and_intros <;> first
        | decide +kernel
        | unfold NoStall; decide +kernel
        | (constructor <;> decide +kernel)⟩,
    ⟨groupedBarriers_6, .w 1, .w 1, .w 1, .w 2, 5, 1, some 100, by and_intros <;> first
        | decide +kernel
        | unfold NoStall; decide +kernel
        | (constructor <;> decide +kernel)⟩⟩

/-- A helper of the witnesses. -/
def trec (pl : Nat) : List Byte := leBytes 8 0x4000 ++ leBytes 8 1 ++ leBytes 8 2 ++ leBytes 8 3 ++ leBytes 8 4 ++ leBytes 8 pl ++ leBytes 4 77 ++ List.replicate 76 0
/-- A helper of the witnesses. -/
def chS (pl : Nat) (f : Strand → Strand := id) (s : State := pg) : State :=
  { (st f s) with
     hbm := Mem.putBytes [] 0x2000 (trec pl), tasks := [(7, tk 7 (.running 0))] }
/-- Witnesses of `ChildTasks` (part Child1). -/
theorem witness_ChildTasks_Child1 :
    (∃ (s : State) (s' : State) (d : GReg) (a : GReg) (bs : List Byte) (va' : Nat), NoStall s [d, a]
      ∧ NoStall s [d]
      ∧ Calm s
      ∧ vaOf (s.cur.read a) % 64 = 0
      ∧ readPieces s (vaOf (s.cur.read a)) 64 2 [] = (va', Access.value s' bs)
      ∧ s.cur.got = []
      ∧ (∀ c ∈ s'.cores, ∀ b ∈ c.2.stores, b.early = [])
      ∧ s'.strandId = s.strandId
      ∧ s'.cur = s.cur
      ∧ s'.curPart = s.curPart
      ∧ strandLaunch s' s.strandId = strandLaunch s s.strandId
      ∧ launchMode s' (strandLaunch s s.strandId) = launchMode s (strandLaunch s s.strandId)
      ∧ (s'.core s.curCore).stores = []
      ∧ (launchMode s (strandLaunch s s.strandId)).logical = false
      ∧ taskShape bs = true
      ∧ placeOk s' s.curPart (launchMode s (strandLaunch s s.strandId)) (parseTask bs) = true
      ∧ targetCore (launchMode s (strandLaunch s s.strandId)) (parseTask bs) ≠ none
      ∧ (List.filter (fun x => match x with | (fst, x) => x.parent == s.cur.task) s'.tasks).length < 4096
      ∧ (s'.cluster s.curCluster).queue.length < 1024)
    ∧ (∃ (s : State) (d : GReg) (a : GReg), NoStall s [d, a]
      ∧ NoStall s [d]
      ∧ Calm s
      ∧ vaOf (s.cur.read a) % 64 ≠ 0)
    ∧ (∃ (s : State) (s' : State) (d : GReg) (a : GReg) (bs : List Byte) (va' : Nat), NoStall s [d, a]
      ∧ NoStall s [d]
      ∧ Calm s
      ∧ vaOf (s.cur.read a) % 64 = 0
      ∧ readPieces s (vaOf (s.cur.read a)) 64 2 [] = (va', Access.value s' bs)
      ∧ s.cur.got = []
      ∧ (∀ c ∈ s'.cores, ∀ b ∈ c.2.stores, b.early = [])
      ∧ s'.strandId = s.strandId
      ∧ s'.cur = s.cur
      ∧ s'.curPart = s.curPart
      ∧ strandLaunch s' s.strandId = strandLaunch s s.strandId
      ∧ launchMode s' (strandLaunch s s.strandId) = launchMode s (strandLaunch s s.strandId)
      ∧ (s'.core s.curCore).stores = []
      ∧ (launchMode s (strandLaunch s s.strandId)).logical = false
      ∧ (taskShape bs = false ∨ placeOk s' s.curPart (launchMode s (strandLaunch s s.strandId)) (parseTask bs) = false ∨ targetCore (launchMode s (strandLaunch s s.strandId)) (parseTask bs) = none)) := by
  exact ⟨⟨chS 0 (r4 0x2000 70000 5 5), chS 0 (r4 0x2000 70000 5 5), .w 1, .w 1, trec 0, 0x2080, by and_intros <;> first
        | decide +kernel
        | unfold NoStall; decide +kernel
        | (constructor <;> decide +kernel)
        | exact gives_eq (by decide +kernel)⟩,
    ⟨chS 0 (r4 0x2000 70000 5 5), .w 1, .w 2, by and_intros <;> first
        | decide +kernel
        | unfold NoStall; decide +kernel
        | (constructor <;> decide +kernel)⟩,
    ⟨chS 0xFFFF (r4 0x2000 70000 5 5), chS 0xFFFF (r4 0x2000 70000 5 5), .w 1, .w 1, trec 0xFFFF, 0x2080, by and_intros <;> first
        | decide +kernel
        | unfold NoStall; decide +kernel
        | (constructor <;> decide +kernel)
        | exact gives_eq (by decide +kernel)⟩⟩

/-- A state of the witnesses. -/
def childTasks_Child2_0 : State :=
  { chS 0 (fun t => { t with children := 1 }) with notes := [(7, ⟨4, .ok⟩)] }
/-- A state of the witnesses. -/
def childTasks_Child2_1 : State :=
  chS 0 (fun t => { r4 0x2000 70000 5 5 t with notices := [⟨4, .ok⟩, ⟨5, .fault 3⟩, ⟨6, .killed⟩] })
/-- A state of the witnesses. -/
def childTasks_Child2_2 : State :=
  chS 0 (fun t => { r4 0x2000 70000 5 5 t with children := 1 })
/-- Witnesses of `ChildTasks` (part Child2). -/
theorem witness_ChildTasks_Child2 :
    (∃ (s : State) (d : GReg) (a : GReg) (parent : Nat) (id : Nat) (n : Notice) (rest : List (Nat × Notice)) (x : Machine.Task), NoStall s [d, a]
      ∧ NoStall s [d]
      ∧ Calm s
      ∧ s.notes = (parent, n) :: rest
      ∧ s.tasks.find parent = some x
      ∧ x.st = TaskSt.running id
      ∧ (s.strand id).run = Run.ready)
    ∧ (∃ (s : State) (d : GReg) (a : GReg) (oks : List Notice) (n : Nat) (rest : List Notice) (c : Nat), NoStall s [d, a]
      ∧ NoStall s [d]
      ∧ Calm s
      ∧ s.cur.children = 0
      ∧ s.cur.notices = oks ++ { child := n, how := Ended.fault c } :: rest
      ∧ (∀ x ∈ oks, x.how = Ended.ok))
    ∧ (∃ (s : State) (d : GReg) (a : GReg) (n : Nat), NoStall s [d, a]
      ∧ NoStall s [d]
      ∧ Calm s
      ∧ s.cur.children = 0
      ∧ (65536 ≤ BitVec.toNat (s.cur.read a) ∨ s.groups.find (BitVec.toNat (s.cur.read a)) = none)
      ∧ (∀ n ∈ s.cur.notices, n.how = Ended.ok))
    ∧ (∃ (s : State) (d : GReg) (a : GReg) (id : Nat) (w : Wait) (dl : Option Nat), NoStall s [d, a]
      ∧ NoStall s [d]
      ∧ Calm s
      ∧ (s.strand id).halted = false
      ∧ (s.strand id).run = Run.wait w dl)
    ∧ (∃ (s : State) (d : GReg) (a : GReg) (id : Nat) (c : Stall), NoStall s [d, a]
      ∧ NoStall s [d]
      ∧ Calm s
      ∧ (s.strand id).halted = false
      ∧ (s.strand id).run = Run.stall c)
    ∧ (∃ (s : State) (d : GReg) (a : GReg) (g : Machine.Group), NoStall s [d, a]
      ∧ NoStall s [d]
      ∧ Calm s
      ∧ BitVec.toNat (s.cur.read a) < 65536
      ∧ s.groups.find (BitVec.toNat (s.cur.read a)) = some g
      ∧ g.part ≠ s.curPart)
    ∧ (∃ (s : State) (d : GReg) (a : GReg) (g : Machine.Group), NoStall s [d, a]
      ∧ NoStall s [d]
      ∧ Calm s
      ∧ BitVec.toNat (s.cur.read a) < 65536
      ∧ s.groups.find (BitVec.toNat (s.cur.read a)) = some g
      ∧ g.part = s.curPart)
    ∧ (∃ (s : State) (d : GReg) (a : GReg) (id : Nat), NoStall s [d, a]
      ∧ NoStall s [d]
      ∧ Calm s
      ∧ (s.strand id).halted = false
      ∧ (s.strand id).run = Run.ready)
    ∧ (∃ (s : State) (d : GReg) (a : GReg), NoStall s [d, a]
      ∧ NoStall s [d]
      ∧ Calm s
      ∧ s.cur.children ≠ 0) := by
  exact ⟨⟨childTasks_Child2_0, .w 1, .w 1, 7, 0, ⟨4,.ok⟩, [], tk 7 (.running 0), by and_intros <;> first
        | decide +kernel
        | unfold NoStall; decide +kernel
        | (constructor <;> decide +kernel)⟩,
    ⟨childTasks_Child2_1, .w 1, .w 1, [⟨4, .ok⟩], 5, [⟨6, .killed⟩], 3, by and_intros <;> first
        | decide +kernel
        | unfold NoStall; decide +kernel
        | (constructor <;> decide +kernel)⟩,
    ⟨chS 0 (r4 0x2000 70000 5 5), .w 1, .w 1, 0, by and_intros <;> first
        | decide +kernel
        | unfold NoStall; decide +kernel
        | (constructor <;> decide +kernel)⟩,
    ⟨chS 0 (fun t => { t with run := .wait (.recv (.w 1)) none }), .w 1, .w 1, 0, .recv (.w 1), none, by and_intros <;> first
        | decide +kernel
        | unfold NoStall; decide +kernel
        | (constructor <;> decide +kernel)⟩,
    ⟨chS 0 (fun t => { t with run := .stall .results }), .w 1, .w 1, 0, .results, by and_intros <;> first
        | decide +kernel
        | unfold NoStall; decide +kernel
        | (constructor <;> decide +kernel)⟩,
    ⟨{ chS 0 (r4 5 70000 5 5) with groups := [(5, ⟨1, [0, 1]⟩)] }, .w 1, .w 1, ⟨1, [0, 1]⟩, by and_intros <;> first
        | decide +kernel
        | unfold NoStall; decide +kernel
        | (constructor <;> decide +kernel)⟩,
    ⟨{ chS 0 (r4 5 70000 5 5) with groups := [(5, ⟨0, [0, 1]⟩)] }, .w 1, .w 1, ⟨0, [0, 1]⟩, by and_intros <;> first
        | decide +kernel
        | unfold NoStall; decide +kernel
        | (constructor <;> decide +kernel)⟩,
    ⟨chS 0 (r4 0x2000 70000 5 5), .w 1, .w 1, 0, by and_intros <;> first
        | decide +kernel
        | unfold NoStall; decide +kernel
        | (constructor <;> decide +kernel)⟩,
    ⟨childTasks_Child2_2, .w 1, .w 1, by and_intros <;> first
        | decide +kernel
        | unfold NoStall; decide +kernel
        | (constructor <;> decide +kernel)⟩⟩

/-- A helper of the witnesses. -/
def dS (x y z : Word) (q : Desc) (c : Ctx := { run := .ready, task := 44 }) (s : State := pg) : State :=
  { (st (r4 x y z 0x2000) s) with
      descs := [(3, q)], ctxs := [(0, c)] }
/-- A helper of the witnesses. -/
def posA : Word := BitVec.ofNat 64 (padAddr (posBase 3))
/-- A helper of the witnesses. -/
def bind (c : Nat) (timer : Nat := 0) : Word := BitVec.ofNat 64 (chiselX 0 + 256 * chiselY 0 + c * 2^24 + timer * 2^32)
/-- A helper of the witnesses. -/
def hd (g : Nat) : Word := posHandle { gen := g } 3 0
/-- A state of the witnesses. -/
def tileBuffers_0 : State :=
  dS (posA) (bind 1) (bind 32 5) { gen := 255 } { run := .ready, task := 44 }
/-- A state of the witnesses. -/
def tileBuffers_1 : State :=
  dS (hd 6) (hd 5) (0) { st := .opened, gen := 6, ctx := 0, task := 44, count := 2 , counter := 1, mask := 5 } { run := .ready, task := 44 }
/-- A state of the witnesses. -/
def tileBuffers_2 : State :=
  dS (hd 6) (hd 5) (0) { st := .free, gen := 6, ctx := 0, task := 44, count := 2 , counter := 1, mask := 5 } { run := .ready, task := 44 }
/-- A state of the witnesses. -/
def tileBuffers_3 : State :=
  dS (posA) (bind 1) (1) { st := .opened, gen := 6, ctx := 0, task := 44, count := 2  } { run := .ready, task := 44 }
/-- Witnesses of `TileBuffers`. -/
theorem witness_TileBuffers :
    (∃ (s : State) (d : GReg) (a : GReg) (b : GReg), NoStall s [d, a, b]
      ∧ NoStall s [d, a]
      ∧ Calm s
      ∧ ownPos s (s.cur.read a) = none)
    ∧ (∃ (s : State) (d : GReg) (a : GReg) (b : GReg) (pos : Nat) (ctx : Nat), NoStall s [d, a, b]
      ∧ NoStall s [d, a]
      ∧ Calm s
      ∧ ownPos s (s.cur.read a) = some pos
      ∧ hGen (s.cur.read a) = (s.desc pos).gen
      ∧ hKind (s.cur.read a) = 0
      ∧ (s.desc pos).st = BufSt.opened
      ∧ (s.ctx (s.desc pos).ctx).run ≠ CRun.free
      ∧ (s.ctx (s.desc pos).ctx).task = (s.desc pos).task
      ∧ (s.ctx (s.desc pos).ctx).queue.length < 16
      ∧ ((s.chisel (ctxChisel (s.desc pos).ctx)).posts.any fun p => p.1 == (s.desc pos).ctx) = false
      ∧ ((s.chisel (ctxChisel (s.desc pos).ctx)).retry.any fun r => (s.desc r.1).ctx == (s.desc pos).ctx) = false
      ∧ ((s.desc pos).st = BufSt.opened ∨ (s.desc pos).st = BufSt.unposted ∨ (s.desc pos).st = BufSt.resultPosted))
    ∧ (∃ (s : State) (d : GReg) (a : GReg) (b : GReg) (pos : Nat) (ctx : Nat), NoStall s [d, a, b]
      ∧ NoStall s [d, a]
      ∧ Calm s
      ∧ tilePos s (vaOf (s.cur.read a)) = some pos
      ∧ bindingCtx s (s.cur.read b) = some ctx
      ∧ (s.ctx ctx).run ≠ CRun.free
      ∧ (s.desc pos).st = BufSt.free
      ∧ lockHit s s.curCluster (vaOf (s.cur.read a)) 2048 true = false
      ∧ TileStill s pos)
    ∧ (∃ (s : State) (d : GReg) (a : GReg) (b : GReg) (pos : Nat), NoStall s [d, a, b]
      ∧ NoStall s [d, a]
      ∧ Calm s
      ∧ (tilePos s (vaOf (s.cur.read a)) = none ∨ bindingCtx s (s.cur.read b) = none)
      ∧ ownPos s (s.cur.read a) = some pos
      ∧ hGen (s.cur.read a) = (s.desc pos).gen
      ∧ hKind (s.cur.read a) = 0
      ∧ ((s.desc pos).st = BufSt.posted ∨ (s.desc pos).st = BufSt.held ∨ (s.desc pos).st = BufSt.writing ∨ (s.desc pos).st = BufSt.free))
    ∧ (∃ (s : State) (d : GReg) (a : GReg) (b : GReg) (pos : Nat), NoStall s [d, a, b]
      ∧ NoStall s [d, a]
      ∧ Calm s
      ∧ ownPos s (s.cur.read a) = some pos
      ∧ hGen (s.cur.read a) ≠ (s.desc pos).gen
      ∧ hKind (s.cur.read a) = 0)
    ∧ (∃ (s : State) (d : GReg) (a : GReg) (b : GReg) (pos : Nat) (ctx : Nat), NoStall s [d, a, b]
      ∧ NoStall s [d, a]
      ∧ Calm s
      ∧ tilePos s (vaOf (s.cur.read a)) = some pos
      ∧ bindingCtx s (s.cur.read b) = some ctx
      ∧ ((s.ctx ctx).run = CRun.free ∨ (s.desc pos).st ≠ BufSt.free)) := by
  exact ⟨⟨tileBuffers_0, .w 1, .w 4, .w 1, by and_intros <;> first
        | decide +kernel
        | unfold NoStall; decide +kernel
        | (constructor <;> decide +kernel)⟩,
    ⟨tileBuffers_1, .w 1, .w 1, .w 1, 3, 0, by and_intros <;> first
        | decide +kernel
        | unfold NoStall; decide +kernel
        | (constructor <;> decide +kernel)⟩,
    ⟨tileBuffers_0, .w 1, .w 1, .w 2, 3, 0, by and_intros <;> first
        | decide +kernel
        | unfold NoStall; decide +kernel
        | (constructor <;> decide +kernel)
        | exact tileStill_of (by decide +kernel) (by decide +kernel)⟩,
    ⟨tileBuffers_0, .w 1, .w 1, .w 1, 0, by and_intros <;> first
        | decide +kernel
        | unfold NoStall; decide +kernel
        | (constructor <;> decide +kernel)⟩,
    ⟨tileBuffers_2, .w 1, .w 2, .w 1, 3, by and_intros <;> first
        | decide +kernel
        | unfold NoStall; decide +kernel
        | (constructor <;> decide +kernel)⟩,
    ⟨tileBuffers_3, .w 1, .w 1, .w 2, 3, 0, by and_intros <;> first
        | decide +kernel
        | unfold NoStall; decide +kernel
        | (constructor <;> decide +kernel)⟩⟩

/-- A state of the witnesses. -/
def tileRows_0 : State :=
  dS (hd 6) (0x2000) (1) { st := .opened, gen := 6, ctx := 0, task := 44, count := 2 , counter := 0 } { run := .ready, task := 44 }
/-- A state of the witnesses. -/
def tileRows_1 : State :=
  { dS (hd 6) (0x2000) (1) { st := .opened, gen := 6, ctx := 0, task := 44, count := 2  } { run := .ready, task := 44 } ({ pg with strands := [(0, { run := .ready, pc := 0x1000, task := 7, pend := [⟨5, 3, .awaiting (.w 1), 0⟩] })] }) with rows := [⟨0, 5, 0, hd 6, 1, (List.range 64).map fun i => BitVec.ofNat 8 (i + 200)⟩] }
/-- A state of the witnesses. -/
def tileRows_2 : State :=
  { dS (hd 6) (0x2000) (1) { st := .opened, gen := 6, ctx := 0, task := 44, count := 2  } { run := .ready, task := 44 } ({ pg with strands := [(0, { run := .ready, pc := 0x1000, task := 7, pend := [⟨5, 3, .awaiting (.w 1), 0⟩] })] }) with rows := [⟨0, 5, 0, hd 5, 1, (List.range 64).map fun i => BitVec.ofNat 8 (i + 200)⟩] }
/-- A state of the witnesses. -/
def tileRows_3 : State :=
  dS (hd 6) (0x2000) (1) { st := .opened, gen := 6, ctx := 0, task := 44, count := 2 , counter := 1 } { run := .ready, task := 44 }
/-- A state of the witnesses. -/
def tileRows_4 : State :=
  dS (hd 6) (0x2000) (0x8001) { st := .opened, gen := 6, ctx := 0, task := 44, count := 2  } { run := .ready, task := 44 } ({ pg with members := [(0, 1)] })
/-- A state of the witnesses. -/
def tileRows_5 : State :=
  dS (0x10000000000000AB) (0x2000) (1) { st := .opened, gen := 6, ctx := 0, task := 44, count := 2  } { run := .ready, task := 44 }
/-- A state of the witnesses. -/
def tileRows_6 : State :=
  dS (hd 5) (0x2000) (1) { st := .opened, gen := 6, ctx := 0, task := 44, count := 2  } { run := .ready, task := 44 }
/-- Witnesses of `TileRows`. -/
theorem witness_TileRows :
    (∃ (s : State) (s' : State) (d : GReg) (a : GReg) (b : GReg) (pos : Nat) (bs : List Byte) (f : FlyRow) (rest : List FlyRow) (left : Nat) (r : GReg), NoStall s [d, a, b]
      ∧ Calm s
      ∧ s'.rows = f :: rest
      ∧ f.bytes = bs
      ∧ bs.length = 64
      ∧ f.row = BitVec.toNat (s.cur.read d)
      ∧ Memory.wf s'.spad = true
      ∧ (∀ c ∈ s'.cores, ∀ b ∈ c.2.stores, b.early = [])
      ∧ handlePos f.handle = some pos
      ∧ s'.partHas f.part (hCluster f.handle) = true
      ∧ (s'.strand f.strand).pend = [{ id := f.k, left := left, act := PendAct.awaiting r }]
      ∧ hGen f.handle = (s'.desc pos).gen
      ∧ (s'.desc pos).st = BufSt.opened
      ∧ (s'.part f.part).saving = false
      ∧ (s'.desc pos).counter + 1 ≠ (s'.desc pos).count)
    ∧ (∃ (s : State) (s' : State) (d : GReg) (a : GReg) (b : GReg) (pos : Nat) (bs : List Byte) (f : FlyRow) (rest : List FlyRow) (left : Nat) (r : GReg), NoStall s [d, a, b]
      ∧ Calm s
      ∧ s'.rows = f :: rest
      ∧ f.bytes = bs
      ∧ bs.length = 64
      ∧ f.row = BitVec.toNat (s.cur.read d)
      ∧ Memory.wf s'.spad = true
      ∧ (∀ c ∈ s'.cores, ∀ b ∈ c.2.stores, b.early = [])
      ∧ handlePos f.handle = some pos
      ∧ s'.partHas f.part (hCluster f.handle) = true
      ∧ (s'.strand f.strand).pend = [{ id := f.k, left := left, act := PendAct.awaiting r }]
      ∧ (hGen f.handle ≠ (s'.desc pos).gen ∨ (s'.desc pos).st ≠ BufSt.opened ∨ (s'.part f.part).saving = true))
    ∧ (∃ (s : State) (s' : State) (d : GReg) (a : GReg) (b : GReg) (va' : Nat) (bs : List Byte), NoStall s [d, a, b]
      ∧ Calm s
      ∧ vaOf (s.cur.read b) % 64 = 0
      ∧ readPieces s (vaOf (s.cur.read b)) 64 1 [] = (va', Access.value s' bs)
      ∧ s.cur.got = []
      ∧ s'.strandId = s.strandId
      ∧ s'.cur = s.cur
      ∧ (s'.core s.curCore).stores = []
      ∧ (∀ c ∈ s'.cores, ∀ b ∈ c.2.stores, b.early = [])
      ∧ rowWordOk s' (s.cur.read d) = false)
    ∧ (∃ (s : State) (s' : State) (d : GReg) (a : GReg) (b : GReg) (pos : Nat) (va' : Nat) (bs : List Byte), NoStall s [d, a, b]
      ∧ Calm s
      ∧ BitVec.toNat (s.cur.read d) < 32
      ∧ ownInput s (s.cur.read a) = some pos
      ∧ vaOf (s.cur.read b) % 64 = 0
      ∧ readPieces s (vaOf (s.cur.read b)) 64 1 [] = (va', Access.value s' bs)
      ∧ bs.length = 64
      ∧ s.cur.got = []
      ∧ (∀ c ∈ s'.cores, ∀ b ∈ c.2.stores, b.early = [])
      ∧ s'.strandId = s.strandId
      ∧ s'.cur = s.cur
      ∧ (s'.core s.curCore).stores = []
      ∧ Memory.wf s'.spad = true
      ∧ lockHit s' s'.curCluster (padAddr (posBase pos + 64 * BitVec.toNat (s.cur.read d))) 64 true = false
      ∧ hGen (s.cur.read a) = (s'.desc pos).gen
      ∧ (s'.desc pos).st = BufSt.opened
      ∧ (s'.desc pos).counter + 1 = (s'.desc pos).count
      ∧ (s'.ctx (s'.desc pos).ctx).run ≠ CRun.free
      ∧ (s'.ctx (s'.desc pos).ctx).task = (s'.desc pos).task
      ∧ (s'.ctx (s'.desc pos).ctx).queue.length < 16
      ∧ ((s'.chisel (ctxChisel (s'.desc pos).ctx)).posts.any fun p => p.1 == (s'.desc pos).ctx) = false
      ∧ ((s'.chisel (ctxChisel (s'.desc pos).ctx)).retry.any fun r => (s'.desc r.1).ctx == (s'.desc pos).ctx) = false)
    ∧ (∃ (s : State) (s' : State) (d : GReg) (a : GReg) (b : GReg) (va' : Nat) (bs : List Byte), NoStall s [d, a, b]
      ∧ Calm s
      ∧ vaOf (s.cur.read b) % 64 = 0
      ∧ readPieces s (vaOf (s.cur.read b)) 64 1 [] = (va', Access.value s' bs)
      ∧ s.cur.got = []
      ∧ s'.strandId = s.strandId
      ∧ s'.cur = s.cur
      ∧ (s'.core s.curCore).stores = []
      ∧ (∀ c ∈ s'.cores, ∀ b ∈ c.2.stores, b.early = [])
      ∧ rowWordOk s' (s.cur.read d) = true
      ∧ BitVec.getLsbD (s.cur.read d) 15 = true
      ∧ s.cur.pend = []
      ∧ corePuts s' s.curCore = false
      ∧ s.cur.lostPut = none)
    ∧ (∃ (s : State) (d : GReg) (a : GReg) (b : GReg), NoStall s [d, a, b]
      ∧ Calm s
      ∧ Quiet s
      ∧ vaOf (s.cur.read b) % 64 = 0
      ∧ 32 ≤ BitVec.toNat (s.cur.read d))
    ∧ (∃ (s : State) (d : GReg) (a : GReg) (b : GReg) (pos : Nat), NoStall s [d, a, b]
      ∧ Calm s
      ∧ BitVec.toNat (s.cur.read d) < 32
      ∧ Quiet s
      ∧ ownInput s (s.cur.read a) = some pos
      ∧ vaOf (s.cur.read b) % 64 = 0)
    ∧ (∃ (s : State) (s' : State) (d : GReg) (a : GReg) (b : GReg) (pos : Nat) (va' : Nat) (bs : List Byte), NoStall s [d, a, b]
      ∧ Calm s
      ∧ BitVec.toNat (s.cur.read d) < 32
      ∧ ownInput s (s.cur.read a) = some pos
      ∧ vaOf (s.cur.read b) % 64 = 0
      ∧ readPieces s (vaOf (s.cur.read b)) 64 1 [] = (va', Access.value s' bs)
      ∧ bs.length = 64
      ∧ s.cur.got = []
      ∧ (∀ c ∈ s'.cores, ∀ b ∈ c.2.stores, b.early = [])
      ∧ s'.strandId = s.strandId
      ∧ s'.cur = s.cur
      ∧ (s'.core s.curCore).stores = []
      ∧ Memory.wf s'.spad = true
      ∧ lockHit s' s'.curCluster (padAddr (posBase pos + 64 * BitVec.toNat (s.cur.read d))) 64 true = false
      ∧ hGen (s.cur.read a) = (s'.desc pos).gen
      ∧ rowWordOk s' (s.cur.read d) = true
      ∧ BitVec.getLsbD (s.cur.read d) 15 = false
      ∧ (s'.desc pos).st = BufSt.opened
      ∧ (s'.desc pos).counter + 1 ≠ (s'.desc pos).count
      ∧ Quiet s')
    ∧ (∃ (s : State) (d : GReg) (a : GReg) (b : GReg), NoStall s [d, a, b]
      ∧ Calm s
      ∧ Quiet s
      ∧ BitVec.toNat (s.cur.read d) < 32
      ∧ ownInput s (s.cur.read a) = none)
    ∧ (∃ (s : State) (s' : State) (d : GReg) (a : GReg) (b : GReg) (pos : Nat) (va' : Nat) (bs : List Byte), NoStall s [d, a, b]
      ∧ Calm s
      ∧ BitVec.toNat (s.cur.read d) < 32
      ∧ ownInput s (s.cur.read a) = some pos
      ∧ vaOf (s.cur.read b) % 64 = 0
      ∧ readPieces s (vaOf (s.cur.read b)) 64 1 [] = (va', Access.value s' bs)
      ∧ bs.length = 64
      ∧ s.cur.got = []
      ∧ (∀ c ∈ s'.cores, ∀ b ∈ c.2.stores, b.early = [])
      ∧ s'.strandId = s.strandId
      ∧ s'.cur = s.cur
      ∧ (s'.core s.curCore).stores = []
      ∧ Memory.wf s'.spad = true
      ∧ lockHit s' s'.curCluster (padAddr (posBase pos + 64 * BitVec.toNat (s.cur.read d))) 64 true = false
      ∧ Quiet s'
      ∧ (hGen (s.cur.read a) ≠ (s'.desc pos).gen ∨ (s'.desc pos).st ≠ BufSt.opened)) := by
  exact ⟨⟨tileRows_0, tileRows_1, .w 4, .w 1, .w 1, 3, (List.range 64).map fun i => BitVec.ofNat 8 (i + 200), ⟨0, 5, 0, hd 6, 1, (List.range 64).map fun i => BitVec.ofNat 8 (i + 200)⟩, [], 3, .w 1, by and_intros <;> first
        | decide +kernel
        | unfold NoStall; decide +kernel
        | (constructor <;> decide +kernel)⟩,
    ⟨tileRows_0, tileRows_2, .w 4, .w 1, .w 1, 3, (List.range 64).map fun i => BitVec.ofNat 8 (i + 200), ⟨0, 5, 0, hd 5, 1, (List.range 64).map fun i => BitVec.ofNat 8 (i + 200)⟩, [], 3, .w 1, by and_intros <;> first
        | decide +kernel
        | unfold NoStall; decide +kernel
        | (constructor <;> decide +kernel)⟩,
    ⟨tileRows_0, tileRows_0, .w 1, .w 1, .w 2, 0x2040, (List.range 64).map fun i => BitVec.ofNat 8 (i + 200), by and_intros <;> first
        | decide +kernel
        | unfold NoStall; decide +kernel
        | (constructor <;> decide +kernel)
        | exact gives_eq (by decide +kernel)⟩,
    ⟨tileRows_3, tileRows_3, .w 4, .w 1, .w 2, 3, 0x2040, (List.range 64).map fun i => BitVec.ofNat 8 (i + 200), by and_intros <;> first
        | decide +kernel
        | unfold NoStall; decide +kernel
        | (constructor <;> decide +kernel)
        | exact gives_eq (by decide +kernel)⟩,
    ⟨tileRows_4, tileRows_4, .w 4, .w 1, .w 2, 0x2040, (List.range 64).map fun i => BitVec.ofNat 8 (i + 200), by and_intros <;> first
        | decide +kernel
        | unfold NoStall; decide +kernel
        | (constructor <;> decide +kernel)
        | exact gives_eq (by decide +kernel)⟩,
    ⟨tileRows_0, .w 1, .w 1, .w 1, by and_intros <;> first
        | decide +kernel
        | unfold NoStall; decide +kernel
        | (constructor <;> decide +kernel)⟩,
    ⟨tileRows_0, .w 4, .w 1, .w 1, 3, by and_intros <;> first
        | decide +kernel
        | unfold NoStall; decide +kernel
        | (constructor <;> decide +kernel)⟩,
    ⟨tileRows_0, tileRows_0, .w 4, .w 1, .w 2, 3, 0x2040, (List.range 64).map fun i => BitVec.ofNat 8 (i + 200), by and_intros <;> first
        | decide +kernel
        | unfold NoStall; decide +kernel
        | (constructor <;> decide +kernel)
        | exact gives_eq (by decide +kernel)⟩,
    ⟨tileRows_5, .w 4, .w 1, .w 1, by and_intros <;> first
        | decide +kernel
        | unfold NoStall; decide +kernel
        | (constructor <;> decide +kernel)⟩,
    ⟨tileRows_6, tileRows_6, .w 4, .w 1, .w 2, 3, 0x2040, (List.range 64).map fun i => BitVec.ofNat 8 (i + 200), by and_intros <;> first
        | decide +kernel
        | unfold NoStall; decide +kernel
        | (constructor <;> decide +kernel)
        | exact gives_eq (by decide +kernel)⟩⟩

/-- A state of the witnesses. -/
def tileRows_TilePosts_0 : State :=
  { dS 0 0 0 { st := .posted, gen := 6, ctx := 0, task := 44, count := 2  } { run := .ready } with cycle := 100, chisels := [(0, { retry := [(3, 100, hd 6)] })] }
/-- A state of the witnesses. -/
def tileRows_TilePosts_1 : State :=
  { dS 0 0 0 { st := .posted, gen := 6, ctx := 0, task := 44, count := 2  } { run := .ready } with cycle := 100, chisels := [(0, { retry := [(3, 100, hd 6)], posts := List.replicate 64 (0, 0) })] }
/-- A state of the witnesses. -/
def tileRows_TilePosts_2 : State :=
  { dS 0 0 0 { st := .posted, gen := 6, ctx := 0, task := 44, count := 2  } { run := .ready } with cycle := 100, chisels := [(0, { retry := [(3, 101, hd 6)] })] }
/-- A state of the witnesses. -/
def tileRows_TilePosts_3 : State :=
  { dS 0 0 0 { st := .opened, gen := 6, ctx := 0, task := 44, count := 2 , timer := some 100 } { run := .ready, task := 44 } with cycle := 100 }
/-- A state of the witnesses. -/
def tileRows_TilePosts_4 : State :=
  { dS 0 0 0 {} { run := .ready, task := 44, queue := List.replicate 16 0 } with cycle := 100, chisels := [(0, { posts := [(0, hd 6)] })] }
/-- A state of the witnesses. -/
def tileRows_TilePosts_5 : State :=
  { dS 0 0 0 {} { run := .frozen, task := 44 } with cycle := 100, chisels := [(0, { posts := [(0, hd 6)] })] }
/-- A state of the witnesses. -/
def tileRows_TilePosts_6 : State :=
  { dS 0 0 0 { st := .opened, gen := 6, ctx := 0, task := 44, count := 2 , timer := some 101 } { run := .ready, task := 44 } with cycle := 100 }
/-- A state of the witnesses. -/
def tileRows_TilePosts_7 : State :=
  { dS 0 0 0 { st := .opened, gen := 6, ctx := 0, task := 44, count := 2 , timer := some 99 } {} with cycle := 100 }
/-- Witnesses of `TileRows` (part TilePosts). -/
theorem witness_TileRows_TilePosts :
    (∃ (s : State) (pos : Nat) (due : Nat) (h : Word), List.find? (fun r => r.1 == pos) (s.chisel (ctxChisel (s.desc pos).ctx)).retry = some (pos, due, h)
      ∧ due ≤ s.cycle
      ∧ (s.chisel (ctxChisel (s.desc pos).ctx)).posts.length < 64
      ∧ List.find? (fun r => (s.desc r.1).ctx == (s.desc pos).ctx) (s.chisel (ctxChisel (s.desc pos).ctx)).retry = some (pos, due, h))
    ∧ (∃ (s : State) (pos : Nat) (due : Nat) (h : Word), List.find? (fun r => r.1 == pos) (s.chisel (ctxChisel (s.desc pos).ctx)).retry = some (pos, due, h)
      ∧ due ≤ s.cycle
      ∧ (64 ≤ (s.chisel (ctxChisel (s.desc pos).ctx)).posts.length ∨ List.find? (fun r => (s.desc r.1).ctx == (s.desc pos).ctx) (s.chisel (ctxChisel (s.desc pos).ctx)).retry ≠ some (pos, due, h)))
    ∧ (∃ (s : State) (pos : Nat) (due : Nat) (h : Word), List.find? (fun r => r.1 == pos) (s.chisel (ctxChisel (s.desc pos).ctx)).retry = some (pos, due, h)
      ∧ s.cycle < due)
    ∧ (∃ (s : State) (pos : Nat) (due : Nat), (s.desc pos).st = BufSt.opened
      ∧ (s.desc pos).timer = some due
      ∧ due ≤ s.cycle
      ∧ (s.ctx (s.desc pos).ctx).run ≠ CRun.free
      ∧ (s.ctx (s.desc pos).ctx).task = (s.desc pos).task
      ∧ (s.ctx (s.desc pos).ctx).queue.length < 16
      ∧ ((s.chisel (ctxChisel (s.desc pos).ctx)).posts.any fun p => p.1 == (s.desc pos).ctx) = false
      ∧ ((s.chisel (ctxChisel (s.desc pos).ctx)).retry.any fun r => (s.desc r.1).ctx == (s.desc pos).ctx) = false)
    ∧ (∃ (s : State) (ch : Nat) (tag : Nat) (p : Nat × Word), List.find? (fun p => p.1 == 8 * ch + tag) (s.chisel ch).posts = some p
      ∧ 16 ≤ (s.ctx (8 * ch + tag)).queue.length)
    ∧ (∃ (s : State) (ch : Nat) (tag : Nat) (p : Nat × Word), List.find? (fun p => p.1 == 8 * ch + tag) (s.chisel ch).posts = some p
      ∧ (s.ctx (8 * ch + tag)).queue.length < 16)
    ∧ (∃ (s : State) (pos : Nat) (due : Nat), (s.desc pos).timer = some due
      ∧ s.cycle < due)
    ∧ (∃ (s : State) (pos : Nat) (due : Nat), (s.desc pos).st = BufSt.opened
      ∧ (s.desc pos).timer = some due
      ∧ due ≤ s.cycle
      ∧ (s.ctx (s.desc pos).ctx).run = CRun.free) := by
  exact ⟨⟨tileRows_TilePosts_0, 3, 100, hd 6, by decide +kernel⟩,
    ⟨tileRows_TilePosts_1, 3, 100, hd 6, by decide +kernel⟩,
    ⟨tileRows_TilePosts_2, 3, 101, hd 6, by decide +kernel⟩,
    ⟨tileRows_TilePosts_3, 3, 100, by decide +kernel⟩,
    ⟨tileRows_TilePosts_4, 0, 0, Option.get (List.find? (fun p => p.1 == 8 * (0) + (0)) ((tileRows_TilePosts_4).chisel (0)).posts) (by decide +kernel), by decide +kernel⟩,
    ⟨tileRows_TilePosts_5, 0, 0, Option.get (List.find? (fun p => p.1 == 8 * (0) + (0)) ((tileRows_TilePosts_5).chisel (0)).posts) (by decide +kernel), by decide +kernel⟩,
    ⟨tileRows_TilePosts_6, 3, Option.get (((tileRows_TilePosts_6).desc (3)).timer) (by decide +kernel), by decide +kernel⟩,
    ⟨tileRows_TilePosts_7, 3, 99, by decide +kernel⟩⟩

/-- A state of the witnesses. -/
def candidateQueue_0 : State :=
  st (fun t => { r4 4 9 0 0 t with cands := [⟨4,1,0⟩,⟨9,2,1⟩], candCap := 3 , candNext := 2 })
/-- A state of the witnesses. -/
def candidateQueue_1 : State :=
  st (fun t => { r4 3 0 0 0 t with cands := [], candCap := 64  })
/-- A state of the witnesses. -/
def candidateQueue_2 : State :=
  st (fun t => { r4 4 9 0 0 t with cands := [⟨4,1,0⟩,⟨9,2,1⟩], candCap := 2 , candNext := 2 })
/-- Witnesses of `CandidateQueue`. -/
theorem witness_CandidateQueue :
    (∃ (s : State) (d : GReg) (a : GReg) (b : GReg) (w : _) (l : _), NoStall s [a]
      ∧ NoStall s [a, b]
      ∧ NoStall s (pairRegs d)
      ∧ s.cur.cands = w :: l)
    ∧ (∃ (s : State) (d : GReg) (a : GReg) (b : GReg), NoStall s [a]
      ∧ NoStall s [a, b]
      ∧ NoStall s (pairRegs d)
      ∧ (1024 ≤ BitVec.toNat (s.cur.read a) ∨ BitVec.toNat (s.cur.read a) / 128 % 2 = 1 ∨ BitVec.toNat (s.cur.read a) % 128 = 0 ∨ 64 < BitVec.toNat (s.cur.read a) % 128))
    ∧ (∃ (s : State) (d : GReg) (a : GReg) (b : GReg), NoStall s [a]
      ∧ NoStall s [a, b]
      ∧ NoStall s (pairRegs d)
      ∧ s.cur.cands.length < s.cur.candCap
      ∧ BitVec.toNat (s.cur.read a) < 1024
      ∧ BitVec.toNat (s.cur.read a) / 128 % 2 = 0
      ∧ 1 ≤ BitVec.toNat (s.cur.read a) % 128
      ∧ BitVec.toNat (s.cur.read a) % 128 ≤ 64
      ∧ s.cur.cands = [])
    ∧ (∃ (s : State) (d : GReg) (a : GReg) (b : GReg), NoStall s [a]
      ∧ NoStall s [a, b]
      ∧ NoStall s (pairRegs d)
      ∧ s.cur.candCap ≤ s.cur.cands.length
      ∧ s.cur.cands = s.cur.cands.dropLast ++ [s.cur.cands.getLastD { key := s.cur.read a, payload := s.cur.read b, order := s.cur.candNext }]
      ∧ s.cur.better (s.cur.read a) (s.cur.cands.getLastD { key := s.cur.read a, payload := s.cur.read b, order := s.cur.candNext }).key = true)
    ∧ (∃ (s : State) (d : GReg) (a : GReg) (b : GReg), NoStall s [a]
      ∧ NoStall s [a, b]
      ∧ NoStall s (pairRegs d)
      ∧ s.cur.candCap ≤ s.cur.cands.length
      ∧ s.cur.cands = s.cur.cands.dropLast ++ [s.cur.cands.getLastD { key := s.cur.read a, payload := s.cur.read b, order := s.cur.candNext }]
      ∧ s.cur.better (s.cur.read a) (s.cur.cands.getLastD { key := s.cur.read a, payload := s.cur.read b, order := s.cur.candNext }).key = false) := by
  exact ⟨⟨candidateQueue_0, .w 1, .w 1, .w 1, ((candidateQueue_0).cur.cands).head (by decide +kernel), ((candidateQueue_0).cur.cands).tail, by and_intros <;> first
        | decide +kernel
        | unfold NoStall; decide +kernel⟩,
    ⟨candidateQueue_1, .w 1, .w 2, .w 1, by and_intros <;> first
        | decide +kernel
        | unfold NoStall; decide +kernel⟩,
    ⟨candidateQueue_1, .w 1, .w 1, .w 1, by and_intros <;> first
        | decide +kernel
        | unfold NoStall; decide +kernel⟩,
    ⟨candidateQueue_2, .w 1, .w 1, .w 1, by and_intros <;> first
        | decide +kernel
        | unfold NoStall; decide +kernel⟩,
    ⟨candidateQueue_2, .w 1, .w 2, .w 1, by and_intros <;> first
        | decide +kernel
        | unfold NoStall; decide +kernel⟩⟩

/-- A state of the witnesses. -/
def regions_RegionInstructions_0 : State :=
  { (st (fun t => { r4 0x30000 1 2 3 t with region := some 3 }) pg) with regions := [(3, { st := .live, holder := 0, stamp := 77 })] }
/-- A state of the witnesses. -/
def regions_RegionInstructions_1 : State :=
  { (st (fun t => { r4 0x30000 1 2 3 t with region := some 3 }) pg) with cycle := 100, regions := [(3, { st := .aborted, holder := 0, code := 9, detail := 3, abortAt := 100 })] }
/-- A state of the witnesses. -/
def regions_RegionInstructions_2 : State :=
  { st (r4 0x30000 1 2 3) pg with regions := (List.range 32).map fun i => (i, {st := .live, holder := 9}), cycle := 100, clusters := [(0, { lastFrb := some 99 })] }
/-- A state of the witnesses. -/
def regions_RegionInstructions_3 : State :=
  { st (r4 0x30000 1 2 3) pg with cycle := 100, clusters := [(0, { lastFrb := some 100 })] }
/-- Witnesses of `Regions` (part RegionInstructions). -/
theorem witness_Regions_RegionInstructions :
    (∃ (s : State) (d : GReg) (a : GReg) (rid : Nat), NoStall s [d]
      ∧ NoStall s [d, a]
      ∧ s.cur.region = some rid
      ∧ (s.region rid).st = RegSt.live
      ∧ (s.region rid).holder = s.strandId
      ∧ s.cur.run = Run.ready
      ∧ s.regions = [(rid, s.region rid)])
    ∧ (∃ (s : State) (d : GReg) (a : GReg) (rid : Nat), NoStall s [d]
      ∧ NoStall s [d, a]
      ∧ s.cur.region = some rid
      ∧ (s.region rid).st = RegSt.aborted
      ∧ (s.region rid).holder = s.strandId)
    ∧ (∃ (s : State) (d : GReg) (a : GReg) (rid : Nat), NoStall s [d]
      ∧ NoStall s [d, a]
      ∧ BitVec.toNat (s.cur.read a) % 65536 = 0
      ∧ BitVec.toNat (s.cur.read a) / 65536 < 1024
      ∧ s.partHas s.curPart (BitVec.toNat (s.cur.read a) / 65536 / 32) = true
      ∧ Calm s
      ∧ s.cur.region = none
      ∧ freeSlot s s.curCluster = some rid
      ∧ (s.cluster s.curCluster).lastFrb ≠ some s.cycle)
    ∧ (∃ (s : State) (d : GReg) (a : GReg), NoStall s [d]
      ∧ NoStall s [d, a]
      ∧ s.cur.region ≠ none
      ∧ (s.core s.curCore).stores = [])
    ∧ (∃ (s : State) (d : GReg) (a : GReg), NoStall s [d]
      ∧ NoStall s [d, a]
      ∧ Calm s
      ∧ freeSlot s s.curCluster = none)
    ∧ (∃ (s : State) (d : GReg) (a : GReg) (e : BitVec 5) (rid : Nat), NoStall s [d]
      ∧ NoStall s [d, a]
      ∧ s.cur.region = some rid
      ∧ (s.region rid).st = RegSt.live
      ∧ e ≠ 0)
    ∧ (∃ (s : State) (d : GReg) (a : GReg) (rid : Nat), NoStall s [d]
      ∧ NoStall s [d, a]
      ∧ Calm s
      ∧ freeSlot s s.curCluster = some rid
      ∧ (s.cluster s.curCluster).lastFrb = some s.cycle) := by
  exact ⟨⟨regions_RegionInstructions_0, .w 1, .w 1, 3, by and_intros <;> first
        | decide +kernel
        | unfold NoStall; decide +kernel⟩,
    ⟨regions_RegionInstructions_1, .w 1, .w 1, 3, by and_intros <;> first
        | decide +kernel
        | unfold NoStall; decide +kernel⟩,
    ⟨st (r4 0x30000 1 2 3) pg, .w 1, .w 1, 0, by and_intros <;> first
        | decide +kernel
        | unfold NoStall; decide +kernel
        | (constructor <;> decide +kernel)⟩,
    ⟨regions_RegionInstructions_1, .w 1, .w 1, by and_intros <;> first
        | decide +kernel
        | unfold NoStall; decide +kernel⟩,
    ⟨regions_RegionInstructions_2, .w 1, .w 1, by and_intros <;> first
        | decide +kernel
        | unfold NoStall; decide +kernel
        | (constructor <;> decide +kernel)⟩,
    ⟨regions_RegionInstructions_0, .w 1, .w 1, 12, 3, by and_intros <;> first
        | decide +kernel
        | unfold NoStall; decide +kernel⟩,
    ⟨regions_RegionInstructions_3, .w 1, .w 1, 0, by and_intros <;> first
        | decide +kernel
        | unfold NoStall; decide +kernel
        | (constructor <;> decide +kernel)⟩⟩

/-- A state of the witnesses. -/
def regions_RegionCommits_0 : State :=
  { (st (fun t => { r4 0 1 2 3 t with run := .stall (.depth 0x100 true) }) pg) with regions := [(3, { st := .live, holder := 0, stamp := 77 })], seqs := [(0x100, [])], cycle := 100 }
/-- A state of the witnesses. -/
def regions_RegionCommits_1 : State :=
  { (st (fun t => { r4 0 1 2 3 t with region := some 3, run := .wait (.fre (.w 2)) none }) pg) with regions := [(3, { st := .aborted, holder := 0, stamp := 77, code := 9, detail := 3, abortAt := 99 })], seqs := [(0x100, [])], cycle := 100 }
/-- A state of the witnesses. -/
def regions_RegionCommits_2 : State :=
  { (st (fun t => { r4 0 1 2 3 t with region := some 3, run := .wait (.fre (.w 2)) none }) pg) with regions := [(3, { st := .waiting, holder := 0, stamp := 77, writes := [0x100] })], seqs := [(0x100, [⟨3, some [(0, 5), (31, 6)], 0x2000⟩])], cycle := 100 }
/-- Witnesses of `Regions` (part RegionCommits). -/
theorem witness_Regions_RegionCommits :
    (∃ (s : State) (sector : Nat) (n : Nat) (wr : Bool), (s.strand n).run = Run.stall (Stall.depth sector wr)
      ∧ (s.strand n).halted = false
      ∧ depthHolds s (s.strand n) sector wr = false)
    ∧ (∃ (s : State) (rid : Nat) (d : GReg) (deadline : Option Nat), (s.region rid).st = RegSt.aborted
      ∧ (s.region rid).abortAt < s.cycle
      ∧ (s.strand (s.region rid).holder).run = Run.wait (Wait.fre d) deadline
      ∧ (s.strand (s.region rid).holder).halted = false
      ∧ (s.strand (s.region rid).holder).region = some rid)
    ∧ (∃ (s : State) (rid : Nat) (sector : Nat) (va : Nat) (w : Tbl Byte) (d : GReg) (deadline : Option Nat), (s.region rid).st = RegSt.waiting
      ∧ (s.region rid).preds = []
      ∧ (s.region rid).clearAt ≤ s.cycle
      ∧ (s.region rid).writes = [sector]
      ∧ s.seqs.getD sector [] = [{ rid := rid, wrote := some w, va := va }]
      ∧ (∀ p ∈ w, p.1 < 32)
      ∧ w.sorted = true
      ∧ Memory.wf s.hbm = true
      ∧ (∀ c ∈ s.cores, ∀ b ∈ c.2.stores, b.early = [])
      ∧ (s.core (strandCore (s.region rid).holder)).stores = []
      ∧ (∀ p ∈ (s.strand (s.region rid).holder).pend, loadOf p = none)
      ∧ (s.strand (s.region rid).holder).run = Run.wait (Wait.fre d) deadline
      ∧ (s.strand (s.region rid).holder).region = some rid)
    ∧ (∃ (s : State) (rid : Nat), ((s.region rid).st ≠ RegSt.waiting ∨ (s.region rid).preds ≠ [] ∨ s.cycle < (s.region rid).clearAt)
      ∧ ((s.region rid).st ≠ RegSt.aborted ∨ s.cycle ≤ (s.region rid).abortAt)) := by
  exact ⟨⟨regions_RegionCommits_0, 0x100, 0, true, by decide +kernel⟩,
    ⟨regions_RegionCommits_1, 3, .w 2, none, by decide +kernel⟩,
    ⟨regions_RegionCommits_2, 3, 0x100, 0x2000, [(0, 5), (31, 6)], .w 2, none, by decide +kernel⟩,
    ⟨regions_RegionCommits_2, 0, by decide +kernel⟩⟩

/-- A state of the witnesses. -/
def regionAccesses_IrrevocableInstructions_0 : State :=
  st (fun t => { t with priv := true }) ({ st (fun t => { r4 0x2010 0x2004 0x55 0x2000 t with region := some 3 }) pg with regions := [(3, { st := .live, stamp := 5, holder := 0  })], seqs := [], cycle := 50  })
/-- A state of the witnesses. -/
def regionAccesses_IrrevocableInstructions_1 : State :=
  { st (fun t => { r4 0x8000000000100 0x8000000000100 0x55 0x8000000000100 t with region := some 3 }) pg with regions := [(3, { st := .live, stamp := 5, holder := 0  })], seqs := [], cycle := 50  }
/-- Witnesses of `RegionAccesses` (part IrrevocableInstructions). -/
theorem witness_RegionAccesses_IrrevocableInstructions :
    (∃ (s : State), (∀ rs, NoStall s rs)
      ∧ s.cur.region = some 3
      ∧ ((s.region 3).st = RegSt.live ∨ (s.region 3).st = RegSt.waiting)
      ∧ s.cur.priv = true)
    ∧ (∃ (s : State) (a : GReg) (b : GReg), (∀ rs, NoStall s rs)
      ∧ s.cur.region = some 3
      ∧ ((s.region 3).st = RegSt.live ∨ (s.region 3).st = RegSt.waiting)
      ∧ (decide (8 ≤ window (memAddr s.cur b 0 (StSize.bytes StSize.b8))) && window (memAddr s.cur b 0 (StSize.bytes StSize.b8)) != 14) = true
      ∧ (decide (8 ≤ window (vaOf (s.cur.read a))) && window (vaOf (s.cur.read a)) != 14) = true
      ∧ (decide (8 ≤ window (memAddr s.cur b 0 32)) && window (memAddr s.cur b 0 32) != 14) = true) := by
  exact ⟨⟨regionAccesses_IrrevocableInstructions_0, by and_intros <;> first
        | decide +kernel
        | exact noStall_all rfl⟩,
    ⟨regionAccesses_IrrevocableInstructions_1, .w 1, .w 1, by and_intros <;> first
        | decide +kernel
        | exact noStall_all rfl⟩⟩

/-- A state of the witnesses. -/
def quarry_QuarryBlocks_0 : State :=
  { st (r4 (3) (2^32+2*2^26) 0 0) with pools := [(2, { part := 0, size := 4, count := 8, base := 0x100000, free := [1,6], refs := [(5,1)], held := [5] })], sequences := [(3, ⟨2, [5]⟩)]  }
/-- A state of the witnesses. -/
def quarry_QuarryBlocks_1 : State :=
  { st (r4 (3) ((2*2^26+5)) 0 0) with pools := [(2, { part := 0, size := 4, count := 8, base := 0x100000, free := [6], refs := [(5,1)], held := [5] })], sequences := [(3, ⟨2, [5]⟩)]  }
/-- A state of the witnesses. -/
def quarry_QuarryBlocks_2 : State :=
  { st (r4 (2) (0) 0 0) with pools := [(2, { part := 0, size := 4, count := 8, base := 0x100000, free := [5,6], refs := [], held := [] })], sequences := []  }
/-- A state of the witnesses. -/
def quarry_QuarryBlocks_3 : State :=
  { st (r4 (2^30+2) (0) 0 0) with pools := [(2, { part := 0, size := 4, count := 8, base := 0x100000, free := [6], refs := [(5,1)], held := [5] })], sequences := [(3, ⟨2, [5]⟩)]  }
/-- A state of the witnesses. -/
def quarry_QuarryBlocks_4 : State :=
  { st (r4 (2^31+3) (0) 0 0) with pools := [(2, { part := 0, size := 4, count := 8, base := 0x100000, free := [6], refs := [(5,1)], held := [5] })], sequences := [(3, ⟨2, [5]⟩)]  }
/-- A state of the witnesses. -/
def quarry_QuarryBlocks_5 : State :=
  { st (r4 ((2*2^26+5)) (0) 0 0) with pools := [(2, { part := 0, size := 4, count := 8, base := 0x100000, free := [5,6], refs := [], held := [] })], sequences := []  }
/-- A state of the witnesses. -/
def quarry_QuarryBlocks_6 : State :=
  { st (r4 ((2*2^26+5)) (0) 0 0) with pools := [(2, { part := 0, size := 4, count := 8, base := 0x100000, free := [6], refs := [(5,1)], held := [5] })], sequences := []  }
/-- A state of the witnesses. -/
def quarry_QuarryBlocks_7 : State :=
  { st (r4 (3) (0) 0 0) with pools := [(2, { part := 0, size := 4, count := 8, base := 0x100000, free := [6], refs := [(5,1)], held := [5] })], sequences := [(3, ⟨2, [5]⟩)]  }
/-- A state of the witnesses. -/
def quarry_QuarryBlocks_8 : State :=
  { st (r4 (3) (2^32+2*2^26) 0 0) with pools := [(2, { part := 0, size := 4, count := 8, base := 0x100000, free := [], refs := [(5,1)], held := [5] })], sequences := [(3, ⟨2, [5]⟩)]  }
/-- A state of the witnesses. -/
def quarry_QuarryBlocks_9 : State :=
  { st (r4 ((2*2^26+5)) (0) 0 0) with pools := [(2, { part := 0, size := 4, count := 8, base := 0x100000, free := [6], refs := [(5,1)], held := [] })], sequences := []  }
/-- A state of the witnesses. -/
def quarry_QuarryBlocks_10 : State :=
  { st (r4 ((2*2^26+5)) (0) 0 0) with pools := [(2, { part := 0, size := 4, count := 8, base := 0x100000, free := [6], refs := [(5,2)], held := [5] })], sequences := []  }
/-- A state of the witnesses. -/
def quarry_QuarryBlocks_11 : State :=
  { st (r4 (2) (0) 0 0) with pools := [(2, { part := 0, size := 4, count := 8, base := 0x100000, free := [], refs := [], held := [] })], sequences := []  }
/-- Witnesses of `Quarry` (part QuarryBlocks). -/
theorem witness_Quarry_QuarryBlocks :
    (∃ (s : State) (d : GReg) (a : GReg) (b : GReg) (n : Nat) (id : Nat) (p : Pool) (q : Machine.Seq), NoStall s [d, a]
      ∧ NoStall s [d, a, b]
      ∧ Calm s
      ∧ s.pools.find n = some p
      ∧ p.part = s.curPart
      ∧ s.sequences.find id = some q
      ∧ q.pool = n
      ∧ seqOperand (s.cur.read a) = some (0, false, false, id)
      ∧ Still s
      ∧ q.blocks.length < 4096
      ∧ plainSeq (s.cur.read a) = some id
      ∧ q.blocks.length ≤ BitVec.toNat (s.cur.read b)
      ∧ BitVec.toNat (s.cur.read b) < 4096)
    ∧ (∃ (s : State) (d : GReg) (a : GReg) (b : GReg) (n : Nat) (id : Nat) (p : Pool) (q : Machine.Seq) (k : Nat) (p' : Pool), NoStall s [d, a]
      ∧ NoStall s [d, a, b]
      ∧ Calm s
      ∧ s.pools.find n = some p
      ∧ p.part = s.curPart
      ∧ s.sequences.find id = some q
      ∧ q.pool = n
      ∧ seqOperand (s.cur.read a) = some (0, false, false, id)
      ∧ freeSeq s (id / 2 ^ 17) = some k
      ∧ refAll p q.blocks = some p')
    ∧ (∃ (s : State) (d : GReg) (a : GReg) (b : GReg) (n : Nat) (i : Nat) (p : Pool) (rest : List Nat), NoStall s [d, a]
      ∧ NoStall s [d, a, b]
      ∧ Calm s
      ∧ s.pools.find n = some p
      ∧ p.part = s.curPart
      ∧ BitVec.toNat (s.cur.read a) = n
      ∧ n < 64
      ∧ p.free = i :: rest)
    ∧ (∃ (s : State) (d : GReg) (a : GReg) (b : GReg) (n : Nat) (p : Pool) (k : Nat), NoStall s [d, a]
      ∧ NoStall s [d, a, b]
      ∧ Calm s
      ∧ s.pools.find n = some p
      ∧ p.part = s.curPart
      ∧ seqOperand (s.cur.read a) = some (0, false, true, n)
      ∧ n < 64
      ∧ freeSeq s (n / 8) = some k)
    ∧ (∃ (s : State) (d : GReg) (a : GReg) (b : GReg) (n : Nat) (i : Nat) (id : Nat) (p : Pool) (q : Machine.Seq) (rest : List Nat), NoStall s [d, a]
      ∧ NoStall s [d, a, b]
      ∧ Calm s
      ∧ s.pools.find n = some p
      ∧ p.part = s.curPart
      ∧ s.sequences.find id = some q
      ∧ q.pool = n
      ∧ q.blocks.length < 4096
      ∧ plainSeq (s.cur.read a) = some id
      ∧ blockOperand (s.cur.read b) = some (true, n, 0)
      ∧ p.free = i :: rest)
    ∧ (∃ (s : State) (d : GReg) (a : GReg) (b : GReg) (n : Nat) (id : Nat) (p : Pool) (q : Machine.Seq) (keep : Nat), NoStall s [d, a]
      ∧ NoStall s [d, a, b]
      ∧ Calm s
      ∧ s.pools.find n = some p
      ∧ p.part = s.curPart
      ∧ s.sequences.find id = some q
      ∧ q.pool = n
      ∧ Still s
      ∧ keep ≤ 4096
      ∧ seqOperand (s.cur.read a) = some (keep, true, false, id))
    ∧ (∃ (s : State) (d : GReg) (a : GReg) (b : GReg) (n : Nat) (i : Nat) (p : Pool), NoStall s [d, a]
      ∧ NoStall s [d, a, b]
      ∧ Calm s
      ∧ s.pools.find n = some p
      ∧ p.part = s.curPart
      ∧ blockOperand (s.cur.read a) = some (false, n, i)
      ∧ p.refs.getD i 0 = 0)
    ∧ (∃ (s : State) (d : GReg) (a : GReg) (b : GReg) (n : Nat) (i : Nat) (p : Pool), NoStall s [d, a]
      ∧ NoStall s [d, a, b]
      ∧ Calm s
      ∧ s.pools.find n = some p
      ∧ p.part = s.curPart
      ∧ blockOperand (s.cur.read a) = some (false, n, i)
      ∧ p.refs.getD i 0 = 1
      ∧ i ∈ p.held
      ∧ p.refs.sorted = true
      ∧ p.refs.getD i 0 ≠ 0)
    ∧ (∃ (s : State) (d : GReg) (a : GReg) (b : GReg) (n : Nat) (i : Nat) (id : Nat) (p : Pool) (q : Machine.Seq), NoStall s [d, a]
      ∧ NoStall s [d, a, b]
      ∧ Calm s
      ∧ s.pools.find n = some p
      ∧ p.part = s.curPart
      ∧ s.sequences.find id = some q
      ∧ q.pool = n
      ∧ q.blocks.length < 4096
      ∧ plainSeq (s.cur.read a) = some id
      ∧ BitVec.toNat (s.cur.read b) < q.blocks.length
      ∧ q.blocks[BitVec.toNat (s.cur.read b)]? = some i)
    ∧ (∃ (s : State) (d : GReg) (a : GReg) (b : GReg) (n : Nat) (id : Nat) (p : Pool) (q : Machine.Seq), NoStall s [d, a]
      ∧ NoStall s [d, a, b]
      ∧ Calm s
      ∧ s.pools.find n = some p
      ∧ p.part = s.curPart
      ∧ s.sequences.find id = some q
      ∧ q.pool = n
      ∧ q.blocks.length < 4096
      ∧ plainSeq (s.cur.read a) = some id
      ∧ blockOperand (s.cur.read b) = some (true, n, 0)
      ∧ p.free = [])
    ∧ (∃ (s : State) (d : GReg) (a : GReg) (b : GReg) (n : Nat) (i : Nat) (p : Pool), NoStall s [d, a]
      ∧ NoStall s [d, a, b]
      ∧ Calm s
      ∧ s.pools.find n = some p
      ∧ p.part = s.curPart
      ∧ blockOperand (s.cur.read a) = some (false, n, i)
      ∧ p.refs.getD i 0 ≠ 0
      ∧ i ∉ p.held)
    ∧ (∃ (s : State) (d : GReg) (a : GReg) (b : GReg) (n : Nat) (i : Nat) (p : Pool), NoStall s [d, a]
      ∧ NoStall s [d, a, b]
      ∧ Calm s
      ∧ s.pools.find n = some p
      ∧ p.part = s.curPart
      ∧ blockOperand (s.cur.read a) = some (false, n, i)
      ∧ 1 < p.refs.getD i 0
      ∧ i ∈ p.held)
    ∧ (∃ (s : State) (d : GReg) (a : GReg) (b : GReg) (n : Nat) (p : Pool), NoStall s [d, a]
      ∧ NoStall s [d, a, b]
      ∧ Calm s
      ∧ s.pools.find n = some p
      ∧ p.part = s.curPart
      ∧ BitVec.toNat (s.cur.read a) = n
      ∧ n < 64
      ∧ p.free = [])
    ∧ (∃ (s : State) (d : GReg) (a : GReg) (b : GReg) (n : Nat) (i : Nat) (id : Nat) (p : Pool) (q : Machine.Seq), NoStall s [d, a]
      ∧ NoStall s [d, a, b]
      ∧ Calm s
      ∧ s.pools.find n = some p
      ∧ p.part = s.curPart
      ∧ s.sequences.find id = some q
      ∧ q.pool = n
      ∧ q.blocks.length < 4096
      ∧ plainSeq (s.cur.read a) = some id
      ∧ blockOperand (s.cur.read b) = some (false, n, i)
      ∧ 0 < p.refs.getD i 0
      ∧ p.refs.getD i 0 < 65535) := by
  exact ⟨⟨quarry_QuarryBlocks_0, .w 1, .w 1, .w 1, 2, 3, { part := 0, size := 4, count := 8, base := 0x100000, free := [1,6], refs := [(5,1)], held := [5] }, ⟨2,[5]⟩, by and_intros <;> first
        | decide +kernel
        | unfold NoStall; decide +kernel
        | (constructor <;> decide +kernel)⟩,
    ⟨quarry_QuarryBlocks_1, .w 1, .w 1, .w 1, 2, 3, { part := 0, size := 4, count := 8, base := 0x100000, free := [6], refs := [(5,1)], held := [5] }, ⟨2,[5]⟩, 0, { part := 0, size := 4, count := 8, base := 0x100000, free := [6], refs := [(5,2)], held := [5] }, by and_intros <;> first
        | decide +kernel
        | unfold NoStall; decide +kernel
        | (constructor <;> decide +kernel)⟩,
    ⟨quarry_QuarryBlocks_2, .w 1, .w 1, .w 1, 2, 5, { part := 0, size := 4, count := 8, base := 0x100000, free := [5,6], refs := [], held := [] }, [6], by and_intros <;> first
        | decide +kernel
        | unfold NoStall; decide +kernel
        | (constructor <;> decide +kernel)⟩,
    ⟨quarry_QuarryBlocks_3, .w 1, .w 1, .w 1, 2, { part := 0, size := 4, count := 8, base := 0x100000, free := [6], refs := [(5,1)], held := [5] }, 0, by and_intros <;> first
        | decide +kernel
        | unfold NoStall; decide +kernel
        | (constructor <;> decide +kernel)⟩,
    ⟨quarry_QuarryBlocks_0, .w 1, .w 1, .w 2, 2, 1, 3, { part := 0, size := 4, count := 8, base := 0x100000, free := [1,6], refs := [(5,1)], held := [5] }, ⟨2,[5]⟩, [6], by and_intros <;> first
        | decide +kernel
        | unfold NoStall; decide +kernel
        | (constructor <;> decide +kernel)⟩,
    ⟨quarry_QuarryBlocks_4, .w 1, .w 1, .w 1, 2, 3, { part := 0, size := 4, count := 8, base := 0x100000, free := [6], refs := [(5,1)], held := [5] }, ⟨2,[5]⟩, 0, by and_intros <;> first
        | decide +kernel
        | unfold NoStall; decide +kernel
        | (constructor <;> decide +kernel)⟩,
    ⟨quarry_QuarryBlocks_5, .w 1, .w 1, .w 1, 2, 5, { part := 0, size := 4, count := 8, base := 0x100000, free := [5,6], refs := [], held := [] }, by and_intros <;> first
        | decide +kernel
        | unfold NoStall; decide +kernel
        | (constructor <;> decide +kernel)⟩,
    ⟨quarry_QuarryBlocks_6, .w 1, .w 1, .w 1, 2, 5, { part := 0, size := 4, count := 8, base := 0x100000, free := [6], refs := [(5,1)], held := [5] }, by and_intros <;> first
        | decide +kernel
        | unfold NoStall; decide +kernel
        | (constructor <;> decide +kernel)⟩,
    ⟨quarry_QuarryBlocks_7, .w 1, .w 1, .w 2, 2, 5, 3, { part := 0, size := 4, count := 8, base := 0x100000, free := [6], refs := [(5,1)], held := [5] }, ⟨2,[5]⟩, by and_intros <;> first
        | decide +kernel
        | unfold NoStall; decide +kernel
        | (constructor <;> decide +kernel)⟩,
    ⟨quarry_QuarryBlocks_8, .w 1, .w 1, .w 2, 2, 3, { part := 0, size := 4, count := 8, base := 0x100000, free := [], refs := [(5,1)], held := [5] }, ⟨2,[5]⟩, by and_intros <;> first
        | decide +kernel
        | unfold NoStall; decide +kernel
        | (constructor <;> decide +kernel)⟩,
    ⟨quarry_QuarryBlocks_9, .w 1, .w 1, .w 1, 2, 5, { part := 0, size := 4, count := 8, base := 0x100000, free := [6], refs := [(5,1)], held := [] }, by and_intros <;> first
        | decide +kernel
        | unfold NoStall; decide +kernel
        | (constructor <;> decide +kernel)⟩,
    ⟨quarry_QuarryBlocks_10, .w 1, .w 1, .w 1, 2, 5, { part := 0, size := 4, count := 8, base := 0x100000, free := [6], refs := [(5,2)], held := [5] }, by and_intros <;> first
        | decide +kernel
        | unfold NoStall; decide +kernel
        | (constructor <;> decide +kernel)⟩,
    ⟨quarry_QuarryBlocks_11, .w 1, .w 1, .w 1, 2, { part := 0, size := 4, count := 8, base := 0x100000, free := [], refs := [], held := [] }, by and_intros <;> first
        | decide +kernel
        | unfold NoStall; decide +kernel
        | (constructor <;> decide +kernel)⟩,
    ⟨quarry_QuarryBlocks_1, .w 1, .w 1, .w 2, 2, 5, 3, { part := 0, size := 4, count := 8, base := 0x100000, free := [6], refs := [(5,1)], held := [5] }, ⟨2,[5]⟩, by and_intros <;> first
        | decide +kernel
        | unfold NoStall; decide +kernel
        | (constructor <;> decide +kernel)⟩⟩

/-- A helper of the witnesses. -/
def pkey : List Byte := (List.range 16).map (fun i => BitVec.ofNat 8 (i+1)) ++ [4,0,0,0]
/-- A helper of the witnesses. -/
def phdr : List Byte := (List.range 64).map fun i => BitVec.ofNat 8 (i+100)
/-- A helper of the witnesses. -/
def prec : List Byte := pkey ++ List.replicate 12 0 ++ phdr
/-- A helper of the witnesses. -/
def pgP (s : State) : State := { (s.setCore 0 { tlb := [openEntry 0 0x1000] }) with hbm := Mem.putBytes [] 0x2000 prec }
/-- A state of the witnesses. -/
def quarry_PrefixIndex_0 : State :=
  pgP ({ st (r4 0x2000 (2^32+2*2^26+5) 0 0) with pools := [(2, { part := 0, size := 65536, count := 8, base := 0x100000, free := [6], refs := [(5,1)], held := [5] })], sequences := [], prefixes := [(0, [⟨pkey, phdr, 2*2^26+5⟩])] })
/-- A state of the witnesses. -/
def quarry_PrefixIndex_1 : State :=
  pgP ({ st (r4 0x2000 ((2*2^26+5)) 0 0) with pools := [(2, { part := 0, size := 65536, count := 8, base := 0x100000, free := [6], refs := [(5,1)], held := [5] })], sequences := [], prefixes := [(0, [⟨pkey, phdr, 2*2^26+5⟩])] })
/-- A state of the witnesses. -/
def quarry_PrefixIndex_2 : State :=
  pgP ({ st (r4 0x2000 (3) 0 0) with pools := [(2, { part := 0, size := 65536, count := 8, base := 0x100000, free := [6], refs := [(5,1)], held := [5] })], sequences := [(3, ⟨2, [5]⟩)], prefixes := [(0, [⟨pkey, phdr, 2*2^26+5⟩])] })
/-- A state of the witnesses. -/
def quarry_PrefixIndex_3 : State :=
  pgP ({ st (r4 0x2000 (3) 0 0) with pools := [(2, { part := 0, size := 65536, count := 8, base := 0x100000, free := [6], refs := [(5,1)], held := [5] })], sequences := [(3, ⟨2, [5]⟩)], prefixes := [(0, [⟨pkey, (phdr.map (· + 1)), 2*2^26+5⟩])] })
/-- A state of the witnesses. -/
def quarry_PrefixIndex_4 : State :=
  pgP ({ st (r4 0x2000 (3) 0 0) with pools := [(2, { part := 0, size := 65536, count := 8, base := 0x100000, free := [6], refs := [(5,1)], held := [5] })], sequences := [(3, ⟨2, [5]⟩)], prefixes := [] })
/-- A state of the witnesses. -/
def quarry_PrefixIndex_5 : State :=
  pgP ({ st (r4 0x2000 ((2*2^26+5)) 0 0) with pools := [(2, { part := 0, size := 65536, count := 8, base := 0x100000, free := [6], refs := [(5,1)], held := [5] })], sequences := [], prefixes := [] })
/-- Witnesses of `Quarry` (part PrefixIndex). -/
theorem witness_Quarry_PrefixIndex :
    (∃ (s : State) (d : GReg) (a : GReg) (va' : Nat) (s' : State) (b : GReg) (n : Nat) (i : Nat) (p : Pool) (e : PrefixEnt), NoStall s [d, a, b]
      ∧ Calm s
      ∧ vaOf (s.cur.read a) % 32 = 0
      ∧ readPieces s (vaOf (s.cur.read a)) 32 3 [] = (va', Access.value s' prec)
      ∧ s.cur.got = []
      ∧ s'.strandId = s.strandId
      ∧ s'.cur = s.cur
      ∧ (s'.core s'.curCore).stores = []
      ∧ (∀ c ∈ s'.cores, ∀ b ∈ c.2.stores, b.early = [])
      ∧ prefixRecord prec = some (pkey, phdr)
      ∧ s'.pools.find n = some p
      ∧ p.part = s'.curPart
      ∧ i < 2 ^ 24
      ∧ p.refs.getD i 0 ≠ 0
      ∧ blockOperand (s.cur.read b) = some (true, n, i)
      ∧ List.find? (fun e => e.key == pkey) (s'.prefixes.getD (n / 8) []) = some e
      ∧ e.block = n * 2 ^ 26 + i)
    ∧ (∃ (s : State) (d : GReg) (a : GReg) (va' : Nat) (s' : State) (b : GReg) (n : Nat) (i : Nat) (p : Pool) (e : PrefixEnt), NoStall s [d, a, b]
      ∧ Calm s
      ∧ vaOf (s.cur.read a) % 32 = 0
      ∧ readPieces s (vaOf (s.cur.read a)) 32 3 [] = (va', Access.value s' prec)
      ∧ s.cur.got = []
      ∧ s'.strandId = s.strandId
      ∧ s'.cur = s.cur
      ∧ (s'.core s'.curCore).stores = []
      ∧ (∀ c ∈ s'.cores, ∀ b ∈ c.2.stores, b.early = [])
      ∧ prefixRecord prec = some (pkey, phdr)
      ∧ s'.pools.find n = some p
      ∧ p.part = s'.curPart
      ∧ i < 2 ^ 24
      ∧ p.refs.getD i 0 ≠ 0
      ∧ blockOperand (s.cur.read b) = some (false, n, i)
      ∧ List.find? (fun e => e.key == pkey) (s'.prefixes.getD (n / 8) []) = some e)
    ∧ (∃ (s : State) (d : GReg) (a : GReg) (va' : Nat) (s' : State) (b : GReg) (n : Nat) (i : Nat) (id : Nat) (p : Pool) (q : Machine.Seq) (e : PrefixEnt), NoStall s [d, a, b]
      ∧ Calm s
      ∧ vaOf (s.cur.read a) % 32 = 0
      ∧ readPieces s (vaOf (s.cur.read a)) 32 3 [] = (va', Access.value s' prec)
      ∧ s.cur.got = []
      ∧ s'.strandId = s.strandId
      ∧ s'.cur = s.cur
      ∧ (s'.core s'.curCore).stores = []
      ∧ (∀ c ∈ s'.cores, ∀ b ∈ c.2.stores, b.early = [])
      ∧ prefixRecord prec = some (pkey, phdr)
      ∧ s'.pools.find n = some p
      ∧ p.part = s'.curPart
      ∧ i < 2 ^ 24
      ∧ p.refs.getD i 0 ≠ 0
      ∧ BitVec.toNat (s.cur.read b) = id
      ∧ id < 2 ^ 20
      ∧ s'.sequences.find id = some q
      ∧ q.pool = n
      ∧ id / 2 ^ 17 = n / 8
      ∧ List.find? (fun e => e.key == pkey) (s'.prefixes.getD (n / 8) []) = some e
      ∧ e.block = n * 2 ^ 26 + i
      ∧ q.blocks.length < 4096
      ∧ p.refs.getD i 0 < 65535
      ∧ e.hdr = phdr)
    ∧ (∃ (s : State) (d : GReg) (a : GReg) (va' : Nat) (s' : State) (b : GReg) (n : Nat) (i : Nat) (id : Nat) (p : Pool) (q : Machine.Seq) (e : PrefixEnt), NoStall s [d, a, b]
      ∧ Calm s
      ∧ vaOf (s.cur.read a) % 32 = 0
      ∧ readPieces s (vaOf (s.cur.read a)) 32 3 [] = (va', Access.value s' prec)
      ∧ s.cur.got = []
      ∧ s'.strandId = s.strandId
      ∧ s'.cur = s.cur
      ∧ (s'.core s'.curCore).stores = []
      ∧ (∀ c ∈ s'.cores, ∀ b ∈ c.2.stores, b.early = [])
      ∧ prefixRecord prec = some (pkey, phdr)
      ∧ s'.pools.find n = some p
      ∧ p.part = s'.curPart
      ∧ i < 2 ^ 24
      ∧ p.refs.getD i 0 ≠ 0
      ∧ BitVec.toNat (s.cur.read b) = id
      ∧ id < 2 ^ 20
      ∧ s'.sequences.find id = some q
      ∧ q.pool = n
      ∧ id / 2 ^ 17 = n / 8
      ∧ List.find? (fun e => e.key == pkey) (s'.prefixes.getD (n / 8) []) = some e
      ∧ e.block = n * 2 ^ 26 + i
      ∧ q.blocks.length < 4096
      ∧ p.refs.getD i 0 < 65535
      ∧ e.hdr ≠ phdr)
    ∧ (∃ (s : State) (d : GReg) (a : GReg) (va' : Nat) (s' : State) (b : GReg) (n : Nat) (i : Nat) (id : Nat) (p : Pool) (q : Machine.Seq), NoStall s [d, a, b]
      ∧ Calm s
      ∧ vaOf (s.cur.read a) % 32 = 0
      ∧ readPieces s (vaOf (s.cur.read a)) 32 3 [] = (va', Access.value s' prec)
      ∧ s.cur.got = []
      ∧ s'.strandId = s.strandId
      ∧ s'.cur = s.cur
      ∧ (s'.core s'.curCore).stores = []
      ∧ (∀ c ∈ s'.cores, ∀ b ∈ c.2.stores, b.early = [])
      ∧ prefixRecord prec = some (pkey, phdr)
      ∧ s'.pools.find n = some p
      ∧ p.part = s'.curPart
      ∧ i < 2 ^ 24
      ∧ p.refs.getD i 0 ≠ 0
      ∧ BitVec.toNat (s.cur.read b) = id
      ∧ id < 2 ^ 20
      ∧ s'.sequences.find id = some q
      ∧ q.pool = n
      ∧ id / 2 ^ 17 = n / 8
      ∧ List.find? (fun e => e.key == pkey) (s'.prefixes.getD (n / 8) []) = none)
    ∧ (∃ (s : State) (d : GReg) (a : GReg) (va' : Nat) (s' : State) (b : GReg) (n : Nat) (i : Nat) (p : Pool), NoStall s [d, a, b]
      ∧ Calm s
      ∧ vaOf (s.cur.read a) % 32 = 0
      ∧ readPieces s (vaOf (s.cur.read a)) 32 3 [] = (va', Access.value s' prec)
      ∧ s.cur.got = []
      ∧ s'.strandId = s.strandId
      ∧ s'.cur = s.cur
      ∧ (s'.core s'.curCore).stores = []
      ∧ (∀ c ∈ s'.cores, ∀ b ∈ c.2.stores, b.early = [])
      ∧ prefixRecord prec = some (pkey, phdr)
      ∧ s'.pools.find n = some p
      ∧ p.part = s'.curPart
      ∧ i < 2 ^ 24
      ∧ p.refs.getD i 0 ≠ 0
      ∧ blockOperand (s.cur.read b) = some (false, n, i)
      ∧ List.find? (fun e => e.key == pkey) (s'.prefixes.getD (n / 8) []) = none
      ∧ (s'.prefixes.getD (n / 8) []).length < 262144
      ∧ p.refs.getD i 0 < 65535) := by
  exact ⟨⟨quarry_PrefixIndex_0, .w 1, .w 1, (readPieces (quarry_PrefixIndex_0) (vaOf ((quarry_PrefixIndex_0).cur.read (.w 1))) 32 3 []).1, valueState (readPieces (quarry_PrefixIndex_0) (vaOf ((quarry_PrefixIndex_0).cur.read (.w 1))) 32 3 []), .w 2, 2, 5, { part := 0, size := 65536, count := 8, base := 0x100000, free := [6], refs := [(5,1)], held := [5] }, ⟨pkey, phdr, 2*2^26+5⟩, by and_intros <;> first
        | decide +kernel
        | unfold NoStall; decide +kernel
        | (constructor <;> decide +kernel)
        | exact gives_eq (by decide +kernel)⟩,
    ⟨quarry_PrefixIndex_1, .w 1, .w 1, (readPieces (quarry_PrefixIndex_1) (vaOf ((quarry_PrefixIndex_1).cur.read (.w 1))) 32 3 []).1, valueState (readPieces (quarry_PrefixIndex_1) (vaOf ((quarry_PrefixIndex_1).cur.read (.w 1))) 32 3 []), .w 2, 2, 5, { part := 0, size := 65536, count := 8, base := 0x100000, free := [6], refs := [(5,1)], held := [5] }, Option.get (List.find? (fun e => e.key == pkey) ((valueState (readPieces (quarry_PrefixIndex_1) (vaOf ((quarry_PrefixIndex_1).cur.read (.w 1))) 32 3 [])).prefixes.getD ((2) / 8) [])) (by decide +kernel), by and_intros <;> first
        | decide +kernel
        | unfold NoStall; decide +kernel
        | (constructor <;> decide +kernel)
        | exact gives_eq (by decide +kernel)⟩,
    ⟨quarry_PrefixIndex_2, .w 1, .w 1, (readPieces (quarry_PrefixIndex_2) (vaOf ((quarry_PrefixIndex_2).cur.read (.w 1))) 32 3 []).1, valueState (readPieces (quarry_PrefixIndex_2) (vaOf ((quarry_PrefixIndex_2).cur.read (.w 1))) 32 3 []), .w 2, 2, 5, 3, { part := 0, size := 65536, count := 8, base := 0x100000, free := [6], refs := [(5,1)], held := [5] }, ⟨2,[5]⟩, Option.get (List.find? (fun e => e.key == pkey) ((valueState (readPieces (quarry_PrefixIndex_2) (vaOf ((quarry_PrefixIndex_2).cur.read (.w 1))) 32 3 [])).prefixes.getD ((2) / 8) [])) (by decide +kernel), by and_intros <;> first
        | decide +kernel
        | unfold NoStall; decide +kernel
        | (constructor <;> decide +kernel)
        | exact gives_eq (by decide +kernel)⟩,
    ⟨quarry_PrefixIndex_3, .w 1, .w 1, (readPieces (quarry_PrefixIndex_3) (vaOf ((quarry_PrefixIndex_3).cur.read (.w 1))) 32 3 []).1, valueState (readPieces (quarry_PrefixIndex_3) (vaOf ((quarry_PrefixIndex_3).cur.read (.w 1))) 32 3 []), .w 2, 2, 5, 3, { part := 0, size := 65536, count := 8, base := 0x100000, free := [6], refs := [(5,1)], held := [5] }, ⟨2,[5]⟩, Option.get (List.find? (fun e => e.key == pkey) ((valueState (readPieces (quarry_PrefixIndex_3) (vaOf ((quarry_PrefixIndex_3).cur.read (.w 1))) 32 3 [])).prefixes.getD ((2) / 8) [])) (by decide +kernel), by and_intros <;> first
        | decide +kernel
        | unfold NoStall; decide +kernel
        | (constructor <;> decide +kernel)
        | exact gives_eq (by decide +kernel)⟩,
    ⟨quarry_PrefixIndex_4, .w 1, .w 1, (readPieces (quarry_PrefixIndex_4) (vaOf ((quarry_PrefixIndex_4).cur.read (.w 1))) 32 3 []).1, valueState (readPieces (quarry_PrefixIndex_4) (vaOf ((quarry_PrefixIndex_4).cur.read (.w 1))) 32 3 []), .w 2, 2, 5, 3, { part := 0, size := 65536, count := 8, base := 0x100000, free := [6], refs := [(5,1)], held := [5] }, ⟨2,[5]⟩, by and_intros <;> first
        | decide +kernel
        | unfold NoStall; decide +kernel
        | (constructor <;> decide +kernel)
        | exact gives_eq (by decide +kernel)⟩,
    ⟨quarry_PrefixIndex_5, .w 1, .w 1, (readPieces (quarry_PrefixIndex_5) (vaOf ((quarry_PrefixIndex_5).cur.read (.w 1))) 32 3 []).1, valueState (readPieces (quarry_PrefixIndex_5) (vaOf ((quarry_PrefixIndex_5).cur.read (.w 1))) 32 3 []), .w 2, 2, 5, { part := 0, size := 65536, count := 8, base := 0x100000, free := [6], refs := [(5,1)], held := [5] }, by and_intros <;> first
        | decide +kernel
        | unfold NoStall; decide +kernel
        | (constructor <;> decide +kernel)
        | exact gives_eq (by decide +kernel)⟩⟩

/-- A state of the witnesses. -/
def translations_0 : State :=
  st (fun t => { t with priv := true, run := .stall (.tlb 0x40000 false) }) (treed base)
/-- A state of the witnesses. -/
def translations_1 : State :=
  st (fun t => { t with priv := true, run := .stall (.tlb 0x70000 false) }) (treed base)
/-- A state of the witnesses. -/
def translations_2 : State :=
  (st (fun t => { r4 (0x40000 + 3 * 2^62) (BitVec.ofNat 64 (leafTo 0x200000 0x3F)) 0 0 t with priv := true }) { (base.setCore 0 { tlb := [openEntry 0 0x40000, openEntry 0 0x60000] }) with clusters := [(2, { tlb := [openEntry 0 0x40000] })]  })
/-- A state of the witnesses. -/
def translations_3 : State :=
  (st (fun t => { r4 (0x40000 + 2^63) (BitVec.ofNat 64 (leafTo 0x200000 0x3F)) 0 0 t with priv := true }) { (base.setCore 0 { tlb := [openEntry 0 0x40000, openEntry 0 0x60000] }) with clusters := [(2, { tlb := [openEntry 0 0x40000] })]  })
/-- A state of the witnesses. -/
def translations_4 : State :=
  (st (fun t => { r4 (0x40000) (BitVec.ofNat 64 (leafTo 0x200000 0x3F)) 0 0 t with priv := true }) { (base.setCore 0 { tlb := [openEntry 0 0x40000, openEntry 0 0x60000] }) with clusters := [(2, { tlb := [openEntry 0 0x40000] })]  })
/-- A state of the witnesses. -/
def translations_5 : State :=
  (st (fun t => { r4 (0x40000 + 2^63) (BitVec.ofNat 64 (leafTo 0x200000 0x3F)) 0 0 t with priv := true }) { (base.setCore 0 { tlb := [openEntry 0 0x40000, openEntry 0 0x60000] }) with clusters := [(2, { tlb := [openEntry 0 0x40000] })] , ops := [(5, { kind := .copy, strand := 0, task := 7, part := 0, sink := 0, launch := 0, tok := 3, a := 0x40000, b := 0x2000, c := 0, size := 32, count := 4, away := true })] })
/-- A state of the witnesses. -/
def translations_6 : State :=
  (st (fun t => { r4 (0x40000) (BitVec.ofNat 64 (leafTo 0x210000 0xBF)) 0 0 t with priv := true }) { (base.setCore 0 { tlb := [openEntry 0 0x40000, openEntry 0 0x60000] }) with clusters := [(2, { tlb := [openEntry 0 0x40000] })]  })
/-- Witnesses of `Translations`. -/
theorem witness_Translations :
    (∃ (s : State) (d : GReg) (a : GReg) (b : GReg) (id : Nat) (m : Nat) (fetch : Bool) (w : Nat) (lv : Nat) (pa : Nat), NoStall s [d, a, b]
      ∧ NoStall s [d, a]
      ∧ s.cur.priv = true
      ∧ Calm s
      ∧ (s.strand id).run = Run.stall (Stall.tlb m fetch)
      ∧ walk s (s.strandPart id) m = Walked.leaf w lv pa
      ∧ leafKind w ≠ 2
      ∧ ((s.strand id).halted = false ∨ (s.core (strandCore id)).tlb.any (entryHits (s.strandPart id) m) = false))
    ∧ (∃ (s : State) (d : GReg) (a : GReg) (b : GReg) (id : Nat) (m : Nat) (fetch : Bool), NoStall s [d, a, b]
      ∧ NoStall s [d, a]
      ∧ s.cur.priv = true
      ∧ Calm s
      ∧ (s.strand id).run = Run.stall (Stall.tlb m fetch)
      ∧ walk s (s.strandPart id) m = Walked.none
      ∧ (s.strand id).halted = false)
    ∧ (∃ (s : State) (d : GReg) (a : GReg) (b : GReg), NoStall s [d, a, b]
      ∧ NoStall s [d, a]
      ∧ s.cur.priv = true
      ∧ Calm s
      ∧ (decide (BitVec.toNat (s.cur.read a) / 2 ^ 52 % 2 ^ 10 ≠ 0 ∨ BitVec.toNat (s.cur.read a) / 2 ^ 62 = 3 ∨ BitVec.toNat (s.cur.read a) / 2 ^ 62 < 2 ∧ 8 ≤ window (vaOf (s.cur.read a))) = true)
      ∧ invWaits s (s.cur.read a) = false)
    ∧ (∃ (s : State) (d : GReg) (a : GReg) (b : GReg), NoStall s [d, a, b]
      ∧ NoStall s [d, a]
      ∧ s.cur.priv = true
      ∧ Calm s
      ∧ (¬decide (BitVec.toNat (s.cur.read a) / 2 ^ 52 % 2 ^ 10 ≠ 0 ∨ BitVec.toNat (s.cur.read a) / 2 ^ 62 = 3 ∨ BitVec.toNat (s.cur.read a) / 2 ^ 62 < 2 ∧ 8 ≤ window (vaOf (s.cur.read a))) = true)
      ∧ BitVec.toNat (s.cur.read a) / 2 ^ 62 ≠ 0
      ∧ invWaits s (s.cur.read a) = false
      ∧ Still s)
    ∧ (∃ (s : State) (d : GReg) (a : GReg) (b : GReg), NoStall s [d, a, b]
      ∧ NoStall s [d, a]
      ∧ s.cur.priv = true
      ∧ Calm s
      ∧ (decide (window (vaOf (s.cur.read a)) < 8 ∧ vaOf (s.cur.read a) % 2 ^ szBits (leafSz (BitVec.toNat (s.cur.read b))) = 0 ∧ (BitVec.toNat (s.cur.read b)).testBit 0 = true ∧ (BitVec.toNat (s.cur.read b)).testBit 1 = true ∧ leafMalformed s s.curPart (vaOf (s.cur.read a)) (BitVec.toNat (s.cur.read b)) (szLevel (leafSz (BitVec.toNat (s.cur.read b)))) = false) = true)
      ∧ leafKind (BitVec.toNat (s.cur.read b)) ≠ 2)
    ∧ (∃ (s : State) (d : GReg) (a : GReg) (b : GReg), NoStall s [d, a, b]
      ∧ NoStall s [d, a]
      ∧ s.cur.priv = true
      ∧ Calm s
      ∧ (¬decide (window (vaOf (s.cur.read a)) < 8 ∧ vaOf (s.cur.read a) % 2 ^ szBits (leafSz (BitVec.toNat (s.cur.read b))) = 0 ∧ (BitVec.toNat (s.cur.read b)).testBit 0 = true ∧ (BitVec.toNat (s.cur.read b)).testBit 1 = true ∧ leafMalformed s s.curPart (vaOf (s.cur.read a)) (BitVec.toNat (s.cur.read b)) (szLevel (leafSz (BitVec.toNat (s.cur.read b)))) = false) = true)
      ∧ (¬decide (BitVec.toNat (s.cur.read a) / 2 ^ 52 % 2 ^ 10 ≠ 0 ∨ BitVec.toNat (s.cur.read a) / 2 ^ 62 = 3 ∨ BitVec.toNat (s.cur.read a) / 2 ^ 62 < 2 ∧ 8 ≤ window (vaOf (s.cur.read a))) = true)
      ∧ BitVec.toNat (s.cur.read a) / 2 ^ 62 = 0)
    ∧ (∃ (s : State) (d : GReg) (a : GReg) (b : GReg), NoStall s [d, a, b]
      ∧ NoStall s [d, a]
      ∧ s.cur.priv = true
      ∧ Calm s
      ∧ invWaits s (s.cur.read a) = true)
    ∧ (∃ (s : State) (d : GReg) (a : GReg) (b : GReg), NoStall s [d, a, b]
      ∧ NoStall s [d, a]
      ∧ s.cur.priv = true
      ∧ Calm s
      ∧ (decide (window (vaOf (s.cur.read a)) < 8 ∧ vaOf (s.cur.read a) % 2 ^ szBits (leafSz (BitVec.toNat (s.cur.read b))) = 0 ∧ (BitVec.toNat (s.cur.read b)).testBit 0 = true ∧ (BitVec.toNat (s.cur.read b)).testBit 1 = true ∧ leafMalformed s s.curPart (vaOf (s.cur.read a)) (BitVec.toNat (s.cur.read b)) (szLevel (leafSz (BitVec.toNat (s.cur.read b)))) = false) = true)
      ∧ leafKind (BitVec.toNat (s.cur.read b)) = 2) := by
  exact ⟨⟨translations_0, .w 1, .w 1, .w 1, 0, 0x40000, false, leafTo 0x200000 0x3F, 0, 0x130020, by and_intros <;> first
        | decide +kernel
        | unfold NoStall; decide +kernel
        | (constructor <;> decide +kernel)⟩,
    ⟨translations_1, .w 1, .w 1, .w 1, 0, 0x70000, false, by and_intros <;> first
        | decide +kernel
        | unfold NoStall; decide +kernel
        | (constructor <;> decide +kernel)⟩,
    ⟨translations_2, .w 1, .w 1, .w 1, by and_intros <;> first
        | decide +kernel
        | unfold NoStall; decide +kernel
        | (constructor <;> decide +kernel)⟩,
    ⟨translations_3, .w 1, .w 1, .w 1, by and_intros <;> first
        | decide +kernel
        | unfold NoStall; decide +kernel
        | (constructor <;> decide +kernel)⟩,
    ⟨translations_4, .w 1, .w 1, .w 2, by and_intros <;> first
        | decide +kernel
        | unfold NoStall; decide +kernel
        | (constructor <;> decide +kernel)⟩,
    ⟨translations_4, .w 1, .w 1, .w 1, by and_intros <;> first
        | decide +kernel
        | unfold NoStall; decide +kernel
        | (constructor <;> decide +kernel)⟩,
    ⟨translations_5, .w 1, .w 1, .w 1, by and_intros <;> first
        | decide +kernel
        | unfold NoStall; decide +kernel
        | (constructor <;> decide +kernel)⟩,
    ⟨translations_6, .w 1, .w 1, .w 2, by and_intros <;> first
        | decide +kernel
        | unfold NoStall; decide +kernel
        | (constructor <;> decide +kernel)⟩⟩

/-- A helper of the witnesses. -/
def m0 (addr v : Nat) : HostMsg := { magic := 0x4F5A, ver := 1, part := 0, stream := 3, seq := 1, ackn := 0, tag := 9, addr := addr, payload := leBytes 8 v }
/-- A helper of the witnesses. -/
def swp (rcd : List Byte) (f : State → State := id) : State :=
  let t := treed base
  f { t with swapNext := 4, cycle := 100, hbm := Mem.putBytes (Mem.putBytes (Mem.putBytes (Mem.putBytes t.hbm 0x130038 (leBytes 8 (leafTo 0x10000230000 0x7F))) 0x200000 rcd) 0x220000 ((List.range 64).map fun i => BitVec.ofNat 8 (i + 3))) 0x10000230000 ((List.range 64).map fun i => BitVec.ofNat 8 (i * 3)), cores := [(0, { tlb := [openEntry 0 0x60000, openEntry 0 0x70000, openEntry 0 0x40000, openEntry 1 0x60000] }), (2, { tlb := [openEntry 0 0x60000] })] }
/-- A helper of the witnesses. -/
def recd (n f : Nat) : List Byte := leBytes 8 n ++ leBytes 8 f ++ leBytes 8 mb1.toNat
/-- A state of the witnesses. -/
def pages_Swaps_0 : HostMsg × State :=
  (m0 0 0, swp (recd 0x60000 0x70000) (fun s => { s with swaps := [(7, ⟨0, 0, 0, 0x400000, 0x10000400000, 5, 0⟩)] }))
/-- A state of the witnesses. -/
def pages_Swaps_1 : HostMsg × State :=
  (m0 0x200000030 0x40000, swp (recd 0x60000 0x70000))
/-- A state of the witnesses. -/
def pages_Swaps_2 : HostMsg × State :=
  (m0 0 0, swp [] (fun s => { s with swaps := [(7, ⟨0, 0x60000, 0x70000, 0x220000, 0x10000230000, 5, 1023⟩)], swapNext := 8 }))
/-- Witnesses of `Pages` (part Swaps). -/
theorem witness_Pages_Swaps :
    (∃ (s : State) (k : Nat) (w : Swap) (x : Nat), s.swaps.find k = some w
      ∧ w.next < 1023
      ∧ PlainMemory s
      ∧ Memory.wf s.hbm = true
      ∧ (w.near + 64 * w.next + 64 ≤ w.far + 64 * w.next ∨ w.far + 64 * w.next + 64 ≤ w.near + 64 * w.next)
      ∧ x ∈ [w.near + 64 * w.next - 1, w.near + 64 * w.next, w.near + 64 * w.next + 63, w.near + 64 * w.next + 64, w.far + 64 * w.next - 1, w.far + 64 * w.next + 63, w.far + 64 * w.next + 64, 7, 2097152]
      ∧ (¬(w.near + 64 * w.next ≤ x ∧ x < w.near + 64 * w.next + 64))
      ∧ (¬(w.far + 64 * w.next ≤ x ∧ x < w.far + 64 * w.next + 64)))
    ∧ (∃ (s : State) (m : HostMsg) (p : Nat) (va : Nat) (a : Nat) (b : Nat), va % 64 = 0
      ∧ PlainMemory s
      ∧ Still s
      ∧ treeAddr s p va permR = Except.ok (Loc.mem a)
      ∧ treeAddr s p (va + 32) permR = Except.ok (Loc.mem b)
      ∧ (∀ i ∈ List.range 64, 24 ≤ i → (s.hbm.bytes a 32 ++ s.hbm.bytes b 32).getD i 0 = 0)
      ∧ pageLeaf s p (numAt (s.hbm.bytes a 32 ++ s.hbm.bytes b 32) 0 8) 0 = some (((pageLeaf s p (numAt (s.hbm.bytes a 32 ++ s.hbm.bytes b 32) 0 8) 0).getD (0, 0)).1, ((pageLeaf s p (numAt (s.hbm.bytes a 32 ++ s.hbm.bytes b 32) 0 8) 0).getD (0, 0)).2)
      ∧ m.part = p
      ∧ m.addr = 8589934640 + 4096 * p
      ∧ numAt m.payload 0 8 = va)
    ∧ (∃ (s : State) (k : Nat) (w : Swap), s.swaps.find k = some w
      ∧ w.next = 1023) := by
  exact ⟨⟨pages_Swaps_0.2, 7, Option.get ((pages_Swaps_0.2).swaps.find (7)) (by decide +kernel), ([(Option.get ((pages_Swaps_0.2).swaps.find (7)) (by decide +kernel)).near + 64 * (Option.get ((pages_Swaps_0.2).swaps.find (7)) (by decide +kernel)).next - 1, (Option.get ((pages_Swaps_0.2).swaps.find (7)) (by decide +kernel)).near + 64 * (Option.get ((pages_Swaps_0.2).swaps.find (7)) (by decide +kernel)).next, (Option.get ((pages_Swaps_0.2).swaps.find (7)) (by decide +kernel)).near + 64 * (Option.get ((pages_Swaps_0.2).swaps.find (7)) (by decide +kernel)).next + 63, (Option.get ((pages_Swaps_0.2).swaps.find (7)) (by decide +kernel)).near + 64 * (Option.get ((pages_Swaps_0.2).swaps.find (7)) (by decide +kernel)).next + 64, (Option.get ((pages_Swaps_0.2).swaps.find (7)) (by decide +kernel)).far + 64 * (Option.get ((pages_Swaps_0.2).swaps.find (7)) (by decide +kernel)).next - 1, (Option.get ((pages_Swaps_0.2).swaps.find (7)) (by decide +kernel)).far + 64 * (Option.get ((pages_Swaps_0.2).swaps.find (7)) (by decide +kernel)).next + 63, (Option.get ((pages_Swaps_0.2).swaps.find (7)) (by decide +kernel)).far + 64 * (Option.get ((pages_Swaps_0.2).swaps.find (7)) (by decide +kernel)).next + 64, 7, 2097152])[0], by and_intros <;> first
        | decide +kernel
        | (constructor <;> decide +kernel)⟩,
    ⟨pages_Swaps_1.2, pages_Swaps_1.1, 0, 0x40000, 0x200000, 0x200020, by and_intros <;> first
        | decide +kernel
        | (constructor <;> decide +kernel)⟩,
    ⟨pages_Swaps_2.2, 7, Option.get ((pages_Swaps_2.2).swaps.find (7)) (by decide +kernel), by decide +kernel⟩⟩

/-- A helper of the witnesses. -/
def vbs (v : VBuf) (ex : Nat) (s : State) : State := { s with exports := [(0, 2^63 + 2^52 + ex), (1, 1), (2, 0x2000)], vbufs := [(0, v)] }
/-- A state of the witnesses. -/
def versionedBuffers_0 : State :=
  vbs { isSealed := true, version := 4, opening := some (0, 3, 100, [5]) } (0) (st (r4 (0x2000) 0 0 0) ({ st (fun t => { t with pend := [⟨3, 2, .awaiting (.w 1), 0⟩] }) pg with cycle := 115300 }))
/-- A state of the witnesses. -/
def versionedBuffers_1 : State :=
  vbs { isSealed := true, version := 4, reuseAt := some 100 } (0) (st (r4 (0x2000) 0 0 0) ({ st (fun t => { t with pend := [⟨3, 2, .awaiting (.w 1), 0⟩] }) pg with cycle := 99 }))
/-- A state of the witnesses. -/
def versionedBuffers_2 : State :=
  vbs { isSealed := true, version := 4, reuseAt := some 100 } (0) (st (r4 (0x2000) 0 0 0) ({ st (fun t => { t with pend := [⟨3, 2, .awaiting (.w 1), 0⟩] }) pg with cycle := 100 }))
/-- A state of the witnesses. -/
def versionedBuffers_3 : State :=
  vbs { isSealed := false, version := 4 } (0) (st (r4 (0x2000) 0 0 0) pg)
/-- A state of the witnesses. -/
def versionedBuffers_4 : State :=
  vbs { isSealed := true, version := 4 } (0) (st (r4 (0x2000) 0 0 0) pg)
/-- A state of the witnesses. -/
def versionedBuffers_5 : State :=
  vbs { isSealed := true, version := 4, fillers := [7, 9] } (0) (st (r4 (0x2000) 0 0 0) pg)
/-- Witnesses of `VersionedBuffers`. -/
theorem witness_VersionedBuffers :
    (∃ (s : State) (d : GReg) (a : GReg) (e : Nat) (id : Nat) (k : Nat) (c : Nat) (ps : List Nat) (p : Pending), NoStall s [d, a]
      ∧ Calm s
      ∧ (s.vbuf e).opening = some (id, k, c, ps)
      ∧ (s.vbuf e).reuseAt = none
      ∧ (s.vbuf e).change = none
      ∧ c + 64 * 1800 ≤ s.cycle
      ∧ p ∈ (s.strand id).pend
      ∧ p.id = k
      ∧ p.act = PendAct.awaiting d
      ∧ vbufBase s s.curPart (vaOf (s.cur.read a)) = some e
      ∧ exPart s e = s.curPart
      ∧ (s.vbuf e).opening.isSome = true)
    ∧ (∃ (s : State) (d : GReg) (a : GReg) (e : Nat) (c : Nat), NoStall s [d, a]
      ∧ Calm s
      ∧ (s.vbuf e).reuseAt = some c
      ∧ (s.vbuf e).fillers = []
      ∧ s.cycle < c
      ∧ vbufBase s s.curPart (vaOf (s.cur.read a)) = some e
      ∧ exPart s e = s.curPart
      ∧ (s.vbuf e).reuseAt.isSome = true)
    ∧ (∃ (s : State) (d : GReg) (a : GReg) (e : Nat) (c : Nat), NoStall s [d, a]
      ∧ Calm s
      ∧ (s.vbuf e).reuseAt = some c
      ∧ (s.vbuf e).fillers = []
      ∧ c ≤ s.cycle)
    ∧ (∃ (s : State) (d : GReg) (a : GReg) (e : Nat), NoStall s [d, a]
      ∧ Calm s
      ∧ vbufBase s s.curPart (vaOf (s.cur.read a)) = some e
      ∧ exPart s e = s.curPart
      ∧ (s.vbuf e).opening = none
      ∧ (s.vbuf e).isSealed = false
      ∧ (s.vbuf e).reuseAt = none
      ∧ (s.vbuf e).heldFills = []
      ∧ Still s
      ∧ (∀ c ∈ s.cores, c.2.red = [])
      ∧ corePuts s s.curCore = false
      ∧ s.cur.lostPut = none)
    ∧ (∃ (s : State) (d : GReg) (a : GReg) (e : Nat), NoStall s [d, a]
      ∧ Calm s
      ∧ vbufBase s s.curPart (vaOf (s.cur.read a)) = some e
      ∧ exPart s e = s.curPart
      ∧ (s.vbuf e).opening = none
      ∧ (s.vbuf e).isSealed = true
      ∧ (s.vbuf e).lastFill.find (((s.vbuf e).version + 1) % 2 ^ 24) = none
      ∧ (s.vbuf e).fillers = []
      ∧ s.cur.pend = []
      ∧ (s.vbuf e).reuseAt = none)
    ∧ (∃ (s : State) (d : GReg) (a : GReg) (e : Nat), NoStall s [d, a]
      ∧ Calm s
      ∧ vbufBase s s.curPart (vaOf (s.cur.read a)) = some e
      ∧ exPart s e ≠ s.curPart)
    ∧ (∃ (s : State) (d : GReg) (a : GReg), NoStall s [d, a]
      ∧ Calm s
      ∧ vbufBase s s.curPart (vaOf (s.cur.read a)) = none)
    ∧ (∃ (s : State) (d : GReg) (a : GReg) (e : Nat), NoStall s [d, a]
      ∧ Calm s
      ∧ vbufBase s s.curPart (vaOf (s.cur.read a)) = some e
      ∧ exPart s e = s.curPart
      ∧ (s.vbuf e).opening = none
      ∧ (s.vbuf e).isSealed = true
      ∧ (s.vbuf e).lastFill.find (((s.vbuf e).version + 1) % 2 ^ 24) = none
      ∧ (s.vbuf e).fillers ≠ []) := by
  exact ⟨⟨versionedBuffers_0, .w 1, .w 1, 0, 0, 3, 100, [5], (((versionedBuffers_0).strand (0)).pend)[0], by and_intros <;> first
        | decide +kernel
        | unfold NoStall; decide +kernel
        | (constructor <;> decide +kernel)⟩,
    ⟨versionedBuffers_1, .w 1, .w 1, 0, Option.get (((versionedBuffers_1).vbuf (0)).reuseAt) (by decide +kernel), by and_intros <;> first
        | decide +kernel
        | unfold NoStall; decide +kernel
        | (constructor <;> decide +kernel)⟩,
    ⟨versionedBuffers_2, .w 1, .w 1, 0, Option.get (((versionedBuffers_2).vbuf (0)).reuseAt) (by decide +kernel), by and_intros <;> first
        | decide +kernel
        | unfold NoStall; decide +kernel
        | (constructor <;> decide +kernel)⟩,
    ⟨versionedBuffers_3, .w 1, .w 1, 0, by and_intros <;> first
        | decide +kernel
        | unfold NoStall; decide +kernel
        | (constructor <;> decide +kernel)⟩,
    ⟨versionedBuffers_4, .w 1, .w 1, 0, by and_intros <;> first
        | decide +kernel
        | unfold NoStall; decide +kernel
        | (constructor <;> decide +kernel)⟩,
    ⟨vbs {} (2^40) (st (r4 (0x2000) 0 0 0) pg), .w 1, .w 1, 0, by and_intros <;> first
        | decide +kernel
        | unfold NoStall; decide +kernel
        | (constructor <;> decide +kernel)⟩,
    ⟨vbs {} (0) (st (r4 (0x3000) 0 0 0) pg), .w 1, .w 1, by and_intros <;> first
        | decide +kernel
        | unfold NoStall; decide +kernel
        | (constructor <;> decide +kernel)⟩,
    ⟨versionedBuffers_5, .w 1, .w 1, 0, by and_intros <;> first
        | decide +kernel
        | unfold NoStall; decide +kernel
        | (constructor <;> decide +kernel)⟩⟩

/-- A state of the witnesses. -/
def engineIssue_0 : State :=
  { (st (fun t => { r4 (0x8000000000000+0x18000) (0x2000) (64) 0 t with run := .ready }) pg) with opNext := 3  }
/-- A state of the witnesses. -/
def engineIssue_1 : State :=
  { (st (fun t => { r4 (0x8000000000000) (5) (4) 0 t with run := .ready }) pg) with opNext := 3 , groups := [(5, ⟨0,[0,2]⟩)] }
/-- A state of the witnesses. -/
def engineIssue_2 : State :=
  { (st (fun t => { r4 (0x8000000000000+0x18000) (0x2000) (0x800000040) 0 t with run := .ready }) pg) with opNext := 3  }
/-- A state of the witnesses. -/
def engineIssue_3 : State :=
  { (st (fun t => { r4 (0x4000) (0x2000) (64) 0 t with run := .ready }) pg) with opNext := 3  }
/-- A state of the witnesses. -/
def engineIssue_4 : State :=
  { (st (fun t => { r4 (0x4001) (0x2000) (64) 0 t with run := .ready }) pg) with opNext := 3  }
/-- A state of the witnesses. -/
def engineIssue_5 : State :=
  { (st (fun t => { r4 (0x4000) (0x2000) (64) 0 t with run := .ready }) pg) with opNext := 3 , clusters := [(0, { locks := [⟨1, true, 0x4020, 0x4040⟩] })] }
/-- A state of the witnesses. -/
def engineIssue_6 : State :=
  { (st (fun t => { r4 (0x4000) (0x2000) (0) 0 t with run := .ready }) pg) with opNext := 3  }
/-- A state of the witnesses. -/
def engineIssue_7 : State :=
  { (st (fun t => { r4 (0x4000) (0x2000) (0x33F800000) 0 t with run := .ready }) pg) with opNext := 3  }
/-- A state of the witnesses. -/
def engineIssue_8 : State :=
  { (st (fun t => { r4 (0x4000) (0x2000) (0x800000040) 0 t with run := .ready }) pg) with opNext := 3  }
/-- A state of the witnesses. -/
def engineIssue_9 : State :=
  { (st (fun t => { r4 (0x4000) (0x2000) (0x33F800000) 0 t with run := .ready }) pg) with opNext := 3 , trowels := [(0, [1,2,3,4,5,6,7,8])] }
/-- A state of the witnesses. -/
def engineIssue_10 : State :=
  { (st (fun t => { r4 (0x4000) (0x2000) (0x800000040) 0 t with run := .ready }) pg) with opNext := 3 , trowels := [(0, [1,2,3,4,5,6,7,8])] }
/-- Witnesses of `EngineIssue`. -/
theorem witness_EngineIssue :
    (∃ (s : State) (tok : Fin 16) (v : CollOp) (k : Code), NoStall s [GReg.g tok, GReg.w 1, GReg.w 2, GReg.w 4]
      ∧ Calm s
      ∧ (¬(vaOf (s.cur.read (GReg.w 1)) % 32 ≠ 0 ∨ vaOf (s.cur.read (GReg.w 2)) % 32 ≠ 0 ∨ BitVec.toNat (s.cur.read (GReg.w 4)) % 32 ≠ 0 ∨ 2 ^ 30 < BitVec.toNat (s.cur.read (GReg.w 4)) ∨ vaOf (s.cur.read (GReg.w 1)) < vaOf (s.cur.read (GReg.w 2)) + BitVec.toNat (s.cur.read (GReg.w 4)) ∧ vaOf (s.cur.read (GReg.w 2)) < vaOf (s.cur.read (GReg.w 1)) + BitVec.toNat (s.cur.read (GReg.w 4)) ∨ rangeOk s EngKind.copy true (vaOf (s.cur.read (GReg.w 1))) (BitVec.toNat (s.cur.read (GReg.w 4))) = false ∨ rangeOk s EngKind.copy false (vaOf (s.cur.read (GReg.w 2))) (BitVec.toNat (s.cur.read (GReg.w 4))) = false))
      ∧ BitVec.toNat (s.cur.read (GReg.w 4)) ≠ 0
      ∧ List.findSome? (fun d : Nat × Nat => destCheck s d.1 d.2) [(vaOf (s.cur.read (GReg.w 1)), BitVec.toNat (s.cur.read (GReg.w 4)))] = some k
      ∧ (¬(vaOf (s.cur.read (GReg.w 1)) % 32 ≠ 0 ∨ BitVec.toNat (s.cur.read (GReg.w 4)) % 32 ≠ 0 ∨ 2 ^ 30 < BitVec.toNat (s.cur.read (GReg.w 4)) ∨ rangeOk s EngKind.fill true (vaOf (s.cur.read (GReg.w 1))) (BitVec.toNat (s.cur.read (GReg.w 4))) = false))
      ∧ (¬(window (vaOf (s.cur.read (GReg.w 1))) ≠ 8 ∨ vaOf (s.cur.read (GReg.w 1)) % 32 ≠ 0 ∨ 65536 ≤ BitVec.toNat (s.cur.read (GReg.w 2)) ∨ BitVec.toNat (s.cur.read (GReg.w 4)) = 0 ∨ 4096 < BitVec.toNat (s.cur.read (GReg.w 4)) ∨ rangeOk s (EngKind.coll v) true (vaOf (s.cur.read (GReg.w 1))) (CollOp.width v * BitVec.toNat (s.cur.read (GReg.w 4))) = false))
      ∧ (∀ (g : Machine.Group), s.groups.find (BitVec.toNat (s.cur.read (GReg.w 2))) = some g → g.members.has s.strandId = false))
    ∧ (∃ (s : State) (tok : Fin 16) (v : CollOp) (g : Machine.Group), NoStall s [GReg.g tok, GReg.w 1, GReg.w 2, GReg.w 4]
      ∧ Calm s
      ∧ (¬(window (vaOf (s.cur.read (GReg.w 1))) ≠ 8 ∨ vaOf (s.cur.read (GReg.w 1)) % 32 ≠ 0 ∨ 65536 ≤ BitVec.toNat (s.cur.read (GReg.w 2)) ∨ BitVec.toNat (s.cur.read (GReg.w 4)) = 0 ∨ 4096 < BitVec.toNat (s.cur.read (GReg.w 4)) ∨ rangeOk s (EngKind.coll v) true (vaOf (s.cur.read (GReg.w 1))) (CollOp.width v * BitVec.toNat (s.cur.read (GReg.w 4))) = false))
      ∧ s.groups.find (BitVec.toNat (s.cur.read (GReg.w 2))) = some g
      ∧ g.members.has s.strandId = true
      ∧ openChain s (BitVec.toNat (s.cur.read (GReg.w 2))) s.strandId = none
      ∧ openCount s (BitVec.toNat (s.cur.read (GReg.w 2))) < 2
      ∧ destCheck s (vaOf (s.cur.read (GReg.w 1))) (CollOp.width v * BitVec.toNat (s.cur.read (GReg.w 4))) = none
      ∧ lockRoom s [{ op := s.opNext, dest := true, lo := vaOf (s.cur.read (GReg.w 1)) / 32 * 32, hi := (vaOf (s.cur.read (GReg.w 1)) + CollOp.width v * BitVec.toNat (s.cur.read (GReg.w 4)) + 31) / 32 * 32 }] = true)
    ∧ (∃ (s : State) (tok : Fin 16) (k : Code), NoStall s [GReg.g tok, GReg.w 1, GReg.w 2, GReg.w 4]
      ∧ Calm s
      ∧ (¬(vaOf (s.cur.read (GReg.w 1)) % 8 ≠ 0 ∨ vaOf (s.cur.read (GReg.w 2)) % 256 ≠ 0 ∨ BitVec.toNat (s.cur.read (GReg.w 4)) / 2 ^ 39 ≠ 0 ∨ BitVec.toNat (s.cur.read (GReg.w 4)) / 2 ^ 20 % 2 ^ 12 ≠ 0 ∨ BitVec.toNat (s.cur.read (GReg.w 4)) % 2 ^ 20 = 0 ∨ BitVec.toNat (s.cur.read (GReg.w 4)) / 2 ^ 32 % 2 ^ 7 = 0 ∨ 64 < BitVec.toNat (s.cur.read (GReg.w 4)) / 2 ^ 32 % 2 ^ 7))
      ∧ List.findSome? (fun d : Nat × Nat => destCheck s d.1 d.2) [(vaOf (s.cur.read (GReg.w 1)), 8 * (BitVec.toNat (s.cur.read (GReg.w 4)) / 2 ^ 32 % 2 ^ 7))] = some k)
    ∧ (∃ (s : State) (tok : Fin 16) (k : Code), NoStall s [GReg.g tok, GReg.w 1, GReg.w 2, GReg.w 4]
      ∧ Calm s
      ∧ (¬(vaOf (s.cur.read (GReg.w 1)) % 256 ≠ 0 ∨ vaOf (s.cur.read (GReg.w 2)) % 256 ≠ 0 ∨ BitVec.toNat (s.cur.read (GReg.w 4)) / 2 ^ 48 ≠ 0 ∨ BitVec.toNat (s.cur.read (GReg.w 4)) / 2 ^ 32 % 2 ^ 16 = 0))
      ∧ List.findSome? (fun d : Nat × Nat => destCheck s d.1 d.2) [(vaOf (s.cur.read (GReg.w 1)), 256)] = some k)
    ∧ (∃ (s : State) (tok : Fin 16) (sz : ElemSize) (k : Code), NoStall s [GReg.g tok, GReg.w 1, GReg.w 2, GReg.w 4]
      ∧ Calm s
      ∧ (¬((vaOf (s.cur.read (GReg.w 1)) % min (ElemSize.bytes sz) 32 ≠ 0 ∨ vaOf (s.cur.read (GReg.w 4)) % min (ElemSize.bytes sz) 32 ≠ 0 ∨ vaOf (s.cur.read (GReg.w 2)) % 4 ≠ 0) ∨ rangeOk s EngKind.gather false (vaOf (s.cur.read (GReg.w 2))) (4 * if BitVec.toNat (s.cur.read (GReg.w 2)) / 2 ^ 52 = 0 then 4096 else BitVec.toNat (s.cur.read (GReg.w 2)) / 2 ^ 52) = false ∨ rangeOk s EngKind.gather true (vaOf (s.cur.read (GReg.w 1))) (ElemSize.bytes sz * if BitVec.toNat (s.cur.read (GReg.w 2)) / 2 ^ 52 = 0 then 4096 else BitVec.toNat (s.cur.read (GReg.w 2)) / 2 ^ 52) = false ∨ rangeOk s EngKind.gather false (vaOf (s.cur.read (GReg.w 4))) 1 = false))
      ∧ List.findSome? (fun d : Nat × Nat => destCheck s d.1 d.2) [(vaOf (s.cur.read (GReg.w 1)), ElemSize.bytes sz * if BitVec.toNat (s.cur.read (GReg.w 2)) / 2 ^ 52 = 0 then 4096 else BitVec.toNat (s.cur.read (GReg.w 2)) / 2 ^ 52)] = some k)
    ∧ (∃ (s : State) (tok : Fin 16) (sz : ElemSize) (v : CollOp), NoStall s [GReg.g tok, GReg.w 1, GReg.w 2, GReg.w 4]
      ∧ Calm s
      ∧ (¬(vaOf (s.cur.read (GReg.w 1)) % 32 ≠ 0 ∨ BitVec.toNat (s.cur.read (GReg.w 4)) % 32 ≠ 0 ∨ 2 ^ 30 < BitVec.toNat (s.cur.read (GReg.w 4)) ∨ rangeOk s EngKind.fill true (vaOf (s.cur.read (GReg.w 1))) (BitVec.toNat (s.cur.read (GReg.w 4))) = false))
      ∧ BitVec.toNat (s.cur.read (GReg.w 4)) ≠ 0
      ∧ List.findSome? (fun d : Nat × Nat => destCheck s d.1 d.2) [(vaOf (s.cur.read (GReg.w 1)), BitVec.toNat (s.cur.read (GReg.w 4)))] = none
      ∧ false = false
      ∧ (¬(vaOf (s.cur.read (GReg.w 1)) % 32 ≠ 0 ∨ vaOf (s.cur.read (GReg.w 2)) % 32 ≠ 0 ∨ BitVec.toNat (s.cur.read (GReg.w 4)) % 32 ≠ 0 ∨ 2 ^ 30 < BitVec.toNat (s.cur.read (GReg.w 4)) ∨ vaOf (s.cur.read (GReg.w 1)) < vaOf (s.cur.read (GReg.w 2)) + BitVec.toNat (s.cur.read (GReg.w 4)) ∧ vaOf (s.cur.read (GReg.w 2)) < vaOf (s.cur.read (GReg.w 1)) + BitVec.toNat (s.cur.read (GReg.w 4)) ∨ rangeOk s EngKind.copy true (vaOf (s.cur.read (GReg.w 1))) (BitVec.toNat (s.cur.read (GReg.w 4))) = false ∨ rangeOk s EngKind.copy false (vaOf (s.cur.read (GReg.w 2))) (BitVec.toNat (s.cur.read (GReg.w 4))) = false))
      ∧ (¬((vaOf (s.cur.read (GReg.w 1)) % min (ElemSize.bytes sz) 32 ≠ 0 ∨ vaOf (s.cur.read (GReg.w 4)) % min (ElemSize.bytes sz) 32 ≠ 0 ∨ vaOf (s.cur.read (GReg.w 2)) % 4 ≠ 0) ∨ rangeOk s EngKind.gather false (vaOf (s.cur.read (GReg.w 2))) (4 * if BitVec.toNat (s.cur.read (GReg.w 2)) / 2 ^ 52 = 0 then 4096 else BitVec.toNat (s.cur.read (GReg.w 2)) / 2 ^ 52) = false ∨ rangeOk s EngKind.gather true (vaOf (s.cur.read (GReg.w 1))) (ElemSize.bytes sz * if BitVec.toNat (s.cur.read (GReg.w 2)) / 2 ^ 52 = 0 then 4096 else BitVec.toNat (s.cur.read (GReg.w 2)) / 2 ^ 52) = false ∨ rangeOk s EngKind.gather false (vaOf (s.cur.read (GReg.w 4))) 1 = false))
      ∧ List.findSome? (fun d : Nat × Nat => destCheck s d.1 d.2) [(vaOf (s.cur.read (GReg.w 1)), ElemSize.bytes sz * if BitVec.toNat (s.cur.read (GReg.w 2)) / 2 ^ 52 = 0 then 4096 else BitVec.toNat (s.cur.read (GReg.w 2)) / 2 ^ 52)] = none
      ∧ lockRoom s [{ op := s.opNext, dest := false, lo := vaOf (s.cur.read (GReg.w 2)) / 32 * 32, hi := ((vaOf (s.cur.read (GReg.w 2)) + 4 * if BitVec.toNat (s.cur.read (GReg.w 2)) / 2 ^ 52 = 0 then 4096 else BitVec.toNat (s.cur.read (GReg.w 2)) / 2 ^ 52) + 31) / 32 * 32 }, { op := s.opNext, dest := true, lo := vaOf (s.cur.read (GReg.w 1)) / 32 * 32, hi := ((vaOf (s.cur.read (GReg.w 1)) + ElemSize.bytes sz * if BitVec.toNat (s.cur.read (GReg.w 2)) / 2 ^ 52 = 0 then 4096 else BitVec.toNat (s.cur.read (GReg.w 2)) / 2 ^ 52) + 31) / 32 * 32 }] = true
      ∧ (vaOf (s.cur.read (GReg.w 1)) % 8 ≠ 0 ∨ vaOf (s.cur.read (GReg.w 2)) % 256 ≠ 0 ∨ BitVec.toNat (s.cur.read (GReg.w 4)) / 2 ^ 39 ≠ 0 ∨ BitVec.toNat (s.cur.read (GReg.w 4)) / 2 ^ 20 % 2 ^ 12 ≠ 0 ∨ BitVec.toNat (s.cur.read (GReg.w 4)) % 2 ^ 20 = 0 ∨ BitVec.toNat (s.cur.read (GReg.w 4)) / 2 ^ 32 % 2 ^ 7 = 0 ∨ 64 < BitVec.toNat (s.cur.read (GReg.w 4)) / 2 ^ 32 % 2 ^ 7)
      ∧ lockRoom s [{ op := s.opNext, dest := false, lo := vaOf (s.cur.read (GReg.w 2)) / 32 * 32, hi := (vaOf (s.cur.read (GReg.w 2)) + BitVec.toNat (s.cur.read (GReg.w 4)) + 31) / 32 * 32 }, { op := s.opNext, dest := true, lo := vaOf (s.cur.read (GReg.w 1)) / 32 * 32, hi := (vaOf (s.cur.read (GReg.w 1)) + BitVec.toNat (s.cur.read (GReg.w 4)) + 31) / 32 * 32 }] = true
      ∧ lockRoom s [{ op := s.opNext, dest := true, lo := vaOf (s.cur.read (GReg.w 1)) / 32 * 32, hi := (vaOf (s.cur.read (GReg.w 1)) + BitVec.toNat (s.cur.read (GReg.w 4)) + 31) / 32 * 32 }] = true
      ∧ (¬((vaOf (s.cur.read (GReg.w 1)) % min (ElemSize.bytes sz) 32 ≠ 0 ∨ vaOf (s.cur.read (GReg.w 4)) % min (ElemSize.bytes sz) 32 ≠ 0 ∨ vaOf (s.cur.read (GReg.w 2)) % 4 ≠ 0) ∨ rangeOk s EngKind.scatter false (vaOf (s.cur.read (GReg.w 2))) (4 * if BitVec.toNat (s.cur.read (GReg.w 2)) / 2 ^ 52 = 0 then 4096 else BitVec.toNat (s.cur.read (GReg.w 2)) / 2 ^ 52) = false ∨ rangeOk s EngKind.scatter true (vaOf (s.cur.read (GReg.w 1))) 1 = false ∨ rangeOk s EngKind.scatter false (vaOf (s.cur.read (GReg.w 4))) (ElemSize.bytes sz * if BitVec.toNat (s.cur.read (GReg.w 2)) / 2 ^ 52 = 0 then 4096 else BitVec.toNat (s.cur.read (GReg.w 2)) / 2 ^ 52) = false))
      ∧ (vaOf (s.cur.read (GReg.w 1)) % 256 ≠ 0 ∨ vaOf (s.cur.read (GReg.w 2)) % 256 ≠ 0 ∨ BitVec.toNat (s.cur.read (GReg.w 4)) / 2 ^ 48 ≠ 0 ∨ BitVec.toNat (s.cur.read (GReg.w 4)) / 2 ^ 32 % 2 ^ 16 = 0)
      ∧ List.findSome? (fun d : Nat × Nat => destCheck s d.1 d.2) [] = none
      ∧ lockRoom s [{ op := s.opNext, dest := false, lo := vaOf (s.cur.read (GReg.w 2)) / 32 * 32, hi := ((vaOf (s.cur.read (GReg.w 2)) + 4 * if BitVec.toNat (s.cur.read (GReg.w 2)) / 2 ^ 52 = 0 then 4096 else BitVec.toNat (s.cur.read (GReg.w 2)) / 2 ^ 52) + 31) / 32 * 32 }, { op := s.opNext, dest := false, lo := vaOf (s.cur.read (GReg.w 4)) / 32 * 32, hi := ((vaOf (s.cur.read (GReg.w 4)) + ElemSize.bytes sz * if BitVec.toNat (s.cur.read (GReg.w 2)) / 2 ^ 52 = 0 then 4096 else BitVec.toNat (s.cur.read (GReg.w 2)) / 2 ^ 52) + 31) / 32 * 32 }] = true
      ∧ (window (vaOf (s.cur.read (GReg.w 1))) ≠ 8 ∨ vaOf (s.cur.read (GReg.w 1)) % 32 ≠ 0 ∨ 65536 ≤ BitVec.toNat (s.cur.read (GReg.w 2)) ∨ BitVec.toNat (s.cur.read (GReg.w 4)) = 0 ∨ 4096 < BitVec.toNat (s.cur.read (GReg.w 4)) ∨ rangeOk s (EngKind.coll v) true (vaOf (s.cur.read (GReg.w 1))) (CollOp.width v * BitVec.toNat (s.cur.read (GReg.w 4))) = false))
    ∧ (∃ (s : State) (tok : Fin 16) (sz : ElemSize), NoStall s [GReg.g tok, GReg.w 1, GReg.w 2, GReg.w 4]
      ∧ Calm s
      ∧ (vaOf (s.cur.read (GReg.w 1)) % 32 ≠ 0 ∨ vaOf (s.cur.read (GReg.w 2)) % 32 ≠ 0 ∨ BitVec.toNat (s.cur.read (GReg.w 4)) % 32 ≠ 0 ∨ 2 ^ 30 < BitVec.toNat (s.cur.read (GReg.w 4)) ∨ vaOf (s.cur.read (GReg.w 1)) < vaOf (s.cur.read (GReg.w 2)) + BitVec.toNat (s.cur.read (GReg.w 4)) ∧ vaOf (s.cur.read (GReg.w 2)) < vaOf (s.cur.read (GReg.w 1)) + BitVec.toNat (s.cur.read (GReg.w 4)) ∨ rangeOk s EngKind.copy true (vaOf (s.cur.read (GReg.w 1))) (BitVec.toNat (s.cur.read (GReg.w 4))) = false ∨ rangeOk s EngKind.copy false (vaOf (s.cur.read (GReg.w 2))) (BitVec.toNat (s.cur.read (GReg.w 4))) = false)
      ∧ ((vaOf (s.cur.read (GReg.w 1)) % min (ElemSize.bytes sz) 32 ≠ 0 ∨ vaOf (s.cur.read (GReg.w 4)) % min (ElemSize.bytes sz) 32 ≠ 0 ∨ vaOf (s.cur.read (GReg.w 2)) % 4 ≠ 0) ∨ rangeOk s EngKind.scatter false (vaOf (s.cur.read (GReg.w 2))) (4 * if BitVec.toNat (s.cur.read (GReg.w 2)) / 2 ^ 52 = 0 then 4096 else BitVec.toNat (s.cur.read (GReg.w 2)) / 2 ^ 52) = false ∨ rangeOk s EngKind.scatter true (vaOf (s.cur.read (GReg.w 1))) 1 = false ∨ rangeOk s EngKind.scatter false (vaOf (s.cur.read (GReg.w 4))) (ElemSize.bytes sz * if BitVec.toNat (s.cur.read (GReg.w 2)) / 2 ^ 52 = 0 then 4096 else BitVec.toNat (s.cur.read (GReg.w 2)) / 2 ^ 52) = false)
      ∧ (vaOf (s.cur.read (GReg.w 1)) % 32 ≠ 0 ∨ BitVec.toNat (s.cur.read (GReg.w 4)) % 32 ≠ 0 ∨ 2 ^ 30 < BitVec.toNat (s.cur.read (GReg.w 4)) ∨ rangeOk s EngKind.fill true (vaOf (s.cur.read (GReg.w 1))) (BitVec.toNat (s.cur.read (GReg.w 4))) = false)
      ∧ ((vaOf (s.cur.read (GReg.w 1)) % min (ElemSize.bytes sz) 32 ≠ 0 ∨ vaOf (s.cur.read (GReg.w 4)) % min (ElemSize.bytes sz) 32 ≠ 0 ∨ vaOf (s.cur.read (GReg.w 2)) % 4 ≠ 0) ∨ rangeOk s EngKind.gather false (vaOf (s.cur.read (GReg.w 2))) (4 * if BitVec.toNat (s.cur.read (GReg.w 2)) / 2 ^ 52 = 0 then 4096 else BitVec.toNat (s.cur.read (GReg.w 2)) / 2 ^ 52) = false ∨ rangeOk s EngKind.gather true (vaOf (s.cur.read (GReg.w 1))) (ElemSize.bytes sz * if BitVec.toNat (s.cur.read (GReg.w 2)) / 2 ^ 52 = 0 then 4096 else BitVec.toNat (s.cur.read (GReg.w 2)) / 2 ^ 52) = false ∨ rangeOk s EngKind.gather false (vaOf (s.cur.read (GReg.w 4))) 1 = false))
    ∧ (∃ (s : State) (tok : Fin 16) (sz : ElemSize), NoStall s [GReg.g tok, GReg.w 1, GReg.w 2, GReg.w 4]
      ∧ Calm s
      ∧ (¬((vaOf (s.cur.read (GReg.w 1)) % min (ElemSize.bytes sz) 32 ≠ 0 ∨ vaOf (s.cur.read (GReg.w 4)) % min (ElemSize.bytes sz) 32 ≠ 0 ∨ vaOf (s.cur.read (GReg.w 2)) % 4 ≠ 0) ∨ rangeOk s EngKind.scatter false (vaOf (s.cur.read (GReg.w 2))) (4 * if BitVec.toNat (s.cur.read (GReg.w 2)) / 2 ^ 52 = 0 then 4096 else BitVec.toNat (s.cur.read (GReg.w 2)) / 2 ^ 52) = false ∨ rangeOk s EngKind.scatter true (vaOf (s.cur.read (GReg.w 1))) 1 = false ∨ rangeOk s EngKind.scatter false (vaOf (s.cur.read (GReg.w 4))) (ElemSize.bytes sz * if BitVec.toNat (s.cur.read (GReg.w 2)) / 2 ^ 52 = 0 then 4096 else BitVec.toNat (s.cur.read (GReg.w 2)) / 2 ^ 52) = false))
      ∧ List.findSome? (fun d : Nat × Nat => destCheck s d.1 d.2) [] = none
      ∧ (false = true ∨ lockRoom s [{ op := s.opNext, dest := false, lo := vaOf (s.cur.read (GReg.w 2)) / 32 * 32, hi := ((vaOf (s.cur.read (GReg.w 2)) + 4 * if BitVec.toNat (s.cur.read (GReg.w 2)) / 2 ^ 52 = 0 then 4096 else BitVec.toNat (s.cur.read (GReg.w 2)) / 2 ^ 52) + 31) / 32 * 32 }, { op := s.opNext, dest := false, lo := vaOf (s.cur.read (GReg.w 4)) / 32 * 32, hi := ((vaOf (s.cur.read (GReg.w 4)) + ElemSize.bytes sz * if BitVec.toNat (s.cur.read (GReg.w 2)) / 2 ^ 52 = 0 then 4096 else BitVec.toNat (s.cur.read (GReg.w 2)) / 2 ^ 52) + 31) / 32 * 32 }] = false)
      ∧ (¬(vaOf (s.cur.read (GReg.w 1)) % 32 ≠ 0 ∨ vaOf (s.cur.read (GReg.w 2)) % 32 ≠ 0 ∨ BitVec.toNat (s.cur.read (GReg.w 4)) % 32 ≠ 0 ∨ 2 ^ 30 < BitVec.toNat (s.cur.read (GReg.w 4)) ∨ vaOf (s.cur.read (GReg.w 1)) < vaOf (s.cur.read (GReg.w 2)) + BitVec.toNat (s.cur.read (GReg.w 4)) ∧ vaOf (s.cur.read (GReg.w 2)) < vaOf (s.cur.read (GReg.w 1)) + BitVec.toNat (s.cur.read (GReg.w 4)) ∨ rangeOk s EngKind.copy true (vaOf (s.cur.read (GReg.w 1))) (BitVec.toNat (s.cur.read (GReg.w 4))) = false ∨ rangeOk s EngKind.copy false (vaOf (s.cur.read (GReg.w 2))) (BitVec.toNat (s.cur.read (GReg.w 4))) = false))
      ∧ BitVec.toNat (s.cur.read (GReg.w 4)) ≠ 0
      ∧ List.findSome? (fun d : Nat × Nat => destCheck s d.1 d.2) [(vaOf (s.cur.read (GReg.w 1)), BitVec.toNat (s.cur.read (GReg.w 4)))] = none
      ∧ (false = true ∨ lockRoom s [{ op := s.opNext, dest := false, lo := vaOf (s.cur.read (GReg.w 2)) / 32 * 32, hi := (vaOf (s.cur.read (GReg.w 2)) + BitVec.toNat (s.cur.read (GReg.w 4)) + 31) / 32 * 32 }, { op := s.opNext, dest := true, lo := vaOf (s.cur.read (GReg.w 1)) / 32 * 32, hi := (vaOf (s.cur.read (GReg.w 1)) + BitVec.toNat (s.cur.read (GReg.w 4)) + 31) / 32 * 32 }] = false)
      ∧ (¬(vaOf (s.cur.read (GReg.w 1)) % 32 ≠ 0 ∨ BitVec.toNat (s.cur.read (GReg.w 4)) % 32 ≠ 0 ∨ 2 ^ 30 < BitVec.toNat (s.cur.read (GReg.w 4)) ∨ rangeOk s EngKind.fill true (vaOf (s.cur.read (GReg.w 1))) (BitVec.toNat (s.cur.read (GReg.w 4))) = false))
      ∧ (false = true ∨ lockRoom s [{ op := s.opNext, dest := true, lo := vaOf (s.cur.read (GReg.w 1)) / 32 * 32, hi := (vaOf (s.cur.read (GReg.w 1)) + BitVec.toNat (s.cur.read (GReg.w 4)) + 31) / 32 * 32 }] = false)
      ∧ (¬((vaOf (s.cur.read (GReg.w 1)) % min (ElemSize.bytes sz) 32 ≠ 0 ∨ vaOf (s.cur.read (GReg.w 4)) % min (ElemSize.bytes sz) 32 ≠ 0 ∨ vaOf (s.cur.read (GReg.w 2)) % 4 ≠ 0) ∨ rangeOk s EngKind.gather false (vaOf (s.cur.read (GReg.w 2))) (4 * if BitVec.toNat (s.cur.read (GReg.w 2)) / 2 ^ 52 = 0 then 4096 else BitVec.toNat (s.cur.read (GReg.w 2)) / 2 ^ 52) = false ∨ rangeOk s EngKind.gather true (vaOf (s.cur.read (GReg.w 1))) (ElemSize.bytes sz * if BitVec.toNat (s.cur.read (GReg.w 2)) / 2 ^ 52 = 0 then 4096 else BitVec.toNat (s.cur.read (GReg.w 2)) / 2 ^ 52) = false ∨ rangeOk s EngKind.gather false (vaOf (s.cur.read (GReg.w 4))) 1 = false))
      ∧ List.findSome? (fun d : Nat × Nat => destCheck s d.1 d.2) [(vaOf (s.cur.read (GReg.w 1)), ElemSize.bytes sz * if BitVec.toNat (s.cur.read (GReg.w 2)) / 2 ^ 52 = 0 then 4096 else BitVec.toNat (s.cur.read (GReg.w 2)) / 2 ^ 52)] = none
      ∧ (false = true ∨ lockRoom s [{ op := s.opNext, dest := false, lo := vaOf (s.cur.read (GReg.w 2)) / 32 * 32, hi := ((vaOf (s.cur.read (GReg.w 2)) + 4 * if BitVec.toNat (s.cur.read (GReg.w 2)) / 2 ^ 52 = 0 then 4096 else BitVec.toNat (s.cur.read (GReg.w 2)) / 2 ^ 52) + 31) / 32 * 32 }, { op := s.opNext, dest := true, lo := vaOf (s.cur.read (GReg.w 1)) / 32 * 32, hi := ((vaOf (s.cur.read (GReg.w 1)) + ElemSize.bytes sz * if BitVec.toNat (s.cur.read (GReg.w 2)) / 2 ^ 52 = 0 then 4096 else BitVec.toNat (s.cur.read (GReg.w 2)) / 2 ^ 52) + 31) / 32 * 32 }] = false))
    ∧ (∃ (s : State) (tok : Fin 16), NoStall s [GReg.g tok, GReg.w 1, GReg.w 2, GReg.w 4]
      ∧ Calm s
      ∧ (¬(vaOf (s.cur.read (GReg.w 1)) % 32 ≠ 0 ∨ vaOf (s.cur.read (GReg.w 2)) % 32 ≠ 0 ∨ BitVec.toNat (s.cur.read (GReg.w 4)) % 32 ≠ 0 ∨ 2 ^ 30 < BitVec.toNat (s.cur.read (GReg.w 4)) ∨ vaOf (s.cur.read (GReg.w 1)) < vaOf (s.cur.read (GReg.w 2)) + BitVec.toNat (s.cur.read (GReg.w 4)) ∧ vaOf (s.cur.read (GReg.w 2)) < vaOf (s.cur.read (GReg.w 1)) + BitVec.toNat (s.cur.read (GReg.w 4)) ∨ rangeOk s EngKind.copy true (vaOf (s.cur.read (GReg.w 1))) (BitVec.toNat (s.cur.read (GReg.w 4))) = false ∨ rangeOk s EngKind.copy false (vaOf (s.cur.read (GReg.w 2))) (BitVec.toNat (s.cur.read (GReg.w 4))) = false))
      ∧ BitVec.toNat (s.cur.read (GReg.w 4)) = 0
      ∧ (¬(vaOf (s.cur.read (GReg.w 1)) % 32 ≠ 0 ∨ BitVec.toNat (s.cur.read (GReg.w 4)) % 32 ≠ 0 ∨ 2 ^ 30 < BitVec.toNat (s.cur.read (GReg.w 4)) ∨ rangeOk s EngKind.fill true (vaOf (s.cur.read (GReg.w 1))) (BitVec.toNat (s.cur.read (GReg.w 4))) = false)))
    ∧ (∃ (s : State) (tok : Fin 16), NoStall s [GReg.g tok, GReg.w 1, GReg.w 2, GReg.w 4]
      ∧ Calm s
      ∧ (¬(vaOf (s.cur.read (GReg.w 1)) % 256 ≠ 0 ∨ vaOf (s.cur.read (GReg.w 2)) % 256 ≠ 0 ∨ BitVec.toNat (s.cur.read (GReg.w 4)) / 2 ^ 48 ≠ 0 ∨ BitVec.toNat (s.cur.read (GReg.w 4)) / 2 ^ 32 % 2 ^ 16 = 0))
      ∧ List.findSome? (fun d : Nat × Nat => destCheck s d.1 d.2) [(vaOf (s.cur.read (GReg.w 1)), 256)] = none
      ∧ decide (8 ≤ (s.trowels.getD (if s.remapped.has s.curCore = true then s.curCore ^^^ 1 else s.curCore) []).length) = false
      ∧ lockRoom s [{ op := s.opNext, dest := false, lo := vaOf (s.cur.read (GReg.w 2)) / 32 * 32, hi := (vaOf (s.cur.read (GReg.w 2)) + 256 * (BitVec.toNat (s.cur.read (GReg.w 4)) / 2 ^ 32 % 2 ^ 16) + 31) / 32 * 32 }, { op := s.opNext, dest := true, lo := vaOf (s.cur.read (GReg.w 1)) / 32 * 32, hi := (vaOf (s.cur.read (GReg.w 1)) + 256 + 31) / 32 * 32 }] = true)
    ∧ (∃ (s : State) (tok : Fin 16), NoStall s [GReg.g tok, GReg.w 1, GReg.w 2, GReg.w 4]
      ∧ Calm s
      ∧ (¬(vaOf (s.cur.read (GReg.w 1)) % 8 ≠ 0 ∨ vaOf (s.cur.read (GReg.w 2)) % 256 ≠ 0 ∨ BitVec.toNat (s.cur.read (GReg.w 4)) / 2 ^ 39 ≠ 0 ∨ BitVec.toNat (s.cur.read (GReg.w 4)) / 2 ^ 20 % 2 ^ 12 ≠ 0 ∨ BitVec.toNat (s.cur.read (GReg.w 4)) % 2 ^ 20 = 0 ∨ BitVec.toNat (s.cur.read (GReg.w 4)) / 2 ^ 32 % 2 ^ 7 = 0 ∨ 64 < BitVec.toNat (s.cur.read (GReg.w 4)) / 2 ^ 32 % 2 ^ 7))
      ∧ List.findSome? (fun d : Nat × Nat => destCheck s d.1 d.2) [(vaOf (s.cur.read (GReg.w 1)), 8 * (BitVec.toNat (s.cur.read (GReg.w 4)) / 2 ^ 32 % 2 ^ 7))] = none
      ∧ decide (8 ≤ (s.trowels.getD (if s.remapped.has s.curCore = true then s.curCore ^^^ 1 else s.curCore) []).length) = false
      ∧ lockRoom s [{ op := s.opNext, dest := false, lo := vaOf (s.cur.read (GReg.w 2)) / 32 * 32, hi := (vaOf (s.cur.read (GReg.w 2)) + 4 * (BitVec.toNat (s.cur.read (GReg.w 4)) % 2 ^ 20) + 31) / 32 * 32 }, { op := s.opNext, dest := true, lo := vaOf (s.cur.read (GReg.w 1)) / 32 * 32, hi := (vaOf (s.cur.read (GReg.w 1)) + 8 * (BitVec.toNat (s.cur.read (GReg.w 4)) / 2 ^ 32 % 2 ^ 7) + 31) / 32 * 32 }] = true)
    ∧ (∃ (s : State) (tok : Fin 16), NoStall s [GReg.g tok, GReg.w 1, GReg.w 2, GReg.w 4]
      ∧ Calm s
      ∧ (¬(vaOf (s.cur.read (GReg.w 1)) % 256 ≠ 0 ∨ vaOf (s.cur.read (GReg.w 2)) % 256 ≠ 0 ∨ BitVec.toNat (s.cur.read (GReg.w 4)) / 2 ^ 48 ≠ 0 ∨ BitVec.toNat (s.cur.read (GReg.w 4)) / 2 ^ 32 % 2 ^ 16 = 0))
      ∧ List.findSome? (fun d : Nat × Nat => destCheck s d.1 d.2) [(vaOf (s.cur.read (GReg.w 1)), 256)] = none
      ∧ (decide (8 ≤ (s.trowels.getD (if s.remapped.has s.curCore = true then s.curCore ^^^ 1 else s.curCore) []).length) = true ∨ lockRoom s [{ op := s.opNext, dest := false, lo := vaOf (s.cur.read (GReg.w 2)) / 32 * 32, hi := (vaOf (s.cur.read (GReg.w 2)) + 256 * (BitVec.toNat (s.cur.read (GReg.w 4)) / 2 ^ 32 % 2 ^ 16) + 31) / 32 * 32 }, { op := s.opNext, dest := true, lo := vaOf (s.cur.read (GReg.w 1)) / 32 * 32, hi := (vaOf (s.cur.read (GReg.w 1)) + 256 + 31) / 32 * 32 }] = false))
    ∧ (∃ (s : State) (tok : Fin 16), NoStall s [GReg.g tok, GReg.w 1, GReg.w 2, GReg.w 4]
      ∧ Calm s
      ∧ (¬(vaOf (s.cur.read (GReg.w 1)) % 8 ≠ 0 ∨ vaOf (s.cur.read (GReg.w 2)) % 256 ≠ 0 ∨ BitVec.toNat (s.cur.read (GReg.w 4)) / 2 ^ 39 ≠ 0 ∨ BitVec.toNat (s.cur.read (GReg.w 4)) / 2 ^ 20 % 2 ^ 12 ≠ 0 ∨ BitVec.toNat (s.cur.read (GReg.w 4)) % 2 ^ 20 = 0 ∨ BitVec.toNat (s.cur.read (GReg.w 4)) / 2 ^ 32 % 2 ^ 7 = 0 ∨ 64 < BitVec.toNat (s.cur.read (GReg.w 4)) / 2 ^ 32 % 2 ^ 7))
      ∧ List.findSome? (fun d : Nat × Nat => destCheck s d.1 d.2) [(vaOf (s.cur.read (GReg.w 1)), 8 * (BitVec.toNat (s.cur.read (GReg.w 4)) / 2 ^ 32 % 2 ^ 7))] = none
      ∧ (decide (8 ≤ (s.trowels.getD (if s.remapped.has s.curCore = true then s.curCore ^^^ 1 else s.curCore) []).length) = true ∨ lockRoom s [{ op := s.opNext, dest := false, lo := vaOf (s.cur.read (GReg.w 2)) / 32 * 32, hi := (vaOf (s.cur.read (GReg.w 2)) + 4 * (BitVec.toNat (s.cur.read (GReg.w 4)) % 2 ^ 20) + 31) / 32 * 32 }, { op := s.opNext, dest := true, lo := vaOf (s.cur.read (GReg.w 1)) / 32 * 32, hi := (vaOf (s.cur.read (GReg.w 1)) + 8 * (BitVec.toNat (s.cur.read (GReg.w 4)) / 2 ^ 32 % 2 ^ 7) + 31) / 32 * 32 }] = false)) := by
  exact ⟨⟨engineIssue_0, 0, .addF32, Option.get (List.findSome? (fun d => destCheck (engineIssue_0) d.1 d.2) [(vaOf ((engineIssue_0).cur.read (GReg.w 1)), BitVec.toNat ((engineIssue_0).cur.read (GReg.w 4)))]) (by decide +kernel), by and_intros <;> first
        | decide +kernel
        | unfold NoStall; decide +kernel
        | (constructor <;> decide +kernel)⟩,
    ⟨engineIssue_1, 0, .addF32, ⟨0,[0,2]⟩, by and_intros <;> first
        | decide +kernel
        | unfold NoStall; decide +kernel
        | (constructor <;> decide +kernel)⟩,
    ⟨engineIssue_2, 0, Option.get (List.findSome? (fun d => destCheck (engineIssue_2) d.1 d.2) [(vaOf ((engineIssue_2).cur.read (GReg.w 1)), 8 * (BitVec.toNat ((engineIssue_2).cur.read (GReg.w 4)) / 2 ^ 32 % 2 ^ 7))]) (by decide +kernel), by and_intros <;> first
        | decide +kernel
        | unfold NoStall; decide +kernel
        | (constructor <;> decide +kernel)⟩,
    ⟨engineIssue_2, 0, Option.get (List.findSome? (fun d => destCheck (engineIssue_2) d.1 d.2) [(vaOf ((engineIssue_2).cur.read (GReg.w 1)), 256)]) (by decide +kernel), by and_intros <;> first
        | decide +kernel
        | unfold NoStall; decide +kernel
        | (constructor <;> decide +kernel)⟩,
    ⟨engineIssue_0, 0, .e4, Option.get (List.findSome? (fun d => destCheck (engineIssue_0) d.1 d.2) [(vaOf ((engineIssue_0).cur.read (GReg.w 1)), ElemSize.bytes (.e4) * if BitVec.toNat ((engineIssue_0).cur.read (GReg.w 2)) / 2 ^ 52 = 0 then 4096 else BitVec.toNat ((engineIssue_0).cur.read (GReg.w 2)) / 2 ^ 52)]) (by decide +kernel), by and_intros <;> first
        | decide +kernel
        | unfold NoStall; decide +kernel
        | (constructor <;> decide +kernel)⟩,
    ⟨engineIssue_3, 0, .e4, .addF32, by and_intros <;> first
        | decide +kernel
        | unfold NoStall; decide +kernel
        | (constructor <;> decide +kernel)⟩,
    ⟨engineIssue_4, 0, .e4, by and_intros <;> first
        | decide +kernel
        | unfold NoStall; decide +kernel
        | (constructor <;> decide +kernel)⟩,
    ⟨engineIssue_5, 0, .e4, by and_intros <;> first
        | decide +kernel
        | unfold NoStall; decide +kernel
        | (constructor <;> decide +kernel)⟩,
    ⟨engineIssue_6, 0, by and_intros <;> first
        | decide +kernel
        | unfold NoStall; decide +kernel
        | (constructor <;> decide +kernel)⟩,
    ⟨engineIssue_7, 0, by and_intros <;> first
        | decide +kernel
        | unfold NoStall; decide +kernel
        | (constructor <;> decide +kernel)⟩,
    ⟨engineIssue_8, 0, by and_intros <;> first
        | decide +kernel
        | unfold NoStall; decide +kernel
        | (constructor <;> decide +kernel)⟩,
    ⟨engineIssue_9, 0, by and_intros <;> first
        | decide +kernel
        | unfold NoStall; decide +kernel
        | (constructor <;> decide +kernel)⟩,
    ⟨engineIssue_10, 0, by and_intros <;> first
        | decide +kernel
        | unfold NoStall; decide +kernel
        | (constructor <;> decide +kernel)⟩⟩

/-- A state of the witnesses. -/
def engineProgress_0 : State :=
  { { (st (fun t => { r4 1 2 3 4 t with run := .ready }) pg) with ops := [(5, { kind := (.coll .addF32), strand := 0, task := 7, part := 0, sink := 0, launch := 0, tok := 3, a := 0x8000000000000, b := 5, c := 0, size := 4, count := 4 }), (6, { kind := (.coll .addF32), strand := 0, task := 7, part := 0, sink := 0, launch := 0, tok := 3, a := 0x8000000000040, b := 5, c := 0, size := 4, count := 4 })], opNext := 9  } with chains := [(2, { gid := 5, part := 0, members := [(0, 5), (1, 6)], closed := false, pos := 0, back := false, value := [], poison := [], done := [] })], spad := Mem.putBytes [] 0 (leBytes 8 0x3F8000003F800000), spadPoison := [0] }
/-- A state of the witnesses. -/
def engineProgress_1 : State :=
  { { (st (fun t => { r4 1 2 3 4 t with run := .ready }) pg) with ops := [(5, { kind := (.coll .addF32), strand := 0, task := 7, part := 0, sink := 0, launch := 0, tok := 3, a := 0x8000000000000, b := 5, c := 0, size := 4, count := 4 }), (6, { kind := (.coll .addF32), strand := 0, task := 7, part := 0, sink := 0, launch := 0, tok := 3, a := 0x8000000000040, b := 5, c := 0, size := 4, count := 4 })], opNext := 9  } with chains := [(2, { gid := 5, part := 0, members := [(0, 5), (1, 6)], closed := true, pos := 0, back := false, value := [], poison := [], done := [] })], spad := Mem.putBytes [] 0 (leBytes 8 0x3F8000003F800000), spadPoison := [0] }
/-- A state of the witnesses. -/
def engineProgress_2 : State :=
  { (st (fun t => { r4 1 2 3 4 t with run := .ready }) pg) with ops := [(5, { kind := .scaleadd, strand := 0, task := 7, part := 0, sink := 0, launch := 0, tok := 3, a := 0x2000, b := 0x2000, c := 0, size := 32, count := 4 }), (6, { kind := .scaleadd, strand := 0, task := 7, part := 0, sink := 0, launch := 0, tok := 3, a := 0x2000, b := 0x2000, c := 0, size := 32, count := 4 })], opNext := 9 , trowels := [(2, [5, 6])] }
/-- A state of the witnesses. -/
def engineProgress_3 : State :=
  { (st (fun t => { r4 1 2 3 4 t with run := .ready }) pg) with ops := [(5, { kind := .scaleadd, strand := 0, task := 7, part := 0, sink := 0, launch := 0, tok := 3, a := 0x2000, b := 0x2000, c := 0, size := 32, count := 4, running := true, yielded := true }), (6, { kind := .scaleadd, strand := 0, task := 7, part := 0, sink := 0, launch := 0, tok := 3, a := 0x2000, b := 0x2000, c := 0, size := 32, count := 4 })], opNext := 9 , trowels := [(2, [5, 6])] }
/-- A state of the witnesses. -/
def engineProgress_4 : State :=
  { (st (fun t => { r4 1 2 3 4 t with pendTok := [3], run := .stall (.token 3) }) pg) with ops := [(5, { kind := .fill, strand := 0, task := 7, part := 0, sink := 0, launch := 0, tok := 3, a := 0x2000, b := 0x2000, c := 0, size := 32, count := 2 })], opNext := 9  }
/-- A state of the witnesses. -/
def engineProgress_5 : State :=
  { (st (fun t => { r4 1 2 3 4 t with run := .ready }) pg) with ops := [], opNext := 9  }
/-- A state of the witnesses. -/
def engineProgress_6 : State :=
  { (st (fun t => { r4 1 2 3 4 t with pendTok := [3], run := .stall (.token 3) }) pg) with ops := [(5, { kind := .gather, strand := 0, task := 7, part := 0, sink := 0, launch := 0, tok := 3, a := 0x2000, b := 0x2000, c := 0, size := 32, count := 2, next := 2 })], opNext := 9  }
/-- Witnesses of `EngineProgress`. -/
theorem witness_EngineProgress :
    (∃ (s : State) (o : EngOp) (c : Chain) (v : CollOp), s.cur.region = none
      ∧ s.cur.halted = false
      ∧ s.chains.find 2 = some c
      ∧ (∀ m ∈ c.members, c.done.has m.2 = false → s.ops.find m.2 = some ((s.ops.find m.2).getD o) ∧ ((s.ops.find m.2).getD o).cancelled = false ∧ ((s.ops.find m.2).getD o).kind = EngKind.coll v ∧ ((s.ops.find m.2).getD o).count = o.count)
      ∧ c.closed = false)
    ∧ (∃ (s : State) (k : Nat) (o : EngOp) (c : Chain) (v : CollOp) (key : Nat), s.cur.region = none
      ∧ s.cur.halted = false
      ∧ s.chains.find 2 = some c
      ∧ (∀ m ∈ c.members, c.done.has m.2 = false → s.ops.find m.2 = some ((s.ops.find m.2).getD o) ∧ ((s.ops.find m.2).getD o).cancelled = false ∧ ((s.ops.find m.2).getD o).kind = EngKind.coll v ∧ ((s.ops.find m.2).getD o).count = o.count)
      ∧ c.closed = true
      ∧ c.back = false
      ∧ v ≠ CollOp.bcast
      ∧ c.members[c.pos]? = some (key, k)
      ∧ c.done.has k = false
      ∧ s.ops.find k = some o
      ∧ c.pos + 1 < c.members.length)
    ∧ (∃ (s : State) (k : Nat) (o : EngOp) (rest : List Nat), s.cur.region = none
      ∧ s.cur.halted = false
      ∧ s.trowels.getD 2 [] = k :: rest
      ∧ s.ops.find k = some o
      ∧ s.stopping o.part = false
      ∧ (∀ j ∈ s.trowels.getD 2 [], ∀ (p : EngOp), s.ops.find j = some p → p.running = false))
    ∧ (∃ (s : State) (k : Nat) (o : EngOp) (rest : List Nat), s.cur.region = none
      ∧ s.cur.halted = false
      ∧ s.trowels.getD 2 [] = k :: rest
      ∧ s.ops.find k = some o
      ∧ o.running = true)
    ∧ (∃ (s : State) (k : Nat) (o : EngOp), s.cur.region = none
      ∧ s.cur.halted = false
      ∧ s.ops.find k = some o
      ∧ tokOp s s.strandId 3 = some (k, o)
      ∧ (o.kind = EngKind.copy ∨ o.kind = EngKind.fill ∨ o.kind = EngKind.gather ∨ o.kind = EngKind.scatter)
      ∧ o.away = false
      ∧ (o.away = true ∨ o.next ≠ o.count))
    ∧ (∃ (s : State), s.cur.region = none
      ∧ s.cur.halted = false
      ∧ tokOp s s.strandId 3 = none)
    ∧ (∃ (s : State) (k : Nat) (o : EngOp), s.cur.region = none
      ∧ s.cur.halted = false
      ∧ s.ops.find k = some o
      ∧ (o.kind = EngKind.copy ∨ o.kind = EngKind.fill ∨ o.kind = EngKind.gather ∨ o.kind = EngKind.scatter)
      ∧ o.away = false
      ∧ o.next = o.count
      ∧ (s.strand o.strand).task = o.task
      ∧ ((s.strand o.strand).run = Run.ready ∨ (s.strand o.strand).run = Run.stall (Stall.token o.tok))) := by
  exact ⟨⟨engineProgress_0, { kind := .scaleadd, strand := 0, task := 7, part := 0, sink := 0, launch := 0, tok := 3, a := 0x2000, b := 0x2000, c := 0, size := 32, count := 4 }, { gid := 5, part := 0, members := [(0, 5), (1, 6)], closed := false, pos := 0, back := false, value := [], poison := [], done := [] }, .addF32, by decide +kernel⟩,
    ⟨engineProgress_1, 5, { kind := (.coll .addF32), strand := 0, task := 7, part := 0, sink := 0, launch := 0, tok := 3, a := 0x8000000000000, b := 5, c := 0, size := 4, count := 4 }, { gid := 5, part := 0, members := [(0, 5), (1, 6)], closed := true, pos := 0, back := false, value := [], poison := [], done := [] }, .addF32, 0, by decide +kernel⟩,
    ⟨engineProgress_2, 5, { kind := .scaleadd, strand := 0, task := 7, part := 0, sink := 0, launch := 0, tok := 3, a := 0x2000, b := 0x2000, c := 0, size := 32, count := 4 }, [6], by decide +kernel⟩,
    ⟨engineProgress_3, 5, { kind := .scaleadd, strand := 0, task := 7, part := 0, sink := 0, launch := 0, tok := 3, a := 0x2000, b := 0x2000, c := 0, size := 32, count := 4, running := true, yielded := true }, [6], by decide +kernel⟩,
    ⟨engineProgress_4, 5, { kind := .fill, strand := 0, task := 7, part := 0, sink := 0, launch := 0, tok := 3, a := 0x2000, b := 0x2000, c := 0, size := 32, count := 2 }, by decide +kernel⟩,
    ⟨engineProgress_5, by decide +kernel⟩,
    ⟨engineProgress_6, 5, { kind := .gather, strand := 0, task := 7, part := 0, sink := 0, launch := 0, tok := 3, a := 0x2000, b := 0x2000, c := 0, size := 32, count := 2, next := 2 }, by decide +kernel⟩⟩

/-- A helper of the witnesses. -/
def cx (x y z : Word) (f : Ctx → Ctx := id) (s : State := base) : State :=
  let c : Ctx := { run := .ready, task := 44 }
  { s with ctxId := 11, ctxs := [(11, f { c with s := ((c.s.set 1 x).set 2 y).set 3 z })] }
/-- A state of the witnesses. -/
def chiselScalars_0 : State :=
  ((words.flatMap fun x => words.map fun y => cx x y 0)).getD 0 State.reset
/-- Witnesses of `ChiselScalars`. -/
theorem witness_ChiselScalars :
    (∃ (s : State) (c : Cond), holds c s.curCtx.s[1] s.curCtx.s[2] = true)
    ∧ (∃ (s : State) (c : Cond), (¬holds c s.curCtx.s[1] s.curCtx.s[2] = true)) := by
  exact ⟨⟨chiselScalars_0, .eq, by decide +kernel⟩,
    ⟨chiselScalars_0, .ne, by decide +kernel⟩⟩

/-- A helper of the witnesses. -/
def chS_ChiselTurns (bs : List Byte) (f : Ctx → Ctx := id) (tlb : List Entry := [openEntry 0 0x1000]) : State :=
  let s := cx 5 7 9 (fun c => f { c with pc := 0x3000 })
  { s with hbm := Mem.putBytes [] 0x3000 bs, chisels := [(1, { tlb := tlb })] }
/-- A helper of the witnesses. -/
def sylW (stop : Bool) (i : Instr) : List Byte := leBytes 4 ((encodeSyllable stop i).getD 0).toNat
/-- A state of the witnesses. -/
def chiselScalars_ChiselTurns_0 : State :=
  chS_ChiselTurns (sylW false (.sAdd .s0 3 1 2) ++ sylW true (.sSub .s1 2 1 3))
/-- A state of the witnesses. -/
def chiselScalars_ChiselTurns_1 : State :=
  chS_ChiselTurns (sylW true .nop) (fun c => { c with pc := 0x8000000003000 })
/-- Witnesses of `ChiselScalars` (part ChiselTurns). -/
theorem witness_ChiselScalars_ChiselTurns :
    (∃ (s : State) (n : Nat) (e : Entry) (j : Nat), 3 < 8
      ∧ (s.ctx (8 * 1 + 3)).run = CRun.ready
      ∧ (s.ctx (8 * 1 + 3)).frozenBy = false
      ∧ s.stopping ((s.clusterPart (chiselCluster 1)).getD 0) = false
      ∧ (s.chisel 1).routine = none
      ∧ (∀ j < 8, j ≠ 3 → (s.ctx (8 * 1 + j)).run ≠ CRun.ready)
      ∧ peekBundle s (8 * 1 + 3) = Peek.bundle [Instr.nop] n
      ∧ j < 8
      ∧ j ≠ 3
      ∧ PlainMemory s
      ∧ window (vaOf (s.ctx (8 * 1 + 3)).pc) < 8
      ∧ List.find? (entryHits (s.ctx (8 * 1 + 3)).part (vaOf (s.ctx (8 * 1 + 3)).pc)) (s.chisel 1).tlb = some e
      ∧ e.until_ = none
      ∧ (leafCmp e.word && e.surface.isNone) = false
      ∧ grants e.word (permX + permU) = true)
    ∧ (∃ (s : State) (n : Nat) (j : Nat), 3 < 8
      ∧ (s.ctx (8 * 1 + 3)).run = CRun.ready
      ∧ (s.ctx (8 * 1 + 3)).frozenBy = false
      ∧ s.stopping ((s.clusterPart (chiselCluster 1)).getD 0) = false
      ∧ (s.chisel 1).routine = none
      ∧ (∀ j < 8, j ≠ 3 → (s.ctx (8 * 1 + j)).run ≠ CRun.ready)
      ∧ peekBundle s (8 * 1 + 3) = Peek.bundle [Instr.sAdd SSlot.s0 3 1 2, Instr.sSub SSlot.s1 2 1 3] n
      ∧ j < 8
      ∧ j ≠ 3)
    ∧ (∃ (s : State) (pa : Nat) (w : W32) (e : Entry) (i : Instr), 3 < 8
      ∧ PlainMemory s
      ∧ window (vaOf (s.ctx (8 * 1 + 3)).pc) < 8
      ∧ List.find? (entryHits (s.ctx (8 * 1 + 3)).part (vaOf (s.ctx (8 * 1 + 3)).pc)) (s.chisel 1).tlb = some e
      ∧ e.until_ = none
      ∧ (leafCmp e.word && e.surface.isNone) = false
      ∧ grants e.word (permX + permU) = true
      ∧ entryPa s e (vaOf (s.ctx (8 * 1 + 3)).pc) = some pa
      ∧ isPoisoned s (Loc.mem pa) = false
      ∧ s.hbm.bytes pa 4 = leBytes 4 (BitVec.toNat w)
      ∧ sylStop w = true
      ∧ decodeBundle (s.ctx (8 * 1 + 3)).delay.isSome [w] = Except.ok [i]
      ∧ fmtTrap { (tickFlight s (8 * 1 + 3)) with ctxId := 8 * 1 + 3 } i = false)
    ∧ (∃ (s : State), 3 < 8
      ∧ (s.ctx (8 * 1 + 3)).run = CRun.ready
      ∧ (s.ctx (8 * 1 + 3)).frozenBy = false
      ∧ s.stopping ((s.clusterPart (chiselCluster 1)).getD 0) = false
      ∧ (s.chisel 1).routine = none
      ∧ (∀ j < 8, j ≠ 3 → (s.ctx (8 * 1 + j)).run ≠ CRun.ready)
      ∧ peekBundle s (8 * 1 + 3) = Peek.trap (match peekBundle s (8 * 1 + 3) with | Peek.trap z addr slots => z | x => Cause.page) (match peekBundle s (8 * 1 + 3) with | Peek.trap c z slots => z | x => 0) (match peekBundle s (8 * 1 + 3) with | Peek.trap c addr z => z | x => [])
      ∧ 8 ≤ window (vaOf (s.ctx (8 * 1 + 3)).pc))
    ∧ (∃ (s : State), 3 < 8
      ∧ window (vaOf (s.ctx (8 * 1 + 3)).pc) < 8
      ∧ List.find? (entryHits (s.ctx (8 * 1 + 3)).part (vaOf (s.ctx (8 * 1 + 3)).pc)) (s.chisel 1).tlb = none
      ∧ (s.ctx (8 * 1 + 3)).run = CRun.ready
      ∧ (s.ctx (8 * 1 + 3)).frozenBy = false
      ∧ s.stopping ((s.clusterPart (chiselCluster 1)).getD 0) = false
      ∧ (s.chisel 1).routine = none
      ∧ (∀ j < 8, j ≠ 3 → (s.ctx (8 * 1 + j)).run ≠ CRun.ready)
      ∧ peekBundle s (8 * 1 + 3) = Peek.miss (match peekBundle s (8 * 1 + 3) with | Peek.miss z => z | x => 0)) := by
  exact ⟨⟨chS_ChiselTurns (sylW true .nop), 1, openEntry 0 0x1000, 0, by and_intros <;> first
        | decide +kernel
        | (constructor <;> decide +kernel)⟩,
    ⟨chiselScalars_ChiselTurns_0, 2, 0, by decide +kernel⟩,
    ⟨chS_ChiselTurns (sylW true .nop), 0x3000, (encodeSyllable true .nop).getD 0, openEntry 0 0x1000, .nop, by and_intros <;> first
        | decide +kernel
        | (constructor <;> decide +kernel)⟩,
    ⟨chiselScalars_ChiselTurns_1, by decide +kernel⟩,
    ⟨chS_ChiselTurns (sylW true .nop) id [], by decide +kernel⟩⟩

/-- A helper of the witnesses. -/
def hIn (g mask : Nat) : Word := mkHandle 0 g 3 3 0 0 mask
/-- A helper of the witnesses. -/
def pOut (b : Nat) : Nat := 128 * chiselPad 1 + b
/-- A helper of the witnesses. -/
def held (s : State) : State := { s with descs := [(3, { st := .held, ctx := 11, gen := 6, task := 44 })], spad := Mem.putBytes [] (posBase 3) ((List.range 64).map fun i => BitVec.ofNat 8 (i % 251 + 3)) }
/-- A helper of the witnesses. -/
def hOut (b : Nat) : Word := mkHandle 1 0 0 b (chiselPad 1 % 24) (chiselPad 1 / 24) 0
/-- A helper of the witnesses. -/
def outT (q : Desc) (s : State) : State := { s with descs := Tbl.put s.descs (pOut 2) q }
/-- A state of the witnesses. -/
def chiselControl_0 : State :=
  cx (0) (0) (0) (fun c => { c with queue := [hIn 6 7, 9] }) (held base)
/-- A state of the witnesses. -/
def chiselControl_1 : State :=
  cx (hOut 2) (mb1) (0) (id) (outT { st := .writing, ctx := 11 } base)
/-- Witnesses of `ChiselControl`. -/
theorem witness_ChiselControl :
    (∃ (s : State) (h : Word) (rest : List Word) (pos : Nat), s.curCtx.queue = h :: rest
      ∧ handlePos h = some pos)
    ∧ (∃ (s : State) (r : SReg) (m : SReg) (pos : Nat), Passes s (Instr.tpost r m)
      ∧ resultPos s s.curCtx.s[r] = some pos)
    ∧ (∃ (s : State) (i : BitVec 11), i.toNat % 16 ≤ 6
      ∧ i.toNat / 16 % 16 ≤ 6
      ∧ s.checked = false
      ∧ s.curCtx.queue = [])
    ∧ (∃ (s : State) (i : BitVec 11), s.checked = false
      ∧ (6 < i.toNat % 16 ∨ 6 < i.toNat / 16 % 16)) := by
  exact ⟨⟨chiselControl_0, hIn 6 7, [9], 3, by decide +kernel⟩,
    ⟨chiselControl_1, 1, 1, pOut 2, by and_intros <;> first
        | decide +kernel
        | unfold Passes; decide +kernel⟩,
    ⟨cx (0) (0) (0) (id) (base), 0, by decide +kernel⟩,
    ⟨cx (0) (0) (0) (id) (base), 0x7, by decide +kernel⟩⟩

/-- A state of the witnesses. -/
def chiselControl_TileTasksEnd_0 : State :=
  { two id (fun t => t) with chisels := [(1, { outbound := [{ pos := pOut 2, handle := hOut 2, addr := mb1, task := 44, part := 0 }, { pos := 0, handle := 0, addr := mb1, task := 5, part := 0 }] })], tasks := [(9, tk 9 (.running 1))] }
/-- A state of the witnesses. -/
def chiselControl_TileTasksEnd_1 : State :=
  { (two id (fun t => { t with mailbox := List.replicate 16 ⟨0, 5, []⟩ })) with chisels := [(1, { outbound := [{ pos := pOut 2, handle := hOut 2, addr := mb1, task := 44, part := 0 }] })], tasks := [(9, tk 9 (.running 1))] }
/-- A state of the witnesses. -/
def chiselControl_TileTasksEnd_2 : State :=
  { cx (0) (0) (0) (id) (base) with chisels := [(1, { mBusy := 5 })], parts := [(0, { st := .running, busy := true })], cycle := 4 }
/-- A state of the witnesses. -/
def chiselControl_TileTasksEnd_3 : State :=
  cx (0) (0) (0) (fun c => { c with run := .draining, queue := [5], flight := [⟨2, .s 1 7⟩] }) ({ base with chisels := [(1, { claims := [(0, 11), (1, 3)] })] })
/-- Witnesses of `ChiselControl` (part TileTasksEnd). -/
theorem witness_ChiselControl_TileTasksEnd :
    (∃ (s : State) (ch : Nat) (k : Nat) (e : Outbound), (s.chisel ch).outbound[k]? = some e
      ∧ e.retryAt ≤ s.cycle
      ∧ (∀ x ∈ List.take k (s.chisel ch).outbound, x.addr ≠ e.addr)
      ∧ deliverMessage s e.part e.addr { kind := 1, sender := e.task, words := [e.handle, 0, 0, 0] } = ((deliverMessage s e.part e.addr { kind := 1, sender := e.task, words := [e.handle, 0, 0, 0] }).1, Code.ok))
    ∧ (∃ (s : State) (ch : Nat) (k : Nat) (e : Outbound) (r : Nat), (s.chisel ch).outbound[k]? = some e
      ∧ e.retryAt ≤ s.cycle
      ∧ (∀ x ∈ List.take k (s.chisel ch).outbound, x.addr ≠ e.addr)
      ∧ mbReceiver e.addr = some r
      ∧ s.strandPart r = e.part
      ∧ taskStrand s e.part (mbTask e.addr) = some r
      ∧ 16 ≤ (s.strand r).mailbox.length)
    ∧ (∃ (s : State) (ch : Nat) (p : Nat), s.clusterPart (chiselCluster ch) = some p
      ∧ s.halting p = true
      ∧ (s.chisel ch).mBusy ≤ s.cycle
      ∧ (s.chisel ch).loadBusy ≤ s.cycle)
    ∧ (∃ (s : State) (ch : Nat) (p : Nat), s.clusterPart (chiselCluster ch) = some p
      ∧ s.halting p = true
      ∧ (s.cycle < (s.chisel ch).mBusy ∨ s.cycle < (s.chisel ch).loadBusy))
    ∧ (∃ (s : State) (ch : Nat) (id : Nat) (p : Nat), s.clusterPart (chiselCluster ch) = some p
      ∧ ((s.ctx id).run ≠ CRun.draining ∨ routineRuns s id = true ∨ (s.ctx id).frozenBy = true))
    ∧ (∃ (s : State) (id : Nat), (s.ctx id).run = CRun.draining
      ∧ (s.ctx id).ending = CtxEnd.done
      ∧ routineRuns s id = false
      ∧ (s.ctx id).frozenBy = false)
    ∧ (∃ (s : State) (ch : Nat) (k : Nat) (e : Outbound), (s.chisel ch).outbound[k]? = some e
      ∧ (s.cycle < e.retryAt ∨ ∃ x ∈ List.take k (s.chisel ch).outbound, x.addr = e.addr)) := by
  exact ⟨⟨chiselControl_TileTasksEnd_0, 1, 0, { pos := pOut 2, handle := hOut 2, addr := mb1, task := 44, part := 0 }, by decide +kernel⟩,
    ⟨chiselControl_TileTasksEnd_1, 1, 0, { pos := pOut 2, handle := hOut 2, addr := mb1, task := 44, part := 0 }, 1, by decide +kernel⟩,
    ⟨chiselControl_TileTasksEnd_2, 0, 0, by decide +kernel⟩,
    ⟨chiselControl_TileTasksEnd_2, 1, 0, by decide +kernel⟩,
    ⟨chiselControl_TileTasksEnd_0, 0, 0, 0, by decide +kernel⟩,
    ⟨chiselControl_TileTasksEnd_3, 11, by decide +kernel⟩,
    ⟨chiselControl_TileTasksEnd_0, 1, 1, { pos := 0, handle := 0, addr := mb1, task := 5, part := 0 }, by decide +kernel⟩⟩

/-- A helper of the witnesses. -/
def lcg (n seed : Nat) : List Byte := (List.range n).map fun i => BitVec.ofNat 8 (((i + 7) * (i + seed) * 2654435761 + seed * 40503) / 4096)
/-- A helper of the witnesses. -/
def vecs (chk : Bool) (fmt : Nat) (x y : Word) (f : State → State := id) : State :=
  { f (cx x y 0 (fun c => { c with fmt := fmt, v := [(0, lcg 64 3), (1, lcg 64 77), (2, (List.range 64).map fun i => BitVec.ofNat 8 (i * 5))], p := c.p.set 0 true })) with checked := chk }
/-- Witnesses of `Vectors` (part VectorArithmetic). -/
theorem witness_Vectors_VectorArithmetic :
    (∃ (f : FmtCode) (g : FmtCode) (x : Fmt) (k : Nat), fmtOf (BitVec.toNat f) = some x
      ∧ BitVec.toNat g ≤ 6
      ∧ k < 64
      ∧ 64 / max (x.width / 8) ((Option.map (fun y => y.width / 8) (fmtOf (BitVec.toNat g))).getD 1) * (x.width / 8) ≤ k)
    ∧ (∃ (f : FmtCode) (g : FmtCode) (x : Fmt), fmtOf (BitVec.toNat f) = some x
      ∧ BitVec.toNat g ≤ 6
      ∧ BitVec.toNat f ≤ 2)
    ∧ (∃ (s : State) (f : FmtCode), 2 < BitVec.toNat f
      ∧ s.checked = false) := by
  exact ⟨⟨1, 0, bf16, 32, by decide +kernel⟩,
    ⟨0, 0, fp32, by decide +kernel⟩,
    ⟨vecs false 0 5 6, 3, by decide +kernel⟩⟩

/-- A state of the witnesses. -/
def vectors_VectorMovement_0 : State :=
  vecs false 0 (hOut 2) (hOut 2) (outT { gen := 255, mask := 9 })
/-- Witnesses of `Vectors` (part VectorMovement). -/
theorem witness_Vectors_VectorMovement :
    (∃ (s : State) (r : SReg) (pos : Nat), resultPos s s.curCtx.s[r] = some pos
      ∧ tileTrap s s.curCtx.s[r] = none
      ∧ Memory.wf s.spad = true
      ∧ ((s.desc pos).st = BufSt.free → TileStill s pos))
    ∧ (∃ (s : State) (f : FmtCode) (x : Fmt) (r : SReg) (row : BitVec 5) (pos : Nat), heldPos s s.curCtx.s[r] = some pos
      ∧ resultPos s s.curCtx.s[r] = none
      ∧ s.checked = false
      ∧ rowPoisoned s pos row.toNat = false
      ∧ fmtOf (BitVec.toNat f) = some x)
    ∧ (∃ (s : State) (r : SReg), heldPos s s.curCtx.s[r] = none
      ∧ s.checked = false) := by
  exact ⟨⟨vecs true 0 (hIn 6 5) (hOut 2) held, 2, pOut 2, by and_intros <;> first
        | decide +kernel
        | intro h; exact tileStill_of (by decide +kernel) (by decide +kernel)⟩,
    ⟨vecs false 0 (hIn 6 5) (hIn 6 2) held, 0, fp32, 1, 0, 3, by decide +kernel⟩,
    ⟨vectors_VectorMovement_0, 1, by decide +kernel⟩⟩

/-- A helper of the witnesses. -/
def mst (fmt : Nat) (mp0 : Word) (small : Bool := false) : State :=
  let s := vecs true fmt 0 0
  let b (n k : Nat) : List Byte := if small then (lcg n k).map fun x => x &&& 0x77 else lcg n k
  { s with
    opmem := Mem.putBytes (Mem.putBytes (Mem.putBytes [] (slotBase 1 0) (b 8 3)) (slotBase 1 2) (b 8 9)) (slotBase 1 5) (b 8 77),
    accMem := Mem.putBytes [] (accBase 1 0) ((List.range 8).flatMap fun i => leBytes 4 (0x3F800000 + i * 70000)),
    ctxs := [(11, { s.curCtx with mp := #v[mp0, 0x3F000000, 0, 0, 0, 0, 5, 0x205] })] }
/-- Witnesses of `Matrices` (part MatrixCalls). -/
theorem witness_Matrices_MatrixCalls :
    (∃ (s : State) (n : BitVec 6), s.checked = true
      ∧ Memory.wf s.accMem = true
      ∧ n.toNat < 7
      ∧ n.toNat = 0)
    ∧ (∃ (s : State) (n : BitVec 6), s.checked = true
      ∧ Memory.wf s.accMem = true
      ∧ n.toNat < 7
      ∧ n.toNat = 1)
    ∧ (∃ (s : State) (n : BitVec 6), s.checked = true
      ∧ Memory.wf s.accMem = true
      ∧ n.toNat < 7
      ∧ n.toNat = 2)
    ∧ (∃ (s : State) (n : BitVec 6), s.checked = true
      ∧ Memory.wf s.accMem = true
      ∧ n.toNat < 7
      ∧ n.toNat = 5)
    ∧ (∃ (s : State) (n : BitVec 6), s.checked = true
      ∧ Memory.wf s.accMem = true
      ∧ n.toNat < 7
      ∧ n.toNat = 4)
    ∧ (∃ (s : State) (n : BitVec 6), s.checked = true
      ∧ Memory.wf s.accMem = true
      ∧ n.toNat < 7
      ∧ n.toNat = 6)
    ∧ (∃ (s : State) (n : BitVec 6), s.checked = true
      ∧ Memory.wf s.accMem = true
      ∧ n.toNat < 7
      ∧ n.toNat = 3) := by
  exact ⟨⟨mst 0x11 0x50000, 0, by decide +kernel⟩,
    ⟨mst 0x11 0x50000, 1, by decide +kernel⟩,
    ⟨mst 0x11 0x50000, 2, by decide +kernel⟩,
    ⟨mst 0x11 0x50000, 5, by decide +kernel⟩,
    ⟨mst 0x11 0x50000, 4, by decide +kernel⟩,
    ⟨mst 0x11 0x50000, 6, by decide +kernel⟩,
    ⟨mst 0x11 0x50000, 3, by decide +kernel⟩⟩

/-- A state of the witnesses. -/
def matrices_MatrixMemory_0 : State :=
  vecs false 0 (hIn 6 5) (hIn 6 5) (fun s => { held s with spad := Mem.putBytes [] (posBase 3) (leBytes 4 0x10000000 ++ leBytes 4 0 ++ List.replicate 2040 0), chisels := [(1, { claims := [(0, 11), (5, 3)], accLog := [⟨0, 11, 0, 0, 6, List.replicate 4096 7⟩], accPoison := [7] })] })
/-- A state of the witnesses. -/
def matrices_MatrixMemory_1 : State :=
  vecs false 0 (hOut 2) 0 (outT { st := .writing, ctx := 11, mask := 9 })
/-- A state of the witnesses. -/
def matrices_MatrixMemory_2 : State :=
  vecs false 0 (hIn 5 5) (hIn 5 5) (fun s => { held s with spad := Mem.putBytes [] (posBase 3) (leBytes 4 0x10000000 ++ leBytes 4 0 ++ List.replicate 2040 0), chisels := [(1, { claims := [(0, 11), (5, 3)], accLog := [⟨0, 11, 0, 0, 6, List.replicate 4096 7⟩], accPoison := [7] })] })
/-- Witnesses of `Matrices` (part MatrixMemory). -/
theorem witness_Matrices_MatrixMemory :
    (∃ (s : State) (o : OSlot) (k : Nat), s.checked = false
      ∧ claimer s ↑o = some k
      ∧ k % 2048 ≠ s.ctxId
      ∧ claimed s ↑o = false)
    ∧ (∃ (s : State) (n : BitVec 6) (acc : Sys2Proof.Acc) (o : OSlot) (h : SReg) (pos : Nat) (b : Nat), Memory.wf s.accMem = true
      ∧ b % 8 ≠ ↑acc
      ∧ heldPos s s.curCtx.s[h] = some pos
      ∧ claimed s ↑o = true
      ∧ (s.chisel s.curChisel).claims.sorted = true
      ∧ (∀ f ∈ s.curCtx.flight, f.isFor ↑o = false)
      ∧ routineUses s s.curChisel ↑o = false
      ∧ (∀ r < 32, rowPoisoned s pos r = false)
      ∧ (claimer s ↑o = none ∨ claimer s ↑o = some s.ctxId ∨ claimer s ↑o = some (2048 + s.ctxId))
      ∧ s.checked = false
      ∧ Passes s (Instr.mstore n h))
    ∧ (∃ (s : State) (acc : Sys2Proof.Acc) (h : SReg) (half : Bool) (pos : Nat), Passes s (Instr.ast acc h half)
      ∧ resultPos s s.curCtx.s[h] = some pos
      ∧ Memory.wf s.spad = true
      ∧ ((s.desc pos).st = BufSt.free → TileStill s pos)
      ∧ (s.chisel s.curChisel).accPoison.has ↑acc = false
      ∧ (astImage s s.curChisel (↑acc) s.ctxId).length = 4096)
    ∧ (∃ (s : State) (h : SReg), s.checked = false
      ∧ heldPos s s.curCtx.s[h] = none) := by
  exact ⟨⟨matrices_MatrixMemory_0, 5, 3, by decide +kernel⟩,
    ⟨matrices_MatrixMemory_0, 16, 0, 0, 1, 3, 3, by and_intros <;> first
        | decide +kernel
        | unfold Passes; decide +kernel⟩,
    ⟨matrices_MatrixMemory_1, 0, 1, false, pOut 2, by and_intros <;> first
        | decide +kernel
        | unfold Passes; decide +kernel
        | intro h; exact tileStill_of (by decide +kernel) (by decide +kernel)⟩,
    ⟨matrices_MatrixMemory_2, 1, by decide +kernel⟩⟩

/-- A helper of the witnesses. -/
def RTN : Routine := { ctx := 11, bundle := 0, cycle := 0, latency := 6, acc := 2, oA := 0, oB := 2, words := [3 * 2 ^ 28 + 2 ^ 23, 3 * 2 ^ 28 + 2 ^ 24], mp := [], fmt := 0, pair := [], slots := [] }
/-- A helper of the witnesses. -/
def rt (s : State) (ws : List Nat) (cko : Bool := true) (f : Chisel → Chisel := id) : State :=
  { s with routineMem := Mem.putBytes [] (2 ^ 17 * 1 + 2048 * 16) (ws.flatMap fun w => leBytes 4 w), checked := cko, chisels := [(1, f { (s.chisel 1) with routines := [16], claims := [(0, 11), (2, 11), (5, 11)] })] }
/-- A helper of the witnesses. -/
def mz (fmt : Nat) (mp0 : Word) : State := cx 0 0 0 (fun c => { c with fmt := fmt, mp := #v[mp0, 0x3F000000, 0, 0, 0, 0, 5, 0x205] })
/-- A helper of the witnesses. -/
def stp (tb mk k x y z : Nat) : Nat := 2 ^ 28 + 2 ^ 27 * tb + 2 ^ 26 * mk + 2 ^ 23 * k + 2 ^ 16 * x + 2 ^ 9 * y + 2 ^ 6 * z
/-- A helper of the witnesses. -/
def clr (k : Nat) : Nat := 3 * 2 ^ 28 + 2 ^ 23 * k
/-- A helper of the witnesses. -/
def una (sel k x : Nat) : Nat := 2 * 2 ^ 28 + 2 ^ 26 * sel + 2 ^ 23 * k + 2 ^ 16 * x
/-- A state of the witnesses. -/
def userRoutines_0 : State × ℕ × ℕ × ℕ × ℕ × ℕ × ℕ × List ℕ :=
  (rt (mz 0x11 0x50000) [stp 0 0 0 0 0 2, 0], 0, 0, 0, 0, 2, 0, [])
/-- A state of the witnesses. -/
def userRoutines_1 : State × ℕ × ℕ × ℕ × ℕ × ℕ × ℕ × List ℕ :=
  (rt (mz 0x11 0x50000) [stp 0 0 0 0 0 0, 0], 0, 0, 0, 0, 0, 0, [])
/-- A state of the witnesses. -/
def userRoutines_2 : State × ℕ × ℕ × ℕ × ℕ × ℕ × ℕ × List ℕ :=
  (rt { (mz 0x11 0x50000) with ctxs := ((mz 0x11 0x50000).ctxs.map fun c => (c.1, { c.2 with run := .held none })) } [clr 1, 0] true (fun c => { c with routine := some RTN }), 0, 1, 0, 0, 0, 0, [clr 2])
/-- A state of the witnesses. -/
def userRoutines_3 : State × ℕ × ℕ × ℕ × ℕ × ℕ × ℕ × List ℕ :=
  (rt (mz 0x11 0x50000) [clr 1, 0], 0, 1, 0, 0, 0, 0, [])
/-- A state of the witnesses. -/
def userRoutines_4 : State × ℕ × ℕ × ℕ × ℕ × ℕ × ℕ × List ℕ :=
  (rt (mz 0x11 0x50000) [stp 1 0 0 1 0 0, 0] false, 0, 0, 1, 0, 0, 0, [])
/-- A state of the witnesses. -/
def userRoutines_5 : State × ℕ × ℕ × ℕ × ℕ × ℕ × ℕ × List ℕ :=
  (rt (mz 0x22 0x30045020) [una 0 2 2, 0], 3, 2, 2, 0, 0, 0, [])
/-- A state of the witnesses. -/
def userRoutines_6 : State × ℕ × ℕ × ℕ × ℕ × ℕ × ℕ × List ℕ :=
  (rt (mz 0x11 0x50000) [una 3 0 2, 0] false, 0, 0, 2, 0, 0, 3, [])
/-- Witnesses of `UserRoutines`. -/
theorem witness_UserRoutines :
    (∃ (s : State) (vn : Nat) (k : Nat) (x : Nat) (y : Nat) (z : Nat) (w6 : Word) (w7 : Word) (tb : Nat) (mk : Nat), 16 ≤ BitVec.toNat (16 : BitVec 6)
      ∧ k < 8
      ∧ x < 128
      ∧ y < 128
      ∧ z < 8
      ∧ s.checked = true
      ∧ ↑(Fin.ofNat 8 (1 + k)) = (↑1 + k) % 8
      ∧ ↑(Fin.ofNat 128 x) = (↑0 + x) % 128
      ∧ ↑(Fin.ofNat 128 (2 + y)) = (↑2 + y) % 128
      ∧ (tb, mk, (BitVec.ofNat 6 vn).toNat) ∈ [(0, 0, 0), (1, 0, 1), (1, 1, 2)]
      ∧ routineWords s s.curChisel (BitVec.toNat (16 : BitVec 6)) = [2 ^ 28 + 2 ^ 27 * tb + 2 ^ 26 * mk + 2 ^ 23 * k + 2 ^ 16 * x + 2 ^ 9 * y + 2 ^ 6 * z]
      ∧ mpSeg w6 = (mpSeg s.curCtx.mp[6] + z) % 8
      ∧ mpSslot w6 = mpSslot s.curCtx.mp[6]
      ∧ mpSeg w7 = (mpSeg s.curCtx.mp[7] + z) % 8
      ∧ mpSslot w7 = mpSslot s.curCtx.mp[7])
    ∧ (∃ (s : State) (vn : Nat) (k : Nat) (x : Nat) (y : Nat) (z : Nat) (sel : Nat) (tb : Nat) (mk : Nat), 16 ≤ BitVec.toNat (16 : BitVec 6)
      ∧ k < 8
      ∧ x < 128
      ∧ y < 128
      ∧ z < 8
      ∧ s.checked = true
      ∧ ↑(Fin.ofNat 8 (1 + k)) = (↑1 + k) % 8
      ∧ ↑(Fin.ofNat 128 x) = (↑0 + x) % 128
      ∧ ↑(Fin.ofNat 128 (2 + y)) = (↑2 + y) % 128
      ∧ (tb, mk, (BitVec.ofNat 6 vn).toNat) ∈ [(0, 0, 0), (1, 0, 1), (1, 1, 2)]
      ∧ routineWords s s.curChisel (BitVec.toNat (16 : BitVec 6)) = [2 ^ 28 + 2 ^ 27 * tb + 2 ^ 26 * mk + 2 ^ 23 * k + 2 ^ 16 * x + 2 ^ 9 * y + 2 ^ 6 * z]
      ∧ z = 0
      ∧ sel < 4
      ∧ Memory.wf s.accMem = true)
    ∧ (∃ (s : State) (k : Nat) (x : Nat) (y : Nat) (z : Nat) (ws : List Nat), 16 ≤ BitVec.toNat (16 : BitVec 6)
      ∧ k < 8
      ∧ x < 128
      ∧ y < 128
      ∧ z < 8
      ∧ (s.chisel s.curChisel).routine = some ((s.chisel s.curChisel).routine.getD RTN)
      ∧ ((s.chisel s.curChisel).routine.getD RTN).words = (3 * 2 ^ 28 + 2 ^ 23 * k) :: ws
      ∧ (∀ j < 8, (s.ctx (8 * s.curChisel + j)).run ≠ CRun.ready)
      ∧ Memory.wf s.accMem = true)
    ∧ (∃ (s : State) (k : Nat) (x : Nat) (y : Nat) (z : Nat) (ws : List Nat), 16 ≤ BitVec.toNat (16 : BitVec 6)
      ∧ k < 8
      ∧ x < 128
      ∧ y < 128
      ∧ z < 8
      ∧ s.checked = true
      ∧ Memory.wf s.accMem = true
      ∧ routineWords s s.curChisel (BitVec.toNat (16 : BitVec 6)) = (3 * 2 ^ 28 + 2 ^ 23 * k) :: ws)
    ∧ (∃ (s : State) (k : Nat) (x : Nat) (y : Nat) (z : Nat), 16 ≤ BitVec.toNat (16 : BitVec 6)
      ∧ k < 8
      ∧ x < 128
      ∧ y < 128
      ∧ z < 8
      ∧ s.checked = false
      ∧ (s.chisel s.curChisel).routines.has (BitVec.toNat (16 : BitVec 6)) = true
      ∧ routineWords s s.curChisel (BitVec.toNat (16 : BitVec 6)) = [2 ^ 28 + 2 ^ 27 * 1 + 2 ^ 26 * 0 + 2 ^ 23 * k + 2 ^ 16 * x + 2 ^ 9 * y + 2 ^ 6 * z]
      ∧ pairOk (s.curCtx.fmt % 16) (s.curCtx.fmt / 16 % 16) = true
      ∧ claimed s ((↑0 + x) % 128) = false)
    ∧ (∃ (s : State) (vn : Nat) (k : Nat) (x : Nat) (y : Nat) (z : Nat) (sel : Nat), 16 ≤ BitVec.toNat (16 : BitVec 6)
      ∧ k < 8
      ∧ x < 128
      ∧ y < 128
      ∧ z < 8
      ∧ s.checked = true
      ∧ ↑(Fin.ofNat 8 (1 + k)) = (↑1 + k) % 8
      ∧ ↑(Fin.ofNat 128 x) = (↑0 + x) % 128
      ∧ ↑(Fin.ofNat 128 (2 + y)) = (↑2 + y) % 128
      ∧ sel < 4
      ∧ (BitVec.ofNat 6 vn).toNat = 3 + sel
      ∧ routineWords s s.curChisel (BitVec.toNat (16 : BitVec 6)) = [2 * 2 ^ 28 + 2 ^ 26 * sel + 2 ^ 23 * k + 2 ^ 16 * x])
    ∧ (∃ (s : State) (k : Nat) (x : Nat) (y : Nat) (z : Nat), 16 ≤ BitVec.toNat (16 : BitVec 6)
      ∧ k < 8
      ∧ x < 128
      ∧ y < 128
      ∧ z < 8
      ∧ s.checked = false
      ∧ (s.chisel s.curChisel).routines.has (BitVec.toNat (16 : BitVec 6)) = true
      ∧ routineWords s s.curChisel (BitVec.toNat (16 : BitVec 6)) = [2 * 2 ^ 28 + 3 * 2 ^ 26 + 2 ^ 23 * k + 2 ^ 16 * x]
      ∧ claimed s ((↑0 + x) % 128) = true
      ∧ (mpCf s.curCtx.mp[0] = 0 ∨ 4 < mpCf s.curCtx.mp[0])) := by
  exact ⟨⟨userRoutines_0.1, userRoutines_0.2.1, userRoutines_0.2.2.1, userRoutines_0.2.2.2.1, userRoutines_0.2.2.2.2.1, userRoutines_0.2.2.2.2.2.1, 0x205, 0x405, 0, 0, by decide +kernel⟩,
    ⟨userRoutines_1.1, userRoutines_1.2.1, userRoutines_1.2.2.1, userRoutines_1.2.2.2.1, userRoutines_1.2.2.2.2.1, userRoutines_1.2.2.2.2.2.1, userRoutines_1.2.2.2.2.2.2.1, 0, 0, by decide +kernel⟩,
    ⟨userRoutines_2.1, userRoutines_2.2.2.1, userRoutines_2.2.2.2.1, userRoutines_2.2.2.2.2.1, userRoutines_2.2.2.2.2.2.1, userRoutines_2.2.2.2.2.2.2.2, by decide +kernel⟩,
    ⟨userRoutines_3.1, userRoutines_3.2.2.1, userRoutines_3.2.2.2.1, userRoutines_3.2.2.2.2.1, userRoutines_3.2.2.2.2.2.1, userRoutines_3.2.2.2.2.2.2.2, by decide +kernel⟩,
    ⟨userRoutines_4.1, userRoutines_4.2.2.1, userRoutines_4.2.2.2.1, userRoutines_4.2.2.2.2.1, userRoutines_4.2.2.2.2.2.1, by decide +kernel⟩,
    ⟨userRoutines_5.1, userRoutines_5.2.1, userRoutines_5.2.2.1, userRoutines_5.2.2.2.1, userRoutines_5.2.2.2.2.1, userRoutines_5.2.2.2.2.2.1, userRoutines_5.2.2.2.2.2.2.1, by decide +kernel⟩,
    ⟨userRoutines_6.1, userRoutines_6.2.2.1, userRoutines_6.2.2.2.1, userRoutines_6.2.2.2.2.1, userRoutines_6.2.2.2.2.2.1, by decide +kernel⟩⟩

/-- A helper of the witnesses. -/
def tree4 : Tbl Node := [(0, ⟨0xFF, 100⟩), (2, ⟨0, 102⟩), (3, ⟨2, 103⟩), (9, ⟨7, 109⟩), (40, ⟨3, 140⟩)]
/-- A helper of the witnesses. -/
def arm (x y : Word) (chk : Bool := false) (q : Desc := {}) : State :=
  { cx x y (hOut 2) (fun c => { c with nodes := tree4 }) (outT q { base with chisels := [(1, { claims := [(5, 11)] })] }) with checked := chk }
/-- Witnesses of `Armature`. -/
theorem witness_Armature :
    (∃ (s : State) (o : OSlot), s.checked = false
      ∧ claimed s ↑o = true
      ∧ BitVec.getLsbD s.curCtx.s[1] 16 = true)
    ∧ (∃ (s : State) (pos : Nat), Passes s (Instr.ttprune 1 2)
      ∧ resultPos s s.curCtx.s[2] = some pos
      ∧ Memory.wf s.spad = true
      ∧ ((s.desc pos).st = BufSt.free → TileStill s pos))
    ∧ (∃ (s : State), s.checked = false
      ∧ nodeLive s.curCtx (BitVec.toNat s.curCtx.s[1] % 2 ^ 8) = false
      ∧ BitVec.getLsbD s.curCtx.s[1] 16 = false
      ∧ (BitVec.toNat s.curCtx.s[1] / 2 ^ 8 % 2 ^ 8 = 255 ∨ nodeLive s.curCtx (BitVec.toNat s.curCtx.s[1] / 2 ^ 8 % 2 ^ 8) = true ∧ BitVec.toNat s.curCtx.s[1] / 2 ^ 8 % 2 ^ 8 < BitVec.toNat s.curCtx.s[1] % 2 ^ 8))
    ∧ (∃ (s : State), s.checked = false
      ∧ BitVec.getLsbD s.curCtx.s[1] 16 = false
      ∧ BitVec.toNat s.curCtx.s[1] / 2 ^ 8 % 2 ^ 8 ≠ 255
      ∧ (nodeLive s.curCtx (BitVec.toNat s.curCtx.s[1] / 2 ^ 8 % 2 ^ 8) = false ∨ BitVec.toNat s.curCtx.s[1] % 2 ^ 8 ≤ BitVec.toNat s.curCtx.s[1] / 2 ^ 8 % 2 ^ 8)) := by
  exact ⟨⟨arm (0x10003) 5, 5, by decide +kernel⟩,
    ⟨arm 3 (hOut 2), pOut 2, by and_intros <;> first
        | decide +kernel
        | unfold Passes; decide +kernel
        | intro h; exact tileStill_of (by decide +kernel) (by decide +kernel)⟩,
    ⟨arm 0xFF07 7, by decide +kernel⟩,
    ⟨arm 0x0904 9, by decide +kernel⟩⟩

/-- A helper of the witnesses. -/
def withT (t : Task) (s : State := { base with strands := [] }) : State := { s with tasks := [(7, t)] }
/-- A helper of the witnesses. -/
def mkT (st : TaskSt) (place : Nat := coreXY 1) (logical : Bool := false) (start : Nat := 0) (fps : List (Nat × Nat) := []) : Task :=
  { part := 0, launch := 5, parent := 0, desc := ⟨0x4000, [1,2,3,4,5,6], place, 77, fps⟩, logical := logical, start := start, st := st, arrival := 4 }
/-- A helper of the witnesses. -/
def busy16 : Tbl Strand := (List.range 16).map fun i => (i, { run := .ready, task := 100 + i })
/-- A state of the witnesses. -/
def tasksStart_0 : State :=
  withT (mkT (.parked 1)) { base with strands := [], cores := [(1, { parked := [7] })] }
/-- A state of the witnesses. -/
def tasksStart_1 : State :=
  { withT (mkT (.queued 0) (coreXY 2)) with strands := busy16 }
/-- A state of the witnesses. -/
def tasksStart_2 : State :=
  withT (mkT (.staging 0) (coreXY 0) false 0 [(0x50000, 32)]) (treed { base with strands := [(0, { run := .bound, task := 7, fstat := 5, mailbox := [⟨1,2,[]⟩] })], poison := [0x200020/32], hbm := Mem.putBytes [] 0x200000 (leBytes 8 0x1122334455667788), parts := [(0, { st := .running, prect := 0, ptroot := 0x100000, tvec0 := 0x9000 })] })
/-- A state of the witnesses. -/
def tasksStart_3 : State :=
  withT (mkT (.walking (coreXY 1))) { base with strands := (List.range 16).map fun i => (16 + i, { run := .ready, task := 100 + i }), cores := [(1, { parked := List.range' 500 3 })], clusters := [(0, { queue := List.range' 2000 4 })] }
/-- A state of the witnesses. -/
def tasksStart_4 : State :=
  withT (mkT (.walking (coreXY 1))) { base with strands := (List.range 16).map fun i => (16 + i, { run := .ready, task := 100 + i }), cores := [(1, { parked := List.range' 500 64 })], clusters := [(0, { queue := List.range' 2000 5 })] }
/-- A state of the witnesses. -/
def tasksStart_5 : State :=
  withT (mkT (.staging 0) (coreXY 0) false 0 [(0x40000, 32), (0x70000, 32)]) (treed { base with strands := [(0, { run := .bound, task := 7, fstat := 5, mailbox := [⟨1,2,[]⟩] })], poison := [0x200020/32], hbm := Mem.putBytes [] 0x200000 (leBytes 8 0x1122334455667788), parts := [(0, { st := .running, prect := 0, ptroot := 0x100000, tvec0 := 0x9000 })] })
/-- A state of the witnesses. -/
def tasksStart_6 : State :=
  withT (mkT (.staging 0) (coreXY 0) false 0 [(0x40000, 64)]) (treed { base with strands := [(0, { run := .bound, task := 7, fstat := 5, mailbox := [⟨1,2,[]⟩] })], poison := [0x200020/32], hbm := Mem.putBytes [] 0x200000 (leBytes 8 0x1122334455667788), parts := [(0, { st := .running, prect := 0, ptroot := 0x100000, tvec0 := 0x9000 })] })
/-- A state of the witnesses. -/
def tasksStart_7 : State :=
  withT (mkT (.walking (coreXY 0))) { base with strands := busy16 }
/-- A state of the witnesses. -/
def tasksStart_8 : State :=
  withT (mkT (.walking (coreXY 1))) { base with strands := (List.range 16).map fun i => (16 + i, { run := .ready, task := 100 + i }), cores := [(1, { parked := List.range' 500 64 })], clusters := [(0, { queue := List.range' 2000 1024 })] }
/-- Witnesses of `TasksStart`. -/
theorem witness_TasksStart :
    (∃ (s : State) (tid : Nat) (id : Nat) (h : Nat) (x : Machine.Task) (c : Nat), s.tasks.find tid = some x
      ∧ hintCore s x = some h
      ∧ s.stopping x.part = false
      ∧ x.st = TaskSt.queued c
      ∧ x.logical = true
      ∧ strandFor s h (tid, x) = some id)
    ∧ (∃ (s : State) (tid : Nat) (id : Nat) (core : Nat) (x : Machine.Task) (rest : List Nat), s.tasks.find tid = some x
      ∧ (s.core core).parked = tid :: rest
      ∧ strandFor s core (tid, x) = some id
      ∧ s.stopping ((s.clusterPart (core / 16)).getD 0) = false)
    ∧ (∃ (s : State) (tid : Nat) (h : Nat) (x : Machine.Task) (c : Nat), s.tasks.find tid = some x
      ∧ hintCore s x = some h
      ∧ s.stopping x.part = false
      ∧ x.st = TaskSt.queued c
      ∧ x.logical = false
      ∧ x.held = false
      ∧ x.start ≠ h
      ∧ coreAt (coreXY x.start % 256) (coreXY x.start / 256) = some x.start
      ∧ freeStrands s x.start = [])
    ∧ (∃ (s : State) (tid : Nat) (id : Nat) (x : Machine.Task), s.tasks.find tid = some x
      ∧ (s.strand id).run = Run.bound
      ∧ (s.strand id).halted = false
      ∧ (s.strand id).task = tid
      ∧ s.stopping x.part = false
      ∧ copyFootprint x.part (footprintBase id) 0 (footprintGranules x.desc) (settleArea { s with strandId := id } id) = CopyEnd.wait (doneOf (copyFootprint x.part (footprintBase id) 0 (footprintGranules x.desc) (settleArea { s with strandId := id } id))))
    ∧ (∃ (s : State) (tid : Nat) (h : Nat) (core : Nat) (x : Machine.Task), s.tasks.find tid = some x
      ∧ hintCore s x = some h
      ∧ s.stopping x.part = false
      ∧ x.st = TaskSt.walking (coreXY core)
      ∧ x.nextAt ≤ s.cycle
      ∧ coreAt (coreXY core % 256) (coreXY core / 256) = some core
      ∧ core = h
      ∧ strandFor s core (tid, x) = none
      ∧ (∀ y ∈ s.tasks, y ≠ (tid, x) → wantsPlace s core y = false)
      ∧ (s.core core).parked.length < 64)
    ∧ (∃ (s : State) (tid : Nat) (h : Nat) (core : Nat) (x : Machine.Task), s.tasks.find tid = some x
      ∧ hintCore s x = some h
      ∧ s.stopping x.part = false
      ∧ x.st = TaskSt.walking (coreXY core)
      ∧ x.nextAt ≤ s.cycle
      ∧ coreAt (coreXY core % 256) (coreXY core / 256) = some core
      ∧ core = h
      ∧ strandFor s core (tid, x) = none
      ∧ (∀ y ∈ s.tasks, y ≠ (tid, x) → wantsPlace s core y = false)
      ∧ 64 ≤ (s.core core).parked.length
      ∧ (s.cluster (core / 16)).queue.length < 1024
      ∧ (∀ y ∈ s.tasks, y ≠ (tid, x) → wantsEntry s (core / 16) y = false))
    ∧ (∃ (s : State) (tid : Nat) (id : Nat) (x : Machine.Task), s.tasks.find tid = some x
      ∧ (s.strand id).run = Run.bound
      ∧ (s.strand id).halted = false
      ∧ (s.strand id).task = tid
      ∧ s.stopping x.part = false
      ∧ copyFootprint x.part (footprintBase id) 0 (footprintGranules x.desc) (settleArea { s with strandId := id } id) = CopyEnd.fault (doneOf (copyFootprint x.part (footprintBase id) 0 (footprintGranules x.desc) (settleArea { s with strandId := id } id))) (faultOf (copyFootprint x.part (footprintBase id) 0 (footprintGranules x.desc) (settleArea { s with strandId := id } id))).1 (faultOf (copyFootprint x.part (footprintBase id) 0 (footprintGranules x.desc) (settleArea { s with strandId := id } id))).2.1 (faultOf (copyFootprint x.part (footprintBase id) 0 (footprintGranules x.desc) (settleArea { s with strandId := id } id))).2.2)
    ∧ (∃ (s : State) (tid : Nat) (h : Nat) (core : Nat) (x : Machine.Task), s.tasks.find tid = some x
      ∧ hintCore s x = some h
      ∧ s.stopping x.part = false
      ∧ x.st = TaskSt.walking (coreXY core)
      ∧ s.cycle < x.nextAt)
    ∧ (∃ (s : State) (tid : Nat) (id : Nat) (h : Nat) (core : Nat) (x : Machine.Task), s.tasks.find tid = some x
      ∧ hintCore s x = some h
      ∧ s.stopping x.part = false
      ∧ x.st = TaskSt.walking (coreXY core)
      ∧ x.nextAt ≤ s.cycle
      ∧ coreAt (coreXY core % 256) (coreXY core / 256) = some core
      ∧ strandFor s core (tid, x) = some id)
    ∧ (∃ (s : State) (tid : Nat) (id : Nat) (x : Machine.Task), s.tasks.find tid = some x
      ∧ (s.strand id).run = Run.bound
      ∧ (s.strand id).halted = false
      ∧ (s.strand id).task = tid
      ∧ s.stopping x.part = false
      ∧ copyFootprint x.part (footprintBase id) 0 (footprintGranules x.desc) (settleArea { s with strandId := id } id) = CopyEnd.done (doneOf (copyFootprint x.part (footprintBase id) 0 (footprintGranules x.desc) (settleArea { s with strandId := id } id)))
      ∧ (doneOf (copyFootprint x.part (footprintBase id) 0 (footprintGranules x.desc) (settleArea { s with strandId := id } id))).tasks = s.tasks)
    ∧ (∃ (s : State) (tid : Nat) (h : Nat) (core : Nat) (x : Machine.Task), s.tasks.find tid = some x
      ∧ hintCore s x = some h
      ∧ s.stopping x.part = false
      ∧ x.st = TaskSt.walking (coreXY core)
      ∧ x.nextAt ≤ s.cycle
      ∧ coreAt (coreXY core % 256) (coreXY core / 256) = some core
      ∧ core ≠ h
      ∧ strandFor s core (tid, x) = none)
    ∧ (∃ (s : State) (tid : Nat) (h : Nat) (core : Nat) (x : Machine.Task), s.tasks.find tid = some x
      ∧ hintCore s x = some h
      ∧ s.stopping x.part = false
      ∧ x.st = TaskSt.walking (coreXY core)
      ∧ x.nextAt ≤ s.cycle
      ∧ coreAt (coreXY core % 256) (coreXY core / 256) = some core
      ∧ core = h
      ∧ strandFor s core (tid, x) = none
      ∧ (∀ y ∈ s.tasks, y ≠ (tid, x) → wantsPlace s core y = false)
      ∧ 64 ≤ (s.core core).parked.length
      ∧ 1024 ≤ (s.cluster (core / 16)).queue.length) := by
  exact ⟨⟨withT (mkT (.queued 0) 0 true 2), 7, 32, 2, Option.get ((withT (mkT (.queued 0) 0 true 2)).tasks.find (7)) (by decide +kernel), 0, by decide +kernel⟩,
    ⟨tasksStart_0, 7, 16, 1, Option.get ((tasksStart_0).tasks.find (7)) (by decide +kernel), [], by decide +kernel⟩,
    ⟨tasksStart_1, 7, 2, Option.get ((tasksStart_1).tasks.find (7)) (by decide +kernel), 0, by decide +kernel⟩,
    ⟨tasksStart_2, 7, 0, Option.get ((tasksStart_2).tasks.find (7)) (by decide +kernel), by and_intros <;> first
        | decide +kernel
        | exact wait_eq (by decide +kernel)⟩,
    ⟨tasksStart_3, 7, 1, 1, Option.get ((tasksStart_3).tasks.find (7)) (by decide +kernel), by decide +kernel⟩,
    ⟨tasksStart_4, 7, 1, 1, Option.get ((tasksStart_4).tasks.find (7)) (by decide +kernel), by decide +kernel⟩,
    ⟨tasksStart_5, 7, 0, Option.get ((tasksStart_5).tasks.find (7)) (by decide +kernel), by and_intros <;> first
        | decide +kernel
        | exact fault_eq (by decide +kernel)⟩,
    ⟨withT { mkT (.walking (coreXY 1)) with nextAt := 5 }, 7, 1, 1, Option.get ((withT { mkT (.walking (coreXY 1)) with nextAt := 5 }).tasks.find (7)) (by decide +kernel), by decide +kernel⟩,
    ⟨withT (mkT (.walking (coreXY 1))), 7, 16, 1, 1, Option.get ((withT (mkT (.walking (coreXY 1)))).tasks.find (7)) (by decide +kernel), by decide +kernel⟩,
    ⟨tasksStart_6, 7, 0, Option.get ((tasksStart_6).tasks.find (7)) (by decide +kernel), by and_intros <;> first
        | decide +kernel
        | exact done_eq (by decide +kernel)⟩,
    ⟨tasksStart_7, 7, 1, 0, Option.get ((tasksStart_7).tasks.find (7)) (by decide +kernel), by decide +kernel⟩,
    ⟨tasksStart_8, 7, 1, 1, Option.get ((tasksStart_8).tasks.find (7)) (by decide +kernel), by decide +kernel⟩⟩

/-- A helper of the witnesses. -/
def lnS (l : Launch) (f : Partition → Partition := id) (s : State := base) : State :=
  { s with launches := [(5, l)], parts := [(0, f { st := .running, granting := some 5 })], cycle := 77, mgmt := { s.mgmt with up := true } }
/-- A helper of the witnesses. -/
def mkL (tiles : List TileRec := []) (tasks : List TaskRec := []) (st : LaunchSt := .releasing) (logical : Bool := false) (w : Nat := 0) (h : Nat := 0) (canc : Bool := false) : Launch :=
  { part := 0, lid := 5, queue := 2, logical := logical, w := w, h := h, waitc := 0, need := 0, sigc := 3, sigen := true, fmbox := 0, fmcap := 0, notify := 9, tiles := tiles, tasks := tasks, st := st, cancelling := canc, stream := 4 }
/-- A helper of the witnesses. -/
def taskR (place : Nat) : TaskRec := ⟨0x4000, [1,2,3,4,5,6], place, 77, []⟩
/-- A helper of the witnesses. -/
def tileR (place : Nat) : TileRec := ⟨0x8000, [1,2,3,4], place, 66⟩
/-- A helper of the witnesses. -/
def chisXY : Nat := ((List.range 4096).find? fun p => (chiselAt (p % 64) (p / 64) == some 1)).elim 0 fun p => p % 64 + 256 * (p / 64)
/-- A state of the witnesses. -/
def launchesRun_0 : State :=
  { withT (mkT (.running 0)) base with clusters := [(5, { reports := [⟨9, 6, 1, 0, 0, 70, 0, 5, false⟩, ⟨3, 6, 1, 0x1234, 8, 7, 0, 5, false⟩] })] }
/-- A state of the witnesses. -/
def launchesRun_1 : State :=
  { base with clusters := [(5, { reports := [⟨9, 6, 1, 0, 0, 70, 0, 5, false⟩, ⟨3, 6, 1, 0x1234, 8, 7, 0, 5, true⟩] })], launches := [(5, mkL [] [] .running)] }
/-- A state of the witnesses. -/
def launchesRun_2 : State :=
  lnS (mkL [] [taskR 0] .queued) fun x => { x with granting := none, queues := [(2, [5, 6])], lqprio := 0 }
/-- A state of the witnesses. -/
def launchesRun_3 : State :=
  lnS (mkL [] [] .running) fun x => { x with granting := none }
/-- A state of the witnesses. -/
def launchesRun_4 : State :=
  { base with ctxs := [(5, { run := .held none, flight := [⟨0, .s 1 7⟩] })] }
/-- Witnesses of `LaunchesRun`. -/
theorem witness_LaunchesRun :
    (∃ (s : State) (l : Launch) (r : Report) (m : PlaceMode) (r : TaskRec) (core : Nat), (s.part 0).granting = some (launchKey 0 5)
      ∧ s.launches.find (launchKey 0 5) = some l
      ∧ l.checked = false
      ∧ l.cancelling = false
      ∧ l.part = 0
      ∧ s.stopping 0 = false
      ∧ releaseChecks s l = Except.ok m
      ∧ l.tiles = []
      ∧ l.tasks = [r]
      ∧ targetCore m r = some core
      ∧ (s.cluster (core / 16)).queue.length < 1024)
    ∧ (∃ (s : State) (l : Launch) (m : PlaceMode) (tr : TileRec) (c : Nat), (s.part 0).granting = some (launchKey 0 5)
      ∧ s.launches.find (launchKey 0 5) = some l
      ∧ l.checked = false
      ∧ l.cancelling = false
      ∧ l.part = 0
      ∧ s.stopping 0 = false
      ∧ releaseChecks s l = Except.ok m
      ∧ l.tiles = [tr]
      ∧ l.tasks = []
      ∧ tileCtx s 0 m tr = some c)
    ∧ (∃ (s : State) (r : Report) (c : Nat) (id : Nat), List.find? (reportReady s) (s.cluster c).reports = some r
      ∧ r.box = false
      ∧ sinkReady s r = some id
      ∧ (s.strand id).run = Run.ready)
    ∧ (∃ (s : State), (s.part 0).granting = some (launchKey 0 5)
      ∧ ((s.part 0).st ≠ PState.running ∨ s.stopping 0 = true ∨ (s.part 0).granting.isSome = true))
    ∧ (∃ (s : State) (l : Launch) (code : Nat), (s.part 0).granting = some (launchKey 0 5)
      ∧ s.launches.find (launchKey 0 5) = some l
      ∧ l.checked = false
      ∧ l.cancelling = false
      ∧ s.stopping 0 = false
      ∧ releaseChecks s l = Except.error code
      ∧ s.mgmt.up = true
      ∧ l.part = 0
      ∧ l.lid = 5
      ∧ s.launches.sorted = true)
    ∧ (∃ (s : State) (r : Report) (c : Nat), List.find? (reportReady s) (s.cluster c).reports = some r
      ∧ r.box = true)
    ∧ (∃ (s : State) (l : Launch) (l : Launch), (s.part 0).st = PState.running
      ∧ s.stopping 0 = false
      ∧ (s.part 0).granting = none
      ∧ roundNext s 0 (s.part 0).roundPrio (s.part 0).roundCount = some (0, 0, 2)
      ∧ readyHead s 0 2 = some 5
      ∧ s.launches.find (launchKey 0 5) = some l
      ∧ launchDone s (launchKey 0 5) l = false)
    ∧ (∃ (s : State) (l : Launch), s.launches.find (launchKey 0 5) = some l
      ∧ launchDone s (launchKey 0 5) l = true
      ∧ l.cancelling = false
      ∧ l.nfault + l.nkill = 0
      ∧ s.mgmt.up = true
      ∧ l.part = 0
      ∧ l.lid = 5
      ∧ s.launches.sorted = true
      ∧ l.sigen = true)
    ∧ (∃ (s : State), (s.ctx 5).run = CRun.held none
      ∧ (s.ctx 5).frozenBy = false
      ∧ resultsReached s 5 = true
      ∧ (∀ f ∈ (s.ctx 5).flight, (match f.dest with | CDest.slot o off bytes => true | x => false) = false)) := by
  exact ⟨⟨lnS (mkL [] [taskR 0]), mkL [] [taskR 0], ⟨3, 6, 1, 0x1234, 8, 7, 0, 5, false⟩, ⟨false, 0, 0, 0, 0⟩, taskR 0, 0, by decide +kernel⟩,
    ⟨lnS (mkL [tileR (chisXY + 3 * 2^16)] []), mkL [tileR (chisXY + 3 * 2^16)] [], ⟨false, 0, 0, 0, 0⟩, tileR (chisXY + 3 * 2^16), 11, by decide +kernel⟩,
    ⟨launchesRun_0, ⟨3, 6, 1, 0x1234, 8, 7, 0, 5, false⟩, 5, 0, by decide +kernel⟩,
    ⟨lnS (mkL [] [taskR 0]), by decide +kernel⟩,
    ⟨lnS (mkL [tileR 0xFFFF] []), mkL [tileR 0xFFFF] [], 4, by decide +kernel⟩,
    ⟨launchesRun_1, ⟨3, 6, 1, 0x1234, 8, 7, 0, 5, true⟩, 5, by decide +kernel⟩,
    ⟨launchesRun_2, mkL [] [taskR 0] .queued, Option.get ((launchesRun_2).launches.find (launchKey 0 5)) (by decide +kernel), by decide +kernel⟩,
    ⟨launchesRun_3, mkL [] [] .running, by decide +kernel⟩,
    ⟨launchesRun_4, by decide +kernel⟩⟩

/-- A state of the witnesses. -/
def partitionCommands_0 : State :=
  { base with parts := [(1, { st := .stopped, prect := 2 + 48 })], mgmt := { base.mgmt with up := true }, streams := [] , cores := [(0, { tlb := [openEntry 0 0x1000, openEntry 1 0x1000] })] }
/-- A state of the witnesses. -/
def partitionCommands_1 : State :=
  { base with parts := [(1, { st := .running, prect := 2 + 48 })], mgmt := { base.mgmt with up := true }, streams := []  }
/-- A state of the witnesses. -/
def partitionCommands_2 : State :=
  { base with parts := [(1, { st := .stopped, prect := 2 + 48, pools := [(2, 2^63 + 5 * 2^32 + 7)], poolBases := [(2, 0x300000)] })], mgmt := { base.mgmt with up := true }, streams := []  }
/-- A state of the witnesses. -/
def partitionCommands_3 : State :=
  { base with parts := [(1, { st := .off, prect := 2 + 48 })], mgmt := { base.mgmt with up := true }, streams := []  }
/-- A state of the witnesses. -/
def partitionCommands_4 : State :=
  { base with parts := [(1, { st := .off, prect := 3 })], mgmt := { base.mgmt with up := true }, streams := []  }
/-- Witnesses of `PartitionCommands`. -/
theorem witness_PartitionCommands :
    (∃ (s : State) (p : Nat) (m : HostMsg) (n : Nat), (s.part p).st = PState.stopped
      ∧ m.part = p
      ∧ m.addr = 8589934592 + 4096 * p
      ∧ numAt m.payload 0 8 % 8 = 1
      ∧ ((s.part p).st ≠ PState.running ∨ ∃ l ∈ s.launches, l.2.part = p ∧ l.2.st ≠ LaunchSt.queued)
      ∧ (∀ n ∈ enabledPools s p, poolOk s p (BitVec.toNat ((s.part p).pools.getD n 0)) (BitVec.toNat ((s.part p).poolBases.getD n 0)) = true)
      ∧ (s.part p).st ≠ PState.off)
    ∧ (∃ (s : State) (p : Nat), (s.part p).st = PState.running
      ∧ (¬∃ l ∈ s.launches, l.2.part = p ∧ l.2.st ≠ LaunchSt.queued))
    ∧ (∃ (s : State) (p : Nat), (s.part p).st = PState.stopped
      ∧ (¬∀ n ∈ enabledPools s p, poolOk s p (BitVec.toNat ((s.part p).pools.getD n 0)) (BitVec.toNat ((s.part p).poolBases.getD n 0)) = true))
    ∧ (∃ (p : Nat) (m : HostMsg), m.part = p
      ∧ m.addr = 8589934592 + 4096 * p
      ∧ numAt m.payload 0 8 % 8 = 4)
    ∧ (∃ (s : State) (p : Nat), (s.part p).st = PState.off
      ∧ prectShape (s.part p).prect = true
      ∧ (¬∃ c < 32, prectHas (s.part p).prect c = true ∧ c ∈ s.deadClusters)
      ∧ (∃ c < 32, prectHas (s.part p).prect c = true ∧ (s.clusterPart c).isSome = true)
      ∧ (s.part p).st ≠ PState.stopped)
    ∧ (∃ (p : Nat) (m : HostMsg), m.part = p
      ∧ m.addr = 4294967296 + 4096 * p
      ∧ numAt m.payload 0 8 % 8 = 2)
    ∧ (∃ (s : State) (p : Nat), (s.part p).st = PState.off
      ∧ prectShape (s.part p).prect = true
      ∧ (¬∃ c < 32, prectHas (s.part p).prect c = true ∧ c ∈ s.deadClusters)
      ∧ (¬∃ c < 32, prectHas (s.part p).prect c = true ∧ (s.clusterPart c).isSome = true))
    ∧ (∃ (p : Nat) (m : HostMsg), m.part = p
      ∧ m.addr = 4294967296 + 4096 * p
      ∧ numAt m.payload 0 8 % 8 = 1)
    ∧ (∃ (p : Nat) (m : HostMsg), m.part = p
      ∧ m.addr = 4294967296 + 4096 * p
      ∧ numAt m.payload 0 8 % 8 = 5)
    ∧ (∃ (p : Nat) (m : HostMsg), m.part = p
      ∧ m.addr = 4294967296 + 4096 * p
      ∧ numAt m.payload 0 8 % 8 = 3)
    ∧ (∃ (s : State) (p : Nat), (s.part p).st = PState.off
      ∧ (prectShape (s.part p).prect = false ∨ ∃ c < 32, prectHas (s.part p).prect c = true ∧ c ∈ s.deadClusters))
    ∧ (∃ (p : Nat) (m : HostMsg), m.part = p
      ∧ m.addr = 8589934592 + 4096 * p
      ∧ numAt m.payload 0 8 % 8 = 3)
    ∧ (∃ (p : Nat) (m : HostMsg), m.part = p
      ∧ m.addr = 8589934592 + 4096 * p
      ∧ numAt m.payload 0 8 % 8 = 2) := by
  exact ⟨⟨partitionCommands_0, 1, { magic := 0x4F5A, ver := 1, part := 1, stream := 0, seq := 1, ackn := 0, tag := 0, addr := 0x200001000, payload := leBytes 8 1 }, 0, by decide +kernel⟩,
    ⟨partitionCommands_1, 1, by decide +kernel⟩,
    ⟨partitionCommands_2, 1, by decide +kernel⟩,
    ⟨1, { magic := 0x4F5A, ver := 1, part := 1, stream := 0, seq := 1, ackn := 0, tag := 0, addr := 0x200001000, payload := leBytes 8 4 }, by decide +kernel⟩,
    ⟨partitionCommands_0, 0, by decide +kernel⟩,
    ⟨1, { magic := 0x4F5A, ver := 1, part := 1, stream := 0, seq := 1, ackn := 0, tag := 0, addr := 0x100001000, payload := leBytes 8 2 }, by decide +kernel⟩,
    ⟨partitionCommands_3, 1, by decide +kernel⟩,
    ⟨1, { magic := 0x4F5A, ver := 1, part := 1, stream := 0, seq := 1, ackn := 0, tag := 0, addr := 0x100001000, payload := leBytes 8 1 }, by decide +kernel⟩,
    ⟨1, { magic := 0x4F5A, ver := 1, part := 1, stream := 0, seq := 1, ackn := 0, tag := 0, addr := 0x100001000, payload := leBytes 8 5 }, by decide +kernel⟩,
    ⟨1, { magic := 0x4F5A, ver := 1, part := 1, stream := 0, seq := 1, ackn := 0, tag := 0, addr := 0x100001000, payload := leBytes 8 3 }, by decide +kernel⟩,
    ⟨partitionCommands_4, 1, by decide +kernel⟩,
    ⟨1, { magic := 0x4F5A, ver := 1, part := 1, stream := 0, seq := 1, ackn := 0, tag := 0, addr := 0x200001000, payload := leBytes 8 3 }, by decide +kernel⟩,
    ⟨1, { magic := 0x4F5A, ver := 1, part := 1, stream := 0, seq := 1, ackn := 0, tag := 0, addr := 0x200001000, payload := leBytes 8 2 }, by decide +kernel⟩⟩

/-- A state of the witnesses. -/
def preemption_0 : State :=
  { base with parts := [(1, { st := .running, prect := 2 + 48 , busy := true })], mgmt := { base.mgmt with up := true }, streams := [] , strands := [], trowels := [(2, [5, 6]), (3, [0])], ops := [(0, { kind := .scaleadd, strand := 0, task := 7, part := 1, sink := 0, launch := 0, tok := 3, a := 0x2000, b := 0x2000, c := 0, size := 32, count := 2, running := true }), (5, { kind := .scaleadd, strand := 0, task := 7, part := 1, sink := 0, launch := 0, tok := 3, a := 0x2000, b := 0x2000, c := 0, size := 32, count := 2, running := true })] }
/-- A state of the witnesses. -/
def preemption_1 : State :=
  { base with parts := [(1, { st := .running, prect := 2 + 48 , busy := true })], mgmt := { base.mgmt with up := true }, streams := [] , strands := [(0, { run := .ready, winMove := some ⟨true, 9, []⟩ })] }
/-- A state of the witnesses. -/
def preemption_2 : State :=
  { base with parts := [(1, { st := .running, prect := 2 + 48 , busy := true })], mgmt := { base.mgmt with up := true }, streams := [] , trowels := [(2, [5, 6])], ops := [(5, { kind := .scaleadd, strand := 0, task := 7, part := 1, sink := 0, launch := 0, tok := 3, a := 0x2000, b := 0x2000, c := 0, size := 32, count := 2, running := true })] }
/-- A state of the witnesses. -/
def preemption_3 : State :=
  { base with parts := [(1, { st := .running, prect := 2 + 48 , haltedBit := true, savedBit := true })], mgmt := { base.mgmt with up := true }, streams := [] , strands := [(0, { run := .ready, halted := true })], ctxs := [(5, { run := .ready, frozenBy := true })] }
/-- A state of the witnesses. -/
def preemption_4 : State :=
  { base with parts := [(1, { st := .running, prect := 2 + 48 , busy := true })], mgmt := { base.mgmt with up := true }, streams := []  }
/-- A state of the witnesses. -/
def preemption_5 : State :=
  { base with parts := [(1, { st := .running, prect := 2 + 48 , haltedBit := true, saveWanted := true, busy := true })], mgmt := { base.mgmt with up := true }, streams := [] , ops := [(5, { kind := .scaleadd, strand := 0, task := 7, part := 1, sink := 0, launch := 0, tok := 3, a := 0x2000, b := 0x2000, c := 0, size := 32, count := 2, suspended := true, inst := 4 })] }
/-- A state of the witnesses. -/
def preemption_6 : State :=
  { base with parts := [(1, { st := .running, prect := 2 + 48  })], mgmt := { base.mgmt with up := true }, streams := []  }
/-- A state of the witnesses. -/
def preemption_7 : State :=
  { base with parts := [(1, { st := .running, prect := 2 + 48  })], mgmt := { base.mgmt with up := true }, streams := [] , strands := [] }
/-- Witnesses of `Preemption`. -/
theorem witness_Preemption :
    (∃ (s : State) (k : Nat) (o : EngOp) (rest : List Nat), s.trowels.getD 2 [] = k :: rest
      ∧ s.ops.find k = some o
      ∧ o.running = true
      ∧ s.halting o.part = true
      ∧ o.part = 1
      ∧ (∀ i ∈ partStrands s 1, (s.strand i).halted = true)
      ∧ (∀ i ∈ partCtxs s 1, (s.ctx i).frozenBy = true))
    ∧ (∃ (s : State) (id : Nat), s.strandPart id = 1
      ∧ s.halting 1 = true
      ∧ (s.strand id).run = Run.ready
      ∧ (s.strand id).halted = false
      ∧ (s.strand id).pend = []
      ∧ ((s.part 1).haltedBit = false ∨ (s.part 1).saveWanted = false)
      ∧ (s.strand id).winMove.isSome = true
      ∧ (¬((s.part 1).st = PState.running ∧ (s.part 1).busy = false ∧ (s.part 1).haltedBit = false))
      ∧ ((s.part 1).st ≠ PState.running ∨ (s.part 1).busy = true ∨ (s.part 1).haltedBit = false)
      ∧ (s.strand id).region = none
      ∧ (s.part 1).st = PState.running
      ∧ (s.strand id).owed = false)
    ∧ (∃ (s : State) (id : Nat) (o : EngOp), s.strandPart id = 1
      ∧ s.halting 1 = true
      ∧ (s.strand id).run = Run.ready
      ∧ (s.strand id).halted = false
      ∧ (s.strand id).pend = []
      ∧ (s.strand id).region = none
      ∧ (s.strand id).owed = false
      ∧ (s.strand id).winMove = none
      ∧ (¬((∀ i ∈ partStrands s 1, i ≠ id → (s.strand i).halted = true) ∧ (∀ i ∈ partCtxs s 1, (s.ctx i).frozenBy = true) ∧ ∀ o ∈ s.ops, o.2.part = 1 → o.2.running = false)))
    ∧ (∃ (s : State), (s.part 1).st = PState.running
      ∧ (s.part 1).busy = false
      ∧ (s.part 1).haltedBit = true
      ∧ (∀ i ∈ partStrands s 1, (s.strand i).run = Run.ready))
    ∧ (∃ (s : State) (id : Nat) (o : EngOp), s.strandPart id = 1
      ∧ s.halting 1 = true
      ∧ (s.strand id).run = Run.ready
      ∧ (s.strand id).halted = false
      ∧ (s.strand id).pend = []
      ∧ (s.strand id).region = none
      ∧ (s.strand id).owed = false
      ∧ (s.strand id).winMove = none
      ∧ ((∀ i ∈ partStrands s 1, i ≠ id → (s.strand i).halted = true) ∧ (∀ i ∈ partCtxs s 1, (s.ctx i).frozenBy = true) ∧ ∀ o ∈ s.ops, o.2.part = 1 → o.2.running = false))
    ∧ (∃ (s : State) (o : EngOp), (s.part 1).haltedBit = true
      ∧ (s.part 1).saveWanted = true
      ∧ (∀ o ∈ s.ops, o.2.part = 1 → (o.2.kind = EngKind.scaleadd ∨ o.2.kind = EngKind.topk) ∧ o.2.running = false)
      ∧ (∀ w ∈ s.swaps, w.2.part ≠ 1))
    ∧ (∃ (s : State) (o : EngOp), ((s.part 1).st = PState.running ∧ (s.part 1).busy = false ∧ (s.part 1).haltedBit = false)
      ∧ (s.part 1).st = PState.running
      ∧ (s.part 1).busy = false
      ∧ (¬((∀ i ∈ partStrands s 1, (s.strand i).halted = true) ∧ (∀ i ∈ partCtxs s 1, (s.ctx i).frozenBy = true) ∧ ∀ o ∈ s.ops, o.2.part = 1 → o.2.running = false)))
    ∧ (∃ (s : State) (o : EngOp), ((s.part 1).st = PState.running ∧ (s.part 1).busy = false ∧ (s.part 1).haltedBit = false)
      ∧ ((∀ i ∈ partStrands s 1, (s.strand i).halted = true) ∧ (∀ i ∈ partCtxs s 1, (s.ctx i).frozenBy = true) ∧ ∀ o ∈ s.ops, o.2.part = 1 → o.2.running = false)) := by
  exact ⟨⟨preemption_0, 5, { kind := .scaleadd, strand := 0, task := 7, part := 1, sink := 0, launch := 0, tok := 3, a := 0x2000, b := 0x2000, c := 0, size := 32, count := 2, running := true }, [6], by decide +kernel⟩,
    ⟨preemption_1, 0, by decide +kernel⟩,
    ⟨preemption_2, 0, { kind := .scaleadd, strand := 0, task := 7, part := 1, sink := 0, launch := 0, tok := 3, a := 0x2000, b := 0x2000, c := 0, size := 32, count := 2, running := true }, by decide +kernel⟩,
    ⟨preemption_3, by decide +kernel⟩,
    ⟨preemption_4, 0, { kind := .scaleadd, strand := 0, task := 7, part := 1, sink := 0, launch := 0, tok := 3, a := 0x2000, b := 0x2000, c := 0, size := 32, count := 2, running := true }, by decide +kernel⟩,
    ⟨preemption_5, { kind := .scaleadd, strand := 0, task := 7, part := 1, sink := 0, launch := 0, tok := 3, a := 0x2000, b := 0x2000, c := 0, size := 32, count := 2, running := true }, by decide +kernel⟩,
    ⟨preemption_6, { kind := .scaleadd, strand := 0, task := 7, part := 1, sink := 0, launch := 0, tok := 3, a := 0x2000, b := 0x2000, c := 0, size := 32, count := 2, running := true }, by decide +kernel⟩,
    ⟨preemption_7, { kind := .scaleadd, strand := 0, task := 7, part := 1, sink := 0, launch := 0, tok := 3, a := 0x2000, b := 0x2000, c := 0, size := 32, count := 2, running := true }, by decide +kernel⟩⟩

/-- A state of the witnesses. -/
def hostCommands_0 : HostMsg × State :=
  (hm 0 0x20000 (leBytes 8 0x10000 ++ [1,2,3,4,5,6,7,3]), hS (hm 0 0x20000 (leBytes 8 0x10000 ++ [1,2,3,4,5,6,7,3])) (fun s => { s with regs := [⟨0, 0x20000, 0x10000, [], true, true⟩] }))
/-- A state of the witnesses. -/
def hostCommands_1 : HostMsg × State :=
  (hm 0xFF 0x10020 (leBytes 8 0x10001), hS (hm 0xFF 0x10020 (leBytes 8 0x10001)) (id))
/-- A state of the witnesses. -/
def hostCommands_2 : HostMsg × State :=
  (hm 0 0x70000 ((List.range 32).map fun i => BitVec.ofNat 8 (i + 90)), hS (hm 0 0x70000 ((List.range 32).map fun i => BitVec.ofNat 8 (i + 90))) (id))
/-- A state of the witnesses. -/
def hostCommands_3 : HostMsg × State :=
  (hm 0 5 [], hS (hm 0 5 []) (fun s => { s with launches := [(5, mkL [] [])] }))
/-- A state of the witnesses. -/
def hostCommands_4 : HostMsg × State :=
  (hm 0 0 (leBytes 4 5 ++ [2,0,0,0] ++ leBytes 2 1 ++ leBytes 2 0 ++ List.replicate 52 0 ++ leBytes 8 0x4000 ++ List.replicate 120 0), hS (hm 0 0 (leBytes 4 5 ++ [2,0,0,0] ++ leBytes 2 1 ++ leBytes 2 0 ++ List.replicate 52 0 ++ leBytes 8 0x4000 ++ List.replicate 120 0)) (id))
/-- A state of the witnesses. -/
def hostCommands_5 : HostMsg × State :=
  (hm 0 0x200000018 (leBytes 8 300), hS (hm 0 0x200000018 (leBytes 8 300)) (id))
/-- A state of the witnesses. -/
def hostCommands_6 : HostMsg × State :=
  (hm 0 0x70000 (leBytes 4 32), hS (hm 0 0x70000 (leBytes 4 32)) (id))
/-- A state of the witnesses. -/
def hostCommands_7 : HostMsg × State :=
  (hm 0 0x20000 [], hS (hm 0 0x20000 []) (fun s => { s with regs := [⟨0, 0x20000, 0x10000, [], true, true⟩], hostReqs := [⟨7, .engine 5 0, 0, false, 0xD000000020040, 32, 0, 0⟩] }))
/-- A state of the witnesses. -/
def hostCommands_8 : HostMsg × State :=
  (hm 1 0 (leBytes 4 5 ++ [2,0,0,0] ++ leBytes 2 1 ++ leBytes 2 0 ++ List.replicate 52 0 ++ leBytes 8 0x4000 ++ List.replicate 120 0), hS (hm 1 0 (leBytes 4 5 ++ [2,0,0,0] ++ leBytes 2 1 ++ leBytes 2 0 ++ List.replicate 52 0 ++ leBytes 8 0x4000 ++ List.replicate 120 0)) (id))
/-- A state of the witnesses. -/
def hostCommands_9 : HostMsg × State :=
  (hm 0 0x20000 (leBytes 8 0x10000 ++ [1,2,3,4,5,6,7,3]), hS (hm 0 0x20000 (leBytes 8 0x10000 ++ [1,2,3,4,5,6,7,3])) (id))
/-- A state of the witnesses. -/
def hostCommands_10 : HostMsg × State :=
  (hm 0 0x40000 (leBytes 4 32), hS (hm 0 0x40000 (leBytes 4 32)) (id))
/-- A state of the witnesses. -/
def hostCommands_11 : HostMsg × State :=
  (hm 0 0x40000 ((List.range 32).map fun i => BitVec.ofNat 8 (i + 90)), hS (hm 0 0x40000 ((List.range 32).map fun i => BitVec.ofNat 8 (i + 90))) (id))
/-- A state of the witnesses. -/
def hostCommands_12 : HostMsg × State :=
  (hm 0 0x200000000 (leBytes 8 1), hS (hm 0 0x200000000 (leBytes 8 1)) (fun s => { s with parts := [(0, { st := .off, prect := 50 })] }))
/-- Witnesses of `HostCommands`. -/
theorem witness_HostCommands :
    (∃ (s : State) (m : HostMsg) (r : Registration), Takes s m
      ∧ NextOn (takeAck s m) m
      ∧ (m.part < 8 ∧ ((takeAck s m).part m.part).st ≠ PState.off)
      ∧ List.find? (fun r => r.part == m.part && r.off == m.addr) (takeAck s m).regs = some r
      ∧ regBusy (takeAck s m) r = false
      ∧ m.payload.length = 16
      ∧ m.addr % 65536 = 0
      ∧ numAt m.payload 0 8 % 65536 = 0
      ∧ 0 < numAt m.payload 0 8
      ∧ numAt m.payload 0 8 ≤ 2 ^ 40
      ∧ m.addr + numAt m.payload 0 8 ≤ 2 ^ 48
      ∧ numAt m.payload 15 1 < 4
      ∧ (1024 ≤ (List.filter (fun r => r.part == m.part) (takeAck s m).regs).length ∨ ∃ r ∈ List.filter (fun r => r.part == m.part) (takeAck s m).regs, m.addr < r.off + r.len ∧ r.off < m.addr + numAt m.payload 0 8))
    ∧ (∃ (s : State) (m : HostMsg) (v : Nat), Takes s m
      ∧ NextOn (takeAck s m) m
      ∧ 8 ≤ m.part
      ∧ sp1Read (takeAck s m) m.addr = some v
      ∧ m.payload.length = 8
      ∧ (match sp1Write (takeAck s m) m.addr (numAt m.payload 0 8) false with | Written.done s => true | x => false) = true
      ∧ NextOn (match sp1Write (takeAck s m) m.addr (numAt m.payload 0 8) false with | Written.done u => u | x => s) m)
    ∧ (∃ (s : State) (m : HostMsg) (f : Cause), Takes s m
      ∧ NextOn (takeAck s m) m
      ∧ (m.part < 8 ∧ ((takeAck s m).part m.part).st ≠ PState.off)
      ∧ m.addr % 32 = 0
      ∧ m.payload.length = 32
      ∧ hostPlace (takeAck s m) m.part (m.addr % 2 ^ 52) permW true = Except.error f)
    ∧ (∃ (s : State) (m : HostMsg) (l : Launch), Takes s m
      ∧ NextOn (takeAck s m) m
      ∧ (m.part < 8 ∧ ((takeAck s m).part m.part).st ≠ PState.off)
      ∧ m.addr < 2 ^ 32
      ∧ NextOn (cancelLaunch (takeAck s m) m.part m.addr).1 m
      ∧ (takeAck s m).launches.find (launchKey m.part m.addr) = some l
      ∧ l.st = LaunchSt.releasing)
    ∧ (∃ (s : State) (m : HostMsg), Takes s m
      ∧ NextOn (takeAck s m) m
      ∧ m.part < 8
      ∧ (m.part < 8 ∧ ((takeAck s m).part m.part).st ≠ PState.off)
      ∧ m.addr < 2 ^ 32
      ∧ NextOn (cancelLaunch (takeAck s m) m.part m.addr).1 m
      ∧ (takeAck s m).launches.find (launchKey m.part m.addr) = none
      ∧ m.addr % 32 = 0
      ∧ NextOn (takeLaunch (takeAck s m) m.part m.stream m.payload).1 m
      ∧ (takeLaunch (takeAck s m) m.part m.stream m.payload).2 = Code.ok)
    ∧ (∃ (s : State) (m : HostMsg), Takes s m
      ∧ NextOn (takeAck s m) m
      ∧ m.part < 8
      ∧ 4294967296 ≤ m.addr
      ∧ m.payload.length = 8
      ∧ enables (takeAck s m) m = false
      ∧ sysWrite (takeAck s m) m.part m.addr (numAt m.payload 0 8) true = Except.ok (match sysWrite (takeAck s m) m.part m.addr (numAt m.payload 0 8) true with | Except.ok u => u | x => s)
      ∧ NextOn (match sysWrite (takeAck s m) m.part m.addr (numAt m.payload 0 8) true with | Except.ok u => u | x => s) m)
    ∧ (∃ (s : State) (m : HostMsg) (f : Cause), Takes s m
      ∧ NextOn (takeAck s m) m
      ∧ (m.part < 8 ∧ ((takeAck s m).part m.part).st ≠ PState.off)
      ∧ m.addr % 32 = 0
      ∧ m.payload = leBytes 4 32
      ∧ hostPlace (takeAck s m) m.part (m.addr % 2 ^ 52) permR false = Except.error f)
    ∧ (∃ (s : State) (m : HostMsg) (v : Nat), Takes s m
      ∧ NextOn (takeAck s m) m
      ∧ m.part < 8
      ∧ 4294967296 ≤ m.addr
      ∧ sysRead (takeAck s m) m.part m.addr = Except.ok v)
    ∧ (∃ (s : State) (m : HostMsg) (r : Registration), Takes s m
      ∧ NextOn (takeAck s m) m
      ∧ (m.part < 8 ∧ ((takeAck s m).part m.part).st ≠ PState.off)
      ∧ List.find? (fun r => r.part == m.part && r.off == m.addr) (takeAck s m).regs = some r
      ∧ regBusy (takeAck s m) r = true)
    ∧ (∃ (s : State) (m : HostMsg), Takes s m
      ∧ NextOn (takeAck s m) m
      ∧ (¬(m.part < 8 ∧ ((takeAck s m).part m.part).st ≠ PState.off)))
    ∧ (∃ (s : State) (m : HostMsg), Takes s m
      ∧ NextOn (takeAck s m) m
      ∧ (m.part < 8 ∧ ((takeAck s m).part m.part).st ≠ PState.off)
      ∧ m.payload.length = 16
      ∧ m.addr % 65536 = 0
      ∧ numAt m.payload 0 8 % 65536 = 0
      ∧ 0 < numAt m.payload 0 8
      ∧ numAt m.payload 0 8 ≤ 2 ^ 40
      ∧ m.addr + numAt m.payload 0 8 ≤ 2 ^ 48
      ∧ numAt m.payload 15 1 < 4
      ∧ (List.filter (fun r => r.part == m.part) (takeAck s m).regs).length < 1024
      ∧ (∀ r ∈ List.filter (fun r => r.part == m.part) (takeAck s m).regs, m.addr + numAt m.payload 0 8 ≤ r.off ∨ r.off + r.len ≤ m.addr))
    ∧ (∃ (s : State) (m : HostMsg), Takes s m
      ∧ NextOn (takeAck s m) m
      ∧ (m.part < 8 ∧ ((takeAck s m).part m.part).st ≠ PState.off)
      ∧ m.addr % 32 = 0
      ∧ m.payload = leBytes 4 32
      ∧ hostPlace (takeAck s m) m.part (m.addr % 2 ^ 52) permR false = Except.ok (Loc.mem 2097152)
      ∧ PlainMemory (takeAck s m))
    ∧ (∃ (s : State) (m : HostMsg), Takes s m
      ∧ NextOn (takeAck s m) m
      ∧ (m.part < 8 ∧ ((takeAck s m).part m.part).st ≠ PState.off)
      ∧ m.addr % 32 = 0
      ∧ m.payload.length = 32
      ∧ hostPlace (takeAck s m) m.part (m.addr % 2 ^ 52) permW true = Except.ok (Loc.mem 2097152)
      ∧ PlainMemory (takeAck s m))
    ∧ (∃ (s : State) (m : HostMsg), Takes s m
      ∧ NextOn (takeAck s m) m
      ∧ m.payload.length = 8
      ∧ m.part < 8
      ∧ m.addr = 8589934592 + 4096 * m.part
      ∧ numAt m.payload 0 8 % 8 = 1
      ∧ enables (takeAck s m) m = true) := by
  exact ⟨⟨hostCommands_0.2, hostCommands_0.1, ⟨0, 0x20000, 0x10000, [], true, true⟩, by and_intros <;> first
        | decide +kernel
        | (constructor <;> decide +kernel)⟩,
    ⟨hostCommands_1.2, hostCommands_1.1, 0, by and_intros <;> first
        | decide +kernel
        | (constructor <;> decide +kernel)⟩,
    ⟨hostCommands_2.2, hostCommands_2.1, .page, by and_intros <;> first
        | decide +kernel
        | (constructor <;> decide +kernel)⟩,
    ⟨hostCommands_3.2, hostCommands_3.1, Option.get ((takeAck (hostCommands_3.2) (hostCommands_3.1)).launches.find (launchKey (hostCommands_3.1).part (hostCommands_3.1).addr)) (by decide +kernel), by and_intros <;> first
        | decide +kernel
        | (constructor <;> decide +kernel)⟩,
    ⟨hostCommands_4.2, hostCommands_4.1, by and_intros <;> first
        | decide +kernel
        | (constructor <;> decide +kernel)⟩,
    ⟨hostCommands_5.2, hostCommands_5.1, by and_intros <;> first
        | decide +kernel
        | (constructor <;> decide +kernel)⟩,
    ⟨hostCommands_6.2, hostCommands_6.1, .page, by and_intros <;> first
        | decide +kernel
        | (constructor <;> decide +kernel)⟩,
    ⟨hostCommands_5.2, hostCommands_5.1, 200, by and_intros <;> first
        | decide +kernel
        | (constructor <;> decide +kernel)⟩,
    ⟨hostCommands_7.2, hostCommands_7.1, ⟨0, 0x20000, 0x10000, [], true, true⟩, by and_intros <;> first
        | decide +kernel
        | (constructor <;> decide +kernel)⟩,
    ⟨hostCommands_8.2, hostCommands_8.1, by and_intros <;> first
        | decide +kernel
        | (constructor <;> decide +kernel)⟩,
    ⟨hostCommands_9.2, hostCommands_9.1, by and_intros <;> first
        | decide +kernel
        | (constructor <;> decide +kernel)⟩,
    ⟨hostCommands_10.2, hostCommands_10.1, by and_intros <;> first
        | decide +kernel
        | (constructor <;> decide +kernel)⟩,
    ⟨hostCommands_11.2, hostCommands_11.1, by and_intros <;> first
        | decide +kernel
        | (constructor <;> decide +kernel)⟩,
    ⟨hostCommands_12.2, hostCommands_12.1, by and_intros <;> first
        | decide +kernel
        | (constructor <;> decide +kernel)⟩⟩

/-- A state of the witnesses. -/
def hostAnswers_0 : HostMsg × State :=
  (hm 0 0 (leBytes 8 0) 7, hS (hm 0 0 (leBytes 8 0) 7) (fun s => { s with hostReqs := [⟨7, .put 0, 0, true, 0x50004, 32, 0, 0⟩], ops := [(5, { kind := .copy, strand := 0, task := 7, part := 0, sink := 0, launch := 0, tok := 3, a := 0x2000, b := 0x2000, c := 0, size := 32, count := 2, away := true })] , strands := [(0, { run := .stall .atomic, pc := 0x1000, task := 7, pend := [⟨3, 0, .load .i16 (.w 1) (.host 0x50004), 0x50004⟩], puts := [⟨2^32+7, 0x50004⟩] })] }))
/-- A state of the witnesses. -/
def hostAnswers_1 : HostMsg × State :=
  (hm 0 0x50004 (leBytes 8 0) 7, hS (hm 0 0x50004 (leBytes 8 0) 7) (fun s => { s with hostReqs := [⟨7, .strand 0 3, 0, true, 0x50004, 32, 0, 0⟩], ops := [(5, { kind := .copy, strand := 0, task := 7, part := 0, sink := 0, launch := 0, tok := 3, a := 0x2000, b := 0x2000, c := 0, size := 32, count := 2, away := true })] , strands := [(0, { run := .stall .atomic, pc := 0x1000, task := 7, pend := [⟨3, 0, .hostStore 0x50004 [1,2,3,4] true, 0x50004⟩], puts := [⟨2^32+7, 0x50004⟩] })] }))
/-- A state of the witnesses. -/
def hostAnswers_2 : HostMsg × State :=
  (hm 0 0x50004 ((List.range 32).map fun i => BitVec.ofNat 8 (i + 90)) 7, hS (hm 0 0x50004 ((List.range 32).map fun i => BitVec.ofNat 8 (i + 90)) 7) (fun s => { s with hostReqs := [⟨7, .strand 0 3, 0, false, 0x50004, 32, 0, 0⟩], ops := [(5, { kind := .copy, strand := 0, task := 7, part := 0, sink := 0, launch := 0, tok := 3, a := 0x2000, b := 0x2000, c := 0, size := 32, count := 2, away := true })] , strands := [(0, { run := .stall .atomic, pc := 0x1000, task := 7, pend := [⟨3, 0, .hostStore 0x50004 [1,2,3,4] false, 0x50004⟩], puts := [⟨2^32+7, 0x50004⟩] })] }))
/-- A state of the witnesses. -/
def hostAnswers_3 : HostMsg × State :=
  (hm 0 0x50000 (leBytes 8 1), hS (hm 0 0x50000 (leBytes 8 1)) (fun s => { s with pages := [(5, { device := false })] }))
/-- A state of the witnesses. -/
def hostAnswers_4 : HostMsg × State :=
  (hm 0 0 ((List.range 32).map fun i => BitVec.ofNat 8 (i + 90)) 7, hS (hm 0 0 ((List.range 32).map fun i => BitVec.ofNat 8 (i + 90)) 7) (fun s => { s with hostReqs := [⟨7, .engine 5 0, 0, false, 0xD000000020040, 32, 0, 0⟩], ops := [(5, { kind := .copy, strand := 0, task := 7, part := 0, sink := 0, launch := 0, tok := 3, a := 0x2000, b := 0x2000, c := 0, size := 32, count := 2, away := true })]  }))
/-- A state of the witnesses. -/
def hostAnswers_5 : HostMsg × State :=
  (hm 0 0x50000 (leBytes 8 1), hS (hm 0 0x50000 (leBytes 8 1)) (fun s => { s with pages := [(5, { device := false, moving := some false })] }))
/-- A state of the witnesses. -/
def hostAnswers_6 : HostMsg × State :=
  (hm 0 0 ((List.range 32).map fun i => BitVec.ofNat 8 (i + 90)) 8, hS (hm 0 0 ((List.range 32).map fun i => BitVec.ofNat 8 (i + 90)) 8) (fun s => { s with hostReqs := [⟨7, .engine 5 0, 0, false, 0xD000000020040, 32, 0, 0⟩], ops := [(5, { kind := .copy, strand := 0, task := 7, part := 0, sink := 0, launch := 0, tok := 3, a := 0x2000, b := 0x2000, c := 0, size := 32, count := 2, away := true })]  }))
/-- A state of the witnesses. -/
def hostAnswers_7 : HostMsg × State :=
  (hm 0 0 (leBytes 8 0) 7, hS (hm 0 0 (leBytes 8 0) 7) (fun s => { s with hostReqs := [⟨7, .engine 5 0, 0, true, 0xD000000020040, 32, 0, 0⟩], ops := [(5, { kind := .copy, strand := 0, task := 7, part := 0, sink := 0, launch := 0, tok := 3, a := 0x2000, b := 0x2000, c := 0, size := 32, count := 2, away := true })]  }))
/-- A state of the witnesses. -/
def hostAnswers_8 : HostMsg × State :=
  (hm 0 0x50000 (leBytes 2 4 ++ leBytes 2 3 ++ List.replicate 20 0 ++ (List.range 4096).map fun i => BitVec.ofNat 8 i), hS (hm 0 0x50000 (leBytes 2 4 ++ leBytes 2 3 ++ List.replicate 20 0 ++ (List.range 4096).map fun i => BitVec.ofNat 8 i)) (fun s => { s with pages := [(5, { device := true, moving := some true, frame := 0x230000 })] }))
/-- A state of the witnesses. -/
def hostAnswers_9 : HostMsg × State :=
  (hm 0 0x50000 (leBytes 8 5), hS (hm 0 0x50000 (leBytes 8 5)) (fun s => { s with pages := [(5, { device := false, moving := some false })] }))
/-- A state of the witnesses. -/
def hostAnswers_10 : HostMsg × State :=
  (hm 0 0x50000 (leBytes 8 5), hS (hm 0 0x50000 (leBytes 8 5)) (fun s => { s with pages := [(5, { device := true, moving := some true, frame := 0x230000 })] }))
/-- A state of the witnesses. -/
def hostAnswers_11 : HostMsg × State :=
  (hm 0 0x50000 (leBytes 8 1), hS (hm 0 0x50000 (leBytes 8 1)) (fun s => { s with pages := [(5, { device := true, moving := some true, frame := 0x230000 })] }))
/-- A state of the witnesses. -/
def hostAnswers_12 : HostMsg × State :=
  (hm 0 0 ((List.range 32).map fun i => BitVec.ofNat 8 (i + 90)) 7, hS (hm 0 0 ((List.range 32).map fun i => BitVec.ofNat 8 (i + 90)) 7) (fun s => { s with hostReqs := [⟨7, .engine 5 0, 0, true, 0xD000000020040, 32, 0, 0⟩], ops := [(5, { kind := .copy, strand := 0, task := 7, part := 0, sink := 0, launch := 0, tok := 3, a := 0x2000, b := 0x2000, c := 0, size := 32, count := 2, away := true })]  }))
/-- A state of the witnesses. -/
def hostAnswers_13 : HostMsg × State :=
  (hm 0 0x50000 (leBytes 2 4 ++ leBytes 2 3 ++ List.replicate 20 0 ++ (List.range 4096).map fun i => BitVec.ofNat 8 i), hS (hm 0 0x50000 (leBytes 2 4 ++ leBytes 2 3 ++ List.replicate 20 0 ++ (List.range 4096).map fun i => BitVec.ofNat 8 i)) (fun s => { s with pages := [(5, { device := false })] }))
/-- Witnesses of `HostAnswers`. -/
theorem witness_HostAnswers :
    (∃ (s : State) (m : HostMsg) (q : HostReq) (id : Nat) (k : Nat) (t : LdType) (d : GReg) (l : Loc) (pend : Pending), Takes s m
      ∧ NextOn (takeAck s m) m
      ∧ q.who = Asker.strand id k
      ∧ (s.strand id).pend = [pend]
      ∧ pend.id = k
      ∧ pend.act = PendAct.load t d l
      ∧ (s.strand id).run = Run.stall Stall.atomic)
    ∧ (∃ (s : State) (m : HostMsg) (q : HostReq) (id : Nat) (k : Nat) (a : Nat) (old : List Byte), Takes s m
      ∧ NextOn (takeAck s m) m
      ∧ old ∈ [[1, 2, 3, 4]]
      ∧ q.who = Asker.strand id k
      ∧ (s.strand id).pend = [{ id := k, left := 0, act := PendAct.hostStore a old true, va := m.addr % 2 ^ 52 }]
      ∧ (s.strand id).run = Run.stall Stall.atomic)
    ∧ (∃ (s : State) (m : HostMsg) (q : HostReq) (id : Nat) (k : Nat) (a : Nat) (new : List Byte), Takes s m
      ∧ NextOn (takeAck s m) m
      ∧ new ∈ [[1, 2, 3, 4]]
      ∧ q.who = Asker.strand id k
      ∧ (s.strand id).pend = [{ id := k, left := 0, act := PendAct.hostStore a new false, va := m.addr % 2 ^ 52 }]
      ∧ s.mgmt.up = true)
    ∧ (∃ (s : State) (m : HostMsg) (x : Page), Takes s m
      ∧ NextOn (takeAck s m) m
      ∧ (m.part < 8 ∧ ((takeAck s m).part m.part).st ≠ PState.off ∧ (sharedLeaf (takeAck s m) m.part (m.addr % 2 ^ 52)).isSome = true ∧ window (m.addr % 2 ^ 52) < 8 ∧ numAt m.payload 4 4 = 0 ∧ (takeAck s m).page m.part (m.addr % 2 ^ 52) = x)
      ∧ m.payload = leBytes 8 1
      ∧ x.moving = none
      ∧ (x.device = true → heldOff s x false = false)
      ∧ NextOn (requestPage ((takeAck s m).setPage m.part (m.addr % 2 ^ 52) { device := x.device, moving := x.moving, hold := x.hold, waiting := x.waiting, frame := x.frame, parts := x.parts, stream := m.stream }) m.part (m.addr % 2 ^ 52) true) m)
    ∧ (∃ (s : State) (m : HostMsg) (q : HostReq), Takes s m
      ∧ NextOn (takeAck s m) m
      ∧ List.find? (fun r => r.tag == m.tag && r.part == m.part) (takeAck s m).hostReqs = some q
      ∧ q.write = false
      ∧ m.payload.length = q.len
      ∧ NextOn (answerHmem { (takeAck s m) with hostReqs := (takeAck s m).hostReqs.erase q } q (some m.payload)) m)
    ∧ (∃ (s : State) (m : HostMsg) (x : Page), Takes s m
      ∧ NextOn (takeAck s m) m
      ∧ (m.part < 8 ∧ ((takeAck s m).part m.part).st ≠ PState.off ∧ (sharedLeaf (takeAck s m) m.part (m.addr % 2 ^ 52)).isSome = true ∧ window (m.addr % 2 ^ 52) < 8 ∧ numAt m.payload 4 4 = 0 ∧ (takeAck s m).page m.part (m.addr % 2 ^ 52) = x)
      ∧ m.payload = leBytes 8 1
      ∧ x.moving = some false)
    ∧ (∃ (s : State) (m : HostMsg), Takes s m
      ∧ NextOn (takeAck s m) m
      ∧ List.find? (fun r => r.tag == m.tag && r.part == m.part) (takeAck s m).hostReqs = none)
    ∧ (∃ (s : State) (m : HostMsg) (q : HostReq), Takes s m
      ∧ NextOn (takeAck s m) m
      ∧ List.find? (fun r => r.tag == m.tag && r.part == m.part) (takeAck s m).hostReqs = some q
      ∧ q.write = true
      ∧ m.payload = leBytes 8 Code.ok.num
      ∧ NextOn (answerHmem { (takeAck s m) with hostReqs := (takeAck s m).hostReqs.erase q } q (some [])) m)
    ∧ (∃ (s : State) (m : HostMsg) (x : Page), Takes s m
      ∧ NextOn (takeAck s m) m
      ∧ (m.part < 8 ∧ ((takeAck s m).part m.part).st ≠ PState.off ∧ (sharedLeaf (takeAck s m) m.part (m.addr % 2 ^ 52)).isSome = true ∧ window (m.addr % 2 ^ 52) < 8 ∧ numAt m.payload 4 4 = 0 ∧ (takeAck s m).page m.part (m.addr % 2 ^ 52) = x)
      ∧ m.payload.length = 4120
      ∧ numAt m.payload 0 2 = 4
      ∧ numAt m.payload 2 2 < 16
      ∧ numAt m.payload 8 16 = 0
      ∧ x.moving = some true
      ∧ NextOn (takePart (takeAck s m) m.part (m.addr % 2 ^ 52) (numAt m.payload 2 2) 0 (List.drop 24 m.payload)) m)
    ∧ (∃ (s : State) (m : HostMsg) (x : Page), Takes s m
      ∧ NextOn (takeAck s m) m
      ∧ (m.part < 8 ∧ ((takeAck s m).part m.part).st ≠ PState.off ∧ (sharedLeaf (takeAck s m) m.part (m.addr % 2 ^ 52)).isSome = true ∧ window (m.addr % 2 ^ 52) < 8 ∧ numAt m.payload 4 4 = 0 ∧ (takeAck s m).page m.part (m.addr % 2 ^ 52) = x)
      ∧ m.payload = leBytes 8 5
      ∧ x.moving ≠ some true)
    ∧ (∃ (s : State) (m : HostMsg) (x : Page), Takes s m
      ∧ NextOn (takeAck s m) m
      ∧ (m.part < 8 ∧ ((takeAck s m).part m.part).st ≠ PState.off ∧ (sharedLeaf (takeAck s m) m.part (m.addr % 2 ^ 52)).isSome = true ∧ window (m.addr % 2 ^ 52) < 8 ∧ numAt m.payload 4 4 = 0 ∧ (takeAck s m).page m.part (m.addr % 2 ^ 52) = x)
      ∧ m.payload = leBytes 8 5
      ∧ x.moving = some true)
    ∧ (∃ (s : State) (m : HostMsg) (x : Page), Takes s m
      ∧ NextOn (takeAck s m) m
      ∧ (m.part < 8 ∧ ((takeAck s m).part m.part).st ≠ PState.off ∧ (sharedLeaf (takeAck s m) m.part (m.addr % 2 ^ 52)).isSome = true ∧ window (m.addr % 2 ^ 52) < 8 ∧ numAt m.payload 4 4 = 0 ∧ (takeAck s m).page m.part (m.addr % 2 ^ 52) = x)
      ∧ m.payload = leBytes 8 1
      ∧ x.moving = some true)
    ∧ (∃ (s : State) (m : HostMsg) (q : HostReq), Takes s m
      ∧ NextOn (takeAck s m) m
      ∧ List.find? (fun r => r.tag == m.tag && r.part == m.part) (takeAck s m).hostReqs = some q
      ∧ q.write = true
      ∧ (q.write = true ∨ m.payload.length ≠ q.len)
      ∧ NextOn (answerHmem { (takeAck s m) with hostReqs := (takeAck s m).hostReqs.erase q } q none) m)
    ∧ (∃ (s : State) (m : HostMsg) (x : Page), Takes s m
      ∧ NextOn (takeAck s m) m
      ∧ (m.part < 8 ∧ ((takeAck s m).part m.part).st ≠ PState.off ∧ (sharedLeaf (takeAck s m) m.part (m.addr % 2 ^ 52)).isSome = true ∧ window (m.addr % 2 ^ 52) < 8 ∧ numAt m.payload 4 4 = 0 ∧ (takeAck s m).page m.part (m.addr % 2 ^ 52) = x)
      ∧ m.payload.length = 4120
      ∧ numAt m.payload 0 2 = 4
      ∧ numAt m.payload 2 2 < 16
      ∧ numAt m.payload 8 16 = 0
      ∧ x.moving ≠ some true) := by
  exact ⟨⟨hostAnswers_0.2, hostAnswers_0.1, ⟨7, .strand 0 3, 0, false, 0x50004, 32, 0, 0⟩, 0, 3, .i16, .w 1, .host 0x50004, ⟨3, 0, .load .i16 (.w 1) (.host 0x50004), 0x50004⟩, by and_intros <;> first
        | decide +kernel
        | (constructor <;> decide +kernel)⟩,
    ⟨hostAnswers_1.2, hostAnswers_1.1, ⟨7, .strand 0 3, 0, false, 0x50004, 32, 0, 0⟩, 0, 3, 0x50004, ([[1, 2, 3, 4]])[0], by and_intros <;> first
        | decide +kernel
        | (constructor <;> decide +kernel)⟩,
    ⟨hostAnswers_2.2, hostAnswers_2.1, ⟨7, .strand 0 3, 0, false, 0x50004, 32, 0, 0⟩, 0, 3, 0x50004, ([[1, 2, 3, 4]])[0], by and_intros <;> first
        | decide +kernel
        | (constructor <;> decide +kernel)⟩,
    ⟨hostAnswers_3.2, hostAnswers_3.1, { device := false }, by and_intros <;> first
        | decide +kernel
        | (constructor <;> decide +kernel)⟩,
    ⟨hostAnswers_4.2, hostAnswers_4.1, ⟨7, .engine 5 0, 0, false, 0xD000000020040, 32, 0, 0⟩, by and_intros <;> first
        | decide +kernel
        | (constructor <;> decide +kernel)⟩,
    ⟨hostAnswers_5.2, hostAnswers_5.1, { device := false, moving := some false }, by and_intros <;> first
        | decide +kernel
        | (constructor <;> decide +kernel)⟩,
    ⟨hostAnswers_6.2, hostAnswers_6.1, by and_intros <;> first
        | decide +kernel
        | (constructor <;> decide +kernel)⟩,
    ⟨hostAnswers_7.2, hostAnswers_7.1, ⟨7, .engine 5 0, 0, true, 0xD000000020040, 32, 0, 0⟩, by and_intros <;> first
        | decide +kernel
        | (constructor <;> decide +kernel)⟩,
    ⟨hostAnswers_8.2, hostAnswers_8.1, { device := true, moving := some true, frame := 0x230000 }, by and_intros <;> first
        | decide +kernel
        | (constructor <;> decide +kernel)⟩,
    ⟨hostAnswers_9.2, hostAnswers_9.1, { device := false, moving := some false }, by and_intros <;> first
        | decide +kernel
        | (constructor <;> decide +kernel)⟩,
    ⟨hostAnswers_10.2, hostAnswers_10.1, { device := true, moving := some true, frame := 0x230000 }, by and_intros <;> first
        | decide +kernel
        | (constructor <;> decide +kernel)⟩,
    ⟨hostAnswers_11.2, hostAnswers_11.1, { device := true, moving := some true, frame := 0x230000 }, by and_intros <;> first
        | decide +kernel
        | (constructor <;> decide +kernel)⟩,
    ⟨hostAnswers_12.2, hostAnswers_12.1, ⟨7, .engine 5 0, 0, true, 0xD000000020040, 32, 0, 0⟩, by and_intros <;> first
        | decide +kernel
        | (constructor <;> decide +kernel)⟩,
    ⟨hostAnswers_13.2, hostAnswers_13.1, { device := false }, by and_intros <;> first
        | decide +kernel
        | (constructor <;> decide +kernel)⟩⟩

/-- A state of the witnesses. -/
def hostAnswers_HostStreams_0 : HostMsg × State :=
  (hm 0 0x40000 ((List.range 32).map fun i => BitVec.ofNat 8 (i + 90)) 0, hS (hm 0 0x40000 ((List.range 32).map fun i => BitVec.ofNat 8 (i + 90)) 0) (fun s => { s with streams := [(3, { next := 5, owing := some 10 })], cycle := 36010  }))
/-- A state of the witnesses. -/
def hostAnswers_HostStreams_1 : HostMsg × State :=
  (hm 0 0x40000 ((List.range 32).map fun i => BitVec.ofNat 8 (i + 90)) 0 2, hS (hm 0 0x40000 ((List.range 32).map fun i => BitVec.ofNat 8 (i + 90)) 0 2) (id))
/-- A state of the witnesses. -/
def hostAnswers_HostStreams_2 : HostMsg × State :=
  (hm 0 0x40000 ((List.range 32).map fun i => BitVec.ofNat 8 (i + 90)) 0, hS (hm 0 0x40000 ((List.range 32).map fun i => BitVec.ofNat 8 (i + 90)) 0) (fun s => { s with hostReqs := [⟨7, .strand 0 3, 0, false, 0x50004, 32, 0, 0⟩], cycle := 1799999 }))
/-- A state of the witnesses. -/
def hostAnswers_HostStreams_3 : HostMsg × State :=
  (hm 0 0x40000 ((List.range 32).map fun i => BitVec.ofNat 8 (i + 90)) 0, hS (hm 0 0x40000 ((List.range 32).map fun i => BitVec.ofNat 8 (i + 90)) 0) (fun s => { s with streams := [(3, { next := 5, unacked := [⟨7, { magic := 0x4F5A, ver := 1, part := 0, stream := 3, seq := 5, ackn := 1, tag := 9, addr := 0, payload := [4] }, 10⟩] })], cycle := 180010  }))
/-- A state of the witnesses. -/
def hostAnswers_HostStreams_4 : HostMsg × State :=
  (hm 0 0x40000 ((List.range 32).map fun i => BitVec.ofNat 8 (i + 90)) 0 4, hS (hm 0 0x40000 ((List.range 32).map fun i => BitVec.ofNat 8 (i + 90)) 0 4) (fun s => { s with streams := [(3, { next := 5, send := 6, answers := [(3, ⟨7, { magic := 0x4F5A, ver := 1, part := 0, stream := 3, seq := 5, ackn := 1, tag := 9, addr := 0, payload := [4] }, 10⟩)] })], cycle := 9  }))
/-- A state of the witnesses. -/
def hostAnswers_HostStreams_5 : HostMsg × State :=
  (hm 0 0x40000 ((List.range 32).map fun i => BitVec.ofNat 8 (i + 90)) 0 3, hS (hm 0 0x40000 ((List.range 32).map fun i => BitVec.ofNat 8 (i + 90)) 0 3) (fun s => { s with streams := [(3, { next := 5, send := 6, answers := [(3, ⟨7, { magic := 0x4F5A, ver := 1, part := 0, stream := 3, seq := 5, ackn := 1, tag := 9, addr := 0, payload := [4] }, 10⟩)] })], cycle := 9  }))
/-- A state of the witnesses. -/
def hostAnswers_HostStreams_6 : HostMsg × State :=
  (hm 0 0x40000 ((List.range 32).map fun i => BitVec.ofNat 8 (i + 90)) 0, hS (hm 0 0x40000 ((List.range 32).map fun i => BitVec.ofNat 8 (i + 90)) 0) (fun s => { s with hostReqs := [⟨7, .strand 0 3, 0, false, 0x50004, 32, 0, 0⟩], cycle := 1800000, strands := [(0, { run := .ready, pend := [⟨3, 0, .awaiting (.w 1), 5⟩], puts := [⟨2^32+7, 0x50004⟩] })] }))
/-- A state of the witnesses. -/
def hostAnswers_HostStreams_7 : HostMsg × State :=
  (hm 0 0x40000 ((List.range 32).map fun i => BitVec.ofNat 8 (i + 90)) 0 5, hS (hm 0 0x40000 ((List.range 32).map fun i => BitVec.ofNat 8 (i + 90)) 0 5) (fun s => { s with mgmt := {} }))
/-- Witnesses of `HostAnswers` (part HostStreams). -/
theorem witness_HostAnswers_HostStreams :
    (∃ (s : State) (c : Nat), s.mgmt.up = true
      ∧ (s.stream (streamKey 0 3)).owing = some c
      ∧ c + 36000 ≤ s.cycle)
    ∧ (∃ (s : State) (m : HostMsg), s.mgmt.up = true
      ∧ Takes s m
      ∧ (s.stream (msgKey m)).next < m.seq
      ∧ m.seq ≤ (s.stream (msgKey m)).next + 64
      ∧ (s.stream (msgKey m)).held = [])
    ∧ (∃ (s : State) (q : HostReq), List.find? (fun r => r.tag == q.tag) s.hostReqs = some q
      ∧ s.cycle < q.time + 1800000)
    ∧ (∃ (s : State) (x : Sent), s.mgmt.up = true
      ∧ (s.stream (streamKey 0 3)).unacked = [x]
      ∧ x.time + 180000 ≤ s.cycle)
    ∧ (∃ (s : State) (m : HostMsg), Takes s m
      ∧ m.seq < (s.stream (msgKey m)).next
      ∧ (s.stream (msgKey m)).answers.find m.seq = none)
    ∧ (∃ (s : State) (m : HostMsg) (x : Sent), Takes s m
      ∧ m.seq < (s.stream (msgKey m)).next
      ∧ (s.stream (msgKey m)).answers.find m.seq = some x)
    ∧ (∃ (s : State) (q : HostReq), List.find? (fun r => r.tag == q.tag) s.hostReqs = some q
      ∧ q.time + 1800000 ≤ s.cycle)
    ∧ (∃ (s : State) (m : HostMsg), (s.mgmt.up = false ∨ m.wf = false)) := by
  exact ⟨⟨hostAnswers_HostStreams_0.2, 10, by decide +kernel⟩,
    ⟨hostAnswers_HostStreams_1.2, hostAnswers_HostStreams_1.1, by and_intros <;> first
        | decide +kernel
        | (constructor <;> decide +kernel)⟩,
    ⟨hostAnswers_HostStreams_2.2, ⟨7, .strand 0 3, 0, false, 0x50004, 32, 0, 0⟩, by decide +kernel⟩,
    ⟨hostAnswers_HostStreams_3.2, ⟨7, { magic := 0x4F5A, ver := 1, part := 0, stream := 3, seq := 5, ackn := 1, tag := 9, addr := 0, payload := [4] }, 10⟩, by decide +kernel⟩,
    ⟨hostAnswers_HostStreams_4.2, hostAnswers_HostStreams_4.1, by and_intros <;> first
        | decide +kernel
        | (constructor <;> decide +kernel)⟩,
    ⟨hostAnswers_HostStreams_5.2, hostAnswers_HostStreams_5.1, ⟨7, { magic := 0x4F5A, ver := 1, part := 0, stream := 3, seq := 5, ackn := 1, tag := 9, addr := 0, payload := [4] }, 10⟩, by and_intros <;> first
        | decide +kernel
        | (constructor <;> decide +kernel)⟩,
    ⟨hostAnswers_HostStreams_6.2, ⟨7, .strand 0 3, 0, false, 0x50004, 32, 0, 0⟩, by decide +kernel⟩,
    ⟨hostAnswers_HostStreams_7.2, hostAnswers_HostStreams_7.1, by decide +kernel⟩⟩

/-- A helper of the witnesses. -/
def fl (ctrl : Bool) (lseq : Nat) (body : List Byte) (sop eop : Bool := false) (ack : Nat := 0) : List Byte := encodeFlit ⟨lseq, 0, sop, eop, ctrl, ack != 0, ack, [1, 2, 0, 3], body, true⟩
/-- A helper of the witnesses. -/
def pkb (age : Nat) : List Byte := encodePacket 3 { dst := 0, src := 9, age := age, rtag := 5, part := 0, stat := 0, detail := 0, addr := 0x40, aux := 0, pmask := 0, payload := [] }
/-- A helper of the witnesses. -/
def lk (q : Port) (c : Nat := 100) (ph : Phase := .ready) : State := { base with ports := [(1, q)], cycle := c, mgmt := { base.mgmt with phase := ph } }
/-- A state of the witnesses. -/
def links_0 : State :=
  lk ({ st := .up8, credits := [5, 5, 5, 5], freed := [1, 0, 2, 0] , deadLane := some 3, narrow := some (false, 15) }) 100 .ready
/-- A state of the witnesses. -/
def links_1 : State :=
  lk ({ st := .up8, credits := [5, 5, 5, 5], freed := [1, 0, 2, 0] , nakAt := some 100, rxSeq := 4095 }) 3700 .ready
/-- A state of the witnesses. -/
def links_2 : State :=
  lk ({ st := .up8, credits := [5, 5, 5, 5], freed := [1, 0, 2, 0] , deadLane := some 1, narrow := some (true, 1) }) 100 .ready
/-- A state of the witnesses. -/
def links_3 : State :=
  lk ({ st := .up8, credits := [5, 5, 5, 5], freed := [1, 0, 2, 0] , nakAt := some 100, rxSeq := 4095 }) 3699 .ready
/-- A state of the witnesses. -/
def links_4 : State :=
  lk ({ st := .up8, credits := [5, 5, 5, 5], freed := [1, 0, 2, 0] , replay := [(3, 1, [1]), (4, 8, [2]), (5, 1, [3])], txSeq := 6 }) 100 .ready
/-- A state of the witnesses. -/
def links_5 : State :=
  lk ({ st := .init, credits := [5, 5, 5, 5], freed := [1, 0, 2, 0]  }) 100 .ready
/-- A state of the witnesses. -/
def links_6 : State :=
  lk ({ st := .init, credits := [5, 5, 5, 5], freed := [1, 0, 2, 0] , lastSend := 100 }) 1900 .ready
/-- A state of the witnesses. -/
def links_7 : State :=
  lk ({ st := .up8, credits := [5, 5, 5, 5], freed := [1, 0, 2, 0] , replay := [(3, 1, [1]), (4, 1, [2]), (5, 1, [3])], txSeq := 6 }) 100 .ready
/-- Witnesses of `Links`. -/
theorem witness_Links :
    (∃ (s : State) (n : Nat) (flit : List Byte) (mine : Bool) (k : Nat) (left : Nat), (s.port n).narrow = some (mine, left)
      ∧ k < left
      ∧ (s.port n).queue = []
      ∧ ((s.port n).st = PortSt.up8 ∨ (s.port n).st = PortSt.up7)
      ∧ (decodeFlit flit).ctrl = false
      ∧ (decodeFlit flit).crcGood = true
      ∧ (decodeFlit flit).lseq = (s.port n).rxSeq
      ∧ (s.port n).st ≠ PortSt.down
      ∧ s.cycle < (s.port n).lastGood + 180000
      ∧ ((s.port n).st ≠ PortSt.down ∨ fabricOn s = false)
      ∧ (∀ r ∈ (s.port n).replay, r.2.1 < 8))
    ∧ (∃ (s : State) (n : Nat) (mine : Bool) (k : Nat) (left : Nat), (s.port n).narrow = some (mine, left)
      ∧ left ≤ k
      ∧ (s.port n).st = PortSt.up8)
    ∧ (∃ (s : State) (n : Nat) (flit : List Byte) (c : Nat), (s.port n).queue = []
      ∧ (s.port n).nakAt = some c
      ∧ ((s.port n).st = PortSt.up8 ∨ (s.port n).st = PortSt.up7)
      ∧ c + 3600 ≤ s.cycle
      ∧ (s.port n).deadLane = none
      ∧ (s.port n).replay = []
      ∧ (decodeFlit flit).ctrl = false
      ∧ ((decodeFlit flit).crcGood = false ∨ (decodeFlit flit).lseq ≠ (s.port n).rxSeq)
      ∧ (s.port n).nakAt.isSome = true)
    ∧ (∃ (s : State) (n : Nat) (k : Nat), (s.port n).queue = []
      ∧ ((s.port n).st = PortSt.up8 ∨ (s.port n).st = PortSt.up7)
      ∧ (s.port n).deadLane = some k
      ∧ k ≠ 3)
    ∧ (∃ (s : State) (n : Nat) (flit : List Byte) (k : Nat), (s.port n).queue = []
      ∧ ((s.port n).st ≠ PortSt.down ∧ (decodeFlit flit).crcGood = true ∧ (decodeFlit flit).ctrl = true ∧ numAt (decodeFlit flit).body 0 1 = 3)
      ∧ ((s.port n).st = PortSt.up8 ∨ (s.port n).st = PortSt.up7)
      ∧ (s.port n).deadLane = some k
      ∧ (s.port n).deadLane = some (numAt (decodeFlit flit).body 1 1))
    ∧ (∃ (s : State) (n : Nat) (c : Nat), (s.port n).queue = []
      ∧ (s.port n).nakAt = some c
      ∧ ((s.port n).st = PortSt.up8 ∨ (s.port n).st = PortSt.up7)
      ∧ s.cycle < c + 3600)
    ∧ (∃ (s : State) (n : Nat) (flit : List Byte) (k : Nat), (s.port n).queue = []
      ∧ ((s.port n).st ≠ PortSt.down ∧ (decodeFlit flit).crcGood = true ∧ (decodeFlit flit).ctrl = true ∧ numAt (decodeFlit flit).body 0 1 = 3)
      ∧ ((s.port n).st = PortSt.up8 ∨ (s.port n).st = PortSt.up7)
      ∧ (s.port n).deadLane = some k
      ∧ k ≠ numAt (decodeFlit flit).body 1 1)
    ∧ (∃ (s : State) (n : Nat), (s.port n).queue = []
      ∧ (s.port n).st ≠ PortSt.down
      ∧ ((s.port n).lastGood + 180000 ≤ s.cycle ∨ ∃ r ∈ (s.port n).replay, 8 ≤ r.2.1))
    ∧ (∃ (s : State) (n : Nat), (s.port n).queue = []
      ∧ (s.port n).st = PortSt.down
      ∧ (s.port n).narrow = none
      ∧ fabricOn s = true)
    ∧ (∃ (s : State) (n : Nat) (flit : List Byte), (s.port n).queue = []
      ∧ ((s.port n).st ≠ PortSt.down ∧ (decodeFlit flit).crcGood = true ∧ (decodeFlit flit).ctrl = true ∧ numAt (decodeFlit flit).body 0 1 = 2)
      ∧ (∃ r ∈ (ackReplay ((s.port n).passed false 1) (decodeFlit flit)).replay, 8 ≤ r.2.1))
    ∧ (∃ (s : State) (n : Nat) (flit : List Byte), (s.port n).queue = []
      ∧ ((s.port n).st ≠ PortSt.down ∧ (decodeFlit flit).crcGood = true ∧ (decodeFlit flit).ctrl = true ∧ numAt (decodeFlit flit).body 0 1 = 2)
      ∧ (∀ r ∈ (ackReplay ((s.port n).passed false 1) (decodeFlit flit)).replay, r.2.1 < 8))
    ∧ (∃ (s : State) (n : Nat), (s.port n).queue = []
      ∧ (s.port n).st = PortSt.init
      ∧ s.cycle < (s.port n).lastSend + 1800)
    ∧ (∃ (s : State) (n : Nat) (flit : List Byte), (s.port n).queue = []
      ∧ ((s.port n).st ≠ PortSt.down ∧ (decodeFlit flit).crcGood = true ∧ (decodeFlit flit).ctrl = true ∧ numAt (decodeFlit flit).body 0 1 = 4))
    ∧ (∃ (s : State) (n : Nat), (s.port n).queue = []
      ∧ (s.port n).st = PortSt.init
      ∧ (s.port n).lastSend + 1800 ≤ s.cycle)
    ∧ (∃ (s : State) (n : Nat) (flit : List Byte), (s.port n).queue = []
      ∧ ((s.port n).st ≠ PortSt.down ∧ (decodeFlit flit).crcGood = true ∧ (decodeFlit flit).ctrl = true ∧ numAt (decodeFlit flit).body 0 1 = 3)
      ∧ ((s.port n).st = PortSt.up8 ∨ (s.port n).st = PortSt.up7)
      ∧ (s.port n).deadLane = none)
    ∧ (∃ (s : State) (n : Nat) (flit : List Byte), (s.port n).queue = []
      ∧ ((s.port n).st = PortSt.up8 ∨ (s.port n).st = PortSt.up7)
      ∧ (decodeFlit flit).ctrl = false
      ∧ ((decodeFlit flit).crcGood = false ∨ (decodeFlit flit).lseq ≠ (s.port n).rxSeq)
      ∧ (s.port n).nakAt = none)
    ∧ (∃ (s : State) (n : Nat) (flit : List Byte), (s.port n).queue = []
      ∧ ((s.port n).st ≠ PortSt.down ∧ (decodeFlit flit).crcGood = true ∧ (decodeFlit flit).ctrl = true ∧ numAt (decodeFlit flit).body 0 1 = 0))
    ∧ (∃ (s : State) (n : Nat) (flit : List Byte), (s.port n).queue = []
      ∧ ((s.port n).st ≠ PortSt.down ∧ (decodeFlit flit).crcGood = true ∧ (decodeFlit flit).ctrl = true ∧ numAt (decodeFlit flit).body 0 1 = 1)
      ∧ (s.port n).st = PortSt.init) := by
  exact ⟨⟨links_0, 1, fl false 0 (pkb 7) true true, false, 1, 15, by decide +kernel⟩,
    ⟨links_0, 1, false, 15, 15, by decide +kernel⟩,
    ⟨links_1, 1, fl false 0 (pkb 7) true true, Option.get (((links_1).port (1)).nakAt) (by decide +kernel), by decide +kernel⟩,
    ⟨links_2, 1, 1, by decide +kernel⟩,
    ⟨links_0, 1, fl true 6 [3, 3], Option.get (((links_0).port (1)).deadLane) (by decide +kernel), by decide +kernel⟩,
    ⟨links_3, 1, Option.get (((links_3).port (1)).nakAt) (by decide +kernel), by decide +kernel⟩,
    ⟨links_0, 1, fl true 6 [3, 2], Option.get (((links_0).port (1)).deadLane) (by decide +kernel), by decide +kernel⟩,
    ⟨links_4, 1, by decide +kernel⟩,
    ⟨links_0, 2, by decide +kernel⟩,
    ⟨links_4, 1, fl true 6 [2, 4, 0], by decide +kernel⟩,
    ⟨links_0, 1, fl true 6 [2, 4, 0], by decide +kernel⟩,
    ⟨links_5, 1, by decide +kernel⟩,
    ⟨links_0, 1, fl true 6 [4], by decide +kernel⟩,
    ⟨links_6, 1, by decide +kernel⟩,
    ⟨links_7, 1, fl true 6 [3, 3], by decide +kernel⟩,
    ⟨links_0, 1, fl false 4095 (pkb 63) true true 4, by decide +kernel⟩,
    ⟨links_0, 1, fl true 6 [0] false false 4, by decide +kernel⟩,
    ⟨links_5, 1, fl true 6 [1, 40, 41, 42, 43], by decide +kernel⟩⟩

/-- A helper of the witnesses. -/
def ow (x : List (Nat × Nat)) (f : State → State := id) : State :=
  f { (treed base) with exports := x, devid := 5, cycle := 100000, hbm := Mem.putBytes (treed base).hbm 0x200040 ((List.range 64).map fun i => BitVec.ofNat 8 (i + 200)) }
/-- A helper of the witnesses. -/
def ent (bits : List Nat) (alt : Nat := 0) (e : Nat := 0) (off : Nat := 0x10000) (va : Nat := 0x40000) : List (Nat × Nat) :=
  [(4 * e, bits.foldl (fun a b => a + 2 ^ b) (2 ^ 63 + off)), (4 * e + 1, 1 + alt * 2 ^ 32), (4 * e + 2, va)]
/-- A helper of the witnesses. -/
def mbox0 : Nat := mb1.toNat
/-- A helper of the witnesses. -/
def mbox (s : State) : State := { s with strands := [(0, { run := .ready, task := 7 })] }
/-- A helper of the witnesses. -/
def pois (s : State) : State := { s with poison := [0x200060 / 32] }
/-- A helper of the witnesses. -/
def vb (v : VBuf) (s : State) : State := { s with vbufs := [(0, v)] }
/-- A helper of the witnesses. -/
def tileq (s : State) : State := { s with descs := [(3, { st := .opened, gen := 6, ctx := 0, task := 44, count := 2 })], ctxs := [(0, { run := .ready, task := 44 })] }
/-- A state of the witnesses. -/
def peers_PeerRequests_0 : Packet × State :=
  ({ dst := 5, src := 9, age := 3, rtag := 5, part := 0, stat := 0, detail := 0, addr := 0x10040, aux := 16, pmask := 0, payload := (leBytes 8 9) }, ow (ent [53]) (fun s => { s with atoms := [⟨homeSlice 0x200040, 0, 0, 0, true, 0, some { dst := 5, src := 9, age := 3, rtag := 5, part := 0, stat := 0, detail := 0, addr := 0x10040, aux := 16, pmask := 0, payload := (leBytes 8 9) }, 0⟩] }))
/-- A state of the witnesses. -/
def peers_PeerRequests_1 : Packet × State :=
  ({ dst := 5, src := 9, age := 3, rtag := 5, part := 0, stat := 0, detail := 0, addr := mbox0, aux := 0x51, pmask := 0, payload := ((List.range 32).map fun i => BitVec.ofNat 8 (3 * i + 1)) }, ow (ent [54]) mbox)
/-- A state of the witnesses. -/
def peers_PeerRequests_2 : Packet × State :=
  ({ dst := 5, src := 9, age := 3, rtag := 5, part := 0, stat := 0, detail := 0, addr := mbox0, aux := 0x51, pmask := 0, payload := ((List.range 32).map fun i => BitVec.ofNat 8 (3 * i + 1)) }, ow (ent [50]) mbox)
/-- A state of the witnesses. -/
def peers_PeerRequests_3 : Packet × State :=
  ({ dst := 5, src := 9, age := 3, rtag := 5, part := 0, stat := 0, detail := 0, addr := 0x30040, aux := 16, pmask := 0, payload := (leBytes 8 9) }, ow (ent [53]))
/-- A state of the witnesses. -/
def peers_PeerRequests_4 : Packet × State :=
  ({ dst := 5, src := 9, age := 3, rtag := 5, part := 0, stat := 0, detail := 0, addr := 0x10040, aux := 0, pmask := 0, payload := ((List.range 32).map fun i => BitVec.ofNat 8 (3 * i + 1)) }, ow (ent [54] 9))
/-- A state of the witnesses. -/
def peers_PeerRequests_5 : Packet × State :=
  ({ dst := 5, src := 9, age := 3, rtag := 5, part := 0, stat := 0, detail := 0, addr := 0x10040, aux := 0, pmask := 0, payload := ((List.range 32).map fun i => BitVec.ofNat 8 (3 * i + 1)) }, ow (ent [48, 54] 9))
/-- A state of the witnesses. -/
def peers_PeerRequests_6 : Packet × State :=
  ({ dst := 5, src := 9, age := 3, rtag := 5, part := 0, stat := 0, detail := 0, addr := 0x10047, aux := 0, pmask := 0, payload := [] }, ow (ent [55, 52]) (fun s => pois (vb { isSealed := false, everSealed := true, version := 3 } s)))
/-- A state of the witnesses. -/
def peers_PeerRequests_7 : Packet × State :=
  ({ dst := 5, src := 9, age := 3, rtag := 5, part := 0, stat := 0, detail := 0, addr := (hd 6).toNat, aux := 1, pmask := 0, payload := ((List.range 64).map fun i => BitVec.ofNat 8 (3 * i + 1)) }, ow (ent [54]) tileq)
/-- A state of the witnesses. -/
def peers_PeerRequests_8 : Packet × State :=
  ({ dst := 5, src := 9, age := 3, rtag := 5, part := 0, stat := 0, detail := 0, addr := (hd 6).toNat, aux := 1, pmask := 0, payload := ((List.range 64).map fun i => BitVec.ofNat 8 (3 * i + 1)) }, ow (ent [51]) tileq)
/-- A state of the witnesses. -/
def peers_PeerRequests_9 : Packet × State :=
  ({ dst := 5, src := 9, age := 3, rtag := 5, part := 0, stat := 0, detail := 0, addr := 0x30060, aux := 32, pmask := 0, payload := [] }, ow (ent [55]) pois)
/-- A state of the witnesses. -/
def peers_PeerRequests_10 : Packet × State :=
  ({ dst := 5, src := 9, age := 3, rtag := 5, part := 0, stat := 0, detail := 0, addr := 0x10047, aux := 0, pmask := 0, payload := [] }, ow (ent [55, 52]) (fun s => pois (vb { isSealed := true, everSealed := true, version := 3, fillers := [4] } s)))
/-- A state of the witnesses. -/
def peers_PeerRequests_11 : Packet × State :=
  ({ dst := 5, src := 9, age := 3, rtag := 5, part := 0, stat := 0, detail := 0, addr := 0x10047, aux := 0, pmask := 0, payload := [] }, ow (ent [55, 52]) (fun s => pois (vb { isSealed := true, everSealed := true, change := some (1, [], none) } s)))
/-- A state of the witnesses. -/
def peers_PeerRequests_12 : Packet × State :=
  ({ dst := 5, src := 9, age := 3, rtag := 5, part := 0, stat := 0, detail := 0, addr := 0x10040, aux := 32, pmask := 0, payload := [] }, ow (ent [55]) pois)
/-- Witnesses of `Peers` (part PeerRequests). -/
theorem witness_Peers_PeerRequests :
    (∃ (s : State) (p : Packet) (e : Nat) (pa : Nat) (part : Nat) (came : Nat) (act : PendAct) (limit : Nat) (admitted : Bool), PlainMemory s
      ∧ (∀ u ∈ s.strands, ∀ q ∈ u.2.pend, loadOf q = none)
      ∧ packetAtom p Loc.zero = some act
      ∧ p.addr % atomBytes act = 0
      ∧ servingEntry s p.dst p.addr (atomBytes act) = some e
      ∧ exBit s e bitA = true
      ∧ exBit s e bitMIR = false
      ∧ ownerPlace s e p.addr (permR + permW) = Except.ok (Loc.mem pa)
      ∧ (Option.map (fun v => (s.vbuf v).isSealed) (vbufAt s (exPart s e) (exVa s e + (p.addr - exOff s e)))).getD false = false
      ∧ isPoisoned s (Loc.mem pa) = false
      ∧ s.atoms = [{ slice := homeSlice pa, part := exPart s e, strand := 0, k := 0, admitted := admitted, limit := limit, pkt := some p, came := came }]
      ∧ (admitted = true ∨ 0 < limit))
    ∧ (∃ (s : State) (p : Packet) (part : Nat) (r : Nat), PlainMemory s
      ∧ (∀ u ∈ s.strands, ∀ q ∈ u.2.pend, loadOf q = none)
      ∧ p.payload.length = 32
      ∧ mbReceiver (BitVec.ofNat 64 p.addr) = some r
      ∧ s.clusterPart (strandCluster r) = some part
      ∧ admitsPart s p.dst bitMB part = false)
    ∧ (∃ (s : State) (p : Packet) (part : Nat) (r : Nat), PlainMemory s
      ∧ (∀ u ∈ s.strands, ∀ q ∈ u.2.pend, loadOf q = none)
      ∧ p.payload.length = 32
      ∧ mbReceiver (BitVec.ofNat 64 p.addr) = some r
      ∧ s.clusterPart (strandCluster r) = some part
      ∧ admitsPart s p.dst bitMB part = true)
    ∧ (∃ (s : State) (p : Packet) (act : PendAct), PlainMemory s
      ∧ (∀ u ∈ s.strands, ∀ q ∈ u.2.pend, loadOf q = none)
      ∧ packetAtom p Loc.zero = some act
      ∧ p.addr % atomBytes act = 0
      ∧ servingEntry s p.dst p.addr (atomBytes act) = none)
    ∧ (∃ (s : State) (p : Packet) (e : Nat), PlainMemory s
      ∧ (∀ u ∈ s.strands, ∀ q ∈ u.2.pend, loadOf q = none)
      ∧ p.payload.length = 32
      ∧ servingEntry s p.dst (p.addr / 64 * 64) 64 = some e
      ∧ p.addr % 32 = 0
      ∧ s.lost.has p.src = false
      ∧ s.shadowHeld = []
      ∧ p.aux.testBit 32 = false
      ∧ servingEntry s p.dst p.addr 32 = some e
      ∧ exBit s e bitW = true
      ∧ exBit s e bitMIR = false
      ∧ (Option.map (fun v => (s.vbuf v).isSealed) (vbufAt s (exPart s e) (exVa s e + (p.addr - exOff s e)))).getD false = false
      ∧ p.aux % 2 ^ 32 = s.shadowNext.getD p.src 0 % 2 ^ 32)
    ∧ (∃ (s : State) (p : Packet) (e : Nat), PlainMemory s
      ∧ (∀ u ∈ s.strands, ∀ q ∈ u.2.pend, loadOf q = none)
      ∧ servingEntry s p.dst (p.addr / 64 * 64) 64 = none
      ∧ p.payload.length = 32
      ∧ p.addr % 32 = 0
      ∧ s.lost.has p.src = false
      ∧ s.shadowHeld = []
      ∧ p.aux % 2 ^ 32 = s.shadowNext.getD p.src 0 % 2 ^ 32
      ∧ List.find? (fun e => exBit s e bitSH && exAlt s e == p.src && decide (exOff s e ≤ p.addr) && decide (p.addr + 32 ≤ exOff s e + exLen s e)) (exportIds s) = some e
      ∧ p.aux.testBit 32 = false
      ∧ servingEntry s p.dst p.addr 32 = none)
    ∧ (∃ (s : State) (p : Packet) (e : Nat), PlainMemory s
      ∧ (∀ u ∈ s.strands, ∀ q ∈ u.2.pend, loadOf q = none)
      ∧ servingEntry s p.dst (p.addr / 64 * 64) 64 = some e
      ∧ exBit s e bitR = true
      ∧ exBit s e bitVB = true
      ∧ (s.vbuf e).everSealed = true
      ∧ (s.vbuf e).isSealed = false
      ∧ (s.vbuf e).change = none)
    ∧ (∃ (s : State) (p : Packet) (part : Nat), PlainMemory s
      ∧ (∀ u ∈ s.strands, ∀ q ∈ u.2.pend, loadOf q = none)
      ∧ p.payload.length = 64
      ∧ s.clusterPart (hCluster (BitVec.ofNat 64 p.addr)) = some part
      ∧ admitsPart s p.dst bitT part = false)
    ∧ (∃ (s : State) (p : Packet) (part : Nat), PlainMemory s
      ∧ (∀ u ∈ s.strands, ∀ q ∈ u.2.pend, loadOf q = none)
      ∧ p.payload.length = 64
      ∧ s.clusterPart (hCluster (BitVec.ofNat 64 p.addr)) = some part
      ∧ admitsPart s p.dst bitT part = true)
    ∧ (∃ (s : State) (p : Packet), PlainMemory s
      ∧ (∀ u ∈ s.strands, ∀ q ∈ u.2.pend, loadOf q = none)
      ∧ p.aux % 4096 = 32
      ∧ p.addr % 32 = 0
      ∧ servingEntry s p.dst p.addr 32 = none)
    ∧ (∃ (s : State) (p : Packet) (e : Nat) (pa : Nat), PlainMemory s
      ∧ (∀ u ∈ s.strands, ∀ q ∈ u.2.pend, loadOf q = none)
      ∧ servingEntry s p.dst (p.addr / 64 * 64) 64 = some e
      ∧ exBit s e bitR = true
      ∧ exBit s e bitVB = true
      ∧ (s.vbuf e).everSealed = true
      ∧ (s.vbuf e).isSealed = true
      ∧ (s.vbuf e).change = none
      ∧ ownerPlace s e (p.addr / 64 * 64) permR = Except.ok (Loc.mem pa))
    ∧ (∃ (s : State) (p : Packet) (e : Nat), PlainMemory s
      ∧ (∀ u ∈ s.strands, ∀ q ∈ u.2.pend, loadOf q = none)
      ∧ servingEntry s p.dst (p.addr / 64 * 64) 64 = some e
      ∧ exBit s e bitR = true
      ∧ exBit s e bitVB = true
      ∧ (s.vbuf e).everSealed = true
      ∧ (s.vbuf e).change.isSome = true)
    ∧ (∃ (s : State) (p : Packet) (e : Nat) (pa : Nat), PlainMemory s
      ∧ (∀ u ∈ s.strands, ∀ q ∈ u.2.pend, loadOf q = none)
      ∧ p.payload.length = 32
      ∧ p.addr % 32 = 0
      ∧ p.aux.testBit 32 = false
      ∧ servingEntry s p.dst p.addr 32 = some e
      ∧ exBit s e bitW = true
      ∧ exBit s e bitMIR = false
      ∧ (Option.map (fun v => (s.vbuf v).isSealed) (vbufAt s (exPart s e) (exVa s e + (p.addr - exOff s e)))).getD false = false
      ∧ ownerPlace s e p.addr permW = Except.ok (Loc.mem pa))
    ∧ (∃ (s : State) (p : Packet) (e : Nat) (pa : Nat), PlainMemory s
      ∧ (∀ u ∈ s.strands, ∀ q ∈ u.2.pend, loadOf q = none)
      ∧ p.payload.length = 32
      ∧ p.addr % 32 = 0
      ∧ s.lost.has p.src = false
      ∧ s.shadowHeld = []
      ∧ p.aux % 2 ^ 32 = s.shadowNext.getD p.src 0 % 2 ^ 32
      ∧ List.find? (fun e => exBit s e bitSH && exAlt s e == p.src && decide (exOff s e ≤ p.addr) && decide (p.addr + 32 ≤ exOff s e + exLen s e)) (exportIds s) = some e
      ∧ ownerPlace { s with shadowNext := s.shadowNext.put p.src (s.shadowNext.getD p.src 0 + 1) } e p.addr permW = Except.ok (Loc.mem pa))
    ∧ (∃ (s : State) (p : Packet) (e : Nat) (pa : Nat), PlainMemory s
      ∧ (∀ u ∈ s.strands, ∀ q ∈ u.2.pend, loadOf q = none)
      ∧ p.aux % 4096 = 32
      ∧ p.addr % 32 = 0
      ∧ servingEntry s p.dst p.addr 32 = some e
      ∧ exBit s e bitR = true
      ∧ ownerPlace s e p.addr permR = Except.ok (Loc.mem pa)) := by
  exact ⟨⟨peers_PeerRequests_0.2, peers_PeerRequests_0.1, 0, 0x200040, 0, 0, Option.get (packetAtom (peers_PeerRequests_0.1) Loc.zero) (by decide +kernel), 0, true, by and_intros <;> first
        | decide +kernel
        | (constructor <;> decide +kernel)⟩,
    ⟨peers_PeerRequests_1.2, peers_PeerRequests_1.1, 0, Option.get (mbReceiver (BitVec.ofNat 64 (peers_PeerRequests_1.1).addr)) (by decide +kernel), by and_intros <;> first
        | decide +kernel
        | (constructor <;> decide +kernel)⟩,
    ⟨peers_PeerRequests_2.2, peers_PeerRequests_2.1, 0, Option.get (mbReceiver (BitVec.ofNat 64 (peers_PeerRequests_2.1).addr)) (by decide +kernel), by and_intros <;> first
        | decide +kernel
        | (constructor <;> decide +kernel)⟩,
    ⟨peers_PeerRequests_3.2, peers_PeerRequests_3.1, Option.get (packetAtom (peers_PeerRequests_3.1) Loc.zero) (by decide +kernel), by and_intros <;> first
        | decide +kernel
        | (constructor <;> decide +kernel)⟩,
    ⟨peers_PeerRequests_4.2, peers_PeerRequests_4.1, 0, by and_intros <;> first
        | decide +kernel
        | (constructor <;> decide +kernel)⟩,
    ⟨peers_PeerRequests_5.2, peers_PeerRequests_5.1, 0, by and_intros <;> first
        | decide +kernel
        | (constructor <;> decide +kernel)⟩,
    ⟨peers_PeerRequests_6.2, peers_PeerRequests_6.1, 0, by and_intros <;> first
        | decide +kernel
        | (constructor <;> decide +kernel)⟩,
    ⟨peers_PeerRequests_7.2, peers_PeerRequests_7.1, 0, by and_intros <;> first
        | decide +kernel
        | (constructor <;> decide +kernel)⟩,
    ⟨peers_PeerRequests_8.2, peers_PeerRequests_8.1, 0, by and_intros <;> first
        | decide +kernel
        | (constructor <;> decide +kernel)⟩,
    ⟨peers_PeerRequests_9.2, peers_PeerRequests_9.1, by and_intros <;> first
        | decide +kernel
        | (constructor <;> decide +kernel)⟩,
    ⟨peers_PeerRequests_10.2, peers_PeerRequests_10.1, 0, 0x200040, by and_intros <;> first
        | decide +kernel
        | (constructor <;> decide +kernel)⟩,
    ⟨peers_PeerRequests_11.2, peers_PeerRequests_11.1, 0, by and_intros <;> first
        | decide +kernel
        | (constructor <;> decide +kernel)⟩,
    ⟨peers_PeerRequests_4.2, peers_PeerRequests_4.1, 0, 0x200040, by and_intros <;> first
        | decide +kernel
        | (constructor <;> decide +kernel)⟩,
    ⟨peers_PeerRequests_5.2, peers_PeerRequests_5.1, 0, 0x200040, by and_intros <;> first
        | decide +kernel
        | (constructor <;> decide +kernel)⟩,
    ⟨peers_PeerRequests_12.2, peers_PeerRequests_12.1, 0, 0x200040, by and_intros <;> first
        | decide +kernel
        | (constructor <;> decide +kernel)⟩⟩

/-- A helper of the witnesses. -/
def rs (r : List Request) (pd : List Pending) (f : State → State := id) (g : Strand → Strand := id) : State :=
  f { (treed base) with reqs := r, devid := 5, cycle := 100000, strands := [(0, g { run := .stall .atomic, pc := 0x1000, task := 7, pend := pd, puts := [⟨77, 0x50004⟩], tvec := 0x9000 })] }
/-- A state of the witnesses. -/
def peers_PeerResponses_0 : Packet × State :=
  ({ dst := 5, src := 9, age := 3, rtag := 77, part := 0, stat := 0, detail := 0, addr := 0x10040, aux := 0, pmask := 0, payload := (leBytes 8 99) }, rs [⟨77, 6, .strand 0 3, { dst := 9, src := 9, age := 3, rtag := 77, part := 0, stat := 0, detail := 0, addr := 0x10040, aux := 0, pmask := 0, payload := [] }, 5, none⟩] [⟨3, 0, .amo .add 4 .rlx (.w 1) 6 (.peer 9 0x10044), 0x50004⟩])
/-- A state of the witnesses. -/
def peers_PeerResponses_1 : Packet × State :=
  ({ dst := 5, src := 9, age := 3, rtag := 77, part := 0, stat := 0, detail := 0, addr := 0x10040, aux := 4, pmask := 0, payload := [] }, rs [⟨77, 16, .mirror { dst := 5, src := 9, age := 3, rtag := 5, part := 0, stat := 0, detail := 0, addr := 0x10040, aux := 0, pmask := 0, payload := [] } 2 [4] 9, { dst := 9, src := 9, age := 3, rtag := 77, part := 0, stat := 0, detail := 0, addr := 0x10040, aux := 0, pmask := 0, payload := [] }, 5, none⟩] [])
/-- A state of the witnesses. -/
def peers_PeerResponses_2 : Packet × State :=
  ({ dst := 5, src := 9, age := 3, rtag := 77, part := 0, stat := 0, detail := 0, addr := 0x10040, aux := 3, pmask := 0, payload := ((List.range 64).map fun i => BitVec.ofNat 8 (3 * i + 1)) }, rs [⟨77, 3, .strand 0 3, { dst := 9, src := 9, age := 3, rtag := 77, part := 0, stat := 0, detail := 0, addr := 0x10040, aux := 0, pmask := 0, payload := [] }, 5, none⟩] [⟨3, 0, .load .i16 (.w 1) (.peer 9 0x10044), 0x50004⟩])
/-- A state of the witnesses. -/
def peers_PeerResponses_3 : Packet × State :=
  ({ dst := 5, src := 9, age := 3, rtag := 77, part := 0, stat := 0, detail := 0, addr := 0x10040, aux := 3, pmask := 0, payload := ((List.range 64).map fun i => BitVec.ofNat 8 (3 * i + 1)) }, rs [⟨77, 3, .strand 0 3, { dst := 9, src := 9, age := 3, rtag := 77, part := 0, stat := 0, detail := 0, addr := 0x10040, aux := 0, pmask := 0, payload := [] }, 5, none⟩] [⟨3, 0, .load .i16 (.w 1) (.peer 9 0x10044), 0x50004⟩] (fun s => { s with peerVers := [(peerUnit 9 0x10040, 4)] }))
/-- A state of the witnesses. -/
def peers_PeerResponses_4 : Packet × State :=
  ({ dst := 5, src := 9, age := 3, rtag := 77, part := 0, stat := 0, detail := 0, addr := 0x10000, aux := 0, pmask := 0, payload := [] }, rs [] [⟨3, 0, .awaiting (.w 1), 0x50004⟩] (fun s => { s with exports := ent [52, 55], vbufs := [(0, { version := 6, opening := some (0, 3, 50, [9]) })] }))
/-- A state of the witnesses. -/
def peers_PeerResponses_5 : Packet × State :=
  ({ dst := 5, src := 9, age := 3, rtag := 77, part := 0, stat := 0, detail := 0, addr := 0x10040, aux := 0, pmask := 0, payload := [] }, rs [⟨77, 8, .strand 0 3, { dst := 9, src := 9, age := 3, rtag := 77, part := 0, stat := 0, detail := 0, addr := 0x10040, aux := 0, pmask := 0, payload := [] }, 5, none⟩] [⟨3, 0, .awaiting (.w 1), 0x50004⟩])
/-- A state of the witnesses. -/
def peers_PeerResponses_6 : Packet × State :=
  ({ dst := 5, src := 9, age := 3, rtag := 77, part := 0, stat := 0, detail := 0, addr := 0x10040, aux := 0, pmask := 0, payload := [] }, rs [⟨77, 3, .strand 0 3, { dst := 9, src := 9, age := 3, rtag := 77, part := 0, stat := 0, detail := 0, addr := 0x10040, aux := 0, pmask := 0, payload := [] }, 5, none⟩] [⟨3, 0, .awaiting (.w 1), 0x50004⟩] (fun s => { s with cycle := 117005 }))
/-- A state of the witnesses. -/
def peers_PeerResponses_7 : Packet × State :=
  ({ dst := 5, src := 9, age := 3, rtag := 77, part := 0, stat := 0, detail := 0, addr := 0x10040, aux := 0, pmask := 0, payload := [] }, rs [⟨77, 1, .put 0, { dst := 9, src := 9, age := 3, rtag := 77, part := 0, stat := 0, detail := 0, addr := 0x10040, aux := 0, pmask := 0, payload := [] }, 5, none⟩] [] id (fun t => { t with run := .stall .puts }))
/-- A state of the witnesses. -/
def peers_PeerResponses_8 : Packet × State :=
  ({ dst := 5, src := 9, age := 3, rtag := 77, part := 0, stat := 0, detail := 0, addr := 0x10040, aux := 0, pmask := 0, payload := ((List.range 32).map fun i => BitVec.ofNat 8 (3 * i + 1)) }, rs [⟨77, 12, .engine 3 0, { dst := 9, src := 9, age := 3, rtag := 77, part := 0, stat := 0, detail := 0, addr := 0x10040, aux := 0, pmask := 0, payload := [] }, 5, none⟩] [] (fun s => { s with ops := [(3, { kind := .copy, strand := 0, task := 7, part := 0, sink := 0, launch := 0, tok := 3, a := 0x40000, b := 0x50000, c := 0, size := 32, count := 2, away := true })] }))
/-- A state of the witnesses. -/
def peers_PeerResponses_9 : Packet × State :=
  ({ dst := 5, src := 9, age := 3, rtag := 77, part := 0, stat := 0, detail := 0, addr := 0x10040, aux := 0, pmask := 0, payload := [] }, rs [⟨77, 10, .strand 0 3, { dst := 9, src := 9, age := 3, rtag := 77, part := 0, stat := 0, detail := 0, addr := 0x10040, aux := 0, pmask := 0, payload := [] }, 5, none⟩] [⟨3, 0, .awaiting (.w 1), 0x50004⟩])
/-- A state of the witnesses. -/
def peers_PeerResponses_10 : Packet × State :=
  ({ dst := 5, src := 9, age := 3, rtag := 77, part := 0, stat := 4, detail := 4, addr := 0x10040, aux := 0, pmask := 0, payload := [] }, rs [⟨77, 12, .engine 3 0, { dst := 9, src := 9, age := 3, rtag := 77, part := 0, stat := 0, detail := 0, addr := 0x10040, aux := 0, pmask := 0, payload := [] }, 5, none⟩] [] (fun s => { s with ops := [(3, { kind := .copy, strand := 0, task := 7, part := 0, sink := 0, launch := 0, tok := 3, a := 0x40000, b := 0x50000, c := 0, size := 32, count := 2, away := true })] }))
/-- Witnesses of `Peers` (part PeerResponses). -/
theorem witness_Peers_PeerResponses :
    (∃ (s : State) (p : Packet) (r : Request) (pend : Pending) (op : AmoKind) (n : Nat) (ord : Order) (x : Word) (l : Loc), List.find? (fun x => x.rtag == p.rtag && x.typ == 6) s.reqs = some r
      ∧ (r.who = Asker.strand 0 3 ∧ (s.strand 0).pend = [pend] ∧ pend.id = 3 ∧ pend.act = PendAct.amo op n ord (GReg.w 1) x l ∧ (s.strand 0).run = Run.stall Stall.atomic)
      ∧ p.stat = 0)
    ∧ (∃ (s : State) (p : Packet) (r : Request) (q : Packet) (typ : Nat) (bs : List Byte) (came : Nat), List.find? (fun x => x.rtag == p.rtag && x.typ == 16) s.reqs = some r
      ∧ r.who = Asker.mirror q typ bs came)
    ∧ (∃ (s : State) (p : Packet) (r : Request) (pend : Pending) (ty : LdType) (q : Nat) (off : Nat), List.find? (fun x => x.rtag == p.rtag && x.typ == 3) s.reqs = some r
      ∧ (r.who = Asker.strand 0 3 ∧ (s.strand 0).pend = [pend] ∧ pend.id = 3 ∧ pend.act = PendAct.load ty (GReg.w 1) (Loc.peer q off) ∧ (s.strand 0).run = Run.stall Stall.atomic)
      ∧ p.stat = 0
      ∧ p.pmask = 0
      ∧ staleFill s r (p.aux % 2 ^ 24) = false)
    ∧ (∃ (s : State) (p : Packet) (r : Request) (pend : Pending) (ty : LdType) (l : Loc), List.find? (fun x => x.rtag == p.rtag && x.typ == 3) s.reqs = some r
      ∧ (r.who = Asker.strand 0 3 ∧ (s.strand 0).pend = [pend] ∧ pend.id = 3 ∧ pend.act = PendAct.load ty (GReg.w 1) l ∧ (s.strand 0).run = Run.stall Stall.atomic)
      ∧ p.stat = 0
      ∧ staleFill s r (p.aux % 2 ^ 24) = true)
    ∧ (∃ (s : State) (p : Packet), List.find? (fun e => exBit s e bitVB && exOff s e == p.addr) (exportIds s) = some 0
      ∧ (s.vbuf 0).change = none
      ∧ (s.vbuf 0).reuseAt = none
      ∧ (∀ x ∈ s.reqs, x.rtag ≠ p.rtag))
    ∧ (∃ (s : State) (p : Packet) (pend : Pending) (c : Nat), List.find? (fun e => exBit s e bitVB && exOff s e == p.addr) (exportIds s) = some 0
      ∧ (s.vbuf 0).change = none
      ∧ (s.vbuf 0).reuseAt = none
      ∧ (s.vbuf 0).opening = some (0, 3, c, [p.src])
      ∧ (s.strand 0).pend = [pend]
      ∧ pend.id = 3
      ∧ pend.act = PendAct.awaiting (GReg.w 1))
    ∧ (∃ (s : State) (p : Packet) (r : Request) (pend : Pending), List.find? (fun x => x.rtag == p.rtag && x.typ == 8) s.reqs = some r
      ∧ (r.who = Asker.strand 0 3 ∧ (s.strand 0).pend = [pend] ∧ pend.id = 3 ∧ pend.act = PendAct.awaiting (GReg.w 1) ∧ (s.strand 0).run = Run.stall Stall.atomic))
    ∧ (∃ (s : State) (r : Request) (pend : Pending), List.find? (fun x => x.rtag == r.rtag) s.reqs = some r
      ∧ r.held.getD r.sent + 117000 ≤ s.cycle
      ∧ r.who = Asker.strand 0 3
      ∧ (s.strand 0).pend = [pend]
      ∧ pend.id = 3
      ∧ (s.strand 0).region = none
      ∧ (s.strand 0).intrap = false
      ∧ (s.strand 0).run ≠ Run.bound)
    ∧ (∃ (s : State) (p : Packet) (r : Request), List.find? (fun x => x.rtag == r.rtag) s.reqs = some r
      ∧ s.cycle < r.held.getD r.sent + 117000
      ∧ List.find? (fun x => x.rtag == p.rtag && x.typ == 1) s.reqs = some r
      ∧ r.who = Asker.put 0)
    ∧ (∃ (s : State) (p : Packet) (r : Request), List.find? (fun x => x.rtag == p.rtag && x.typ == 12) s.reqs = some r
      ∧ r.who = Asker.engine 3 0
      ∧ p.stat = 0)
    ∧ (∃ (s : State) (p : Packet) (r : Request) (pend : Pending), List.find? (fun x => x.rtag == p.rtag && x.typ == 10) s.reqs = some r
      ∧ (r.who = Asker.strand 0 3 ∧ (s.strand 0).pend = [pend] ∧ pend.id = 3 ∧ pend.act = PendAct.awaiting (GReg.w 1) ∧ (s.strand 0).run = Run.stall Stall.atomic))
    ∧ (∃ (s : State) (p : Packet) (r : Request), List.find? (fun x => x.rtag == p.rtag && x.typ == 12) s.reqs = some r
      ∧ r.who = Asker.engine 3 0
      ∧ p.stat ≠ 0) := by
  exact ⟨⟨peers_PeerResponses_0.2, peers_PeerResponses_0.1, ⟨77, 6, .strand 0 3, { dst := 9, src := 9, age := 3, rtag := 77, part := 0, stat := 0, detail := 0, addr := 0x10040, aux := 0, pmask := 0, payload := [] }, 5, none⟩, ⟨3, 0, .amo .add 4 .rlx (.w 1) 6 (.peer 9 0x10044), 0x50004⟩, .add, 4, .rlx, 6, .peer 9 0x10044, by decide +kernel⟩,
    ⟨peers_PeerResponses_1.2, peers_PeerResponses_1.1, ⟨77, 16, .mirror { dst := 5, src := 9, age := 3, rtag := 5, part := 0, stat := 0, detail := 0, addr := 0x10040, aux := 0, pmask := 0, payload := [] } 2 [4] 9, { dst := 9, src := 9, age := 3, rtag := 77, part := 0, stat := 0, detail := 0, addr := 0x10040, aux := 0, pmask := 0, payload := [] }, 5, none⟩, { dst := 5, src := 9, age := 3, rtag := 5, part := 0, stat := 0, detail := 0, addr := 0x10040, aux := 0, pmask := 0, payload := [] }, 2, [4], 9, by decide +kernel⟩,
    ⟨peers_PeerResponses_2.2, peers_PeerResponses_2.1, ⟨77, 3, .strand 0 3, { dst := 9, src := 9, age := 3, rtag := 77, part := 0, stat := 0, detail := 0, addr := 0x10040, aux := 0, pmask := 0, payload := [] }, 5, none⟩, ⟨3, 0, .load .i16 (.w 1) (.peer 9 0x10044), 0x50004⟩, .i16, 9, 0x10044, by decide +kernel⟩,
    ⟨peers_PeerResponses_3.2, peers_PeerResponses_3.1, ⟨77, 3, .strand 0 3, { dst := 9, src := 9, age := 3, rtag := 77, part := 0, stat := 0, detail := 0, addr := 0x10040, aux := 0, pmask := 0, payload := [] }, 5, none⟩, ⟨3, 0, .load .i16 (.w 1) (.peer 9 0x10044), 0x50004⟩, .i16, .peer 9 0x10044, by and_intros <;> first
        | decide +kernel
        | exact stale_of (v := 4) rfl (by decide +kernel)⟩,
    ⟨peers_PeerResponses_4.2, peers_PeerResponses_4.1, by decide +kernel⟩,
    ⟨peers_PeerResponses_4.2, peers_PeerResponses_4.1, ⟨3, 0, .awaiting (.w 1), 0x50004⟩, 50, by decide +kernel⟩,
    ⟨peers_PeerResponses_5.2, peers_PeerResponses_5.1, ⟨77, 8, .strand 0 3, { dst := 9, src := 9, age := 3, rtag := 77, part := 0, stat := 0, detail := 0, addr := 0x10040, aux := 0, pmask := 0, payload := [] }, 5, none⟩, ⟨3, 0, .awaiting (.w 1), 0x50004⟩, by decide +kernel⟩,
    ⟨peers_PeerResponses_6.2, ⟨77, 3, .strand 0 3, { dst := 9, src := 9, age := 3, rtag := 77, part := 0, stat := 0, detail := 0, addr := 0x10040, aux := 0, pmask := 0, payload := [] }, 5, none⟩, ⟨3, 0, .awaiting (.w 1), 0x50004⟩, by decide +kernel⟩,
    ⟨peers_PeerResponses_7.2, peers_PeerResponses_7.1, ⟨77, 1, .put 0, { dst := 9, src := 9, age := 3, rtag := 77, part := 0, stat := 0, detail := 0, addr := 0x10040, aux := 0, pmask := 0, payload := [] }, 5, none⟩, by decide +kernel⟩,
    ⟨peers_PeerResponses_8.2, peers_PeerResponses_8.1, ⟨77, 12, .engine 3 0, { dst := 9, src := 9, age := 3, rtag := 77, part := 0, stat := 0, detail := 0, addr := 0x10040, aux := 0, pmask := 0, payload := [] }, 5, none⟩, by decide +kernel⟩,
    ⟨peers_PeerResponses_9.2, peers_PeerResponses_9.1, ⟨77, 10, .strand 0 3, { dst := 9, src := 9, age := 3, rtag := 77, part := 0, stat := 0, detail := 0, addr := 0x10040, aux := 0, pmask := 0, payload := [] }, 5, none⟩, ⟨3, 0, .awaiting (.w 1), 0x50004⟩, by decide +kernel⟩,
    ⟨peers_PeerResponses_10.2, peers_PeerResponses_10.1, ⟨77, 12, .engine 3 0, { dst := 9, src := 9, age := 3, rtag := 77, part := 0, stat := 0, detail := 0, addr := 0x10040, aux := 0, pmask := 0, payload := [] }, 5, none⟩, by decide +kernel⟩⟩

/-- A state of the witnesses. -/
def spaceOne_0 : State × ℕ × ℕ × Word × HostMsg :=
  (ow (ent [55, 54]), 9, 0, BitVec.ofNat 64 (0), { magic := 0x4F5A, ver := 1, part := 0xFF, stream := 3, seq := 1, ackn := 0, tag := 9, addr := 0x10000 + 32 * 9, payload := leBytes 8 (0) })
/-- A state of the witnesses. -/
def spaceOne_1 : State × ℕ × ℕ × Word × HostMsg :=
  (ow [], 9, 0, BitVec.ofNat 64 (0), { magic := 0x4F5A, ver := 1, part := 0xFF, stream := 3, seq := 1, ackn := 0, tag := 9, addr := 0x31000, payload := leBytes 8 (0) })
/-- A state of the witnesses. -/
def spaceOne_2 : State × ℕ × ℕ × Word × HostMsg :=
  (ow (ent [55, 52]) (vb { isSealed := true, everSealed := true, version := 4, fillers := [9, 10], lastFill := [(4, 7)] }), 9, 0, BitVec.ofNat 64 (0), { magic := 0x4F5A, ver := 1, part := 0xFF, stream := 3, seq := 1, ackn := 0, tag := 9, addr := 0x31000, payload := leBytes 8 (0) })
/-- A state of the witnesses. -/
def spaceOne_3 : State × ℕ × ℕ × Word × HostMsg :=
  (ow (ent [55, 54]), 9, 0, BitVec.ofNat 64 (0), { magic := 0x4F5A, ver := 1, part := 0xFF, stream := 3, seq := 1, ackn := 0, tag := 9, addr := 0x31000, payload := leBytes 8 (0) })
/-- A state of the witnesses. -/
def spaceOne_4 : State × ℕ × ℕ × Word × HostMsg :=
  (ow (ent [55, 54]), 9, 0, BitVec.ofNat 64 (5 * 2^16 + 1), { magic := 0x4F5A, ver := 1, part := 0xFF, stream := 3, seq := 1, ackn := 0, tag := 9, addr := 0x10000 + 32 * 9, payload := leBytes 8 (5 * 2^16 + 1) })
/-- A state of the witnesses. -/
def spaceOne_5 : State × ℕ × ℕ × Word × HostMsg :=
  (ow (ent [55, 54]), 9, 0, BitVec.ofNat 64 (0), { magic := 0x4F5A, ver := 1, part := 0xFF, stream := 3, seq := 1, ackn := 0, tag := 9, addr := 0x20000 + 0, payload := leBytes 8 (0) })
/-- Witnesses of `SpaceOne`. -/
theorem witness_SpaceOne :
    (∃ (s : State) (p : Nat) (off : Nat) (v : Word) (m : HostMsg), off < 8192
      ∧ off % 8 = 0
      ∧ exMalformed s (off / 32) (List.map (fun i => if i = off % 32 / 8 then BitVec.toNat v else exportWord s (off / 32) i) (List.range 4)) = false
      ∧ exBit s (off / 32) 63 = true
      ∧ exportWord s (off / 32) (off % 32 / 8) ≠ BitVec.toNat v
      ∧ exBit s (off / 32) bitVB = false
      ∧ admittedThrough s (off / 32) = false
      ∧ (s.vbuf (off / 32)).change = none
      ∧ (s.vbuf (off / 32)).opening = none
      ∧ (s.vbuf (off / 32)).heldFills = []
      ∧ m.part = 255
      ∧ numAt m.payload 0 8 = BitVec.toNat v
      ∧ m.addr = 65536 + 32 * p
      ∧ BitVec.toNat v / 2 ^ 16 % 8 ≤ 4
      ∧ (∀ y ∈ s.reqs, y.pkt.dst ≠ BitVec.toNat v % 1024)
      ∧ (BitVec.toNat v / 2 ^ 16 % 8 = 0 ∨ BitVec.toNat v % 2 ^ 16 ≠ 0))
    ∧ (∃ (s : State) (off : Nat) (v : Word), off < 8192
      ∧ off % 8 = 0
      ∧ exMalformed s (off / 32) (List.map (fun i => if i = off % 32 / 8 then BitVec.toNat v else exportWord s (off / 32) i) (List.range 4)) = false
      ∧ (exBit s (off / 32) 63 = false ∨ exportWord s (off / 32) (off % 32 / 8) = BitVec.toNat v))
    ∧ (∃ (s : State) (off : Nat) (v : Word), off < 8192
      ∧ off % 8 = 0
      ∧ exMalformed s (off / 32) (List.map (fun i => if i = off % 32 / 8 then BitVec.toNat v else exportWord s (off / 32) i) (List.range 4)) = false
      ∧ exBit s (off / 32) 63 = true
      ∧ exportWord s (off / 32) (off % 32 / 8) ≠ BitVec.toNat v
      ∧ exBit s (off / 32) bitVB = true
      ∧ (s.vbuf (off / 32)).fillers ≠ []
      ∧ (s.vbuf (off / 32)).change = none)
    ∧ (∃ (v : Word) (m : HostMsg), m.part = 255
      ∧ numAt m.payload 0 8 = BitVec.toNat v
      ∧ m.addr = 200704)
    ∧ (∃ (s : State) (off : Nat) (v : Word), off < 8192
      ∧ off % 8 = 0
      ∧ exMalformed s (off / 32) (List.map (fun i => if i = off % 32 / 8 then BitVec.toNat v else exportWord s (off / 32) i) (List.range 4)) = true
      ∧ (4 < BitVec.toNat v / 2 ^ 16 % 8 ∨ BitVec.toNat v / 2 ^ 16 % 8 ≠ 0 ∧ BitVec.toNat v % 2 ^ 16 = 0))
    ∧ (∃ (off : Nat) (v : Word) (m : HostMsg), m.part = 255
      ∧ numAt m.payload 0 8 = BitVec.toNat v
      ∧ m.addr = 131072 + off) := by
  exact ⟨⟨spaceOne_0.1, spaceOne_0.2.1, spaceOne_0.2.2.1, spaceOne_0.2.2.2.1, spaceOne_0.2.2.2.2, by decide +kernel⟩,
    ⟨spaceOne_1.1, spaceOne_1.2.2.1, spaceOne_1.2.2.2.1, by decide +kernel⟩,
    ⟨spaceOne_2.1, spaceOne_2.2.2.1, spaceOne_2.2.2.2.1, by decide +kernel⟩,
    ⟨spaceOne_3.2.2.2.1, spaceOne_3.2.2.2.2, by decide +kernel⟩,
    ⟨spaceOne_4.1, spaceOne_4.2.2.1, spaceOne_4.2.2.2.1, by decide +kernel⟩,
    ⟨spaceOne_5.2.2.1, spaceOne_5.2.2.2.1, spaceOne_5.2.2.2.2, by decide +kernel⟩⟩

/-- A helper of the witnesses. -/
def mg (f : Mgmt → Mgmt) (g : State → State := id) : State := g { base with mgmt := f { base.mgmt with level := 2 } }
/-- A state of the witnesses. -/
def management_0 : State :=
  mg (fun m => { m with fwBusy := true, fwPend := some (64, [1, 2, 255]), store := [(65, 7)] })
/-- A state of the witnesses. -/
def management_1 : State :=
  mg (fun m => { m with fwBusy := true, fwErasing := true, store := [(5, 7)] })
/-- A state of the witnesses. -/
def management_2 : State :=
  mg (fun m => { m with up := true, phase := .tripped }) (fun s => { s with streams := [(3, { next := 5 })], parts := [(0, { st := .running, prect := 0, enabling := some (1, 2) })] })
/-- Witnesses of `Management`. -/
theorem witness_Management :
    (∃ (s : State) (a : Nat) (bs : List Byte), s.mgmt.fwBusy = true
      ∧ s.mgmt.fwErasing = false
      ∧ s.mgmt.fwPend = some (a, bs))
    ∧ (∃ (s : State) (off : Nat) (v : Word) (y : Nat), sp1Read s s.mgmt.sp1off = some y
      ∧ (BitVec.toNat v).testBit 17 = true
      ∧ s.mgmt.up = false
      ∧ (¬((s.mgmt.netip4 ≠ 0 ∨ s.mgmt.netip6l ≠ 0 ∨ s.mgmt.netip6h ≠ 0) ∧ BitVec.toNat v % 2 ^ 16 ≠ 0 ∧ (s.mgmt.phase = Phase.ready ∨ s.mgmt.phase = Phase.tripped)))
      ∧ 12288 ≤ off
      ∧ s.mgmt.fwBusy = false
      ∧ ((List.range 32).all fun i => s.mgmt.store.get (s.mgmt.fwAddr + i) == 0) = true
      ∧ s.mgmt.sp1off = 0)
    ∧ (∃ (s : State), s.mgmt.fwBusy = true
      ∧ s.mgmt.fwErasing = true)
    ∧ (∃ (s : State), s.mgmt.attBusy = true
      ∧ (s.mgmt.phase = Phase.ready ∨ s.mgmt.phase = Phase.tripped))
    ∧ (∃ (s : State), s.mgmt.fwBusy = false
      ∧ (¬((List.range 32).all fun i => s.mgmt.store.get (s.mgmt.fwAddr + i) == 0) = true))
    ∧ (∃ (s : State) (v : Word), (BitVec.toNat v).testBit 17 = true
      ∧ s.mgmt.up = false
      ∧ ((s.mgmt.netip4 ≠ 0 ∨ s.mgmt.netip6l ≠ 0 ∨ s.mgmt.netip6h ≠ 0) ∧ BitVec.toNat v % 2 ^ 16 ≠ 0 ∧ (s.mgmt.phase = Phase.ready ∨ s.mgmt.phase = Phase.tripped)))
    ∧ (∃ (s : State), sp1Read s s.mgmt.sp1off = none)
    ∧ (∃ (s : State) (v : Word), (BitVec.toNat v).testBit 17 = false
      ∧ s.mgmt.up = true) := by
  exact ⟨⟨management_0, 64, [1,2,255], by decide +kernel⟩,
    ⟨mg id, 0x3000, BitVec.ofNat 64 (2^17 + 2^16 + 4791), Option.get (sp1Read (mg id) (mg id).mgmt.sp1off) (by decide +kernel), by decide +kernel⟩,
    ⟨management_1, by decide +kernel⟩,
    ⟨mg (fun m => { m with attBusy := true, fwAddr := 61 }), by decide +kernel⟩,
    ⟨mg (fun m => { m with fwAddr := 64, store := [(95, 9)] }), by decide +kernel⟩,
    ⟨mg (fun m => { m with netip4 := 5 }), BitVec.ofNat 64 (2^17 + 2^16 + 4791), by decide +kernel⟩,
    ⟨mg (fun m => { m with sp1off := 4 }), by decide +kernel⟩,
    ⟨management_2, BitVec.ofNat 64 (4791), by decide +kernel⟩⟩

/-- Witnesses of `Management` (part BringUp). -/
theorem witness_Management_BringUp :
    (∃ (s : State), s.mgmt.powered = false)
    ∧ (∃ (s : State), s.mgmt.powered = true
      ∧ s.mgmt.phase = Phase.boot
      ∧ checkImage s.mgmt ≠ 0)
    ∧ (∃ (s : State), s.mgmt.powered = true
      ∧ s.mgmt.phase ≠ Phase.boot) := by
  exact ⟨⟨mg (fun m => { m with powered := false, phase := .boot }), by decide +kernel⟩,
    ⟨mg (fun m => { m with phase := .boot }), by decide +kernel⟩,
    ⟨mg id, by decide +kernel⟩⟩

/-- A helper of the witnesses. -/
def mkL_Failures (st : LaunchSt := .running) : Launch :=
  { part := 0, lid := 5, queue := 2, logical := false, w := 0, h := 0, waitc := 0, need := 0, sigc := 3, sigen := true, fmbox := 0, fmcap := 0, notify := 9, tiles := [], tasks := [], st := st, cancelling := false, stream := 4 }
/-- A helper of the witnesses. -/
def tkF : Task := { part := 0, launch := 5, parent := 0, desc := ⟨0x4000, [1,2,3,4,5,6], 0, 77, []⟩, logical := false, start := 0, st := .running 4, arrival := 4 }
/-- A state of the witnesses. -/
def management_Failures_0 : State × ℕ × ℕ × ℕ × ℕ × ℕ × ℕ :=
  (mg id (fun s => { s with launches := [(5, mkL_Failures)], parts := [(0, { st := .running, prect := 0, granting := some 5 })], cycle := 77, mgmt := { s.mgmt with up := true, phase := .ready, temps := .replicate 5 1600 }, strands := [(4, { run := .ready, task := 7 })], tasks := [(7, tkF)] }), 0, 1680, 8208, 0, 2, 0)
/-- A state of the witnesses. -/
def management_Failures_1 : State × ℕ × ℕ × ℕ × ℕ × ℕ × ℕ :=
  (mg id (fun s => { s with parts := [(0, { st := .stopped, prect := 0 })] }), 0, 1680, 8208, 0, 2, 0)
/-- A state of the witnesses. -/
def management_Failures_2 : State × ℕ × ℕ × ℕ × ℕ × ℕ × ℕ :=
  (mg (fun m => { m with temps := .replicate 5 1600 }) (fun s => { s with poison := [0x2000/32], parts := [(0, { st := .off })], trowels := [(2, [1]), (3, [2])], badRows := [(2, List.range 16), (3, List.range 15)], strata := [(4, [⟨1, 1, 1, 1, 1, 1, 1, false⟩, ⟨2, 3, 1, 1, 1, 1, 1, false⟩])] }), 0, 1680, 8208, 0, 2, 0)
/-- A state of the witnesses. -/
def management_Failures_3 : State × ℕ × ℕ × ℕ × ℕ × ℕ × ℕ :=
  (mg (fun m => { m with temps := .replicate 5 1600 }) (fun s => { s with poison := [0x2000/32], parts := [(0, { st := .off })], trowels := [(2, [1]), (3, [2])], badRows := [(2, List.range 16), (3, List.range 15)], strata := [(4, [⟨1, 1, 1, 1, 1, 1, 1, false⟩, ⟨2, 3, 1, 1, 1, 1, 1, false⟩])] }), 2, 32767, 12884901888, 8, 0, 3)
/-- A state of the witnesses. -/
def management_Failures_4 : State × ℕ × ℕ × ℕ × ℕ × ℕ × ℕ :=
  (mg id (fun s => { s with launches := [(5, mkL_Failures)], parts := [(0, { st := .running, prect := 0, granting := some 5 })], cycle := 77, mgmt := { s.mgmt with up := true, phase := .ready, temps := .replicate 5 1600 }, strands := [(4, {})], tasks := [] }), 0, 1680, 8208, 0, 2, 0)
/-- A state of the witnesses. -/
def management_Failures_5 : State × ℕ × ℕ × ℕ × ℕ × ℕ × ℕ :=
  (mg (fun m => { m with temps := .replicate 5 1600 }) (fun s => { s with poison := [0x2000/32], parts := [(0, { st := .off })], trowels := [(2, [1]), (3, [2])], badRows := [(2, List.range 16), (3, List.range 15)], strata := [(4, [⟨1, 1, 1, 1, 1, 1, 1, false⟩, ⟨2, 3, 1, 1, 1, 1, 1, false⟩])] }), 4, 1840, 8192, 5, 3, 0)
/-- A state of the witnesses. -/
def management_Failures_6 : State × ℕ × ℕ × ℕ × ℕ × ℕ × ℕ :=
  (mg (fun m => { m with temps := .replicate 5 1600 }) (fun s => { s with poison := [0x2000/32], parts := [(0, { st := .off })], trowels := [(2, [1]), (3, [2])], badRows := [(2, List.range 16), (3, List.range 15)], strata := [(4, [⟨1, 1, 1, 1, 1, 1, 1, false⟩, ⟨2, 3, 1, 1, 1, 1, 1, false⟩])] }), 4, 1839, 8224, 31, 2, 1)
/-- A state of the witnesses. -/
def management_Failures_7 : State × ℕ × ℕ × ℕ × ℕ × ℕ × ℕ :=
  (mg id (fun s => { s with launches := [(5, mkL_Failures)], parts := [(0, { st := .running, prect := 0, granting := some 5 })], cycle := 77, mgmt := { s.mgmt with up := true, phase := .ready, temps := .replicate 5 1600 }, strands := [(4, {})], tasks := [] }), 4, 1840, 8192, 5, 3, 0)
/-- A state of the witnesses. -/
def management_Failures_8 : State × ℕ × ℕ × ℕ × ℕ × ℕ × ℕ :=
  (mg (fun m => { m with temps := .replicate 5 1600 }) (fun s => { s with poison := [0x2000/32], parts := [(0, { st := .off })], trowels := [(2, [1]), (3, [2])], badRows := [(2, List.range 16), (3, List.range 15)], strata := [(4, [⟨1, 1, 1, 1, 1, 1, 1, false⟩, ⟨2, 3, 1, 1, 1, 1, 1, false⟩])] }), 2, 1679, 4611686018427387904, 0, 1, 0)
/-- Witnesses of `Management` (part Failures). -/
theorem witness_Management_Failures :
    (∃ (s : State) (p : Nat) (l : Launch) (id : Nat) (tid : Nat) (x : Machine.Task), ((s.part p).st = PState.running ∧ (s.part p).busy = false ∧ (s.part p).haltedBit = false)
      ∧ s.tasks = [(tid, x)]
      ∧ x.st = TaskSt.running id
      ∧ x.launch = 5
      ∧ s.ctxs = []
      ∧ s.ops = []
      ∧ s.launches = [(5, l)]
      ∧ l.part = p
      ∧ l.st = LaunchSt.running)
    ∧ (∃ (s : State) (c : Nat) (p : Nat) (q : Nat), s.clusterPart c = some q
      ∧ (s.part q).st ≠ PState.running
      ∧ s.clusterPart c = some p)
    ∧ (∃ (s : State) (die : Nat) (temp : Nat) (pa : Nat) (c : Nat) (n : Nat) (x : EccSite), (match x with | EccSite.granule a => isNear a | EccSite.line a => isNear a | x => true) = true
      ∧ (isNear (pa / 32 * 32) = true ∨ isFar (pa / 32 * 32) = true)
      ∧ isPoisoned s (Loc.mem (pa / 32 * 32)) = true
      ∧ s.remapped.has n = false
      ∧ 16 ≤ List.length (s.badRows.getD n [])
      ∧ s.clusterPart c = none
      ∧ (¬((s.mgmt.temps[die]?.getD 0).toInt < 16 * 115 ∧ 16 * 115 ≤ (BitVec.ofNat 16 temp).toInt))
      ∧ ((s.mgmt.temps[die]?.getD 0).toInt < 16 * 105 ∧ 16 * 105 ≤ (BitVec.ofNat 16 temp).toInt)
      ∧ isPoisoned s (Loc.spad pa) = false
      ∧ (∀ c ∈ s.cores, c.2.red = []))
    ∧ (∃ (s : State) (c : Nat) (n : Nat) (bad : List Nat) (a : Nat), s.remapped.has n = false
      ∧ 16 ≤ List.length (s.badRows.getD n [])
      ∧ (∀ c ∈ s.cores, c.2.red = [])
      ∧ a ∈ bad
      ∧ homeSlice a = n)
    ∧ (∃ (s : State) (n : Nat), (s.strand n).run = Run.ready
      ∧ (s.strand n).halted = false
      ∧ (s.strand n).intrap = false
      ∧ (s.strand n).pend = []
      ∧ (s.strand n).region = none)
    ∧ (∃ (s : State) (c : Nat) (p : Nat) (l : Launch), s.clusterPart c = some p
      ∧ ((s.part p).st = PState.running ∧ (s.part p).busy = false ∧ (s.part p).haltedBit = false)
      ∧ (s.tasks = [] ∧ s.ctxs = [] ∧ s.ops = [] ∧ s.launches = [(5, l)] ∧ l.part = p ∧ l.st = LaunchSt.running ∧ partStrands s p = [])
      ∧ s.mgmt.up = true)
    ∧ (∃ (s : State) (die : Nat) (temp : Nat) (n : Nat) (p : Nat), ((s.mgmt.temps[die]?.getD 0).toInt < 16 * 115 ∧ 16 * 115 ≤ (BitVec.ofNat 16 temp).toInt)
      ∧ (∀ q ∈ List.range 8, q ≠ p → (s.part q).st ≠ PState.running)
      ∧ (s.remapped.has n = true ∨ List.length (s.badRows.getD n []) < 16)
      ∧ (s.part p).st ≠ PState.running
      ∧ p < 8)
    ∧ (∃ (s : State) (pa : Nat) (c : Nat), (isNear (pa / 32 * 32) = true ∨ isFar (pa / 32 * 32) = true)
      ∧ isPoisoned s (Loc.mem (pa / 32 * 32)) = false
      ∧ (∀ c ∈ s.cores, c.2.red = []))
    ∧ (∃ (s : State) (die : Nat) (temp : Nat) (p : Nat) (l : Launch), ((s.mgmt.temps[die]?.getD 0).toInt < 16 * 115 ∧ 16 * 115 ≤ (BitVec.ofNat 16 temp).toInt)
      ∧ (∀ q ∈ List.range 8, q ≠ p → (s.part q).st ≠ PState.running)
      ∧ p < 8
      ∧ ((s.part p).st = PState.running ∧ (s.part p).busy = false ∧ (s.part p).haltedBit = false)
      ∧ (s.tasks = [] ∧ s.ctxs = [] ∧ s.ops = [] ∧ s.launches = [(5, l)] ∧ l.part = p ∧ l.st = LaunchSt.running ∧ partStrands s p = []))
    ∧ (∃ (s : State) (die : Nat) (temp : Nat), (¬((s.mgmt.temps[die]?.getD 0).toInt < 16 * 105 ∧ 16 * 105 ≤ (BitVec.ofNat 16 temp).toInt))) := by
  exact ⟨⟨management_Failures_0.1, management_Failures_0.2.2.2.2.2.2, mkL_Failures, 4, 7, tkF, by decide +kernel⟩,
    ⟨management_Failures_1.1, management_Failures_1.2.2.2.2.1, management_Failures_1.2.2.2.2.2.2, Option.get ((management_Failures_1.1).clusterPart (management_Failures_1.2.2.2.2.1)) (by decide +kernel), by decide +kernel⟩,
    ⟨management_Failures_2.1, management_Failures_2.2.1, management_Failures_2.2.2.1, management_Failures_2.2.2.2.1, management_Failures_2.2.2.2.2.1, management_Failures_2.2.2.2.2.2.1, .granule 0x2000, by decide +kernel⟩,
    ⟨management_Failures_2.1, management_Failures_2.2.2.2.2.1, management_Failures_2.2.2.2.2.2.1, [0x20000, 0x220000, 0x40], (([0x20000, 0x220000, 0x40]))[0], by decide +kernel⟩,
    ⟨management_Failures_3.1, management_Failures_3.2.2.2.2.2.1, by decide +kernel⟩,
    ⟨management_Failures_4.1, management_Failures_4.2.2.2.2.1, management_Failures_4.2.2.2.2.2.2, mkL_Failures, by decide +kernel⟩,
    ⟨management_Failures_5.1, management_Failures_5.2.1, management_Failures_5.2.2.1, management_Failures_5.2.2.2.2.2.1, management_Failures_5.2.2.2.2.2.2, by decide +kernel⟩,
    ⟨management_Failures_6.1, management_Failures_6.2.2.2.1, management_Failures_6.2.2.2.2.1, by decide +kernel⟩,
    ⟨management_Failures_7.1, management_Failures_7.2.1, management_Failures_7.2.2.1, management_Failures_7.2.2.2.2.2.2, mkL_Failures, by decide +kernel⟩,
    ⟨management_Failures_8.1, management_Failures_8.2.1, management_Failures_8.2.2.1, by decide +kernel⟩⟩

end Sys2Proof.Tests
end

section
/-! SUPPORT. The words that the integer instructions of 07 write, as the statements of that family speak of them: exact integers,
bit counts, packed corners, and the six conditions of R173. -/

namespace Sys2Proof.Machine

/-! ## Products and extremes (R172) -/

/-- Bits 127..64 of an exact integer are those of its floor division by 2^64. -/
theorem extractLsb'_ofInt_high (p : Int) : (BitVec.ofInt 128 p).extractLsb' 64 64 = BitVec.ofInt 64 (p / 2 ^ 64) := by
  apply BitVec.eq_of_toNat_eq
  simp only [BitVec.extractLsb'_toNat, BitVec.toNat_ofInt, Nat.shiftRight_eq_div_pow]
  omega

theorem mulHigh_eq (x y : Word) : mulHigh x y = (x.signExtend 128 * y.signExtend 128).extractLsb' 64 64 := by
  have hprod : x.signExtend 128 * y.signExtend 128 = BitVec.ofInt 128 (x.toInt * y.toInt) := (BitVec.ofInt_mul ..).symm
  rw [hprod, extractLsb'_ofInt_high, mulHigh]

theorem mulHighN_eq (x y : Word) : mulHighN x y = (x.zeroExtend 128 * y.zeroExtend 128).extractLsb' 64 64 := by
  apply BitVec.eq_of_toNat_eq
  have hfits : x.toNat * y.toNat < 2 ^ 128 :=
    calc x.toNat * y.toNat < 2 ^ 64 * 2 ^ 64 := Nat.mul_lt_mul'' x.isLt y.isLt
      _ = 2 ^ 128 := by norm_num
  have hx : x.toNat % 2 ^ 128 = x.toNat := Nat.mod_eq_of_lt (by omega)
  have hy : y.toNat % 2 ^ 128 = y.toNat := Nat.mod_eq_of_lt (by omega)
  simp only [mulHighN, BitVec.extractLsb'_toNat, BitVec.toNat_ofNat, BitVec.toNat_mul, BitVec.truncate_eq_setWidth,
    BitVec.toNat_setWidth, Nat.shiftRight_eq_div_pow, hx, hy, Nat.mod_eq_of_lt hfits]

theorem ite_slt_eq_min (x y : Word) : (if x.slt y then x else y) = BitVec.ofInt 64 (min x.toInt y.toInt) := by
  by_cases h : x.toInt < y.toInt
  · simp [BitVec.slt_iff_toInt_lt, h, min_eq_left h.le]
  · simp [BitVec.slt_iff_toInt_lt, h, min_eq_right (not_lt.1 h)]

theorem ite_slt_eq_max (x y : Word) : (if x.slt y then y else x) = BitVec.ofInt 64 (max x.toInt y.toInt) := by
  by_cases h : x.toInt < y.toInt
  · simp [BitVec.slt_iff_toInt_lt, h, max_eq_right h.le]
  · simp [BitVec.slt_iff_toInt_lt, h, max_eq_left (not_lt.1 h)]

theorem ite_ult_eq_min (x y : Word) : (if x.ult y then x else y) = BitVec.ofNat 64 (min x.toNat y.toNat) := by
  by_cases h : x.toNat < y.toNat
  · simp [BitVec.ult_eq_decide, h, min_eq_left h.le]
  · simp [BitVec.ult_eq_decide, h, min_eq_right (not_lt.1 h)]

theorem ite_ult_eq_max (x y : Word) : (if x.ult y then y else x) = BitVec.ofNat 64 (max x.toNat y.toNat) := by
  by_cases h : x.toNat < y.toNat
  · simp [BitVec.ult_eq_decide, h, max_eq_right h.le]
  · simp [BitVec.ult_eq_decide, h, max_eq_left (not_lt.1 h)]

/-! ## Counts of bits (R172) -/

theorem bitLen_le_iff (m k : Nat) : bitLen m ≤ k ↔ m < 2 ^ k := by
  by_cases h : m = 0
  · simp [bitLen, h]
  · simp [bitLen, h, Nat.log2_lt h]

/-- Every bit from the length on is clear. -/
theorem testBit_of_bitLen_le {m i : Nat} (h : bitLen m ≤ i) : m.testBit i = false :=
  Nat.testBit_lt_two_pow ((bitLen_le_iff m i).1 h)

/-- The highest set bit is the one below the length. -/
theorem testBit_bitLen_sub_one {m : Nat} (h : 0 < bitLen m) : m.testBit (bitLen m - 1) = true := by
  have hm : m ≠ 0 := by rintro rfl; simp [bitLen] at h
  simpa [bitLen, hm] using Nat.testBit_log2 hm

theorem bitLen_word_le (x : Word) : bitLen x.toNat ≤ 64 := (bitLen_le_iff _ _).2 x.isLt

theorem clz64_spec (x : Word) :
    clz64 x ≤ 64 ∧ (∀ i < 64, 64 - clz64 x ≤ i → x.getLsbD i = false) ∧ (clz64 x < 64 → x.getLsbD (63 - clz64 x) = true) := by
  have hlen := bitLen_word_le x
  unfold clz64
  refine ⟨Nat.sub_le .., fun i _ hi => testBit_of_bitLen_le (m := x.toNat) (by omega), fun hlt => ?_⟩
  have htop : 63 - (64 - bitLen x.toNat) = bitLen x.toNat - 1 := by omega
  rw [htop]
  exact testBit_bitLen_sub_one (m := x.toNat) (by omega)

theorem ctz64_spec (x : Word) :
    ctz64 x ≤ 64 ∧ (∀ i < ctz64 x, x.getLsbD i = false) ∧ (ctz64 x < 64 → x.getLsbD (ctz64 x) = true) := by
  unfold ctz64
  cases hfind : (List.range 64).find? fun i => x.getLsbD i with
  | none =>
    have hzero := List.find?_range_eq_none.1 hfind
    exact ⟨le_rfl, by simpa using hzero, fun h => absurd h (lt_irrefl _)⟩
  | some n =>
    obtain ⟨hset, hmem, hbelow⟩ := List.find?_range_eq_some.1 hfind
    exact ⟨(List.mem_range.1 hmem).le, by simpa using hbelow, fun _ => hset⟩

theorem popcount_eq_card (x : Word) : popcount x = ((Finset.range 64).filter fun i => x.getLsbD i = true).card := by
  rw [← Nat.count_eq_card_filter_range]
  simp [popcount, Nat.count]

/-! ## Corners of a rectangle (R181) -/

theorem corner_eq (x : Word) : corner x = if x.toNat < 65536 then x.toNat else 0xFFFF := by
  simp [corner, Nat.div_eq_zero_iff]

/-! ## Conditions (R173) -/

/-- What each condition says of two words. -/
def Cond.Meets (c : Cond) (x y : Word) : Prop :=
  match c with
  | .eq => x = y
  | .ne => x ≠ y
  | .lt => x.toInt < y.toInt
  | .ge => y.toInt ≤ x.toInt
  | .ltn => x.toNat < y.toNat
  | .gen => y.toNat ≤ x.toNat

theorem holds_iff_meets (c : Cond) (x y : Word) : holds c x y = true ↔ Cond.Meets c x y := by
  cases c with
  | eq | ne => simp [holds, Cond.Meets]
  | lt | ge => simp [holds, Cond.Meets, BitVec.slt_eq_decide]
  | ltn | gen => simp [holds, Cond.Meets, BitVec.ult_eq_decide]

theorem boolWord_holds_of_meets {c : Cond} {x y : Word} (h : Cond.Meets c x y) : boolWord (holds c x y) = 1 := by
  simp [boolWord, (holds_iff_meets c x y).2 h]

theorem boolWord_holds_of_not_meets {c : Cond} {x y : Word} (h : ¬Cond.Meets c x y) : boolWord (holds c x y) = 0 := by
  simp [boolWord, mt (holds_iff_meets c x y).1 h]

theorem comparand_eq (c : Cond) (i : BitVec 13) :
    comparand c i = if c = .ltn ∨ c = .gen then i.zeroExtend 64 else i.signExtend 64 := by
  cases c <;> rfl

/-! ## Branches (R186) -/

/-- The strand at the target of a taken branch. -/
def Strand.atTarget (t : Strand) (off : BitVec 16) : Strand := { t with pc := t.pc + 4 * off.signExtend 64 }

theorem branch_eq (s : State) (c : Bool) (off : BitVec 16) :
    (Host.Outcome.next (branch s s.cur c off) : Out) = became s (if c = true then s.cur.atTarget off else s.cur.next) := by
  cases c <;> rfl

theorem execBr_go {s : State} {a b : GReg} (h : NoStall s [a, b]) (c : Cond) (off : BitVec 16) :
    execBr c a b off s =
      became s (if holds c (s.cur.read a) (s.cur.read b) = true then s.cur.atTarget off else s.cur.next) := by
  rw [execBr, withRegs_go h, branch_eq]

theorem execBz_go {s : State} {a : GReg} (h : NoStall s [a]) (off : BitVec 16) :
    execBz a off s = became s (if s.cur.read a = 0 then s.cur.atTarget off else s.cur.next) := by
  rw [execBz, withRegs_go h, branch_eq]
  simp only [beq_iff_eq]

theorem execBnz_go {s : State} {a : GReg} (h : NoStall s [a]) (off : BitVec 16) :
    execBnz a off s = became s (if s.cur.read a = 0 then s.cur.next else s.cur.atTarget off) := by
  rw [execBnz, withRegs_go h, branch_eq]
  simp only [bne_iff_ne, ite_not]

/-! ## Forms with operands of their own -/

theorem next_write_eq_wrote (s : State) (d : GReg) (w : Word) :
    (Host.Outcome.next (s.setCur (s.cur.write d w).next) : Out) = wrote s d w := by
  simp [wrote, became, Strand.next]

theorem execSel_go {s : State} {d a b : GReg} (h : NoStall s [d, a, b]) :
    execSel d a b s = wrote s d (if s.cur.read d = 0 then s.cur.read b else s.cur.read a) := by
  rw [execSel, withRegs_go h, next_write_eq_wrote, ite_not]

theorem execLui_go {s : State} {d : GReg} (h : NoStall s [d]) (i : BitVec 16) :
    execLui d i s = wrote s d (i.signExtend 64 <<< 16) := by
  rw [execLui, withRegs_go h, next_write_eq_wrote, sext]

end Sys2Proof.Machine
end

section
/-! SUPPORT. Bit fields, digests and mesh arithmetic (07 R176 to R180). -/

namespace Sys2Proof.Machine

/-! ## BEXT and BDEP (R176)

The loops of the model count the set mask bits passed so far. Started at position i with the count of the mask bits below i, each
keeps that count equal to the rank of its position. -/

/-- The number of mask bits below a position. -/
def maskRank (b : Word) (i : Nat) : Nat := Nat.count (fun j => b.getLsbD j = true) i

theorem maskRank_eq_card (b : Word) (i : Nat) :
    maskRank b i = ((Finset.range i).filter fun j => b.getLsbD j = true).card := Nat.count_eq_card_filter_range ..

@[simp] theorem maskRank_zero (b : Word) : maskRank b 0 = 0 := Nat.count_zero _

theorem maskRank_succ_of_set {b : Word} {i : Nat} (h : b.getLsbD i = true) : maskRank b (i + 1) = maskRank b i + 1 := by
  simp [maskRank, Nat.count_succ, h]

theorem maskRank_succ_of_clear {b : Word} {i : Nat} (h : ¬b.getLsbD i = true) : maskRank b (i + 1) = maskRank b i := by
  simp [maskRank, Nat.count_succ, h]

theorem maskRank_le (b : Word) (i : Nat) : maskRank b i ≤ i := Nat.count_le _

/-- One bit below a multiple of the next power of two is read on its own. -/
theorem testBit_bit_add {r k : Nat} (c : Bool) (h : 2 ^ (k + 1) ∣ r) (m : Nat) :
    (c.toNat * 2 ^ k + r).testBit m = if m = k then c else r.testBit m := by
  obtain ⟨q, rfl⟩ := h
  have hlow : c.toNat * 2 ^ k < 2 ^ (k + 1) := by cases c <;> simp [Nat.pow_succ]
  rw [Nat.add_comm, Nat.two_pow_add_eq_or_of_lt hlow, Nat.testBit_or, Nat.testBit_two_pow_mul]
  rcases eq_or_ne m k with rfl | hne
  · cases c <;> simp
  · have hbit : (c.toNat * 2 ^ k).testBit m = false := by cases c <;> simp [hne.symm]
    rw [hbit, Bool.or_false, if_neg hne]

theorem two_pow_dvd_bextLoop (a b : Word) (n i j : Nat) : 2 ^ j ∣ bextLoop a b n i j := by
  induction n generalizing i j with
  | zero => exact dvd_zero _
  | succ n ih =>
    unfold bextLoop
    split
    · exact dvd_add (dvd_mul_left ..) (dvd_trans (pow_dvd_pow 2 j.le_succ) (ih ..))
    · exact ih ..

theorem two_pow_dvd_bdepLoop (a b : Word) (n i j : Nat) : 2 ^ i ∣ bdepLoop a b n i j := by
  induction n generalizing i j with
  | zero => exact dvd_zero _
  | succ n ih =>
    unfold bdepLoop
    have hrest (j : Nat) : 2 ^ i ∣ bdepLoop a b n (i + 1) j := dvd_trans (pow_dvd_pow 2 i.le_succ) (ih ..)
    split
    · exact dvd_add (dvd_mul_left ..) (hrest _)
    · exact hrest _

/-- A bit of a loop's number after a set mask bit: this position's own, or one of the rest. -/
theorem testBit_bextLoop_succ_of_set (a : Word) {b : Word} {i : Nat} (h : b.getLsbD i = true) (n k : Nat) :
    (bextLoop a b (n + 1) i (maskRank b i)).testBit k =
      if k = maskRank b i then a.getLsbD i else (bextLoop a b n (i + 1) (maskRank b (i + 1))).testBit k := by
  rw [bextLoop, if_pos h, maskRank_succ_of_set h, testBit_bit_add _ (two_pow_dvd_bextLoop ..)]

theorem bextLoop_succ_of_clear (a : Word) {b : Word} {i : Nat} (h : ¬b.getLsbD i = true) (n : Nat) :
    bextLoop a b (n + 1) i (maskRank b i) = bextLoop a b n (i + 1) (maskRank b (i + 1)) := by
  rw [bextLoop, if_neg h, maskRank_succ_of_clear h]

theorem testBit_bdepLoop_succ (a b : Word) (i n k : Nat) :
    (bdepLoop a b (n + 1) i (maskRank b i)).testBit k =
      if k = i then b.getLsbD i && a.getLsbD (maskRank b i) else (bdepLoop a b n (i + 1) (maskRank b (i + 1))).testBit k := by
  by_cases h : b.getLsbD i = true
  · rw [bdepLoop, if_pos h, maskRank_succ_of_set h, testBit_bit_add _ (two_pow_dvd_bdepLoop ..), h, Bool.true_and]
  · have hstep : bdepLoop a b (n + 1) i (maskRank b i)
        = (false).toNat * 2 ^ i + bdepLoop a b n (i + 1) (maskRank b (i + 1)) := by
      rw [bdepLoop, if_neg h, maskRank_succ_of_clear h]; simp
    rw [hstep, testBit_bit_add _ (two_pow_dvd_bdepLoop ..), Bool.eq_false_iff.2 h, Bool.false_and]

/-- Each selected bit stands at its rank. -/
theorem testBit_bextLoop_maskRank (a : Word) {b : Word} {m : Nat} (hm : b.getLsbD m = true) (n i : Nat) (hi : i ≤ m)
    (hn : m < i + n) : (bextLoop a b n i (maskRank b i)).testBit (maskRank b m) = a.getLsbD m := by
  induction n generalizing i with
  | zero => omega
  | succ n ih =>
    rcases hi.eq_or_lt with rfl | hlt
    · rw [testBit_bextLoop_succ_of_set a hm, if_pos rfl]
    · have hrest := ih (i + 1) hlt (by omega)
      by_cases hb : b.getLsbD i = true
      · have hrank : maskRank b i < maskRank b m := Nat.count_strict_mono hb hlt
        rw [testBit_bextLoop_succ_of_set a hb, if_neg hrank.ne', hrest]
      · rw [bextLoop_succ_of_clear a hb, hrest]

/-- Above the number of mask bits nothing is set. -/
theorem testBit_bextLoop_of_le (a b : Word) {k : Nat} (n i : Nat) (hk : maskRank b (i + n) ≤ k) :
    (bextLoop a b n i (maskRank b i)).testBit k = false := by
  induction n generalizing i with
  | zero => exact Nat.zero_testBit k
  | succ n ih =>
    have hrest := ih (i + 1) (by rwa [Nat.add_right_comm])
    by_cases hb : b.getLsbD i = true
    · have hrank : maskRank b i < k :=
        lt_of_lt_of_le (Nat.count_strict_mono hb (by omega : i < i + (n + 1))) hk
      rw [testBit_bextLoop_succ_of_set a hb, if_neg hrank.ne', hrest]
    · rw [bextLoop_succ_of_clear a hb, hrest]

theorem testBit_bdepLoop (a b : Word) {m : Nat} (n i : Nat) (hi : i ≤ m) (hn : m < i + n) :
    (bdepLoop a b n i (maskRank b i)).testBit m = (b.getLsbD m && a.getLsbD (maskRank b m)) := by
  induction n generalizing i with
  | zero => omega
  | succ n ih =>
    rw [testBit_bdepLoop_succ]
    rcases hi.eq_or_lt with rfl | hlt
    · rw [if_pos rfl]
    · rw [if_neg hlt.ne', ih (i + 1) hlt (by omega)]

theorem getLsbD_bext64_maskRank (a : Word) {b : Word} {m : Nat} (hlt : m < 64) (hm : b.getLsbD m = true) :
    (bext64 a b).getLsbD (maskRank b m) = a.getLsbD m := by
  have hrank : maskRank b m < 64 := (maskRank_le b m).trans_lt hlt
  have hbit := testBit_bextLoop_maskRank a hm 64 0 (Nat.zero_le m) (by omega)
  rw [maskRank_zero] at hbit
  rw [bext64, BitVec.getLsbD_ofNat, hbit, decide_eq_true hrank, Bool.true_and]

theorem getLsbD_bext64_of_le (a b : Word) {k : Nat} (hk : maskRank b 64 ≤ k) : (bext64 a b).getLsbD k = false := by
  have hbit := testBit_bextLoop_of_le a b 64 0 hk
  rw [maskRank_zero] at hbit
  rw [bext64, BitVec.getLsbD_ofNat, hbit, Bool.and_false]

theorem getLsbD_bdep64 (a b : Word) {m : Nat} (hlt : m < 64) :
    (bdep64 a b).getLsbD m = (b.getLsbD m && a.getLsbD (maskRank b m)) := by
  have hbit := testBit_bdepLoop a b 64 0 (Nat.zero_le m) (by omega)
  rw [maskRank_zero] at hbit
  rw [bdep64, BitVec.getLsbD_ofNat, hbit, decide_eq_true hlt, Bool.true_and]

/-! ## CRC32C and HAMD (R177, R179) -/

theorem crc64_eq (x y : Word) :
    crc64 x y = ((List.range 64).foldl (fun c i => crcBit c (y.getLsbD i)) (x.extractLsb' 0 32)).zeroExtend 64 := by
  have hlow : (x.truncate 32 : BitVec 32) = x.extractLsb' 0 32 := BitVec.setWidth_eq_extractLsb' (by decide)
  rw [crc64, hlow, zext]

theorem popcount_xor_eq_card (x y : Word) :
    popcount (x ^^^ y) = ((Finset.range 64).filter fun j => x.getLsbD j ≠ y.getLsbD j).card := by
  simp [popcount_eq_card]

/-- The distance of two groups is the sum of the distances of their registers. -/
theorem sum_popcount_groups (t : Strand) (a b : GReg) :
    (((t.group a).zip (t.group b)).map fun p => popcount (p.1 ^^^ p.2)).sum =
      (Finset.range 4).sum fun i => popcount (t.read (GReg.plus a i) ^^^ t.read (GReg.plus b i)) := by
  simp [Strand.group, List.range_succ, Finset.sum_range_succ, Nat.add_assoc]

theorem execHamd_go {s : State} {d a b : GReg} (h : NoStall s (d :: groupRegs a ++ groupRegs b)) :
    execHamd d a b s = wrote s d (BitVec.ofNat 64 ((Finset.range 4).sum fun i =>
      popcount (s.cur.read (GReg.plus a i) ^^^ s.cur.read (GReg.plus b i)))) := by
  rw [execHamd, withRegs_go h, ← sum_popcount_groups]
  exact next_write_eq_wrote ..

/-! ## MESHXY (R180) -/

/-- The first operand is a scratchpad address; else it is a packed coordinate. -/
def isPadAddress (a : Word) : Bool := a.toNat / 2 ^ 48 % 16 == 8

/-- The first operand names a core. -/
def NamesCore (a : Word) : Prop :=
  if isPadAddress a then a.toNat / 2 ^ 18 % 32 ≤ 23 else a.toNat < 65536 ∧ a.toNat % 256 ≤ 47 ∧ a.toNat / 256 ≤ 15

/-- The column of that core. -/
def baseX (a : Word) : Nat :=
  if isPadAddress a then 6 * (a.toNat / 2 ^ 23 % 32 % 8) + a.toNat / 2 ^ 18 % 32 % 6 else a.toNat % 256

/-- Its row. -/
def baseY (a : Word) : Nat :=
  if isPadAddress a then 4 * (a.toNat / 2 ^ 23 % 32 / 8) + a.toNat / 2 ^ 18 % 32 / 6 else a.toNat / 256

/-- The column that the first signed offset leads to. -/
def movedX (a b : Word) : Int := baseX a + (b.extractLsb' 0 8).toInt

/-- The row that the second leads to. -/
def movedY (a b : Word) : Int := baseY a + (b.extractLsb' 8 8).toInt

/-- The result names a core. -/
def Lands (a b : Word) : Prop := NamesCore a ∧ 0 ≤ movedX a b ∧ movedX a b ≤ 47 ∧ 0 ≤ movedY a b ∧ movedY a b ≤ 15

theorem isPadAddress_iff (a : Word) : isPadAddress a = true ↔ wbits a 51 48 = 8 := by
  simp [isPadAddress, wbits, bitsOf]

theorem meshBase_of_pad {a : Word} (h : isPadAddress a = true) :
    meshBase a = if 23 < a.toNat / 2 ^ 18 % 32 then none else some (baseX a, baseY a) := by
  rw [meshBase, if_pos ((isPadAddress_iff a).1 h), baseX, baseY, if_pos h, if_pos h]; rfl

theorem meshBase_of_packed {a : Word} (h : isPadAddress a = false) : meshBase a = unpackXY a.toNat := by
  rw [meshBase, if_neg (mt (isPadAddress_iff a).2 (by simp [h]))]

theorem unpackXY_eq (w : Nat) :
    unpackXY w = if w < 65536 ∧ w % 256 ≤ 47 ∧ w / 256 ≤ 15 then some (w % 256, w / 256) else none := by
  by_cases h : w < 65536
  · have hrow : w / 256 % 256 = w / 256 := Nat.mod_eq_of_lt (by omega)
    simp [unpackXY, h, hrow, Nat.div_eq_zero_iff]
  · simp [unpackXY, h, Nat.div_eq_zero_iff]

theorem meshBase_of_namesCore {a : Word} (h : NamesCore a) : meshBase a = some (baseX a, baseY a) := by
  unfold NamesCore at h
  cases hpad : isPadAddress a with
  | true =>
    rw [hpad, if_pos rfl] at h
    rw [meshBase_of_pad hpad, if_neg h.not_gt]
  | false =>
    rw [hpad, if_neg Bool.false_ne_true] at h
    rw [meshBase_of_packed hpad, unpackXY_eq, if_pos h]
    simp [baseX, baseY, hpad]

theorem meshBase_of_not_namesCore {a : Word} (h : ¬NamesCore a) : meshBase a = none := by
  unfold NamesCore at h
  cases hpad : isPadAddress a with
  | true =>
    rw [hpad, if_pos rfl] at h
    rw [meshBase_of_pad hpad, if_pos (not_le.1 h)]
  | false =>
    rw [hpad, if_neg Bool.false_ne_true] at h
    rw [meshBase_of_packed hpad, unpackXY_eq, if_neg h]

/-- A byte of a word, read as its own pattern. -/
theorem ofNat8_toNat_div (b : Word) (k : Nat) : BitVec.ofNat 8 (b.toNat / 2 ^ k) = b.extractLsb' k 8 := by
  apply BitVec.eq_of_toNat_eq
  simp [Nat.shiftRight_eq_div_pow]

theorem meshxy_of_namesCore {a : Word} (b : Word) (h : NamesCore a) :
    meshxy a b = if movedX a b < 0 ∨ 47 < movedX a b ∨ movedY a b < 0 ∨ 15 < movedY a b then 0xFFFF
      else BitVec.ofInt 64 (movedX a b + 256 * movedY a b) := by
  have hx : BitVec.ofNat 8 b.toNat = b.extractLsb' 0 8 := by simpa using ofNat8_toNat_div b 0
  have hy : BitVec.ofNat 8 (b.toNat / 256) = b.extractLsb' 8 8 := ofNat8_toNat_div b 8
  rw [meshxy, meshBase_of_namesCore h, hx, hy]; rfl

theorem meshxy_of_lands {a b : Word} (h : Lands a b) : meshxy a b = BitVec.ofInt 64 (movedX a b + 256 * movedY a b) := by
  obtain ⟨hcore, hbounds⟩ := h
  rw [meshxy_of_namesCore b hcore, if_neg (by omega)]

theorem meshxy_of_not_lands {a b : Word} (h : ¬Lands a b) : meshxy a b = 0xFFFF := by
  by_cases hcore : NamesCore a
  · have hout : movedX a b < 0 ∨ 47 < movedX a b ∨ movedY a b < 0 ∨ 15 < movedY a b := by
      by_contra hin
      exact h ⟨hcore, by omega⟩
    rw [meshxy_of_namesCore b hcore, if_pos hout]
  · rw [meshxy, meshBase_of_not_namesCore hcore]

end Sys2Proof.Machine
end

section
/-! The family of 07: its statements settled. -/

namespace Sys2Proof.Machine

/-- Settles O10: each form is a word-level function under `alu` or `alu1`, and its word is the one named. -/
theorem integerResults : Obligations.IntegerResults := by
  unfold Obligations.IntegerResults
  refine ⟨fun s d a b sh h => ?_, fun s d a i n h hd => ?_, fun s d a b h => ?_, fun s d a h => ?_⟩
  · refine ⟨alu_go h (· + ·), alu_go h (· - ·), alu_go h (· * ·), alu_go h (· &&& ·), alu_go h (· ||| ·), alu_go h (· ^^^ ·),
      alu_go h (· &&& ~~~·), alu_go h (fun x y => x <<< amount y), alu_go h (fun x y => x >>> amount y),
      alu_go h (fun x y => x.sshiftRight (amount y)), alu_go h (fun x y => x.rotateLeft (amount y)),
      execSel_go h, alu_go h (fun x y => x + y <<< sh.toNat), alu_go h hash, ?_⟩
    simp only [← corner_eq]
    exact alu_go h rectWord
  · exact ⟨alu1_go h (· + sext i), alu1_go h (· * sext i), alu1_go h (· &&& zext i), alu1_go h (· ||| zext i),
      alu1_go h (· ^^^ zext i), alu1_go h (· <<< n.toNat), alu1_go h (· >>> n.toNat), alu1_go h (·.sshiftRight n.toNat),
      alu1_go h (·.rotateLeft n.toNat), execLui_go hd i⟩
  · simp only [← mulHigh_eq, ← mulHighN_eq, ← ite_slt_eq_min, ← ite_slt_eq_max, ← ite_ult_eq_min, ← ite_ult_eq_max]
    exact ⟨alu_go h mulHigh, alu_go h mulHighN, alu_go h fun x y => if x.slt y then x else y,
      alu_go h fun x y => if x.slt y then y else x, alu_go h fun x y => if x.ult y then x else y,
      alu_go h fun x y => if x.ult y then y else x⟩
  · obtain ⟨hclz, hclear, hlead⟩ := clz64_spec (s.cur.read a)
    obtain ⟨hctz, hzeros, htrail⟩ := ctz64_spec (s.cur.read a)
    refine ⟨⟨_, hclz, alu1_go h fun x => BitVec.ofNat 64 (clz64 x), hclear, hlead⟩,
      ⟨_, hctz, alu1_go h fun x => BitVec.ofNat 64 (ctz64 x), hzeros, htrail⟩, ?_⟩
    simp only [← popcount_eq_card]
    exact alu1_go h fun x => BitVec.ofNat 64 (popcount x)

/-- Settles O11: each form in terms of `holds`, which is the condition that the statement names. -/
theorem compareAndBranch : Obligations.CompareAndBranch := by
  unfold Obligations.CompareAndBranch
  intro s c d a b i off hdab hab hda ha meets x y z taken next
  have hz : comparand c i = z := comparand_eq c i
  have hcmp : exec (.cmp c d a b) s = wrote s d (boolWord (holds c x y)) := alu_go hdab fun x y => boolWord (holds c x y)
  have hcmpi : exec (.cmpi c d a i) s = wrote s d (boolWord (holds c x z)) :=
    hz ▸ alu1_go hda fun x => boolWord (holds c x (comparand c i))
  have hbr : exec (.br c a b off) s = became s (if holds c x y = true then taken else next) := execBr_go hab c off
  refine ⟨fun h => ⟨?_, ?_⟩, fun h => ⟨?_, ?_⟩, fun h => ?_, fun h => ?_, execBz_go ha off, execBnz_go ha off⟩
  · rw [hcmp, boolWord_holds_of_meets h]
  · rw [hbr, if_pos ((holds_iff_meets c x y).2 h)]
  · rw [hcmp, boolWord_holds_of_not_meets h]
  · rw [hbr, if_neg (mt (holds_iff_meets c x y).1 h)]
  · rw [hcmpi, boolWord_holds_of_meets h]
  · rw [hcmpi, boolWord_holds_of_not_meets h]

/-- Settles O12: BEXT and BDEP by the ranks that their loops keep, MESHXY by where its two offsets lead. -/
theorem fieldsAndDigests : Obligations.FieldsAndDigests := by
  unfold Obligations.FieldsAndDigests
  refine ⟨fun s d a b h => ?_, fun s d a b h => ?_⟩
  · simp only [← maskRank_eq_card]
    exact ⟨⟨_, alu_go h bext64, fun _ hlt hm => getLsbD_bext64_maskRank _ hlt hm, fun _ hk => getLsbD_bext64_of_le _ _ hk⟩,
      _, alu_go h bdep64, fun _ hlt => getLsbD_bdep64 _ _ hlt⟩
  · refine ⟨(alu_go h crc64).trans (congrArg _ (crc64_eq ..)), fun hgroups => ?_,
      fun hin => (alu_go h meshxy).trans (congrArg _ (meshxy_of_lands hin)),
      fun hout => (alu_go h meshxy).trans (congrArg _ (meshxy_of_not_lands hout))⟩
    simp only [← popcount_xor_eq_card]
    exact execHamd_go hgroups

end Sys2Proof.Machine
end

section
/-! SUPPORT. The candidate queue of a strand (09 R249 to R251): keys compare as ranks, an insertion keeps the queue in order, and
the strand that each SRCH instruction leaves. -/

namespace Sys2Proof.Machine

/-! ## Order (R249, R250) -/

/-- The rank of a key as an integer: a smaller rank is better. -/
def Strand.rankKey (t : Strand) (x : Word) : Int :=
  let v : Int := if t.candSigned then x.toInt else x.toNat
  if t.candLargest then -v else v

theorem Strand.better_eq_decide_rankKey (t : Strand) (x y : Word) :
    t.better x y = decide (t.rankKey x < t.rankKey y) := by
  unfold Strand.better Strand.rankKey
  cases t.candSigned <;> cases t.candLargest <;> simp [BitVec.ult, BitVec.slt]

theorem Strand.better_iff (t : Strand) (x y : Word) : t.better x y = true ↔ t.rankKey x < t.rankKey y := by
  simp [t.better_eq_decide_rankKey]

theorem Strand.better_eq_false_iff (t : Strand) (x y : Word) : t.better x y = false ↔ t.rankKey y ≤ t.rankKey x := by
  simp [t.better_eq_decide_rankKey]

/-- p stands before q in a queue in order: q is not better, and of equal keys p was pushed earlier. -/
def Strand.Ahead (t : Strand) (p q : Cand) : Prop :=
  t.better q.key p.key = false ∧ (t.better p.key q.key = false → p.order < q.order)

theorem Strand.ahead_of_better {t : Strand} {p q : Cand} (h : t.better p.key q.key = true) : t.Ahead p q :=
  ⟨(t.better_eq_false_iff ..).2 ((t.better_iff ..).1 h).le, fun hn => absurd h (by simp [hn])⟩

/-- A candidate that is better than p is better than all that p stands before. -/
theorem Strand.better_of_better_of_ahead {t : Strand} {c p q : Cand} (h : t.better c.key p.key = true) (hpq : t.Ahead p q) :
    t.better c.key q.key = true :=
  (t.better_iff ..).2 (((t.better_iff ..).1 h).trans_le ((t.better_eq_false_iff ..).1 hpq.1))

/-! ## Insertion (R250) -/

theorem Strand.insertCand_perm (t : Strand) (c : Cand) (l : List Cand) : (t.insertCand c l).Perm (c :: l) := by
  induction l with
  | nil => exact .refl _
  | cons e es ih =>
    unfold Strand.insertCand
    split
    · exact .refl _
    · exact (ih.cons e).trans (.swap c e es)

/-- A candidate pushed after all of a queue in order goes into its place. -/
theorem Strand.insertCand_pairwise_ahead {t : Strand} {c : Cand} {l : List Cand} (hl : l.Pairwise t.Ahead)
    (hlast : ∀ p ∈ l, p.order < c.order) : (t.insertCand c l).Pairwise t.Ahead := by
  induction l with
  | nil => exact List.pairwise_singleton _ _
  | cons e es ih =>
    obtain ⟨he, hes⟩ := List.pairwise_cons.1 hl
    obtain ⟨hlaste, hlastes⟩ := List.forall_mem_cons.1 hlast
    unfold Strand.insertCand
    split
    next hb =>
      exact List.pairwise_cons.2 ⟨List.forall_mem_cons.2 ⟨ahead_of_better hb, fun q hq =>
        ahead_of_better (better_of_better_of_ahead hb (he q hq))⟩, hl⟩
    next hb =>
      have hec : t.Ahead e c := ⟨Bool.eq_false_iff.2 hb, fun _ => hlaste⟩
      have hall : ∀ q ∈ c :: es, t.Ahead e q := List.forall_mem_cons.2 ⟨hec, he⟩
      exact List.pairwise_cons.2 ⟨fun q hq => hall q ((t.insertCand_perm c es).subset hq), ih hes hlastes⟩

/-! ## The three instructions -/

theorem wbits_six_zero (x : Word) : wbits x 6 0 = x.toNat % 128 := by simp [wbits, bitsOf]

theorem wbits_sixtyThree_ten (x : Word) : wbits x 63 10 = x.toNat / 1024 :=
  Nat.mod_eq_of_lt (Nat.div_lt_of_lt_mul x.isLt)

/-- CQINIT's limits in the value of its operand. -/
theorem candConfigOk_iff (x : Word) : candConfigOk x = true ↔
    x.toNat < 1024 ∧ x.toNat / 128 % 2 = 0 ∧ 1 ≤ x.toNat % 128 ∧ x.toNat % 128 ≤ 64 := by
  have hbit : x.getLsbD 7 = decide (x.toNat / 128 % 2 = 1) := Nat.testBit_eq_decide_div_mod_eq
  simp only [candConfigOk, hbit, Bool.and_eq_true, beq_iff_eq, Bool.not_eq_true', decide_eq_false_iff_not, decide_eq_true_eq]
  rw [wbits_six_zero, wbits_sixtyThree_ten]
  omega

theorem execCqinit_of_ok {s : State} {a : GReg} (h : NoStall s [a]) (hok : candConfigOk (s.cur.read a) = true) :
    execCqinit a s = became s { s.cur with
      cands := [], candCap := (s.cur.read a).toNat % 128, candLargest := (s.cur.read a).getLsbD 8,
      candSigned := (s.cur.read a).getLsbD 9, candNext := 0, status := 0, pc := s.cur.pc + 4 } := by
  rw [execCqinit, withRegs_go h, if_pos hok, Strand.initCands, wbits_six_zero]
  rfl

theorem execCqinit_of_not_ok {s : State} {a : GReg} (h : NoStall s [a]) (hok : ¬candConfigOk (s.cur.read a) = true) :
    execCqinit a s = became s { s.cur with status := 6, pc := s.cur.pc + 4 } := by
  rw [execCqinit, withRegs_go h, if_neg hok]
  rfl

/-- The strand after a push into the entries l, with DETAIL detail. -/
def Strand.afterPush (t : Strand) (c : Cand) (l : List Cand) (detail : Nat) : Strand :=
  { t with cands := t.insertCand c l, candNext := t.candNext + 1, status := statusWord .ok detail 0, pc := t.pc + 4 }

theorem Strand.pushCand_of_room {t : Strand} (h : t.cands.length < t.candCap) (key payload : Word) :
    t.pushCand key payload = t.afterPush ⟨key, payload, t.candNext⟩ t.cands 0 := by
  rw [pushCand, if_pos h]
  rfl

theorem Strand.pushCand_of_full {t : Strand} {l : List Cand} {w : Cand} (h : t.candCap ≤ t.cands.length)
    (hl : t.cands = l ++ [w]) (key payload : Word) :
    t.pushCand key payload =
      if t.better key w.key = true then t.afterPush ⟨key, payload, t.candNext⟩ l 1
      else t.statusNext (Machine.status .refused) := by
  rw [pushCand, if_neg h.not_gt, hl, List.getLast?_concat, List.dropLast_concat]
  rfl

theorem execCqpush_go {s : State} {a b : GReg} (h : NoStall s [a, b]) :
    execCqpush a b s = became s (s.cur.pushCand (s.cur.read a) (s.cur.read b)) := withRegs_go h _

/-- The strand with the entries l as its queue. -/
def Strand.withCands (t : Strand) (l : List Cand) : Strand := { t with cands := l }

/-- A register write does not meet the queue. -/
theorem Strand.write_withCands (t : Strand) (l : List Cand) (r : GReg) (w : Word) :
    (t.withCands l).write r w = (t.write r w).withCands l := by
  cases r with
  | g n => by_cases hn : n = 0 <;> simp [Strand.write, Strand.withCands, hn]
  | w n => cases ht : t.intrap <;> simp [Strand.write, Strand.withCands, Strand.win, ht]

theorem Strand.popCand_of_empty {t : Strand} (h : t.cands = []) (d : GReg) :
    t.popCand d = t.statusNext (Machine.status .exhausted) := by
  simp only [popCand, h]

theorem Strand.popCand_of_cons {t : Strand} {w : Cand} {l : List Cand} (h : t.cands = w :: l) (d : GReg) :
    t.popCand d = { (t.write d w.key).write (GReg.plus d 1) w.payload with cands := l, status := 0, pc := t.pc + 4 } := by
  have hpop : t.popCand d =
      (((t.withCands l).write d w.key).write (GReg.plus d 1) w.payload).statusNext (Machine.status .ok) := by
    simp only [popCand, h, withCands]
  rw [hpop, write_withCands, write_withCands]
  simp only [statusNext, next, withCands, write_pc]
  rfl

theorem execCqpop_go {s : State} {d : GReg} (h : NoStall s (pairRegs d)) :
    execCqpop d s = became s (s.cur.popCand d) := withRegs_go h _

end Sys2Proof.Machine
end

section
/-! The family of 09: its statements settled. -/

namespace Sys2Proof.Machine

/-- Settles O35: keys compare as integer ranks, so that an insertion behind every entry that is not worse keeps the queue in
order. -/
theorem candidateQueue : Obligations.CandidateQueue := by
  unfold Obligations.CandidateQueue
  intro s d a b ha hab hd t x c ordered pushed
  have hpushed (detail : Nat) (l : List Cand)
      (h : t.pushCand (t.read a) (t.read b) = t.afterPush c l detail) : pushed (statusWord .ok detail 0) l :=
    ⟨_, (execCqpush_go hab).trans (congrArg _ h), t.insertCand_perm c l,
      fun hl hlast => Strand.insertCand_pairwise_ahead (t := t) (c := c) hl hlast⟩
  refine ⟨fun p q => ?_, fun h1 h2 h3 h4 => execCqinit_of_ok ha ((candConfigOk_iff _).2 ⟨h1, h2, h3, h4⟩),
    fun h => execCqinit_of_not_ok ha (mt (candConfigOk_iff (t.read a)).1 (by omega)),
    fun h => hpushed 0 _ (Strand.pushCand_of_room h ..), fun l w hfull hl => ?_,
    fun h => (execCqpop_go hd).trans (congrArg _ (Strand.popCand_of_empty h d)),
    fun w l h => (execCqpop_go hd).trans (congrArg _ (Strand.popCand_of_cons h d))⟩
  · unfold Strand.better
    cases t.candSigned <;> cases t.candLargest <;> rfl
  · have hpush := Strand.pushCand_of_full hfull hl (t.read a) (t.read b)
    refine ⟨fun hb => hpushed 1 l (hpush.trans (if_pos hb)), fun hb => ?_⟩
    exact (execCqpush_go hab).trans (congrArg _ (hpush.trans (if_neg (Bool.eq_false_iff.1 hb))))

end Sys2Proof.Machine
end
